-- ==== Sys2Proof/Word.lean ====
section
/-! DEFINITION. Word types, byte and bit helpers, and the sparse maps every sparse array of the block is held in. -/

namespace Sys2Proof

abbrev Byte := BitVec 8
abbrev Word32 := BitVec 32
abbrev Word64 := BitVec 64

/-- A sparse array: pairs (key, value), keys strictly rising, no value equal to what an unlisted key reads as. -/
abbrev AMap (α : Type) := List (Nat × α)

/-- The value at key `k`; `d` is what an unlisted key reads as. -/
def AMap.get {α : Type} (d : α) : AMap α → Nat → α
  | [], _ => d
  | (a, v) :: r, k => if a = k then v else AMap.get d r k

/-- Set key `k` to `v`, keeping the canonical form (writing the default removes the entry). -/
def AMap.set {α : Type} [DecidableEq α] (d : α) : AMap α → Nat → α → AMap α
  | [], k, v => if v = d then [] else [(k, v)]
  | (a, w) :: r, k, v =>
    if k < a then (if v = d then (a, w) :: r else (k, v) :: (a, w) :: r)
    else if k = a then (if v = d then r else (a, v) :: r)
    else (a, w) :: AMap.set d r k v

/-- Update the value at key `k` by `f`. -/
def AMap.upd {α : Type} [DecidableEq α] (d : α) (m : AMap α) (k : Nat) (f : α → α) : AMap α :=
  AMap.set d m k (f (AMap.get d m k))

/-- Keep only the entries whose key and value pass `p`. -/
def AMap.keep {α : Type} (p : Nat → α → Bool) (m : AMap α) : AMap α := m.filter (fun e => p e.1 e.2)

/-- Every key is above `k` and the keys rise strictly; no value is the default. -/
def AMap.wfFrom {α : Type} [DecidableEq α] (d : α) : Option Nat → AMap α → Bool
  | _, [] => true
  | lo, (a, v) :: r =>
    (match lo with | none => true | some k => decide (k < a)) && decide (v ≠ d) && AMap.wfFrom d (some a) r

/-- The canonical form of a sparse array. -/
def AMap.wf {α : Type} [DecidableEq α] (d : α) (m : AMap α) : Bool := AMap.wfFrom d none m

/-- Bits `[hi:lo]` of a Nat. -/
def bits (n hi lo : Nat) : Nat := (n / 2 ^ lo) % 2 ^ (hi + 1 - lo)

/-- Bit `i` of a Nat. -/
def bit (n i : Nat) : Bool := (n / 2 ^ i) % 2 == 1

/-- Bit `i` of `n` set to `b`. -/
def setBit (n i : Nat) (b : Bool) : Nat :=
  if bit n i then (if b then n else n - 2 ^ i) else (if b then n + 2 ^ i else n)

/-- Rounded-up quotient; 0 where the divisor is 0. -/
def cdiv (a b : Nat) : Nat := (a + b - 1) / b

/-- Population count of the low `w` bits. -/
def popc : Nat → Nat → Nat
  | 0, _ => 0
  | w + 1, n => n % 2 + popc w (n / 2)

/-- Indices of the set bits among the low `w` bits, ascending. -/
def setBits (w n : Nat) : List Nat := (List.range w).filter (fun i => bit n i)

/-- Little-endian value of a byte list (R2). -/
def leNat : List Byte → Nat
  | [] => 0
  | b :: r => b.toNat + 256 * leNat r

/-- The `n` low bytes of a value, little-endian (R2). -/
def leBytes : Nat → Nat → List Byte
  | 0, _ => []
  | n + 1, v => BitVec.ofNat 8 v :: leBytes n (v / 256)

/-- Bytes `[off, off + len)` of a byte list, short where the list ends. -/
def slice (l : List Byte) (off len : Nat) : List Byte := (l.drop off).take len

/-- A list with element `i` replaced. -/
def setAt {α : Type} : List α → Nat → α → List α
  | [], _, _ => []
  | _ :: r, 0, v => v :: r
  | x :: r, i + 1, v => x :: setAt r i v

/-- The signed value of the low `w` bits. -/
def sext (w n : Nat) : Int :=
  let m := n % 2 ^ w
  if m < 2 ^ (w - 1) then (m : Int) else (m : Int) - (2 ^ w : Nat)

/-- The two's complement encoding of an integer in `w` bits. -/
def unsext (w : Nat) (i : Int) : Nat := (i % ((2 ^ w : Nat) : Int)).toNat

/-- The minimum of a list of naturals, if any. -/
def minOf : List Nat → Option Nat
  | [] => none
  | a :: r => match minOf r with | none => some a | some b => some (min a b)

/-- The maximum of a list of naturals, 0 for none. -/
def maxOf (l : List Nat) : Nat := l.foldl max 0

/-- Sum of a list of naturals. -/
def sumOf (l : List Nat) : Nat := l.foldl (· + ·) 0

/-- Remove repeats, keeping first occurrences. -/
def dedup {α : Type} [DecidableEq α] : List α → List α
  | [] => []
  | a :: r => a :: (dedup r).filter (fun b => b ≠ a)

end Sys2Proof
end

