-- ==== Sys2Proof/Syntax.lean ====
section
/-! DEFINITION. The commands of the block, one constructor per row of spec/opcode_table.json, and the operand types
they carry. What arrives from outside (an address, a message, a sensor value, a part's answer) is an operand. -/

namespace Sys2Proof

/-- Who sends a catalogue request (R437). -/
inductive Requester where
  | i3c (eid : Nat)          -- an MCTP endpoint over I3C
  | vdm (eid : Nat)          -- an MCTP endpoint over PCIe VDM on the host port
  | ctx (c : Nat)            -- a client context, in-band
  | fw (component : Nat)     -- a firmware component
  deriving DecidableEq, Repr

/-- Who makes a window or doorbell access (R21, R411, R414). -/
inductive Accessor where
  | agent (a : Nat)              -- agent 16 * port + LD (R169)
  | host (pasid : Option Nat)    -- the host port's BAR0, with the request's PASID
  | porter (p : Nat)             -- a porter, acting for its part's context (R380)
  deriving DecidableEq, Repr

/-- SnpType of a MemRd (R168). -/
inductive Snp where | noOp | data | cur | inv
  deriving DecidableEq, Repr

/-- Meta0-State of a MemWr. -/
inductive Meta where | invalid | any | shared
  deriving DecidableEq, Repr

/-- What bring-up finds on a flash channel (R519, R152). -/
structure ChanFound where
  chan : Nat
  targets : Nat        -- target positions whose part answers
  luns : Nat           -- on the channel
  blocks : Nat         -- erase units of 1,024 pages
  factoryBad : List Nat := []  -- the blocks with a factory bad mark
  nvLpddr4 : Bool := true      -- the parts offer the NV-LPDDR4 data interface, 8 bits wide
  mtps : Nat := 3600           -- and train at this rate
  pageBytes : Nat := 16384
  spareBytes : Nat := 2048
  unitPages : Nat := 1024      -- pages of a block: 1,024, or 512 of each of two erased together
  suspends : Bool := true      -- program suspend and erase suspend
  levelReads : Bool := true    -- read with level offsets through SET FEATURES
  readNs : Nat := 20000        -- tR
  suspendNs : Nat := 4000
  progNs : Nat := 200000       -- tPROG
  eraseNs : Nat := 10000000    -- tBERS
  deriving DecidableEq, Repr

/-- What a peer's reply gives beside its status: D, and the rate of its slots (R79, R80). -/
structure Terms where
  d : Nat
  rate : Nat
  deriving DecidableEq, Repr

/-- The BISnp an agent answers: the line's address, and which of its open ones of that line in the order of issue (R176, R189). -/
structure Probe where
  addr : Nat
  nth : Nat := 0
  deriving DecidableEq, Repr

/-- A CXL.mem admission: the agent whose request is first, and whether its directory sector meets a real uncorrectable error (R182). -/
structure Admission where
  agent : Nat
  sectorUe : Bool := false
  deriving DecidableEq, Repr

/-- The permissions an ATS completion gives (R248). -/
structure AtsRights where
  writable : Bool
  readable : Bool := true
  deriving DecidableEq, Repr

/-- A booking query of R79: what the origin asks of the peer (R391, R392). -/
structure QueryMsg where
  origin : Nat         -- origin node
  ticket : Nat
  stall : Nat
  cls : Nat            -- 0 STEADY, 1 PROMPT, 2 BULK
  prio : Nat
  src : Nat
  dst : Nat
  length : Nat
  tally : Nat
  packet : Bool
  limit : Nat          -- the largest interval the part may take
  deriving DecidableEq, Repr

/-- A part a fault names: what failed (R72, R161, R270, R158, R401). -/
inductive FaultCause where
  | hbmUe (addr : Nat)
  | hbmCe (addr : Nat)
  | sector (addr : Nat)       -- the directory sector of a line (R182)
  | sramUe (locator : Nat)
  | sramCe (locator : Nat)
  | ldpc (locator : Nat)
  | translation (va cause : Nat)
  | link (link cause : Nat)
  | streamParity (locator : Nat)
  deriving DecidableEq, Repr

/-- The values the limit block's sensors show (R110, R526). -/
structure Sensors where
  tjC : Int
  vddMv : Nat
  iccA : Nat
  deriving DecidableEq, Repr

/-- What the regulator answers at a calibration boundary (R103, R532). -/
structure VrRead where
  eout : Option Nat    -- the output energy accumulator in µJ, none where READ_EOUT fails (R103, R105)
  vout : Option Nat    -- READ_VOUT, READ_IOUT, READ_TEMPERATURE_1, none where the read fails (R540)
  iout : Option Nat
  temp : Option Nat
  status : Option Nat  -- STATUS_WORD, none where the read fails
  wraps : Nat := 0     -- the accumulator's rollover count
  deriving DecidableEq, Repr

inductive Instr where
  -- reset and bring-up (R512-R524)
  | powerOnReset
  | rstN (lowTicks : Nat)
  | deviceReset (rq : Requester) (value : Nat)
  | linkReset (port : Nat)
  | internalResetEnd (brdPos : Nat) (cfgPooled : Bool)
  | secStart
  | hbmTrainingDone (failedStacks : Nat)
  | zeroFillDone
  | targetResetTimeout (chan target : Nat)
  | flashDiscoveryDone (found : List ChanFound)
  | checkpointLoaded (chan : Nat)
  | replayDone (chan : Nat)
  | gateOpen
  | portTrained (port rate width : Nat)
  | portDown (port : Nat)
  | linkUp (link peerNode peerPos wireTicks : Nat)
  | twineTrainTimeout (link : Nat)
  | thermtrip
  | throttleEntry (sensors : Sensors)
  | throttleRelease (sensors : Sensors)
  -- periods and boundaries
  | roundBoundary (sensors : Sensors)
  | loaderLoad
  | snapshotPeriod
  | calibrationPeriod (vr : VrRead)
  | heatPeriod (stall : Nat)
  | decayPeriod (stall : Nat)
  | checkpointPeriod (chan : Nat)
  | assemblyExpiry (rq : Requester)
  | snapshotRelease (rq : Requester)
  -- the Gate (ctx: the context whose oldest undecided request is decided)
  | entryFetch (stall : Nat)
  | queueFetch (ctx : Nat)
  | chain (ctx : Nat)
  | gatherBags (ctx : Nat)
  | search (ctx : Nat)
  | insertVectors (ctx : Nat)
  | deleteVectors (ctx : Nat)
  | runSegment (ctx : Nat)
  | copy (ctx : Nat)
  | barrow (ctx : Nat)
  | publish (ctx : Nat)
  | tableSwitch (ctx : Nat)
  | setSwitch (ctx : Nat)
  | tallyWait (ctx : Nat)
  | tallyAdd (ctx : Nat)
  | fence (ctx : Nat)
  | invalidateXlate (ctx : Nat)
  | extentClose (ctx : Nat)
  | catRead (ctx : Nat)
  | catWrite (ctx : Nat)
  | catInfo (ctx : Nat)
  | deferredAdmissionCheck (rid cmd : Nat)
  | partStart (rid cmd : Nat)
  | partComplete (rid cmd part : Nat)
  | completionRecord (rid : Nat)
  | calOverrun (rid cmd : Nat)
  | partFault (rid cmd part : Nat) (cause : FaultCause)
  -- joint bookings and Twine
  | bookingQuery (link : Nat) (q : QueryMsg)
  | bookingReply (ticket status : Nat) (d : Terms)
  | bookingConfirmation (origin ticket : Nat)
  | confirmHoldExpiry (origin ticket : Nat)
  | replyTimeout (ticket : Nat)
  | partCompletionMessage (ticket parts bytes status : Nat)
  | jointBoundExpiry (ticket : Nat)
  | skipNotice (link src stall seq : Nat)
  | creditMessage (link stall count : Nat)
  | retryRequest (link stall linkSeq : Nat)
  | trainHeaderReceive (link : Nat) (flit : BitVec 2048) (fecOk : Bool)
  | dataFlitReceive (link : Nat) (flit : BitVec 2048) (fecOk : Bool)
  | controlFlitSend (link : Nat)
  | linkDeadTicksExpiry (link : Nat)
  | laneLockLoss (link lane : Nat)
  | peerTrainingSeen (link : Nat)
  | linkRetrain (link : Nat)
  -- CXL.mem
  | memRd (agent addr : Nat) (snp : Snp)
  | memRdData (agent addr : Nat)
  | memInv (agent addr : Nat)
  | memInvNt (agent addr : Nat)
  | memClnEvct (agent addr : Nat)
  | memSpecRd (agent addr : Nat)
  | memWr (agent addr : Nat) (m : Meta) (data : BitVec 512)
  | memWrPtl (agent addr : Nat) (m : Meta) (data : BitVec 512) (mask : BitVec 64)
  | biConflict (agent addr : Nat)
  | biRspI (agent : Nat) (addr : Probe)
  | biRspS (agent : Nat) (addr : Probe)
  | biRspE (agent : Nat) (addr : Probe)
  | cxlMemAdmit (agent : Admission)
  | loadBoundExpiry (reqId : Nat)
  | biTimeout (agent addr : Nat)
  | cxlFlitAck (addr : Nat)
  | homeOrderedEntry (stall : Nat)
  -- component commands, I3C, MCTP
  | identifyMemoryDevice (port ld : Nat)
  | getSupportedLogs (port ld : Nat)
  | getLog (port ld offset length : Nat)
  | getHealthInfo (port ld : Nat)
  | getPoisonList (port ld addr length : Nat)
  | cdatRead (port handle : Nat)
  | entdaa (addr : Nat)
  | setdasa (static dyn : Nat)
  | rstdaa
  | enec (mask : Nat)
  | disec (mask : Nat)
  | setmwl (len : Nat)
  | setmrl (len : Nat)
  | setEndpointId (eid : Nat)
  | mctpRead (rq : Requester) (tag flags idx sub inst off len : Nat)
  | mctpWrite (rq : Requester) (tag flags idx sub inst off : Nat) (data : List Byte)
  | mctpInfo (rq : Requester) (tag idx sub inst : Nat)
  | identityRead (rq : Requester) (tag off len : Nat)
  | reportRequest (rq : Requester) (tag : Nat) (nonce : List Byte)
  | reportRead (rq : Requester) (tag off len : Nat)
  | debugChallenge (rq : Requester) (tag : Nat)
  | debugToken (rq : Requester) (tag : Nat) (token : List Byte)
  | reportSigned
  | reportDiscard (rq : Requester)
  | bottomTreeBuild
  -- windows
  | doorbellWrite (src : Accessor) (ctx off : Nat) (data : List Byte)
  | moverGo (src : Accessor) (chan : Nat) (ctrl : Word64)
  | registerWrite (src : Accessor) (chan off : Nat) (value : Word64)
  | tallyAddWrite (src : Accessor) (tally : Nat) (amount : Word64)
  | tallyValueWrite (src : Accessor) (tally : Nat) (value : Word64)
  -- porters
  | porterInstruction (porter : Nat)
  | predCsrWrite (porter col : Nat) (value : Word32)
  | tcAcqAll (porter : Nat)
  | tcAcqRange (porter rs1 rs2 : Nat)
  | tcRelAll (porter : Nat)
  | tcRelRange (porter rs1 rs2 : Nat)
  | tcTwait (porter rd rs1 rs2 : Nat)
  | twaitSatisfied (porter : Nat)
  | twaitBoundExpiry (porter : Nat)
  | tcTadd (porter rs1 rs2 : Nat)
  | tcAmoAdd (porter : Nat) (dbl : Bool) (rd rs1 rs2 : Nat)
  | tcAmoSwap (porter : Nat) (dbl : Bool) (rd rs1 rs2 : Nat)
  | tcAmoCas (porter : Nat) (dbl : Bool) (rd rs1 rs2 : Nat)
  | tcAmoMin (porter : Nat) (dbl : Bool) (rd rs1 rs2 : Nat)
  | tcAmoMax (porter : Nat) (dbl : Bool) (rd rs1 rs2 : Nat)
  | tcAmoMinu (porter : Nat) (dbl : Bool) (rd rs1 rs2 : Nat)
  | tcAmoMaxu (porter : Nat) (dbl : Bool) (rd rs1 rs2 : Nat)
  | tcAmoFadd (porter : Nat) (rd rs1 rs2 : Nat)
  | storeBufferDrain (porter : Nat)
  -- the round stream (col = 8 * cluster + column)
  | spanStart (col : Nat)
  | opLoadw (col : Nat)
  | opMac (col : Nat)
  | opDrain (col : Nat)
  | opPstart (col : Nat)
  | opNop (col : Nat)
  | opEnd (col : Nat)
  | moveHbmToBank (cluster : Nat)
  | moveBankToHbm (cluster : Nat)
  | moveBankToBank (cluster : Nat)
  | spanOverrun (col : Nat)
  | bankReady (cluster bank : Nat)
  -- operating points
  | oppCeiling (rq : Requester) (value : Nat)
  | oppVoltageRaise
  | frequencySwitch (vddMv : Nat)
  -- flash
  | flashArrayRead (chan slot page : Nat)
  | programResume (chan lun : Nat)
  | writebackCommit (stall frame : Nat)
  | flashProgram (chan block : Nat) (erase : Bool) (stall frame : Nat)
  | frameFree (stall frame : Nat)
  | compaction (chan : Nat)
  | channelFailed (chan : Nat)
  | ldpcRecovery (chan slot : Nat) (recovered : Bool)
  | mapRebuild (region : Nat)
  | extentRecordWrite (ext : Nat)
  -- extents
  | extentGrant (rq : Requester) (value : Nat)
  | extentRevoke (rq : Requester) (ext : Nat)
  | drainZero (ext : Nat)
  | sweepStart (ext : Nat)
  | sweepEnd (ext : Nat)
  -- stalls and pacts
  | stallCreate (rq : Requester) (stall : Nat)
  | stallRemove (rq : Requester) (stall : Nat)
  | stallSweepStart (stall : Nat)
  | stallUnused (stall : Nat)
  | consentA (rq : Requester) (pact value : Nat)
  | consentB (rq : Requester) (pact value : Nat)
  | pactInForce (pact : Nat)
  | pactLeaveForce (pact : Nat)
  | pactEmpty (pact : Nat)
  | mapSweep
  | commit (rq : Requester) (value : Nat)
  | commitValidation (group : Nat)
  | commitApply (group : Nat)
  | discard (rq : Requester) (group : Nat)
  | regionOwner (rq : Requester) (region owner : Nat)
  | tableOwner (rq : Requester) (table owner : Nat)
  | collOwner (rq : Requester) (coll owner : Nat)
  | collActivate (rq : Requester) (coll : Nat)
  | collDeactivate (rq : Requester) (coll : Nat)
  | retireRequest (rq : Requester) (coll value : Nat)
  | restockNow (rq : Requester) (coll value : Nat)
  | sideCommit (rid cmd : Nat)
  | restockStart (coll : Nat)
  | restockSwitch (coll : Nat)
  | restockDrain (coll : Nat)
  | agentStall (rq : Requester) (agent stall : Nat)
  | agentClean (rq : Requester) (agent value : Nat)
  | coherenceTest (rq : Requester) (stall value : Nat)
  | contextEnable (rq : Requester) (ctx : Nat)
  | contextDisable (rq : Requester) (ctx : Nat)
  | admitHold (rq : Requester) (stall value : Nat)
  | injectArm (rq : Requester) (detector inst value : Nat)
  | injectionAllowed (rq : Requester) (value : Nat)
  -- firmware
  | fwStage (rq : Requester) (off : Nat) (data : List Byte)
  | fwUpdateVerify (rq : Requester)
  | fwUpdateHandoff (rq : Requester)
  | fwUpdateClear (rq : Requester)
  | verifyDone
  | prepareEnd
  | prepareTimeout
  | admissionPauseStart
  | componentMove
  | secRestart
  | admissionsReopen
  | handoffRollback
  | watchdog (component : Nat)
  | fwProtection (component addr : Nat)
  | setSwitchWindow (rid : Nat)
  -- translation
  | preWalk (rid index : Nat)
  | atsCompletion (id : Nat) (ga : Option Nat) (size : Nat) (writable : AtsRights)
  | atsBoundExpiry (id : Nat)
  | atsInvalidateRequest (pasid va length : Nat)
  | iqApply (stall : Nat)
  | powerRemoval
  | blockErase (chan block : Nat)
  | checkpointValid (chan : Nat)
  deriving DecidableEq, Repr

end Sys2Proof
end

