-- ==== Sys2Proof/Config.lean ====
section
/-! DEFINITION. The free values: what the manual leaves open has no body here, so nothing can be proved of it.
Each is applied to the counter `freeCtr` of State or to the operands it depends on. -/

namespace Sys2Proof.Config

/-- A fresh value nothing constrains, of `w` bits (log entry 1). -/
opaque free : (w : Nat) → Nat → BitVec w

/-- The physical frame a grant assigns to frame `i` of a pinned extent (R137 leaves the choice open); log entry 10. -/
opaque physFrame : (grant frame : Nat) → Nat

/-- The version, digest and length of the image the part boots as shipped (R466, R477); log entry 5. -/
opaque factoryVersion : Nat
opaque factoryDigest : List Byte
/-- The digest of the boot ROM (R489). -/
opaque romDigest : List Byte
/-- The HSS public key, the endorsement and the HSS signing function of the device's secret (R486); log entry 6. -/
opaque hssPublicKey : List Byte
opaque endorsement : List Byte
opaque hssSign : (q : Nat) → (body : List Byte) → List Byte
/-- The hashes of the four vendor keys fused at manufacture (R480); log entry 6. -/
opaque vendorKeyHash : Nat → List Byte
/-- The span of the regulator's energy accumulator, in µJ, after which it wraps (R105 names PMBus for it); log entry 107. -/
opaque eoutSpan : Nat
/-- The payload a component command or CDAT read returns beyond what the manual fixes (R406); log entry 11. -/
opaque mailboxData : (command operand ctr : Nat) → List Byte
/-- Frelozer's MIPI manufacturer ID in the provisional ID (R412); log entry 11. -/
opaque mipiManufacturer : Nat

end Sys2Proof.Config
end

