-- ==== Sys2Proof/Machine/CatTable.lean ====
section
/-! DEFINITION. The catalogue's assigned entries (R12 to R540), one row each, as the chapters' tables give them. -/

namespace Sys2Proof.Machine

/-- What an entry is instanced by (R452); 12 is an injection point (R498). -/
abbrev InstKind := Nat

/-- One assigned entry. `typ`, `acc`, `priv`, `inst` carry the codes of R434 and R452; `app` 0 I, 1 B, 2 Q, 3 S;
`len` the fixed length (0: variable); `lo`, `hi` the range of a plain value (R441 check 5). -/
structure CatRow where
  sub : Nat
  name : String
  inst : InstKind
  typ : Nat
  acc : Nat
  priv : Nat
  dflt : Nat
  expert : Nat
  app : Nat
  grp : Nat
  len : Nat
  lo : Nat
  hi : Nat
  deriving DecidableEq, Repr

/-- Entries of indices 0x0000 to 0x1030. -/
def catPart0 : List (Nat × List CatRow) :=
  [(0x0000, [⟨1, "VENDOR_NAME", 0, 10, 0, 0, 0x72657a6f6c657246, 0, 0, 0, 8, 0, 0⟩,
     ⟨2, "FAMILY_NAME", 0, 10, 0, 0, 0x6c69726d6154, 0, 0, 0, 6, 0, 0⟩,
     ⟨3, "PART_NAME", 0, 10, 0, 0, 0x303436392d434d54, 0, 0, 0, 8, 0, 0⟩,
     ⟨4, "STEPPING", 0, 10, 0, 0, 0x3142, 0, 0, 0, 2, 0, 0⟩,
     ⟨5, "PART_CODE", 0, 3, 0, 0, 0x9640, 0, 0, 0, 4, 0, 0xffffffff⟩,
     ⟨6, "ORDERING_CODE", 0, 10, 0, 0, 0x4c462d31422d303436392d434d54, 0, 0, 0, 14, 0, 0⟩]),
   (0x0010, [⟨1, "CLUSTER_COUNT", 0, 1, 0, 0, 16, 0, 0, 0, 1, 0, 255⟩,
     ⟨2, "CORES_PER_CLUSTER", 0, 1, 0, 0, 8, 0, 0, 0, 1, 0, 255⟩,
     ⟨3, "ENGINES_PER_CORE", 0, 1, 0, 0, 4, 0, 0, 0, 1, 0, 255⟩,
     ⟨4, "PORTERS_PER_CORE", 0, 1, 0, 0, 2, 0, 0, 0, 1, 0, 255⟩,
     ⟨5, "MAC_COUNT", 0, 3, 0, 0, 0x20000, 0, 0, 0, 4, 0, 0xffffffff⟩]),
   (0x0020, [⟨1, "HBM_STACKS", 0, 1, 0, 0, 8, 0, 0, 0, 1, 0, 255⟩,
     ⟨2, "HBM_BYTES_INSTALLED", 0, 4, 0, 0, 0xc000000000, 0, 0, 0, 8, 0, 0xffffffffffffffff⟩]),
   (0x0030, [⟨1, "FLASH_CHANNELS_POPULATED", 0, 4, 0, 0, 0, 0, 0, 0, 8, 0, 0xffffffffffffffff⟩,
     ⟨2, "FLASH_BYTES_INSTALLED", 0, 4, 0, 0, 0, 0, 0, 0, 8, 0, 0xffffffffffffffff⟩]),
   (0x0040, [⟨1, "TWINE_LINKS", 0, 1, 0, 0, 32, 0, 0, 0, 1, 0, 255⟩,
     ⟨2, "CXL_PORTS", 0, 1, 0, 0, 8, 0, 0, 0, 1, 0, 255⟩,
     ⟨3, "BOARD_POSITION", 0, 1, 0, 0, 0, 0, 0, 0, 1, 0, 255⟩]),
   (0x1000, [⟨1, "CAL_TICK", 0, 4, 0, 0, 0, 0, 0, 0, 8, 0, 0xffffffffffffffff⟩,
     ⟨2, "ROUND_NUMBER", 0, 4, 0, 0, 0, 0, 0, 0, 8, 0, 0xffffffffffffffff⟩,
     ⟨3, "GATE_EPOCH", 0, 3, 0, 0, 0, 0, 0, 0, 4, 0, 0xffffffff⟩]),
   (0x1001, [⟨1, "CALENDAR_COUNT", 0, 2, 0, 0, 387, 0, 0, 0, 2, 0, 0xffff⟩,
     ⟨2, "SLOTS_PER_ROUND", 0, 2, 0, 0, 1024, 0, 0, 0, 2, 0, 0xffff⟩,
     ⟨3, "HORIZON_ROUNDS", 0, 2, 0, 0, 256, 0, 0, 0, 2, 0, 0xffff⟩,
     ⟨4, "BULK_HORIZON_ROUNDS", 0, 3, 0, 0, 0x10000, 0, 0, 0, 4, 0, 0xffffffff⟩,
     ⟨5, "PROMPT_LIMIT", 0, 3, 0, 0, 0x30d40, 0, 0, 0, 4, 0, 0xffffffff⟩,
     ⟨6, "STEADY_LIMIT", 0, 3, 0, 0, 0x50000, 0, 0, 0, 4, 0, 0xffffffff⟩,
     ⟨7, "DECISION_BOUND", 0, 2, 0, 0, 150, 0, 0, 0, 2, 0, 0xffff⟩,
     ⟨8, "JOINT_DECISION_BOUND", 0, 2, 0, 0, 400, 0, 0, 0, 2, 0, 0xffff⟩,
     ⟨9, "CHAIN_LIMIT", 0, 1, 0, 0, 16, 0, 0, 0, 1, 0, 255⟩,
     ⟨10, "INTAKE_DEPTH", 0, 1, 0, 0, 16, 0, 0, 0, 1, 0, 255⟩]),
   (0x1010, [⟨1, "TRACK_QUOTA", 1, 3, 1, 2, 8192, 0, 0, 0, 4, 0, 0xffffffff⟩,
     ⟨2, "TRACK_IN_USE", 1, 3, 0, 1, 0, 0, 0, 0, 4, 0, 0xffffffff⟩,
     ⟨3, "CLASS_ALLOWED", 1, 1, 1, 2, 7, 0, 1, 0, 1, 0, 7⟩,
     ⟨4, "BULK_SHARE", 1, 1, 1, 2, 25, 0, 1, 0, 1, 0, 100⟩,
     ⟨5, "ADMIT_HOLD", 1, 0, 1, 2, 0, 0, 0, 0, 1, 0, 1⟩,
     ⟨6, "PAUSE_LIMIT", 1, 2, 1, 2, 4000, 0, 1, 0, 2, 1, 4000⟩,
     ⟨7, "PAUSE_NEXT", 1, 4, 0, 1, 0, 0, 0, 0, 8, 0, 0xffffffffffffffff⟩]),
   (0x1011, [⟨1, "ACCEPTED", 1, 4, 0, 1, 0, 0, 0, 0, 8, 0, 0xffffffffffffffff⟩,
     ⟨2, "REFUSED_CALENDAR_COUNT", 1, 4, 0, 1, 0, 0, 0, 0, 8, 0, 0xffffffffffffffff⟩,
     ⟨3, "REFUSED_PURSE_COUNT", 1, 4, 0, 1, 0, 0, 0, 0, 8, 0, 0xffffffffffffffff⟩,
     ⟨4, "REFUSED_QUOTA_COUNT", 1, 4, 0, 1, 0, 0, 0, 0, 8, 0, 0xffffffffffffffff⟩,
     ⟨5, "REFUSED_PAUSED_COUNT", 1, 4, 0, 1, 0, 0, 0, 0, 8, 0, 0xffffffffffffffff⟩,
     ⟨6, "FAULTED_ON_TIME", 1, 4, 0, 1, 0, 0, 0, 0, 8, 0, 0xffffffffffffffff⟩]),
   (0x1012, [⟨1, "CAL_OCCUPANCY", 1, 11, 0, 1, 0, 0, 0, 0, 0x30600, 0, 0⟩,
     ⟨2, "CAL_OCCUPANCY_AUX", 1, 11, 0, 1, 0, 0, 0, 0, 5120, 0, 0⟩]),
   (0x1020, [⟨1, "ADMISSION_PAUSE", 0, 1, 0, 0, 0, 0, 0, 0, 1, 0, 255⟩,
     ⟨2, "ADMISSION_PAUSE_END", 0, 4, 0, 0, 0, 0, 0, 0, 8, 0, 0xffffffffffffffff⟩]),
   (0x1030, [⟨1, "TRANSIT_BOUND", 8, 2, 1, 2, 50, 0, 2, 0, 2, 20, 1000⟩,
     ⟨2, "DRIFT_MARGIN_PPM", 0, 2, 1, 2, 100, 1, 2, 0, 2, 20, 1000⟩,
     ⟨3, "CONFIRM_HOLD", 0, 2, 0, 0, 150, 0, 0, 0, 2, 0, 0xffff⟩])]

/-- Entries of indices 0x1040 to 0x3011. -/
def catPart1 : List (Nat × List CatRow) :=
  [(0x1040, [⟨1, "LOAD_BOUND_HBM", 1, 3, 0, 1, 2560, 0, 0, 0, 4, 0, 0xffffffff⟩,
     ⟨2, "LOAD_BOUND_FLASH", 1, 3, 0, 1, 0x6400, 0, 0, 0, 4, 0, 0xffffffff⟩,
     ⟨3, "LOAD_LINES_PER_ROUND", 1, 3, 1, 2, 0, 0, 1, 0, 4, 0, 0xffffffff⟩,
     ⟨4, "LOAD_MISSES_PER_ROUND", 1, 3, 1, 2, 0, 0, 1, 0, 4, 0, 0xffffffff⟩]),
   (0x2000, [⟨1, "POWER_CAP_W", 0, 2, 3, 2, 780, 0, 3, 2, 2, 300, 950⟩,
     ⟨2, "ROUND_BUDGET_UJ", 0, 3, 0, 0, 9984, 0, 0, 0, 4, 0, 0xffffffff⟩,
     ⟨3, "BASE_RESERVE_UJ", 0, 3, 3, 2, 1920, 1, 3, 2, 4, 640, 0x2f80⟩,
     ⟨4, "ASSIGNABLE_UJ", 0, 3, 0, 0, 8064, 0, 0, 0, 4, 0, 0xffffffff⟩,
     ⟨5, "ASSIGNED_UJ", 0, 3, 0, 0, 576, 0, 0, 0, 4, 0, 0xffffffff⟩]),
   (0x2010, [⟨1, "PURSE_RATE_UJ", 1, 3, 3, 2, 0, 0, 3, 2, 4, 0, 0xffffffff⟩,
     ⟨2, "PURSE_DEPTH_UJ", 1, 3, 3, 2, 0, 0, 3, 2, 4, 0, 0xffffffff⟩,
     ⟨3, "FLOAT_RATE_UJ", 1, 3, 3, 2, 0, 0, 3, 2, 4, 0, 0xffffffff⟩,
     ⟨4, "PURSE_BALANCE_UJ", 1, 8, 0, 1, 0, 0, 0, 0, 8, 0, 0xffffffffffffffff⟩,
     ⟨5, "REFUNDED_UJ", 1, 4, 0, 1, 0, 0, 0, 0, 8, 0, 0xffffffffffffffff⟩,
     ⟨6, "OVERRUN_UJ", 1, 4, 0, 1, 0, 0, 0, 0, 8, 0, 0xffffffffffffffff⟩]),
   (0x2020, [⟨1, "COEF_HBM_LINE_PJ", 0, 3, 3, 2, 875, 1, 3, 2, 4, 0, 0xffffffff⟩,
     ⟨2, "COEF_FLASH_READ_PAGE_PJ", 0, 3, 3, 2, 0x2dc6c0, 1, 3, 2, 4, 0, 0xffffffff⟩,
     ⟨3, "COEF_FLASH_PROGRAM_PAGE_PJ", 0, 3, 3, 2, 0x2dc6c00, 1, 3, 2, 4, 0, 0xffffffff⟩,
     ⟨4, "COEF_FLASH_ERASE_BLOCK_PJ", 0, 3, 3, 2, 0xaba9500, 1, 3, 2, 4, 0, 0xffffffff⟩,
     ⟨5, "COEF_LINK_FLIT_PJ", 0, 3, 3, 2, 8700, 1, 3, 2, 4, 0, 0xffffffff⟩,
     ⟨6, "COEF_SEARCH_QUERY_PJ", 0, 3, 3, 2, 0x5f5e10, 1, 3, 2, 4, 0, 0xffffffff⟩,
     ⟨7, "COEF_EMB_INDEX_PJ", 0, 3, 3, 2, 600, 1, 3, 2, 4, 0, 0xffffffff⟩,
     ⟨8, "COEF_EMB_ENTRY_PJ", 0, 3, 3, 2, 500, 1, 3, 2, 4, 0, 0xffffffff⟩,
     ⟨9, "COEF_PORT_LINE_PJ", 0, 3, 3, 2, 2200, 1, 3, 2, 4, 0, 0xffffffff⟩,
     ⟨10, "LARGE_COPY_BYTES", 0, 4, 3, 2, 0x100000, 1, 3, 2, 8, 4096, 0x10000000000⟩]),
   (0x2030, [⟨1, "OPP_COUNT", 0, 1, 0, 0, 5, 0, 0, 0, 1, 0, 255⟩,
     ⟨2, "OPP_CEILING", 0, 1, 1, 2, 3, 0, 1, 0, 1, 0, 4⟩,
     ⟨3, "OPP_POLICY", 0, 1, 1, 2, 0, 0, 1, 0, 1, 0, 1⟩,
     ⟨4, "OPP_CURRENT", 0, 1, 0, 0, 3, 0, 0, 0, 1, 0, 255⟩,
     ⟨5, "OPP_TABLE", 0, 11, 0, 0, 0, 0, 0, 0, 80, 0, 0⟩]),
   (0x2040, [⟨1, "CALIBRATION_PERIOD_ROUNDS", 0, 2, 1, 2, 64, 1, 1, 0, 2, 16, 4096⟩,
     ⟨2, "CALIBRATION_FACTOR_PPM", 0, 3, 0, 2, 0xf4240, 1, 0, 0, 4, 0, 0xffffffff⟩,
     ⟨3, "MEASURED_LAST_UJ", 0, 4, 0, 2, 0, 1, 0, 0, 8, 0, 0xffffffffffffffff⟩,
     ⟨4, "ESTIMATED_LAST_UJ", 0, 4, 0, 2, 0, 1, 0, 0, 8, 0, 0xffffffffffffffff⟩,
     ⟨5, "LEDGER_OVER", 0, 3, 0, 2, 0, 0, 0, 0, 4, 0, 0xffffffff⟩]),
   (0x2050, [⟨1, "VDD_MIN_MV", 0, 2, 0, 0, 650, 0, 0, 0, 2, 0, 0xffff⟩,
     ⟨2, "VDD_MAX_MV", 0, 2, 0, 0, 850, 0, 0, 0, 2, 0, 0xffff⟩,
     ⟨3, "TJ_THROTTLE_C", 0, 1, 0, 0, 105, 0, 0, 0, 1, 0, 255⟩,
     ⟨4, "TJ_TRIP_C", 0, 1, 0, 0, 115, 0, 0, 0, 1, 0, 255⟩,
     ⟨5, "ICC_LIMIT_A", 0, 2, 0, 0, 900, 0, 0, 0, 2, 0, 0xffff⟩,
     ⟨6, "THROTTLE_EVENTS", 0, 3, 0, 0, 0, 0, 0, 0, 4, 0, 0xffffffff⟩]),
   (0x2060, [⟨1, "VR_PMBUS_ADDRESS", 0, 1, 0, 0, 64, 0, 0, 0, 1, 0, 255⟩,
     ⟨2, "VR_STATUS_WORD", 0, 2, 0, 0, 0, 0, 0, 0, 2, 0, 0xffff⟩,
     ⟨3, "VR_VOUT_MV", 0, 2, 0, 0, 0, 0, 0, 0, 2, 0, 0xffff⟩,
     ⟨4, "VR_IOUT_A", 0, 2, 0, 0, 0, 0, 0, 0, 2, 0, 0xffff⟩,
     ⟨5, "VR_TEMP_C", 0, 6, 0, 0, 0, 0, 0, 0, 2, 0, 0xffff⟩]),
   (0x3000, [⟨1, "STALL_STATE", 1, 1, 0, 1, 0, 0, 0, 0, 1, 0, 255⟩,
     ⟨2, "STALL_CREATE", 0, 1, 2, 2, 0, 0, 0, 0, 1, 0, 255⟩,
     ⟨3, "STALL_REMOVE", 0, 1, 2, 2, 0, 0, 0, 0, 1, 0, 255⟩]),
   (0x3001, [⟨1, "STALL_LIMIT", 0, 2, 0, 0, 256, 0, 0, 0, 2, 0, 0xffff⟩]),
   (0x3010, [⟨1, "SHARE_MAP", 1, 11, 3, 2, 0, 0, 3, 3, 3888, 0, 0⟩]),
   (0x3011, [⟨1, "ROWCACHE_WAYS", 1, 3, 3, 2, 0, 0, 3, 3, 4, 0, 0xffffffff⟩])]

/-- Entries of indices 0x3012 to 0x4001. -/
def catPart2 : List (Nat × List CatRow) :=
  [(0x3012, [⟨1, "SRAM_MAP", 1, 11, 3, 2, 0, 0, 3, 3, 1280, 0, 0⟩]),
   (0x3013, [⟨1, "TALLY_BASE", 1, 2, 3, 2, 0, 0, 3, 3, 2, 0, 0xffff⟩,
     ⟨2, "TALLY_COUNT", 1, 2, 3, 2, 0, 0, 3, 3, 2, 0, 0xffff⟩]),
   (0x3014, [⟨1, "MOVER_CHANNELS", 1, 11, 3, 2, 0, 0, 3, 3, 32, 0, 0⟩]),
   (0x3015, [⟨1, "DIR_ENTRIES", 1, 3, 3, 2, 0, 0, 3, 3, 4, 0, 0xffffffff⟩,
     ⟨2, "TLB_ENTRIES", 1, 3, 3, 2, 0, 0, 3, 3, 4, 0, 0xffffffff⟩,
     ⟨3, "WALKS_PER_ROUND", 1, 2, 3, 2, 0, 0, 3, 3, 2, 0, 0xffff⟩]),
   (0x3020, [⟨1, "COMPOSITION_ID", 1, 3, 1, 2, 0, 0, 1, 0, 4, 0, 0xffffffff⟩]),
   (0x3030, [⟨1, "CONTEXT_STALL", 5, 2, 1, 2, 0xffff, 0, 2, 0, 2, 0, 0xffff⟩]),
   (0x3040, [⟨1, "PACT_KIND", 7, 1, 1, 2, 0, 1, 2, 0, 1, 0, 4⟩,
     ⟨2, "STALL_A", 7, 2, 1, 2, 0xffff, 1, 2, 0, 2, 0, 0xffff⟩,
     ⟨3, "STALL_B", 7, 2, 1, 2, 0xffff, 1, 2, 0, 2, 0, 0xffff⟩,
     ⟨4, "PACT_OBJECT", 7, 4, 1, 2, 0, 1, 2, 0, 8, 0, 0xffffffffffffffff⟩,
     ⟨5, "PACT_LIMIT", 7, 3, 1, 2, 0, 1, 2, 0, 4, 0, 1024⟩,
     ⟨6, "CONSENT_A", 7, 0, 1, 4, 0, 1, 0, 0, 1, 0, 1⟩,
     ⟨7, "CONSENT_B", 7, 0, 1, 5, 0, 1, 0, 0, 1, 0, 1⟩,
     ⟨8, "PACT_STATE", 7, 1, 0, 0, 0, 1, 0, 0, 1, 0, 255⟩]),
   (0x3041, [⟨1, "PACT_LOG", 0, 11, 0, 2, 0, 1, 0, 0, 0, 0, 0⟩,
     ⟨2, "PACTS_IN_FORCE", 1, 1, 0, 1, 0, 0, 0, 0, 1, 0, 255⟩]),
   (0x3050, [⟨1, "METER_EXTENT_GIB_ROUNDS", 1, 4, 0, 1, 0, 0, 0, 0, 8, 0, 0xffffffffffffffff⟩,
     ⟨2, "METER_HBM_BYTES", 1, 4, 0, 1, 0, 0, 0, 0, 8, 0, 0xffffffffffffffff⟩,
     ⟨3, "METER_FLASH_PAGES_READ", 1, 4, 0, 1, 0, 0, 0, 0, 8, 0, 0xffffffffffffffff⟩,
     ⟨4, "METER_FLASH_PAGES_PROGRAMMED", 1, 4, 0, 1, 0, 0, 0, 0, 8, 0, 0xffffffffffffffff⟩,
     ⟨5, "METER_COMPUTE_SLOT_CYCLES", 1, 4, 0, 1, 0, 0, 0, 0, 8, 0, 0xffffffffffffffff⟩,
     ⟨6, "METER_ENERGY_UJ", 1, 4, 0, 1, 0, 0, 0, 0, 8, 0, 0xffffffffffffffff⟩,
     ⟨7, "METER_LINK_BYTES", 1, 4, 0, 1, 0, 0, 0, 0, 8, 0, 0xffffffffffffffff⟩]),
   (0x3051, [⟨1, "SNAPSHOT_PERIOD_ROUNDS", 0, 3, 1, 2, 0x1312d, 0, 1, 0, 4, 1024, 0x1000000⟩,
     ⟨2, "METER_SNAPSHOTS", 1, 11, 0, 1, 0, 0, 0, 0, 0, 0, 0⟩]),
   (0x4000, [⟨1, "WINDOW_BASE", 0, 4, 0, 0, 0x3ff0000000000, 0, 0, 0, 8, 0, 0xffffffffffffffff⟩,
     ⟨2, "EXTENT_NUMBER_LIMIT", 0, 3, 0, 0, 0xffc00, 0, 0, 0, 4, 0, 0xffffffff⟩]),
   (0x4001, [⟨1, "HASH_SALT", 0, 2, 1, 2, 0, 1, 2, 0, 2, 0, 0x3fff⟩])]

/-- Entries of indices 0x4002 to 0x5002. -/
def catPart3 : List (Nat × List CatRow) :=
  [(0x4002, [⟨1, "NODE_NUMBER", 0, 2, 1, 2, 0, 0, 2, 0, 2, 0, 0x3fff⟩]),
   (0x4010, [⟨1, "EXTENT_GRANT", 0, 12, 2, 2, 0, 0, 0, 0, 8, 0, 0⟩,
     ⟨2, "EXTENT_REVOKE", 0, 3, 2, 2, 0, 0, 0, 0, 4, 0, 0xffffffff⟩]),
   (0x4011, [⟨1, "EXTENT_COUNT", 1, 3, 0, 1, 0, 0, 0, 0, 4, 0, 0xffffffff⟩,
     ⟨2, "EXTENT_LIST", 1, 11, 0, 1, 0, 0, 0, 0, 0, 0, 0⟩,
     ⟨3, "EXTENT_LIMIT", 1, 3, 1, 2, 0, 0, 0, 0, 4, 0, 0xffffffff⟩]),
   (0x4012, [⟨1, "DRAINS_ACTIVE", 0, 2, 0, 2, 0, 0, 0, 0, 2, 0, 0xffff⟩,
     ⟨2, "DRAIN_LIMIT", 0, 2, 0, 2, 1024, 0, 0, 0, 2, 0, 0xffff⟩]),
   (0x4020, [⟨1, "REGION_OWNER", 4, 2, 1, 2, 0xffff, 0, 2, 0, 2, 0, 0xffff⟩,
     ⟨2, "REGION_LENGTH", 4, 4, 1, 1, 0, 0, 2, 0, 8, 4096, 0x10000000000⟩,
     ⟨3, "REGION_VERSION", 4, 4, 0, 1, 0, 0, 0, 0, 8, 0, 0xffffffffffffffff⟩,
     ⟨4, "REGION_SLOTS", 4, 11, 0, 1, 0, 0, 0, 0, 64, 0, 0⟩]),
   (0x4030, [⟨1, "CACHE_FRAMES", 1, 3, 3, 2, 0, 0, 3, 3, 4, 0, 0xffffffff⟩,
     ⟨2, "CACHE_FRAMES_USABLE", 1, 3, 0, 1, 0, 0, 0, 0, 4, 0, 0xffffffff⟩,
     ⟨3, "FRAMES_RESIDENT", 1, 3, 0, 1, 0, 0, 0, 0, 4, 0, 0xffffffff⟩,
     ⟨4, "FRAMES_DIRTY", 1, 3, 0, 1, 0, 0, 0, 0, 4, 0, 0xffffffff⟩,
     ⟨5, "FRAMES_HELD", 1, 3, 0, 1, 0, 0, 0, 0, 4, 0, 0xffffffff⟩,
     ⟨6, "WRITEBACK_PAGES_PER_ROUND", 1, 2, 1, 2, 0, 0, 1, 0, 2, 0, 1024⟩,
     ⟨7, "WRITEBACK_DEFERRED", 1, 4, 0, 1, 0, 0, 0, 0, 8, 0, 0xffffffffffffffff⟩,
     ⟨8, "FRAMES_LOST", 1, 3, 0, 1, 0, 0, 0, 0, 4, 0, 0xffffffff⟩,
     ⟨9, "PREFETCH_WINDOW_ROUNDS", 1, 1, 1, 1, 8, 1, 1, 0, 1, 1, 64⟩]),
   (0x4040, [⟨1, "FLASH_SPARE_PERMILLE", 0, 2, 1, 2, 125, 1, 2, 0, 2, 63, 500⟩,
     ⟨2, "BACKED_EXTENT_CAPACITY", 0, 3, 0, 0, 0, 0, 0, 0, 4, 0, 0xffffffff⟩,
     ⟨3, "BACKED_EXTENTS_GRANTED", 0, 3, 0, 0, 0, 0, 0, 0, 4, 0, 0xffffffff⟩,
     ⟨4, "FLASH_BLOCKS_RETIRED", 0, 4, 0, 0, 0, 0, 0, 0, 8, 0, 0xffffffffffffffff⟩,
     ⟨5, "ENDURANCE_LIMIT", 0, 3, 1, 2, 3000, 1, 0, 0, 4, 100, 0x186a0⟩,
     ⟨6, "CHECKPOINT_PERIOD_ROUNDS", 0, 3, 1, 2, 0xbebc2, 0, 1, 0, 4, 0x1312d, 0x4a817c8⟩,
     ⟨7, "READ_LEAD_ROUNDS", 0, 1, 0, 0, 2, 0, 0, 0, 1, 0, 255⟩,
     ⟨8, "PROGRAM_BOUND_ROUNDS", 0, 1, 0, 0, 16, 0, 0, 0, 1, 0, 255⟩,
     ⟨9, "LDPC_EXHAUSTIONS", 0, 4, 0, 0, 0, 0, 0, 0, 8, 0, 0xffffffffffffffff⟩]),
   (0x4041, [⟨1, "CHAN_BYTES_USABLE", 9, 4, 0, 0, 0, 0, 0, 0, 8, 0, 0xffffffffffffffff⟩,
     ⟨2, "CHAN_BLOCKS_RETIRED", 9, 3, 0, 0, 0, 0, 0, 0, 4, 0, 0xffffffff⟩,
     ⟨3, "CHAN_FREE_BLOCKS", 9, 3, 0, 0, 0, 0, 0, 0, 4, 0, 0xffffffff⟩,
     ⟨4, "CHAN_ERASE_MAX", 9, 3, 0, 0, 0, 0, 0, 0, 4, 0, 0xffffffff⟩,
     ⟨5, "CHAN_STATE", 9, 1, 0, 0, 0, 0, 0, 0, 1, 0, 255⟩]),
   (0x4050, [⟨1, "HBM_FRAMES_RETIRED", 0, 3, 0, 0, 0, 0, 0, 0, 4, 0, 0xffffffff⟩,
     ⟨2, "HBM_BYTES_USABLE", 0, 4, 0, 0, 0xc000000000, 0, 0, 0, 8, 0, 0xffffffffffffffff⟩,
     ⟨3, "MAP_TABLE_BYTES", 0, 4, 0, 0, 0, 0, 0, 0, 8, 0, 0xffffffffffffffff⟩,
     ⟨4, "DEVICE_RESERVE_BYTES", 0, 4, 0, 0, 0x100000000, 0, 0, 0, 8, 0, 0xffffffffffffffff⟩,
     ⟨5, "HBM_UNRESERVED_BYTES", 0, 4, 0, 0, 0, 0, 0, 0, 8, 0, 0xffffffffffffffff⟩,
     ⟨6, "PINNED_EXTENTS_AVAILABLE", 0, 3, 0, 0, 0, 0, 0, 0, 4, 0, 0xffffffff⟩,
     ⟨7, "HBM_CE_COUNT", 0, 4, 0, 0, 0, 0, 0, 0, 8, 0, 0xffffffffffffffff⟩,
     ⟨8, "HBM_UE_COUNT", 0, 4, 0, 0, 0, 0, 0, 0, 8, 0, 0xffffffffffffffff⟩,
     ⟨9, "RETIRE_CE_THRESHOLD", 0, 2, 1, 2, 16, 1, 0, 0, 2, 1, 0xffff⟩]),
   (0x5000, [⟨1, "COHERENCE_MODE", 1, 1, 0, 1, 0, 0, 0, 0, 1, 0, 255⟩,
     ⟨2, "COHERENCE_TEST", 1, 0, 1, 2, 0, 1, 0, 0, 1, 0, 1⟩,
     ⟨3, "MODE_CHANGES", 1, 3, 0, 1, 0, 0, 0, 0, 4, 0, 0xffffffff⟩]),
   (0x5001, [⟨1, "DIR_ENTRIES_TOTAL", 0, 3, 0, 0, 0x1000000, 0, 0, 0, 4, 0, 0xffffffff⟩,
     ⟨2, "DIR_WAYS", 0, 1, 0, 0, 2, 0, 0, 0, 1, 0, 255⟩,
     ⟨3, "DIR_IN_USE", 1, 3, 0, 1, 0, 0, 0, 0, 4, 0, 0xffffffff⟩,
     ⟨4, "DIR_EVICTIONS", 1, 4, 0, 1, 0, 0, 0, 0, 8, 0, 0xffffffffffffffff⟩]),
   (0x5002, [⟨1, "BI_BOUND", 0, 2, 1, 2, 640, 0, 2, 0, 2, 100, 1000⟩,
     ⟨2, "BI_TIMEOUTS", 1, 4, 0, 1, 0, 0, 0, 0, 8, 0, 0xffffffffffffffff⟩,
     ⟨3, "BI_ISSUED", 1, 4, 0, 1, 0, 0, 0, 0, 8, 0, 0xffffffffffffffff⟩])]

/-- Entries of indices 0x5003 to 0x6000. -/
def catPart4 : List (Nat × List CatRow) :=
  [(0x5003, [⟨1, "PREDICTOR_COUNTERS", 1, 3, 0, 1, 0, 1, 0, 0, 4, 0, 0xffffffff⟩,
     ⟨2, "ATOMICS_NEAR", 1, 4, 0, 1, 0, 1, 0, 0, 8, 0, 0xffffffffffffffff⟩,
     ⟨3, "ATOMICS_FAR", 1, 4, 0, 1, 0, 1, 0, 0, 8, 0, 0xffffffffffffffff⟩,
     ⟨4, "PREDICTOR_MODE", 1, 1, 1, 1, 0, 1, 1, 0, 1, 0, 2⟩,
     ⟨5, "ATOMIC_WORST_TICKS", 0, 2, 0, 0, 800, 1, 0, 0, 2, 0, 0xffff⟩]),
   (0x5010, [⟨1, "AGENT_STALL", 6, 2, 1, 2, 0xffff, 0, 2, 0, 2, 0, 0xffff⟩,
     ⟨2, "AGENT_PRESENT", 6, 0, 0, 0, 0, 0, 0, 0, 1, 0, 1⟩,
     ⟨3, "AGENT_CLEAN", 6, 0, 1, 1, 0, 0, 0, 0, 1, 0, 1⟩,
     ⟨4, "AGENT_LINES", 6, 3, 0, 1, 0, 0, 0, 0, 4, 0, 0xffffffff⟩]),
   (0x5100, [⟨1, "TALLY_TOTAL", 0, 2, 0, 0, 0x4000, 0, 0, 0, 2, 0, 0xffff⟩,
     ⟨2, "TALLY_WINDOW_BASE", 0, 4, 0, 0, 0x3ff0004000000, 0, 0, 0, 8, 0, 0xffffffffffffffff⟩,
     ⟨3, "TALLY_OVERFLOWS", 1, 4, 0, 1, 0, 0, 0, 0, 8, 0, 0xffffffffffffffff⟩,
     ⟨4, "TWAIT_BOUND_MAX", 0, 3, 0, 0, 0xfffff, 0, 0, 0, 4, 0, 0xffffffff⟩]),
   (0x5101, [⟨1, "STORE_BUFFER_ENTRIES", 0, 1, 0, 0, 16, 0, 0, 0, 1, 0, 255⟩,
     ⟨2, "ACQUIRE_ALL_CYCLES", 0, 1, 0, 0, 16, 0, 0, 0, 1, 0, 255⟩,
     ⟨3, "ACQUIRE_RANGE_LINES_MAX", 0, 1, 0, 0, 64, 0, 0, 0, 1, 0, 255⟩,
     ⟨4, "RELEASE_WORST_TICKS", 0, 2, 0, 0, 840, 0, 0, 0, 2, 0, 0xffff⟩]),
   (0x5102, [⟨1, "REMOTE_SEQUENCE_BITS", 0, 1, 0, 0, 24, 1, 0, 0, 1, 0, 255⟩,
     ⟨2, "REMOTE_GAPS", 1, 4, 0, 1, 0, 1, 0, 0, 8, 0, 0xffffffffffffffff⟩]),
   (0x5800, [⟨1, "PROFILES_SUPPORTED", 0, 1, 0, 0, 7, 0, 0, 0, 1, 0, 255⟩,
     ⟨2, "DIE_TLB_ENTRIES", 0, 3, 0, 0, 0x10000, 0, 0, 0, 4, 0, 0xffffffff⟩,
     ⟨3, "CLUSTER_TLB_ENTRIES", 0, 2, 0, 0, 4096, 0, 0, 0, 2, 0, 0xffff⟩,
     ⟨4, "WALK_BOUND", 0, 2, 0, 0, 200, 0, 0, 0, 2, 0, 0xffff⟩,
     ⟨5, "PREWALK_LEAD_ROUNDS", 0, 1, 0, 0, 1, 0, 0, 0, 1, 0, 255⟩,
     ⟨6, "ATS_BOUND", 0, 2, 1, 2, 1000, 0, 2, 0, 2, 200, 0x2710⟩]),
   (0x5810, [⟨1, "XLATE_MODE", 5, 1, 1, 1, 0, 0, 2, 0, 1, 0, 2⟩,
     ⟨2, "PROFILE", 5, 1, 1, 1, 2, 0, 2, 0, 1, 0, 2⟩,
     ⟨3, "TABLE_ROOT", 5, 4, 1, 1, 0, 0, 2, 0, 8, 0, 0xffffffffffffffff⟩,
     ⟨4, "MIN_LEAF", 5, 1, 1, 1, 2, 0, 2, 0, 1, 0, 3⟩,
     ⟨5, "NODE_MAP", 5, 11, 1, 1, 0xffffffffffffffffffffffffffffffffffffffffffffffffffffffffffffffffffffffffffffffffffffffffffffffffffffffffffffffffffffffffffffffffffffffffffffffffffffffffffffffffffffffffffffffffffffffffffffffffffffffffffffffffffffffffffffffffffffffffffffffffffffffffffffffff, 0, 2, 0, 128, 0, 0⟩,
     ⟨6, "PASID", 5, 3, 1, 2, 0, 0, 2, 0, 4, 0, 0xfffff⟩]),
   (0x5820, [⟨1, "XR_BASE", 1, 4, 1, 1, 0, 0, 2, 0, 8, 0, 0xffffffffffffffff⟩,
     ⟨2, "XR_ENTRIES", 1, 3, 1, 1, 0, 0, 2, 0, 4, 0, 0xffffffff⟩,
     ⟨3, "XR_WRITTEN_TALLY", 1, 2, 1, 1, 0, 0, 2, 0, 2, 0, 0xffff⟩,
     ⟨4, "XR_CONSUMED_TALLY", 1, 2, 1, 1, 0, 0, 2, 0, 2, 0, 0xffff⟩,
     ⟨5, "XR_DROPPED", 1, 4, 0, 1, 0, 0, 0, 0, 8, 0, 0xffffffffffffffff⟩]),
   (0x5830, [⟨1, "IQ_BASE", 1, 4, 1, 1, 0, 0, 2, 0, 8, 0, 0xffffffffffffffff⟩,
     ⟨2, "IQ_ENTRIES", 1, 3, 1, 1, 0, 0, 2, 0, 4, 0, 0xffffffff⟩,
     ⟨3, "IQ_TAIL_TALLY", 1, 2, 1, 1, 0, 0, 2, 0, 2, 0, 0xffff⟩,
     ⟨4, "IQ_DONE_TALLY", 1, 2, 1, 1, 0, 0, 2, 0, 2, 0, 0xffff⟩,
     ⟨5, "IQ_APPLIED", 1, 4, 0, 1, 0, 0, 0, 0, 8, 0, 0xffffffffffffffff⟩]),
   (0x5840, [⟨1, "HEAT_PERIOD_ROUNDS", 1, 3, 1, 1, 8192, 0, 1, 0, 4, 1024, 0x100000⟩,
     ⟨2, "HEAT_THRESHOLD", 1, 3, 1, 1, 4096, 0, 1, 0, 4, 1, 0x1fffe⟩,
     ⟨3, "HEAT_ENABLE", 1, 0, 1, 1, 0, 0, 1, 0, 1, 0, 1⟩]),
   (0x5841, [⟨1, "XLATE_FAULTS", 1, 4, 0, 1, 0, 0, 0, 0, 8, 0, 0xffffffffffffffff⟩,
     ⟨2, "WALKS_DONE", 1, 4, 0, 1, 0, 0, 0, 0, 8, 0, 0xffffffffffffffff⟩,
     ⟨3, "TLB_HELD", 1, 3, 0, 1, 0, 0, 0, 0, 4, 0, 0xffffffff⟩]),
   (0x6000, [⟨1, "FORMATS_SUPPORTED", 0, 2, 0, 0, 4095, 0, 0, 0, 2, 0, 0xffff⟩,
     ⟨2, "SPARSITY_SUPPORTED", 0, 1, 0, 0, 3, 0, 0, 0, 1, 0, 255⟩,
     ⟨3, "MX_BLOCK_ELEMENTS", 0, 1, 0, 0, 32, 0, 0, 0, 1, 0, 255⟩,
     ⟨4, "SCRATCHPAD_BANKS", 0, 1, 0, 0, 32, 0, 0, 0, 1, 0, 255⟩,
     ⟨5, "SCRATCHPAD_BANK_BYTES", 0, 3, 0, 0, 0x8000, 0, 0, 0, 4, 0, 0xffffffff⟩,
     ⟨6, "STORE_BANKS", 0, 1, 0, 0, 128, 0, 0, 0, 1, 0, 255⟩,
     ⟨7, "STORE_BANK_BYTES", 0, 3, 0, 0, 0x18000, 0, 0, 0, 4, 0, 0xffffffff⟩,
     ⟨8, "TCM_BYTES", 0, 3, 0, 0, 0x10000, 0, 0, 0, 4, 0, 0xffffffff⟩,
     ⟨9, "RET_WAKE_TICKS", 0, 2, 0, 0, 4, 0, 0, 0, 2, 0, 0xffff⟩,
     ⟨10, "OFF_WAKE_TICKS", 0, 2, 0, 0, 200, 0, 0, 0, 2, 0, 0xffff⟩])]

/-- Entries of indices 0x6001 to 0x7A00. -/
def catPart5 : List (Nat × List CatRow) :=
  [(0x6001, [⟨1, "PORTER_ISA", 0, 10, 0, 0, 0x3143542b434d4932335652, 0, 0, 0, 11, 0, 0⟩]),
   (0x6010, [⟨1, "BANK_POWER", 1, 11, 1, 1, 0, 0, 1, 0, 1536, 0, 0⟩,
     ⟨2, "BANK_POWER_NOW", 1, 11, 0, 1, 0, 0, 0, 0, 1536, 0, 0⟩]),
   (0x6020, [⟨1, "SRAM_CE_COUNT", 1, 4, 0, 1, 0, 0, 0, 0, 8, 0, 0xffffffffffffffff⟩,
     ⟨2, "SRAM_UE_COUNT", 1, 4, 0, 1, 0, 0, 0, 0, 8, 0, 0xffffffffffffffff⟩,
     ⟨3, "ENGINE_SAT_COUNT", 1, 4, 0, 1, 0, 1, 0, 0, 8, 0, 0xffffffffffffffff⟩,
     ⟨4, "BANK_COLLISIONS", 1, 4, 0, 1, 0, 1, 0, 0, 8, 0, 0xffffffffffffffff⟩,
     ⟨5, "PORTER_TRAPS", 1, 4, 0, 1, 0, 0, 0, 0, 8, 0, 0xffffffffffffffff⟩,
     ⟨6, "ZERO_ROW_CYCLES", 1, 4, 0, 1, 0, 1, 0, 0, 8, 0, 0xffffffffffffffff⟩]),
   (0x6030, [⟨1, "BANK_BUNDLES", 0, 2, 0, 0, 0x4000, 0, 0, 0, 2, 0, 0xffff⟩,
     ⟨2, "BUNDLE_BITS", 0, 2, 0, 0, 4096, 0, 0, 0, 2, 0, 0xffff⟩,
     ⟨3, "RUN_CYCLE_LENGTH", 0, 3, 0, 0, 0, 0, 0, 0, 4, 0, 0xffffffff⟩,
     ⟨4, "NEXT_CYCLE_LENGTH", 0, 3, 0, 0, 0, 0, 0, 0, 4, 0, 0xffffffff⟩,
     ⟨5, "SWAPS", 0, 4, 0, 0, 0, 0, 0, 0, 8, 0, 0xffffffffffffffff⟩,
     ⟨6, "SYNC_MARGIN_CYCLES", 0, 1, 0, 0, 2, 0, 0, 0, 1, 0, 255⟩,
     ⟨7, "LOAD_LEAD_ROUNDS", 0, 1, 0, 0, 2, 0, 0, 0, 1, 0, 255⟩,
     ⟨8, "PRED_LATENCY_CYCLES", 0, 1, 0, 0, 4, 0, 0, 0, 1, 0, 255⟩,
     ⟨9, "MOVE_LATENCY_CYCLES", 0, 2, 0, 0, 192, 0, 0, 0, 2, 0, 0xffff⟩]),
   (0x6031, [⟨1, "SPANS_RUN", 1, 4, 0, 1, 0, 0, 0, 0, 8, 0, 0xffffffffffffffff⟩,
     ⟨2, "SLICES_LOADED", 1, 4, 0, 1, 0, 0, 0, 0, 8, 0, 0xffffffffffffffff⟩,
     ⟨3, "LOAD_REFUSALS", 1, 4, 0, 1, 0, 0, 0, 0, 8, 0, 0xffffffffffffffff⟩,
     ⟨4, "PRED_OFF_CYCLES", 1, 4, 0, 1, 0, 1, 0, 0, 8, 0, 0xffffffffffffffff⟩,
     ⟨5, "STREAM_FAULTS", 1, 4, 0, 1, 0, 0, 0, 0, 8, 0, 0xffffffffffffffff⟩]),
   (0x7000, [⟨1, "TABLE_LIMIT", 0, 3, 0, 0, 0x10000, 0, 0, 0, 4, 0, 0xffffffff⟩,
     ⟨2, "BAG_INDICES_MAX", 0, 3, 0, 0, 0x10000, 0, 0, 0, 4, 0, 0xffffffff⟩,
     ⟨3, "BATCH_BAGS_MAX", 0, 2, 0, 0, 0x4000, 0, 0, 0, 2, 0, 0xffff⟩,
     ⟨4, "DIM_MAX", 0, 2, 0, 0, 4096, 0, 0, 0, 2, 0, 0xffff⟩,
     ⟨5, "BATCH_TABLES_MAX", 0, 1, 0, 0, 16, 0, 0, 0, 1, 0, 255⟩,
     ⟨6, "SET_TABLES_MAX", 0, 1, 0, 0, 64, 0, 0, 0, 1, 0, 255⟩,
     ⟨7, "INTAKE_PER_SLOT", 0, 2, 0, 0, 64, 0, 0, 0, 2, 0, 0xffff⟩,
     ⟨8, "LOOKUPS_PER_SLOT", 0, 2, 0, 0, 8, 0, 0, 0, 2, 0, 0xffff⟩,
     ⟨9, "ELEMENTS_PER_SLOT", 0, 2, 0, 0, 4096, 0, 0, 0, 2, 0, 0xffff⟩,
     ⟨10, "ROWCACHE_LINES_PER_WAY", 0, 3, 0, 0, 0xc000, 0, 0, 0, 4, 0, 0xffffffff⟩,
     ⟨11, "COUNTERS_PER_WAY", 0, 3, 0, 0, 0x40000, 0, 0, 0, 4, 0, 0xffffffff⟩]),
   (0x7010, [⟨1, "BATCH_LIMIT", 0, 2, 1, 2, 0x4000, 0, 1, 0, 2, 1, 0x4000⟩,
     ⟨2, "INDEX_LIMIT", 0, 3, 1, 2, 0x1000000, 0, 1, 0, 4, 1, 0x40000000⟩,
     ⟨3, "BAG_LIMIT", 0, 3, 1, 2, 4096, 0, 1, 0, 4, 1, 0x10000⟩]),
   (0x7100, [⟨1, "TABLE_OWNER", 2, 2, 1, 2, 0xffff, 0, 2, 0, 2, 0, 0xffff⟩,
     ⟨2, "TABLE_DIM", 2, 2, 1, 1, 0, 0, 2, 0, 2, 0, 4096⟩,
     ⟨3, "TABLE_FORMAT", 2, 1, 1, 1, 11, 0, 2, 0, 1, 0, 255⟩,
     ⟨4, "TABLE_STRIDE", 2, 3, 1, 1, 0, 0, 2, 0, 4, 0, 0x10000⟩,
     ⟨5, "TABLE_SET", 2, 2, 1, 1, 0, 0, 2, 0, 2, 0, 0xffff⟩,
     ⟨6, "TABLE_VERSION", 2, 3, 0, 1, 0, 0, 0, 0, 4, 0, 0xffffffff⟩,
     ⟨7, "TABLE_SLOTS", 2, 11, 0, 1, 0, 0, 0, 0, 96, 0, 0⟩,
     ⟨8, "TABLE_ROWS", 2, 4, 0, 1, 0, 0, 0, 0, 8, 0, 0xffffffffffffffff⟩]),
   (0x7200, [⟨1, "ROWCACHE_LINES", 1, 3, 0, 1, 0, 0, 0, 0, 4, 0, 0xffffffff⟩,
     ⟨2, "DECAY_ROUNDS", 1, 3, 1, 1, 8192, 0, 1, 0, 4, 64, 0x100000⟩,
     ⟨3, "WSUM_ENABLE", 1, 0, 1, 1, 0, 1, 1, 0, 1, 0, 1⟩,
     ⟨4, "INDICES_GATHERED", 1, 4, 0, 1, 0, 0, 0, 0, 8, 0, 0xffffffffffffffff⟩,
     ⟨5, "BAG_ENTRIES", 1, 4, 0, 1, 0, 0, 0, 0, 8, 0, 0xffffffffffffffff⟩,
     ⟨6, "ROWS_HIT", 1, 4, 0, 1, 0, 0, 0, 0, 8, 0, 0xffffffffffffffff⟩,
     ⟨7, "ROWS_FETCHED", 1, 4, 0, 1, 0, 0, 0, 0, 8, 0, 0xffffffffffffffff⟩,
     ⟨8, "ZERO_WEIGHT_SKIPPED", 1, 4, 0, 1, 0, 0, 0, 0, 8, 0, 0xffffffffffffffff⟩,
     ⟨9, "OOB_DROPPED", 1, 4, 0, 1, 0, 0, 0, 0, 8, 0, 0xffffffffffffffff⟩,
     ⟨10, "TABLE_SWITCHES", 1, 4, 0, 1, 0, 0, 0, 0, 8, 0, 0xffffffffffffffff⟩,
     ⟨11, "SET_SWITCHES", 1, 4, 0, 1, 0, 0, 0, 0, 8, 0, 0xffffffffffffffff⟩]),
   (0x7800, [⟨1, "COLLECTION_LIMIT", 0, 2, 0, 0, 4096, 0, 0, 0, 2, 0, 0xffff⟩,
     ⟨2, "CENTROIDS_MAX", 0, 3, 0, 0, 0x400000, 0, 0, 0, 4, 0, 0xffffffff⟩,
     ⟨3, "SIDE_RECORDS_MAX", 0, 3, 0, 0, 0x1000000, 0, 0, 0, 4, 0, 0xffffffff⟩,
     ⟨4, "QUERIES_MAX", 0, 2, 0, 0, 4096, 0, 0, 0, 2, 0, 0xffff⟩,
     ⟨5, "PROBES_MAX", 0, 2, 0, 0, 4096, 0, 0, 0, 2, 0, 0xffff⟩,
     ⟨6, "TOPK_MAX", 0, 2, 0, 0, 1024, 0, 0, 0, 2, 0, 0xffff⟩,
     ⟨7, "SCANNER_TABLE_BYTES", 0, 3, 0, 0, 0x38000, 0, 0, 0, 4, 0, 0xffffffff⟩,
     ⟨8, "SCANNER_FILTER_IDS", 0, 2, 0, 0, 4096, 0, 0, 0, 2, 0, 0xffff⟩,
     ⟨9, "SCAN_LEAD_TICKS", 0, 2, 0, 0, 2400, 0, 0, 0, 2, 0, 0xffff⟩,
     ⟨10, "SU_OPS_PER_SLOT", 0, 2, 0, 0, 4096, 0, 0, 0, 2, 0, 0xffff⟩,
     ⟨11, "MERGE_PER_SLOT", 0, 2, 0, 0, 512, 0, 0, 0, 2, 0, 0xffff⟩,
     ⟨12, "INSERT_PER_SLOT", 0, 2, 0, 0, 64, 0, 0, 0, 2, 0, 0xffff⟩]),
   (0x7900, [⟨1, "COLL_OWNER", 3, 2, 1, 2, 0xffff, 0, 2, 0, 2, 0, 0xffff⟩,
     ⟨2, "COLL_STATE", 3, 1, 1, 1, 0, 0, 0, 0, 1, 0, 1⟩,
     ⟨3, "COLL_DIM", 3, 2, 1, 1, 0, 0, 2, 0, 2, 1, 4096⟩,
     ⟨4, "COLL_CODE", 3, 1, 1, 1, 0, 0, 2, 0, 1, 0, 2⟩,
     ⟨5, "COLL_SUBQ", 3, 2, 1, 1, 0, 0, 2, 0, 2, 0, 256⟩,
     ⟨6, "COLL_METRIC", 3, 1, 1, 1, 0, 0, 2, 0, 1, 0, 2⟩,
     ⟨7, "COLL_CENTROIDS", 3, 3, 1, 1, 0, 0, 2, 0, 4, 1, 0x400000⟩,
     ⟨8, "COLL_DEGREE", 3, 1, 1, 1, 32, 0, 2, 0, 1, 4, 64⟩,
     ⟨9, "COLL_ENTRY", 3, 3, 1, 1, 0, 0, 2, 0, 4, 0, 0xffffffff⟩,
     ⟨10, "COLL_META_BASE", 3, 4, 1, 1, 0, 0, 2, 0, 8, 0, 0xffffffffffffffff⟩,
     ⟨11, "COLL_SIDE_BASE", 3, 4, 1, 1, 0, 0, 2, 0, 8, 0, 0xffffffffffffffff⟩,
     ⟨12, "COLL_SIDE_BLOCKS", 3, 3, 1, 1, 0, 0, 2, 0, 4, 0, 0xffffffff⟩,
     ⟨13, "COLL_LIST_BASE", 3, 4, 1, 1, 0, 0, 2, 0, 8, 0, 0xffffffffffffffff⟩,
     ⟨14, "COLL_LIST_RUNS", 3, 3, 1, 1, 0, 0, 2, 0, 4, 0, 0xffffffff⟩,
     ⟨15, "LIST_PAGES_LIMIT", 3, 1, 1, 1, 8, 0, 2, 0, 1, 1, 64⟩,
     ⟨16, "SIDE_LIST_LIMIT", 3, 2, 1, 1, 1024, 0, 2, 0, 2, 16, 4096⟩,
     ⟨17, "COLL_SEQ", 3, 4, 0, 1, 0, 0, 0, 0, 8, 0, 0xffffffffffffffff⟩,
     ⟨18, "DIR_VERSION", 3, 3, 0, 1, 0, 0, 0, 0, 4, 0, 0xffffffff⟩,
     ⟨19, "DIR_SLOTS", 3, 11, 0, 1, 0, 0, 0, 0, 32, 0, 0⟩,
     ⟨20, "LIST_PAGES_MAX", 3, 1, 0, 1, 0, 0, 0, 0, 1, 0, 255⟩,
     ⟨21, "SIDE_RECORDS", 3, 3, 0, 1, 0, 0, 0, 0, 4, 0, 0xffffffff⟩,
     ⟨22, "SIDE_LIST_MAX", 3, 2, 0, 1, 0, 0, 0, 0, 2, 0, 0xffff⟩,
     ⟨23, "SIDE_BLOCKS_FREE", 3, 3, 0, 1, 0, 0, 0, 0, 4, 0, 0xffffffff⟩,
     ⟨24, "LIST_PAGES_FREE", 3, 3, 0, 1, 0, 0, 0, 0, 4, 0, 0xffffffff⟩,
     ⟨25, "RESTOCK_TRIGGER", 3, 3, 1, 1, 0x100000, 0, 1, 0, 4, 1, 0x1000000⟩,
     ⟨26, "RESTOCK_NOW", 3, 0, 2, 1, 0, 0, 0, 0, 1, 0, 1⟩,
     ⟨27, "RESTOCK_STATE", 3, 1, 0, 1, 0, 0, 0, 0, 1, 0, 255⟩,
     ⟨28, "RETIRE_REQUEST", 3, 4, 2, 1, 0, 1, 0, 0, 8, 0, 0xffffffffffffffff⟩,
     ⟨29, "RETIRE_PENDING", 3, 2, 0, 1, 0, 1, 0, 0, 2, 0, 0xffff⟩]),
   (0x7A00, [⟨1, "QUERIES_RUN", 1, 4, 0, 1, 0, 0, 0, 0, 8, 0, 0xffffffffffffffff⟩,
     ⟨2, "PAGE_UNITS_USED", 1, 4, 0, 1, 0, 0, 0, 0, 8, 0, 0xffffffffffffffff⟩,
     ⟨3, "PROBES_SHED", 1, 4, 0, 1, 0, 0, 0, 0, 8, 0, 0xffffffffffffffff⟩,
     ⟨4, "RECORDS_INSERTED", 1, 4, 0, 1, 0, 0, 0, 0, 8, 0, 0xffffffffffffffff⟩,
     ⟨5, "TOMBSTONES_WRITTEN", 1, 4, 0, 1, 0, 0, 0, 0, 8, 0, 0xffffffffffffffff⟩,
     ⟨6, "RESTOCKS_DONE", 1, 4, 0, 1, 0, 0, 0, 0, 8, 0, 0xffffffffffffffff⟩,
     ⟨7, "RESTOCK_DEFERRED", 1, 4, 0, 1, 0, 0, 0, 0, 8, 0, 0xffffffffffffffff⟩,
     ⟨8, "LISTS_SKIPPED", 1, 4, 0, 1, 0, 0, 0, 0, 8, 0, 0xffffffffffffffff⟩])]

/-- Entries of indices 0x8000 to 0xA000. -/
def catPart6 : List (Nat × List CatRow) :=
  [(0x8000, [⟨1, "MOVER_CHANNELS_TOTAL", 0, 2, 0, 0, 256, 0, 0, 0, 2, 0, 0xffff⟩,
     ⟨2, "MOVER_WINDOW_BASE", 0, 4, 0, 0, 0x3ff0004100000, 0, 0, 0, 8, 0, 0xffffffffffffffff⟩,
     ⟨3, "TRANSFER_BYTES_MAX", 0, 4, 0, 0, 0x10000000000, 0, 0, 0, 8, 0, 0xffffffffffffffff⟩,
     ⟨4, "CHAIN_DESCRIPTORS_MAX", 0, 1, 0, 0, 16, 1, 0, 0, 1, 0, 255⟩,
     ⟨5, "MOVER_BUFFER_BYTES", 0, 2, 0, 0, 4096, 0, 0, 0, 2, 0, 0xffff⟩,
     ⟨6, "PARTS_MAX", 0, 1, 0, 0, 16, 0, 0, 0, 1, 0, 255⟩]),
   (0x8001, [⟨1, "TRANSFERS_DONE", 1, 4, 0, 1, 0, 0, 0, 0, 8, 0, 0xffffffffffffffff⟩,
     ⟨2, "BYTES_DELIVERED", 1, 4, 0, 1, 0, 0, 0, 0, 8, 0, 0xffffffffffffffff⟩,
     ⟨3, "PREEMPTIONS", 1, 4, 0, 1, 0, 1, 0, 0, 8, 0, 0xffffffffffffffff⟩,
     ⟨4, "PARTIAL_COUNT", 1, 4, 0, 1, 0, 0, 0, 0, 8, 0, 0xffffffffffffffff⟩,
     ⟨5, "BARROWS_SENT", 1, 4, 0, 1, 0, 0, 0, 0, 8, 0, 0xffffffffffffffff⟩,
     ⟨6, "BARROWS_SERVED", 1, 4, 0, 1, 0, 0, 0, 0, 8, 0, 0xffffffffffffffff⟩]),
   (0x8100, [⟨1, "LANES_PER_LINK", 0, 1, 0, 0, 4, 0, 0, 0, 1, 0, 255⟩,
     ⟨2, "FLIT_BYTES", 0, 2, 0, 0, 256, 0, 0, 0, 2, 0, 0xffff⟩,
     ⟨3, "TRAIN_FLITS_MAX", 0, 1, 0, 0, 16, 0, 0, 0, 1, 0, 255⟩,
     ⟨4, "CONTROL_PERIOD_TICKS", 0, 1, 0, 0, 4, 0, 0, 0, 1, 0, 255⟩,
     ⟨5, "RETRY_LIMIT", 0, 1, 1, 2, 8, 1, 1, 0, 1, 1, 32⟩,
     ⟨6, "LINK_DEAD_TICKS", 0, 2, 1, 2, 100, 1, 1, 0, 2, 20, 1000⟩]),
   (0x8110, [⟨1, "LINK_STATE", 8, 1, 0, 0, 0, 0, 0, 0, 1, 0, 255⟩,
     ⟨2, "LINK_PEER_NODE", 8, 2, 0, 0, 0xffff, 0, 0, 0, 2, 0, 0xffff⟩,
     ⟨3, "WIRE_TICKS", 8, 2, 0, 0, 0, 0, 0, 0, 2, 0, 0xffff⟩,
     ⟨4, "CONTROL_CYCLE_TICKS", 8, 2, 0, 0, 4, 0, 0, 0, 2, 0, 0xffff⟩,
     ⟨5, "FEC_CORRECTED", 8, 4, 0, 0, 0, 0, 0, 0, 8, 0, 0xffffffffffffffff⟩,
     ⟨6, "FEC_UNCORRECTED", 8, 4, 0, 0, 0, 0, 0, 0, 8, 0, 0xffffffffffffffff⟩,
     ⟨7, "CRC_ERRORS", 8, 4, 0, 0, 0, 0, 0, 0, 8, 0, 0xffffffffffffffff⟩,
     ⟨8, "RETRIES", 8, 4, 0, 0, 0, 0, 0, 0, 8, 0, 0xffffffffffffffff⟩,
     ⟨9, "LINK_FAILURES", 8, 3, 0, 0, 0, 0, 0, 0, 4, 0, 0xffffffff⟩]),
   (0x8120, [⟨1, "ROUTE", 0, 11, 1, 2, 0, 0, 2, 0, 0x4000, 0, 0⟩,
     ⟨2, "RELAY_ENABLE", 0, 0, 1, 2, 0, 1, 1, 0, 1, 0, 1⟩]),
   (0x9000, [⟨1, "CONTEXTS_TOTAL", 0, 2, 0, 0, 0x4000, 0, 0, 0, 2, 0, 0xffff⟩,
     ⟨2, "DOORBELL_WINDOW_BASE", 0, 4, 0, 0, 0x3ff0000000000, 0, 0, 0, 8, 0, 0xffffffffffffffff⟩,
     ⟨3, "COMMAND_BYTES", 0, 1, 0, 0, 64, 0, 0, 0, 1, 0, 255⟩,
     ⟨4, "RECORD_BYTES", 0, 1, 0, 0, 32, 0, 0, 0, 1, 0, 255⟩,
     ⟨5, "QUEUE_ENTRIES_MAX", 0, 3, 0, 0, 0x10000, 0, 0, 0, 4, 0, 0xffffffff⟩,
     ⟨6, "FETCH_BOUND_TICKS", 0, 2, 0, 0, 40, 0, 0, 0, 2, 0, 0xffff⟩,
     ⟨7, "HOST_FETCH_BOUND_TICKS", 0, 2, 1, 2, 400, 0, 2, 0, 2, 100, 2000⟩]),
   (0x9010, [⟨1, "PORT_STATE", 10, 1, 0, 0, 0, 0, 0, 0, 1, 0, 255⟩,
     ⟨2, "LINK_RATE", 10, 1, 0, 0, 0, 0, 0, 0, 1, 0, 255⟩,
     ⟨3, "LINK_WIDTH", 10, 1, 0, 0, 0, 0, 0, 0, 1, 0, 255⟩,
     ⟨4, "LD_COUNT", 10, 1, 1, 2, 1, 0, 2, 0, 1, 1, 16⟩,
     ⟨5, "LD_REQ_CREDITS", 10, 2, 1, 2, 64, 0, 2, 0, 2, 8, 256⟩,
     ⟨6, "FLITS_REPLAYED", 10, 4, 0, 0, 0, 0, 0, 0, 8, 0, 0xffffffffffffffff⟩]),
   (0x9020, [⟨1, "I3C_DYNAMIC_ADDRESS", 0, 1, 0, 0, 0, 0, 0, 0, 1, 0, 255⟩,
     ⟨2, "I3C_STATIC_ADDRESS", 0, 1, 1, 2, 80, 0, 2, 0, 1, 8, 119⟩,
     ⟨3, "MCTP_EID", 0, 1, 0, 0, 0, 0, 0, 0, 1, 0, 255⟩]),
   (0x9100, [⟨1, "CONTEXT_PORT", 5, 1, 1, 2, 255, 0, 2, 0, 1, 0, 255⟩,
     ⟨2, "CQ_BASE", 5, 4, 1, 1, 0, 0, 2, 0, 8, 0, 0xffffffffffffffff⟩,
     ⟨3, "CQ_ENTRIES", 5, 3, 1, 1, 0, 0, 2, 0, 4, 0, 0xffffffff⟩,
     ⟨4, "CR_BASE", 5, 4, 1, 1, 0, 0, 2, 0, 8, 0, 0xffffffffffffffff⟩,
     ⟨5, "CR_ENTRIES", 5, 3, 1, 1, 0, 0, 2, 0, 4, 0, 0xffffffff⟩,
     ⟨6, "CR_TALLY", 5, 2, 1, 1, 0xffff, 0, 2, 0, 2, 0, 0xffff⟩,
     ⟨10, "CONTEXT_ENABLE", 5, 0, 1, 1, 0, 0, 0, 0, 1, 0, 1⟩]),
   (0x9110, [⟨1, "ENTRIES_TAKEN", 5, 4, 0, 1, 0, 0, 0, 0, 8, 0, 0xffffffffffffffff⟩,
     ⟨2, "RECORDS_WRITTEN", 5, 4, 0, 1, 0, 0, 0, 0, 8, 0, 0xffffffffffffffff⟩,
     ⟨3, "DOORBELL_ERRORS", 5, 3, 0, 1, 0, 0, 0, 0, 4, 0, 0xffffffff⟩]),
   (0x9200, [⟨1, "ER_BASE", 1, 4, 1, 1, 0, 0, 2, 0, 8, 0, 0xffffffffffffffff⟩,
     ⟨2, "ER_ENTRIES", 1, 3, 1, 1, 0, 0, 2, 0, 4, 0, 0xffffffff⟩,
     ⟨3, "ER_WRITTEN_TALLY", 1, 2, 1, 1, 0, 0, 2, 0, 2, 0, 0xffff⟩,
     ⟨4, "ER_CONSUMED_TALLY", 1, 2, 1, 1, 0, 0, 2, 0, 2, 0, 0xffff⟩,
     ⟨5, "ER_DROPPED", 1, 4, 0, 1, 0, 0, 0, 0, 8, 0, 0xffffffffffffffff⟩]),
   (0xA000, [⟨1, "FW_VERSION", 0, 3, 0, 0, 0, 0, 0, 0, 4, 0, 0xffffffff⟩,
     ⟨2, "FW_DIGEST", 0, 11, 0, 0, 0, 0, 0, 0, 32, 0, 0⟩,
     ⟨3, "FW_CONFIG", 0, 1, 0, 0, 0, 0, 0, 0, 1, 0, 255⟩,
     ⟨4, "FW_CONFIG_NEXT", 0, 1, 1, 2, 0, 0, 0, 0, 1, 0, 1⟩,
     ⟨5, "HANDOFFS", 0, 3, 0, 0, 0, 0, 0, 0, 4, 0, 0xffffffff⟩,
     ⟨6, "FW_RESTARTS", 0, 3, 0, 0, 0, 0, 0, 0, 4, 0, 0xffffffff⟩])]

/-- Entries of indices 0xA001 to 0xB020. -/
def catPart7 : List (Nat × List CatRow) :=
  [(0xA001, [⟨1, "CORE_ROLES", 0, 11, 0, 0, 0, 0, 0, 0, 20, 0, 0⟩]),
   (0xA010, [⟨1, "FW_STAGE", 0, 11, 1, 2, 0, 0, 2, 0, 0, 0, 0⟩,
     ⟨2, "FW_UPDATE", 0, 1, 2, 2, 0, 0, 0, 0, 1, 1, 3⟩,
     ⟨3, "FW_UPDATE_STATE", 0, 1, 0, 2, 0, 0, 0, 0, 1, 0, 255⟩,
     ⟨4, "FW_UPDATE_RESULT", 0, 1, 0, 2, 0, 0, 0, 0, 1, 0, 255⟩,
     ⟨5, "STAGED_VERSION", 0, 3, 0, 2, 0, 0, 0, 0, 4, 0, 0xffffffff⟩,
     ⟨6, "STAGED_DIGEST", 0, 11, 0, 2, 0, 0, 0, 0, 32, 0, 0⟩,
     ⟨7, "HANDOFF_PAUSE_ROUNDS", 0, 2, 0, 0, 312, 0, 0, 0, 2, 0, 0xffff⟩,
     ⟨8, "LAST_PAUSE_TICKS", 0, 3, 0, 0, 0, 0, 0, 0, 4, 0, 0xffffffff⟩]),
   (0xA020, [⟨1, "WATCHDOG_MISSES", 0, 3, 0, 0, 0, 0, 0, 0, 4, 0, 0xffffffff⟩]),
   (0xA100, [⟨1, "LIFECYCLE", 0, 1, 0, 0, 0, 0, 0, 0, 1, 0, 255⟩,
     ⟨2, "DEVICE_ID", 0, 11, 0, 0, 0, 0, 0, 0, 32, 0, 0⟩,
     ⟨3, "IDENTITY_PUBLIC_KEY", 0, 11, 0, 0, 0, 0, 0, 0, 60, 0, 0⟩,
     ⟨4, "ENDORSEMENT", 0, 11, 0, 0, 0, 0, 0, 0, 2564, 0, 0⟩]),
   (0xA101, [⟨1, "SIG_NEXT", 0, 3, 0, 0, 0, 0, 0, 0, 4, 0, 0xffffffff⟩,
     ⟨2, "SIG_REMAINING", 0, 3, 0, 0, 0, 0, 0, 0, 4, 0, 0xffffffff⟩,
     ⟨3, "ATTEST_INTERVAL_ROUNDS", 0, 3, 1, 2, 0x47868c, 0, 1, 0, 4, 0x1312d, 0xffffffff⟩,
     ⟨4, "REPORTS_SIGNED", 0, 3, 0, 0, 0, 0, 0, 0, 4, 0, 0xffffffff⟩,
     ⟨5, "REPORT_SIGN_BOUND", 0, 3, 0, 0, 0x1312d00, 0, 0, 0, 4, 0, 0xffffffff⟩]),
   (0xA102, [⟨1, "KEY_SLOT_STATE", 0, 1, 0, 0, 0, 0, 0, 0, 1, 0, 255⟩,
     ⟨2, "ROLLBACK_FLOOR", 0, 1, 0, 0, 0, 0, 0, 0, 1, 0, 255⟩,
     ⟨3, "BOOT_SLOT", 0, 1, 0, 0, 0, 0, 0, 0, 1, 0, 255⟩,
     ⟨4, "BOOT_RESULT", 0, 1, 0, 0, 0, 0, 0, 0, 1, 0, 255⟩,
     ⟨5, "BOOT_ROM_BOUND", 0, 3, 0, 0, 0x927c0, 0, 0, 0, 4, 0, 0xffffffff⟩,
     ⟨6, "BOOT_PENDING", 0, 0, 0, 0, 0, 0, 0, 0, 1, 0, 1⟩]),
   (0xA103, [⟨1, "DEBUG_STATE", 0, 1, 0, 0, 0, 0, 0, 0, 1, 0, 255⟩,
     ⟨2, "DEBUG_CHALLENGE", 0, 11, 0, 2, 0, 1, 0, 0, 48, 0, 0⟩]),
   (0xB000, [⟨1, "DETECTOR_COUNT", 0, 1, 0, 0, 24, 0, 0, 0, 1, 0, 255⟩]),
   (0xB001, [⟨1, "DETECTIONS", 0, 11, 0, 2, 0, 0, 0, 0, 192, 0, 0⟩,
     ⟨2, "INJECTIONS_FIRED", 1, 4, 0, 1, 0, 0, 0, 0, 8, 0, 0xffffffffffffffff⟩]),
   (0xB010, [⟨1, "ERROR_LOG", 0, 11, 0, 2, 0, 0, 0, 0, 0, 0, 0⟩,
     ⟨2, "ERROR_LOG_WRITTEN", 0, 4, 0, 2, 0, 0, 0, 0, 8, 0, 0xffffffffffffffff⟩]),
   (0xB011, [⟨1, "STALL_LOG", 1, 11, 0, 1, 0, 0, 0, 0, 0, 0, 0⟩]),
   (0xB020, [⟨1, "INJECTION_ALLOWED", 0, 0, 1, 2, 1, 0, 0, 0, 1, 0, 1⟩])]

/-- Entries of indices 0xB1FF to 0xF004. -/
def catPart8 : List (Nat × List CatRow) :=
  [(0xB1FF, [⟨1, "INJECT_ARM", 12, 12, 1, 1, 0, 1, 0, 0, 32, 0, 0⟩,
     ⟨2, "INJECT_FIRED", 12, 3, 0, 1, 0, 1, 0, 0, 4, 0, 0xffffffff⟩]),
   (0xC000, [⟨1, "RESET_CAUSE", 0, 1, 0, 0, 0, 0, 0, 0, 1, 0, 255⟩]),
   (0xC010, [⟨1, "DEVICE_RESET", 0, 1, 2, 2, 0, 0, 0, 0, 1, 1, 1⟩]),
   (0xC020, [⟨1, "STRAPS", 0, 1, 0, 0, 0, 0, 0, 0, 1, 0, 255⟩]),
   (0xC030, [⟨1, "START_PHASE", 0, 1, 0, 0, 0, 0, 0, 0, 1, 0, 255⟩,
     ⟨2, "GATE_OPEN_TICK", 0, 4, 0, 0, 0, 0, 0, 0, 8, 0, 0xffffffffffffffff⟩,
     ⟨3, "HBM_READY_TICK", 0, 4, 0, 0, 0, 0, 0, 0, 8, 0, 0xffffffffffffffff⟩,
     ⟨4, "MAP_READY_TICK", 0, 4, 0, 0, 0, 0, 0, 0, 8, 0, 0xffffffffffffffff⟩,
     ⟨5, "HBM_INIT_BOUND", 0, 3, 0, 0, 0xc3500, 0, 0, 0, 4, 0, 0xffffffff⟩,
     ⟨6, "HBM_FAILED_STACKS", 0, 1, 0, 0, 0, 0, 0, 0, 1, 0, 255⟩,
     ⟨7, "FLASH_DISCOVER_BOUND", 0, 3, 0, 0, 0x493e0, 0, 0, 0, 4, 0, 0xffffffff⟩]),
   (0xC040, [⟨1, "TWINE_TRAIN_TICKS", 0, 3, 1, 2, 0xf4240, 0, 0, 0, 4, 0x186a0, 0x989680⟩,
     ⟨2, "TWINE_MISWIRED", 0, 3, 0, 0, 0, 0, 0, 0, 4, 0, 0xffffffff⟩]),
   (0xC050, [⟨1, "TJ_NOW_C", 0, 6, 0, 0, 0, 0, 0, 0, 2, 0, 0xffff⟩,
     ⟨2, "VDD_CORE_NOW_MV", 0, 2, 0, 0, 0, 0, 0, 0, 2, 0, 0xffff⟩,
     ⟨3, "ICC_NOW_A", 0, 2, 0, 0, 0, 0, 0, 0, 2, 0, 0xffff⟩]),
   (0xF000, [⟨1, "CATALOGUE_VERSION", 0, 2, 0, 0, 1, 0, 0, 0, 2, 0, 0xffff⟩,
     ⟨2, "BLOB_BYTES_MAX", 0, 3, 0, 0, 0x100000, 0, 0, 0, 4, 0, 0xffffffff⟩,
     ⟨3, "MCTP_DATA_MAX", 0, 2, 0, 0, 1024, 0, 0, 0, 2, 0, 0xffff⟩,
     ⟨4, "INBAND_WRITE_MAX", 0, 2, 0, 0, 4096, 0, 0, 0, 2, 0, 0xffff⟩,
     ⟨5, "INBAND_READ_MAX", 0, 3, 0, 0, 0x10000, 0, 0, 0, 4, 0, 0xffffffff⟩,
     ⟨6, "ASSEMBLY_ROUNDS", 0, 2, 0, 0, 64, 0, 0, 0, 2, 0, 0xffff⟩]),
   (0xF001, [⟨1, "COMMIT", 0, 3, 2, 2, 0, 0, 0, 0, 4, 0, 0xffffffff⟩]),
   (0xF002, [⟨1, "COMMIT_STATUS", 11, 4, 0, 2, 0, 0, 0, 0, 8, 0, 0xffffffffffffffff⟩,
     ⟨2, "COMMIT_TICK", 11, 4, 0, 2, 0, 0, 0, 0, 8, 0, 0xffffffffffffffff⟩]),
   (0xF003, [⟨1, "DISCARD", 0, 1, 2, 2, 0, 0, 0, 0, 1, 0, 255⟩]),
   (0xF004, [⟨1, "STAGE_SERIAL", 11, 3, 0, 2, 0, 0, 0, 0, 4, 0, 0xffffffff⟩,
     ⟨2, "STAGED_DIFFERS", 11, 3, 0, 2, 0, 0, 0, 0, 4, 0, 0xffffffff⟩])]

/-- Entries of indices 0xF010 to 0xF020. -/
def catPart9 : List (Nat × List CatRow) :=
  [(0xF010, [⟨1, "EXPERT_ENABLE", 1, 0, 1, 2, 0, 0, 0, 0, 1, 0, 1⟩]),
   (0xF011, [⟨1, "HOST_MCTP_ADMIN", 0, 0, 1, 2, 1, 0, 0, 0, 1, 0, 1⟩]),
   (0xF020, [⟨1, "WRITES_REFUSED", 0, 4, 0, 2, 0, 0, 0, 0, 8, 0, 0xffffffffffffffff⟩,
     ⟨2, "LAST_REFUSAL", 0, 11, 0, 2, 0, 0, 0, 0, 16, 0, 0⟩])]

/-- Every assigned index in ascending order. Index 0xB1FF stands for 0xB100 + d (R509). -/
def catTable : List (Nat × List CatRow) :=
  catPart0 ++ catPart1 ++ catPart2 ++ catPart3 ++ catPart4 ++ catPart5 ++ catPart6 ++ catPart7 ++ catPart8 ++ catPart9

end Sys2Proof.Machine
end

