-- ==== Sys2Proof/Machine/State.lean ====
section
/-! DEFINITION. The state of the block: plain data, one structure per unit of the manual, and the reset state.
Registers that have a catalogue address live in `CatSt.vals` unless a field below holds them. -/

namespace Sys2Proof.Machine
open Sys2Proof

/-- No command of the block ends in a fault: every failing command ends in a status, a record and a counter,
which are effects. `unreachableAddress` is kept for an access the manual gives no outcome; no meaning raises it. Safe. -/
inductive Fault where
  | unreachableAddress
  deriving DecidableEq, Repr

/-- Why a command has no meaning. `notModelled` is raised by `exec` for a row without a meaning (none now). Safe. -/
inductive Refusal where
  | notModelled (mnemonic : String)
  deriving DecidableEq, Repr

/-- Clock, reset and start sequence (R49-R50, R510-R526). -/
structure ClkSt where
  calTick : Nat := 0
  inReset : Bool := false           -- the internal reset has not ended (R515)
  resetDue : Option Nat := none     -- tick at which a DEVICE_RESET in progress begins (R512)
  resetCause : Nat := 0             -- RESET_CAUSE, AON (R513)
  powered : Bool := true
  thermtrip : Bool := false         -- THERMTRIP_N asserted (R536)
  brdPos : Nat := 0                 -- BRD_POS[3:0] as sampled (R514)
  cfgPooled : Bool := false
  memActive : Bool := false         -- Memory_Active of the CXL ports (R517)
  hbmTrained : Bool := false
  zeroFillDone : Bool := false
  discoveryDone : Bool := false
  storeDone : Bool := false         -- STORE has ended (R521)
  sensors : Sensors := ⟨0, 800, 0⟩  -- as last sampled; VDD_CORE at its start value (log entry 109)
  throttlePending : Bool := false   -- point 0 is forced at the next boundary (R110)
  throttled : Bool := false
  throttleRound : Nat := 0          -- first round affected
  coolRounds : Nat := 0             -- rounds below 100 °C and 900 A since the throttle began (R110)
  vddTarget : Nat := 800            -- last AVSBus target, mV (R109)
  vddTick : Nat := 0                -- tick of that target
  eout : Option (Nat × Nat) := none -- accumulator and wraps at the last READ_EOUT (R103, R105)
  deriving DecidableEq, Repr

/-- An assembly buffer (R435): the segments gathered, newest last. -/
structure AsmBuf where
  rq : Requester
  key : Nat
  segs : List (Nat × List Byte)
  round : Nat
  deriving DecidableEq, Repr

/-- A catalogue snapshot (R436). -/
structure Snap where
  rq : Requester
  key : Nat
  bytes : List Byte
  round : Nat
  deriving DecidableEq, Repr

/-- The catalogue (R432-R456). `none` in `vals` is the entry's default. Keys are `index * 2^24 + sub * 2^16 + inst`. -/
structure CatSt where
  vals : AMap (Option Nat) := []
  shadow : AMap (Option Nat) := []       -- shadows that differ from the value in effect (R446)
  pendB : AMap (Option Nat) := []        -- class B writes waiting for the boundary (R442)
  asm : List AsmBuf := []
  snaps : List Snap := []
  accepted : AMap (Option Nat) := []     -- COMMIT accepted at this tick, not validated (R447)
  pendCommit : AMap (Option Nat) := []   -- group PENDING, with the boundary round it applies at (R448)
  sweepDue : List (Nat × Nat × Nat) := []  -- map sweeps due (R124): round, kind, unit
  deriving DecidableEq, Repr

/-- An extent record (R27) with what the device keeps of its close (R34, R39). -/
structure ExtRec where
  state : Nat := 0        -- 0 FREE, 1 OPEN, 2 CLOSING, 3 SWEEPING
  backed : Bool := false
  stall : Nat := 0
  drain : Nat := 0
  closeTally : Nat := 0xFFFF
  freeBound : Nat := 0
  sweep : List Nat := []  -- rounds booked for the sweep
  rebooked : Bool := false -- its drain tally has reached zero: the second booking of R39 has been tried
  dirty : Bool := false   -- changed and not yet written to flash (R520)
  grant : Nat := 0        -- grant serial, for the placement of R137
  frames : List Nat := [] -- the 16,384 physical frames of a pinned extent, in offset order (R137)
  deriving DecidableEq, Repr

/-- A region (R41, R43). A slot is (base, version, pins). -/
structure Region where
  version : Nat := 0
  publisher : Nat := 0
  valid : Bool := false
  slots : List (Nat × Nat × Nat) := [(0,0,0),(0,0,0),(0,0,0),(0,0,0)]
  deriving DecidableEq, Repr

structure ExtSt where
  recs : AMap ExtRec := []
  flashRecs : AMap ExtRec := []   -- records as the checkpoint areas hold them (R520)
  regions : AMap Region := []
  grants : Nat := 0
  deriving DecidableEq, Repr

/-- A tally (R209). -/
structure Tally where
  value : Word64 := 0
  overflow : Bool := false
  lastTick : Word64 := 0
  sumTick : Nat := 0      -- the tick of the latest advance of any kind, and what all advances of that tick added (R212)
  sum : Nat := 0
  deriving DecidableEq, Repr

/-- Bytes and the faults of storage. `hbm` is keyed by store offset; `bank` and `flash` by their own locators. -/
structure MemSt where
  hbm : List Host.Cell := []
  host : List Host.Cell := []
  bank : List Host.Cell := []
  flash : List Host.Cell := []
  poison : List Nat := []      -- poisoned line offsets / 64 (R181)
  lost : List Nat := []        -- LOST frames, offset / 65536 (R162)
  ueWords : List Nat := []     -- bank words that read as uncorrectable (R270)
  deriving DecidableEq, Repr

/-- A doorbell block (R416) with the reserved ring slots of R418. -/
structure Ctx where
  state : Nat := 0             -- 0 DISABLED, 1 ENABLED, 2 HALTED
  cqTail : Word32 := 0
  crHead : Word32 := 0
  cqTaken : Word32 := 0
  crWritten : Word32 := 0
  reserved : Nat := 0
  deriving DecidableEq, Repr

/-- A batch descriptor as the Gate read it (R314). -/
structure BatchD where
  addr : Nat
  tables : List Nat
  outAddr : Nat
  weightAddr : Nat
  indexAddr : Nat
  bagAddr : Nat
  nI : Nat
  nU : Nat
  nE : Nat
  outStride : Nat
  bags : Nat
  tally : Nat
  clusters : Nat
  pool : Nat
  outFmt : Nat
  outSpace : Nat
  idx64 : Bool
  dropOob : Bool
  vBag : Bool
  vIndex : Bool
  vWeight : Bool
  vOut : Bool
  deriving DecidableEq, Repr

/-- A search descriptor as the Gate read it (R351), with what acceptance takes (R353). -/
structure SearchD where
  queryAddr : Nat
  outAddr : Nat
  workAddr : Nat
  statusAddr : Nat
  probeAddr : Nat
  listBound : Nat
  queries : Nat
  probes : Nat
  topk : Nat
  steps : Nat
  tally : Nat
  coll : Nat
  slack : Nat
  given : Bool
  form : Bool
  snapshot : Nat := 0
  dirSlot : Nat := 0
  pagesMax : Nat := 0
  deriving DecidableEq, Repr

/-- A segment image's header (R297) with the image's base. -/
structure SegD where
  base : Nat
  clusters : Nat
  columns : Nat
  spanSlots : Nat
  slices : Nat
  rounds : Nat
  cycleLen : Nat
  opRows : Nat
  moveRows : Nat
  operands : Nat
  sliceOff : Nat
  sliceBytes : Nat
  porterBytes : Nat
  operandOff : Nat
  porterOff : Nat
  atomicT : Nat
  releaseT : Nat
  tally : Nat
  contiguous : Bool
  deriving DecidableEq, Repr

/-- A transfer (R376, R384, R391). Addresses are global unless marked virtual. -/
structure Xfer where
  src : Nat
  dst : Nat
  count : Nat
  tally : Nat
  packet : Bool
  vSrc : Bool
  vDst : Bool
  prio : Nat
  deriving DecidableEq, Repr

/-- A command as the Gate decoded it (R422, R454). -/
inductive Work where
  | gather (d : BatchD)
  | search (d : SearchD)
  | side (del : Bool) (coll tally count array seq : Nat) (virt : Bool := false)
  | segment (d : SegD)
  | xfer (x : Xfer)
  | publish (region tally expect base : Nat)
  | tableSwitch (table expect tally rows target base : Nat)
  | setSwitch (set count tally target list : Nat)
  | tallyWait
  | tallyAdd (tally amount : Nat)
  | fence (durable : Bool) (ext : Nat)
  | invalidate (va len ctx : Nat) (drain : Bool)
  | extentClose (ext tally : Nat)
  | catRead (buf : Nat) (data : List Byte)
  | catWrite
  | catInfo (buf : Nat) (data : List Byte)
  deriving DecidableEq, Repr

/-- What a command holds pinned (R46, R334, R353): kind 0 region, 1 table, 2 collection. -/
structure Pin where
  kind : Nat
  id : Nat
  slot : Nat
  deriving DecidableEq, Repr

/-- A command of an accepted request. Slots are absolute: round * 1024 + slot. -/
structure Cmd where
  tracked : List Nat := []   -- the frames it writes whose tracked count was not zero at admission (R183)
  opcode : Nat
  work : Work
  waitTally : Nat := 0xFFFF
  waitTarget : Nat := 0
  waitRounds : Nat := 0
  deferred : Bool := false
  startSlot : Nat := 0
  endSlot : Nat := 0
  started : Bool := false
  status : Option Nat := none
  parts : Nat := 0          -- part bitmap (R388)
  failPart : Nat := 0
  delivered : Nat := 0
  detail : Nat := 0
  detailAlt : Nat := 0
  endRound : Nat := 0       -- round in which the command ended
  slots : Nat := 0          -- slots of the calendar that paces it (R126), as booked
  done : Nat := 0           -- of these, the slots whose work is done
  counted : Nat := 0        -- bytes its destination tally has taken (R211)
  pins : List Pin := []
  exts : List Nat := []     -- extents the command touches (R32)
  hold : List Nat := []     -- backed frames held (R144)
  deriving DecidableEq, Repr

/-- An accepted request (R57-R62). -/
structure Req where
  rid : Nat
  ctx : Nat
  chan : Option Nat := none   -- mover channel, for a channel transfer (R380)
  stall : Nat
  cls : Nat
  arrival : Nat
  decided : Nat
  promise : Nat
  recRound : Nat
  entryPos : Nat
  tag : Nat
  opcode : Nat
  cmds : List Cmd
  injected : Bool := false
  peerTicket : Option Nat := none   -- a part held for a peer (R84)
  reserve : Bool := false           -- the record comes from the record reserve (R60)
  mustWriteBy : Nat := 0            -- round by whose end the record is written, once ended early (R72)
  bound : Nat := 0                  -- B of a joint request (R80)
  answered : Nat := 0               -- tick of the last answer or bound of a back-invalidation its writes caused (R184)
  deriving DecidableEq, Repr

/-- A booking of one calendar in one round (R48-R52). `slots` empty with `count` nonzero is a long-calendar count. -/
structure Booking where
  rid : Nat
  cmd : Nat := 0
  stall : Nat
  cal : Nat
  dir : Nat := 0        -- 0 outbound / transmit / the only half, 1 inbound
  round : Nat
  slots : List Nat := []
  count : Nat := 0
  mask : Nat := 0       -- column mask of a pitch booking
  bulk : Bool := false
  prio : Nat := 0       -- priority of a transfer's booking (R386)
  xfer : Bool := false
  deriving DecidableEq, Repr

/-- An energy booking (R89): a chit or a float charge of a round. -/
structure EBook where
  rid : Nat
  stall : Nat
  round : Nat
  uj : Nat
  chit : Bool
  deriving DecidableEq, Repr

/-- Activity counted for a request in a round (R99). Kinds 0-8 in the order of R96, 9 engine-cycles driven, 11 Twine payload
bytes. -/
structure Act where
  rid : Nat
  stall : Nat
  round : Nat
  kind : Nat
  qty : Nat
  chit : Bool := false   -- paid by chit (R95), else from the float
  deriving DecidableEq, Repr

/-- A request read from a queue or raised at a mover channel and not yet decided (R53, R418). -/
structure Arrival where
  ctx : Nat
  stall : Nat
  tick : Nat
  pos : Nat
  entries : List (BitVec 512)
  chan : Option Nat := none
  posted : Bool := false     -- its booking queries have been sent
  deriving DecidableEq, Repr

/-- A booked pause (R76). -/
structure Pause where
  stall : Nat
  start : Nat     -- tick
  len : Nat
  rid : Nat
  deriving DecidableEq, Repr

/-- A joint booking (R79-R83) at one of its two ends. The origin keeps one for each remote part of a request. -/
structure Joint where
  ticket : Nat
  node : Nat            -- the other end
  origin : Bool         -- this device is the origin
  rid : Nat := 0        -- the accepted request, or the held part; 0 while undecided
  cmd : Nat := 0        -- the command whose part it is
  ctx : Nat := 0        -- the undecided request's context, entry position and mover channel
  pos : Nat := 0
  chan : Option Nat := none
  link : Nat
  sent : Nat            -- s_O at the origin, r_P at the peer
  replied : Bool := false
  replyTick : Nat := 0
  status : Nat := 0
  d : Nat := 0
  rate : Nat := 0       -- the peer's bytes a round (R80)
  bound : Nat := 0      -- B, once computed
  confirmed : Bool := false
  done : Bool := false  -- the part-completion message has come
  q : QueryMsg
  deriving DecidableEq, Repr

/-- The Gate (R48-R85) and the ledger's per-round accounts (R86-R102). -/
structure GateSt where
  intake : List Arrival := []
  reqs : List Req := []
  nextRid : Nat := 1
  books : List Booking := []
  energy : List EBook := []
  acts : List Act := []
  lastDecision : AMap (Option Nat) := []   -- per stall (R55)
  lastFetch : AMap (Option Nat) := []      -- per stall, tick of the last entry read (R418)
  rotation : AMap Nat := []                -- per stall, the context last served (R418)
  inbound : AMap Nat := []                 -- entries taken in: (round * 16 + port) * 256 + stall (R52)
  pauses : List Pause := []
  joints : List Joint := []
  nextTicket : Nat := 1
  balance : AMap Int := []                 -- PURSE_BALANCE_UJ (R90)
  refunds : AMap Nat := []                 -- refunds settled at the next boundary, per stall
  overruns : AMap Nat := []
  lineUse : AMap Nat := []                 -- standing-booking lines used in the present round, per stall (R64)
  missUse : AMap Nat := []
  standing : AMap Nat := []                -- per stall, the ports its standing booking lies on in the present round, a bit each (R63)
  noStand : AMap (Nat × Nat) := []         -- per stall: answers of R65 this round, first agent
  lastPromise : AMap Nat := []             -- per stall, the latest promise of a request accepted or held for it (R115)
  charged : Nat := 0                       -- charges settled since the last calibration boundary (R103)
  ended : AMap Nat := []                   -- contexts, plus 1, of recorded requests whose last rounds are not settled yet (R100)
  deriving DecidableEq, Repr

/-- A cache frame in use (R140). States: 1 CLEAN, 2 DIRTY, 3 LEAVING; EMPTY frames are not listed. -/
structure CFrame where
  stall : Nat
  state : Nat
  valid : BitVec 16 := 0
  dirty : BitVec 16 := 0
  last : Nat := 0
  freeRound : Nat := 0
  phys : Nat := 0
  deriving DecidableEq, Repr

/-- A write-back under way (R146): the rounds in which its page transfers begin, how many have begun, and the nonzero
bytes they carried (by offset within the frame). -/
structure Wb where
  frame : Nat          -- frame number: offset / 65536
  stall : Nat
  chan : Nat
  slot : Nat           -- the new log slot
  seq : Nat := 0       -- its channel log sequence (R155)
  begins : List Nat    -- rounds of the page transfers
  lastRound : Nat      -- L_p
  rid : Nat := 0
  leaving : Bool := false
  fence : Nat := 0     -- rid of a DURABLE FENCE that waits on it
  begun : Nat := 0
  image : List Host.Cell := []
  keepLost : Bool := false
  deriving DecidableEq, Repr

/-- A backed frame an accepted request uses (R139, R144), until the tick of its promise: held from the first round of the
booked use of the command that names it. -/
structure Hold where
  frame : Nat
  stall : Nat          -- the stall that owns the frame's extent
  rid : Nat
  till : Nat
  cmd : Nat := 0
  deriving DecidableEq, Repr

/-- A program of the log's own (R156, R158, R159): the relocation of a frame's committed slot, or a lost marker. -/
structure Reloc where
  chan : Nat
  frame : Nat
  src : Nat            -- the slot it leaves; for a lost marker 0
  kind : Nat := 3      -- 2 lost marker, 3 relocation (R155)
  dst : Nat := 0       -- its new slot, once booked
  seq : Nat := 0
  last : Nat := 0      -- the round of its last program transfer, once booked
  booked : Bool := false
  deriving DecidableEq, Repr

/-- A flash channel (R152-R160). -/
structure Chan where
  luns : Nat := 0
  blocks : Nat := 0
  bad : List Nat := []          -- blocks with a factory bad mark (R519)
  sequence : Nat := 0
  ckptValid : Nat := 2          -- newest valid area, 2 none
  ckptArea : Option Nat := none -- area being written
  ckptSeq : Nat := 0            -- log sequence at which the newest valid checkpoint began
  ckptNext : Nat := 0           -- log sequence at which the one being written began
  ckptLeft : Nat := 0           -- its pages not yet booked
  ckptEnd : Nat := 0            -- the round of its last page's program transfer
  loaded : Bool := false
  rebuilt : Bool := false
  suspended : List Nat := []    -- LUNs whose program or erase is suspended
  open_ : Nat := 0              -- block being filled
  fill : Nat := 0               -- its next log slot
  deriving DecidableEq, Repr

/-- An erase block (R154, R159). States: 0 free, 1 in use, 2 retired, 3 awaiting erase, 4 being cleared by compaction. -/
structure Block where
  state : Nat := 0
  erases : Nat := 0
  opened : Nat := 0
  erase : Nat := 0        -- the round from which its erase runs
  deriving DecidableEq, Repr

structure StoreSt where
  frames : AMap (Option CFrame) := []    -- by frame number
  mapping : AMap Nat := []               -- mapping entries (R154) by frame number
  ckpt : AMap Nat := []                  -- mapping entries as the newest valid checkpoint holds them
  ckptDraft : AMap Nat := []             -- as the checkpoint being written holds them
  mapBad : List Nat := []                -- 4 KiB regions of the mapping table with an uncorrectable error (R161)
  wbs : List Wb := []
  relocs : List Reloc := []
  recWrites : AMap Nat := []             -- extent records being written to flash (R520): the round of the last program transfer
  holds : List Hold := []
  chans : AMap Chan := []
  blocks : AMap Block := []              -- chan * 2^26 + block
  headers : AMap Nat := []               -- (chan * 2^26 + slot) * 4 + page: page headers (R155)
  emptyTargets : List (Nat × Nat) := []
  ceCount : AMap Nat := []               -- corrected errors of a physical frame (R161)
  retired : List Nat := []               -- retired physical frames
  gone : AMap Nat := []                  -- cache frames a stall has lost to retirement (R161)
  tracked : AMap Nat := []               -- tracked counts by frame number (R175)
  deriving DecidableEq, Repr

/-- A directory entry's HOLDERS and state (R173). -/
structure DirEnt where
  line : Nat            -- offset / 64
  stall : Nat
  owned : Bool
  coarse : Bool := false
  agents : List Nat := []    -- list form: at most four agents
  vector : BitVec 64 := 0    -- vector form
  cluster : Option Nat := none
  deriving DecidableEq, Repr

/-- The operation of a CXL.mem request (R168). -/
inductive CxlOp where
  | rd (snp : Snp) | rdData | inv | invNt | clnEvct
  | wr (m : Meta) | wrPtl (m : Meta)
  deriving DecidableEq, Repr

/-- A CXL.mem request (R64, R176). Phases: 0 waiting for admission, 1 waiting on a block, 2 waiting for answers,
3 answered and waiting for the flit's acknowledgement. -/
structure CxlReq where
  id : Nat
  agent : Nat
  addr : Nat
  op : CxlOp
  data : BitVec 512 := 0
  mask : BitVec 64 := BitVec.allOnes 64
  stall : Nat
  arrival : Nat
  admitted : Nat := 0
  phase : Nat := 0
  flash : Bool := false
  probe : Bool := false     -- served in owner-ordered mode (R189)
  cell : Nat := 0           -- the line when the transaction began (R176): 0 INVALID, 1 SHARED, 2 OWNED by A, 3 OWNED by another
  grant : Bool := true      -- false where R177 or R183 grants no state
  victim : Option Nat := none   -- the line of the entry it evicts (R178)
  gone : List Nat := []     -- agents that answered BIRspI or reached the bound
  noFrame : Bool := false   -- no cache frame could be taken (R142)
  sectorUe : Bool := false  -- its lookup meets an uncorrectable error in the sector (R182)
  deriving DecidableEq, Repr

/-- An outstanding BISnp (R179, R181). Kind: 0 Cur, 1 Data, 2 Inv. `req` 0: sent for a unit, an eviction or a close. -/
structure BiSnp where
  agent : Nat
  line : Nat
  kind : Nat
  tick : Nat
  req : Nat
  close : Option Nat := none   -- the extent whose drain tally counts it (R32)
  poison : Bool := false    -- poison the line at the bound (R181)
  block : Bool := false     -- it blocks its line: sent in home-ordered mode (R179)
  seen : Bool := false      -- its injection opportunity has been taken (R500)
  deaf : Bool := false      -- an injection discards its answer (R502)
  owner : Nat := 0          -- the accepted request whose write caused it (R184), 0 for none
  porter : Nat := 0         -- the porter that made the write (R203), plus one
  deriving DecidableEq, Repr

/-- A write of a line by the device's own units that waits at the home: for a blocked line (R179), or, once its
back-invalidations are sent, for their answers (R183). -/
structure UnitWr where
  line : Nat
  data : BitVec 512
  mask : BitVec 64
  tick : Nat            -- when it reached the home
  rid : Nat := 0        -- the request it serves, 0 for none
  porter : Nat := 0     -- the porter that made it, plus one
  sent : Bool := false
  deriving DecidableEq, Repr

structure CohSt where
  dir : AMap (Option DirEnt) := []   -- ((stall * 8 + stack) * 2^20 + index) * 2 + way
  waits : List UnitWr := []
  reqs : List CxlReq := []
  nextId : Nat := 1
  snps : List BiSnp := []
  dropped : List (Nat × Nat) := []   -- (agent, line) under R181
  predictor : AMap Nat := []         -- stall * 2^24 + counter
  deriving DecidableEq, Repr

/-- A store-buffer entry (R201). -/
structure SbEnt where
  line : Nat
  mask : BitVec 64
  data : BitVec 512
  deriving DecidableEq, Repr

/-- A line of a line cache (R200). -/
structure LcLine where
  cluster : Nat
  stall : Nat
  line : Nat
  data : BitVec 512
  owned : Bool := false
  deriving DecidableEq, Repr

/-- A translation (R234, R236). `cluster` none is the die TLB. -/
structure Tlb where
  ctx : Nat
  stall : Nat
  cluster : Option Nat
  va : Nat
  ga : Nat
  size : Nat         -- bytes
  read : Bool
  write : Bool       -- W
  dirty : Bool := true -- D
  began : Nat        -- tick at which the walk began
  deriving DecidableEq, Repr

/-- A booked pre-walk (R237). -/
structure PreWalk where
  rid : Nat
  cmd : Nat
  index : Nat
  ctx : Nat
  stall : Nat
  va : Nat
  round : Nat
  write : Bool
  clusters : List Nat := []
  lastRound : Nat := 0
  done : Bool := false
  cut : Bool := false    -- an invalidation removed a translation it holds (R246)
  deriving DecidableEq, Repr

/-- An invalidation taken and not yet applied (R245, R246). -/
structure IqEnt where
  stall : Nat
  va : Nat
  len : Nat
  ctx : Nat          -- 0xFFFF every context of the stall
  drain : Bool
  taken : Nat        -- tick
  queue : Bool       -- from the queue (IQ_DONE_TALLY advances)
  rid : Nat := 0     -- an INVALIDATE_XLATE request and its command
  cmd : Nat := 0
  n : Nat := 1       -- queue entries it stands for
  ats : Option (Nat × Nat) := none -- of a host's Invalidate Request: its number and PASID (R248)
  deriving DecidableEq, Repr

/-- An ATS request outstanding (R248). -/
structure AtsReq where
  id : Nat
  walk : PreWalk
  issued : Nat
  deriving DecidableEq, Repr

structure XlateSt where
  tlbs : List Tlb := []
  walks : List PreWalk := []
  iq : List IqEnt := []
  iqTaken : AMap Nat := []
  ats : List AtsReq := []
  nextAts : Nat := 1
  xrSeq : AMap Nat := []        -- records produced (R243)
  xrWritten : AMap Nat := []    -- records written
  heatUnits : AMap Nat := []    -- by offset / 2^21
  heatAgents : AMap Nat := []
  deriving DecidableEq, Repr

/-- A porter (R271-R277). `run`: 0 stopped, 1 running, 2 in WFI, 3 waiting in TC.TWAIT, 4 halted by a trap. -/
structure Porter where
  run : Nat := 0
  regs : AMap Word32 := []
  pc : Word32 := 0
  csrs : AMap Word32 := []      -- by CSR address
  cycle : Nat := 0
  instret : Nat := 0
  stall : Nat := 0
  rid : Nat := 0
  cmd : Nat := 0
  ctx : Nat := 0
  tw : Option (Nat × Nat × Nat × Nat) := none   -- TWAIT: rd, tally, target, start tick
  ldRd : Nat := 0               -- the register the last instruction loaded from the porter's memory, 0 where it did not (R276)
  amo : Nat := 0                -- an atomic begun: 0 none, else 1, plus 1 where its line was held by another, plus 2 where it runs far (R186)
  amoAt : Option (Nat × Nat) := none   -- the line an atomic has reached the home for, and the tick (R179)
  sb : List SbEnt := []
  deriving DecidableEq, Repr

/-- A span of a column (R285). -/
structure Span where
  col : Nat
  start : Nat
  last : Nat
  first : Nat
  stall : Nat
  rid : Nat
  cmd : Nat
  deriving DecidableEq, Repr

/-- One bank of stream memory with its tables (R280-R291). -/
structure Stream where
  fields : AMap (BitVec 28) := []     -- col * 2^14 + position
  movers : AMap (BitVec 16) := []     -- cluster * 2^14 + position
  checks : AMap (BitVec 16) := []     -- cluster * 2^14 + position: check word xor the right one
  opRows : AMap (BitVec 256) := []    -- col * 256 + row
  moveRows : AMap (BitVec 256) := []  -- cluster * 256 + row
  spans : List Span := []
  cycleLen : Nat := 0                 -- the bank's cycle length (R287)
  moverFirst : AMap Nat := []         -- cluster * 1024 + START: first position of the mover stream of the spans there, plus one
  deriving DecidableEq, Repr

/-- A column's place in the span it runs (R286). `ran` holds, by engine, the cycles for which its pipeline still holds MAC rows. -/
structure ColSt where
  active : Bool := false
  span : Option Span := none
  pos : Nat := 0
  ran : List Nat := []
  deriving DecidableEq, Repr

/-- The place of a cluster's mover column. -/
structure MovSt where
  pos : Nat := 0
  rep : Nat := 0
  deriving DecidableEq, Repr

structure FabSt where
  planes : AMap (Nat × Nat) := []   -- ((engine * 2 + plane) * 16 + row) * 256 + col*4+lane: (element code, K index)
  planeFmt : AMap (Nat × Nat) := [] -- engine * 2 + plane: format, sparsity
  scalesB : AMap Nat := []          -- ((engine * 2 + plane) * 16 + row) * 16 + col: E8M0 scale
  active : AMap Nat := []           -- active plane of an engine
  loadRow : AMap Nat := []          -- rows loaded into the inactive plane
  acc : AMap Word32 := []           -- (engine * 2 + buffer) * 256 + row * 16 + col
  sat : AMap Nat := []              -- engine * 2 + buffer: saturations since the last drain
  accInt : AMap Nat := []           -- engine * 2 + buffer: 1 where the tile's accumulator is INT32 (R257)
  ready : AMap Nat := []            -- cluster * 1024 + bank: tick at which a waking bank is ready
  porters : AMap Porter := []
  lc : List LcLine := []
  runB : Stream := {}
  nextB : Stream := {}
  nextRound : Nat := 0              -- the round NEXT was loaded for
  pred : AMap Nat := []             -- predicate registers by column
  cols : AMap ColSt := []
  movs : AMap MovSt := []
  loaded : List (Nat × Nat × Nat) := []  -- (rid, cmd, round) loaded into NEXT or RUN
  deriving DecidableEq, Repr

/-- A table's versions (R313). A slot is (base, rows, version, pins). -/
structure Table where
  version : Nat := 0
  valid : Bool := false
  slots : List (Nat × Nat × Nat × Nat) := [(0,0,0,0),(0,0,0,0),(0,0,0,0),(0,0,0,0)]
  deriving DecidableEq, Repr

/-- A row-cache entry (R328). -/
structure RcEnt where
  stall : Nat        -- whose ways
  table : Nat
  version : Nat
  row : Nat
  places : List Nat  -- the lines of the ways it occupies, ascending
  fill : Nat         -- tick of the fill
  held : List Nat := []   -- requests that hold it
  marked : Bool := false
  data : List Byte := []
  deriving DecidableEq, Repr

/-- The first line of an entry. -/
abbrev RcEnt.first (e : RcEnt) : Nat := e.places.headD 0

/-- A batch under way (R318-R323). Its counts not charged yet are indices, bag entries and HBM lines. -/
structure GatherRun where
  rows : List ((Nat × Nat) × List Byte) := []   -- keys looked up, with their rows
  keys : List (Nat × Nat) := []                 -- distinct keys named
  bag : Nat := 0                                -- the next bag
  counted : Nat := 0                            -- indices taken
  entries : Nat := 0
  fetched : Nat := 0
  outs : List (Nat × Nat × List Byte) := []     -- output rows not written yet: the slot they need, their bag, their bytes
  unIdx : Nat := 0
  unEnt : Nat := 0
  unLine : Nat := 0
  fin : Option (Nat × Nat × Bool) := none       -- the end it met: status, detail, injected
  deriving DecidableEq, Repr

/-- A used page unit of a search (R354, R360): its channel, its place among the channel's units, the list, the page of the
list, and the visitors of its pass with the place of the list among their probes. -/
structure PageUnit where
  chan : Nat
  place : Nat
  list : Nat
  page : Nat
  map : Nat                         -- the frame's mapping entry when the array read is issued (R347, R357)
  visitors : List (Nat × Nat)
  deriving DecidableEq, Repr

/-- A search under way (R350-R361). -/
structure SearchRun where
  cands : List (List Nat) := []     -- candidates of the queries walked
  probes : List (List Nat) := []    -- probes of each query, once assigned
  shed : List Nat := []
  assigned : Bool := false
  units : List PageUnit := []       -- used units not read yet
  side : Nat := 0                   -- queries whose side records are scored
  scored : List Nat := []           -- items scored of each query
  merged : Nat := 0                 -- queries merged
  deriving DecidableEq, Repr

structure EmbSt where
  batches : AMap (Option GatherRun) := []   -- rid * 64 + command
  searches : AMap (Option SearchRun) := []  -- rid * 64 + command
  tables : AMap Table := []
  cache : List RcEnt := []
  freq : AMap Nat := []          -- stall * 2^32 + counter
  deriving DecidableEq, Repr

/-- A collection's dynamic state (R342-R372). A directory slot is (version, pins, merge point). -/
structure Coll where
  cur : Nat := 0
  slots : List (Nat × Nat × Nat) := [(0,0,0),(0,0,0)]
  pendSeq : Nat := 0            -- last pending sequence number given
  freeBlocks : List Nat := []   -- side blocks freed
  blocksUsed : Nat := 0         -- side blocks ever taken from the fresh end
  restock : Nat := 0            -- 0 IDLE, 1 MERGING, 2 DRAINING
  nowFlag : Bool := false
  mergePoint : Nat := 0
  retireQ : List (Nat × Nat) := []    -- (centroid, absorber) pending
  retireSet : List (Nat × Nat) := []  -- of the running restock
  builtBy : Nat := 0                  -- round by which the running restock's last program has committed
  chains : AMap Nat := []             -- RECORDS of a chain
  voids : List (Nat × Nat) := []      -- numbers of ended commands with records written, and their last slots (R365)
  deriving DecidableEq, Repr

/-- A mover channel block (R376). -/
structure Mover where
  src : Word64 := 0
  dst : Word64 := 0
  count : Word64 := 0
  ctrl : Word64 := 0xFFFF000000000000#64
  status : Word64 := 0
  doneBytes : Word64 := 0
  chainAddr : Word64 := 0
  deriving DecidableEq, Repr

/-- A train of writes received (R397). -/
structure Train where
  src : Nat
  stall : Nat
  seq : Nat
  dst : Nat
  data : List Byte
  tally : Nat
  packet : Bool
  lastOfPart : Bool
  ticket : Nat
  deriving DecidableEq, Repr

/-- A Twine link (R396-R401). -/
structure Link where
  header : Option (BitVec 2048) := none   -- train being received
  got : List (BitVec 2048) := []
  linkSeq : Nat := 0                      -- next LINK_SEQ expected
  txSeq : Nat := 0                        -- next LINK_SEQ to send
  fails : Nat := 0                        -- successive failures of one flit
  lastFlit : Nat := 0                     -- tick of the last flit received
  failTick : Option Nat := none
  upRound : Option Nat := none            -- round in which it last went UP
  turn : Nat := 0                         -- control-flit rotation
  retry : List (Nat × Nat × BitVec 2048) := []  -- retry buffer: (stall, LINK_SEQ, flit)
  credits : AMap Nat := []                -- per stall
  deriving DecidableEq, Repr

structure TwineSt where
  links : AMap Link := []
  nextSeq : AMap Nat := []       -- receive: source * 256 + stall
  sendSeq : AMap Nat := []       -- send: destination * 256 + stall
  held : List Train := []        -- held behind a gap (R221)
  blocked : AMap (Option Nat) := []  -- link * 256 + stall: tick until which an injection keeps it off (R502)
  deriving DecidableEq, Repr

/-- A CXL or host port (R407-R411, R523) and the I3C target. The lengths MWL and MRL are 255 at reset: R412 gives their range, 69 to
255, and no reset value (DESIGN CHOICE, log entry 9). -/
structure PortSt where
  upRound : AMap (Option Nat) := []
  i3cDyn : Nat := 0
  mwl : Nat := 255
  mrl : Nat := 255
  eid : Nat := 0
  deriving DecidableEq, Repr

/-- A firmware component (R459-R474): 0 SEC, 1 PWR, 2 SCH, 3 + k CTLk. -/
structure Comp where
  moved : Bool := false
  halted : Bool := false
  restart : Option Nat := none   -- round of the last restart
  fault : Option Nat := none     -- round of an unrecovered fault
  missed : Bool := false
  deriving DecidableEq, Repr

/-- An image slot of the boot flash (R477): what the factory wrote, nothing, or written bytes. -/
inductive Slot where
  | empty | factory | image (bytes : List Byte)
  deriving DecidableEq, Repr

structure FwSt where
  stage : List Byte := []
  comps : AMap Comp := []
  inEffect : Slot := .factory
  phase : Nat := 0         -- handoff: 0 none, 1 prepare, 2 ready, 3 pause, 4 rollback
  accepted : Nat := 0      -- round of acceptance
  p0 : Nat := 0
  secDone : Bool := false
  roles : List Nat := []   -- CORE_ROLES (R457)
  spare : Nat := 19
  verifyStart : Option Nat := none
  rollbackCause : Nat := 6
  recovering : List Nat := []  -- components a recovery handoff moves (R465)
  deriving DecidableEq, Repr

/-- A report held or in signing (R490). -/
structure Report where
  rq : Requester
  body : List Byte
  q : Nat
  bytes : Option (List Byte)
  round : Nat
  deriving DecidableEq, Repr

structure SecSt where
  rec0 : Option (Nat × Nat) := none   -- boot record copies: SEQUENCE, ACTIVE; none for a bad CRC
  rec1 : Option (Nat × Nat) := none
  slotA : Slot := .factory
  slotB : Slot := .empty
  revoked : Nat := 0
  floor : Nat := 0
  lifecycle : Nat := 1
  treeFuses : Nat := 0
  reserveR : Nat := 0
  sigNext : Nat := 0
  tree : Nat := 0                     -- bottom trees built
  reports : List Report := []
  lastReport : Option Nat := none     -- round of the last accepted request
  challenge : Option (List Byte) := none
  challenges : Nat := 0
  unlock : Bool := false              -- DEBUG_STATE opens at the next reset (R492)
  debugOpen : Bool := false
  debugHistory : Bool := false
  bootSlot : Nat := 0
  bootResult : Nat := 0
  bootPending : Bool := false
  deriving DecidableEq, Repr

/-- Error rings, logs and injection (R428, R494-R506). A record is its 256 bits. -/
structure ErrSt where
  seq : AMap Nat := []
  written : AMap Nat := []
  log : List Nat := []
  logWritten : Nat := 0
  stallLog : AMap (List Nat) := []
  detections : AMap Nat := []
  armCount : AMap Nat := []       -- detector * 256 + instance
  pactLog : List Nat := []
  meterSnaps : AMap (List Nat) := []
  pactEnd : AMap (List Nat) := [] -- of a pact that left force: 0, then the requests it still waits for
  retiredCtx : AMap Nat := []     -- context -> stall + 1, of contexts unbound at STALL_REMOVE
  deriving DecidableEq, Repr

/-- A message the device sends. -/
inductive OutMsg where
  | ndr (agent addr op devLoad : Nat)                       -- 0 Cmp, 1 Cmp-S, 2 Cmp-E, 3 BI-ConflictAck
  | drs (agent addr op : Nat) (data : BitVec 512) (poison : Bool) (devLoad : Nat)
  | biSnp (agent line kind : Nat)
  | query (link : Nat) (q : QueryMsg)
  | reply (link ticket status d rate : Nat)
  | confirm (link ticket : Nat)
  | partDone (link ticket parts bytes status : Nat)
  | skip (link src stall seq : Nat)
  | retry (link stall linkSeq : Nat)
  | flit (link : Nat) (f : BitVec 2048)
  | control (link : Nat) (stalls : List Nat)
  | mctp (rq : Requester) (tag result : Nat) (data : List Byte)
  | mailbox (port ld command : Nat) (data : List Byte)
  | avs (mv : Nat)
  | arrayRead (chan slot page : Nat)
  | suspend (chan lun : Nat)
  | resume (chan lun : Nat)
  | atsRequest (id pasid va : Nat)
  | atsInvDone (pasid : Nat)
  | i3cNack
  deriving DecidableEq, Repr

/-- The state of the block. -/
structure State where
  pending : List Instr := []
  clk : ClkSt := {}
  cat : CatSt := {}
  ext : ExtSt := {}
  mem : MemSt := {}
  tally : AMap Tally := []
  ctxs : AMap Ctx := []
  gate : GateSt := {}
  store : StoreSt := {}
  coh : CohSt := {}
  xl : XlateSt := {}
  fab : FabSt := {}
  emb : EmbSt := {}
  colls : AMap Coll := []
  movers : AMap Mover := []
  twine : TwineSt := {}
  port : PortSt := {}
  fw : FwSt := {}
  sec : SecSt := {}
  err : ErrSt := {}
  sent : List OutMsg := []
  freeCtr : Nat := 0        -- the model's own field: the counter free values are applied to (log entry 1)
  orders : AMap Nat := []   -- the model's own field: the counters of each stall's free orders (log entry 1)
  deriving DecidableEq, Repr

/-- The machine right after a power-on reset: the internal reset has ended, tick 0, phase ROM (R515). The straps it sampled are the
board's: BRD_POS and CFG_POOLED stand at 0 (DESIGN CHOICE, log entry 4). -/
def State.reset : State := {}

end Sys2Proof.Machine
end

