-- ==== Sys2Proof/Machine/Flags.lean ====
section
/-! DEFINITION. Status codes and the bit layouts of what the device writes: completion records, error records,
translation records, tally blocks, doorbell blocks and the other read-only words of the manual. -/

namespace Sys2Proof.Machine
open Sys2Proof

/-- Status codes of R424. -/
abbrev OK := 0x00
abbrev REFUSED_CALENDAR := 0x01
abbrev REFUSED_PURSE := 0x02
abbrev REFUSED_QUOTA := 0x03
abbrev REFUSED_PAUSED := 0x04
abbrev FAULT_MEMORY := 0x10
abbrev FAULT_TRANSLATION := 0x11
abbrev FAULT_LINK := 0x12
abbrev FAULT_EXTENT_CLOSED := 0x13
abbrev CONFLICT_VERSION := 0x14
abbrev PARTIAL := 0x15
abbrev BUSY := 0x16
abbrev PROTECTION := 0x20
abbrev INVALID := 0x21

/-- The statuses for which R70 gives a retry tick. -/
def hasRetry (st : Nat) : Bool := 1 ≤ st && st ≤ 4

/-- A completion record (R424) as its 256 bits; reserved bits zero (R4). -/
def recordBits (detail actual promised entry parts tag commands opcode phase : Nat)
    (refused part injected : Bool) (status : Nat) : Nat :=
  status % 256 + (if injected then 2 ^ 8 else 0) + (if part then 2 ^ 9 else 0) + (if refused then 2 ^ 11 else 0)
  + (phase % 2) * 2 ^ 15 + (opcode % 256) * 2 ^ 16 + (commands % 16) * 2 ^ 24 + (tag % 2 ^ 16) * 2 ^ 32
  + (parts % 2 ^ 16) * 2 ^ 48 + (entry % 2 ^ 32) * 2 ^ 64 + (promised % 2 ^ 64) * 2 ^ 96
  + (actual % 2 ^ 64) * 2 ^ 160 + (detail % 2 ^ 32) * 2 ^ 224

/-- PHASE of the record at ring position `pos` (R425): 1 on even laps. -/
def phaseOf (pos entries : Nat) : Nat := if (pos / entries) % 2 = 0 then 1 else 0

/-- An error record (R428) as its 256 bits. -/
def errorBits (tick object detail ctx stall status : Nat) (wide injected : Bool) (kind seq : Nat) : Nat :=
  seq % 2 ^ 32 + (kind % 2 ^ 16) * 2 ^ 32 + (if injected then 2 ^ 48 else 0) + (if wide then 2 ^ 49 else 0)
  + (status % 256) * 2 ^ 64 + (stall % 256) * 2 ^ 72 + (ctx % 2 ^ 16) * 2 ^ 80 + (detail % 2 ^ 32) * 2 ^ 96
  + (object % 2 ^ 64) * 2 ^ 128 + (tick % 2 ^ 64) * 2 ^ 192

/-- A translation record (R244): kind 1 FAULT, 2 HEAT. -/
def xlateBits (addr tick units agents ctx kind cause seq : Nat) : Nat :=
  seq % 2 ^ 32 + (cause % 256) * 2 ^ 32 + (kind % 256) * 2 ^ 40 + (ctx % 2 ^ 16) * 2 ^ 48 + (agents % 2 ^ 32) * 2 ^ 64
  + (units % 2 ^ 32) * 2 ^ 96 + (tick % 2 ^ 64) * 2 ^ 128 + (addr % 2 ^ 64) * 2 ^ 192

/-- An extent record (R27): a FREE extent's record holds its number and zeros. -/
def extentBits (n : Nat) (r : ExtRec) : Nat :=
  n % 2 ^ 20 + r.state * 2 ^ 20 + (if r.backed then 2 ^ 22 else 0) + (r.stall % 256) * 2 ^ 24 + (r.drain % 2 ^ 32) * 2 ^ 32

/-- A region's version word (R43). -/
def versionWord (r : Region) : Nat :=
  (if r.valid then 1 else 0) + (r.publisher % 2 ^ 14) * 2 ^ 16 + (r.version % 2 ^ 32) * 2 ^ 32

/-- A region's slots (R41): base, version, pin count. -/
def regionSlotBits (r : Region) : Nat :=
  (r.slots.zipIdx.map (fun (x, i) => (x.1 % 2 ^ 64 + (x.2.1 % 2 ^ 32) * 2 ^ 64 + (x.2.2 % 2 ^ 32) * 2 ^ 96) * 2 ^ (128 * i))).foldl (· + ·) 0

/-- TABLE_VERSION (R313). -/
def tableVersionWord (t : Table) : Nat := (if t.valid then 1 else 0) + (t.version % 2 ^ 16) * 2 ^ 16

/-- TABLE_SLOTS (R313): base, rows, version, two reserved bytes, pin count. -/
def tableSlotBits (t : Table) : Nat :=
  (t.slots.zipIdx.map (fun (x, i) => (x.1 % 2 ^ 64 + (x.2.1 % 2 ^ 64) * 2 ^ 64 + (x.2.2.1 % 2 ^ 16) * 2 ^ 128
    + (x.2.2.2 % 2 ^ 32) * 2 ^ 160) * 2 ^ (192 * i))).foldl (· + ·) 0

/-- DIR_SLOTS (R375): version, pin count, merge point. -/
def dirSlotBits (c : Coll) : Nat :=
  (c.slots.zipIdx.map (fun (x, i) => (x.1 % 2 ^ 32 + (x.2.1 % 2 ^ 32) * 2 ^ 32 + (x.2.2 % 2 ^ 64) * 2 ^ 64) * 2 ^ (128 * i))).foldl (· + ·) 0

/-- A tally's block as a reader sees it (R209): ADD is write-only and reads zero (R8). -/
def tallyBits (t : Tally) : Nat :=
  t.value.toNat + (if t.overflow then 2 ^ 128 else 0) + t.lastTick.toNat * 2 ^ 192

/-- CR_FREE (R416): slots neither written and unconsumed nor reserved. -/
def crFree (c : Ctx) (entries : Nat) : Nat := entries - ((c.crWritten - c.crHead).toNat + c.reserved)

/-- A doorbell block as a reader sees it (R416). -/
def doorbellBits (c : Ctx) (entries stall : Nat) : Nat :=
  c.cqTail.toNat + c.crHead.toNat * 2 ^ 32 + c.cqTaken.toNat * 2 ^ 64 + c.crWritten.toNat * 2 ^ 96
  + (crFree c entries % 2 ^ 32) * 2 ^ 128 + c.state * 2 ^ 160 + (stall % 2 ^ 16) * 2 ^ 176

/-- Channel STATUS (R378). -/
def moverStatus (mark parts state code : Nat) : Word64 :=
  BitVec.ofNat 64 (code % 256 + (state % 8) * 2 ^ 8 + (parts % 2 ^ 16) * 2 ^ 16 + (mark % 2 ^ 32) * 2 ^ 32)

/-- STATE of a channel's STATUS. -/
def moverState (m : Mover) : Nat := bits m.status.toNat 10 8

/-- COMMIT_STATUS (R451). -/
def commitStatus (state status inst sub idx : Nat) : Nat :=
  state + status * 2 ^ 16 + (inst % 2 ^ 16) * 2 ^ 24 + (sub % 256) * 2 ^ 40 + (idx % 2 ^ 16) * 2 ^ 48

/-- An entry's descriptor (R452) as its 16 bytes' value. -/
def infoBits (len typ acc priv expert app grp inst : Nat) : Nat :=
  len % 2 ^ 32 + typ * 2 ^ 32 + acc * 2 ^ 40 + priv * 2 ^ 48 + (expert + 2 * app) * 2 ^ 56 + grp * 2 ^ 64 + inst * 2 ^ 72

/-- A directory entry (R173) as its 128 bits. -/
def dirBits (e : DirEnt) : Nat :=
  let slots := match e.cluster with
    | some k => 2 ^ 15 + 2 ^ 14 + k % 16
    | none => (e.agents.zipIdx.map (fun (a, i) => (2 ^ 15 + a % 128) * 2 ^ (16 * i))).foldl (· + ·) 0
  (if e.coarse then e.vector.toNat + 2 ^ 73 else slots) + (if e.owned then 2 else 1) * 2 ^ 74
  + (e.stall % 256) * 2 ^ 76 + (e.line % 2 ^ 44) * 2 ^ 84

/-- A mapping entry (R154). -/
def mapEntry (mapped lost : Bool) (slot : Nat) : Nat :=
  slot % 2 ^ 26 + (if lost then 2 ^ 30 else 0) + (if mapped then 2 ^ 31 else 0)

/-- A span-table entry (R285). -/
def spanBits (p : Span) : Nat :=
  p.rid % 2 ^ 22 + (p.stall % 256) * 2 ^ 22 + (p.first % 2 ^ 14) * 2 ^ 30 + (p.last % 1024) * 2 ^ 44 + (p.start % 1024) * 2 ^ 54

/-- A pact-log entry (R133): tick, pact, kind, both stalls, object, new state, in 32 bytes; the manual gives the fields
and their order, not their places. The places are the model's (log entry 12). -/
def pactBits (tick pact kind a b object state : Nat) : Nat :=
  tick % 2 ^ 64 + (pact % 2 ^ 16) * 2 ^ 64 + (kind % 256) * 2 ^ 80 + (state % 256) * 2 ^ 88 + (a % 2 ^ 16) * 2 ^ 96
  + (b % 2 ^ 16) * 2 ^ 112 + (object % 2 ^ 64) * 2 ^ 128

/-- A meter snapshot (R135) as its 80 bytes' value. -/
def snapshotBits (round epoch comp : Nat) (meters : List Nat) : Nat :=
  round % 2 ^ 64 + (epoch % 2 ^ 32) * 2 ^ 64 + (comp % 2 ^ 32) * 2 ^ 96
  + (meters.zipIdx.map (fun (m, i) => (m % 2 ^ 64) * 2 ^ (128 + 64 * i))).foldl (· + ·) 0

/-- Locators of R494. -/
def sramLocator (cluster bank row : Nat) : Nat := cluster * 2 ^ 40 + bank * 2 ^ 32 + row
def flashLocator (chan block page : Nat) : Nat := chan * 2 ^ 56 + block * 2 ^ 24 + page
def linkLocator (link stall : Nat) : Nat := link + stall * 2 ^ 8
def streamLocator (cluster next bundle : Nat) : Nat := cluster * 2 ^ 40 + next * 2 ^ 32 + bundle

/-- DevLoad of R408 for `w` requests waiting with `credits` credits: 0 light, 1 optimal, 2 moderate, 3 severe. -/
def devLoadOf (w credits : Nat) : Nat :=
  if w = 0 then 0 else if 4 * w ≤ credits then 1 else if 4 * w ≤ 3 * credits then 2 else 3

/-- One step of a most-significant-bit-first CRC-16 with polynomial 0x1021 (R283). -/
def crc16Byte (crc : Nat) (b : Nat) : Nat :=
  (List.range 8).foldl (fun c _ => if c ≥ 2 ^ 15 then ((c * 2) % 2 ^ 16) ^^^ 0x1021 else (c * 2) % 2 ^ 16) (crc ^^^ (b * 256))

/-- The check word of a cluster field (R283). -/
def crc16 (l : List Byte) : Nat := l.foldl (fun c b => crc16Byte c b.toNat) 0xFFFF

/-- One step of the reflected CRC-32 of IEEE 802.3. -/
def crc32Byte (crc b : Nat) : Nat :=
  (List.range 8).foldl (fun c _ => if c % 2 = 1 then (c / 2) ^^^ 0xEDB88320 else c / 2) (crc ^^^ b)

/-- CRC-32 with the polynomial of IEEE 802.3 (R155, R397, R478), in that standard's bit order. -/
def crc32 (l : List Byte) : Nat := (l.foldl (fun c b => crc32Byte c b.toNat) 0xFFFFFFFF) ^^^ 0xFFFFFFFF

/-- A page header (R155) without its HCRC, and with it. -/
def pageHeader (seq ext frame page kind stall : Nat) : Nat :=
  let b := (stall % 256) * 2 ^ 16 + (kind % 16) * 2 ^ 24 + (page % 4) * 2 ^ 28 + (frame % 2 ^ 14) * 2 ^ 30
    + (ext % 2 ^ 20) * 2 ^ 44 + (seq % 2 ^ 64) * 2 ^ 64
  b + crc32 (leBytes 28 b) * 2 ^ 224

/-- The HCRC of a header holds over its low 224 bits. -/
def headerOk (h : Nat) : Bool := h / 2 ^ 224 == crc32 (leBytes 28 (h % 2 ^ 224))

end Sys2Proof.Machine
end

