-- ==== Sys2Proof/Machine/Ops.lean ====
section
/-! DEFINITION. The named operations over State that the meanings share: time, catalogue values, shares, memory,
tallies, error records, rings, messages and free values. -/

namespace Sys2Proof.Machine
open Sys2Proof

/-- What a meaning answers. -/
abbrev Out := Host.Outcome State Fault Refusal

/-! ### Time (R1, R49, R50) -/

def now (s : State) : Nat := s.clk.calTick
def curRound (s : State) : Nat := s.clk.calTick / 1280
/-- An absolute slot (round * 1024 + slot) has begun: slots begin every 1.25 ticks (R49). -/
def slotBegun (s : State) (abs : Nat) : Bool := 5 * abs ≤ 4 * now s
/-- The tick at which an absolute slot ends, rounded up. -/
def slotEndTick (abs : Nat) : Nat := cdiv (5 * (abs + 1)) 4

/-- The round of the slots that end at the present tick. -/
def endedRound (s : State) : Nat := (now s - 1) / 1280

/-- A fresh free value of `w` bits, and the state with the counter advanced (log entry 1). -/
def fresh (w : Nat) (s : State) : BitVec w × State := (Config.free w s.freeCtr, { s with freeCtr := s.freeCtr + 1 })

/-- The counter of a stall's next free order, apart from every other stall's and from `freeCtr` (R127, R128). -/
def orderIx (s : State) (st : Nat) : Nat := (st + 1) * 2 ^ 64 + AMap.get 0 s.orders st
/-- `n` values of a stall's orders are used. -/
def useOrders (st n : Nat) (s : State) : State := { s with orders := AMap.upd 0 s.orders st (· + n) }

/-- Append a message the device sends. -/
def send (m : OutMsg) (s : State) : State := { s with sent := s.sent ++ [m] }

/-! ### Catalogue values -/

def catKey (idx sub inst : Nat) : Nat := idx * 2 ^ 24 + sub * 2 ^ 16 + inst

/-- The row of an assigned address; index 0xB100 + d takes the injection rows (R509). -/
def catRow? (idx sub : Nat) : Option CatRow :=
  let i := if 0xB100 ≤ idx ∧ idx ≤ 0xB117 then 0xB1FF else if idx = 0xB1FF then 0x10000 else idx
  match catTable.find? (fun e => e.1 == i) with
  | some e => e.2.find? (fun r => r.sub == sub)
  | none => none

/-- Stall 0's SHARE_MAP at reset: groups 107-127 of every mask but the pitch masks (R124). -/
def share0 : Nat :=
  ((List.range 243).filter (fun k => k < 72 || 200 ≤ k)).foldl (fun a k => a + (2 ^ 128 - 2 ^ 107) * 2 ^ (128 * k)) 0

/-- The default ROUTE (R394): the pair of R14 for on-board nodes, 31 elsewhere. -/
def route0 (pos node : Nat) : Nat :=
  (List.range 16384).foldl (fun a q => a + (if q < 16 ∧ q ≠ node then (if q < pos then q else q - 1) else 31) * 2 ^ (8 * q)) 0

/-- The default of an entry where it is no plain number of its row (R88, R114, R124, R431, R440). -/
def dfltOf (s : State) (idx sub inst : Nat) : Nat :=
  let z := inst = 0
  match idx, sub with
  | 0x2010, 1 => if z then 512 else 0
  | 0x2010, 3 => if z then 64 else 0
  | 0x3000, 1 => if z then 1 else 0
  | 0x3010, 1 => if z then share0 else 0
  | 0x3013, 2 => if z then 64 else 0
  | 0x3014, 1 => if z then 255 else 0
  | 0x3015, 2 => if z then 1024 else 0
  | 0xF010, 1 => if z then 1 else 0
  | 0x4002, 1 => s.clk.brdPos
  | 0x9020, 2 => 0x50 + s.clk.brdPos
  | 0x8120, 1 => route0 s.clk.brdPos s.clk.brdPos
  | _, _ => match catRow? idx sub with | some r => r.dflt | none => 0

/-- The stored value in effect of an entry. -/
def cv (s : State) (idx sub : Nat) (inst : Nat := 0) : Nat :=
  match AMap.get none s.cat.vals (catKey idx sub inst) with
  | some v => v
  | none => dfltOf s idx sub inst

/-- The instances of an entry that hold a stored value, ascending, with their values. -/
def storedInsts (s : State) (idx sub : Nat) : List (Nat × Nat) :=
  s.cat.vals.filterMap (fun e => if e.1 / 2 ^ 16 = idx * 256 + sub then e.2.map (fun v => (e.1 % 2 ^ 16, v)) else none)

/-- Put a value into effect. -/
def cvSet (idx sub inst v : Nat) (s : State) : State :=
  { s with cat := { s.cat with vals := AMap.set none s.cat.vals (catKey idx sub inst) (some v) } }

/-- Return an entry to its default, its shadow with it. -/
def cvClear (idx sub inst : Nat) (s : State) : State :=
  let k := catKey idx sub inst
  { s with cat := { s.cat with vals := AMap.set none s.cat.vals k none, shadow := AMap.set none s.cat.shadow k none,
                               pendB := AMap.set none s.cat.pendB k none } }

/-- Add to a counter. -/
def cvAdd (idx sub inst n : Nat) (s : State) : State := cvSet idx sub inst (cv s idx sub inst + n) s

/-- The shadow of a staged entry (R446). -/
def cvShadow (s : State) (idx sub inst : Nat) : Nat :=
  match AMap.get none s.cat.shadow (catKey idx sub inst) with | some v => v | none => cv s idx sub inst

/-- A staged value as the Gate may use it: while the group is PENDING both values must allow (R448). -/
def pendingGroup (s : State) (g : Nat) : Bool := (AMap.get none s.cat.pendCommit g).isSome
def cvMin (s : State) (g idx sub inst : Nat) : Nat :=
  if pendingGroup s g then min (cv s idx sub inst) (cvShadow s idx sub inst) else cv s idx sub inst

/-- The value an entry has from the next round boundary on: a class B write waiting, else the value in effect (R442). -/
def cvNext (s : State) (idx sub : Nat) (inst : Nat := 0) : Nat :=
  match AMap.get none s.cat.pendB (catKey idx sub inst) with | some v => v | none => cv s idx sub inst

/-! ### Named values -/

def nodeNumber (s : State) : Nat := cv s 0x4002 1
def stallState (s : State) (st : Nat) : Nat := cv s 0x3000 1 st
def stallLive (s : State) (st : Nat) : Bool := stallState s st == 1 || stallState s st == 2
def ctxStall (s : State) (c : Nat) : Nat := cv s 0x3030 1 c
def ctxPort (s : State) (c : Nat) : Nat := cv s 0x9100 1 c
def biBound (s : State) : Nat := cv s 0x5002 1
/-- ATOMIC_WORST_TICKS and RELEASE_WORST_TICKS, at the BI_BOUND in effect (R188, R203, R443). -/
def atomicTicks (s : State) : Nat := biBound s + 160
def releaseTicks (s : State) : Nat := biBound s + 200
def expert (s : State) (st : Nat) : Bool := cv s 0xF010 1 st == 1
/-- The Gate has opened since the last reset (R517, R524): Memory_Active is set. -/
def gateOpened (s : State) : Bool := s.clk.memActive
def agentStall (s : State) (a : Nat) : Nat := cv s 0x5010 1 a
/-- The stall an agent acts for: its binding where that stall is ACTIVE (R169, R525). -/
def agentOf (s : State) (a : Nat) : Option Nat :=
  let st := agentStall s a
  if st < 256 ∧ stallState s st = 1 then some st else none
/-- The agent set of a stall (R169). -/
def agentsOf (s : State) (st : Nat) : List Nat :=
  ((storedInsts s 0x5010 1).filter (fun e => e.2 == st)).map (·.1)
def homeOrdered (s : State) (st : Nat) : Bool := cv s 0x5000 1 st == 1
def transitMax (s : State) : Nat := maxOf ((List.range 32).map (fun l => cv s 0x1030 1 l))
def confirmHold (s : State) : Nat := 2 * transitMax s + 50
def oppCycles (p : Nat) : Nat := [7680, 10240, 12800, 15360, 17920].getD p 0
def oppMv (p : Nat) : Nat := [650, 700, 750, 800, 850].getD p 0
def oppMhz (p : Nat) : Nat := [600, 800, 1000, 1200, 1400].getD p 0
def oppNj (p : Nat) : Nat := [2146, 3318, 4761, 6500, 8561].getD p 0
/-- OPP_TABLE's 80 bytes (R106). -/
def oppTable : Nat :=
  ((List.range 5).map (fun p => (oppMhz p + oppMv p * 2 ^ 16 + oppCycles p * 2 ^ 32 + oppNj p * 2 ^ 64) * 2 ^ (128 * p))).foldl (· + ·) 0
def prewalkLead (s : State) : Nat := cdiv (max 200 (cv s 0x5800 6)) 1280
/-- ROUND_BUDGET_UJ of a cap: the cap times 12.8 µs, rounded down (R86). -/
def roundBudget (cap : Nat) : Nat := cap * 128 / 10
def purseDepth (s : State) (st : Nat) : Nat :=
  let d := cv s 0x2010 2 st
  if d = 0 then 256 * cv s 0x2010 1 st else d
def balanceOf (s : State) (st : Nat) : Int := AMap.get 0 s.gate.balance st

/-! ### Shares (R120-R122) -/

/-- The mask of SHARE_MAP chunk `k` in effect; under a PENDING commit what both maps give (R448). -/
def shareMask (s : State) (st k : Nat) : Nat :=
  let m := (cv s 0x3010 1 st / 2 ^ (128 * k)) % 2 ^ 128
  if pendingGroup s 3 then m &&& ((cvShadow s 0x3010 1 st / 2 ^ (128 * k)) % 2 ^ 128) else m

/-- The chunk of a calendar other than pitch and purses (R121). -/
def calChunk (cal : Nat) : Nat := if cal < 72 then cal else cal + 112

/-- The slots a stall's mask gives, ascending. -/
def maskSlots (m : Nat) : List Nat := (List.range 1024).filter (fun k => bit m (k / 8))

/-- SRAM_MAP fields of cluster `k` (R122). -/
def sramRec (s : State) (st k : Nat) : Nat := (cv s 0x3012 1 st / 2 ^ (640 * k)) % 2 ^ 640
def storeBanks (s : State) (st k : Nat) : Nat := bits (sramRec s st k) 127 0
def lineWays (s : State) (st k : Nat) : Nat := bits (sramRec s st k) 143 128
def spadBanks (s : State) (st k c : Nat) : Nat := bits (sramRec s st k) (160 + 32 * c + 31) (160 + 32 * c)
def tcmPages (s : State) (st k c : Nat) : Nat := bits (sramRec s st k) (416 + 16 * c + 15) (416 + 16 * c)
def ownsTally (s : State) (st t : Nat) : Bool := cv s 0x3013 1 st ≤ t && t < cv s 0x3013 1 st + cv s 0x3013 2 st
def ownsChan (s : State) (st ch : Nat) : Bool := bit (cv s 0x3014 1 st) ch

/-- The pacts in force: IN_FORCE, or ENDING and not yet past the boundary at which they leave force (R131, R132). -/
def pactsInForce (s : State) : List Nat :=
  ((storedInsts s 0x3040 8).filter (fun e => e.2 == 2 || (e.2 == 3 && (AMap.get [] s.err.pactEnd e.1).isEmpty))).map (·.1)

/-- A pact in force of a kind with taker `b` on `object` (R130): its giver. -/
def pactGiver (s : State) (kind b object : Nat) : Option Nat :=
  match (pactsInForce s).find? (fun p => cv s 0x3040 1 p == kind && cv s 0x3040 3 p == b && cv s 0x3040 4 p == object) with
  | some p => some (cv s 0x3040 2 p)
  | none => none

/-- A stall reaches a tally: its own, or one a TALLY_SHARE pact covers (R217, R541). -/
def reachesTally (s : State) (st t : Nat) : Bool :=
  ownsTally s st t || (match pactGiver s 4 st t with | some a => ownsTally s a t | none => false)

/-! ### Addresses and extents (R16-R27) -/

def nodeOf (a : Nat) : Nat := a / 2 ^ 50 % 2 ^ 14
def offOf (a : Nat) : Nat := a % 2 ^ 50
def gaddr (s : State) (off : Nat) : Nat := nodeNumber s * 2 ^ 50 + off
def extOf (off : Nat) : Nat := off / 2 ^ 30
abbrev extLimit : Nat := 1047552
abbrev windowBase : Nat := 0x0003FF0000000000
def isWindow (off : Nat) : Bool := windowBase ≤ off
def extRec (s : State) (e : Nat) : ExtRec := AMap.get {} s.ext.recs e
def setExt (e : Nat) (r : ExtRec) (s : State) : State := { s with ext := { s.ext with recs := AMap.set {} s.ext.recs e r } }

/-- H and F of R23. -/
def hashH (salt off : Nat) : Nat :=
  bits off 23 16 ^^^ bits off 31 24 ^^^ bits off 39 32 ^^^ bits off 47 40 ^^^ bits off 49 48 ^^^ bits salt 7 0
def hashF (salt off : Nat) : Nat :=
  bits off 27 22 ^^^ bits off 33 28 ^^^ bits off 39 34 ^^^ bits off 45 40 ^^^ bits off 49 46 ^^^ bits salt 13 8
def hbmChannel (s : State) (off : Nat) : Nat := (bits off 15 8 + hashH (cv s 0x4001 1) off) % 256
def hbmStack (s : State) (off : Nat) : Nat := hbmChannel s off / 32
def flashChannel (s : State) (off : Nat) : Nat := (bits off 21 16 + hashF (cv s 0x4001 1) off) % 64
def pathOf (off : Nat) : Nat := bits off 12 12

/-- The extents a range of offsets touches. -/
def extsOf (off len : Nat) : List Nat :=
  (List.range ((off + len - 1) / 2 ^ 30 + 1 - off / 2 ^ 30)).map (fun i => off / 2 ^ 30 + i)

/-- A range lies on this device, inside the store. -/
def localRange (s : State) (a len : Nat) : Bool :=
  nodeOf a == nodeNumber s && decide (0 < len) && decide (offOf a + len ≤ windowBase)

/-- Every extent of a range is the stall's (granted, any state). -/
def ownsRange (s : State) (st a len : Nat) : Bool :=
  localRange s a len && (extsOf (offOf a) len).all (fun e => (extRec s e).state != 0 && (extRec s e).stall == st)
/-- Every extent of a range is a pinned extent of the stall. -/
def pinnedRange (s : State) (st a len : Nat) : Bool :=
  ownsRange s st a len && (extsOf (offOf a) len).all (fun e => !(extRec s e).backed)
def openRange (s : State) (a len : Nat) : Bool := (extsOf (offOf a) len).all (fun e => (extRec s e).state == 1)
def closingRange (s : State) (a len : Nat) : Bool := (extsOf (offOf a) len).any (fun e => 2 ≤ (extRec s e).state)
/-- Pinned, the stall's and OPEN. -/
def usableRange (s : State) (st a len : Nat) : Bool := pinnedRange s st a len && openRange s a len

/-! ### Bytes -/

/-- Bytes of a sparse memory. -/
def readCells (m : List Host.Cell) (a : Nat) : Nat → List Byte
  | 0 => []
  | n + 1 => AMap.get 0 m a :: readCells m (a + 1) n
/-- Write bytes into a sparse memory. -/
def writeCells (m : List Host.Cell) (a : Nat) : List Byte → List Host.Cell
  | [] => m
  | b :: r => writeCells (AMap.set 0 m a b) (a + 1) r
/-- Zero a range of a sparse memory. -/
def zeroCells (m : List Host.Cell) (a len : Nat) : List Host.Cell := m.filter (fun c => !(decide (a ≤ c.1) && decide (c.1 < a + len)))

/-- The canonical form of a memory: addresses strictly rising and no listed byte equal to 0. -/
def Memory.wf (m : List Host.Cell) : Bool := AMap.wf 0 m

def setHbm (m : List Host.Cell) (s : State) : State := { s with mem := { s.mem with hbm := m } }
def setBank (m : List Host.Cell) (s : State) : State := { s with mem := { s.mem with bank := m } }

def cframe (s : State) (f : Nat) : Option CFrame := AMap.get none s.store.frames f
def setFrame (f : Nat) (c : Option CFrame) (s : State) : State :=
  { s with store := { s.store with frames := AMap.set none s.store.frames f c } }
def mapOf (s : State) (f : Nat) : Nat := AMap.get 0 s.store.mapping f

/-- The byte at a store offset: the HBM copy of a pinned extent; of a backed extent the cached copy where its
sub-block is valid, the committed flash copy where the frame is mapped, zero otherwise (R137, R138, R141). -/
def storeByte (s : State) (off : Nat) : Byte :=
  let r := extRec s (extOf off)
  if !r.backed then AMap.get 0 s.mem.hbm off
  else
    let f := off / 65536
    let cached := match cframe s f with | some c => c.state != 3 && c.valid.getLsbD (off / 4096 % 16) | none => false
    if cached then AMap.get 0 s.mem.hbm off
    else if bit (mapOf s f) 31 then
      AMap.get 0 s.mem.flash ((flashChannel s off * 2 ^ 26 + mapOf s f % 2 ^ 26) * 65536 + off % 65536)
    else 0

/-- Bytes of the store from an offset. -/
def storeRead (s : State) (off : Nat) : Nat → List Byte
  | 0 => []
  | n + 1 => storeByte s off :: storeRead s (off + 1) n

def storeNat (s : State) (off n : Nat) : Nat := leNat (storeRead s off n)

/-- A range reads with an error: it touches a poisoned line, a LOST frame, or a backed frame whose mapping entry is
unusable (R161, R162, R181). -/
def rangeBad (s : State) (off len : Nat) : Bool :=
  s.store.mapBad.any (fun g => decide (off < 2 ^ 26 * (g + 1)) && decide (2 ^ 26 * g < off + len) && (extRec s (g / 16)).backed)
  || s.mem.poison.any (fun l => decide (off < 64 * l + 64) && decide (64 * l < off + len))
  || s.mem.lost.any (fun f => decide (off < 65536 * (f + 1)) && decide (65536 * f < off + len))

/-- The sub-blocks of frame `f` that `[off, off + len)` touches, and those it covers whole. -/
def subTouched (f off len : Nat) : BitVec 16 :=
  BitVec.ofNat 16 (((List.range 16).filter (fun j => decide (f * 65536 + j * 4096 < off + len)
    && decide (off < f * 65536 + (j + 1) * 4096))).foldl (fun a j => a + 2 ^ j) 0)

/-- Fill the sub-blocks of a frame that are not valid in the pages given, from flash (R141). A LOST frame has nothing to fill
them from (R162). -/
def fillFrame (f : Nat) (pages : List Nat) (s : State) : State :=
  match cframe s f with
  | none => s
  | some c =>
    if s.mem.lost.contains f then s else
    let subs := (pages.flatMap (fun p => [4*p, 4*p+1, 4*p+2, 4*p+3])).filter (fun j => !c.valid.getLsbD j)
    let m := subs.foldl (fun m j => writeCells m (f * 65536 + j * 4096)
      (storeRead s (f * 65536 + j * 4096) 4096)) s.mem.hbm
    setFrame f (some { c with valid := subs.foldl (fun v j => v ||| BitVec.ofNat 16 (2 ^ j)) c.valid }) (setHbm m s)

/-- The sub-blocks of frame `f` that `[off, off + len)` covers whole. -/
def subWhole (f off len : Nat) : BitVec 16 :=
  BitVec.ofNat 16 (((List.range 16).filter (fun j => decide (off ≤ f * 65536 + j * 4096)
    && decide (f * 65536 + (j + 1) * 4096 ≤ off + len))).foldl (fun a j => a + 2 ^ j) 0)
/-- The pages of frame `f` that a write of `[off, off + len)` fills first: a sub-block not valid is written in part (R141). -/
def mergePages (s : State) (f off len : Nat) : List Nat :=
  let valid := match cframe s f with | some c => if c.state = 3 then 0 else c.valid | none => 0
  let part := subTouched f off len &&& ~~~ (subWhole f off len ||| valid)
  (List.range 4).filter (fun p => (List.range 4).any (fun j => part.getLsbD (4 * p + j)))
/-- The VALID bits of a frame after a write: the sub-blocks touched; of a LOST frame those written whole alone (R141, R162). -/
def validAfter (s : State) (f off len : Nat) (c : CFrame) : BitVec 16 :=
  c.valid ||| (if s.mem.lost.contains f then subWhole f off len else subTouched f off len)

/-- Write bytes at a store offset. A backed frame must be cached; the page of a sub-block written in part and not valid is
filled first (R141), and the sub-blocks touched become VALID and DIRTY. Whole lines written clear poison (R181). -/
def storeWrite (off : Nat) (data : List Byte) (s : State) : State :=
  let len := data.length
  let clean := s.mem.poison.filter (fun l => !(decide (off ≤ 64 * l) && decide (64 * l + 64 ≤ off + len)))
  let s1 := { s with mem := { s.mem with hbm := writeCells s.mem.hbm off data, poison := clean } }
  if !(extRec s (extOf off)).backed then s1
  else
    let fs := (List.range ((off + len + 65535) / 65536 - off / 65536)).map (fun i => off / 65536 + i)
    let filled := fs.foldl (fun t f => fillFrame f (mergePages t f off len) t) s
    let w := { filled with mem := { filled.mem with hbm := writeCells filled.mem.hbm off data, poison := clean } }
    fs.foldl (fun t f => match cframe t f with
      | some c => setFrame f (some { c with state := if c.state = 3 then 3 else 2, valid := validAfter t f off len c,
                                            dirty := c.dirty ||| subTouched f off len, last := curRound t }) t
      | none => t) w

/-! ### Tallies (R209-R213, R541) -/

def tallyOf (s : State) (t : Nat) : Tally := AMap.get {} s.tally t
def setTally (t : Nat) (v : Tally) (s : State) : State := { s with tally := AMap.set {} s.tally t v }
def tallyVal (s : State) (t : Nat) : Nat := (tallyOf s t).value.toNat
/-- A tally is reached when VALUE ≥ target (R214). -/
def reached (s : State) (t target : Nat) : Bool := decide (target ≤ tallyVal s t)

/-! ### Requests -/

def reqOf (s : State) (rid : Nat) : Option Req := s.gate.reqs.find? (fun r => r.rid == rid)
def updReq (rid : Nat) (f : Req → Req) (s : State) : State :=
  { s with gate := { s.gate with reqs := s.gate.reqs.map (fun r => if r.rid = rid then f r else r) } }
def cmdOf (s : State) (rid c : Nat) : Option Cmd := match reqOf s rid with | some r => r.cmds[c]? | none => none
def updCmd (rid c : Nat) (f : Cmd → Cmd) (s : State) : State :=
  updReq rid (fun r => { r with cmds := r.cmds.zipIdx.map (fun (x, i) => if i = c then f x else x) }) s

/-! ### The directory, as every write of the device's own units meets it (R183, R171-R175) -/

/-- The way pair of a line in its stall's partition (R171); none where DIR_ENTRIES is 0. -/
def sectorOf (s : State) (st off : Nat) : Option Nat :=
  let n := cv s 0x3015 1 st / 16
  if n = 0 then none
  else
    let stack := (hbmStack s off + 4) % 8
    some ((st * 8 + stack) * 2 ^ 20 + (bits off 25 6 ^^^ bits off 45 26 ^^^ bits off 49 46) % n)

def dirWay (s : State) (sec way : Nat) : Option DirEnt := AMap.get none s.coh.dir (sec * 2 + way)

/-- The way that tracks a line, if any. -/
def lookupWay (s : State) (st off : Nat) : Option Nat :=
  match sectorOf s st off with
  | none => none
  | some sec =>
    if (dirWay s sec 0).any (fun e => e.line == off / 64) then some (sec * 2)
    else if (dirWay s sec 1).any (fun e => e.line == off / 64) then some (sec * 2 + 1) else none

def lookupEnt (s : State) (st off : Nat) : Option DirEnt :=
  match lookupWay s st off with | some w => AMap.get none s.coh.dir w | none => none

/-- The agents an entry names; a vector stands for agents g and g + 64 of the stall's set (R173). -/
def holdersOf (s : State) (e : DirEnt) : List Nat :=
  if e.coarse then (agentsOf s e.stall).filter (fun a => e.vector.getLsbD (a % 64)) else e.agents

def setWay (w : Nat) (e : Option DirEnt) (s : State) : State :=
  let old := AMap.get none s.coh.dir w
  let upd := fun (m : AMap Nat) (x : Option DirEnt) (up : Bool) => match x with
    | some e => let f := e.line / 1024
                AMap.set 0 m f (if up then AMap.get 0 m f + 1 else AMap.get 0 m f - 1)
    | none => m
  { s with coh := { s.coh with dir := AMap.set none s.coh.dir w e },
           store := { s.store with tracked := upd (upd s.store.tracked old false) e true } }

/-- Send a BISnp and count it (R181, R195). `pois`: its bound poisons the line. -/
def sendSnp (a line kind req st : Nat) (close : Option Nat) (pois : Bool) (s : State) : State :=
  let s1 := cvAdd 0x5002 3 st 1 (send (.biSnp a line kind) s)
  let x : BiSnp := { agent := a, line := line, kind := kind, tick := now s, req := req, close := close, poison := pois, block := homeOrdered s st }
  { s1 with coh := { s1.coh with snps := s1.coh.snps ++ [x] } }

/-- Run work of a request, or of one of its segment's porters: the writes that wait and the back-invalidations it causes are
its own (R184, R203). -/
def owned (rid porter : Nat) (f : State → State) (s : State) : State :=
  let n := s.coh.snps.length
  let m := s.coh.waits.length
  let t := f s
  { t with coh := { t.coh with
    snps := t.coh.snps.take n ++ (t.coh.snps.drop n).map (fun x => { x with owner := rid, porter := porter })
    waits := t.coh.waits.take m ++ (t.coh.waits.drop m).map (fun x => { x with rid := rid, porter := porter }) } }
/-- A write of a request waits, or a back-invalidation its writes caused is open. -/
def ownSnps (s : State) (rid : Nat) : Bool := s.coh.snps.any (fun x => x.owner == rid) || s.coh.waits.any (fun w => w.rid == rid)


/-- Drop the line-cache copies that own a line, writing their data back (R187). -/
def recallLine (line : Nat) (s : State) : State :=
  let owned := s.fab.lc.filter (fun l => l.line == line && l.owned)
  let s1 := { s with fab := { s.fab with lc := s.fab.lc.filter (fun l => !(l.line == line && l.owned)) } }
  owned.foldl (fun t l => storeWrite (64 * line) (leBytes 64 l.data.toNat) t) s1

/-- A live part's porter. -/
def amoLive (s : State) (x : Porter) : Bool := x.run == 1 && (match cmdOf s x.rid x.cmd with | some c => c.status.isNone | none => false)
/-- An atomic of a porter other than `p` has begun on a line (R179). -/
def amoHolds (s : State) (line : Nat) (p : Option Nat) : Bool :=
  s.fab.porters.any (fun x => some x.1 != p && x.2.amo != 0 && x.2.amoAt.any (fun a => a.1 == line) && amoLive s x.2)
/-- A line is blocked (R179): a back-invalidation of a home-ordered transaction is open on it, an agent's transaction has it or
evicts it, or an atomic of a porter other than `p` has it. -/
def heldFor (s : State) (line : Nat) (p : Option Nat) : Bool :=
  s.coh.snps.any (fun x => x.line == line && x.block)
  || s.coh.reqs.any (fun r => !r.probe && ((r.phase == 2 || r.phase == 3) && offOf r.addr / 64 == line || r.phase == 2 && r.victim == some line))
  || amoHolds s line p
def lineHeld (s : State) (line : Nat) : Bool := heldFor s line none

/-- Invalidate a line for a write by the device's own units (R183): BISnpInv to its holders in home-ordered mode, to
every agent of the set in owner-ordered mode where the frame's tracked count is not zero; the line is left INVALID. A copy a
cluster owns is recalled (R187). `whole`: the write covers the line. -/
def unitInvalidate (off : Nat) (close : Option Nat) (whole : Bool) (s : State) : State :=
  let st := (extRec s (extOf off)).stall
  let line := off / 64
  if homeOrdered s st then
    match lookupWay s st off, lookupEnt s st off with
    | some w, some e =>
      let s1 := setWay w none s
      let s2 := (holdersOf s e).foldl (fun t a => sendSnp a line 2 0 st close (e.owned && !whole) t) s1
      if e.cluster.isSome then recallLine line s2 else s2
    | _, _ => s
  else
    let s1 := recallLine line s
    if AMap.get 0 s1.store.tracked (off / 65536) = 0 then s1
    else (agentsOf s1 st).foldl (fun t a => sendSnp a line 2 0 st close false t) s1

/-! ### Writes of the device's own units (R179, R183, R205) -/

/-- The masked bytes of a line are written in HBM; poison stays unless the line is written whole (R181). -/
def lineWrite (w : UnitWr) (s : State) : State :=
  let off := 64 * w.line
  let t := storeWrite off ((List.range 64).map (fun i => if w.mask.getLsbD i then BitVec.ofNat 8 (w.data.toNat / 2 ^ (8 * i)) else storeByte s (off + i))) s
  if w.mask = BitVec.allOnes 64 then t else { t with mem := { t.mem with poison := s.mem.poison } }
def addWait (w : UnitWr) (s : State) : State := { s with coh := { s.coh with waits := s.coh.waits ++ [w] } }
/-- A write whose line is not blocked begins: it is made at once where nothing holds the line, else it waits for the answers. -/
def beginWrite (w : UnitWr) (s : State) : State :=
  let t := unitInvalidate (64 * w.line) none (w.mask == BitVec.allOnes 64) s
  if t.coh.snps.length = s.coh.snps.length then lineWrite w t else addWait { w with sent := true } t
/-- A unit's write reaches the home. -/
def homeWrite (w : UnitWr) (s : State) : State :=
  if lineHeld s w.line || s.coh.waits.any (fun x => x.line == w.line) then addWait w s else beginWrite w s
/-- Nothing keeps a write of a line waiting. -/
def lineQuiet (s : State) (l : Nat) : Bool :=
  let st := (extRec s (extOf (64 * l))).stall
  (if homeOrdered s st then (lookupEnt s st (64 * l)).isNone else AMap.get 0 s.store.tracked (64 * l / 65536) == 0)
  && !lineHeld s l && s.coh.waits.all (fun x => x.line != l) && s.fab.lc.all (fun x => x.line != l || !x.owned)

/-- Count a heat unit or agent access at an offset while HEAT_ENABLE is set (R249); counters saturate at 16 bits. -/
def heat (agents : Bool) (off n : Nat) (s : State) : State :=
  let st := (extRec s (extOf off)).stall
  if cv s 0x5840 3 st = 1 then
    let k := off / 2 ^ 21
    if agents then { s with xl := { s.xl with heatAgents := AMap.set 0 s.xl.heatAgents k (min 65535 (AMap.get 0 s.xl.heatAgents k + n)) } }
    else { s with xl := { s.xl with heatUnits := AMap.set 0 s.xl.heatUnits k (min 65535 (AMap.get 0 s.xl.heatUnits k + n)) } }
  else s

/-- Count a range's burst parts, region by region (R249): the aligned 256-byte bursts it touches in each 2 MiB. -/
def heatSpan (off n : Nat) (s : State) : State :=
  if n = 0 ∨ cv s 0x5840 3 (extRec s (extOf off)).stall ≠ 1 then s else
  (List.range ((off + n - 1) / 2 ^ 21 + 1 - off / 2 ^ 21)).foldl (fun t i =>
    let k := off / 2 ^ 21 + i
    let lo := max off (k * 2 ^ 21)
    let hi := min (off + n) ((k + 1) * 2 ^ 21)
    heat false lo ((hi + 255) / 256 - lo / 256) t) s

/-- Lines of a range that the directory tracks or, in owner-ordered mode, may be held. -/
def linesOf (off len : Nat) : List Nat := (List.range ((off + len + 63) / 64 - off / 64)).map (fun i => off / 64 + i)

/-- The part of a write that lies in one line. -/
def linePart (off : Nat) (data : List Byte) (l : Nat) (s : State) : UnitWr :=
  let lo := max off (64 * l) - 64 * l
  let n := min (off + data.length) (64 * l + 64) - max off (64 * l)
  { line := l, mask := BitVec.ofNat 64 ((2 ^ n - 1) * 2 ^ lo), tick := now s,
    data := BitVec.ofNat 512 (leNat (slice data (64 * l + lo - off) n) * 2 ^ (8 * lo)) }
/-- A write by the device itself (R183): line by line, each once its line is free and its holders have answered. -/
def deviceWrite (off : Nat) (data : List Byte) (s : State) : State :=
  let ls := linesOf off data.length
  if ls.all (lineQuiet s) then storeWrite off data s else ls.foldl (fun t l => homeWrite (linePart off data l t) t) s

/-- A write by one of the device's units to the store (R183, R205): the bytes, the back-invalidations, the heat. -/
def unitWrite (off : Nat) (data : List Byte) (s : State) : State :=
  if data.isEmpty then s else heatSpan off data.length (deviceWrite off data s)
/-- The same by the search unit, which reads back what it writes: its bytes are in the list at once, and again once the
lines' holders have answered (log entry 110). -/
def listWrite (off : Nat) (data : List Byte) (s : State) : State :=
  if data.isEmpty then s else
  if (linesOf off data.length).all (lineQuiet s) then unitWrite off data s else unitWrite off data (storeWrite off data s)

/-- Writes of a stall's error and translation rings are charged to its float under this number (R243; log entry 108). -/
def ringRid : Nat := 2 ^ 39 + 1
/-- Activity of one ring record: one line. -/
def ringLine (st : Nat) (s : State) : State :=
  { s with gate := { s.gate with acts := s.gate.acts ++ [{ rid := ringRid, stall := st, round := curRound s, kind := 0, qty := 1 }] } }

/-! ### Error records (R428, R429, R494-R497, R506) -/

/-- A ring of a stall (R243, R428) can take a record: size, alignment, an OPEN pinned extent of the stall, both
tallies in range, and room. -/
def ringTakes (s : State) (st base entries wt ct : Nat) : Bool :=
  decide (0 < entries) && decide (base % (32 * entries) = 0) && usableRange s st base (32 * entries)
  && ownsTally s st wt && ownsTally s st ct && decide ((tallyVal s wt + 2 ^ 64 - tallyVal s ct) % 2 ^ 64 ≠ entries)

/-- A count of 64 bits: past its end it stays there (R213). -/
def saturate (v : Nat) : Word64 := if v < 2 ^ 64 then BitVec.ofNat 64 v else BitVec.allOnes 64
/-- What the advances of the present tick have added to a tally (R212). -/
def tickSum (s : State) (t : Nat) : Nat := if (tallyOf s t).sumTick = now s then (tallyOf s t).sum else 0
/-- An advance that raises no further record: saturate and set OVERFLOW (R213). -/
def tallyBump (t n : Nat) (s : State) : State :=
  let o := tallyOf s t
  let v := o.value.toNat + n
  setTally t { value := saturate v, overflow := o.overflow || decide (2 ^ 64 ≤ v), lastTick := BitVec.ofNat 64 (now s),
               sumTick := now s, sum := tickSum s t + n } s
/-- An advance would carry a tally past its end. -/
def tallyEnds (s : State) (t n : Nat) : Bool := decide (2 ^ 64 ≤ (tallyOf s t).value.toNat + n)

/-- Append a record to a stall's ring and STALL_LOG, taking the next SEQUENCE (R243, R428, R506): whether the ring took it. The
written tally is the caller's to advance. -/
def ringStore (st : Nat) (rec : Nat → Nat) (s : State) : Bool × State :=
  let q := AMap.get 0 s.err.seq st
  let r := rec q
  let log := AMap.get [] s.err.stallLog st ++ [r]
  let s1 := { s with err := { s.err with seq := AMap.set 0 s.err.seq st (q + 1),
                                         stallLog := AMap.set [] s.err.stallLog st (log.drop (log.length - 256)) } }
  let base := cv s 0x9200 1 st
  let n := cv s 0x9200 2 st
  if ringTakes s1 st base n (cv s 0x9200 3 st) (cv s 0x9200 4 st) then
    let w := AMap.get 0 s1.err.written st
    (true, ringLine st (deviceWrite (offOf base + 32 * (w % n)) (leBytes 32 r)
      { s1 with err := { s1.err with written := AMap.set 0 s1.err.written st (w + 1) } }))
  else (false, cvAdd 0x9200 5 st 1 s1)
/-- Keep a record in the catalogue log (R506). -/
def logStore (rec : Nat → Nat) (s : State) : State :=
  let log := s.err.log ++ [rec s.err.logWritten]
  { s with err := { s.err with log := log.drop (log.length - 4096), logWritten := s.err.logWritten + 1 } }
/-- Count a real detection (R497). -/
def detect (d : Nat) (s : State) : State := { s with err := { s.err with detections := AMap.set 0 s.err.detections d (AMap.get 0 s.err.detections d + 1) } }
/-- A record in a stall's ring advances the ring's written tally; where that saturates, the overflow is counted and recorded
(R213). -/
def ringAppend (st : Nat) (rec : Nat → Nat) (s : State) : State :=
  let r := ringStore st rec s
  if !r.1 then r.2 else
  let t := cv s 0x9200 3 st
  let full := fun seq => errorBits (now s) t 0 0xFFFF st 0 false false 0x0E seq
  let s1 := tallyBump t 1 r.2
  if tallyEnds r.2 t 1 then (ringStore st full (logStore full (detect 0x0E (cvAdd 0x5100 3 st 1 s1)))).2 else s1

/-- Write an error record. Not device-wide: to the ring of its stall. Device-wide: to stall 0's and every ACTIVE or
RETIRING stall's; of a detection, whole for stall 0 and the stall concerned and masked for the others (R429, R496). The catalogue
log keeps it whole (R506). -/
def errRec (kind obj detail ctx stall status : Nat) (wide injected : Bool) (s : State) : State :=
  let mk := fun seq => errorBits (now s) obj detail ctx stall status wide injected kind seq
  let masked := fun seq => errorBits (now s) 0 0 0 0 0 wide injected kind seq
  let s1 := logStore mk s
  if wide then
    ((List.range 256).filter (fun st => st == 0 || stallLive s st)).foldl
      (fun t st => ringAppend st (if st = 0 ∨ st = stall ∨ 0x80 ≤ kind then mk else masked) t) s1
  else ringAppend stall mk s1

/-! ### Physical frames (R137, R161) -/

/-- The first of the numbers the mapping table and the device reserve take: the highest of the 12,582,912 (log entry 10). -/
def reservedFrom (s : State) : Nat := 12582912 - cdiv (cv s 0x4050 3 + cv s 0x4050 4) 65536
/-- A set of numbers as disjoint intervals [a, b), ascending and not adjacent: one number more, and the first number from `p` on
that is not in it. -/
def addNumber (p : Nat) : List (Nat × Nat) → List (Nat × Nat)
  | [] => [(p, p + 1)]
  | (a, b) :: r =>
    if p + 1 < a then (p, p + 1) :: (a, b) :: r
    else if p + 1 = a then (p, b) :: r
    else if p < b then (a, b) :: r
    else if p = b then (match r with
      | (c, d) :: q => if c = p + 1 then (a, d) :: q else (a, p + 1) :: r
      | [] => [(a, p + 1)])
    else (a, b) :: addNumber p r
def firstOutside (p : Nat) : List (Nat × Nat) → Nat
  | [] => p
  | (a, b) :: r => if p < a then p else firstOutside (max p b) r
/-- The physical frames that are assigned to a pinned extent or to a cache frame, or retired. -/
def takenFrames (s : State) : List (Nat × Nat) :=
  (s.store.retired ++ s.store.frames.filterMap (fun e => e.2.map (·.phys))
    ++ (s.ext.recs.filter (fun e => e.2.state != 0)).flatMap (·.2.frames)).foldl (fun l p => addNumber p l) []
/-- A physical frame neither taken nor reserved: the first from the preferred one on, in cyclic order. -/
def pickFrame (limit pref : Nat) (taken : List (Nat × Nat)) : Nat :=
  let p := firstOutside (pref % max 1 limit) taken
  if p < limit then p else firstOutside 0 taken
/-- `n` distinct physical frames from the preferences of a grant. -/
def pickFrames (limit grant : Nat) : (n i : Nat) → List (Nat × Nat) → List Nat
  | 0, _, _ => []
  | n + 1, i, taken => let p := pickFrame limit (Config.physFrame grant i) taken
                       p :: pickFrames limit grant n (i + 1) (addNumber p taken)

/-- The physical frame under a store offset. -/
def physOf (s : State) (off : Nat) : Nat :=
  let r := extRec s (extOf off)
  if r.backed then (match cframe s (off / 65536) with | some c => c.phys | none => 0)
  else r.frames.getD (off / 65536 % 16384) 0
/-- Retire a physical frame, of which cause (R161, R495). -/
def retirePhys (p d : Nat) (injected : Bool) (s : State) : State :=
  if s.store.retired.contains p then s else
  errRec 0x8B p d 0xFFFF 0 0 true injected (cvAdd 0x4050 1 0 1 { s with store := { s.store with retired := s.store.retired ++ [p] } })
/-- A physical frame is unassigned: it is retired now if its corrected errors have reached RETIRE_CE_THRESHOLD (R161). -/
def releasePhys (p : Nat) (s : State) : State := if cv s 0x4050 9 ≤ AMap.get 0 s.store.ceCount p then retirePhys p 1 false s else s
/-- A stall's usable cache frames fall by one (R161). -/
def loseCache (st : Nat) (s : State) : State := { s with store := { s.store with gone := AMap.upd 0 s.store.gone st (· + 1) } }
/-- A cache frame becomes EMPTY (R140); where its physical frame is then retired the stall loses it. -/
def emptyFrame (f : Nat) (s : State) : State :=
  match cframe s f with
  | none => s
  | some c =>
    let t := releasePhys c.phys (setFrame f none s)
    if t.store.retired.contains c.phys && !s.store.retired.contains c.phys then loseCache c.stall t else t
/-- The cache frames that meet a test become EMPTY. -/
def emptyFrames (p : Nat → CFrame → Bool) (s : State) : State :=
  (s.store.frames.filterMap (fun e => match e.2 with | some c => if p e.1 c then some e.1 else none | none => none)).foldl (fun t f => emptyFrame f t) s
/-- A backed frame enters a stall's cache, CLEAN, in a physical frame of its own (R140). -/
def cacheFrame (st f : Nat) (s : State) : State :=
  let t := emptyFrame f s
  setFrame f (some { stall := st, state := 1, last := curRound t,
                     phys := pickFrame (reservedFrom t) (Config.physFrame (2 ^ 32 + st) f) (takenFrames t) }) t

/-- A real detection with its record (R494, R496): device-wide unless stall-caused. -/
def detectRec (d obj detail ctx stall status : Nat) (stallCaused : Bool) (s : State) : State :=
  errRec d obj detail ctx stall status (!stallCaused) false (detect d s)

/-- The bits of the injection arm of a point (R499). -/
def armOf (s : State) (d inst : Nat) : Nat := cv s (0xB100 + d) 1 inst
def armMode (a : Nat) : Nat := bits a 3 0

/-- Whether an arm matches an opportunity whose OBJECT is `obj` (R500). -/
def armMatches (a obj : Nat) : Bool :=
  (armMode a == 1 || armMode a == 2) && (bits a 191 128 &&& obj % 2 ^ 64) == (bits a 191 128 &&& bits a 255 192)

/-- One matching opportunity at a point: the count, whether it fires, and the arm after (R500). -/
def armStep (d inst : Nat) (s : State) : Bool × State :=
  let a := armOf s d inst
  let k := d * 256 + inst
  let c := AMap.get 0 s.err.armCount k + 1
  let s1 := { s with err := { s.err with armCount := AMap.set 0 s.err.armCount k c } }
  let every := bits a 127 96
  if every = 0 ∨ c % every ≠ 0 then (false, s1)
  else
    let s2 := cvAdd (0xB100 + d) 2 inst 1 s1
    let s3 := if inst = 0 then s2 else cvAdd 0xB001 2 inst 1 s2
    let limit := bits a 95 64
    let done := armMode a == 1 || (decide (limit ≠ 0) && decide (limit ≤ c / every))
    (true, if done then cvSet (0xB100 + d) 1 inst (a - armMode a) s3 else s3)

/-- What injection makes of an opportunity (R498-R504): `none` no firing, else (device scope, EFFECT is CONTAIN).
`real` says a real fault falls on it; it then counts toward no arm. -/
def inject (d obj stall : Nat) (real : Bool) (s : State) : Option (Bool × Bool) × State :=
  if real then (none, s) else
  let a0 := armOf s d 0
  let a1 := if stall = 0 then 0 else armOf s d stall
  let r0 := if armMatches a0 obj then armStep d 0 s else (false, s)
  let r1 := if armMatches a1 obj then armStep d stall r0.2 else (false, r0.2)
  if r0.1 then (some (true, bits a0 15 8 == 1), if r1.1 then r0.2 else r1.2)
  else if r1.1 then (some (false, bits a1 15 8 == 1), r1.2) else (none, r1.2)

/-- Advance a tally on behalf of a stall (R541, R213): discarded where the stall does not reach it. -/
def advance (st t n : Nat) (s : State) : State :=
  if t = 0xFFFF then s else
  if reachesTally s st t then
    let excess := decide (2 ^ 64 ≤ tallyVal s t + n)
    let inj := inject 0x0E t st excess s
    let s1 := tallyBump t n inj.2
    match excess, inj.1 with
    | true, _ => cvAdd 0x5100 3 st 1 (detectRec 0x0E t 0 0xFFFF st 0 true s1)
    | false, some (dev, contain) =>
      let s2 := if contain then setTally t { tallyOf s1 t with value := BitVec.allOnes 64, overflow := true } s1 else s1
      let s3 := if contain && dev then cvAdd 0x5100 3 st 1 (detect 0x0E s2) else s2
      errRec 0x0E t 0 0xFFFF st 0 dev true s3
    | false, none => s1
  else s

/-- A software write to VALUE (R209): it clears OVERFLOW, and takes effect before the advances of its tick (R212). -/
def tallySet (t : Nat) (v : Word64) (s : State) : State :=
  setTally t { tallyOf s t with value := saturate (v.toNat + tickSum s t), overflow := decide (2 ^ 64 ≤ v.toNat + tickSum s t) } s

/-! ### Activity -/

/-- Count activity of a request in the present round (R99), paid by chit or from the float. -/
def actAs (chit : Bool) (rid st kind qty : Nat) (s : State) : State :=
  if qty = 0 then s else
  { s with gate := { s.gate with acts := s.gate.acts ++ [{ rid := rid, stall := st, round := curRound s, kind := kind, qty := qty, chit := chit }] } }
/-- Kinds of activity a request's chit covers whatever the command (R95): flash pages and blocks, search queries, engine-cycles.
Lines and flits are the chit's only where they are those of a transfer of more than LARGE_COPY_BYTES, or of a sweep. -/
def actChit (rid kind : Nat) : Bool := rid != 0 && (kind == 1 || kind == 2 || kind == 3 || kind == 5 || kind == 9)
def act (rid st kind qty : Nat) (s : State) : State := actAs (actChit rid kind) rid st kind qty s

/-- TRACK_IN_USE (R57): one entry for each command of each request whose record is not written. -/
def trackInUse (s : State) (st : Nat) : Nat := sumOf ((s.gate.reqs.filter (fun r => r.stall == st)).map (fun r => r.cmds.length))

/-- The tallies an accepted request names (R123). -/
def workTallies : Work → List Nat
  | .gather d => [d.tally]
  | .search d => [d.tally]
  | .side _ _ t _ _ _ _ => [t]
  | .segment d => [d.tally]
  | .xfer x => [x.tally]
  | .publish _ t _ _ => [t]
  | .tableSwitch _ _ t _ _ _ => [t]
  | .setSwitch _ _ t _ _ => [t]
  | .tallyAdd t _ => [t]
  | .extentClose _ t => [t]
  | _ => []

/-- Lower the drain tally of an extent that counts an event (R32). -/
def drainDown (e n : Nat) (s : State) : State :=
  let r := extRec s e
  if r.state = 2 then setExt e { r with drain := r.drain - n } s else s

/-- Slots of a command's data on a calendar from absolute slot `from_` on that have not ended; a count stands for its slots (R49,
R52). On a stack only a transfer's own slots are its data's. -/
def slotsLeft (s : State) (rid cmd cal from_ : Nat) : Nat :=
  sumOf ((s.gate.books.filter (fun b => b.rid == rid && b.cmd == cmd && b.cal == cal && b.dir == 0 && decide (from_ / 1024 ≤ b.round) && (b.xfer || decide (8 ≤ cal)))).map (fun b =>
    if b.slots.isEmpty then b.count
    else (b.slots.filter (fun k => decide (from_ ≤ b.round * 1024 + k) && decide (now s < slotEndTick (b.round * 1024 + k)))).length))

/-- Change the pin count of a slot by `f` (R46, R334, R353). -/
def pinBy (f : Nat → Nat) (p : Pin) (s : State) : State :=
  match p.kind with
  | 0 =>
    let r := AMap.get {} s.ext.regions p.id
    let x := r.slots.getD p.slot (0,0,0)
    let r' := { r with slots := setAt r.slots p.slot (x.1, x.2.1, f x.2.2) }
    { s with ext := { s.ext with regions := AMap.set {} s.ext.regions p.id r' } }
  | 1 =>
    let t := AMap.get {} s.emb.tables p.id
    let x := t.slots.getD p.slot (0,0,0,0)
    let t' := { t with slots := setAt t.slots p.slot (x.1, x.2.1, x.2.2.1, f x.2.2.2) }
    { s with emb := { s.emb with tables := AMap.set {} s.emb.tables p.id t' } }
  | _ =>
    let c := AMap.get {} s.colls p.id
    let x := c.slots.getD p.slot (0,0,0)
    let c' := { c with slots := setAt c.slots p.slot (x.1, f x.2.1, x.2.2) }
    { s with colls := AMap.set {} s.colls p.id c' }

/-- Take and release a pin. -/
def pin (p : Pin) (s : State) : State := pinBy (· + 1) p s
def unpin (p : Pin) (s : State) : State := pinBy (· - 1) p s

end Sys2Proof.Machine
end

