-- ==== Sys2Proof/Machine/Calendar.lean ====
section
/-! DEFINITION. Calendars, shares and placement: what is free, and how the Gate places a part (R48-R63, R89, R386). -/

namespace Sys2Proof.Machine
open Sys2Proof

/-! ### Calendar numbers, in the order of R48 -/
abbrev calHbm (k : Nat) : Nat := k
abbrev calFlash (f : Nat) : Nat := 8 + f
abbrev calPitch (k : Nat) : Nat := 72 + k
abbrev calLink (l : Nat) : Nat := 88 + l
abbrev calPort (p : Nat) : Nat := 120 + p
abbrev calEmb : Nat := 129
abbrev calSearch : Nat := 130
abbrev calPurse (st : Nat) : Nat := 131 + st

/-- The port of a context: 0-7 CXL, 8 the host port (R414). -/
def portOf (s : State) (c : Nat) : Nat := let p := ctxPort s c; if p < 128 then p / 16 else 8

/-- The ports on which a stall has an agent (R63). -/
def standingPorts (s : State) (st : Nat) : List Nat := (List.range 8).filter (fun p => (agentsOf s st).any (fun a => a / 16 == p))

/-- Slots of the standing booking (R63) in a calendar, with the given lines and misses per round. -/
def standingNeedOf (s : State) (st cal lines misses : Nat) : Nat :=
  if cal < 8 then cdiv (lines * 64) 25600
  else if cal < 72 then (if lines = 0 then 0 else misses * 410)
  else if 120 ≤ cal ∧ cal < 128 then (if (standingPorts s st).contains (cal - 120) then cdiv (lines * 64) 1600 else 0)
  else 0
/-- The standing booking of every round that can still be booked: with the values from the next boundary on, on the ports of the
agents bound now. -/
def standingNeed (s : State) (st cal : Nat) : Nat := standingNeedOf s st cal (cvNext s 0x1040 3 st) (cvNext s 0x1040 4 st)

/-- Standing float of a stall (R93). -/
def standingFloatOf (s : State) (lines : Nat) : Nat := cdiv (lines * (cv s 0x2020 1 + cv s 0x2020 9)) 1000000
def standingFloat (s : State) (st : Nat) : Nat := standingFloatOf s (cvNext s 0x1040 3 st)

/-- Slots of a calendar that any booking holds in a round. -/
def bookedIn (s : State) (cal dir r : Nat) : List Nat :=
  (s.gate.books.filter (fun b => b.cal == cal && b.dir == dir && b.round == r)).flatMap (·.slots)
/-- Counts of a stall not yet placed in individual slots (R52). -/
def unplaced (s : State) (st cal dir r : Nat) : Nat :=
  sumOf ((s.gate.books.filter (fun b => b.stall == st && b.cal == cal && b.dir == dir && b.round == r && b.slots.isEmpty)).map (·.count))
/-- BULK slots of a stall in a calendar and round. -/
def bulkIn (s : State) (st cal dir r : Nat) : Nat :=
  sumOf ((s.gate.books.filter (fun b => b.bulk && b.stall == st && b.cal == cal && b.dir == dir && b.round == r)).map
    (fun b => if b.slots.isEmpty then b.count else b.slots.length))

/-- A slot lies in a booked pause of the stall (R76). -/
def inPause (s : State) (st abs : Nat) : Bool :=
  s.gate.pauses.any (fun p => p.stall == st && decide (4 * p.start < 5 * (abs + 1)) && decide (5 * abs < 4 * (p.start + p.len)))

/-- A link or port may be booked in round `r` (R401, R522, R523). -/
def calUsable (s : State) (st cal r : Nat) : Bool :=
  if 88 ≤ cal ∧ cal < 120 then
    let l := cal - 88
    cv s 0x8110 1 l == 2 && (match (AMap.get {} s.twine.links l).upRound with | some u => decide (u < r) | none => false)
    && (match AMap.get none s.twine.blocked (l * 256 + st) with | some t => decide (t ≤ now s) | none => true)
  else if 120 ≤ cal ∧ cal < 129 then
    (match AMap.get none s.port.upRound (cal - 120) with | some u => decide (u < r) | none => false)
  else true

/-- Slots lent to a stall under SLOT_LEND (R130): free slots of the giver, up to LIMIT a round. -/
def lentSlots (s : State) (st cal dir r : Nat) (booked : List Nat) : List Nat :=
  ((pactsInForce s).filter (fun p => cv s 0x3040 1 p == 1 && cv s 0x3040 3 p == st && cv s 0x3040 4 p == cal)).flatMap
    (fun p => let a := cv s 0x3040 2 p
              let own := maskSlots (shareMask s a (calChunk cal))
              let used := ((s.gate.books.filter (fun b => b.stall == st && b.cal == cal && b.dir == dir && b.round == r)).flatMap (·.slots)).filter (fun k => own.contains k)
              ((own.filter (fun k => !booked.contains k)).drop (standingNeed s a cal)).take (cv s 0x3040 5 p - used.length))

/-- Free slots of a stall's share in a calendar and round, ascending (R51, R58, R63, R76). -/
def freeSlots (s : State) (st cal dir r : Nat) (bulk : Bool) : List Nat :=
  if !calUsable s st cal r then [] else
  let booked := bookedIn s cal dir r
  let own := ((maskSlots (shareMask s st (calChunk cal))).filter (fun k => !booked.contains k)).drop (standingNeed s st cal)
  (own ++ lentSlots s st cal dir r booked).filter (fun k => bulk || !inPause s st (r * 1024 + k))

/-- BULK slots a stall may still take in a calendar and round (R52). -/
def bulkRoom (s : State) (st cal dir r : Nat) : Nat :=
  (maskSlots (shareMask s st (calChunk cal))).length * cv s 0x1010 4 st / 100 - bulkIn s st cal dir r

/-- Free slots at or after slot `from_`, limited by what counts and BULK_SHARE leave. -/
def takeable (s : State) (st cal dir r from_ : Nat) (bulk : Bool) : List Nat :=
  let f := freeSlots s st cal dir r bulk
  let f' := f.take (f.length - unplaced s st cal dir r)
  let g := f'.filter (fun k => decide (from_ ≤ k))
  if bulk then g.take (bulkRoom s st cal dir r) else g

/-! ### Energy (R89-R93) -/

def chitIn (s : State) (st r : Nat) : Nat := sumOf ((s.gate.energy.filter (fun e => e.chit && e.stall == st && e.round == r)).map (·.uj))
def floatIn (s : State) (st r : Nat) : Nat := sumOf ((s.gate.energy.filter (fun e => !e.chit && e.stall == st && e.round == r)).map (·.uj))
def chitFits (s : State) (st r uj : Nat) : Bool := uj == 0 || decide (chitIn s st r + uj ≤ cvMin s 2 0x2010 1 st)
def floatFits (s : State) (st r uj : Nat) : Bool := uj == 0 || decide (floatIn s st r + standingFloat s st + uj ≤ cvMin s 2 0x2010 3 st)

/-- µJ of a quantity at a coefficient of R96, rounded up. -/
def ujOf (s : State) (kind qty : Nat) : Nat := cdiv (qty * cv s 0x2020 (kind + 1)) 1000000

def addBook (b : Booking) (s : State) : State := { s with gate := { s.gate with books := s.gate.books ++ [b] } }
def addEnergy (rid st r uj : Nat) (chit : Bool) (s : State) : State :=
  if uj = 0 then s else { s with gate := { s.gate with energy := s.gate.energy ++ [{ rid := rid, stall := st, round := r, uj := uj, chit := chit }] } }

/-- Who a placement is for. -/
structure For where
  rid : Nat
  cmd : Nat
  stall : Nat
  bulk : Bool
  prio : Nat := 0
  xfer : Bool := false
  maxR : Nat

/-- The slot after those an earlier part of the same request holds in a calendar and round (R58). -/
def ownAfter (s : State) (w : For) (cal dir r : Nat) : Nat :=
  maxOf ((s.gate.books.filter (fun b => b.rid == w.rid && decide (b.cmd < w.cmd) && b.cal == cal && b.dir == dir && b.round == r)).flatMap
    (fun b => b.slots.map (· + 1)))
/-- Free slots a part of a request may take. -/
def avail (s : State) (w : For) (cal dir r from_ : Nat) : List Nat :=
  takeable s w.stall cal dir r (max from_ (ownAfter s w cal dir r)) w.bulk

/-- Book `n` slots of one calendar in round `r`, at or after slot `from_`: individual slots inside the horizon, a
count beyond it for BULK (R52). -/
def bookN (w : For) (cal dir r from_ n : Nat) (s : State) : State :=
  if n = 0 then s else
  let sl := (avail s w cal dir r from_).take n
  let inHorizon := decide (r ≤ curRound s + 256)
  addBook { rid := w.rid, cmd := w.cmd, stall := w.stall, cal := cal, dir := dir, round := r,
            slots := if inHorizon then sl else [], count := n, bulk := w.bulk, prio := w.prio, xfer := w.xfer } s

/-- What a phase of a placement needs: `total` slots spread over rounds, each slot on every calendar of `cals`; with
`u` slots in a round after `d` placed, the `side` slots of other calendars and the energies of the round. -/
structure Phase where
  total : Nat
  cals : List (Nat × Nat)
  early : Nat                                   -- earliest absolute slot
  side : Nat → Nat → List (Nat × Nat × Nat)     -- d u: (calendar, direction, slots)
  chit : Nat → Nat → Nat                        -- d u: µJ of the round's chit
  flt : Nat → Nat → Nat                         -- d u: µJ of the round's float
  allow : Nat → Bool := fun _ => true           -- rounds the phase may use

/-- The largest `u ≤ n` that passes. -/
def fitDown (ok : Nat → Bool) : Nat → Nat
  | 0 => 0
  | n + 1 => if ok (n + 1) then n + 1 else fitDown ok n

/-- What a round can give a phase after `d` slots are placed. -/
def roundGives (w : For) (p : Phase) (r d : Nat) (s : State) : Nat :=
  if !p.allow r then 0 else
  let from_ := if r = p.early / 1024 then p.early % 1024 else 0
  let most := (p.cals.map (fun c => (avail s w c.1 c.2 r from_).length)).foldl min (p.total - d)
  fitDown (fun u => (p.side d u).all (fun x => decide (x.2.2 ≤ (avail s w x.1 x.2.1 r 0).length))
    && chitFits s w.stall r (p.chit d u) && floatFits s w.stall r (p.flt d u)) most

/-- Book what a round gives; the last absolute slot taken. -/
def bookRound (w : For) (p : Phase) (r d u : Nat) (s : State) : State × Nat :=
  let from_ := if r = p.early / 1024 then p.early % 1024 else 0
  let last := maxOf (p.cals.map (fun c => maxOf ((avail s w c.1 c.2 r from_).take u)))
  let s1 := p.cals.foldl (fun t c => bookN w c.1 c.2 r from_ u t) s
  let s2 := (p.side d u).foldl (fun t x => bookN w x.1 x.2.1 r 0 x.2.2 t) s1
  (addEnergy w.rid w.stall r (p.flt d u) false (addEnergy w.rid w.stall r (p.chit d u) true s2), r * 1024 + last)

/-- Place a phase in the earliest rounds that hold it (R58): the state with its bookings, the first absolute slot and
the last. None where the rounds up to `maxR` do not hold it. -/
def placePhase (w : For) (p : Phase) : (fuel r d first last : Nat) → State → Option (State × Nat × Nat)
  | 0, _, _, _, _, _ => none
  | fuel + 1, r, d, first, last, s =>
    if p.total ≤ d then some (s, first, last) else
    if w.maxR < r then none else
    let u := roundGives w p r d s
    if u = 0 then placePhase w p fuel (r + 1) d first last s
    else
      let b := bookRound w p r d u s
      let from_ := if r = p.early / 1024 then p.early % 1024 else 0
      let f := r * 1024 + (minOf (p.cals.filterMap (fun c => (avail s w c.1 c.2 r from_).head?))).getD 0
      placePhase w p fuel (r + 1) (d + u) (if d = 0 then f else first) b.2 b.1

def runPhase (w : For) (p : Phase) (s : State) : Option (State × Nat × Nat) :=
  placePhase w p (w.maxR + 2 - p.early / 1024) (p.early / 1024) 0 p.early p.early s

/-- Place the record in the outbound half of the context's port, or a peer's message on its link (R58, R83): the lowest free slot at or after the end of the
last other slot, in its round or the earliest later one. -/
def placeRecord (w : For) (cal : Nat) : (fuel r from_ : Nat) → State → Option (State × Nat)
  | 0, _, _, _ => none
  | fuel + 1, r, from_, s =>
    if w.maxR < r then none else
    if (takeable s w.stall cal 0 r from_ w.bulk).isEmpty then placeRecord w cal fuel (r + 1) 0 s
    else some (bookN w cal 0 r from_ 1 s, r)

/-- The class limits of R59 in ticks. -/
def classLimit (cls : Nat) : Nat := if cls = 1 then 200000 else if cls = 2 then 83886080 else 327680

/-- The last round a record may lie in for a request of class `cls` that arrived at `t` and is decided in round `a`. -/
def lastRecRound (cls t a : Nat) : Nat :=
  min ((t + classLimit cls) / 1280 - 1) (if cls = 2 then a + 65536 else a + 256)

/-- Release every booking of a request (a peer's withdrawal, R81; a withdrawn trial). -/
def dropBookings (rid : Nat) (s : State) : State :=
  { s with gate := { s.gate with books := s.gate.books.filter (fun b => b.rid != rid), energy := s.gate.energy.filter (fun e => e.rid != rid) } }

/-- The chit energy a request has booked. -/
def chitSum (s : State) (rid : Nat) : Nat := sumOf ((s.gate.energy.filter (fun e => e.chit && e.rid == rid)).map (·.uj))

/-- Draw from a stall's purse (R91). -/
def draw (st : Nat) (uj : Int) (s : State) : State := { s with gate := { s.gate with balance := AMap.upd 0 s.gate.balance st (· - uj) } }
/-- A refund to settle at the next boundary (R90, R100). -/
def refund (st uj : Nat) (s : State) : State := { s with gate := { s.gate with refunds := AMap.upd 0 s.gate.refunds st (· + uj) } }
/-- Release the bookings of the device's own work and refund their chits. -/
def refundBookings (rid st : Nat) (s : State) : State := refund st (chitSum s rid) (dropBookings rid s)

/-- Request numbers the device books its own work under: sweeps 2^40 + extent, a channel's log work 2^41 + channel,
background write-backs 2^42 + frame, restocks 2^43 + collection. -/
def chanRid (f : Nat) : Nat := 2 ^ 41 + f
def relocRid (f : Nat) : Nat := 2 ^ 41 + 64 + f
def isReloc (rid : Nat) : Bool := decide (relocRid 0 ≤ rid) && decide (rid < relocRid 64)
def wbRid (f : Nat) : Nat := 2 ^ 42 + f
def restockRid (u : Nat) : Nat := 2 ^ 43 + u
/-- Request numbers of the device's own work. -/
def ownWork (rid : Nat) : Bool := decide (2 ^ 40 ≤ rid)
/-- Energy of a round refunded already under R101 is kept for the purse calendar under this number. -/
def lapsedRid : Nat := 2 ^ 39
/-- Sweeps of an extent, for stall 0. -/
def sweepRid (e : Nat) : Nat := 2 ^ 40 + e
def backgroundRid (rid : Nat) : Bool := decide (2 ^ 42 ≤ rid) && decide (rid < 2 ^ 43)

/-- The absolute slots a command holds; a count stands for its whole round. -/
def heldSlots (s : State) (rid cmd : Nat) : List Nat :=
  (s.gate.books.filter (fun b => b.rid == rid && b.cmd == cmd)).flatMap (fun b => if b.slots.isEmpty then [b.round * 1024 + 1023] else b.slots.map (b.round * 1024 + ·))

/-- A command's counts of round `r` have become slots: its first and its last slot, where they lie in that round, are those (R62,
R73). -/
def retimeRound (rid cmd r : Nat) (s : State) : State :=
  let ks := (heldSlots s rid cmd).filter (fun k => k / 1024 == r)
  updCmd rid cmd (fun c => { c with startSlot := if c.startSlot / 1024 = r then (minOf ks).getD c.startSlot else c.startSlot,
                                    endSlot := if c.endSlot / 1024 = r ∧ ks ≠ [] then maxOf ks else c.endSlot }) s

/-- Place the counts of a round that enters the horizon into individual slots, in acceptance order (R52). -/
def placeCounts (r : Nat) (s : State) : State :=
  let bs := s.gate.books.filter (fun b => b.round == r && b.slots.isEmpty && decide (0 < b.count) && b.mask == 0)
  let t := bs.foldl (fun t b =>
      let others := { t with gate := { t.gate with books := t.gate.books.filter (fun x => x != b) } }
      addBook { b with slots := (freeSlots others b.stall b.cal b.dir r true).take b.count } others) s
  (dedup (bs.map (fun b => (b.rid, b.cmd)))).foldl (fun t x => retimeRound x.1 x.2 r t) t

/-- Drop the bookings of rounds that have passed; energy and activity of the round just ended stay for settlement. -/
def pruneBooks (r : Nat) (s : State) : State :=
  { s with gate := { s.gate with books := s.gate.books.filter (fun b => decide (r ≤ b.round)),
                                 pauses := s.gate.pauses.filter (fun p => decide (now s < p.start + p.len)) } }

/-- The energy of a request's slots of a round that one of them carries: an equal share, rounded up. -/
def slotShare (s : State) (b : Booking) (chit : Bool) : Nat :=
  let n := sumOf ((s.gate.books.filter (fun x => x.rid == b.rid && x.round == b.round)).map (fun x => x.slots.length))
  cdiv (sumOf ((s.gate.energy.filter (fun e => e.rid == b.rid && e.round == b.round && e.chit == chit)).map (·.uj))) n
/-- Take energy of a request out of a round's entries. -/
def takeEnergy (rid r : Nat) (chit : Bool) : Nat → List EBook → List EBook
  | _, [] => []
  | n, e :: l =>
    if e.rid == rid && e.round == r && e.chit == chit then
      (if e.uj ≤ n then [] else [{ e with uj := e.uj - n }]) ++ takeEnergy rid r chit (n - e.uj) l
    else e :: takeEnergy rid r chit n l
/-- Move energy of a request from one round to another (R89, R386). -/
def moveEnergy (b : Booking) (r n : Nat) (chit : Bool) (s : State) : State :=
  addEnergy b.rid b.stall r n chit { s with gate := { s.gate with energy := takeEnergy b.rid b.round chit n s.gate.energy } }

/-- Pre-emption (R386): move the slot `k` of booking `b`, with its share of the round's energy, to a free slot of the same calendar
no later than the last round of the loser's booking, where its energy fits. The loser's first and last slot follow. -/
def moveSlot (b : Booking) (k : Nat) (s : State) : Option State :=
  let lastR := maxOf ((s.gate.books.filter (fun x => x.rid == b.rid)).map (·.round))
  let cand := (List.range (lastR + 1 - b.round)).map (· + b.round)
  let chit := slotShare s b true
  let flt := slotShare s b false
  match cand.findSome? (fun r => match (freeSlots s b.stall b.cal b.dir r b.bulk).head? with
      | some j => if r = b.round ∨ (chitFits s b.stall r chit && floatFits s b.stall r flt) then some (r, j) else none
      | none => none) with
  | none => none
  | some (r, j) =>
    let b' := { b with slots := b.slots.filter (· != k), count := b.count - 1 }
    let rest := s.gate.books.filter (fun x => x != b)
    let t := cvAdd 0x8001 3 b.stall 1
      { s with gate := { s.gate with books := rest ++ [b', { b with round := r, slots := [j], count := 1 }] } }
    let u := if r = b.round then t else moveEnergy b r flt false (moveEnergy b r chit true t)
    let same := (u.gate.books.filter (fun x => x.rid == b.rid && x.cmd == b.cmd && x.cal == b.cal && x.dir == b.dir)).flatMap (fun x => x.slots.map (x.round * 1024 + ·))
    some (updCmd b.rid b.cmd (fun c => { c with
      startSlot := if c.startSlot = b.round * 1024 + k then (minOf same).getD c.startSlot else c.startSlot
      endSlot := max (maxOf (heldSlots u b.rid b.cmd)) (if c.endSlot = b.round * 1024 + k then 0 else c.endSlot) }) u)

/-- The slots of lower-priority transfers of the stall in a calendar and round, which a transfer of priority `p` may
take (R386). -/
def preemptible (s : State) (st cal dir r p : Nat) : List (Booking × Nat) :=
  (s.gate.books.filter (fun b => b.xfer && b.stall == st && b.cal == cal && b.dir == dir && b.round == r && decide (b.prio < p))).flatMap
    (fun b => b.slots.map (fun k => (b, k)))

/-- Free up to `n` slots of a calendar and round by pre-emption. -/
def preempt (st cal dir r p : Nat) : Nat → State → State
  | 0, s => s
  | n + 1, s => match (preemptible s st cal dir r p).findSome? (fun x => moveSlot x.1 x.2 s) with
    | some t => preempt st cal dir r p n t
    | none => s

end Sys2Proof.Machine
end

