-- ==== Sys2Proof/Machine/Operands.lean ====
section
/-! DEFINITION. Operand forms: the command entry of R419, its address operands (R420), and the descriptors commands
name, read from the store with their reserved fields. -/

namespace Sys2Proof.Machine
open Sys2Proof

/-- The first failing check of a list of (passes, status, detail): the order of the list is the order of the checks. -/
def firstFail : List (Bool × Nat × Nat) → Option (Nat × Nat)
  | [] => none
  | (ok, st, d) :: r => if ok then firstFail r else some (st, d)

/-- What checks 1 to 3 of R56 make of a command: a refusal (status, detail), or the command to place. -/
inductive Chk where
  | bad (status detail : Nat)
  | good (c : Cmd)
  deriving DecidableEq, Repr

/-! ### The command entry (R419) -/
abbrev Entry := BitVec 512
def Entry.nat (e : Entry) : Nat := e.toNat
def Entry.opcode (e : Entry) : Nat := bits e.toNat 7 0
def Entry.chain (e : Entry) : Bool := bit e.toNat 8
def Entry.cls (e : Entry) : Nat := bits e.toNat 10 9
def Entry.modeA (e : Entry) : Nat := bits e.toNat 13 12
def Entry.modeB (e : Entry) : Nat := bits e.toNat 15 14
def Entry.tag (e : Entry) : Nat := bits e.toNat 31 16
def Entry.waitTally (e : Entry) : Nat := bits e.toNat 47 32
def Entry.waitRounds (e : Entry) : Nat := bits e.toNat 63 48
def Entry.waitTarget (e : Entry) : Nat := bits e.toNat 127 64
def Entry.opa (e : Entry) : Nat := bits e.toNat 191 128
def Entry.opb (e : Entry) : Nat := bits e.toNat 255 192
/-- ARGS bytes `n` to `n + len - 1`. -/
def Entry.args (e : Entry) (n len : Nat) : Nat := bits e.toNat (256 + 8 * (n + len) - 1) (256 + 8 * n)

/-- The ARGS bits an opcode uses (R422); every other ARGS bit is reserved. -/
def argsMask : Nat → Nat
  | 0x03 | 0x04 => 2 ^ 64 - 1
  | 0x05 => 2 ^ 16 - 1 + 2 ^ 32
  | 0x06 => 2 ^ 80 - 1 + 15 * 2 ^ 80
  | 0x08 => 2 ^ 64 - 1
  | 0x09 => 2 ^ 48 - 1 + (2 ^ 128 - 1) * 2 ^ 64
  | 0x0A => 2 ^ 24 - 1 + (2 ^ 16 - 1) * 2 ^ 32 + (2 ^ 64 - 1) * 2 ^ 64
  | 0x0C => 2 ^ 16 - 1 + (2 ^ 64 - 1) * 2 ^ 64
  | 0x0D => 1 + (2 ^ 32 - 1) * 2 ^ 32
  | 0x0E => 2 ^ 144 - 1 + 2 ^ 144
  | 0x0F => 2 ^ 48 - 1
  | 0x80 | 0x81 => 2 ^ 24 - 1 + (2 ^ 16 - 1) * 2 ^ 32 + (2 ^ 64 - 1) * 2 ^ 64 + (2 ^ 8 - 1) * 2 ^ 128
  | 0x82 => 2 ^ 24 - 1 + (2 ^ 16 - 1) * 2 ^ 32
  | _ => 0

def usesOpa (op : Nat) : Bool := [0x01, 0x02, 0x03, 0x04, 0x05, 0x06, 0x07, 0x08, 0x09, 0x0A, 0x80, 0x81, 0x82].contains op
def usesOpb (op : Nat) : Bool := op == 0x06
def knownOp (op : Nat) : Bool := (decide (1 ≤ op) && decide (op ≤ 0x0F)) || op == 0x80 || op == 0x81 || op == 0x82
/-- Operands the Gate reads at admission must not be virtual (R420); a PUBLISH or TABLE_SWITCH base is GLOBAL (R422). -/
def noVirtual (op : Nat) : Bool := [0x01, 0x02, 0x05, 0x07, 0x0A, 0x80, 0x81, 0x82].contains op
def globalOnly (op : Nat) : Bool := op == 0x08 || op == 0x09

/-- Check 1 of R56 on the entry itself: code, class, modes, reserved fields (R419, R420, R422). -/
def entryFormOk (e : Entry) : Bool :=
  let op := e.opcode
  knownOp op && !bit e.toNat 11 && e.cls != 3 && e.modeA != 3 && e.modeB != 3
  && (usesOpa op || (e.opa == 0 && e.modeA == 0)) && (usesOpb op || (e.opb == 0 && e.modeB == 0))
  && (bits e.toNat 511 256 ||| argsMask op) == argsMask op
  && !(noVirtual op && e.modeA == 1) && !(globalOnly op && e.modeA != 0)
  && (e.modeA != 2 || bits e.opa 23 16 == 0) && (e.modeB != 2 || bits e.opb 23 16 == 0)

/-- The wait fields of an entry given the destination tallies of the earlier commands of its chain (R419): a wait
inside the chain has WAIT_ROUNDS 0, any other at least 1. -/
def waitOk (e : Entry) (earlier : List Nat) : Bool :=
  if e.waitTally = 0xFFFF then true
  else if earlier.contains e.waitTally then e.waitRounds == 0 else decide (1 ≤ e.waitRounds)

/-! ### Address operands (R420, R46, R226) -/

/-- A resolved operand: a global address with the pin a region takes, a virtual address, or a failing check. -/
inductive Opd where
  | glob (a : Nat) (pins : List Pin)
  | virt (va : Nat)
  | bad (status : Nat)
  deriving DecidableEq, Repr

/-- Resolve an operand of `len` bytes for a stall: REGION binds the slot of the current version (R46). -/
def resolve (s : State) (st mode v len : Nat) : Opd :=
  match mode with
  | 0 => .glob v []
  | 1 => .virt v
  | _ =>
    let g := v % 2 ^ 16
    let off := bits v 63 24
    let r : Region := AMap.get {} s.ext.regions g
    if cv s 0x4020 1 g ≠ st then .bad PROTECTION
    else if !r.valid ∨ cv s 0x4020 2 g < off + len then .bad INVALID
    else
      let k := r.version % 4
      let base := (r.slots.getD k (0,0,0)).1
      if closingRange s base 1 then .bad FAULT_EXTENT_CLOSED else .glob (base + off) [⟨0, g, k⟩]

/-! ### Ranges a stall's commands may touch -/

/-- A stall may read an extent: its own, or one an EXTENT_READ pact covers (R130). -/
def mayRead (s : State) (st e : Nat) : Bool :=
  (extRec s e).state != 0 && ((extRec s e).stall == st || (match pactGiver s 3 st e with | some a => (extRec s e).stall == a | none => false))
def readsRange (s : State) (st a len : Nat) : Bool := localRange s a len && (extsOf (offOf a) len).all (mayRead s st)
/-- Every extent of a range is pinned, and the stall's or one an EXTENT_READ pact lets it read (R130). -/
def readsPinned (s : State) (st a len : Nat) : Bool :=
  readsRange s st a len && (extsOf (offOf a) len).all (fun e => !(extRec s e).backed)

/-- Checks 2 and 3 shared by a range a command reads: PROTECTION, then FAULT_EXTENT_CLOSED. -/
def rangeChecks (s : State) (st a len : Nat) (write : Bool) : List (Bool × Nat × Nat) :=
  [(if write then ownsRange s st a len else readsRange s st a len, PROTECTION, 0), (openRange s a len, FAULT_EXTENT_CLOSED, 0)]

/-- The frames (64 KiB) of the backed extents in a range of offsets. -/
def backedFrames (s : State) (off len : Nat) : List Nat :=
  ((List.range ((off + len + 65535) / 65536 - off / 65536)).map (fun i => off / 65536 + i)).filter
    (fun f => (extRec s (f / 16384)).backed)

end Sys2Proof.Machine
end

