-- ==== Sys2Proof/Machine/StorePlace.lean ====
section
/-! DEFINITION. The store's side of admission: cache frames, victims, fills and write-backs (R139-R153), and the log
slots of the flash channels. -/

namespace Sys2Proof.Machine
open Sys2Proof

/-! ### Cache frames of a stall -/

def chanState (s : State) (f : Nat) : Nat := cv s 0x4041 5 f
def chanShort (s : State) (ch : Nat) : Bool := chanState s ch == 2

def cacheFrames (s : State) (st : Nat) : Nat := cv s 0x4030 1 st
def usableFrames (s : State) (st : Nat) : Nat := cacheFrames s st - AMap.get 0 s.store.gone st
/-- The listed frames of a stall, with their numbers. -/
def framesOf (s : State) (st : Nat) : List (Nat × CFrame) :=
  s.store.frames.filterMap (fun e => match e.2 with | some c => if c.stall = st then some (e.1, c) else none | none => none)
/-- A frame counts as held (R144): an accepted request uses it, and the command that names it has reached the first round of its
booked use. -/
def holdsNow (s : State) (h : Hold) : Bool :=
  decide (now s < h.till) && (match cmdOf s h.rid h.cmd with | some c => decide (c.startSlot / 1024 ≤ curRound s) | none => true)
def holdCount (s : State) (f : Nat) : Nat := (s.store.holds.filter (fun h => h.frame == f && holdsNow s h)).length
/-- Some accepted request uses a frame, from its acceptance on (R139; log entry 115). -/
def claimed (s : State) (f : Nat) : Bool := s.store.holds.any (fun h => h.frame == f && decide (now s < h.till))
def present (s : State) (f : Nat) : Bool := match cframe s f with | some c => c.state != 3 | none => false
/-- Frames claimed and not present: each takes a cache frame at its booked use. -/
def absentHeld (s : State) (st : Nat) : List Nat :=
  dedup ((s.store.holds.filter (fun h => h.stall == st && decide (now s < h.till) && !present s h.frame)).map (·.frame))
/-- Cache frames EMPTY now, or EMPTY by the use they were freed for, that no accepted request will take. -/
def spareFrames (s : State) (st : Nat) : Nat :=
  let fs := framesOf s st
  let leaving := (fs.filter (fun e => e.2.state == 3)).length
  (usableFrames s st - (fs.length - leaving)) - (absentHeld s st).length

/-- The order of R143: CLEAN before DIRTY, then the oldest access, then the lowest physical frame. -/
def victimBefore (x y : Nat × CFrame) : Bool :=
  if x.2.state ≠ y.2.state then decide (x.2.state < y.2.state)
  else if x.2.last ≠ y.2.last then decide (x.2.last < y.2.last)
  else decide (x.2.phys < y.2.phys)
def insertVictim (x : Nat × CFrame) : List (Nat × CFrame) → List (Nat × CFrame)
  | [] => [x]
  | y :: r => if victimBefore y x then y :: insertVictim x r else x :: y :: r
/-- An agent holds a line of a frame in the directory (R143). -/
def agentHolds (s : State) (f : Nat) : Bool :=
  s.coh.dir.any (fun e => match e.2 with
    | some d => d.line / 1024 == f && (d.coarse || d.agents != [] || d.vector != 0)
    | none => false)
/-- Eligible frames of a stall outside `used`, in the order of R143. -/
def eligibleFrames (s : State) (st : Nat) (used : List Nat) : List (Nat × CFrame) :=
  ((framesOf s st).filter (fun e => (e.2.state == 1 || e.2.state == 2) && !claimed s e.1
    && !agentHolds s e.1 && !used.contains e.1)).foldl (fun l x => insertVictim x l) []

/-- The stall whose cache frames hold a frame (R139), the stalls of a command's frames, and the frames of one of them. -/
def frameOwner (s : State) (f : Nat) : Nat := (extRec s (f / 16384)).stall
def ownersOf (s : State) (used : List Nat) : List Nat := dedup (used.map (frameOwner s))
def usedOf (s : State) (o : Nat) (used : List Nat) : List Nat := dedup (used.filter (fun f => frameOwner s f == o))

/-- The frames of a command that are absent, and that no accepted request brings in. -/
def absentOf (s : State) (used : List Nat) : List Nat := (dedup used).filter (fun f => !present s f && !(absentHeld s (frameOwner s f)).contains f)
/-- The victims a command needs among the frames of stall `o` (R144). -/
def victimsOf (s : State) (o : Nat) (used : List Nat) : List (Nat × CFrame) :=
  (eligibleFrames s o used).take ((absentOf s (usedOf s o used)).length - spareFrames s o)

/-- The cover test of R144, as a check of R56, for each stall that owns frames of the command: the retry tick is the earliest
promise among the requests that hold frames, or none where the request needs more than CACHE_FRAMES. -/
def coverCheck (s : State) (used : List Nat) : Bool × Nat × Nat :=
  let chain := used ++ (s.store.holds.filter (fun h => h.rid == 0)).map (·.frame)
  match (ownersOf s used).find? (fun o => decide (spareFrames s o + (eligibleFrames s o used).length < (absentOf s (usedOf s o used)).length)) with
  | none => (true, REFUSED_QUOTA, 0)
  | some o =>
    let retry := (minOf ((s.store.holds.filter (fun h => h.stall == o && decide (now s < h.till))).map (·.till))).getD (2 ^ 64)
    (false, REFUSED_QUOTA, if cacheFrames s o < (usedOf s o chain).length then 2 ^ 64 else retry)
/-- A victim is DIRTY and its home channel SHORT: the command needs a program there (R160). -/
def shortVictim (s : State) (used : List Nat) : Bool :=
  (ownersOf s used).any (fun o => (victimsOf s o used).any (fun v => v.2.state == 2 && chanShort s (flashChannel s (v.1 * 65536))))

/-! ### Flash channels and log slots -/

def chanOf (s : State) (f : Nat) : Chan := AMap.get {} s.store.chans f
def setChan (f : Nat) (c : Chan) (s : State) : State := { s with store := { s.store with chans := AMap.set {} s.store.chans f c } }
def blockOf (s : State) (ch b : Nat) : Block := AMap.get {} s.store.blocks (ch * 2 ^ 26 + b)
def setBlock (ch b : Nat) (x : Block) (s : State) : State :=
  { s with store := { s.store with blocks := AMap.set {} s.store.blocks (ch * 2 ^ 26 + b) x } }

/-- The number from which the two checkpoint areas of a channel lie: its 40 highest blocks without a factory bad mark (R157; log
entry 117). -/
def areaStart (bad : List Nat) : (n left : Nat) → Nat
  | n, 0 => n
  | 0, _ => 0
  | n + 1, k + 1 => if bad.contains n then areaStart bad n (k + 1) else areaStart bad n k
def logBlocks (c : Chan) : Nat := areaStart c.bad c.blocks 40
/-- The free block of lowest erase count among the first `n` blocks of a channel (R156). -/
def bestFree (s : State) (ch : Nat) (bad : List Nat) : Nat → Option (Nat × Nat)
  | 0 => none
  | n + 1 =>
    let b := blockOf s ch n
    let free := b.state == 0 && !bad.contains n
    match bestFree s ch bad n with
    | none => if free then some (n, b.erases) else none
    | some (m, e) => if free && decide (b.erases < e) then some (n, b.erases) else some (m, e)

/-- Take the next log slot of a channel, opening a block where the present one is full (R154-R156): the slot, its log sequence. -/
def allocSlot (ch : Nat) (s : State) : Option (Nat × Nat × State) :=
  let c := chanOf s ch
  let s1 := if c.fill < 256 ∧ (blockOf s ch c.open_).state = 1 then some (c, s) else
    match bestFree s ch c.bad (logBlocks c) with
    | none => none
    | some (b, e) =>
      let t := setBlock ch b { state := 1, erases := e, opened := c.sequence + 1 } s
      some ({ c with open_ := b, fill := 0 }, cvSet 0x4041 3 ch (cv t 0x4041 3 ch - 1) t)
  match s1 with
  | none => none
  | some (c, t) => some (c.open_ * 256 + c.fill, c.sequence + 1, setChan ch { c with fill := c.fill + 1, sequence := c.sequence + 1 } t)

/-! ### Booked page transfers (R149, R150, R153) -/

/-- A phase of `n` page transfers on a channel: 410 slots each, `kind` the coefficient of R96 charged in the round of
each page's last slot, as a chit. -/
def pagesPhase (s : State) (ch n kind early : Nat) : Phase :=
  { total := 410 * n, cals := [(calFlash ch, 0)], early := early, side := fun _ _ => [],
    chit := fun d u => ujOf s kind ((d + u) / 410 - d / 410), flt := fun _ _ => 0 }

/-- The rounds of the slots that a placement added to a calendar, one for each slot, ascending. -/
def newRounds (old new : State) (cal : Nat) : List (Nat × Nat) :=
  ((new.gate.books.drop old.gate.books.length).filter (fun b => b.cal == cal)).map (fun b => (b.round, b.count))
def roundAt : List (Nat × Nat) → Nat → Nat
  | [], _ => 0
  | (r, n) :: rest, k => if k < n then r else roundAt rest (k - n)

/-- The activity of `n` booked page transfers, counted in the round of each page's last slot (R149). -/
def pageActs (w : For) (kind n : Nat) (rs : List (Nat × Nat)) (s : State) : State :=
  { s with gate := { s.gate with acts := s.gate.acts ++ (List.range n).map (fun p =>
      ⟨w.rid, w.stall, roundAt rs (410 * p + 409), kind, 1, true⟩) } }

/-- The pages of a frame with a sub-block that is not valid. -/
def missingPages (c : CFrame) : List Nat := (List.range 4).filter (fun p => (List.range 4).any (fun j => !c.valid.getLsbD (4 * p + j)))
/-- A write-back of a frame fills its pages first: there is committed content to carry (R146). -/
def merges (s : State) (f : Nat) : Bool := bit (mapOf s f) 31 && !bit (mapOf s f) 30 && !s.mem.lost.contains f

/-- Book the write-back of a frame (R146): merge reads first, then four programs; the record of it, and the first round
after its commit bound. -/
def bookWriteback (w : For) (f a : Nat) (leaving : Bool) (s : State) : Option (State × Nat) :=
  match cframe s f with
  | none => none
  | some c =>
    let ch := flashChannel s (f * 65536)
    let merge := if merges s f then missingPages c else []
    let r1 := if merge.isEmpty then some (s, 0, (a + 1) * 1024 - 1)
      else runPhase w (pagesPhase s ch merge.length 1 ((a + 3) * 1024)) s
    match r1 with
    | none => none
    | some (s1, _, e1) =>
      match runPhase w (pagesPhase s ch 4 2 (max ((a + 1) * 1024) (e1 + 1))) s1 with
      | none => none
      | some (s2, _, _) =>
        let rs := newRounds s1 s2 (calFlash ch)
        match allocSlot ch s2 with
        | none => none
        | some (slot, seq, s3) =>
          let lp := roundAt rs 1639
          let wb : Wb := { frame := f, stall := c.stall, chan := ch, slot := slot, seq := seq, begins := (List.range 4).map (fun p => roundAt rs (410 * p)),
                           lastRound := lp, rid := w.rid, leaving := leaving }
          let s4 := { s3 with store := { s3.store with wbs := s3.store.wbs ++ [wb] } }
          let s5 := pageActs w 2 4 rs (pageActs w 1 merge.length (newRounds s s1 (calFlash ch)) s4)
          some (if leaving then setFrame f (some { c with state := 3, freeRound := lp + 17 }) s5 else s5, lp + 17)

/-- Book the write-backs of several frames. -/
def bookWritebacks (w : For) (a : Nat) (leaving : Bool) : List Nat → Nat → State → Option (State × Nat)
  | [], m, s => some (s, m)
  | f :: r, m, s => match bookWriteback w f a leaving s with
    | none => none
    | some (t, k) => bookWritebacks w a leaving r (max m k) t

/-- A fill of a frame's pages reads flash (R138, R141, R162). -/
def fillPages (s : State) (u : Nat × List Nat) : List Nat := if merges s u.1 then u.2 else []
/-- Book the fills of frames (R150), none before its LEAVING predecessor's free round (R145): the end of the last transfer. -/
def bookFills (w : For) : List (Nat × List Nat) → (early last : Nat) → State → Option (State × Nat)
  | [], _, m, s => some (s, m)
  | u :: r, e, m, s =>
    let e' := match cframe s u.1 with | some c => if c.state = 3 then max e (c.freeRound * 1024) else e | none => e
    let need := fillPages s u
    let ch := flashChannel s (u.1 * 65536)
    if need.isEmpty then bookFills w r e m s
    else match runPhase w (pagesPhase s ch need.length 1 e') s with
      | none => none
      | some (t, _, last) => bookFills w r e (max m last) (pageActs w 1 need.length (newRounds s t (calFlash ch)) t)

/-- The lines of a frame that clusters own are recalled before the frame leaves the cache (R187). -/
def recallFrame (f : Nat) (s : State) : State :=
  let ways := s.coh.dir.filterMap (fun e => match e.2 with
    | some d => if d.cluster.isSome && d.line / 1024 == f then some (e.1, d.line) else none
    | none => none)
  let lines := dedup (ways.map (·.2) ++ (s.fab.lc.filter (fun l => l.owned && l.line / 1024 == f)).map (·.line))
  lines.foldl (fun t l => recallLine l t) (ways.foldl (fun t x => setWay x.1 none t) s)
/-- A victim that is CLEAN leaves the cache; the free round is set once the new use is placed (R146). -/
def leaveClean (a : Nat) (f : Nat) (s : State) : State :=
  match cframe s f with
  | some c => if c.state = 1 then setFrame f (some { c with state := 3, freeRound := a + 1 }) s else s
  | none => s

/-- Choose the victims of a command's frames and book their write-backs (R143, R144): the state and the first round in which
all are free. -/
def bookVictims (w : For) (a : Nat) (used : List Nat) (s : State) : Option (State × Nat) :=
  let vs := (ownersOf s used).flatMap (fun o => (victimsOf s o used).map (·.1))
  let s1 := vs.foldl (fun t f => recallFrame f t) s
  let dirty := vs.filter (fun f => (cframe s1 f).any (fun c => c.state == 2))
  bookWritebacks w a true dirty 0 (vs.foldl (fun t f => leaveClean a f t) s1)

/-- The slot from which data that needs a fill may be booked: the start of the round after the fill's last slot (R150). -/
def readyAfter (last : Nat) : Nat := if last = 0 then 0 else (last / 1024 + 1) * 1024

/-- The first rounds of the flash slots booked since `old`. -/
def fillRounds (old new : State) : List Nat :=
  ((new.gate.books.drop old.gate.books.length).filter (fun b => decide (8 ≤ b.cal) && decide (b.cal < 72))).map (·.round)

/-- Place the victims' write-backs, the fills and then the data of a command; where a fill would begin more than
PREFETCH_WINDOW_ROUNDS before the data's first slot, the fills move later (R150). -/
def placeWithFrames (w : For) (a : Nat) (uses : List (Nat × List Nat)) (early : Nat)
    (data : Nat → State → Option (State × Nat × Nat)) : (fuel fillFrom : Nat) → State → Option (State × Nat × Nat)
  | 0, _, _ => none
  | fuel + 1, fillFrom, s =>
    match bookVictims w a (uses.map (·.1)) s with
    | none => none
    | some (s1, free) =>
      match bookFills w uses (max fillFrom (free * 1024)) 0 s1 with
      | none => none
      | some (s2, lf) =>
        match data (max early (max (free * 1024) (readyAfter lf))) s2 with
        | none => none
        | some (s3, first, last) =>
          let window := cv s 0x4030 9 w.stall
          if (minOf (fillRounds s1 s2)).any (fun r => decide (r + window < first / 1024)) && decide (fillFrom / 1024 + window < first / 1024)
          then placeWithFrames w a uses early data fuel ((first / 1024 - window) * 1024) s
          else some (s3, first, last)

/-- The frames a command uses are claimed until `till` (R144). -/
def claimFrames (rid cmd till : Nat) (fs : List Nat) (s : State) : State :=
  { s with store := { s.store with holds := s.store.holds ++ (dedup fs).map (fun f =>
      { frame := f, stall := frameOwner s f, rid := rid, till := till, cmd := cmd }) } }
/-- No claim of a request is left. While a chain is checked its commands' claims stand under request 0. -/
def dropHolds (rid : Nat) (s : State) : State :=
  { s with store := { s.store with holds := s.store.holds.filter (fun h => h.rid != rid) } }
/-- The frames an accepted request's commands use are claimed until its promise (R144). -/
def addHolds (rid till : Nat) (cmds : List Cmd) (s : State) : State :=
  cmds.zipIdx.foldl (fun t x => claimFrames rid x.2 till x.1.hold t) (dropHolds rid s)

/-- Bring the frames of a command into the caches of their stalls at its booked start: absent frames become CLEAN, the pages
read are filled (R139-R141, R144). -/
def takeFrames (uses : List (Nat × List Nat)) (s : State) : State :=
  uses.foldl (fun t u =>
    let t2 := fillFrame u.1 u.2 (if present t u.1 then t else cacheFrame (frameOwner t u.1) u.1 t)
    match cframe t2 u.1 with | some c => setFrame u.1 (some { c with last := curRound t2 }) t2 | none => t2) s

/-- Pages of frame `f` in which a read of `[off, off + len)` touches a sub-block that is not valid (R141). -/
def pagesMissed (s : State) (f off len : Nat) : List Nat :=
  let valid := match cframe s f with | some c => if c.state = 3 then 0 else c.valid | none => 0
  let m := subTouched f off len &&& ~~~ valid
  (List.range 4).filter (fun p => (List.range 4).any (fun j => m.getLsbD (4 * p + j)))
/-- Frame uses with each frame once. -/
def mergeUses (l : List (Nat × List Nat)) : List (Nat × List Nat) :=
  (dedup (l.map (·.1))).map (fun f => (f, dedup ((l.filter (fun u => u.1 == f)).flatMap (·.2))))
/-- The uses of a list of tiles in order, each page at its first use alone. -/
def firstUses : List (Nat × List (Nat × List Nat)) → (seen : List (Nat × Nat)) → List (Nat × List (Nat × List Nat))
  | [], _ => []
  | (j, us) :: r, seen =>
    let mine := us.map (fun u => (u.1, u.2.filter (fun p => !seen.contains (u.1, p))))
    (j, mine) :: firstUses r (seen ++ mine.flatMap (fun u => u.2.map (fun p => (u.1, p))))
/-- The frame uses of a range that is read, and of one that is written: each frame with the pages filled. -/
def readUses (s : State) (off len : Nat) : List (Nat × List Nat) := (backedFrames s off len).map (fun f => (f, pagesMissed s f off len))
def writeUses (s : State) (off len : Nat) : List (Nat × List Nat) := (backedFrames s off len).map (fun f => (f, mergePages s f off len))

end Sys2Proof.Machine
end

