-- ==== Sys2Proof/Machine/Walks.lean ====
section
/-! DEFINITION. Pre-walks and their booking (R237-R239), the page walk itself (R229-R233), and TLB lookups. -/

namespace Sys2Proof.Machine
open Sys2Proof

/-- Leaf sizes of MIN_LEAF (R252). -/
def leafBytes (m : Nat) : Nat := [4096, 65536, 2 ^ 21, 2 ^ 30].getD m 4096
def minLeaf (s : State) (c : Nat) : Nat := leafBytes (cv s 0x5810 4 c)
/-- The leaves a virtual range may touch (R237). -/
def leavesOf (va n m : Nat) : List Nat := (List.range (cdiv (va + n) m - va / m)).map (fun i => (va / m + i) * m)

/-- Bytes each stack calendar is booked for a range (R238): virtual by MIN_LEAF, global by 64 KiB blocks. -/
def stackBytes (s : State) (c : Nat) (virt : Bool) (a n : Nat) : Nat :=
  if virt && cv s 0x5810 4 c == 0 then 4096 * (cdiv (a + n) 4096 - a / 4096) else 8192 * (cdiv (a + n) 65536 - a / 65536)

/-- A virtual range a command declares. -/
structure VRange where
  va : Nat
  len : Nat
  write : Bool
  clusters : List Nat := []
  deriving DecidableEq, Repr

/-- Pre-walks of a stall booked to begin in round `r`. -/
def walksIn (s : State) (st r : Nat) : Nat := (s.xl.walks.filter (fun w => w.stall == st && w.round == r)).length

/-- Book one pre-walk for a leaf first used in round `use`: a walk of the round's WALKS_PER_ROUND, one slot of each
stack for its 5 lines, its float (R237). -/
def bookWalk (w : For) (ctx use last : Nat) (write : Bool) (clusters : List Nat) (va : Nat) (s : State) : Option State :=
  let r := use - prewalkLead s
  if r ≤ curRound s ∨ use < prewalkLead s then none
  else if cv s 0x3015 3 w.stall ≤ walksIn s w.stall r then none
  else if (List.range 8).any (fun k => (takeable s w.stall (calHbm k) 0 r 0 w.bulk).isEmpty) then none
  else if !floatFits s w.stall r (ujOf s 0 5) then none
  else
    let s1 := (List.range 8).foldl (fun t k => bookN { w with xfer := false } (calHbm k) 0 r 0 1 t) s
    let s2 := addEnergy w.rid w.stall r (ujOf s 0 5) false s1
    let idx := (s.xl.walks.filter (fun x => x.rid == w.rid)).length
    let x : PreWalk := {
      rid := w.rid, cmd := w.cmd, index := idx, ctx := ctx, stall := w.stall, va := va, round := r, write := write,
      clusters := clusters, lastRound := last }
    some { s2 with xl := { s2.xl with walks := s2.xl.walks ++ [x] } }

def bookWalkList (w : For) (ctx use last : Nat) (write : Bool) (clusters : List Nat) : List Nat → State → Option State
  | [], s => some s
  | va :: r, s => match bookWalk w ctx use last write clusters va s with
    | none => none
    | some t => bookWalkList w ctx use last write clusters r t

/-- Book the pre-walks of several ranges, all first used in round `use`. -/
def bookRanges (w : For) (ctx use last : Nat) : List VRange → State → Option State
  | [], s => some s
  | v :: r, s => match bookWalkList w ctx use last v.write v.clusters (leavesOf v.va v.len (minLeaf s ctx)) s with
    | none => none
    | some t => bookRanges w ctx use last r t

/-- Place a command's data and the pre-walks of its virtual ranges: a round whose walks do not fit moves the data
later (R237). `data e` places the data at or after slot `e`. -/
def placeWithWalks (w : For) (ctx a : Nat) (vs : List VRange) (data : Nat → State → Option (State × Nat × Nat)) :
    (fuel early : Nat) → State → Option (State × Nat × Nat)
  | 0, _, _ => none
  | fuel + 1, early, s =>
    if vs.isEmpty then data early s else
    let e := max early ((a + 1 + prewalkLead s) * 1024)
    match data e s with
    | none => none
    | some (s1, first, last) =>
      match bookRanges w ctx (first / 1024) (2 ^ 40) vs s1 with
      | some s2 => some (s2, first, last)
      | none => if w.maxR < first / 1024 then none else placeWithWalks w ctx a vs data fuel ((first / 1024 + 1) * 1024) s

/-- A pre-walk holds its entry in round `r`. -/
def holdsIn (x : PreWalk) (r : Nat) : Bool := decide (x.round ≤ r) && decide (r ≤ x.lastRound)
/-- Entries of a stall held in round `r`, in the die TLB, and in cluster `k`'s TLB (R239): each leaf once. -/
def heldIn (s : State) (st r : Nat) : Nat :=
  (dedup ((s.xl.walks.filter (fun x => x.stall == st && holdsIn x r)).map (fun x => (x.ctx, x.va)))).length
def heldInCluster (s : State) (st k r : Nat) : Nat :=
  (dedup ((s.xl.walks.filter (fun x => x.stall == st && x.clusters.contains k && holdsIn x r)).map (fun x => (x.ctx, x.va)))).length

/-- The TLB capacity check of R239 over the pre-walks of request `rid`, in every round in which it holds an entry: the count can rise
only where a walk begins. -/
def tlbFits (s : State) (st rid : Nat) : Bool :=
  let mine := s.xl.walks.filter (fun x => x.rid == rid)
  ((s.xl.walks.filter (fun x => x.stall == st)).map (·.round)).all (fun r =>
    !mine.any (fun x => holdsIn x r)
    || (decide (heldIn s st r ≤ cv s 0x3015 2 st)
      && mine.all (fun x => x.clusters.all (fun k => decide (heldInCluster s st k r ≤ 256 * popc 16 (lineWays s st k))))))
/-- The request alone does not fit. -/
def tlbAloneFits (s : State) (st rid : Nat) : Bool :=
  tlbFits { s with xl := { s.xl with walks := s.xl.walks.filter (fun x => x.rid == rid) } } st rid

/-! ### The page walk (R229-R233, R242) -/

abbrev NOT_VALID := 1
abbrev PERMISSION := 2
abbrev ACCESS_DIRTY := 3
abbrev LEAF_SMALL := 4
abbrev UNSUPPORTED_LEAF := 5
abbrev OUTSIDE := 6
abbrev WALK_ERROR := 7
abbrev INVALIDATED := 8
abbrev ATS_FAIL := 9
abbrev NOT_DECLARED := 10

/-- What a walk yields: a leaf (global address of its base, bytes, R, W, D) or a cause. -/
inductive WalkRes where
  | leaf (ga size : Nat) (r w d : Bool)
  | cause (c : Nat)
  deriving DecidableEq, Repr

/-- Read a table entry through the HBM copy (R233, R247): every table page lies in a pinned extent of the stall (R229). -/
def tableEntry (s : State) (st a : Nat) : Option Nat :=
  if !pinnedRange s st a 8 || rangeBad s (offOf a) 8 then none
  else some (leNat (readCells s.mem.hbm (offOf a) 8))

/-- The node map of R231: entry PA[55:50] of NODE_MAP gives the node. -/
def nodeMapped (s : State) (c pa : Nat) : Option Nat :=
  let n := bits (cv s 0x5810 5 c) (16 * (pa / 2 ^ 50 % 64) + 15) (16 * (pa / 2 ^ 50 % 64))
  if n = 0xFFFF then none else some (n % 2 ^ 14 * 2 ^ 50 + pa % 2 ^ 50)

/-- A RISC-V entry with W and not R, or a pointer with D, A, U or N set, is reserved by the architecture R231 follows (log entry
120). -/
def rvReserved (e : Nat) : Bool :=
  bits e 60 54 != 0 || (!bit e 1 && bit e 2) || (!bit e 1 && !bit e 2 && !bit e 3 && (bit e 4 || bit e 6 || bit e 7 || bit e 63))
/-- One level of a RISC-V walk (R231). -/
def rvWalk (s : State) (st c va : Nat) (write : Bool) : (level : Nat) → (table : Nat) → WalkRes
  | level, table =>
    match tableEntry s st (table + 8 * bits va (12 + 9 * level + 8) (12 + 9 * level)) with
    | none => .cause WALK_ERROR
    | some e =>
      let v := bit e 0; let r := bit e 1; let w := bit e 2; let u := bit e 4; let a := bit e 6; let d := bit e 7; let n := bit e 63
      let ppn := bits e 53 10
      if !v then .cause NOT_VALID
      else if rvReserved e then .cause UNSUPPORTED_LEAF
      else if !r && !w && !bit e 3 then
        match level with
        | 0 => .cause UNSUPPORTED_LEAF
        | l + 1 =>
          match nodeMapped s c (ppn * 4096) with
          | none => .cause OUTSIDE
          | some t => rvWalk s st c va write l t
      else if 3 ≤ level then .cause UNSUPPORTED_LEAF
      else
        let size := if level = 0 then (if n then 65536 else 4096) else leafBytes (level + 1)
        let low := if level = 0 then (if n then ppn % 16 else 0) else ppn % 2 ^ (9 * level)
        if (n && (level != 0 || low != 8)) || (!n && low != 0) then .cause UNSUPPORTED_LEAF
        else if !u || (!write && !r) || (write && !w) then .cause PERMISSION
        else if !a || (write && !d) then .cause ACCESS_DIRTY
        else match nodeMapped s c ((if level = 0 && n then ppn / 16 * 16 else ppn) * 4096) with
          | none => .cause OUTSIDE
          | some g => .leaf g size r w d

/-- One level of a native walk (R232). -/
def nativeWalk (s : State) (st va : Nat) (write : Bool) : (level : Nat) → (table : Nat) → WalkRes
  | level, table =>
    match tableEntry s st (table + 8 * bits va (12 + 9 * level + 8) (12 + 9 * level)) with
    | none => .cause WALK_ERROR
    | some e =>
      let size := bits e 9 8
      let addr := e / 4096 * 4096
      if !bit e 0 then .cause NOT_VALID
      else if bits e 11 10 ≠ 0 ∨ bits e 4 3 ≠ 0 then .cause UNSUPPORTED_LEAF
      else if !bit e 5 then
        match level with
        | 0 => .cause UNSUPPORTED_LEAF
        | l + 1 => if size ≠ 0 then .cause UNSUPPORTED_LEAF else nativeWalk s st va write l addr
      else if 3 ≤ level ∨ (level = 2 ∧ size ≠ 3) ∨ (level = 1 ∧ size ≠ 2) ∨ (level = 0 ∧ 2 ≤ size) ∨ addr % leafBytes size ≠ 0 then
        .cause UNSUPPORTED_LEAF
      else if (!write && !bit e 1) || (write && !bit e 2) then .cause PERMISSION
      else if !bit e 6 || (write && !bit e 7) then .cause ACCESS_DIRTY
      else .leaf addr (leafBytes size) (bit e 1) (bit e 2) (bit e 7)

/-- An address is canonical for its profile (R230). -/
def canonical (profile va : Nat) : Bool :=
  match profile with
  | 0 => if bit va 47 then va / 2 ^ 48 == 2 ^ 16 - 1 else va / 2 ^ 48 == 0
  | 1 => if bit va 56 then va / 2 ^ 57 == 2 ^ 7 - 1 else va / 2 ^ 57 == 0
  | _ => va / 2 ^ 57 == 0


/-- The leaf a walk of a context in mode NATIVE finds, before the checks of R228 and R238. -/
def walkLeaf (s : State) (st c va : Nat) (write : Bool) : WalkRes :=
  let p := cv s 0x5810 2 c
  if !canonical p va then .cause NOT_VALID
  else if p = 2 then nativeWalk s st va write 4 (cv s 0x5810 3 c)
  else rvWalk s st c va write (if p = 0 then 3 else 4) (cv s 0x5810 3 c)

/-- The table entries a walk reads, in order (R233). -/
def walkReads (s : State) (st c va : Nat) : (level : Nat) → (table : Nat) → List Nat
  | level, table =>
    let a := table + 8 * bits va (12 + 9 * level + 8) (12 + 9 * level)
    match level, tableEntry s st a with
    | l + 1, some e =>
      if cv s 0x5810 2 c = 2 then
        if bit e 0 && !bit e 5 && bits e 11 8 == 0 && bits e 4 3 == 0 then a :: walkReads s st c va l (e / 4096 * 4096) else [a]
      else if bit e 0 && !rvReserved e && bits e 3 1 == 0 then
        match nodeMapped s c (bits e 53 10 * 4096) with | some t => a :: walkReads s st c va l t | none => [a]
      else [a]
    | _, _ => [a]

/-! ### Lookups (R234-R236) -/

/-- A translation of the context covering an address, in the die TLB or in a cluster's. -/
def tlbFind (s : State) (c : Nat) (cluster : Option Nat) (va : Nat) : Option Tlb :=
  s.xl.tlbs.find? (fun t => t.ctx == c && t.cluster == cluster && decide (t.va ≤ va) && decide (va < t.va + t.size))

/-- The TLBs a pre-walk fills (R236, R241): the die's, and those of the clusters it names. -/
def walkTargets (w : PreWalk) : List (Option Nat) := none :: w.clusters.map some
/-- The global address of a virtual one, or the cause of R242: INVALIDATED where an invalidation removed what a pre-walk of the address
holds, NOT_DECLARED where none holds it. -/
def xlate (s : State) (c : Nat) (cluster : Option Nat) (va : Nat) (write : Bool) : Nat ⊕ Nat :=
  match tlbFind s c cluster va with
  | none => .inr (if (s.xl.walks.any (fun w => w.cut && w.ctx == c && (walkTargets w).contains cluster && decide (w.va ≤ va)
      && decide (va < w.va + minLeaf s c))) then INVALIDATED else NOT_DECLARED)
  | some t => if (if write then !t.write else !t.read) then .inr PERMISSION
    else if write && !t.dirty then .inr ACCESS_DIRTY else .inl (t.ga + (va - t.va))

/-- A pre-walk that ran holds a translation, until its last round or its command's record (R236). -/
def walkHolds (s : State) (t : Tlb) (w : PreWalk) : Bool :=
  w.done && w.ctx == t.ctx && decide (t.va ≤ w.va) && decide (w.va < t.va + t.size) && decide (curRound s ≤ w.lastRound)
    && (walkTargets w).contains t.cluster
def tlbHeld (s : State) (t : Tlb) : Bool := s.xl.walks.any (walkHolds s t)

/-- Drop the walks of a request whose record is written; what they held is released (R236). -/
def dropWalks (rid : Nat) (s : State) : State :=
  { s with xl := { s.xl with walks := s.xl.walks.filter (fun w => w.rid != rid) } }

/-- Append a record to a stall's translation ring (R243): the sequence it took. -/
def xrAppend (st : Nat) (rec : Nat → Nat) (s : State) : Nat × State :=
  let q := AMap.get 0 s.xl.xrSeq st
  let s1 := { s with xl := { s.xl with xrSeq := AMap.set 0 s.xl.xrSeq st (q + 1) } }
  let base := cv s 0x5820 1 st
  let n := cv s 0x5820 2 st
  if ringTakes s1 st base n (cv s 0x5820 3 st) (cv s 0x5820 4 st) then
    let w := AMap.get 0 s1.xl.xrWritten st
    (q, ringLine st (advance st (cv s 0x5820 3 st) 1 (deviceWrite (offOf base + 32 * (w % n)) (leBytes 32 (rec q))
      { s1 with xl := { s1.xl with xrWritten := AMap.set 0 s1.xl.xrWritten st (w + 1) } })))
  else (q, cvAdd 0x5820 5 st 1 s1)

/-- A FAULT record to the stall's translation ring (R242, R244). -/
def xlateFault (st c va cause : Nat) (s : State) : Nat × State :=
  xrAppend st (xlateBits va (now s) 0 0 c 1 cause) (cvAdd 0x5841 1 st 1 s)

end Sys2Proof.Machine
end

