-- ==== Sys2Proof/Machine/Errors.lean ====
section
/-! DEFINITION. What the storage detectors do: lost frames, retirement, and the opportunities of injection that reads
and writes of HBM lines and SRAM words make (R158-R163, R270, R494-R504, R507). -/

namespace Sys2Proof.Machine
open Sys2Proof

/-- A frame becomes LOST without a record of its own (R162): of its cached copy nothing counts as written whole since. -/
def markLost (f : Nat) (s : State) : State :=
  let s1 := if s.mem.lost.contains f then s else { s with mem := { s.mem with lost := s.mem.lost ++ [f] } }
  let s2 := if (extRec s (f / 16384)).backed then
      { s1 with store := { s1.store with mapping := AMap.set 0 s1.store.mapping f (setBit (mapOf s1 f) 30 true) } } else s1
  match cframe s2 f with | some c => setFrame f (some { c with valid := 0 }) s2 | none => s2
/-- A frame becomes LOST with its record to its stall (R162, R507). -/
def loseFrame (f d : Nat) (injected : Bool) (s : State) : State :=
  if s.mem.lost.contains f then s else
  errRec 0x88 (gaddr s (f * 65536)) d 0xFFFF (extRec s (f / 16384)).stall 0 false injected (markLost f s)

/-- Containment of an uncorrectable error at an offset: the frame is lost, unless it is a CLEAN cache frame, which
becomes EMPTY; `retire` also retires the physical frame at once (R161, R502). -/
def containUe (off : Nat) (retire injected : Bool) (s : State) : State :=
  let f := off / 65536
  let p := physOf s off
  let backed := (extRec s (extOf off)).backed
  let clean := backed && (match cframe s f with | some c => c.state == 1 | none => false)
  let s1 := if clean then s else loseFrame f 0 injected s
  match cframe s1 f with
  | some c =>
    if !backed then s1 else
    if retire && !s1.store.retired.contains p then loseCache c.stall (setFrame f none (retirePhys p 0 injected s1)) else emptyFrame f s1
  | none => if retire && !backed then retirePhys p 0 injected s1 else s1

/-- A real HBM uncorrectable error (R161, R494). -/
def hbmUe (off ctx st status : Nat) (s : State) : State :=
  let p := physOf s off
  containUe off true false (detectRec 0x00 (gaddr s off) p ctx st status false (cvAdd 0x4050 8 0 1 s))

/-- A real HBM corrected error (R161): counted; the frame is retired, with a record, at the threshold. -/
def hbmCe (off st : Nat) (s : State) : State :=
  let p := physOf s off
  let n := AMap.get 0 s.store.ceCount p + 1
  let s1 := cvAdd 0x4050 7 0 1 (detect 0x01 { s with store := { s.store with ceCount := AMap.set 0 s.store.ceCount p n } })
  if n = cv s 0x4050 9 then errRec 0x01 (gaddr s off) n 0xFFFF st 0 true false s1 else s1

/-- Some injection arm of a detector concerns a stall. -/
def armed (s : State) (d st : Nat) : Bool := armMode (armOf s d 0) != 0 || (st != 0 && armMode (armOf s d st) != 0)

/-- One HBM line served for a stall: whether it ends the part, and whether by an injection (R161, R181, R500-R502). -/
def hbmLine (st ctx line : Nat) (read : Bool) (s : State) : Option Bool × State :=
  let off := 64 * line
  let real := read && rangeBad s off 64
  let ce := inject 0x01 (gaddr s off) 0 (!read || real || !armed s 0x01 0) s
  let s0 := match ce.1 with
    | some (_, contain) => errRec 0x01 (gaddr s off) (AMap.get 0 s.store.ceCount (physOf s off)) 0xFFFF st 0 true true (if contain then hbmCe off st ce.2 else ce.2)
    | none => ce.2
  if real then (some false, s0)
  else
    let i := inject 0x00 (gaddr s off) st (!armed s 0x00 st) s0
    match i.1 with
    | none => (none, i.2)
    | some (dev, contain) =>
      let s1 := errRec 0x00 (gaddr s off) (physOf s off) ctx st (if ctx = 0xFFFF then 0 else FAULT_MEMORY) dev true i.2
      let s2 := if contain then containUe off dev true (if dev then cvAdd 0x4050 8 0 1 (detect 0x00 s1) else s1) else s1
      (some true, s2)

/-- Lines served in ascending order: the first that ends the part. -/
def hbmLines (st ctx : Nat) (read : Bool) : List Nat → State → Option Bool × State
  | [], s => (none, s)
  | l :: r, s => match hbmLine st ctx l read s with
    | (some i, t) => (some i, t)
    | (none, t) => hbmLines st ctx read r t

/-- Serve the lines of a range: nothing to do where no arm concerns the stall and no line is bad. -/
def hbmRange (st ctx off len : Nat) (read : Bool) (s : State) : Option Bool × State :=
  if len = 0 then (none, s)
  else if !armed s 0x00 st && !armed s 0x01 0 then
    (if read && rangeBad s off len then some false else none, s)
  else hbmLines st ctx read (linesOf off len) s

/-- One SRAM word read (a bank, porter memory or the row cache) at a locator: whether it reads as uncorrectable, and
whether by an injection (R270, R494). Corrected errors are only counted, in SRAM_CE_COUNT too. -/
def sramWord (st ctx locator word : Nat) (s : State) : Option Bool × State :=
  if s.mem.ueWords.contains word then (some false, s)
  else if !armed s 0x02 st && !armed s 0x03 0 then (none, s)
  else
    let ce := inject 0x03 locator 0 (!armed s 0x03 0) s
    let s0 := match ce.1 with
      | some (_, contain) => errRec 0x03 locator 0 0xFFFF st 0 true true (if contain then cvAdd 0x6020 1 st 1 (detect 0x03 ce.2) else ce.2)
      | none => ce.2
    let i := inject 0x02 locator st (!armed s 0x02 st) s0
    match i.1 with
    | none => (none, i.2)
    | some (dev, contain) =>
      let s1 := errRec 0x02 locator 0 ctx st FAULT_MEMORY dev true i.2
      let s2 := if contain && dev then cvAdd 0x6020 2 st 1 (detect 0x02 s1) else s1
      (some true, if contain then { s2 with mem := { s2.mem with ueWords := s2.mem.ueWords ++ [word] } } else s2)

end Sys2Proof.Machine
end

