-- ==== Sys2Proof/Machine/NumFmt.lean ====
section
/-! DEFINITION. Number formats: decoding to exact values, exact sums and products, one rounding to a format
(R254-R261, R311). -/

namespace Sys2Proof.Machine
open Sys2Proof

/-- A decoded number: NaN, a signed infinity, or the exact value ± m × 2^e. -/
inductive Num where
  | nan
  | inf (neg : Bool)
  | fin (neg : Bool) (m : Nat) (e : Int)
  deriving DecidableEq, Repr

def Num.zero : Num := .fin false 0 0
def Num.ofNat (n : Nat) : Num := .fin false n 0
def Num.isZero : Num → Bool
  | .fin _ 0 _ => true
  | _ => false
def Num.neg : Num → Num
  | .nan => .nan
  | .inf b => .inf (!b)
  | .fin b m e => .fin (!b) m e

/-- Decode an IEEE-style word: `eb` exponent bits, `mb` mantissa bits, all-ones exponents being infinities and NaNs. -/
def decodeIeee (eb mb n : Nat) : Num :=
  let m := n % 2 ^ mb
  let x := n / 2 ^ mb % 2 ^ eb
  let s := bit n (eb + mb)
  let bias : Int := (2 ^ (eb - 1) - 1 : Nat)
  if x = 2 ^ eb - 1 then (if m = 0 then .inf s else .nan)
  else if x = 0 then .fin s m (1 - bias - mb)
  else .fin s (m + 2 ^ mb) ((x : Int) - bias - mb)

/-- Decode a format whose every exponent is finite (E4M3 with its NaN apart, FP6, FP4). -/
def decodeFinite (eb mb n : Nat) : Num :=
  let m := n % 2 ^ mb
  let x := n / 2 ^ mb % 2 ^ eb
  let s := bit n (eb + mb)
  let bias : Int := (2 ^ (eb - 1) - 1 : Nat)
  if x = 0 then .fin s m (1 - bias - mb) else .fin s (m + 2 ^ mb) ((x : Int) - bias - mb)

def decodeInt (w n : Nat) : Num := let i := sext w n; .fin (decide (i < 0)) i.natAbs 0

/-- Decode an element by its format code (R254, R311; 0x10 FP32). -/
def decodeElem (code n : Nat) : Num :=
  match code with
  | 0x0 => decodeInt 8 n
  | 0x1 => decodeInt 4 n
  | 0x2 | 0x5 => if n % 128 = 127 then .nan else decodeFinite 4 3 n
  | 0x3 | 0x6 => decodeIeee 5 2 n
  | 0x4 => match decodeInt 8 n with | .fin s m _ => .fin s m (-6) | x => x
  | 0x7 => decodeFinite 3 2 n
  | 0x8 => decodeFinite 2 3 n
  | 0x9 => decodeFinite 2 1 n
  | 0xA => decodeIeee 8 7 n
  | 0xB => decodeIeee 5 10 n
  | _ => decodeIeee 8 23 n

/-- Times 2^(s - 127), with s = 0xFF giving NaN (R256). -/
def scaleE8 (s : Nat) : Num → Num
  | .fin b m e => if s = 255 then .nan else .fin b m (e + s - 127)
  | x => if s = 255 then .nan else x

/-- The exact product; zero times infinity is NaN (R259). -/
def Num.mul : Num → Num → Num
  | .nan, _ => .nan
  | _, .nan => .nan
  | .inf a, .inf b => .inf (a != b)
  | .inf a, .fin b m _ => if m = 0 then .nan else .inf (a != b)
  | .fin a m _, .inf b => if m = 0 then .nan else .inf (a != b)
  | .fin a m e, .fin b n f => .fin (a != b) (m * n) (e + f)

def signed (neg : Bool) (m : Nat) : Int := if neg then -(m : Int) else m

/-- The exact sum; infinities of opposite sign give NaN; an exact zero is +0 unless both are -0. -/
def Num.add : Num → Num → Num
  | .nan, _ => .nan
  | _, .nan => .nan
  | .inf a, .inf b => if a = b then .inf a else .nan
  | .inf a, _ => .inf a
  | _, .inf b => .inf b
  | .fin a m e, .fin b n f =>
    let g := min e f
    let v := signed a (m * 2 ^ (e - g).toNat) + signed b (n * 2 ^ (f - g).toNat)
    if v = 0 then .fin (a && b) 0 g else .fin (decide (v < 0)) v.natAbs g

/-- Quotient by a positive integer to more bits than any format keeps, the last bit sticky. -/
def Num.divNat (x : Num) (n : Nat) : Num :=
  match x with
  | .fin b m e =>
    let q := m * 2 ^ 80 / n
    .fin b (2 * q + (if m * 2 ^ 80 % n = 0 then 0 else 1)) (e - 81)
  | x => x

/-- Round ± m × 2^e to a format with exponent unit `unit` of its subnormals and `mb` mantissa bits, to nearest, ties to
even: the mantissa with its leading bit, and the exponent of its unit. -/
def roundNear (mb : Nat) (unit : Int) (m : Nat) (e : Int) : Nat × Int :=
  if m = 0 then (0, unit) else
  let t := max (e + (Nat.log2 m : Int) - mb) unit
  if t ≤ e then (m * 2 ^ (e - t).toNat, t)
  else
    let k := (t - e).toNat
    let q := m / 2 ^ k
    let r := m % 2 ^ k
    let half := 2 ^ (k - 1)
    let q' := if half < r ∨ (r = half ∧ q % 2 = 1) then q + 1 else q
    if q' = 2 ^ (mb + 1) then (2 ^ mb, t + 1) else (q', t)

/-- Encode to an IEEE-style format; `sat` is the largest finite magnitude's code where the format saturates. -/
def encodeIeee (eb mb nanCode : Nat) (sat : Option Nat) (infCode : Nat) : Num → Nat
  | .nan => nanCode
  | .inf b => (if b then 2 ^ (eb + mb) else 0) + infCode
  | .fin b m e =>
    let bias : Int := (2 ^ (eb - 1) - 1 : Nat)
    let unit : Int := 1 - bias - mb
    let r := roundNear mb unit m e
    let code := if r.1 < 2 ^ mb then r.1 else r.1 - 2 ^ mb + ((r.2 - unit).toNat + 1) * 2 ^ mb
    let top := match sat with | some c => c + 1 | none => (2 ^ eb - 1) * 2 ^ mb
    let mag := if code < top then code else match sat with | some c => c | none => infCode
    (if b then 2 ^ (eb + mb) else 0) + mag

def toF32 (x : Num) : Nat := encodeIeee 8 23 0x7FC00000 none 0x7F800000 x
def ofF32 (n : Nat) : Num := decodeIeee 8 23 n
def toBf16 (x : Num) : Nat := encodeIeee 8 7 0x7FC0 none 0x7F80 x
def toF16 (x : Num) : Nat := encodeIeee 5 10 0x7E00 none 0x7C00 x
/-- E4M3 saturates to ±448, infinities too; NaN is 0x7F (R261). -/
def toE4M3 (x : Num) : Nat := encodeIeee 4 3 0x7F (some 0x7E) 0x7E x
/-- E5M2 saturates finite results to ±57,344 and keeps infinities; NaN is 0x7F (R261). -/
def toE5M2 (x : Num) : Nat := encodeIeee 5 2 0x7F (some 0x7B) 0x7C x

/-- One FP32 accumulate of exact addends with a single rounding (R259, R319). -/
def fsum32 (acc : Nat) (xs : List Num) : Nat := toF32 (xs.foldl Num.add (ofF32 acc))

/-- FP32 addition (R274). -/
def fadd32 (a b : Nat) : Nat := fsum32 a [ofF32 b]

/-- a ≤ b for FP32 words, none where either is NaN. -/
def flt32 (a b : Nat) : Bool :=
  match Num.add (ofF32 a) (ofF32 b).neg with
  | .fin s m _ => s && m != 0
  | .inf s => s
  | .nan => false

/-- Element `i` of a packed array of bytes, by format code (R255). -/
def packedElem (code : Nat) (l : List Byte) (i : Nat) : Nat :=
  match code with
  | 0x1 | 0x9 => let b := (l.getD (i / 2) 0).toNat; if i % 2 = 0 then b % 16 else b / 16
  | 0x7 | 0x8 => bits (leNat (slice l (3 * (i / 4)) 3)) (6 * (i % 4) + 5) (6 * (i % 4))
  | 0xA | 0xB => leNat (slice l (2 * i) 2)
  | 0x10 => leNat (slice l (4 * i) 4)
  | _ => (l.getD i 0).toNat

/-- Bytes of `n` packed elements. -/
def packedBytes (code n : Nat) : Nat :=
  match code with
  | 0x1 | 0x9 => cdiv n 2
  | 0x7 | 0x8 => 3 * cdiv n 4
  | 0xA | 0xB => 2 * n
  | 0x10 => 4 * n
  | _ => n

/-- A block scale is used (R254). -/
def hasScale (code : Nat) : Bool := 4 ≤ code && code ≤ 9

end Sys2Proof.Machine
end

