-- ==== Sys2Proof/Machine/Banks.lean ====
section
/-! DEFINITION. On-chip banks: packed spaces, bank power, reads and writes of bank words (R264-R270, R122). -/

namespace Sys2Proof.Machine
open Sys2Proof

/-- Banks of a cluster are numbered 32 c + b for scratchpad bank b of core c and 256 + b for cluster-store bank b. The
bytes of bank `i` of cluster `k` lie in `mem.bank` from `bankBase k i`; porter memories from `tcmBase`. -/
def bankBase (k i : Nat) : Nat := (k * 512 + i) * 2 ^ 17
def tcmBase (p : Nat) : Nat := 2 ^ 40 + p * 65536

/-- A stall's banks of a space, ascending: the scratchpad of core `c`, or the cluster store (R264). -/
def spadList (s : State) (st k c : Nat) : List Nat := (setBits 32 (spadBanks s st k c)).map (fun b => 32 * c + b)
def storeList (s : State) (st k : Nat) : List Nat := (setBits 128 (storeBanks s st k)).map (fun b => 256 + b)
/-- Bytes of a space. -/
def spadSize (s : State) (st k c : Nat) : Nat := (spadList s st k c).length * 32768
def storeSize (s : State) (st k : Nat) : Nat := (storeList s st k).length * 98304

/-- The cell address of byte `a` of a packed space over `banks` (R264). -/
def spaceAddr (k : Nat) (banks : List Nat) (a : Nat) : Nat :=
  let w := a / 8
  bankBase k (banks.getD (w % banks.length) 0) + w / banks.length * 8 + a % 8

/-- Bit position of a bank in BANK_POWER (R269). -/
def powerBit (k i : Nat) : Nat := if i < 256 then k * 768 + 2 * i else k * 768 + 512 + 2 * (i - 256)
/-- The written power state of a bank of a stall's map: 0 ON, 1 RET, 2 OFF. -/
def bankPower (s : State) (st k i : Nat) : Nat := bits (cv s 0x6010 1 st) (powerBit k i + 1) (powerBit k i)
/-- The tick at which a bank is ready (R268). -/
def bankReadyAt (s : State) (k i : Nat) : Nat := AMap.get 0 s.fab.ready (k * 1024 + i)
def bankOn (s : State) (st k i : Nat) : Bool := bankPower s st k i == 0 && decide (bankReadyAt s k i ≤ now s)

/-- A bank of the locator and its word (R494). The field's 8 bits hold 32 c + b of a scratchpad bank, or b of a cluster-store bank
(log entry 138). -/
def bankLocator (cell : Nat) : Nat := sramLocator (cell / 2 ^ 17 / 512) (cell / 2 ^ 17 % 512 % 256) (cell % 2 ^ 17 / 8)

def bankByte (s : State) (cell : Nat) : Byte := AMap.get 0 s.mem.bank cell
def setBankByte (cell : Nat) (b : Byte) (s : State) : State :=
  { s with mem := { s.mem with bank := AMap.set 0 s.mem.bank cell b, ueWords := s.mem.ueWords.filter (· != cell / 8) } }

/-- Bytes of a packed space. -/
def readSpace (s : State) (k : Nat) (banks : List Nat) (a : Nat) : Nat → List Byte
  | 0 => []
  | n + 1 => bankByte s (spaceAddr k banks a) :: readSpace s k banks (a + 1) n
def writeSpace (k : Nat) (banks : List Nat) (a : Nat) : List Byte → State → State
  | [], s => s
  | b :: r, s => writeSpace k banks (a + 1) r (setBankByte (spaceAddr k banks a) b s)

/-- The words a range of a space touches, each a read opportunity; the first that reads as uncorrectable (R270). -/
def serveSpace (st ctx k : Nat) (banks : List Nat) : List Nat → State → Option Bool × State
  | [], s => (none, s)
  | w :: r, s =>
    let cell := spaceAddr k banks (8 * w)
    match sramWord st ctx (bankLocator cell) (cell / 8) s with
    | (some i, t) => (some i, t)
    | (none, t) => serveSpace st ctx k banks r t

/-- The words a range of a space touches. -/
def spaceWords (a n : Nat) : List Nat := if n = 0 then [] else (List.range ((a + n - 1) / 8 + 1 - a / 8)).map (fun i => a / 8 + i)
/-- Serve a range of a space: nothing to do where no word is bad and no arm concerns the stall. -/
def spaceRange (st ctx k : Nat) (banks : List Nat) (a n : Nat) (s : State) : Option Bool × State :=
  if n = 0 ∨ (s.mem.ueWords.isEmpty ∧ !armed s 0x02 st ∧ !armed s 0x03 0) then (none, s)
  else serveSpace st ctx k banks (spaceWords a n) s

/-- Every bank a range of a space touches is ON (R268). -/
def rangeOn (s : State) (st k : Nat) (banks : List Nat) (a n : Nat) : Bool :=
  (spaceWords a n).all (fun w => bankOn s st k (banks.getD (w % banks.length) 0))
/-- The first word of a range that reads as uncorrectable, else its first word (R270). -/
def badCell (s : State) (k : Nat) (banks : List Nat) (a n : Nat) : Nat :=
  (((spaceWords a n).map (fun w => spaceAddr k banks (8 * w))).find? (fun c => s.mem.ueWords.contains (c / 8))).getD (spaceAddr k banks a)

end Sys2Proof.Machine
end

