-- ==== Sys2Proof/Machine/Twine.lean ====
section
/-! DEFINITION. Twine: routes and links, and how writes to another node are sent as trains (R393-R401, R221). -/

namespace Sys2Proof.Machine
open Sys2Proof

/-! ### Routes (R394) -/

def routeByte (s : State) (node : Nat) : Nat := bits (cv s 0x8120 1) (8 * node + 7) (8 * node)
def firstHop (s : State) (node : Nat) : Nat := routeByte s node % 32
def viaRelay (s : State) (node : Nat) : Bool := bit (routeByte s node) 7
/-- The node has a route: a first hop that is not 31 nor reserved. -/
def hasRoute (s : State) (node : Nat) : Bool := firstHop s node ≤ 16
/-- The links of the first hop: the pair of R14, or link 30 or 31 alone. -/
def hopLinks (s : State) (node : Nat) : List Nat :=
  let h := firstHop s node
  if h ≤ 14 then [2 * h, 2 * h + 1] else if h = 15 then [30] else if h = 16 then [31] else []
def linkUp (s : State) (l : Nat) : Bool := cv s 0x8110 1 l == 2
/-- The UP links to a node, without a link an injection keeps from the stall (R401, R502). -/
def linksTo (s : State) (st node : Nat) : List Nat :=
  (hopLinks s node).filter (fun l => linkUp s l && (match AMap.get none s.twine.blocked (l * 256 + st) with | some t => decide (t ≤ now s) | none => true))
/-- The link a page with destination offset `off` takes (R393). -/
def pageLink (ls : List Nat) (off : Nat) : Nat :=
  match ls with
  | [a, b] => if pathOf off = 0 then a else b
  | [a] => a
  | _ => 0
/-- TB of a request to a node over a link (R80, R395). What the relay's outgoing TRANSIT_BOUND is the origin is not told: the
largest of the device's own stands for it (DESIGN CHOICE, log entry 105). -/
def linkTb (s : State) (link node : Nat) : Nat :=
  let tb := cv s 0x1030 1 link
  if viaRelay s node then tb + 150 + transitMax s else tb
/-- TB of a request to a node over the slowest link of its first hop. -/
def transitTo (s : State) (node : Nat) : Nat := maxOf ((hopLinks s node).map (fun l => linkTb s l node))

def linkOf (s : State) (l : Nat) : Link := AMap.get {} s.twine.links l
def setLink (l : Nat) (x : Link) (s : State) : State := { s with twine := { s.twine with links := AMap.set {} s.twine.links l x } }

/-! ### Trains (R397) -/

/-- A 256-byte flit from its bytes. -/
def flitOf (b : List Byte) : BitVec 2048 := BitVec.ofNat 2048 (leNat b)
def flitBytes (f : BitVec 2048) : List Byte := leBytes 256 f.toNat

/-- The data flits of a train: data placed from byte `first` of flit 0. -/
def dataFlits (first : Nat) (data : List Byte) : List (List Byte) :=
  let padded := List.replicate first 0 ++ data
  (List.range (cdiv padded.length 256)).map (fun k => let x := slice padded (256 * k) 256; x ++ List.replicate (256 - x.length) 0)

/-- The header's bytes. -/
def trainHeader (st seq dst tally first last ticket linkSeq : Nat) (packet lastOfPart : Bool) (flits : List (List Byte)) : List Byte :=
  let body := ([1, BitVec.ofNat 8 flits.length, BitVec.ofNat 8 st, BitVec.ofNat 8 ((if packet then 1 else 0) + (if lastOfPart then 2 else 0))] : List Byte)
    ++ leBytes 3 seq ++ leBytes 1 0 ++ leBytes 8 dst ++ leBytes 2 tally ++ [BitVec.ofNat 8 first, BitVec.ofNat 8 last] ++ leBytes 4 ticket ++ leBytes 4 linkSeq
    ++ (List.range 16).flatMap (fun k => match flits[k]? with | some f => leBytes 4 (crc32 f) | none => [0, 0, 0, 0])
  let full := body ++ List.replicate (252 - body.length) 0
  full ++ leBytes 4 (crc32 full)

/-- Put a train on a link: its header, given the link sequence it takes, and its flits, which enter the stall's retry
buffer (R398). -/
def putTrain (l st : Nat) (hdr : Nat → List Byte) (flits : List (List Byte)) (s : State) : State :=
  let k := linkOf s l
  let all := (hdr k.txSeq :: flits).map flitOf
  let kept := k.retry ++ all.zipIdx.map (fun (f, i) => (st, (k.txSeq + i) % 2 ^ 32, f))
  let s1 := setLink l { k with txSeq := (k.txSeq + all.length) % 2 ^ 32, retry := kept } s
  all.foldl (fun t f => send (.flit l f) t) s1

/-- Send one train of a stall on a link with the next sequence number of R221. -/
def sendTrain (l st dst : Nat) (data : List Byte) (tally : Nat) (packet lastOfPart : Bool) (ticket : Nat) (s : State) : State :=
  if data.isEmpty then s else
  let node := nodeOf dst
  let seq := AMap.get 0 s.twine.sendSeq (node * 256 + st)
  let first := dst % 256
  let flits := dataFlits first data
  let s1 := { s with twine := { s.twine with sendSeq := AMap.set 0 s.twine.sendSeq (node * 256 + st) ((seq + 1) % 2 ^ 24) } }
  putTrain l st (fun ls => trainHeader st seq dst tally first ((first + data.length - 1) % 256) ticket ls packet lastOfPart flits) flits s1

/-- A train's header as a relay sends it on: only the link sequence and the header's own check change (R395). -/
def relayHeader (b : List Byte) (linkSeq : Nat) : List Byte :=
  let full := slice b 0 24 ++ leBytes 4 linkSeq ++ slice b 28 224
  full ++ leBytes 4 (crc32 full)

/-- The pieces of a range of `n` bytes at destination `dst`, cut at destination pages of 4 KiB: (offset, bytes). -/
def pagePieces (dst n : Nat) : List (Nat × Nat) :=
  let off := offOf dst
  (List.range (cdiv (off + n) 4096 - off / 4096)).map (fun i =>
    let lo := max off ((off / 4096 + i) * 4096)
    (lo - off, min (off + n) ((off / 4096 + i + 1) * 4096) - lo))

/-- The trains of bytes `[lo, lo + n)` of a transfer: the aligned 4 KiB pages of its source range, cut where a page of the
destination ends, with the destination of each source page's first byte, which picks the link (R393): (offset from `lo`, bytes, that
destination). -/
def trainPieces (src dst lo n : Nat) : List (Nat × Nat × Nat) :=
  (pagePieces (src + lo) n).flatMap (fun p =>
    let page := dst + (max src ((src + lo + p.1) / 4096 * 4096) - src)
    (pagePieces (dst + lo + p.1) p.2).map (fun r => (p.1 + r.1, r.2, page)))

/-- Send the bytes of a transfer from `lo` on to another node, one train a page (R393, R397); `partEnd` and `last` say that they end a
part and the transfer. -/
def sendRange (st src dst lo : Nat) (data : List Byte) (tally : Nat) (packet partEnd last : Bool) (ticket : Nat) (s : State) : State :=
  let ls := linksTo s st (nodeOf dst)
  let ps := trainPieces src dst lo data.length
  ps.zipIdx.foldl (fun t (p, i) =>
    let fin := i + 1 = ps.length
    sendTrain (pageLink ls (offOf p.2.2)) st (dst + lo + p.1) (slice data p.1 p.2.1) tally (packet && last && fin) (partEnd && fin) ticket t) s

end Sys2Proof.Machine
end

