-- ==== Sys2Proof/Machine/Copy.lean ====
section
/-! DEFINITION. Bulk transfers: COPY, BARROW and mover channels (R376-R395). -/

namespace Sys2Proof.Machine
open Sys2Proof

/-! ### What is asked for -/

def remoteSrc (s : State) (x : Xfer) : Bool := !x.vSrc && nodeOf x.src != nodeNumber s
def remoteDst (s : State) (x : Xfer) : Bool := !x.vDst && nodeOf x.dst != nodeNumber s
def isRemote (s : State) (x : Xfer) : Bool := remoteSrc s x || remoteDst s x
def farNode (s : State) (x : Xfer) : Nat := if remoteDst s x then nodeOf x.dst else nodeOf x.src

/-- A global range lies in the store, not in a window (R381). -/
def inStore (a n : Nat) : Bool := decide (offOf a + n ≤ windowBase)

/-- Ranges of a transfer overlap (R381). -/
def overlaps (x : Xfer) : Bool := x.vSrc == x.vDst && decide (x.src < x.dst + x.count) && decide (x.dst < x.src + x.count)

/-- The frame uses of the local global ends. -/
def xferUses (s : State) (x : Xfer) : List (Nat × List Nat) :=
  mergeUses ((if x.vSrc || remoteSrc s x then [] else readUses s (offOf x.src) x.count)
    ++ (if x.vDst || remoteDst s x then [] else writeUses s (offOf x.dst) x.count))
def xferRanges (x : Xfer) : List VRange :=
  (if x.vSrc then [⟨x.src, x.count, false, []⟩] else []) ++ (if x.vDst then [⟨x.dst, x.count, true, []⟩] else [])
def xferExts (s : State) (x : Xfer) : List Nat :=
  dedup ((if x.vSrc || remoteSrc s x then [] else extsOf (offOf x.src) x.count)
    ++ (if x.vDst || remoteDst s x then [] else extsOf (offOf x.dst) x.count))


/-- Checks 2 and 3 of a transfer of a stall (R381, R144, R160, R401). -/
def checkXfer (s : State) (st ctx opcode : Nat) (x : Xfer) (pins : List Pin) : Chk :=
  let uses := xferUses s x
  let endOk := fun (virt far : Bool) (a : Nat) (write : Bool) =>
    virt || far || (if write then ownsRange s st a x.count else readsRange s st a x.count)
  match firstFail [
    ((!x.vSrc && !x.vDst) || cv s 0x5810 1 ctx != 0, PROTECTION, 0),
    (x.tally == 0xFFFF || remoteDst s x || reachesTally s st x.tally, PROTECTION, 0),
    (decide (1 ≤ x.count) && decide (x.count ≤ 2 ^ 40), INVALID, 0),
    ((x.vSrc || inStore x.src x.count) && (x.vDst || inStore x.dst x.count), INVALID, 0),
    (!overlaps x && !(remoteSrc s x && remoteDst s x) && (!isRemote s x || hasRoute s (farNode s x)), INVALID, 0),
    (endOk x.vSrc (remoteSrc s x) x.src false && endOk x.vDst (remoteDst s x) x.dst true, PROTECTION, 0),
    ((x.vSrc || remoteSrc s x || openRange s x.src x.count) && (x.vDst || remoteDst s x || openRange s x.dst x.count), FAULT_EXTENT_CLOSED, 0),
    (!isRemote s x || !(linksTo s st (farNode s x)).isEmpty, FAULT_LINK, 0xFFFFFFFF),
    (!shortVictim s (uses.map (·.1)), REFUSED_QUOTA, 2 ^ 64),
    coverCheck s (uses.map (·.1))] with
  | some (a, d) => .bad a d
  | none => .good { opcode := opcode, work := .xfer x, pins := pins, exts := xferExts s x, hold := uses.map (·.1) }

/-- COPY (R381, R420, R422): its operands, then the checks of a transfer. PRIORITY is an expert field. -/
def checkCopy (s : State) (st ctx : Nat) (e : Entry) : Chk :=
  let n := e.args 0 8
  match resolve s st e.modeA e.opa n, resolve s st e.modeB e.opb n with
  | .bad x, _ => .bad x 0
  | _, .bad x => .bad x 0
  | a, b =>
    let p := bits (e.args 10 1) 3 1
    let addr := fun o => match o with | Opd.glob a _ => a | .virt v => v | .bad _ => 0
    let pinsOf := fun o => match o with | Opd.glob _ l => l | _ => []
    let isV := fun o => match o with | Opd.virt _ => true | _ => false
    checkXfer s st ctx 0x06 { src := addr a, dst := addr b, count := n, tally := e.args 8 2, packet := bit (e.args 10 1) 0,
                              vSrc := isV a, vDst := isV b, prio := if expert s st then p else 0 } (pinsOf a ++ pinsOf b)

/-- A descriptor of 64 bytes at an address, from an OPEN pinned extent of the stall: check 2 PROTECTION, then closing. -/
def readDesc (s : State) (a : Nat) : Nat := storeNat s (offOf a) 64

/-- The descriptors of a chain from an address, or the status of the first that cannot be read; more than 16 give INVALID. -/
def readChain (s : State) (st : Nat) : (fuel a : Nat) → List Nat ⊕ Nat
  | 0, _ => .inr INVALID
  | n + 1, a =>
    match firstFail [(a % 64 == 0 && localRange s a 64, INVALID, 0), (pinnedRange s st a 64, PROTECTION, 0),
        (openRange s a 64, FAULT_EXTENT_CLOSED, 0), (!rangeBad s (offOf a) 64, INVALID, 0)] with
    | some (x, _) => .inr x
    | none =>
      let w := readDesc s a
      if bits w 255 192 = 0 then .inl [w]
      else match readChain s st n (bits w 255 192) with
        | .inl l => .inl (w :: l)
        | .inr x => .inr x
/-- BARROW (R391): the descriptor's fields, then the checks of a transfer. -/
def checkBarrow (s : State) (st ctx cls : Nat) (e : Entry) : Chk :=
  match resolve s st e.modeA e.opa 64 with
  | .bad x => .bad x 0
  | .virt _ => .bad INVALID 0
  | .glob a pins =>
    match firstFail [(offOf a % 64 == 0 && localRange s a 64, INVALID, 0), (pinnedRange s st a 64, PROTECTION, 0)] with
    | some (x, d) => .bad x d
    | none =>
      let w := readDesc s a
      let x : Xfer := { src := bits w 511 448, dst := bits w 447 384, count := bits w 383 320, tally := bits w 319 304,
                        packet := bit w 290, vSrc := false, vDst := false, prio := if expert s st then bits w 293 291 else 0 }
      match firstFail [
        (bits w 289 256 == 0 && bits w 255 0 == 0 && bits w 295 294 == cls, INVALID, 0),
        (bits w 303 296 == st, PROTECTION, 0),
        (openRange s a 64, FAULT_EXTENT_CLOSED, 0)] with
      | some (y, d) => .bad y d
      | none => checkXfer s st ctx 0x07 x pins

/-! ### Parts (R388) -/

def partSize (n : Nat) : Nat := 4096 * cdiv n 65536
def partCount (n : Nat) : Nat := cdiv n (partSize n)
def allParts (n : Nat) : Nat := 2 ^ partCount n - 1

/-! ### Placement (R382, R392, R393) -/

def isLarge (s : State) (n : Nat) : Bool := cv s 0x2020 10 < n

/-- Split a total in proportion: what slots `[d, d + u)` of `slots` carry of `total`. -/
def share (total slots d u : Nat) : Nat := cdiv (total * (d + u)) slots - cdiv (total * d) slots

/-- Bytes each stack is booked for the local ends (R382). -/
def xferStackBytes (s : State) (ctx : Nat) (x : Xfer) : Nat :=
  (if remoteSrc s x then 0 else stackBytes s ctx x.vSrc (if x.vSrc then x.src else offOf x.src) x.count)
  + (if remoteDst s x then 0 else stackBytes s ctx x.vDst (if x.vDst then x.dst else offOf x.dst) x.count)

def hbmCals : List (Nat × Nat) := (List.range 8).map (fun k => (calHbm k, 0))

/-- A transfer between two local ends. -/
def localPhase (s : State) (ctx : Nat) (x : Xfer) (early : Nat) : Phase :=
  let sb := xferStackBytes s ctx x
  let total := cdiv sb 25600
  let large := isLarge s x.count
  { total := total, cals := hbmCals, early := early, side := fun _ _ => [],
    chit := fun d u => if large then ujOf s 0 (share (sb * 8 / 64) total d u) else 0,
    flt := fun d u => if large then 0 else ujOf s 0 (2 * share (cdiv x.count 64) total d u) }

/-- A sender: transmit slots of the links, with the reads of the source beside them. -/
def sendPhase (s : State) (st ctx : Nat) (x : Xfer) (early : Nat) : Phase :=
  let ls := linksTo s st (nodeOf x.dst)
  let per := ls.map (fun l => sumOf ((trainPieces x.src x.dst 0 x.count).map (fun p => if pageLink ls (offOf p.2.2) = l then p.2.1 else 0)))
  let total := cdiv (maxOf per) 1250
  let sb := stackBytes s ctx x.vSrc (if x.vSrc then x.src else offOf x.src) x.count
  let large := isLarge s x.count
  let lines := if large then sb * 8 / 64 else cdiv x.count 64
  let flits := cdiv x.count 256
  let uj := fun d u => ujOf s 0 (share lines total d u) + ujOf s 4 (share flits total d u)
  { total := total, cals := ls.map (fun l => (calLink l, 0)), early := early,
    side := fun d u => let n := cdiv (share sb total d u) 25600; (List.range 8).map (fun k => (calHbm k, 0, n)),
    chit := fun d u => if large then uj d u else 0, flt := fun d u => if large then 0 else uj d u }

/-- A peer that receives: writes of the destination. -/
def recvPhase (s : State) (x : Xfer) (early : Nat) : Phase :=
  let sb := stackBytes s 0 false (offOf x.dst) x.count
  let total := cdiv sb 25600
  let large := isLarge s x.count
  { total := total, cals := hbmCals, early := early, side := fun _ _ => [],
    chit := fun d u => if large then ujOf s 0 (share (sb * 8 / 64) total d u) else 0,
    flt := fun d u => if large then 0 else ujOf s 0 (share (cdiv x.count 64) total d u) }

/-- Receiving resources of a pull: a constant number of slots of every stack in every round of a span (R80). -/
def bookReceive (w : For) (n linesPer : Nat) (large : Bool) : (rounds r : Nat) → State → Option State
  | 0, _, s => some s
  | k + 1, r, s =>
    let uj := ujOf s 0 linesPer
    if (List.range 8).any (fun c => decide ((takeable s w.stall (calHbm c) 0 r 0 w.bulk).length < n)) then none
    else if (if large then !chitFits s w.stall r uj else !floatFits s w.stall r uj) then none
    else bookReceive w n linesPer large k (r + 1)
      (addEnergy w.rid w.stall r uj large ((List.range 8).foldl (fun t c => bookN w (calHbm c) 0 r 0 n t) s))

/-- Free what a transfer of higher priority may take (R386), round by round until its slots are covered: what each round lacks on
each calendar. -/
def preemptRounds (w : For) (p : Phase) : (fuel r need : Nat) → State → State
  | 0, _, _, s => s
  | fuel + 1, r, need, s =>
    if need = 0 ∨ w.maxR < r then s else
    let from_ := if r = p.early / 1024 then p.early % 1024 else 0
    let free := fun (t : State) (c : Nat × Nat) => (takeable t w.stall c.1 c.2 r from_ w.bulk).length
    let t := p.cals.foldl (fun t c => preempt w.stall c.1 c.2 r w.prio (need - free t c) t) s
    preemptRounds w p fuel (r + 1) (need - (p.cals.map (free t)).foldl min need) t
def preemptFor (w : For) (p : Phase) (s : State) : State :=
  if w.prio = 0 then s else preemptRounds w p (w.maxR + 2 - p.early / 1024) (p.early / 1024) p.total s

/-- Place a transfer of an origin. `bound` is (round of B, bytes a round of the peer) for a pull, whose data arrives by then. -/
def placeXfer (w : For) (ctx a early : Nat) (bound : Option (Nat × Nat)) (x : Xfer) (s : State) : Option (State × Nat × Nat) :=
  if remoteSrc s x then
    match bound with
    | none => none
    | some (rb, per) =>
      match bookReceive w (cdiv (cdiv per 8) 25600) (cdiv per 64) (isLarge s x.count) (rb - a) (a + 1) s with
      | none => none
      | some t => some (t, (a + 1) * 1024, rb * 1024)
  else
    let phase := fun e t => if remoteDst t x then sendPhase t w.stall ctx x e else localPhase t ctx x e
    let data := fun e t => runPhase w (phase e t) (preemptFor w (phase e t) t)
    let uses := xferUses s x
    placeWithWalks w ctx a (xferRanges x)
      (fun e t => placeWithFrames w a uses e data 8 ((max (early / 1024) (a + 1) + 2) * 1024) t) 64 early s

/-! ### The work of a transfer -/

/-- The pieces of a range with their global addresses, cut at 4 KiB where virtual; or the cause and address of the
translation that fails. -/
def piecesOf (s : State) (ctx : Nat) (cluster : Option Nat) (virt write : Bool) (a n : Nat) : List (Nat × Nat) ⊕ (Nat × Nat) :=
  if !virt then .inl [(a, n)] else
  let ps := pagePieces a n
  match ps.findSome? (fun p => match xlate s ctx cluster (a + p.1) write with | .inr c => some (c, a + p.1) | .inl _ => none) with
  | some f => .inr f
  | none => .inl (ps.map (fun p => (match xlate s ctx cluster (a + p.1) write with | .inl g => g | .inr _ => 0, p.2)))

def readPieces (s : State) (l : List (Nat × Nat)) : List Byte := l.flatMap (fun p => storeRead s (offOf p.1) p.2)
/-- The units' reads of pieces, counted as heat (R249). -/
def heatPieces (l : List (Nat × Nat)) (s : State) : State := l.foldl (fun t p => heatSpan (offOf p.1) p.2 t) s

/-- Serve the lines of pieces: the first fault met. -/
def servePieces (st ctx : Nat) (read : Bool) : List (Nat × Nat) → State → Option Bool × State
  | [], s => (none, s)
  | p :: r, s => match hbmRange st ctx (offOf p.1) p.2 read s with
    | (some i, t) => (some i, t)
    | (none, t) => servePieces st ctx read r t

/-- Write bytes over pieces. -/
def writePieces : List (Nat × Nat) → List Byte → State → State
  | [], _, s => s
  | p :: r, d, s => writePieces r (d.drop p.2) (unitWrite (offOf p.1) (d.take p.2) s)

/-- What a part met: nothing, or a status with its detail and whether it was injected. -/
structure PartEnd where
  status : Nat
  detail : Nat
  injected : Bool

/-- A read-only or write-only range of a unit at a global or virtual address: the pieces, once every line is served. -/
def servedRange (st ctx : Nat) (cluster : Option Nat) (virt write : Bool) (a n : Nat) (s : State) : (List (Nat × Nat) ⊕ PartEnd) × State :=
  match piecesOf s ctx cluster virt write a n with
  | .inr (cause, va) =>
    let r := xlateFault st ctx va cause s
    (.inr ⟨FAULT_TRANSLATION, r.1 % 2 ^ 32, false⟩, r.2)
  | .inl ps =>
    if ps.any (fun p => !openRange s p.1 p.2 && virt) then (.inr ⟨FAULT_EXTENT_CLOSED, 0, false⟩, s)
    else match servePieces st ctx (!write) ps s with
      | (some i, t) => (.inr ⟨FAULT_MEMORY, 0, i⟩, t)
      | (none, t) => (.inl ps, t)

/-- The end of a part of a command: its status, with PARTIAL where some parts but not all completed (R389, R390). -/
def endXfer (rid cmd np k status detail : Nat) (inj : Bool) (s : State) : State :=
  match reqOf s rid with
  | none => s
  | some q =>
    let s1 := updCmd rid cmd (fun c =>
      let done := popc 16 c.parts
      let (sta, det) := if done = 0 then (status, detail) else (PARTIAL, status + k * 256)
      { c with status := some sta, detail := det, failPart := k, endRound := curRound s }) (updReq rid (fun r => { r with injected := r.injected || inj }) s)
    match cmdOf s rid cmd with
    | some c => if popc 16 c.parts = 0 ∨ np ≤ popc 16 c.parts then s1 else cvAdd 0x8001 4 q.stall 1 s1
    | none => s1

/-- The calendar whose slots pace a command's work: what it does takes effect at the ends of its slots (R126). -/
def paceCal (s : State) (rid cmd : Nat) (w : Work) : Nat :=
  match w with
  | .gather _ => calEmb
  | .search _ | .side .. => calSearch
  | .xfer x =>
    if remoteSrc s x || !remoteDst s x then calHbm 0
    else (minOf ((s.gate.books.filter (fun b => b.rid == rid && b.cmd == cmd && decide (88 ≤ b.cal) && decide (b.cal < 120))).map (·.cal))).getD (calLink 0)
  | _ => calHbm 0
/-- Slots of a command's pacing calendar that have not ended, and those that have. -/
def paceLeft (s : State) (rid i : Nat) (c : Cmd) : Nat := slotsLeft s rid i (paceCal s rid i c.work) c.startSlot
def slotsEnded (s : State) (rid i : Nat) (c : Cmd) : Nat := c.slots - paceLeft s rid i c
/-- A placed command with the slots that pace it. -/
def withPace (s : State) (rid i : Nat) (c : Cmd) : Cmd := { c with slots := paceLeft s rid i c }

/-- Move bytes `[lo, hi)` of one part of a transfer whose source is local: read them, then write them here or send them. Of a
failing part the parts before it are complete (R389). -/
def moveBytes (rid cmd st ctx : Nat) (x : Xfer) (ticket lo hi : Nat) (s : State) : State :=
  match cmdOf s rid cmd with
  | none => s
  | some c =>
    if c.status.isSome ∨ hi ≤ lo then s else
    let i := lo / partSize x.count
    let n := hi - lo
    let fail := fun (e : PartEnd) (t : State) =>
      endXfer rid cmd (partCount x.count) i e.status e.detail e.injected
        (updCmd rid cmd (fun c => { c with parts := if remoteDst s x then c.parts else 2 ^ i - 1 }) t)
    match servedRange st ctx none x.vSrc false (x.src + lo) n s with
    | (.inr e, t) => fail e t
    | (.inl sp, t) =>
      let data := readPieces t sp
      let t1 := heatPieces sp t
      let moved := updCmd rid cmd (fun c => { c with delivered := c.delivered + n })
      if remoteDst s x then
        moved (sendRange st x.src x.dst lo data x.tally x.packet (hi = min ((i + 1) * partSize x.count) x.count) (hi = x.count) ticket (act rid st 11 n t1))
      else
        match servedRange st ctx none x.vDst true (x.dst + lo) n t1 with
        | (.inr e, t2) => fail e t2
        | (.inl dp, t2) => moved (cvAdd 0x8001 2 st n (writePieces dp data t2))

/-- Move bytes of a transfer up to `hi`, part by part. -/
def moveTo (rid cmd st ctx : Nat) (x : Xfer) (ticket hi : Nat) (s : State) : State :=
  (List.range (partCount x.count)).foldl (fun t i =>
    match cmdOf t rid cmd with
    | some c => moveBytes rid cmd st ctx x ticket (max c.delivered (i * partSize x.count)) (min hi (min ((i + 1) * partSize x.count) x.count)) t
    | none => t) s

/-- The bytes of a transfer that are due once `k` of its `n` slots have ended: whole lines, and of a remote destination whole
pages of the source (R393). -/
def bytesDue (s : State) (x : Xfer) (k n : Nat) : Nat :=
  if n ≤ k then x.count else
  let b := min x.count (64 * share (cdiv x.count 64) n 0 k)
  if remoteDst s x then (let e := (x.src + b) / 4096 * 4096 - x.src; if b = x.count then b else e) else b

/-- The progress of a transfer whose source is here (R62, R126): at the end of each of its slots the bytes the slot carries are
moved, and the activity of its share is counted (R99). -/
def paceXfer (rid cmd st ctx : Nat) (c : Cmd) (x : Xfer) (ticket : Nat) (s : State) : State :=
  let k := slotsEnded s rid cmd c
  let lines := share (cdiv x.count 64) c.slots c.done (k - c.done)
  let flits := share (cdiv x.count 256) c.slots c.done (k - c.done)
  let large := isLarge s x.count
  let s1 := actAs large rid st 0 (if remoteDst s x then lines else 2 * lines) s
  let s2 := if remoteDst s x then actAs large rid st 4 flits s1 else s1
  moveTo rid cmd st ctx x ticket (bytesDue s x k c.slots) s2

/-- A transfer's booked start: the frames it uses are taken. Where the source is remote the data comes as trains. -/
def startXfer (x : Xfer) (s : State) : State := takeFrames (xferUses s x) s

/-- The lines a part writes here still have a back-invalidation open (R383). -/
def snpsOpen (s : State) (off n : Nat) : Bool := s.coh.snps.any (fun x => decide (off / 64 ≤ x.line) && decide (64 * x.line < off + n))

/-! ### Counting what is written (R211) -/

/-- The destination of bytes `[lo, hi)` of a transfer, as pieces of the store; none where a translation is gone. -/
def dstPieces (s : State) (ctx : Nat) (x : Xfer) (lo hi : Nat) : List (Nat × Nat) :=
  match piecesOf s ctx none x.vDst true (x.dst + lo) (hi - lo) with
  | .inl l => l
  | .inr _ => []

/-- The tally that takes a command's bytes as they are written, or the packets of a segment's rounds and of a committed insert
or delete (R211, R323, R361, R365, R383, R422). -/
def byteTally (s : State) (w : Work) : Nat :=
  match w with
  | .gather d => d.tally
  | .search d => d.tally
  | .xfer x => if x.packet || remoteDst s x then 0xFFFF else x.tally
  | .segment d => d.tally
  | .side _ _ t _ _ _ _ => t
  | _ => 0xFFFF

/-- A command's bytes written and not yet counted have no back-invalidation open. -/
def bytesClosed (s : State) (q : Req) (c : Cmd) : Bool :=
  match c.work with
  | .xfer x => (dstPieces s q.ctx x c.counted c.delivered).all (fun p => !snpsOpen s (offOf p.1) p.2)
  | _ => !ownSnps s q.rid

/-- The bytes not yet counted whose back-invalidations have closed are counted (R211). -/
def countBytes (q : Req) (i : Nat) (s : State) : State :=
  match cmdOf s q.rid i with
  | some c =>
    if c.counted < c.delivered && bytesClosed s q c then
      advance q.stall (byteTally s c.work) (c.delivered - c.counted) (updCmd q.rid i (fun c => { c with counted := c.delivered }) s)
    else s
  | none => s

end Sys2Proof.Machine
end

