-- ==== Sys2Proof/Machine/Gather.lean ====
section
/-! DEFINITION. Embedding gather and pooling: tables, the batch, its booking, the row cache and the switches of table
versions (R310-R339). -/

namespace Sys2Proof.Machine
open Sys2Proof

/-! ### Tables (R310-R313) -/

def tableOf (s : State) (t : Nat) : Table := AMap.get {} s.emb.tables t
def setTable (t : Nat) (x : Table) (s : State) : State := { s with emb := { s.emb with tables := AMap.set {} s.emb.tables t x } }
def tableDim (s : State) (t : Nat) : Nat := cv s 0x7100 2 t
def tableFmt (s : State) (t : Nat) : Nat := cv s 0x7100 3 t
def tableStride (s : State) (t : Nat) : Nat := cv s 0x7100 4 t
def tableSet (s : State) (t : Nat) : Nat := cv s 0x7100 5 t

def knownFmt (f : Nat) : Bool := [0x02, 0x03, 0x05, 0x06, 0x09, 0x0A, 0x0B, 0x10, 0x11].contains f
/-- Bytes of a row of dimension `d` (R311). -/
def rowBytes (fmt d : Nat) : Nat :=
  match fmt with
  | 0x05 | 0x06 => d + d / 32
  | 0x09 => d / 2 + d / 32
  | 0x0A | 0x0B => 2 * d
  | 0x10 => 4 * d
  | 0x11 => d + 4
  | _ => d
/-- The dimension is valid for the format (R311). -/
def dimOk (fmt d : Nat) : Bool :=
  decide (1 ≤ d) && decide (d ≤ 4096) && (!(fmt == 5 || fmt == 6 || fmt == 9) || d % 32 == 0)
/-- The table's entries agree and are configured (R312). -/
def tableAgrees (s : State) (t : Nat) : Bool :=
  knownFmt (tableFmt s t) && dimOk (tableFmt s t) (tableDim s t) && decide (rowBytes (tableFmt s t) (tableDim s t) ≤ tableStride s t)
  && tableStride s t != 0
def tableRowBytes (s : State) (t : Nat) : Nat := rowBytes (tableFmt s t) (tableDim s t)
def footprint (s : State) (t : Nat) : Nat := cdiv (tableRowBytes s t) 64
def slotBase (t : Table) (k : Nat) : Nat := (t.slots.getD k (0,0,0,0)).1
def slotRows (t : Table) (k : Nat) : Nat := (t.slots.getD k (0,0,0,0)).2.1
def slotVer (t : Table) (k : Nat) : Nat := (t.slots.getD k (0,0,0,0)).2.2.1
def slotPins (t : Table) (k : Nat) : Nat := (t.slots.getD k (0,0,0,0)).2.2.2
/-- The line span of the current version (R312). -/
def lineSpan (s : State) (t : Nat) : Nat :=
  let b := slotBase (tableOf s t) ((tableOf s t).version % 4)
  if b % 64 = 0 ∧ tableStride s t % 64 = 0 then footprint s t else (tableRowBytes s t + 55) / 64 + 1

/-- Element `i` of a row, decoded to FP32 with one rounding (R311, R319). -/
def rowElem (fmt d : Nat) (row : List Byte) (i : Nat) : Nat :=
  match fmt with
  | 0x05 | 0x06 => toF32 (scaleE8 (row.getD (d + i / 32) 0).toNat (decodeElem fmt (row.getD i 0).toNat))
  | 0x09 => toF32 (scaleE8 (row.getD (d / 2 + i / 32) 0).toNat (decodeElem 0x9 (packedElem 0x9 row i)))
  | 0x11 => toF32 (Num.mul (decodeInt 8 (row.getD i 0).toNat) (ofF32 (leNat (slice row d 4))))
  | _ => toF32 (decodeElem fmt (packedElem fmt row i))

/-! ### The batch descriptor (R314) -/

def batchOf (a : Nat) (l : List Byte) : BatchD :=
  let w := leNat l
  { addr := a, tables := (List.range 16).map (fun j => bits w (768 + 16 * j + 15) (768 + 16 * j)), outAddr := bits w 767 704,
    weightAddr := bits w 703 640, indexAddr := bits w 639 576, bagAddr := bits w 575 512, nI := bits w 511 480, nU := bits w 479 448,
    nE := bits w 447 416, outStride := bits w 415 384, bags := bits w 383 368, tally := bits w 367 352, clusters := bits w 351 336,
    pool := bits w 335 334, outFmt := bits w 333 332, outSpace := bits w 331 330, idx64 := bit w 329, dropOob := bit w 328,
    vBag := bit w 327, vIndex := bit w 326, vWeight := bit w 325, vOut := bit w 324 }
def batchReserved (l : List Byte) : Bool := leNat l % 2 ^ 324 != 0

def usedTables (d : BatchD) : List Nat := dedup (d.tables.filter (· ≠ 0xFFFF))
def outElem (d : BatchD) : Nat := if d.outFmt = 0 then 4 else 2
def largestOut (s : State) (d : BatchD) : Nat := maxOf ((usedTables d).map (fun t => tableDim s t * outElem d))
def selClusters (d : BatchD) : List Nat := setBits 16 d.clusters
/-- Bags each selected cluster takes (R316). -/
def bagsPerCluster (d : BatchD) : Nat := cdiv d.bags (selClusters d).length

/-- Output rows fit within OUT_STRIDE and their space (R316, R317). -/
def outputFits (s : State) (st : Nat) (d : BatchD) : Bool :=
  decide (largestOut s d ≤ d.outStride) && d.outStride % 8 == 0
  && (if d.outSpace = 0 then
        d.vOut || pinnedRange s st d.outAddr ((d.bags - 1) * d.outStride + largestOut s d)
      else (selClusters d).all (fun k => decide (d.outAddr + (bagsPerCluster d - 1) * d.outStride + largestOut s d ≤ storeSize s st k)))

/-- The stall whose row-cache ways serve a table for a taker (R333). -/
def waysOwner (s : State) (st t : Nat) : Nat :=
  if cv s 0x7100 1 t = st then st else (pactGiver s 2 st t).getD st
def rowcacheLines (s : State) (st : Nat) : Nat := 49152 * popc 32 (cv s 0x3011 1 st)

/-- The ranges that a batch names by global address for its arrays: the bag array whole; the
index and weight arrays, whose bounds the bags alone give, by their first word. -/
def arrayRanges (s : State) (st : Nat) (d : BatchD) : List (Nat × Nat) :=
  List.filter (fun (x : Nat × Nat) => readsRange s st x.1 x.2) <| (if d.vBag then [] else [(d.bagAddr, 8 * d.bags)]) ++ (if d.vIndex || d.nI == 0 then [] else [(d.indexAddr, if d.idx64 then 8 else 4)])
  ++ (if d.pool != 2 || d.vWeight || d.nI == 0 then [] else [(d.weightAddr, 4)])

/-- GATHER_BAGS (R317): the ordered checks. -/
def checkGather (s : State) (st ctx : Nat) (e : Entry) : Chk :=
  match resolve s st e.modeA e.opa 128 with
  | .bad x => .bad x 0
  | .virt _ => .bad INVALID 0
  | .glob a pins =>
    match firstFail [(localRange s a 128 && offOf a % 128 == 0, INVALID, 0), (pinnedRange s st a 128, PROTECTION, 0)] with
    | some (x, y) => .bad x y
    | none =>
      let l := storeRead s (offOf a) 128
      let d := batchOf a l
      let ts := usedTables d
      let r := maxOf (ts.map (fun t => tableRowBytes s t))
      match firstFail [
        ((!d.vBag && !d.vIndex && !d.vWeight && !d.vOut) || cv s 0x5810 1 ctx != 0, PROTECTION, 0),
        (ts.all (fun t => cv s 0x7100 1 t == st || (pactGiver s 2 st t).isSome), PROTECTION, 0),
        (d.tally == 0xFFFF || reachesTally s st d.tally, PROTECTION, 0),
        (d.bags == 0 || d.vBag || readsPinned s st d.bagAddr (8 * d.bags), PROTECTION, 0),
        (!rangeBad s (offOf a) 128, INVALID, 0),
        (!batchReserved l && d.pool != 3 && d.outFmt != 3 && d.outSpace ≤ 1 && !(d.vOut && d.outSpace != 0), INVALID, 0),
        ((d.pool == 2 || (d.weightAddr == 0 && !d.vWeight)) && (d.outSpace == 1 || d.clusters == 0) && (d.outSpace == 0 || d.clusters != 0), INVALID, 0),
        (decide (1 ≤ d.bags) && decide (d.bags ≤ cv s 0x7010 1) && decide (d.nI ≤ cv s 0x7010 2), INVALID, 0),
        (decide (1 ≤ d.nU) && decide (d.nU ≤ max 1 d.nI) && decide (d.nE ≤ d.nI), INVALID, 0),
        (d.bagAddr % 8 == 0 && d.indexAddr % (if d.idx64 then 8 else 4) == 0 && d.weightAddr % 4 == 0, INVALID, 0),
        (!ts.isEmpty && ts.all (fun t => tableAgrees s t && (tableOf s t).valid), INVALID, 0),
        (outputFits s st d, INVALID, 0),
        (d.pool != 2 || cv s 0x7200 3 st == 1, PROTECTION, 0),
        (ts.all (fun t =>
          let x := tableOf s t
          openRange s (slotBase x (x.version % 4)) (slotRows x (x.version % 4) * tableStride s t)) && openRange s a 128
          && (arrayRanges s st d).all (fun x => openRange s x.1 x.2)
          && (d.outSpace != 0 || d.vOut || openRange s d.outAddr ((d.bags - 1) * d.outStride + largestOut s d)), FAULT_EXTENT_CLOSED, 0),
        (ts.all (fun t => decide (d.nU * cdiv r 64 ≤ rowcacheLines s (waysOwner s st t))), REFUSED_QUOTA, 2 ^ 64)] with
      | some (x, y) => .bad x y
      | none =>
        let verExts := ts.flatMap (fun t => let x := tableOf s t
          extsOf (offOf (slotBase x (x.version % 4))) (slotRows x (x.version % 4) * tableStride s t))
        let outExts := if d.outSpace = 0 && !d.vOut then extsOf (offOf d.outAddr) ((d.bags - 1) * d.outStride + largestOut s d) else []
        let tp := ts.map (fun t => (⟨1, t, (tableOf s t).version % 4⟩ : Pin))
        .good { opcode := 0x01, work := .gather d, pins := pins ++ tp, exts := dedup (extsOf (offOf a) 128 ++ verExts ++ outExts ++ (arrayRanges s st d).flatMap (fun x => extsOf (offOf x.1) x.2)) }

/-! ### Placement (R324-R327, R333, R337) -/

/-- The absolute slot after every unit slot of the stall's earlier gathers; where one of them holds long-calendar
counts or this batch is BULK, the round after its last (R324). -/
def afterGathers (s : State) (st : Nat) (bulk : Bool) : Nat :=
  let bs := s.gate.books.filter (fun b => b.stall == st && b.cal == calEmb)
  maxOf (bs.map (fun b => if bulk || b.bulk || b.slots.isEmpty then (b.round + 1) * 1024 else b.round * 1024 + maxOf b.slots + 1))

/-- The slot at which every booked set-switch window that names one of these tables' sets has ended (R337). -/
def afterWindows (s : State) (st : Nat) (ts : List Nat) : Nat :=
  maxOf ((s.gate.pauses.filter (fun p => p.stall == st && (match reqOf s p.rid with
    | some q => q.cmds.any (fun c => match c.work with | .setSwitch set _ _ _ _ => ts.any (fun t => tableSet s t == set) | _ => false)
    | none => false))).map (fun p => cdiv (4 * (p.start + p.len)) 5))

/-- Unit slots of a batch (R324). -/
def gatherSlots (d : BatchD) (dim : Nat) : Nat :=
  max (cdiv (d.nI + d.bags) 64) (max (cdiv d.nU 8) (cdiv ((d.nE + d.bags) * dim) 4096))

/-- The virtual ranges of a batch (R237). -/
def gatherRanges (d : BatchD) (rows : Nat) : List VRange :=
  (if d.vBag then [⟨d.bagAddr, 8 * d.bags, false, []⟩] else [])
  ++ (if d.vIndex then [⟨d.indexAddr, max 1 (d.nI * (if d.idx64 then 8 else 4)), false, []⟩] else [])
  ++ (if d.vWeight then [⟨d.weightAddr, max 1 (d.nI * 4), false, []⟩] else [])
  ++ (if d.vOut then [⟨d.outAddr, (d.bags - 1) * d.outStride + rows, true, []⟩] else [])

def gatherPhase (s : State) (st ctx early : Nat) (d : BatchD) : Phase :=
  let ts := usedTables d
  let dim := max 1 (maxOf (ts.map (fun t => tableDim s t)))
  let span := maxOf (ts.map (fun t => lineSpan s t))
  let w := (if d.vIndex then 0 else if d.idx64 then 8 else 4) + (if d.pool = 2 && !d.vWeight then 4 else 0) + (if d.vBag then 0 else 8)
  let arrays := fun u => min (d.nI + d.bags) (64 * u) * w
  let outs := fun u => if d.outSpace = 0 then min d.bags (4096 * u / dim) * d.outStride else 0
  let total := gatherSlots d dim
  let virt := sumOf ((gatherRanges d (largestOut s d)).map (fun v => stackBytes s ctx true v.va v.len))
  let stack := fun e u => min d.nU (8 * u) * 64 * span + cdiv (arrays u) 8 + 8192
    + (if d.outSpace = 0 && !d.vOut then cdiv (outs u) 8 + 8192 else 0) + share virt total e u
  let givers := (ts.map (fun t => waysOwner s st t)).filter (· ≠ st)
  { total := gatherSlots d dim, cals := [(calEmb, 0)], early := early,
    side := fun e u => let n := cdiv (stack e u) 25600; (List.range 8).map (fun k => (calHbm k, 0, n)),
    chit := fun _ _ => 0,
    flt := fun _ u => cdiv (min d.nI (64 * u) * cv s 0x2020 7 + min d.nE (4096 * u / dim) * cv s 0x2020 8) 1000000
      + ujOf s 0 (min d.nU (8 * u) * span + cdiv (min (d.nI + d.bags) (64 * u) * (8 + (if d.idx64 then 8 else 4) + (if d.pool = 2 then 4 else 0))) 64 + cdiv (outs u) 64),
    allow := fun r =>
      !(d.outSpace == 1 && s.gate.books.any (fun b => b.stall == st && b.round == r && (selClusters d).any (fun k => b.cal == calPitch k)))
      && !(s.gate.books.any (fun b => b.cal == calEmb && b.round == r && givers.contains b.stall)) }

def placeGather (w : For) (ctx a early : Nat) (d : BatchD) (s : State) : Option (State × Nat × Nat) :=
  let e := max early (max (afterGathers s w.stall w.bulk) (afterWindows s w.stall (usedTables d)))
  placeWithWalks w ctx a (gatherRanges d (largestOut s d)) (fun e t => runPhase w (gatherPhase t w.stall ctx e d) t) 64 e s

/-! ### The row cache (R328-R333) -/

def stallWays (s : State) (st : Nat) : Nat := popc 32 (cv s 0x3011 1 st)
/-- The counter of a key (R329). -/
def freqKey (s : State) (st t row : Nat) : Nat :=
  st * 2 ^ 32 + (bits row 22 0 ^^^ bits row 39 23 ^^^ bits t 15 0) % (262144 * stallWays s st)
def raiseFreq (st t row : Nat) (s : State) : State :=
  let k := freqKey s st t row
  { s with emb := { s.emb with freq := AMap.set 0 s.emb.freq k (min 15 (AMap.get 0 s.emb.freq k + 1)) } }
def findRow (s : State) (st t ver row : Nat) : Option RcEnt :=
  s.emb.cache.find? (fun e => e.stall == st && e.table == t && e.version == ver && e.row == row)
/-- An entry of a version no longer current and not pinned, or marked by a set switch (R330). -/
def rowStale (s : State) (e : RcEnt) : Bool :=
  e.marked || ((tableOf s e.table).version != e.version && (tableOf s e.table).slots.all (fun x => !(x.2.2.1 == e.version && x.2.2.2 != 0)))
/-- The order of eviction (R330). -/
def evictBefore (s : State) (x y : RcEnt) : Bool :=
  let a := rowStale s x; let b := rowStale s y
  let fx := AMap.get 0 s.emb.freq (freqKey s x.stall x.table x.row); let fy := AMap.get 0 s.emb.freq (freqKey s y.stall y.table y.row)
  if a != b then a
  else if fx ≠ fy then decide (fx < fy)
  else if x.fill ≠ y.fill then decide (x.fill < y.fill)
  else decide (x.first < y.first)
def firstEvict (s : State) : List RcEnt → Option RcEnt
  | [] => none
  | e :: r => match firstEvict s r with
    | none => some e
    | some y => if evictBefore s e y then some e else some y
def cacheUsed (s : State) (st : Nat) : Nat := sumOf ((s.emb.cache.filter (fun e => e.stall == st)).map (fun e => e.places.length))
/-- Evict unheld entries of a stall until `n` lines are free. -/
def evictFor (st n : Nat) : Nat → State → State
  | 0, s => s
  | fuel + 1, s =>
    if cacheUsed s st + n ≤ rowcacheLines s st then s else
    match firstEvict s (s.emb.cache.filter (fun e => e.stall == st && e.held.isEmpty)) with
    | none => s
    | some v => evictFor st n fuel { s with emb := { s.emb with cache := s.emb.cache.filter (fun e => e != v) } }
/-- The `n` lowest lines from `l` on that are not in a list. -/
def lowestFree (used : List Nat) : (fuel n l : Nat) → List Nat
  | 0, _, _ => []
  | _, 0, _ => []
  | fuel + 1, n + 1, l => if used.contains l then lowestFree used fuel (n + 1) (l + 1) else l :: lowestFree used fuel n (l + 1)
/-- The lines a fetched row takes: the lowest free ones of the stall's ways, which need not be adjacent (R328, R330; log entry 13). -/
def freeLines (s : State) (st n : Nat) : List Nat :=
  let used := (s.emb.cache.filter (fun e => e.stall == st)).flatMap (·.places)
  lowestFree used (used.length + n) n 0

/-- The row-cache locator of a line: the way that holds it and the line within the way (R494). -/
def rowLocator (s : State) (st line : Nat) : Nat :=
  0xFF * 2 ^ 40 + (setBits 32 (cv s 0x3011 1 st)).getD (line / 49152) 0 * 2 ^ 32 + line % 49152
/-- The word number under which a row-cache line is remembered as uncorrectable. -/
def rowWord (st line : Nat) : Nat := 2 ^ 60 + st * 2 ^ 32 + line
/-- Read the lines of an entry in a stall's ways, in ascending order (R331); a real uncorrectable one is recorded and counted, with the
status it comes to. -/
def rowLines (st ctx ws status : Nat) : List Nat → State → Option Bool × State
  | [], s => (none, s)
  | l :: r, s =>
    match sramWord st ctx (rowLocator s ws l) (rowWord ws l) s with
    | (some true, t) => (some true, t)
    | (some false, t) => (some false, cvAdd 0x6020 2 st 1 (detectRec 0x02 (rowLocator s ws l) 0 ctx st status false t))
    | (none, t) => rowLines st ctx ws status r t

/-- Look a key up once for a batch (R318, R331): the row's bytes and whether it was fetched, or the end it met. -/
def lookupRow (rid st ctx t ver base stride n row : Nat) (s : State) : ((List Byte × Bool) ⊕ PartEnd) × State :=
  let ws := waysOwner s st t
  let s0 := raiseFreq ws t row s
  let found := findRow s0 ws t ver row
  let served := match found with
    | some e => rowLines st ctx ws 0 e.places s0
    | none => (some false, s0)
  match found, served with
  | some e, (none, s1) =>
    let held := { s1 with emb := { s1.emb with cache := s1.emb.cache.map (fun x => if x = e then { x with held := dedup (rid :: x.held) } else x) } }
    (.inl (e.data, false), cvAdd 0x7200 6 st 1 held)
  | _, (_, s1) =>
    let s2 := match found with
      | some e => { s1 with emb := { s1.emb with cache := s1.emb.cache.filter (fun x => x != e) } }
      | none => s1
    let off := offOf base + row * stride
    match hbmRange st ctx off n true s2 with
    | (some i, s3) => (.inr ⟨FAULT_MEMORY, 0, i⟩, s3)
    | (none, s3) =>
      let data := storeRead s3 off n
      let lines := cdiv n 64
      let s4 := evictFor ws lines s3.emb.cache.length s3
      let x : RcEnt := { stall := ws, table := t, version := ver, row := row, fill := now s4, held := [rid], data := data,
                         places := freeLines s4 ws lines }
      let s5 := { s4 with emb := { s4.emb with cache := s4.emb.cache ++ [x] },
                          mem := { s4.mem with ueWords := s4.mem.ueWords.filter (fun w => !x.places.any (fun l => w == rowWord ws l)) } }
      (.inl (data, true), heatSpan off n (cvAdd 0x7200 7 st 1 s5))

/-- The batch's rows are released at its end (R318). -/
def releaseRows (rid : Nat) (s : State) : State :=
  { s with emb := { s.emb with cache := s.emb.cache.map (fun e => { e with held := e.held.filter (· != rid) }) } }

/-! ### The batch's work (R318-R323) -/

/-- A batch under way: the run of a request's command. -/
def batchRun (s : State) (rid cmd : Nat) : Option GatherRun := AMap.get none s.emb.batches (rid * 64 + cmd)
def setBatch (rid cmd : Nat) (g : Option GatherRun) (s : State) : State :=
  { s with emb := { s.emb with batches := AMap.set none s.emb.batches (rid * 64 + cmd) g } }
/-- A run that met an end. -/
def GatherRun.stop (g : GatherRun) (e : PartEnd) : GatherRun := { g with fin := some (e.status, e.detail, e.injected) }

/-- Entries in an order nothing constrains: accumulation order is open (R322). -/
def insertKeyed {α : Type} (x : Nat × α) : List (Nat × α) → List (Nat × α)
  | [] => [x]
  | y :: r => if x.1 < y.1 then x :: y :: r else y :: insertKeyed x r
def shuffled {α : Type} (ctr : Nat) (l : List α) : List α :=
  ((l.zipIdx.map (fun (x, i) => ((Config.free 32 (ctr + i)).toNat, x))).foldl (fun a x => insertKeyed x a) []).map (·.2)

/-- Read words of an array for a batch: global addresses must lie in pinned extents of the stall (R321). -/
def readArray (st ctx b : Nat) (virt : Bool) (a n : Nat) (s : State) : (List Byte ⊕ PartEnd) × State :=
  if n = 0 then (.inl [], s) else
  if !virt && !readsPinned s st a n then (.inr ⟨PROTECTION, b, false⟩, s)
  else match servedRange st ctx none virt false a n s with
    | (.inr e, t) => (.inr e, t)
    | (.inl ps, t) => (.inl (readPieces t ps), heatPieces ps t)

/-- The bag entries of a bag: (row, multiplicity, weights in the order met). -/
def addEntry (row w : Nat) : List (Nat × Nat × List Nat) → List (Nat × Nat × List Nat)
  | [] => [(row, 1, [w])]
  | (r, m, ws) :: rest => if r = row then (r, m + 1, ws ++ [w]) :: rest else (r, m, ws) :: addEntry row w rest

/-- W of an entry: the sum of its weights, in an order nothing constrains (R322). -/
def weightSum (ctr : Nat) (ws : List Nat) : Nat :=
  match shuffled ctr ws with
  | [] => 0
  | w :: r => r.foldl fadd32 w

/-- The element `i` of a bag's output (R319, R320): entries are (coefficient, row bytes). -/
def bagElem (fmt d outFmt : Nat) (mean : Option Nat) (es : List (Num × List Byte)) (i : Nat) : Nat :=
  let acc := es.foldl (fun a e => fsum32 a [Num.mul e.1 (ofF32 (rowElem fmt d e.2 i))]) 0
  let v := match mean with | some n => toF32 (Num.divNat (ofF32 acc) n) | none => acc
  if outFmt = 0 then v else if outFmt = 1 then toBf16 (ofF32 v) else toF16 (ofF32 v)

/-- A held row is read again (R318, R331): an uncorrectable line of it ends the batch. -/
def heldRow (st ctx t ver row : Nat) (s : State) : Option Bool × State :=
  match findRow s (waysOwner s st t) t ver row with
  | some e => rowLines st ctx (waysOwner s st t) FAULT_MEMORY e.places s
  | none => (none, s)

/-- Look up the keys of a bag not looked up before; the rows of the others are held. -/
def lookupKeys (rid st ctx t slot n : Nat) : List Nat → GatherRun → State → GatherRun × State
  | [], g, s => (g, s)
  | row :: r, g, s =>
    if g.rows.any (fun x => x.1 == (t, row)) then
      match heldRow st ctx t (slotVer (tableOf s t) slot) row s with
      | (some i, s') => (g.stop ⟨FAULT_MEMORY, 0, i⟩, s')
      | (none, s') => lookupKeys rid st ctx t slot n r g s'
    else
      let tb := tableOf s t
      let off := offOf (slotBase tb slot) + row * tableStride s t
      match lookupRow rid st ctx t (slotVer tb slot) (slotBase tb slot) (tableStride s t) n row s with
      | (.inr e, s') => (g.stop e, s')
      | (.inl (data, fetched), s') =>
        lookupKeys rid st ctx t slot n r { g with rows := g.rows ++ [((t, row), data)], fetched := g.fetched + (if fetched then 1 else 0),
                                                  unLine := g.unLine + (if fetched then (off + n + 63) / 64 - off / 64 else 0) } s'

/-- Write a bag's output row (R316). -/
def writeBag (st ctx b : Nat) (d : BatchD) (data : List Byte) (s : State) : Option PartEnd × State :=
  if d.outSpace = 0 then
    let a := d.outAddr + b * d.outStride
    match servedRange st ctx none d.vOut true a data.length s with
    | (.inr e, t) => (some e, t)
    | (.inl ps, t) => (none, writePieces ps data t)
  else
    let q := bagsPerCluster d
    let k := (selClusters d).getD (b / q) 0
    (none, writeSpace k (storeList s st k) (d.outAddr + b % q * d.outStride) data s)

/-- Unit slots the work up to here needs (R324): its indices and bags, its keys, its entries. -/
def GatherRun.need (g : GatherRun) (dim : Nat) : Nat :=
  max (cdiv (g.counted + g.bag) 64) (max (cdiv g.keys.length 8) (cdiv ((g.entries + g.bag) * dim) 4096))
def batchDim (s : State) (d : BatchD) : Nat := max 1 (maxOf ((usedTables d).map (fun t => tableDim s t)))

/-- Pool the entries of a bag: its keys looked up, its output row formed (R318-R320). -/
def poolBag (rid st ctx : Nat) (d : BatchD) (slot b t kept : Nat) (live : List (Nat × Num)) (g1 : GatherRun) (s5 : State) : GatherRun × State :=
  let n := tableRowBytes s5 t
  match lookupKeys rid st ctx t slot n (live.map (·.1)) g1 s5 with
  | (g2, s6) =>
    if g2.fin.isSome then (g2, s6) else
    let dim := tableDim s6 t
    let fmt := tableFmt s6 t
    let terms := (shuffled (orderIx s6 st) live).map (fun c =>
      (c.2, match g2.rows.find? (fun x => x.1 == (t, c.1)) with | some x => x.2 | none => []))
    let mean := if d.pool = 1 && !terms.isEmpty then some kept else none
    let out := (List.range dim).flatMap (fun i => leBytes (outElem d) (bagElem fmt dim d.outFmt mean terms i))
    let g3 := { g2 with unEnt := g2.unEnt + live.length, bag := b + 1 }
    ({ g3 with outs := g3.outs ++ [(g3.need (batchDim s6 d), b, out)] }, useOrders st (live.length + 1) (cvAdd 0x7200 5 st live.length s6))

/-- Take the entries of a bag whose words were read: `il` its indices, `wts` its weights (R319, R321, R322). -/
def takeBag (rid st ctx : Nat) (d : BatchD) (slotOf : Nat → Nat) (b t count : Nat) (il wts : List Byte) (g : GatherRun) (s3 : State) : GatherRun × State :=
  let isz := if d.idx64 then 8 else 4
  let rows := slotRows (tableOf s3 t) (slotOf t)
  let idx := (List.range count).map (fun i => (leNat (slice il (isz * i) isz), leNat (slice wts (4 * i) 4)))
  let oob := fun (x : Nat × Nat) => decide (rows ≤ x.1) || decide (2 ^ 40 ≤ x.1)
  let bad := (idx.filter oob).length
  let kept := idx.filter (fun x => !oob x)
  let es := kept.foldl (fun l x => addEntry x.1 x.2 l) []
  let keys := dedup (g.keys ++ es.map (fun e => (t, e.1)))
  if (bad ≠ 0 ∧ !d.dropOob) ∨ d.nU < keys.length ∨ d.nE < g.entries + es.length then (g.stop ⟨INVALID, b, false⟩, s3)
  else
    let s4 := cvAdd 0x7200 9 st bad (cvAdd 0x7200 4 st count s3)
    -- the coefficient of each entry, WSUM entries of weight zero skipped
    let coef := es.map (fun e => (e.1, if d.pool = 2 then ofF32 (weightSum (orderIx s4 st) e.2.2) else Num.ofNat e.2.1))
    let skip := if d.pool = 2 then (coef.filter (fun c => c.2.isZero)).length else 0
    let live := if d.pool = 2 then coef.filter (fun c => !c.2.isZero) else coef
    poolBag rid st ctx d (slotOf t) b t kept.length live
      { g with keys := keys, entries := g.entries + es.length, counted := g.counted + count, unIdx := g.unIdx + count }
      (cvAdd 0x7200 8 st skip (useOrders st (count + 1) s4))

/-- The next bag of a batch: its word, its index words and its weights are read, its entries taken (R315, R321). -/
def doBag (rid st ctx : Nat) (d : BatchD) (slotOf : Nat → Nat) (g : GatherRun) (s : State) : GatherRun × State :=
  let b := g.bag
  match readArray st ctx b d.vBag (d.bagAddr + 8 * b) 8 s with
  | (.inr e, t) => (g.stop e, t)
  | (.inl wl, s1) =>
    let w := leNat wl
    let count := bits w 48 32
    let first := bits w 31 0
    let t := d.tables.getD (bits w 55 52) 0xFFFF
    let isz := if d.idx64 then 8 else 4
    if bits w 63 56 ≠ 0 ∨ bits w 51 49 ≠ 0 ∨ t = 0xFFFF ∨ cv s1 0x7010 3 < count ∨ d.nI < g.counted + count
        ∨ (b + 1 = d.bags ∧ g.counted + count ≠ d.nI) then (g.stop ⟨INVALID, b, false⟩, s1)
    else match readArray st ctx b d.vIndex (d.indexAddr + isz * first) (isz * count) s1 with
    | (.inr e, t) => (g.stop e, t)
    | (.inl il, s2) =>
      match (if d.pool = 2 then readArray st ctx b d.vWeight (d.weightAddr + 4 * first) (4 * count) s2 else (.inl [], s2)) with
      | (.inr e, t) => (g.stop e, t)
      | (.inl wts, s3) =>
        let all := isz + if d.pool = 2 then 4 else 0
        let lines := fun (n bags : Nat) => cdiv (n * all) 64 + cdiv (8 * bags) 64
        takeBag rid st ctx d slotOf b t count il wts
          { g with unLine := g.unLine + lines (g.counted + count) (b + 1) - lines g.counted b } s3

/-- Take bags while the slots that have ended reach into them. -/
def takeBags (rid st ctx : Nat) (d : BatchD) (slotOf : Nat → Nat) (k : Nat) : Nat → GatherRun × State → GatherRun × State
  | 0, x => x
  | n + 1, x =>
    if x.1.fin.isSome || decide (d.bags ≤ x.1.bag) || decide (k ≤ x.1.need (batchDim x.2 d)) && decide (0 < x.1.bag) then x
    else takeBags rid st ctx d slotOf k n (doBag rid st ctx d slotOf x.1 x.2)

/-- Write the output rows whose last entry the ended slots have accumulated (R323); all of them with the last slot. A row that cannot be
written ends the batch at its bag, before what a later bag met; rows of the bags before an end stand (R321). -/
def writeBags (rid cmd st ctx : Nat) (d : BatchD) (k : Nat) (final : Bool) (x : GatherRun × State) : GatherRun × State :=
  let due := x.1.outs.filter (fun o => final || decide (o.1 ≤ k))
  let r := due.foldl (fun (y : Bool × GatherRun × State) o =>
    if y.1 then y else
    match writeBag st ctx o.2.1 d o.2.2 y.2.2 with
    | (some e, t) => (true, { y.2.1 with fin := none }.stop e, t)
    | (none, t) => (false, { y.2.1 with unLine := y.2.1.unLine + (if d.outSpace = 0 then cdiv o.2.2.length 64 else 0) },
        updCmd rid cmd (fun c => { c with delivered := c.delivered + o.2.2.length }) t))
    (false, { x.1 with outs := x.1.outs.filter (fun o => !(final || decide (o.1 ≤ k))) }, x.2)
  r.2

/-- Charge what the round's slots cover of the counts (R323, R327); all that is left with the last slot. -/
def chargeBags (rid st : Nat) (d : BatchD) (u : Nat) (final : Bool) (x : GatherRun × State) : GatherRun × State :=
  let s := x.2
  let dim := batchDim s d
  let span := maxOf ((usedTables d).map (fun t => lineSpan s t))
  let w := (if d.idx64 then 8 else 4) + (if d.pool = 2 then 4 else 0) + 8
  let lineCap := min d.nU (8 * u) * span + cdiv (min (d.nI + d.bags) (64 * u) * w) 64
    + (if d.outSpace = 0 then cdiv (min d.bags (4096 * u / dim) * d.outStride) 64 else 0)
  let take := fun (cap n : Nat) => if final then n else min cap n
  let i := take (min d.nI (64 * u)) x.1.unIdx
  let e := take (min d.nE (4096 * u / dim)) x.1.unEnt
  let l := take lineCap x.1.unLine
  ({ x.1 with unIdx := x.1.unIdx - i, unEnt := x.1.unEnt - e, unLine := x.1.unLine - l }, act rid st 0 l (act rid st 7 e (act rid st 6 i s)))

/-- A batch's booked start: nothing is read yet. -/
def startGather (rid cmd : Nat) (s : State) : State := setBatch rid cmd (some {}) s

/-- The unit slots a batch holds in the round whose slots end now. -/
def roundSlots (s : State) (rid cmd cal : Nat) : List Nat :=
  (s.gate.books.filter (fun b => b.rid == rid && b.cmd == cmd && b.cal == cal && b.round == endedRound s)).flatMap (·.slots)

/-- The progress of a batch (R318, R323): at the end of the last unit slot it holds in a round, the bags its slots reach are
taken, their rows written, and the round's counts charged. Its rows are held to the end of its last slot. -/
def paceGather (rid cmd st ctx : Nat) (c : Cmd) (d : BatchD) (s : State) : State :=
  let ks := roundSlots s rid cmd calEmb
  match batchRun s rid cmd with
  | none => s
  | some g =>
    if ks = [] ∨ now s ≠ slotEndTick (endedRound s * 1024 + maxOf ks) then s else
    let k := slotsEnded s rid cmd c
    let final := decide (c.slots ≤ k)
    let slotOf := fun t => match c.pins.find? (fun p => p.kind == 1 && p.id == t) with | some p => p.slot | none => (tableOf s t).version % 4
    let r := chargeBags rid st d ks.length final (writeBags rid cmd st ctx d k final (takeBags rid st ctx d slotOf (if final then 2 ^ 40 else k) (d.bags - g.bag) (g, s)))
    match r.1.fin with
    | some e => updReq rid (fun q => { q with injected := q.injected || e.2.2 })
        (updCmd rid cmd (fun c => { c with status := some e.1, detail := e.2.1, endRound := curRound r.2 }) (releaseRows rid (setBatch rid cmd none r.2)))
    | none =>
      let t := updCmd rid cmd (fun c => { c with detailAlt := min r.1.fetched 0xFFFFFFFF }) r.2
      if final then releaseRows rid (setBatch rid cmd none t) else setBatch rid cmd (some r.1) t

/-! ### Switches of versions (R335, R336) -/

/-- The checks of R335 on one table; `set` admits a table of a set. -/
def switchChecks (s : State) (st t expect rows base : Nat) (set : Bool) : List (Bool × Nat × Nat) :=
  let x := tableOf s t
  let v := if x.valid then x.version else 0
  let len := rows * tableStride s t
  [(base % 8 == 0 && decide (1 ≤ rows) && decide (rows ≤ 2 ^ 40) && (set || tableSet s t == 0) && tableAgrees s t, INVALID, 0),
   (cv s 0x7100 1 t == st && pinnedRange s st base len, PROTECTION, 0),
   (openRange s base len, FAULT_EXTENT_CLOSED, 0),
   (expect == v, CONFLICT_VERSION, v)]
def pinCheck (s : State) (t expect : Nat) : Bool × Nat × Nat := (slotPins (tableOf s t) ((expect + 1) % 4) == 0, BUSY, 0xFFFFFFFF)
def buildCheck (s : State) (tally target : Nat) : Bool × Nat × Nat :=
  (tally == 0xFFFF || reached s tally target, BUSY, min (tallyVal s tally) 0xFFFFFFFE)

/-- Switch a table in: the next slot takes base, rows and version (R335). -/
def switchTable (t expect rows base : Nat) (s : State) : State :=
  let x := tableOf s t
  let v := (expect + 1) % 2 ^ 16
  setTable t { version := v, valid := true, slots := setAt x.slots (v % 4) (base, rows, v, 0) } s

/-- TABLE_SWITCH's own checks (R335); check 2 covers the owner and the build tally. -/
def tableSwitchFail (s : State) (st t expect tally rows target base : Nat) : Option (Nat × Nat) :=
  firstFail (switchChecks s st t expect rows base false ++ [buildCheck s tally target, pinCheck s t expect])

def checkTableSwitch (s : State) (st : Nat) (e : Entry) (deferred : Bool) : Chk :=
  let t := e.args 0 2
  let c : Cmd := { opcode := 0x09, work := .tableSwitch t (e.args 2 2) (e.args 4 2) (e.args 8 8) (e.args 16 8) e.opa, deferred := deferred }
  let own := [(cv s 0x7100 1 t == st, PROTECTION, 0), (e.args 4 2 == 0xFFFF || reachesTally s st (e.args 4 2), PROTECTION, 0)]
  match firstFail own with
  | some (x, y) => .bad x y
  | none =>
    if deferred then .good c else
    match tableSwitchFail s st t (e.args 2 2) (e.args 4 2) (e.args 8 8) (e.args 16 8) e.opa with
    | some (x, y) => .bad x y
    | none => .good c

/-- An entry of a switch list (R336): table, expected version, rows, base, reserved bytes. -/
def listEntry (s : State) (list i : Nat) : Nat × Nat × Nat × Nat × Nat :=
  let w := storeNat s (offOf list + 24 * i) 24
  (bits w 15 0, bits w 31 16, bits w 191 128, bits w 127 64, bits w 63 32)
def listEntries (s : State) (list n : Nat) : List (Nat × Nat × Nat × Nat × Nat) := (List.range n).map (listEntry s list)
/-- The tables of a set of a stall (R341). -/
def setMembers (s : State) (st set : Nat) : List Nat := ((storedInsts s 0x7100 5).filter (fun e => e.2 == set && cv s 0x7100 1 e.1 == st)).map (·.1)

/-- SET_SWITCH (R336): the list, the window, then each entry under R335 with the build tally checked once. -/
def checkSetSwitch (s : State) (st : Nat) (e : Entry) : Chk :=
  let set := e.args 0 2
  let n := e.args 2 1
  let tally := e.args 4 2
  match resolve s st e.modeA e.opa (24 * n) with
  | .bad x => .bad x 0
  | .virt _ => .bad INVALID 0
  | .glob a pins =>
    match firstFail [(decide (1 ≤ n) && decide (n ≤ 64) && localRange s a (24 * n) && set != 0, INVALID, 0), (pinnedRange s st a (24 * n), PROTECTION, 0),
        (tally == 0xFFFF || reachesTally s st tally, PROTECTION, 0)] with
    | some (x, y) => .bad x y
    | none =>
      let l := listEntries s a n
      let ts := l.map (·.1)
      match firstFail ([(l.all (fun x => x.2.2.2.2 == 0), INVALID, 0),
          (ts.all (fun t => cv s 0x7100 1 t == st), PROTECTION, 0), (openRange s a (24 * n), FAULT_EXTENT_CLOSED, 0),
          ((dedup ts).length == n && ts.all (fun t => tableSet s t == set) && decide ((setMembers s st set).length = n), INVALID, 0),
          (decide (100 + 50 * n ≤ cv s 0x1010 6 st), INVALID, 0)]
          ++ l.zipIdx.flatMap (fun (x, i) => switchChecks s st x.1 x.2.1 x.2.2.1 x.2.2.2.1 true
              ++ (if i = 0 then [buildCheck s tally (e.args 8 8)] else []) ++ [pinCheck s x.1 x.2.1])) with
      | some (x, y) => .bad x y
      | none => .good { opcode := 0x0A, work := .setSwitch set n tally (e.args 8 8) a, pins := pins, exts := extsOf (offOf a) (24 * n) }

/-- Apply a set switch at its decision tick: every table of the list; the new version of the first. -/
def applySetSwitch (list n : Nat) (s : State) : Nat × State :=
  let l := listEntries s list n
  ((((l.headD (0,0,0,0,0)).2.1 + 1) % 2 ^ 16), l.foldl (fun t x => switchTable x.1 x.2.1 x.2.2.1 x.2.2.2.1 t) s)

/-- Mark every cached row of the set's previous versions (R337). -/
def markSet (st set : Nat) (s : State) : State :=
  { s with emb := { s.emb with cache := s.emb.cache.map (fun e =>
      if tableSet s e.table == set && cv s 0x7100 1 e.table == st && (tableOf s e.table).version != e.version then { e with marked := true } else e) } }

end Sys2Proof.Machine
end

