-- ==== Sys2Proof/Machine/Scoring.lean ====
section
/-! DEFINITION. Scores of the search unit and the scanners (R348, R349): FP32 arithmetic in ascending order, and the
ranking order. -/

namespace Sys2Proof.Machine
open Sys2Proof

/-- FP32 difference, one rounding. -/
def fsub32 (a b : Num) : Num := ofF32 (toF32 (Num.add a b.neg))
/-- Sum in ascending order of exact products, one rounding for each addition (R349; log entry 14). -/
def sumProducts (l : List (Num × Num)) : Nat := l.foldl (fun a p => fsum32 a [Num.mul p.1 p.2]) 0

/-- Integer square root by Newton steps, rounded down. -/
def isqrt (n : Nat) : Nat :=
  (List.range (Nat.log2 n / 2 + 2)).reverse.foldl (fun r i => if (r + 2 ^ i) * (r + 2 ^ i) ≤ n then r + 2 ^ i else r) 0

/-- FP32 square root, one rounding. -/
def fsqrt32 (a : Nat) : Nat :=
  match ofF32 a with
  | .nan => 0x7FC00000
  | .inf s => if s then 0x7FC00000 else 0x7F800000
  | .fin s m e =>
    if m = 0 then a else if s then 0x7FC00000 else
    let (m, e) := if e % 2 = 0 then (m, e) else (2 * m, e - 1)
    let m' := m * 2 ^ 80
    let r := isqrt m'
    toF32 (.fin false (2 * r + (if r * r = m' then 0 else 1)) (e / 2 - 41))

/-- FP32 division, one rounding. -/
def fdiv32 (a b : Nat) : Nat :=
  match ofF32 a, ofF32 b with
  | .nan, _ => 0x7FC00000
  | _, .nan => 0x7FC00000
  | .inf _, .inf _ => 0x7FC00000
  | .inf s, .fin t _ _ => toF32 (.inf (s != t))
  | .fin s _ _, .inf t => toF32 (.fin (s != t) 0 0)
  | .fin s m e, .fin t n f =>
    if n = 0 then (if m = 0 then 0x7FC00000 else toF32 (.inf (s != t)))
    else match Num.divNat (.fin (s != t) m (e - f)) n with | x => toF32 x

/-- The elements of an FP16 vector. -/
def f16s (l : List Byte) : List Num := (List.range (l.length / 2)).map (fun i => decodeElem 0xB (packedElem 0xB l i))

/-- q̂ = q / ‖q‖, formed in FP32 and rounded to FP16 (R349). -/
def unitVector (q : List Num) : List Num :=
  let n := fsqrt32 (sumProducts (q.map (fun x => (x, x))))
  q.map (fun x => decodeElem 0xB (toF16 (ofF32 (fdiv32 (toF32 x) n))))

/-- The part of a score that sums over elements, before cosine's leading 1 (R349). -/
def partial_ (metric : Nat) (q x : List Num) : Nat :=
  if metric = 0 then sumProducts ((q.zip x).map (fun p => let d := fsub32 p.1 p.2; (d, d)))
  else toF32 (ofF32 (sumProducts (q.zip x))).neg

/-- A centroid or raw item score: the query is already q̂ under cosine. -/
def score (metric : Nat) (q x : List Num) : Nat :=
  let s := partial_ metric q x
  if metric = 2 then fadd32 0x3F800000 s else s

/-- The lookup table of a query for PQ: entry [m][j] in FP16, from codebook rows of D / M elements. -/
def pqTable (metric m : Nat) (q : List Num) (book : Nat → Nat → List Num) : List (List Nat) :=
  let w := q.length / m
  (List.range m).map (fun i => (List.range 256).map (fun j => toF16 (ofF32 (partial_ metric ((q.drop (i * w)).take w) (book i j)))))

/-- A PQ item's score: the sum of its table entries in ascending m, plus 1 under cosine. -/
def pqScore (metric : Nat) (table : List (List Nat)) (code : List Byte) : Nat :=
  let s := (table.zip code).foldl (fun a p => fsum32 a [decodeElem 0xB (p.1.getD p.2.toNat 0)]) 0
  if metric = 2 then fadd32 s 0x3F800000 else s

/-- A result: score (FP32), id, centroid. -/
structure Hit where
  score : Nat
  id : Nat
  centroid : Nat
  deriving DecidableEq, Repr

def isNan32 (n : Nat) : Bool := match ofF32 n with | .nan => true | _ => false

/-- The ranking order: ascending score with NaN last, then id, then centroid (R349). -/
def Hit.before (x y : Hit) : Bool :=
  if isNan32 x.score != isNan32 y.score then isNan32 y.score
  else if !isNan32 x.score && flt32 x.score y.score then true
  else if !isNan32 x.score && flt32 y.score x.score then false
  else if x.id ≠ y.id then decide (x.id < y.id)
  else decide (x.centroid < y.centroid)

def insertHit (x : Hit) : List Hit → List Hit
  | [] => [x]
  | y :: r => if x.before y then x :: y :: r else y :: insertHit x r
/-- The `k` best in ranking order. -/
def bestHits (k : Nat) (l : List Hit) : List Hit := (l.foldl (fun a x => insertHit x a) []).take k

/-- A hit as a candidate or an output entry of 16 bytes (R351); empty places after the results. -/
def hitBytes (h : Hit) : List Byte := leBytes 8 h.id ++ leBytes 4 h.score ++ leBytes 4 h.centroid
def noHit : Hit := ⟨0x7F800000, 2 ^ 64 - 1, 0xFFFFFFFF⟩
def padHits (k : Nat) (l : List Hit) : List Hit := l ++ List.replicate (k - l.length) noHit

end Sys2Proof.Machine
end

