-- ==== Sys2Proof/Machine/Search.lean ====
section
/-! DEFINITION. Vector search: collections, SEARCH, the side list and restock (R342-R374). -/

namespace Sys2Proof.Machine
open Sys2Proof

/-! ### Collections (R342-R348) -/

def collOf (s : State) (u : Nat) : Coll := AMap.get {} s.colls u
def setColl (u : Nat) (c : Coll) (s : State) : State := { s with colls := AMap.set {} s.colls u c }
def cOwner (s : State) (u : Nat) : Nat := cv s 0x7900 1 u
def cActive (s : State) (u : Nat) : Bool := cv s 0x7900 2 u == 1
def cDim (s : State) (u : Nat) : Nat := cv s 0x7900 3 u
def cCode (s : State) (u : Nat) : Nat := cv s 0x7900 4 u
def cSubq (s : State) (u : Nat) : Nat := cv s 0x7900 5 u
def cMetric (s : State) (u : Nat) : Nat := cv s 0x7900 6 u
def cN (s : State) (u : Nat) : Nat := cv s 0x7900 7 u
def cDegree (s : State) (u : Nat) : Nat := cv s 0x7900 8 u
def cSeq (s : State) (u : Nat) : Nat := cv s 0x7900 0x11 u
/-- Bytes of a code: M for PQ, D for raw codes (R346). -/
def codeBytes (s : State) (u : Nat) : Nat := if cCode s u = 0 then cSubq s u else cDim s u
def itemsPerPage (s : State) (u : Nat) : Nat := 16320 / (codeBytes s u + 8)
def recordBytes (s : State) (u : Nat) : Nat := 16 * cdiv (16 + codeBytes s u) 16
def recordsPerBlock (s : State) (u : Nat) : Nat := 16320 / recordBytes s u
def up4k (n : Nat) : Nat := cdiv n 4096 * 4096
def metaBase (s : State) (u : Nat) : Nat := cv s 0x7900 0x0A u
def sideBase (s : State) (u : Nat) : Nat := cv s 0x7900 0x0B u
def sideBlocks (s : State) (u : Nat) : Nat := cv s 0x7900 0x0C u
def listBase (s : State) (u : Nat) : Nat := cv s 0x7900 0x0D u
def listRuns (s : State) (u : Nat) : Nat := cv s 0x7900 0x0E u
def listPages (s : State) (u : Nat) : Nat := 256 * listRuns s u

/-- Offsets of the parts of the meta area (R343). -/
def graphBase (s : State) (u : Nat) : Nat := metaBase s u + up4k (cN s u * 2 * cDim s u)
def bookBase (s : State) (u : Nat) : Nat := graphBase s u + up4k (cN s u * 4 * cDegree s u)
def dirBase (s : State) (u slot : Nat) : Nat :=
  bookBase s u + (if cCode s u = 0 then up4k (512 * cDim s u) else 0) + slot * up4k (cN s u * 32)
def metaEnd (s : State) (u : Nat) : Nat := dirBase s u 1 + cN s u * 32
def headsBytes (s : State) (u : Nat) : Nat := up4k (16 * cN s u)
def blockBase (s : State) (u b : Nat) : Nat := sideBase s u + headsBytes s u + 16384 * b
def sideEnd (s : State) (u : Nat) : Nat := blockBase s u (sideBlocks s u)

/-- A directory entry (R344). -/
structure DirRow where
  merged : Nat
  first : Nat
  pages : Nat
  items : Nat
  state : Nat
  forward : Nat
  deriving DecidableEq, Repr
def dirRowOf (w : Nat) : DirRow :=
  { merged := bits w 255 208, first := bits w 207 176, pages := bits w 175 168, items := bits w 167 144, state := bits w 143 142, forward := bits w 141 120 }
def dirRowBits (d : DirRow) : Nat :=
  d.merged % 2 ^ 48 * 2 ^ 208 + d.first % 2 ^ 32 * 2 ^ 176 + d.pages % 256 * 2 ^ 168 + d.items % 2 ^ 24 * 2 ^ 144 + d.state % 4 * 2 ^ 142 + d.forward % 2 ^ 22 * 2 ^ 120
def dirRow (s : State) (u slot n : Nat) : DirRow := dirRowOf (storeNat s (offOf (dirBase s u slot) + 32 * n) 32)
/-- An entry is malformed (R344). -/
def malformed (s : State) (u slot : Nat) (d : DirRow) : Bool :=
  decide (64 < d.pages) || decide (2 ≤ d.state) || (d.pages != 0 && decide (listPages s u < d.first + d.pages))
  || (d.state == 1 && (decide (cN s u ≤ d.forward) || (dirRow s u slot d.forward).state != 0))
/-- The resolution of a centroid (R344). -/
def resolution (s : State) (u slot c : Nat) : Nat := let d := dirRow s u slot c; if d.state = 1 then d.forward else c

/-- Every area lies in OPEN extents of the owner, of the kind R342 requires. -/
def areasFit (s : State) (u : Nat) : Bool :=
  let st := cOwner s u
  usableRange s st (metaBase s u) (metaEnd s u - metaBase s u) && usableRange s st (sideBase s u) (sideEnd s u - sideBase s u)
  && ownsRange s st (listBase s u) (listRuns s u * 2 ^ 22) && openRange s (listBase s u) (listRuns s u * 2 ^ 22)
  && (extsOf (offOf (listBase s u)) (listRuns s u * 2 ^ 22)).all (fun e => (extRec s e).backed)
def areaExts (s : State) (u : Nat) : List Nat :=
  dedup (extsOf (offOf (metaBase s u)) (metaEnd s u - metaBase s u) ++ extsOf (offOf (sideBase s u)) (sideEnd s u - sideBase s u)
    ++ extsOf (offOf (listBase s u)) (listRuns s u * 2 ^ 22))
/-- Every entry of the collection lies in its range (R375). -/
def collInRange (s : State) (u : Nat) : Bool :=
  let d := cDim s u; let m := cSubq s u; let n := cN s u
  decide (1 ≤ d) && decide (d ≤ 4096) && decide (cCode s u ≤ 2) && decide (cMetric s u ≤ 2)
  && (if cCode s u = 0 then decide (1 ≤ m) && decide (m ≤ 256) && d % m == 0 else m == 0)
  && decide (1 ≤ n) && decide (n ≤ 4194304) && decide (4 ≤ cDegree s u) && decide (cDegree s u ≤ 64) && decide (cv s 0x7900 9 u < n)
  && metaBase s u % 4096 == 0 && sideBase s u % 4096 == 0 && listBase s u % 2 ^ 22 == 0
  && decide (1 ≤ cv s 0x7900 0x0F u) && decide (cv s 0x7900 0x0F u ≤ 64) && decide (16 ≤ cv s 0x7900 0x10 u) && decide (cv s 0x7900 0x10 u ≤ 4096)

/-- LIST_PAGES_MAX, SIDE_RECORDS, SIDE_LIST_MAX, SIDE_BLOCKS_FREE (R375). -/
def listPagesMax (s : State) (u : Nat) : Nat := maxOf ((List.range (cN s u)).map (fun n => (dirRow s u (collOf s u).cur n).pages))
def sideRecords (s : State) (u : Nat) : Nat := sumOf ((collOf s u).chains.map (·.2))
def sideListMax (s : State) (u : Nat) : Nat := maxOf ((collOf s u).chains.map (·.2))
def sideBlocksFree (s : State) (u : Nat) : Nat := sideBlocks s u - (collOf s u).blocksUsed + (collOf s u).freeBlocks.length

/-- The offset of list page `q` (R345). -/
def listPageOff (s : State) (u q : Nat) : Nat :=
  let b := offOf (listBase s u) + q / 256 * 2 ^ 22
  b + (q % 64 + 64 - hashF (cv s 0x4001 1) b % 64) % 64 * 65536 + q % 256 / 64 * 16384

/-! ### A unit's work: reads that may end it -/

/-- Work that reads storage: it goes on, or ends the part. -/
abbrev Run (α : Type) := State → (α ⊕ PartEnd) × State
def Run.ok {α : Type} (a : α) : Run α := fun s => (.inl a, s)
def Run.stop {α : Type} (e : PartEnd) : Run α := fun s => (.inr e, s)
def Run.andThen {α β : Type} (x : Run α) (f : α → Run β) : Run β := fun s =>
  match x s with
  | (.inl a, t) => f a t
  | (.inr e, t) => (.inr e, t)
def Run.forEach {α β : Type} (l : List α) (b : β) (f : β → α → Run β) : Run β :=
  l.foldl (fun acc x => Run.andThen acc (fun b => f b x)) (Run.ok b)

/-- Read bytes of the HBM copy for a request, counting the lines (R204, R99). -/
def rd (rid st ctx a n : Nat) : Run (List Byte) := fun s =>
  match hbmRange st ctx (offOf a) n true s with
  | (some i, t) => (.inr ⟨FAULT_MEMORY, 0, i⟩, t)
  | (none, t) => (.inl (storeRead t (offOf a) n), heatSpan (offOf a) n (act rid st 0 (cdiv n 64) t))
/-- Read an array's bytes, which a virtual one finds through the die TLB (R235). -/
def rdArray (rid st ctx : Nat) (virt : Bool) (a n : Nat) : Run (List Byte) := fun s =>
  if !virt then rd rid st ctx a n s else
  match servedRange st ctx none true false a n s with
  | (.inr e, t) => (.inr e, t)
  | (.inl ps, t) => (.inl (readPieces t ps), heatPieces ps (act rid st 0 (cdiv n 64) t))
def rdVec (rid st ctx a d : Nat) : Run (List Num) := Run.andThen (rd rid st ctx a (2 * d)) (fun l => Run.ok (f16s l))
def rdDir (rid st ctx u slot n : Nat) : Run DirRow := fun s =>
  Run.andThen (rd rid st ctx (dirBase s u slot + 32 * n) 32) (fun l => fun t =>
    let d := dirRowOf (leNat l)
    if malformed t u slot d then (.inr ⟨INVALID, n % 2 ^ 32, false⟩, t) else (.inl d, t)) s
/-- Resolve a centroid, ending the search where its entry is malformed (R373). -/
def rdResolve (rid st ctx u slot n : Nat) : Run Nat := fun s =>
  if cN s u ≤ n then (.inr ⟨INVALID, n % 2 ^ 32, false⟩, s)
  else Run.andThen (rdDir rid st ctx u slot n) (fun d => Run.ok (if d.state = 1 then d.forward else n)) s
def write (off : Nat) (data : List Byte) : Run Unit := fun s => (.inl (), listWrite off data s)

/-! ### The walk (R350) -/

/-- A member of the pool: its rank key and whether it is expanded. -/
abbrev Member := Hit × Bool
def insertMember (x : Member) : List Member → List Member
  | [] => [x]
  | y :: r => if x.1.before y.1 then x :: y :: r else y :: insertMember x r

/-- Score a centroid for a query. -/
def centroidHit (rid st ctx u : Nat) (q : List Num) (n : Nat) : Run Hit := fun s =>
  Run.andThen (rdVec rid st ctx (metaBase s u + 2 * cDim s u * n) (cDim s u)) (fun v => Run.ok ⟨score (cMetric s u) q v, 0, n⟩) s

/-- One expansion of the walk: the graph row's entries, resolved, unseen ones scored and added; the pool is trimmed. -/
def expand (rid st ctx u slot pool : Nat) (q : List Num) (x : List Member × List Nat) : Run (List Member × List Nat) := fun s =>
  match x.1.find? (fun m => !m.2) with
  | none => (.inl x, s)
  | some b =>
    let c := b.1.centroid
    let marked := x.1.map (fun m => if m.1.centroid = c then (m.1, true) else m)
    Run.andThen (rd rid st ctx (graphBase s u + 4 * cDegree s u * c) (4 * cDegree s u)) (fun row =>
      let ns := ((List.range (cDegree s u)).map (fun i => leNat (slice row (4 * i) 4))).filter (· ≠ 0xFFFFFFFF)
      Run.andThen (Run.forEach ns (marked, x.2) (fun acc n =>
        Run.andThen (rdResolve rid st ctx u slot n) (fun n =>
          if acc.2.contains n then Run.ok acc
          else Run.andThen (centroidHit rid st ctx u q n) (fun h => Run.ok (insertMember (h, false) acc.1, n :: acc.2)))))
        (fun r => Run.ok (r.1.take pool, r.2))) s

def iterate {α : Type} (f : α → Run α) : Nat → α → Run α
  | 0, a => Run.ok a
  | n + 1, a => Run.andThen (f a) (fun b => iterate f n b)

/-- The candidates of a query, in ranking order. -/
def walkQuery (rid st ctx : Nat) (d : SearchD) (q : List Num) : Run (List Nat) := fun s =>
  let pool := min 4096 (2 * d.probes)
  Run.andThen (rdResolve rid st ctx d.coll d.dirSlot (cv s 0x7900 9 d.coll)) (fun e =>
    Run.andThen (centroidHit rid st ctx d.coll q e) (fun h =>
      Run.andThen (iterate (expand rid st ctx d.coll d.dirSlot pool q) d.steps ([(h, false)], [e]))
        (fun r => Run.ok (r.1.map (fun m => m.1.centroid))))) s

/-! ### SEARCH: its descriptor and checks (R351-R353) -/

def searchOf (w : Nat) : SearchD :=
  { queryAddr := bits w 1023 960, outAddr := bits w 959 896, workAddr := bits w 895 832, statusAddr := bits w 831 768, probeAddr := bits w 767 704,
    listBound := bits w 703 672, queries := bits w 671 656, probes := bits w 655 640, topk := bits w 639 624, steps := bits w 623 608,
    tally := bits w 607 592, coll := bits w 591 576, slack := bits w 575 568, given := bit w 567, form := bit w 566 }
def outEntry (d : SearchD) : Nat := if d.form then 16 else 8
/-- LS, P, PM, K_p of R352. -/
def tableStep (s : State) (d : SearchD) : Nat := if cCode s d.coll = 0 then 65536 * cdiv (512 * cSubq s d.coll) 65536 else 0
def kp (s : State) (d : SearchD) : Nat := min d.topk (itemsPerPage s d.coll)
def groupsPerQuery (d : SearchD) (pm : Nat) : Nat := d.probes * pm + 1
def searchAreas (s : State) (d : SearchD) (pm : Nat) : List (Nat × Nat) :=
  [(d.queryAddr, d.queries * 2 * cDim s d.coll), (d.outAddr, d.queries * d.topk * outEntry d),
   (d.workAddr, d.queries * tableStep s d + d.queries * groupsPerQuery d pm * kp s d * 16)]
  ++ (if d.statusAddr = 0 then [] else [(d.statusAddr, 8 * d.queries)])
  ++ (if d.given then [(d.probeAddr, 4 * d.queries * d.probes)] else [])

/-- COLL_SEQ after every commit that takes effect at or before this tick (R353): the last slot of an insert or delete has ended. -/
def seqNow (s : State) (u : Nat) : Nat :=
  max (cSeq s u) (maxOf (s.gate.reqs.flatMap (fun r => r.cmds.map (fun c => match c.work with
    | .side _ v _ _ _ seq _ => if v = u ∧ (c.started || c.status.isSome) ∧ slotEndTick c.endSlot ≤ now s then seq else 0
    | _ => 0))))

def checkSearch (s : State) (st _ctx : Nat) (e : Entry) : Chk :=
  match resolve s st e.modeA e.opa 128 with
  | .bad x => .bad x 0
  | .virt _ => .bad INVALID 0
  | .glob a pins =>
    match firstFail [(localRange s a 128 && offOf a % 128 == 0, INVALID, 0), (pinnedRange s st a 128, PROTECTION, 0)] with
    | some (x, y) => .bad x y
    | none =>
      let w := storeNat s (offOf a) 128
      let d0 := searchOf w
      let pm := listPagesMax s d0.coll
      let c := collOf s d0.coll
      let areas := searchAreas s d0 pm
      let within := fun (x lo hi : Nat) => decide (lo ≤ x) && decide (x ≤ hi)
      match firstFail [
        (cOwner s d0.coll == st, PROTECTION, 0), (d0.tally == 0xFFFF || reachesTally s st d0.tally, PROTECTION, 0),
        (!rangeBad s (offOf a) 128 && w % 2 ^ 566 == 0 && decide (d0.coll < 4096), INVALID, 0),
        (within d0.queries 1 4096 && within d0.probes 1 4096 && within d0.topk 1 1024 && within d0.listBound 1 (d0.queries * d0.probes), INVALID, 0),
        (if d0.given then d0.steps == 0 else within d0.steps 1 4096 && d0.probeAddr == 0, INVALID, 0),
        (cActive s d0.coll, INVALID, 0),
        (areas.all (fun x => offOf x.1 % 64 == 0 && pinnedRange s st x.1 (max 1 x.2)), INVALID, 0),
        ((areaExts s d0.coll).all (fun x => (extRec s x).state == 1) && areas.all (fun x => openRange s x.1 (max 1 x.2)) && openRange s a 128, FAULT_EXTENT_CLOSED, 0)] with
      | some (x, y) => .bad x y
      | none =>
        let d := { d0 with snapshot := seqNow s d0.coll, dirSlot := c.cur, pagesMax := pm }
        .good { opcode := 0x02, work := .search d, pins := pins ++ [⟨2, d0.coll, c.cur⟩],
                exts := dedup (areaExts s d0.coll ++ areas.flatMap (fun x => extsOf (offOf x.1) (max 1 x.2)) ++ extsOf (offOf a) 128) }

/-! ### Booking (R356-R359) -/

def blocks64 (a n : Nat) : Nat := cdiv (offOf a + n) 65536 - offOf a / 65536

/-- Queries (or any `n` things) whose share of `total` slots has ended with slot `k`. -/
def dueOf (n total k : Nat) : Nat := if total ≤ k then n else n * k / total

/-- Lines the walk of one query may count, and the assignment of all (R98, R99). -/
def walkLines (s : State) (d : SearchD) : Nat :=
  let vec := cdiv (2 * cDim s d.coll) 64
  vec + (if cCode s d.coll = 0 then 8 * cDim s d.coll + 8 * cSubq s d.coll else 0)
    + (if d.given then cdiv (4 * d.probes) 64 else 1 + vec + d.steps * (cdiv (4 * cDegree s d.coll) 64 + cDegree s d.coll * (1 + vec)))
def assignLines (d : SearchD) : Nat := d.queries * 2 * min 4096 (2 * d.probes)

/-- Slots of the walk and of the side records (R356). -/
def walkSlots (s : State) (d : SearchD) : Nat :=
  let dim := max 1 (cDim s d.coll)
  max 1 (cdiv (d.queries * (d.steps * cDegree s d.coll * dim + (if cCode s d.coll = 0 then 256 * dim else 0))) 4096)
def mergeSlots (s : State) (d : SearchD) : Nat := cdiv (d.queries * groupsPerQuery d d.pagesMax * kp s d) 512

/-- Phases of a search: walk, side, scan, merge. -/
def walkPhase (s : State) (d : SearchD) (early : Nat) : Phase :=
  let dim := max 1 (cDim s d.coll)
  let total := walkSlots s d
  let blk := 8192 * (blocks64 d.queryAddr (d.queries * 2 * dim) + (if tableStep s d = 0 then 0 else blocks64 d.workAddr (d.queries * tableStep s d)))
  let rows := fun u => if d.given then 0 else u * 4096 / dim * (2 * dim + 4)
  { total := total, cals := [(calSearch, 0)], early := early,
    side := fun e u => let n := cdiv (rows u + share blk total e u) 25600; (List.range 8).map (fun k => (calHbm k, 0, n)),
    chit := fun e u => if e + u = total then ujOf s 5 d.queries else 0,
    flt := fun e u => ujOf s 0 (walkLines s d * (dueOf d.queries total (e + u) - dueOf d.queries total e) + (if e + u = total then assignLines d else 0)) }
def sidePhase (s : State) (d : SearchD) (early : Nat) : Phase :=
  let e := max 1 (codeBytes s d.coll)
  let total := cdiv (min (sideRecords s d.coll * d.queries) (d.queries * d.probes * sideListMax s d.coll) * e) 4096
  let rows := fun v => v * 4096 / e * recordBytes s d.coll
  { total := total, cals := [(calSearch, 0)], early := early,
    side := fun _ v => let n := cdiv (rows v) 25600; (List.range 8).map (fun k => (calHbm k, 0, n)),
    chit := fun _ _ => 0, flt := fun _ v => ujOf s 0 (cdiv (rows v) 64) }
def scanUnits (d : SearchD) : Nat := cdiv (d.listBound * d.pagesMax) 64 + d.slack
def scanPhase (s : State) (d : SearchD) (early : Nat) : Phase :=
  let total := 410 * scanUnits d
  let ends := fun e u => (e + u) / 410 - e / 410
  let blk := 8192 * (blocks64 d.workAddr (d.queries * tableStep s d + d.queries * groupsPerQuery d d.pagesMax * kp s d * 16) + blocks64 d.queryAddr (d.queries * 2 * cDim s d.coll))
  let bytes := fun e u => 64 * ends e u * 8 * sideListMax s d.coll + (if total = 0 then 0 else share blk total e u)
  { total := total, cals := (List.range 64).map (fun f => (calFlash f, 0)), early := early,
    side := fun e u => let n := cdiv (bytes e u) 25600; (List.range 8).map (fun k => (calHbm k, 0, n)),
    chit := fun e u => ujOf s 1 (64 * ends e u), flt := fun e u => ujOf s 0 (cdiv (bytes e u) 8) }
def mergePhase (s : State) (d : SearchD) (early : Nat) : Phase :=
  let total := mergeSlots s d
  let blk := 8192 * (blocks64 d.workAddr (d.queries * tableStep s d + d.queries * groupsPerQuery d d.pagesMax * kp s d * 16)
    + blocks64 d.outAddr (d.queries * d.topk * outEntry d) + (if d.statusAddr = 0 then 0 else blocks64 d.statusAddr (8 * d.queries)))
  { total := total, cals := [(calSearch, 0)], early := early,
    side := fun e u => let n := cdiv (share blk total e u) 25600; (List.range 8).map (fun k => (calHbm k, 0, n)),
    chit := fun _ _ => 0, flt := fun e u => ujOf s 0 (share blk total e u * 8 / 64) }

/-- Place a search's phases in the order of R357. -/
def placeSearch (w : For) (early : Nat) (d : SearchD) (s : State) : Option (State × Nat × Nat) :=
  match runPhase w (walkPhase s d early) s with
  | none => none
  | some (s1, f1, e1) =>
    match runPhase w (sidePhase s1 d (e1 + 1)) s1 with
    | none => none
    | some (s2, _, e2) =>
      -- SCAN_LEAD_TICKS are 1,920 slots
      match runPhase w (scanPhase s2 d (e1 + 1 + 1920)) s2 with
      | none => none
      | some (s3, _, e3) =>
        -- a phase of no slot keeps nothing waiting
        let sideEnd := if (sidePhase s1 d 0).total = 0 then e1 else e2
        let scanEnd := if scanUnits d = 0 then e1 else e3
        match runPhase w (mergePhase s3 d (max (sideEnd + 1) (scanEnd + 1))) s3 with
        | none => none
        | some (s4, _, e4) => some (s4, f1, e4)

/-! ### Probes (R354) -/

structure Assign where
  left : List Nat                        -- page units left on each channel
  lists : Nat                            -- lists left
  visitors : List (Nat × List Nat) := [] -- assigned lists with their queries, in order of assignment
  probes : List (List Nat) := []         -- probes of each query, in order
  shed : List Nat := []                  -- probes shed of each query

/-- Visitors a pass serves (R354). -/
def perPass (s : State) (u : Nat) : Nat :=
  229376 / max 1 (if cCode s u = 0 then 512 * cSubq s u else 2 * cDim s u)

/-- Take a list's page units: one on each of the consecutive channels of its pages, where every channel has enough. -/
def takeUnits (first pages : Nat) (left : List Nat) : Option (List Nat) :=
  (List.range pages).foldl (fun acc i => acc.bind (fun l =>
    let f := (first + i) % 64
    if l.getD f 0 = 0 then none else some (setAt l f (l.getD f 0 - 1)))) (some left)

/-- Assign one candidate of query `q`: the state of assignment and this query's probes and sheds. -/
def assignOne (s : State) (d : SearchD) (q : Nat) (x : Assign × List Nat × Nat) (f : Nat) : Assign × List Nat × Nat :=
  let (a, mine, shed) := x
  if mine.length = d.probes ∨ mine.contains f then x else
  let row := dirRow s d.coll d.dirSlot f
  match a.visitors.find? (fun v => v.1 == f) with
  | some v =>
    let need := if v.2.length % perPass s d.coll = 0 then row.pages else 0
    match takeUnits row.first need a.left with
    | some l => ({ a with left := l, visitors := a.visitors.map (fun y => if y.1 = f then (f, y.2 ++ [q]) else y) }, mine ++ [f], shed)
    | none => (a, mine, shed + 1)
  | none =>
    match (if a.lists = 0 then none else takeUnits row.first row.pages a.left) with
    | some l => ({ a with left := l, lists := a.lists - 1, visitors := a.visitors ++ [(f, [q])] }, mine ++ [f], shed)
    | none => (a, mine, shed + 1)

/-- Assign the candidates of one query, resolving each, until PROBES are taken. -/
def assignQuery (rid st ctx : Nat) (d : SearchD) (a : Assign) (q : Nat) (cands : List Nat) : Run Assign :=
  Run.andThen (Run.forEach cands (a, ([] : List Nat), 0) (fun x c => fun s =>
    if x.2.1.length = d.probes then (.inl x, s)
    else Run.andThen (rdResolve rid st ctx d.coll d.dirSlot c) (fun f =>
      Run.andThen (rdDir rid st ctx d.coll d.dirSlot f) (fun _ => fun t => (.inl (assignOne t d q x f), t))) s))
    (fun r => Run.ok { r.1 with probes := r.1.probes ++ [r.2.1], shed := r.1.shed ++ [r.2.2] })

/-! ### The side list (R362) -/

/-- A side record with its place. -/
structure SideRec where
  addr : Nat
  id : Nat
  seq : Nat
  kind : Nat
  code : List Byte
  deriving DecidableEq, Repr

def headAddr (s : State) (u c : Nat) : Nat := sideBase s u + 16 * c

/-- The records of a block chain from block number plus one `b`. -/
def chainRecs (s : State) (u : Nat) : (fuel b : Nat) → List SideRec
  | 0, _ => []
  | fuel + 1, b =>
    if b = 0 then [] else
    let base := offOf (blockBase s u (b - 1))
    let rb := recordBytes s u
    (List.range (storeNat s (base + 8) 2)).map (fun i =>
      let a := base + 64 + rb * i
      { addr := a, id := storeNat s a 8, seq := storeNat s (a + 8) 6, kind := storeNat s (a + 14) 1, code := storeRead s (a + 16) (codeBytes s u) })
    ++ chainRecs s u fuel (storeNat s base 4)
/-- The blocks of a chain, in order. -/
def chainBlocks (s : State) (u : Nat) : (fuel b : Nat) → List Nat
  | 0, _ => []
  | fuel + 1, b => if b = 0 then [] else (b - 1) :: chainBlocks s u fuel (storeNat s (offOf (blockBase s u (b - 1))) 4)
def sideChain (s : State) (u c : Nat) : List SideRec := chainRecs s u (sideBlocks s u) (storeNat s (offOf (headAddr s u c)) 4)

/-- A record on chain `f` that names `id` with `lo < SEQ ≤ hi` is a tombstone (R366). -/
def hidden (l : List SideRec) (id lo hi : Nat) : Bool := l.any (fun r => r.kind == 2 && r.id == id && decide (lo < r.seq) && decide (r.seq ≤ hi))

/-! ### Scanning and merging (R358-R361) -/

/-- A query as the unit uses it: the vector (q̂ under cosine) and its lookup table for PQ. -/
structure Query where
  vec : List Num
  table : List (List Nat)

def loadQuery (rid st ctx : Nat) (d : SearchD) (q : Nat) : Run Query := fun s =>
  let u := d.coll
  Run.andThen (rdVec rid st ctx (d.queryAddr + 2 * cDim s u * q) (cDim s u)) (fun v =>
    let v := if cMetric s u = 2 then unitVector v else v
    if cCode s u ≠ 0 then Run.ok ⟨v, []⟩ else
    let w := cDim s u / cSubq s u
    Run.andThen (rd rid st ctx (bookBase s u) (512 * cDim s u)) (fun book =>
      let row := fun m j => f16s (slice book (2 * w * (256 * m + j)) (2 * w))
      let t := pqTable (cMetric s u) (cSubq s u) v row
      Run.andThen (write (offOf (d.workAddr + q * tableStep s d)) (t.flatMap (fun r => r.flatMap (fun x => leBytes 2 x))))
        (fun _ => Run.ok ⟨v, t⟩))) s

/-- A query as a scanner loads it: the vector, or the table the work area holds (R360). -/
def queryOf (st ctx : Nat) (d : SearchD) (q : Nat) : Run Query := fun s =>
  let u := d.coll
  if cCode s u = 0 then
    match hbmRange st ctx (offOf (d.workAddr + q * tableStep s d)) (512 * cSubq s u) true s with
    | (some i, t) => (.inr ⟨FAULT_MEMORY, 0, i⟩, t)
    | (none, t) =>
      let l := storeRead t (offOf (d.workAddr + q * tableStep s d)) (512 * cSubq s u)
      (.inl ⟨[], (List.range (cSubq s u)).map (fun m => (List.range 256).map (fun j => leNat (slice l (2 * (256 * m + j)) 2)))⟩, t)
  else
    match hbmRange st ctx (offOf (d.queryAddr + 2 * cDim s u * q)) (2 * cDim s u) true s with
    | (some i, t) => (.inr ⟨FAULT_MEMORY, 0, i⟩, t)
    | (none, t) =>
      let v := f16s (storeRead t (offOf (d.queryAddr + 2 * cDim s u * q)) (2 * cDim s u))
      (.inl ⟨if cMetric s u = 2 then unitVector v else v, []⟩, t)

/-- The score of an item's code for a query (R349). -/
def itemScore (s : State) (u : Nat) (q : Query) (code : List Byte) : Nat :=
  if cCode s u = 0 then pqScore (cMetric s u) q.table code
  else score (cMetric s u) q.vec (code.map (fun b => if cCode s u = 1 then decodeElem 0x2 b.toNat else decodeInt 8 b.toNat))

/-- A flash page read and decoded for a part (R158, R347): the data of the log slot a mapping entry names, or the fault. -/
def flashPage (rid st ctx off m : Nat) : Run (List Byte) := fun s =>
  let f := off / 65536
  let ch := flashChannel s off
  let slot := m % 2 ^ 26
  let loc := flashLocator ch (slot / 256) (slot % 256 * 4 + off / 16384 % 4)
  if s.mem.lost.contains f ∨ bit m 30 then (.inr ⟨FAULT_MEMORY, 0, false⟩, s)
  else if !bit m 31 then (.inl (List.replicate 16384 0), s)
  else
    let i := inject 0x04 loc st (!armed s 0x04 st) s
    let t := act rid st 1 1 i.2
    match i.1 with
    | some (dev, contain) =>
      let t1 := errRec 0x04 loc 0 ctx st FAULT_MEMORY dev true t
      (.inr ⟨FAULT_MEMORY, 0, true⟩, if contain && dev then cvAdd 0x4040 9 0 1 (detect 0x04 t1) else t1)
    | none => (.inl (readCells t.mem.flash ((ch * 2 ^ 26 + slot) * 65536 + off % 65536) 16384), t)

/-- An LDPC exhaustion on a page read for a part (R158, R346): detector, counter. -/
def ldpcFail (st ctx off : Nat) (s : State) : State :=
  let m := mapOf s (off / 65536)
  let slot := m % 2 ^ 26
  let loc := flashLocator (flashChannel s off) (slot / 256) (slot % 256 * 4 + off / 16384 % 4)
  cvAdd 0x4040 9 0 1 (detectRec 0x04 loc 0 ctx st FAULT_MEMORY false s)

/-- The items of a list page: (code, id), or the fault of R346. -/
def listItems (rid st ctx u c j q m : Nat) : Run (List (List Byte × Nat)) := fun s =>
  let off := listPageOff s u q
  match flashPage rid st ctx off m s with
  | (.inr e, t) => (.inr { e with detail := c }, t)
  | (.inl p, t) =>
    let n := leNat (slice p 4 2)
    if leNat (slice p 0 4) ≠ c ∨ (p.getD 6 0).toNat ≠ j ∨ itemsPerPage s u < n then (.inr ⟨FAULT_MEMORY, c, false⟩, ldpcFail st ctx off t)
    else
      let cb := codeBytes s u
      (.inl ((List.range n).map (fun i => (slice p (64 + (cb + 8) * i) cb, leNat (slice p (64 + (cb + 8) * i + cb) 8)))), t)

/-- The K_p best of a page for a visitor (R360, R366). -/
def pageBest (s : State) (d : SearchD) (row : DirRow) (chain : List SideRec) (c : Nat) (q : Query) (items : List (List Byte × Nat)) : List Hit × Nat :=
  let seen := items.filter (fun x => !hidden chain x.2 row.merged d.snapshot)
  (bestHits (kp s d) (seen.map (fun x => ⟨itemScore s d.coll q x.1, x.2, c⟩)), seen.length)
/-- The side inserts of a list a search sees (R366). -/
def sideBest (s : State) (d : SearchD) (row : DirRow) (chain : List SideRec) (c : Nat) (q : Query) : List Hit × Nat :=
  let ins := chain.filter (fun r => r.kind == 1 && decide (row.merged < r.seq) && decide (r.seq ≤ d.snapshot) && !hidden chain r.id r.seq d.snapshot)
  (ins.map (fun r => ⟨itemScore s d.coll q r.code, r.id, c⟩), ins.length)

/-- Saturate to `w` bits. -/
def satu (w n : Nat) : Nat := min n (2 ^ w - 1)

/-- Write bytes for a request, counting the lines. -/
def wr (rid st off : Nat) (data : List Byte) : Run Unit := fun s => (.inl (), listWrite off data (act rid st 0 (cdiv data.length 64) s))

/-- The place of a candidate group (R352). -/
def groupAt (s : State) (d : SearchD) (g : Nat) : Nat := d.workAddr + d.queries * tableStep s d + 16 * kp s d * g
def probeGroup (d : SearchD) (q i j : Nat) : Nat := q * groupsPerQuery d d.pagesMax + i * d.pagesMax + j
def sideGroup (d : SearchD) (q : Nat) : Nat := q * groupsPerQuery d d.pagesMax + d.probes * d.pagesMax

/-- Walk one query: its table is written, its candidates found or read (R350, R352). -/
def walkOne (rid st ctx : Nat) (d : SearchD) (q : Nat) : Run (List Nat) :=
  Run.andThen (loadQuery rid st ctx d q) (fun qu =>
    if d.given then Run.andThen (rd rid st ctx (d.probeAddr + 4 * d.probes * q) (4 * d.probes)) (fun l =>
      Run.ok (((List.range d.probes).map (fun i => leNat (slice l (4 * i) 4))).filter (· ≠ 0xFFFFFFFF)))
    else walkQuery rid st ctx d qu.vec)

/-- The used units of the assigned lists, in the order of R357: list, pass, page. -/
def unitsOf (s : State) (d : SearchD) (a : Assign) : List PageUnit :=
  let v := max 1 (perPass s d.coll)
  let raw := a.visitors.flatMap (fun (x : Nat × List Nat) =>
    let row := dirRow s d.coll d.dirSlot x.1
    let vis := x.2.map (fun q => (q, ((a.probes.getD q []).findIdx? (· == x.1)).getD 0))
    (List.range (cdiv vis.length v)).flatMap (fun p => (List.range row.pages).map (fun j =>
      ({ chan := (row.first + j) % 64, place := 0, list := x.1, page := j,
         map := mapOf s (listPageOff s d.coll (row.first + j) / 65536), visitors := (vis.drop (v * p)).take v } : PageUnit))))
  raw.zipIdx.map (fun (u, n) => { u with place := ((raw.take n).filter (fun w => w.chan == u.chan)).length })

/-- The end of the walk: probes are assigned, the queries are charged (R354, R359). -/
def assignAll (rid st ctx : Nat) (d : SearchD) (r : SearchRun) : Run SearchRun :=
  Run.andThen (Run.forEach r.cands.zipIdx ({ left := List.replicate 64 (scanUnits d), lists := d.listBound } : Assign)
      (fun a (x : List Nat × Nat) => assignQuery rid st ctx d a x.2 x.1))
    (fun a => fun s => (.inl { r with probes := a.probes, shed := a.shed, assigned := true, units := unitsOf s d a, scored := List.replicate d.queries 0 },
      cvAdd 0x7A00 3 st (sumOf a.shed) (act rid st 5 d.queries s)))

/-- Add to the items a query has scored. -/
def SearchRun.score (r : SearchRun) (q n : Nat) : SearchRun := { r with scored := setAt r.scored q (r.scored.getD q 0 + n) }

/-- The side inserts of one query's probes are scored and written (R360, R366). -/
def sideOne (rid st : Nat) (d : SearchD) (ctx q : Nat) (r : SearchRun) : Run SearchRun := fun s =>
  let u := d.coll
  let ps := r.probes.getD q []
  let recs := sumOf (ps.map (fun f => (sideChain s u f).length))
  Run.andThen (queryOf st ctx d q) (fun qu => fun t =>
    let hits := ps.flatMap (fun f => (sideBest t d (dirRow t u d.dirSlot f) (sideChain t u f) f qu).1)
    Run.andThen (wr rid st (offOf (groupAt t d (sideGroup d q))) ((padHits (kp t d) (bestHits (kp t d) hits)).flatMap hitBytes))
      (fun _ => Run.ok { r.score q hits.length with side := q + 1 }) (act rid st 0 (cdiv (recs * recordBytes t u) 64) t)) s

/-- One page unit (R360): the page is read once, every visitor of the pass is scored, its best written. -/
def scanOne (rid st ctx : Nat) (d : SearchD) (w : PageUnit) (r : SearchRun) : Run SearchRun := fun s =>
  let row := dirRow s d.coll d.dirSlot w.list
  Run.andThen (listItems rid st ctx d.coll w.list w.page (row.first + w.page) w.map) (fun items =>
    Run.forEach w.visitors r (fun r v => fun t =>
      let chain := sideChain t d.coll w.list
      Run.andThen (queryOf st ctx d v.1) (fun qu => fun t =>
        let b := pageBest t d row chain w.list qu items
        Run.andThen (wr rid st (offOf (groupAt t d (probeGroup d v.1 v.2 w.page))) ((padHits (kp t d) b.1).flatMap hitBytes))
          (fun _ => Run.ok (r.score v.1 b.2)) t) t)) (cvAdd 0x7A00 2 st 1 s)

/-- Merge one query's groups, as the work area holds them, and write its output row and status word (R361): the row's bytes. -/
def mergeOne (rid st ctx : Nat) (d : SearchD) (q : Nat) (r : SearchRun) : Run (SearchRun × Nat) := fun s =>
  let ps := r.probes.getD q []
  let gs := ps.zipIdx.flatMap (fun (f, i) => (List.range (dirRow s d.coll d.dirSlot f).pages).map (fun j => probeGroup d q i j)) ++ [sideGroup d q]
  let n := kp s d
  Run.andThen (Run.forEach gs ([] : List Hit) (fun acc g => fun t =>
      Run.andThen (rd rid st ctx (groupAt t d g) (16 * n)) (fun l =>
        Run.ok (acc ++ ((List.range n).map (fun i => (⟨leNat (slice l (16 * i + 8) 4), leNat (slice l (16 * i) 8), leNat (slice l (16 * i + 12) 4)⟩ : Hit))).filter (fun h => h != noHit))) t))
    (fun hits =>
      let row := (padHits d.topk (bestHits d.topk hits)).flatMap (fun h => if d.form then hitBytes h else leBytes 8 h.id)
      let word := leBytes 2 (satu 16 ps.length) ++ leBytes 2 (satu 16 (r.shed.getD q 0)) ++ leBytes 4 (satu 32 (r.scored.getD q 0))
      Run.andThen (wr rid st (offOf (d.outAddr + q * d.topk * outEntry d)) row) (fun _ =>
        Run.andThen (if d.statusAddr = 0 then Run.ok () else wr rid st (offOf (d.statusAddr + 8 * q)) word)
          (fun _ => Run.ok ({ r with merged := q + 1 }, row.length)))) s

/-- A search under way: the run of a request's command. -/
def searchRun (s : State) (rid cmd : Nat) : Option SearchRun := AMap.get none s.emb.searches (rid * 64 + cmd)
def setSearch (rid cmd : Nat) (r : Option SearchRun) (s : State) : State :=
  { s with emb := { s.emb with searches := AMap.set none s.emb.searches (rid * 64 + cmd) r } }
/-- A search's booked start. -/
def startSearch (rid cmd : Nat) (s : State) : State := setSearch rid cmd (some {}) s

/-- The units of a channel whose slots have all ended are run, in order. -/
def endedUnits (s : State) (rid cmd start : Nat) (d : SearchD) (r : SearchRun) : List PageUnit :=
  r.units.filter (fun w => decide (410 * (w.place + 1) + slotsLeft s rid cmd (calFlash w.chan) start ≤ 410 * scanUnits d))

/-- What the slots that have ended make of a search, stage by stage (R357, R360, R361): the run, and the bytes of output
written. -/
def stepSearch (rid cmd st ctx : Nat) (c : Cmd) (d : SearchD) (r : SearchRun) : Run (SearchRun × Nat) := fun s =>
  let k := slotsEnded s rid cmd c
  let w := walkSlots s d
  let g := mergeSlots s d
  let walked := Run.forEach ((List.range (dueOf d.queries w k)).drop r.cands.length) r (fun r q =>
    Run.andThen (walkOne rid st ctx d q) (fun l => Run.ok { r with cands := r.cands ++ [l] }))
  let assigned := Run.andThen walked (fun r => if decide (w ≤ k) && !r.assigned then assignAll rid st ctx d r else Run.ok r)
  let sided := Run.andThen assigned (fun r => if !r.assigned then Run.ok r else
    Run.forEach ((List.range (dueOf d.queries (c.slots - w - g) (k - w))).drop r.side) r (fun r q => sideOne rid st d ctx q r))
  let scanned := Run.andThen sided (fun r => fun s =>
    let us := endedUnits s rid cmd c.startSlot d r
    Run.forEach us { r with units := r.units.filter (fun w => !us.contains w) } (fun r w => scanOne rid st ctx d w r) s)
  Run.andThen scanned (fun r =>
    Run.forEach ((List.range (if k + g ≤ c.slots then 0 else dueOf d.queries g (k + g - c.slots))).drop r.merged) (r, 0) (fun x q =>
      Run.andThen (mergeOne rid st ctx d q x.1) (fun y => Run.ok (y.1, x.2 + y.2)))) s

/-- The progress of a search at the ends of its slots. -/
def paceSearch (rid cmd st ctx : Nat) (c : Cmd) (d : SearchD) (s : State) : State :=
  match searchRun s rid cmd with
  | none => s
  | some r =>
    match stepSearch rid cmd st ctx c d r s with
    | (.inl (r', n), t) =>
      let t1 := updCmd rid cmd (fun c => { c with delivered := c.delivered + n, detailAlt := satu 32 (sumOf r'.shed) }) t
      setSearch rid cmd (if r'.merged = d.queries then none else some r') t1
    | (.inr e, t) => updReq rid (fun q => { q with injected := q.injected || e.injected })
        (updCmd rid cmd (fun c => { c with status := some e.status, detail := e.detail, endRound := curRound t }) (setSearch rid cmd none t))

/-! ### INSERT_VECTORS and DELETE_VECTORS (R363-R365) -/

def elementBytes (s : State) (u : Nat) (del : Bool) : Nat := if del then 16 else recordBytes s u

/-- The checks of an insert or delete (R363). Its array is not read at admission, so it may be virtual (R226, R420); a global one lies in
a pinned extent of the stall. -/
def checkSide (s : State) (st ctx : Nat) (e : Entry) (del : Bool) : Chk :=
  let u := e.args 0 2
  let n := e.args 4 4
  let tally := e.args 2 2
  let len := max 1 (n * elementBytes s u del)
  let go := fun (virt : Bool) (a : Nat) (pins : List Pin) =>
    let track := (minOf ((s.gate.reqs.filter (fun r => r.stall == st)).map (·.promise))).getD (2 ^ 64)
    match firstFail [
      (decide (u < 4096), INVALID, 0), (cOwner s u == st, PROTECTION, 0), (tally == 0xFFFF || reachesTally s st tally, PROTECTION, 0),
      (if virt then cv s 0x5810 1 ctx != 0 else readsPinned s st a len, PROTECTION, 0),
      (cActive s u && decide (1 ≤ n) && decide (n ≤ 65536), INVALID, 0),
      ((areaExts s u).all (fun x => (extRec s x).state == 1) && (virt || openRange s a len), FAULT_EXTENT_CLOSED, 0),
      (decide (sideRecords s u + 2 * n ≤ 16777216) && decide (2 * n ≤ sideBlocksFree s u), REFUSED_QUOTA,
        if sideBlocks s u < 2 * n then 2 ^ 64 else track)] with
    | some (x, y) => Chk.bad x y
    | none => .good { opcode := if del then 0x04 else 0x03, work := .side del u tally n a ((collOf s u).pendSeq + 1) virt, pins := pins,
                      exts := dedup (areaExts s u ++ (if virt then [] else extsOf (offOf a) len)) }
  match resolve s st e.modeA e.opa (n * elementBytes s u del) with
  | .bad x => .bad x 0
  | .virt a => go true a []
  | .glob a pins => go false a pins

/-- Slots of an insert or delete, after those of every earlier one of the collection (R363). -/
def afterSides (s : State) (u : Nat) : Nat :=
  maxOf (s.gate.reqs.flatMap (fun r => r.cmds.map (fun c => match c.work with | .side _ v _ _ _ _ _ => if v = u then c.endSlot + 1 else 0 | _ => 0)))
def placeSide (w : For) (ctx a early u n array : Nat) (del virt : Bool) (s : State) : Option (State × Nat × Nat) :=
  let total := cdiv n 64
  let len := n * elementBytes s u del
  let bytes := stackBytes s ctx virt (if virt then array else offOf array) len + 2 * n * recordBytes s u
  let lines := n * (cdiv (elementBytes s u del) 64 + 2 * cdiv (recordBytes s u) 64)
  placeWithWalks w ctx a (if virt then [⟨array, len, false, []⟩] else []) (fun e t =>
    runPhase w { total := total, cals := [(calSearch, 0)], early := e,
                 side := fun d k => let m := cdiv (share bytes total d k) 25600; (List.range 8).map (fun c => (calHbm c, 0, m)),
                 chit := fun _ _ => 0, flt := fun d k => ujOf s 0 (share lines total d k) } t) 64 (max early (afterSides s u)) s

/-- Take a side block: the lowest freed one, or the next never used (log entry 13). -/
def takeBlock (u : Nat) (s : State) : Nat × State :=
  let c := collOf s u
  match minOf c.freeBlocks with
  | some b => (b, setColl u { c with freeBlocks := c.freeBlocks.filter (· ≠ b) } s)
  | none => (c.blocksUsed, setColl u { c with blocksUsed := c.blocksUsed + 1 } s)

/-- Append a record to a chain: into the tail block, or a new one where it is full (R362). -/
def appendRec (u c id seq kind : Nat) (code : List Byte) (s : State) : State :=
  let h := offOf (headAddr s u c)
  let tail := storeNat s (h + 4) 4
  let count := if tail = 0 then 0 else storeNat s (offOf (blockBase s u (tail - 1)) + 8) 2
  let room := tail ≠ 0 ∧ count < recordsPerBlock s u
  let (b, s1) := if room then (tail - 1, s) else takeBlock u s
  let base := offOf (blockBase s1 u b)
  let s2 := if room then s1 else
    let t := listWrite base (leBytes 4 0 ++ leBytes 4 c ++ leBytes 2 0 ++ List.replicate 54 0) s1
    let t1 := if tail = 0 then listWrite h (leBytes 4 (b + 1)) t else listWrite (offOf (blockBase t u (tail - 1))) (leBytes 4 (b + 1)) t
    listWrite (h + 4) (leBytes 4 (b + 1)) t1
  let n := if room then count else 0
  let rec_ := leBytes 8 id ++ leBytes 6 seq ++ leBytes 1 kind ++ leBytes 1 0 ++ code
  let s3 := listWrite (base + 64 + recordBytes s u * n) (rec_ ++ List.replicate (recordBytes s u - rec_.length) 0) s2
  let k := AMap.get 0 (collOf s3 u).chains c + 1
  let s4 := listWrite (base + 8) (leBytes 2 (n + 1)) (listWrite (h + 8) (leBytes 2 k) s3)
  setColl u { collOf s4 u with chains := AMap.set 0 (collOf s4 u).chains c k } s4

/-- The chains an element goes to (R364). -/
def chainsFor (s : State) (u c : Nat) (del : Bool) : List Nat :=
  let x := collOf s u
  let r := resolution s u x.cur c
  let live := fun slot => (dirRow s u slot c).state == 0
  let pinned := (x.slots.getD (1 - x.cur) (0,0,0)).2.1 != 0
  if del then (if c ≠ r ∧ (live x.cur || (pinned && live (1 - x.cur))) then [r, c] else
    match (if x.restock = 1 then x.retireSet.find? (fun p => p.1 == c) else none) with
    | some p => if p.2 ≠ c then [p.2, c] else [r]
    | none => [r])
  else match (if x.restock = 1 then x.retireSet.find? (fun p => p.1 == c) else none) with
    | some p => [p.2]
    | none => [r]

/-- Void every record a command wrote (R365). -/
def voidSeq (u seq : Nat) (s : State) : State :=
  (collOf s u).chains.foldl (fun t e => (sideChain t u e.1).foldl (fun t r => if r.seq = seq then listWrite (r.addr + 14) [0] t else t) t) s

/-- One element of an insert or delete (R363, R364): the records it adds. -/
def sideElement (rid st ctx u array seq : Nat) (del virt : Bool) (i : Nat) : Run Nat := fun s =>
  let eb := elementBytes s u del
  Run.andThen (rdArray rid st ctx virt (array + eb * i) eb) (fun l => fun t =>
    let id := leNat (slice l 0 8)
    let c := leNat (slice l 8 4)
    if cN t u ≤ c then (.inr ⟨INVALID, i, false⟩, t)
    else
      let cs := chainsFor t u c del
      if cs.any (fun x => decide (cv t 0x7900 0x10 u ≤ AMap.get 0 (collOf t u).chains x)) then (.inr ⟨BUSY, i, false⟩, t)
      else (.inl cs.length, cs.foldl (fun t x => appendRec u x id seq (if del then 2 else 1) (if del then [] else slice l 16 (codeBytes t u)) t)
        (act rid st 0 (cs.length * cdiv (recordBytes t u) 64) t))) s

/-- The progress of an insert or delete: 64 elements a slot (R363); it commits at SIDE_COMMIT. -/
def paceSide (rid cmd st ctx u n array seq : Nat) (del virt : Bool) (c : Cmd) (s : State) : State :=
  match Run.forEach ((List.range (min n (64 * slotsEnded s rid cmd c))).drop (min n (64 * c.done))) 0
      (fun k i => Run.andThen (sideElement rid st ctx u array seq del virt i) (fun m => Run.ok (k + m))) s with
  | (.inl k, t) => updCmd rid cmd (fun c => { c with detailAlt := c.detailAlt + k }) t
  | (.inr e, t) => updReq rid (fun q => { q with injected := q.injected || e.injected })
      (updCmd rid cmd (fun c => { c with status := some e.status, detail := e.detail, endRound := curRound t }) (voidSeq u seq t))

end Sys2Proof.Machine
end

