-- ==== Sys2Proof/Machine/Segment.lean ====
section
/-! DEFINITION. RUN_SEGMENT at the Gate: the image's header and operands, the checks, and the placement of its rounds on
the stall's pitch (R297-R301, R303, R97). -/

namespace Sys2Proof.Machine
open Sys2Proof

/-! ### The image (R297, R299) -/

def segOf (base tally : Nat) (contiguous : Bool) (w : Nat) : SegD :=
  let f := fun o n => bits w (8 * (o + n) - 1) (8 * o)
  { base := base, clusters := f 2 1, columns := f 3 1, spanSlots := f 4 2, slices := f 6 2, rounds := f 8 4, cycleLen := f 12 4,
    opRows := f 16 2, moveRows := f 18 2, operands := f 20 4, sliceOff := f 24 8, sliceBytes := f 32 4, porterBytes := f 36 4,
    operandOff := f 40 8, porterOff := f 48 8, atomicT := f 56 2, releaseT := f 58 2, tally := tally, contiguous := contiguous }

def inRange (lo hi n : Nat) : Bool := decide (lo ≤ n) && decide (n ≤ hi)

/-- Every field of the header lies in its range, the version is 1, the reserved bytes are zero (R297). -/
def segRangesOk (d : SegD) (w : Nat) : Bool :=
  bits w 15 0 == 1 && bits w 511 480 == 0 && inRange 1 16 d.clusters && inRange 1 8 d.columns && inRange 1 1024 d.spanSlots
  && inRange 1 4096 d.slices && inRange 1 65536 d.rounds && inRange 1 253 d.opRows && inRange 0 253 d.moveRows
  && inRange 0 65535 d.operands && inRange 0 65536 d.porterBytes

/-- An operand of a segment (R241, R299). -/
structure Operand where
  base : Nat
  stride : Nat
  tileBytes : Nat
  tiles : Nat
  first : Nat
  per : Nat
  write : Bool
  clusters : Nat
  kind : Nat
  deriving DecidableEq, Repr

def operandWord (s : State) (d : SegD) (k : Nat) : Nat := storeNat s (offOf d.base + d.operandOff + 64 * k) 64
def operandOf (s : State) (d : SegD) (k : Nat) : Operand :=
  let w := operandWord s d k
  { base := bits w 255 192, stride := bits w 191 128, tileBytes := bits w 127 96, tiles := bits w 95 80, first := bits w 79 64,
    per := bits w 63 48, write := bit w 16, clusters := bits w 15 0, kind := bits w 263 256 }
def operandOk (s : State) (d : SegD) (k : Nat) : Bool :=
  let w := operandWord s d k
  let o := operandOf s d k
  bits w 47 17 == 0 && bits w 511 264 == 0 && inRange 1 (2 ^ 31) o.tileBytes && decide (1 ≤ o.tiles) && inRange 1 4096 o.per
  && o.clusters != 0 && (o.kind == 1 || o.kind == 2)
def operandsOf (s : State) (d : SegD) : List Operand := (List.range d.operands).map (operandOf s d)
def tileBase (o : Operand) (i : Nat) : Nat := o.base + i * o.stride
/-- The current tile of an operand in round `j` of the part, if any. -/
def tileAt (o : Operand) (j : Nat) : Option Nat :=
  if o.first ≤ j ∧ (j - o.first) / max 1 o.per < o.tiles then some ((j - o.first) / max 1 o.per) else none
/-- The tiles of an operand that rounds of the part use. -/
def tilesUsed (o : Operand) (rounds : Nat) : List Nat := (List.range o.tiles).filter (fun i => decide (o.first + i * o.per < rounds))

/-- The frame uses of the global operands (R299). -/
def segUses (s : State) (d : SegD) : List (Nat × List Nat) :=
  mergeUses ((operandsOf s d).flatMap (fun o => if o.kind ≠ 2 then [] else
    (tilesUsed o d.rounds).flatMap (fun i => (if o.write then writeUses else readUses) s (offOf (tileBase o i)) o.tileBytes)))
def segExts (s : State) (d : SegD) : List Nat :=
  dedup (extsOf (offOf d.base) 64 ++ (operandsOf s d).flatMap (fun o => if o.kind ≠ 2 then [] else
    (tilesUsed o d.rounds).flatMap (fun i => extsOf (offOf (tileBase o i)) o.tileBytes)))

/-- RUN_SEGMENT (R300): checks 2 and 3 on the image, its header and its operands. -/
def checkSegment (s : State) (st ctx : Nat) (e : Entry) : Chk :=
  match resolve s st e.modeA e.opa 64 with
  | .bad x => .bad x 0
  | .virt _ => .bad INVALID 0
  | .glob a pins =>
    match firstFail [
      (localRange s a 64, INVALID, 0),
      (pinnedRange s st a 64, PROTECTION, 0),
      (e.args 0 2 == 0xFFFF || reachesTally s st (e.args 0 2), PROTECTION, 0),
      (openRange s a 64, FAULT_EXTENT_CLOSED, 0)] with
    | some (x, d) => .bad x d
    | none =>
      let w := readDesc s a
      let d := segOf a (e.args 0 2) (bit (e.args 4 1) 0) w
      let os := operandsOf s d
      let glob := os.filter (fun o => o.kind == 2)
      let each := fun (f : Operand → Nat → Nat → Bool) => glob.all (fun o => (tilesUsed o d.rounds).all (fun i => f o (tileBase o i) o.tileBytes))
      let used := (segUses s d).map (·.1)
      match firstFail [
        (segRangesOk d w, INVALID, 0),
        (decide (d.cycleLen ≤ oppCycles (cv s 0x2030 2)), INVALID, 0),
        (decide (atomicTicks s ≤ d.atomicT) && decide (releaseTicks s ≤ d.releaseT), INVALID, 0),
        ((List.range d.operands).all (operandOk s d), INVALID, 0),
        (os.all (fun o => o.kind == 2) || cv s 0x5810 1 ctx != 0, PROTECTION, 0),
        (each (fun o b n => if o.write then ownsRange s st b n else readsRange s st b n), PROTECTION, 0),
        (each (fun _ b n => openRange s b n), FAULT_EXTENT_CLOSED, 0),
        (!shortVictim s used, REFUSED_QUOTA, 2 ^ 64),
        coverCheck s used] with
      | some (x, y) => .bad x y
      | none => .good { opcode := 0x05, work := .segment d, pins := pins, exts := segExts s d, hold := used }

/-! ### Placement on the pitch (R300, R301, R303, R284) -/

/-- Slots as a mask of 1,024 bits. -/
def slotMask (l : List Nat) : Nat := l.foldl (fun a k => a ||| 2 ^ k) 0
def groupMask (m : Nat) : Nat := (setBits 128 m).foldl (fun a g => a + 255 * 2 ^ (8 * g)) 0
def andNot (a b : Nat) : Nat := a - (a &&& b)

/-- The share mask of column `c` of cluster `k`. -/
def colShare (s : State) (st k c : Nat) : Nat := shareMask s st (72 + 8 * k + c)

/-- Slots of a column booked in a round. -/
def colBooked (s : State) (k c r : Nat) : Nat :=
  slotMask ((s.gate.books.filter (fun b => b.cal == calPitch k && b.round == r && bit b.mask c)).flatMap (·.slots))
/-- Slots of a column lent to the stall under SLOT_LEND in a round (R130). -/
def colLent (s : State) (st k c r booked : Nat) : Nat :=
  ((pactsInForce s).filter (fun p => cv s 0x3040 1 p == 1 && cv s 0x3040 3 p == st && cv s 0x3040 4 p == calPitch k)).foldl (fun a p =>
    let own := groupMask (colShare s (cv s 0x3040 2 p) k c)
    let mine := slotMask ((s.gate.books.filter (fun b => b.stall == st && b.cal == calPitch k && b.round == r)).flatMap (·.slots)) &&& own
    let free := andNot own booked
    let again := free &&& mine
    let more := (setBits 1024 (andNot free mine)).take (cv s 0x3040 5 p - popc 1024 mine)
    a ||| again ||| slotMask more) 0
/-- Free slots of a column for a stall in a round, as a mask. -/
def colFree (s : State) (st k c r : Nat) (bulk : Bool) : Nat :=
  let booked := colBooked s k c r
  let own := andNot (groupMask (colShare s st k c)) booked ||| colLent s st k c r booked
  if bulk || !s.gate.pauses.any (fun p => p.stall == st) then own
  else slotMask ((setBits 1024 own).filter (fun i => !inPause s st (r * 1024 + i)))

/-- BULK column-slots a stall may still book on a cluster in a round (R52). -/
def pitchBulkRoom (s : State) (st k r : Nat) : Nat :=
  let all := sumOf ((List.range 8).map (fun c => 8 * popc 128 (colShare s st k c)))
  let used := sumOf ((s.gate.books.filter (fun b => b.bulk && b.stall == st && b.cal == calPitch k && b.round == r)).map (fun b => max b.count b.slots.length * popc 8 b.mask))
  all * cv s 0x1010 4 st / 100 - used

/-- The clusters and column masks that hold a span of `n` slots from `start`, lowest first. -/
def spotsAt (d : SegD) (free : List (Nat × List (Nat × Nat))) (start : Nat) : List (Nat × Nat) :=
  let full := 2 ^ d.spanSlots - 1
  (free.filterMap (fun (kc : Nat × List (Nat × Nat)) =>
    let cols := (kc.2.filter (fun c => c.2 / 2 ^ start % 2 ^ d.spanSlots == full)).map (·.1)
    let pick := cols.take d.columns
    if pick.length = d.columns ∧ (d.moveRows = 0 ∨ pick.contains 0) then some (kc.1, slotMask pick) else none)).take d.clusters

/-- Where round `r` can hold the spans: the lowest START, then the lowest clusters and columns (log entry 15). -/
def findSpot (s : State) (w : For) (d : SegD) (r : Nat) : Option (Nat × List (Nat × Nat)) :=
  let free := ((List.range 16).map (fun k => (k, ((List.range 8).map (fun c => (c, colFree s w.stall k c r w.bulk))).filter (fun x => x.2 != 0)))).filter
    (fun kc => decide (d.columns ≤ kc.2.length) && (!w.bulk || decide (d.columns * d.spanSlots ≤ pitchBulkRoom s w.stall kc.1 r)))
  (List.range (1025 - d.spanSlots)).findSome? (fun start =>
    let l := spotsAt d free start
    if l.length = d.clusters then some (start, l) else none)

/-- The parts that hold counts of pitch in round `r` (R52), in acceptance order, and the place of one of them. -/
def pitchCounts (s : State) (r : Nat) : List (Nat × Nat) :=
  dedup ((s.gate.books.filter (fun b => b.round == r && b.slots.isEmpty && decide (0 < b.count) && b.mask != 0)).map (fun b => (b.rid, b.cmd)))
def placeSpan (r : Nat) (s : State) (x : Nat × Nat) : State :=
  let mine := fun (b : Booking) => b.rid == x.1 && b.cmd == x.2 && b.round == r && b.slots.isEmpty && b.mask != 0
  let t := { s with gate := { s.gate with books := s.gate.books.filter (fun b => !mine b) } }
  match cmdOf s x.1 x.2, s.gate.books.find? mine with
  | some c, some b =>
    match c.work with
    | .segment d =>
      (match findSpot t { rid := b.rid, cmd := b.cmd, stall := b.stall, bulk := b.bulk, maxR := r } d r with
       | some (start, l) => l.foldl (fun u kc => addBook { b with cal := calPitch kc.1, mask := kc.2, slots := (List.range d.spanSlots).map (· + start) } u) t
       | none => s)
    | _ => s
  | _, _ => s
/-- The pitch counts of a round placed in individual slots, as they are when the round enters the horizon. -/
def pitchPlaced (r : Nat) (s : State) : State := (pitchCounts s r).foldl (placeSpan r) s
def placePitch (r : Nat) (s : State) : State := (pitchCounts s r).foldl (fun t x => retimeRound x.1 x.2 r t) (pitchPlaced r s)

/-- Bytes of image the load of round `j` reads (R303). -/
def loadBytes (d : SegD) (j : Nat) : Nat := d.sliceBytes + (if j = 0 then d.clusters * d.columns * 2 * d.porterBytes else 0)
/-- Bytes a tile books on each stack: an eighth of it in 256-byte bursts where it is a global range aligned to 64 KiB (R151), else
by R238. -/
def tileBytesPerStack (s : State) (ctx : Nat) (o : Operand) (i : Nat) : Nat :=
  if o.kind ≠ 1 ∧ tileBase o i % 65536 = 0 then 256 * cdiv (cdiv o.tileBytes 8) 256
  else stackBytes s ctx (o.kind == 1) (if o.kind = 1 then tileBase o i else offOf (tileBase o i)) o.tileBytes
/-- Bytes booked on each stack, and lines counted, for the operands' tiles of round `j`: a tile's use is spread over its
rounds (log entry 16). -/
def tileUse (s : State) (ctx : Nat) (os : List Operand) (j : Nat) : Nat × Nat :=
  let l := os.filterMap (fun o => (tileAt o j).map (fun i =>
    (cdiv (tileBytesPerStack s ctx o i) o.per, cdiv (cdiv o.tileBytes 64) o.per)))
  (sumOf (l.map (·.1)), sumOf (l.map (·.2)))

/-- The chit of one round (R97): engines of the booked pitch slots at the engine-round energy of OPP_CEILING. -/
def segChit (s : State) (d : SegD) : Nat := cdiv (4 * d.columns * d.clusters * d.spanSlots * oppNj (cv s 0x2030 2)) 1024000

/-- Book round `j` of the part in round `r`, its load in round `r - 1`; none where a share does not hold it. Beyond the horizon its
pitch is a count (R52). -/
def bookSegRound (w : For) (ctx : Nat) (d : SegD) (os : List Operand) (j r : Nat) (s : State) : Option (State × Nat) :=
  let chit := segChit s d
  let lb := cdiv (cdiv (loadBytes d j) 8) 25600
  let use := tileUse s ctx os j
  let ub := cdiv use.1 25600
  let f0 := ujOf s 0 (cdiv (loadBytes d j) 64)
  let f1 := ujOf s 0 use.2
  if !chitFits s w.stall r chit || !floatFits s w.stall (r - 1) f0 || !floatFits s w.stall r f1
    || (List.range 8).any (fun k => decide ((takeable s w.stall (calHbm k) 0 (r - 1) 0 w.bulk).length < lb)
        || decide ((takeable s w.stall (calHbm k) 0 r 0 w.bulk).length < ub)) then none
  else
    let beyond := decide (curRound s + 256 < r)
    match findSpot (if beyond then pitchPlaced r s else s) w d r with
    | none => none
    | some (start, l) =>
      let slots := if beyond then [] else (List.range d.spanSlots).map (· + start)
      let s1 := l.foldl (fun t kc => addBook { rid := w.rid, cmd := w.cmd, stall := w.stall, cal := calPitch kc.1, round := r, slots := slots,
                                               count := d.spanSlots, mask := kc.2, bulk := w.bulk } t) s
      let s2 := (List.range 8).foldl (fun t k => bookN w (calHbm k) 0 r 0 ub (bookN w (calHbm k) 0 (r - 1) 0 lb t)) s1
      some (addEnergy w.rid w.stall r f1 false (addEnergy w.rid w.stall (r - 1) f0 false (addEnergy w.rid w.stall r chit true s2)),
        r * 1024 + start)

/-- Place the rounds of a part from round `r` on; a broken run of a CONTIGUOUS part begins again. -/
def placeSegRounds (book : (j r : Nat) → State → Option (State × Nat)) (d : SegD) (maxR : Nat) (s0 : State) :
    (fuel r j first last : Nat) → State → Option (State × Nat × Nat)
  | 0, _, _, _, _, _ => none
  | fuel + 1, r, j, first, last, s =>
    if d.rounds ≤ j then some (s, first, last) else
    if maxR < r then none else
    match book j r s with
    | some (t, at_) => placeSegRounds book d maxR s0 fuel (r + 1) (j + 1) (if j = 0 then at_ else first) (at_ + d.spanSlots - 1) t
    | none =>
      if d.contiguous && j != 0 then placeSegRounds book d maxR s0 fuel (r + 1) 0 first last s0
      else placeSegRounds book d maxR s0 fuel (r + 1) j first last s

/-- The rounds a part holds, ascending. -/
def segRounds (s : State) (rid cmd : Nat) : List Nat :=
  dedup ((s.gate.books.filter (fun b => b.rid == rid && b.cmd == cmd && decide (72 ≤ b.cal) && decide (b.cal < 88))).map (·.round))

/-- Book the pre-walks of the virtual operands' tiles (R241, R237). -/
def bookTiles (w : For) (ctx : Nat) (d : SegD) (rounds : List Nat) : List (Operand × Nat) → State → Option State
  | [], s => some s
  | (o, i) :: rest, s =>
    let use := rounds.getD (o.first + i * o.per) 0
    let last := rounds.getD (min (o.first + (i + 1) * o.per - 1) (d.rounds - 1)) use
    match bookWalkList w ctx use last o.write (setBits 16 o.clusters) (leavesOf (tileBase o i) o.tileBytes (minLeaf s ctx)) s with
    | none => none
    | some t => bookTiles w ctx d rounds rest t

/-- Book the fills of the global operands' tiles in the order of their first use (R150): each ends before the round of that use
and begins no more than PREFETCH_WINDOW_ROUNDS before it. The rounds by which a fill comes too late, where one does. -/
def bookTileFills (w : For) (a : Nat) (rounds : List Nat) : List (Nat × List (Nat × List Nat)) → State → Option (State × Nat)
  | [], s => some (s, 0)
  | (j, uses) :: rest, s =>
    let use := rounds.getD j 0
    match bookFills w uses (max (a + 3) (use - cv s 0x4030 9 w.stall) * 1024) 0 s with
    | none => none
    | some (t, last) => if use * 1024 < readyAfter last then some (s, readyAfter last / 1024 - use) else bookTileFills w a rounds rest t
/-- The tiles of the global operands that are first used in round `j` of the part, with their frames: each frame once, at its first
use. -/
def tileFills (s : State) (d : SegD) : List (Nat × List (Nat × List Nat)) :=
  let l := (operandsOf s d).flatMap (fun o => if o.kind ≠ 2 then [] else (tilesUsed o d.rounds).map (fun i =>
    (o.first + i * o.per, mergeUses ((if o.write then writeUses else readUses) s (offOf (tileBase o i)) o.tileBytes))))
  firstUses (l.foldl (fun acc x => insertKeyed x acc) []) []

/-- Place a segment: its victims' write-backs, its rounds from a + 2 on (R301), the fills and the pre-walks of its tiles; what does
not fit moves the rounds later. -/
def placeSegment (w : For) (ctx a early : Nat) (d : SegD) : (fuel : Nat) → State → Option (State × Nat × Nat)
  | 0, _ => none
  | fuel + 1, s =>
    let os := operandsOf s d
    let tiles := os.flatMap (fun o => if o.kind = 1 then (tilesUsed o d.rounds).map (fun i => (o, i)) else [])
    match bookVictims w a ((segUses s d).map (·.1)) s with
    | none => none
    | some (s1, free) =>
      let r := max (max (cdiv early 1024) (a + 2)) free
      match placeSegRounds (bookSegRound w ctx d os) d w.maxR s1 (w.maxR + 2 - r) r 0 (r * 1024) (r * 1024) s1 with
      | none => none
      | some (t, first, last) =>
        let rounds := segRounds t w.rid w.cmd
        match bookTileFills w a rounds (tileFills s d) t with
        | none => none
        | some (u, late) =>
          if late ≠ 0 then placeSegment w ctx a ((first / 1024 + late) * 1024) d fuel s else
          match bookTiles w ctx d rounds tiles u with
          | some v => some (v, first, last)
          | none => placeSegment w ctx a ((first / 1024 + 1) * 1024) d fuel s

end Sys2Proof.Machine
end

