-- ==== Sys2Proof/Machine/Loader.lean ====
section
/-! DEFINITION. The loader: slices read, checked against R305 and composed into NEXT (R281-R292, R298, R302-R305), and
how a command ends before its work is done (R72). -/

namespace Sys2Proof.Machine
open Sys2Proof

/-! ### Ends (R72, R68) -/

/-- End a command with a status, where it has none yet. -/
def endCmd (rid cmd status detail : Nat) (inj : Bool) (s : State) : State :=
  match cmdOf s rid cmd with
  | some c =>
    if c.status.isSome then s else
    updReq rid (fun r => { r with injected := r.injected || (inj && status != OK) })
      (updCmd rid cmd (fun c => { c with status := some status, detail := detail, endRound := curRound s }) s)
  | none => s

/-- The mark of a command abandoned under R68; it is in no record. -/
abbrev ABANDONED := 0xFF
def failed (c : Cmd) : Bool := match c.status with | some x => x != OK && x != ABANDONED | none => false
/-- A command of the request ended with a status other than OK. -/
def chainFailed (q : Req) : Bool := q.cmds.any failed
def openCmd (c : Cmd) : Bool := c.status.isNone
/-- Abandon the commands that satisfy `p` and have not started (R68). -/
def abandon (p : Cmd → Bool) (q : Req) : Req :=
  { q with cmds := q.cmds.map (fun c => if openCmd c && !c.started && p c then { c with status := some ABANDONED } else c) }
/-- The commands not yet started of requests with a failed command are abandoned (R68). -/
def noteChains (s : State) : State :=
  if s.gate.reqs.any chainFailed then
    { s with gate := { s.gate with reqs := s.gate.reqs.map (fun q => if chainFailed q then abandon (fun c => !slotBegun s c.startSlot) q else q) } }
  else s

/-- An uncorrectable SRAM word met by a part: the real one is recorded and counted (R270, R494). -/
def sramEnd (rid cmd st ctx locator : Nat) (inj : Bool) (s : State) : State :=
  let s1 := if inj then s else cvAdd 0x6020 2 st 1 (detectRec 0x02 locator 0 ctx st FAULT_MEMORY false s)
  endCmd rid cmd FAULT_MEMORY 0 inj s1

/-! ### Subfields and rows (R281, R282, R289, R291) -/

def fOp (w : Nat) : Nat := bits w 27 20
def fEngines (w : Nat) : Nat := bits w 19 16
def fPred (w : Nat) : Nat := bits w 15 12
def fHold (w : Nat) : Nat := bits w 11 0
def mOp (w : Nat) : Nat := bits w 15 8
def mHold (w : Nat) : Nat := bits w 7 0
def oClass (r : Nat) : Nat := bits r 255 252
def oFmtA (r : Nat) : Nat := bits r 251 248
def oFmtB (r : Nat) : Nat := bits r 247 244
def oFmtOut (r : Nat) : Nat := bits r 243 240
def oSparsity (r : Nat) : Nat := bits r 239 238
def oShift (r : Nat) : Nat := bits r 237 233
def oAcc (r : Nat) : Nat := bits r 232 232
def oClear (r : Nat) : Bool := bit r 231
def oLoad (r : Nat) : Bool := bit r 230
def oSpaceA (r : Nat) : Nat := bits r 229 229
def oSpaceB (r : Nat) : Nat := bits r 228 228
def oAddrA (r : Nat) : Nat := bits r 223 200
def oAddrB (r : Nat) : Nat := bits r 199 176
def oMeta (r : Nat) : Nat := bits r 175 152
def oScale (r : Nat) : Nat := bits r 151 128
def oStrideA (r : Nat) : Int := sext 16 (bits r 127 112)
def oStrideB (r : Nat) : Int := sext 16 (bits r 111 96)
def oStrideM (r : Nat) : Int := sext 16 (bits r 95 80)
def oStrideS (r : Nat) : Int := sext 16 (bits r 79 64)
def oStepA (r : Nat) : Nat := bits r 63 40
def oStepB (r : Nat) : Nat := bits r 39 16
def mDir (r : Nat) : Nat := bits r 255 252
def mPred (r : Nat) : Nat := bits r 251 248
def mSpace (r : Nat) : Nat := bits r 247 247
def mCore (r : Nat) : Nat := bits r 246 244
def mSrcSpace (r : Nat) : Nat := bits r 243 243
def mSrcCore (r : Nat) : Nat := bits r 242 240
def mOperand (r : Nat) : Nat := bits r 239 224
def mOffset (r : Nat) : Nat := bits r 223 176
def mSrcAddr (r : Nat) : Nat := bits r 199 176
def mBankAddr (r : Nat) : Nat := bits r 175 152
def mOffStep (r : Nat) : Int := sext 24 (bits r 127 104)
def mBankStep (r : Nat) : Int := sext 24 (bits r 103 80)

/-- Stored weights of one array cell (R254): two for the 4-bit formats. -/
def lanesOf (f : Nat) : Nat := if f = 1 ∨ f = 9 then 2 else 1
def wideFmt (f : Nat) : Bool := f == 0xA || f == 0xB
/-- Stored elements along K of a weight plane, and the logical K it covers (R262); a 16-bit weight takes two array
rows (log entry 17). -/
def planeElems (f : Nat) : Nat := if wideFmt f then 8 else 16 * lanesOf f
def planeK (f sp : Nat) : Nat := planeElems f * (if sp = 1 then 2 else if sp = 2 then 4 else 1)
/-- Bytes of one stored row, and of one A row. -/
def storedRowBytes (f : Nat) : Nat := if f = 7 ∨ f = 8 then 12 else 16
def aRowBytes (fa k : Nat) : Nat := packedBytes fa k
def outBytes (f : Nat) : Nat := if f ≤ 1 then 4 else if f = 3 ∨ f = 4 then 2 else 1

/-- The format pairs of R257. -/
def pairOk (a b : Nat) : Bool :=
  (a == 0 && b == 0) || (a == 1 && b == 1) || (a == 9 && b == 9)
  || (inRange 2 8 a && inRange 2 8 b) || (wideFmt a && wideFmt b)

/-- An engine's accesses of one repeat: (space, first address, stride, bytes, write). -/
structure Acc where
  space : Nat
  base : Nat
  stride : Int
  len : Nat
  write : Bool
  deriving DecidableEq, Repr

def rowAccs (r e : Nat) : List Acc :=
  let b := [⟨oSpaceB r, oAddrB r + e * oStepB r, oStrideB r, storedRowBytes (oFmtB r), false⟩]
    ++ (if oSparsity r = 0 then [] else [⟨oSpaceB r, oMeta r + e * oStepB r, oStrideM r, 16, false⟩])
  match oClass r with
  | 1 => b ++ (if hasScale (oFmtB r) then [⟨oSpaceB r, oScale r + e * oStepB r, oStrideS r, 16, false⟩] else [])
  | 2 =>
    let k := planeK (oFmtB r) (oSparsity r)
    [⟨oSpaceA r, oAddrA r + e * oStepA r, oStrideA r, aRowBytes (oFmtA r) k, false⟩]
      ++ (if hasScale (oFmtA r) then [⟨oSpaceA r, oScale r, oStrideS r, cdiv k 32, false⟩] else [])
      ++ (if oLoad r then b else [])
  | 3 => [⟨oSpaceA r, oAddrA r + e * oStepA r, oStrideA r, 16 * outBytes (oFmtOut r), true⟩]
  | _ => []

def atRep (base : Nat) (stride : Int) (i : Nat) : Int := (base : Int) + stride * i

/-- Every address of an access lies in a space of `size` bytes over repeats 0 to `hold` (the ends bound the rest). -/
def accIn (a : Acc) (size hold : Nat) : Bool :=
  [0, hold].all (fun i => decide (0 ≤ atRep a.base a.stride i) && decide (atRep a.base a.stride i + a.len ≤ size))

/-- Bank list of a space of a stall: 0 the scratchpad of core `c`, 1 the cluster store (R264). -/
def banksOf (s : State) (st k c space : Nat) : List Nat := if space = 0 then spadList s st k c else storeList s st k
def spaceSize (s : State) (st k c space : Nat) : Nat := if space = 0 then spadSize s st k c else storeSize s st k

/-- Reserved fields and encodings of an operation row (R289, R305 case 1). -/
def opRowOk (r : Nat) : Bool :=
  inRange 1 4 (oClass r) && bits r 227 224 == 0 && bits r 15 0 == 0
  && (oClass r != 1 || (decide (oFmtB r < 12) && oSparsity r != 3))
  && (oClass r != 2 || (decide (oFmtA r < 12) && decide (oFmtB r < 12) && oSparsity r != 3))
  && (oClass r != 3 || decide (oFmtOut r ≤ 6))
  && (oClass r != 4 || bits r 223 216 == 0)
/-- Reserved fields and encodings of a mover row (R291). -/
def moveRowOk (r : Nat) : Bool :=
  inRange 1 3 (mDir r) && bits r 151 128 == 0 && bits r 79 0 == 0 && mBankAddr r % 8 == 0
  && (if mDir r = 3 then bits r 223 200 == 0 else mOffset r % 256 == 0)

/-! ### A slice (R298) -/

structure Slice where
  cols : List (List Nat)     -- by cluster and column of the image
  movs : List (List Nat)     -- by cluster
  rows : List (List Nat)     -- operation rows by cluster and column
  mrows : List (List Nat)    -- mover rows by cluster
  deriving DecidableEq, Repr

/-- A counted list of words at an offset, and the offset after it. -/
def readWords (s : State) (off limit : Nat) : Option (List Nat × Nat) :=
  let n := storeNat s off 4
  if limit < 4 * n then none else some ((List.range n).map (fun i => storeNat s (off + 4 + 4 * i) 4), off + 4 + 4 * n)
def readLists (s : State) (limit : Nat) : Nat → Nat → Option (List (List Nat) × Nat)
  | 0, off => some ([], off)
  | n + 1, off => match readWords s off limit with
    | none => none
    | some (l, o) => match readLists s limit n o with
      | none => none
      | some (r, o') => some (l :: r, o')
def readRows (s : State) (off n m : Nat) : List (List Nat) :=
  (List.range n).map (fun i => (List.range m).map (fun j => storeNat s (off + 32 * (i * m + j)) 32))
def readSlice (s : State) (d : SegD) (k : Nat) : Option Slice :=
  let off := offOf d.base + d.sliceOff + k * d.sliceBytes
  match readLists s d.sliceBytes (d.clusters * d.columns) off with
  | none => none
  | some (cols, o1) => match readLists s d.sliceBytes d.clusters o1 with
    | none => none
    | some (movs, o2) =>
      let per := d.columns * d.opRows
      let rows := (List.range d.clusters).flatMap (fun i => readRows s (o2 + 32 * i * per) d.columns d.opRows)
      let mrows := readRows s (o2 + 32 * d.clusters * per) d.clusters d.moveRows
      some ⟨cols, movs, rows, mrows⟩

/-- A stream of subfields ends with one END, at its end, and uses known encodings (R281, R290, R298). -/
def streamOk (rows : List Nat) : List Nat → Bool
  | [] => false
  | w :: rest =>
    let op := fOp w
    decide (w < 2 ^ 28) && (if op = 0xFE then rest.isEmpty && bits w 19 0 == 0 else
      (if op = 0 then fEngines w == 0 && fPred w == 0 else
        decide (op ≤ rows.length) && (let r := rows.getD (op - 1) 0
          (oClass r != 4 || (fHold w == 0 && decide (fEngines w < 4))) && (oClass r != 1 || fHold w % 16 == 15)))
      && streamOk rows rest)
def moverStreamOk (n : Nat) : List Nat → Bool
  | [] => false
  | w :: rest => decide (w < 2 ^ 16) && (if mOp w = 0xFE then rest.isEmpty && mHold w == 0 else decide (mOp w ≤ n) && moverStreamOk n rest)

/-- Cycles of a stream's subfields other than END (R287). -/
def streamCycles (l : List Nat) : Nat := sumOf ((l.filter (fun w => fOp w != 0xFE)).map (fun w => fHold w + 1))
/-- Subfields with their first cycles. -/
def timed (hold op : Nat → Nat) : Nat → List Nat → List (Nat × Nat)
  | _, [] => []
  | t, w :: r => if op w = 0xFE then [] else (t, w) :: timed hold op (t + hold w + 1) r

/-- A bank access by a requester: (requester, cycle, bank, word). -/
abbrev BankAcc := Nat × Nat × Nat × Nat
def wordsOf (req t : Nat) (banks : List Nat) (a len : Nat) : List BankAcc :=
  (List.range ((a + len - 1) / 8 + 1 - a / 8)).map (fun i => let w := a / 8 + i; (req, t, banks.getD (w % banks.length) 0, w / banks.length))
/-- Two accesses to different words of one bank: of different requesters within 2 cycles, or of one in one cycle (R305
case 6, R266; log entry 18). -/
def collide (x y : BankAcc) : Bool :=
  x.2.2.1 == y.2.2.1 && x.2.2.2 != y.2.2.2
  && (if x.1 = y.1 then x.2.1 == y.2.1 else decide (x.2.1 ≤ y.2.1 + 2) && decide (y.2.1 ≤ x.2.1 + 2))
def anyCollide : List BankAcc → Bool
  | [] => false
  | x :: r => r.any (collide x) || anyCollide r

/-- Engine accesses of a column's stream. -/
def columnAccs (s : State) (st k c : Nat) (rows stream : List Nat) : List BankAcc :=
  (timed fHold fOp 0 stream).flatMap (fun (t, w) => if fOp w = 0 then [] else
    let r := rows.getD (fOp w - 1) 0
    if oClass r = 4 then [] else
    (setBits 4 (fEngines w)).flatMap (fun e => (rowAccs r e).flatMap (fun a =>
      (List.range (fHold w + 1)).flatMap (fun i => wordsOf (32 * k + 4 * c + e) (t + i) (banksOf s st k c a.space) (atRep a.base a.stride i).toNat a.len))))
/-- Bank-side accesses of a mover stream (R292): a burst takes its 32 words over ceil(32 / m) cycles. -/
def burstAccs (t : Nat) (banks : List Nat) (a : Nat) : List BankAcc :=
  (List.range 32).map (fun i => let w := a / 8 + i; (1000, t + i / max 1 banks.length, banks.getD (w % banks.length) 0, w / banks.length))
def moverAccs (s : State) (st k : Nat) (rows stream : List Nat) : List BankAcc :=
  (timed mHold mOp 0 stream).flatMap (fun (t, w) => if mOp w = 0 then [] else
    let r := rows.getD (mOp w - 1) 0
    (List.range (mHold w + 1)).flatMap (fun i =>
      let a := (atRep (mBankAddr r) (mBankStep r) i).toNat
      let banks := banksOf s st k (mCore r) (mSpace r)
      if mDir r = 1 then burstAccs (t + i + cv s 0x6030 9) banks a
      else if mDir r = 2 then burstAccs (t + i) banks a
      else burstAccs (t + i) (banksOf s st k (mSrcCore r) (mSrcSpace r)) (atRep (mSrcAddr r) (mOffStep r) i).toNat ++ burstAccs (t + i + 4) banks a))

/-- No DRAIN of a row begins sooner than 16 cycles after the last MAC repeat into it (R290). -/
def drainsOk (rows stream : List Nat) : Bool :=
  let l := (timed fHold fOp 0 stream).filter (fun x => fOp x.2 != 0)
  let row := fun (w : Nat) => rows.getD (fOp w - 1) 0
  l.all (fun (td, wd) => oClass (row wd) != 3 || l.all (fun (tm, wm) =>
    oClass (row wm) != 2 || td < tm || oAcc (row wm) != oAcc (row wd) || fEngines wm &&& fEngines wd == 0
    || (List.range (min 16 (min (fHold wm) (fHold wd) + 1))).all (fun i => decide (tm + (fHold wm - i) / 16 * 16 + i + 16 ≤ td + i))))

/-! ### Checks of a load (R305) -/

/-- Where a part's image columns lie in a round: (cluster, column) in image order, and the span's slots. -/
structure Lay where
  clusters : List Nat
  cols : List (Nat × Nat)
  start : Nat
  last : Nat

def layOf (s : State) (rid cmd r : Nat) : Lay :=
  let bs := s.gate.books.filter (fun b => b.rid == rid && b.cmd == cmd && b.round == r && decide (72 ≤ b.cal) && decide (b.cal < 88))
  let sl := (bs.headD ⟨0, 0, 0, 0, 0, 0, [], 0, 0, false, 0, false⟩).slots
  { clusters := bs.map (fun b => b.cal - 72), cols := bs.flatMap (fun b => (setBits 8 b.mask).map (fun c => (b.cal - 72, c))),
    start := (minOf sl).getD 0, last := maxOf sl }

/-- Mover row checks of one cluster that need the round (case 8), and its bank sides (case 4). -/
def moveOperandOk (s : State) (d : SegD) (j r : Nat) : Bool :=
  mDir r == 3 || (decide (mOperand r < d.operands) && (tileAt (operandOf s d (mOperand r)) j).isSome)
def moveIn (s : State) (st k r hold : Nat) : Bool :=
  let ok := fun (a : Nat) (stp : Int) (size : Nat) => accIn ⟨0, a, stp, 256, false⟩ size hold
  ok (mBankAddr r) (mBankStep r) (spaceSize s st k (mCore r) (mSpace r))
  && (mDir r != 3 || ok (mSrcAddr r) (mOffStep r) (spaceSize s st k (mSrcCore r) (mSrcSpace r)))

/-- The first failing case of R305 for a slice laid out in a round; 0 where it loads. -/
def sliceFault (s : State) (st : Nat) (d : SegD) (j : Nat) (x : Slice) (lay : Lay) : Nat :=
  let cs := lay.cols.zipIdx
  let ks := lay.clusters.zipIdx
  let col := fun i => x.cols.getD i []
  let rows := fun i => x.rows.getD i []
  let mcol := fun i => x.movs.getD i []
  let mrows := fun i => x.mrows.getD i []
  let usedOps := fun i (f : Nat → Nat → Bool) => (col i).all (fun w => fOp w = 0 || fOp w = 0xFE || f w ((rows i).getD (fOp w - 1) 0))
  let usedMoves := fun i (f : Nat → Nat → Bool) => (mcol i).all (fun w => mOp w = 0 || mOp w = 0xFE || f w ((mrows i).getD (mOp w - 1) 0))
  let n := lay.last + 1 - lay.start
  let cap := n * oppCycles (cv s 0x2030 2) / 1024
  if !(cs.all (fun (_, i) => (rows i).all opRowOk && streamOk (rows i) (col i)) && ks.all (fun (_, i) => (mrows i).all moveRowOk && moverStreamOk d.moveRows (mcol i))) then 1
  else if !(cs.all (fun (_, i) => usedOps i (fun _ r => oClass r != 2 || pairOk (oFmtA r) (oFmtB r)))) then 3
  else if !(cs.all (fun ((k, c), i) => usedOps i (fun w r => if oClass r = 4 then bit (tcmPages s st k c) (bits r 215 200 / 4096) else
      (setBits 4 (fEngines w)).all (fun e => (rowAccs r e).all (fun a => accIn a (spaceSize s st k c a.space) (fHold w)))))
    && ks.all (fun (k, i) => usedMoves i (fun w r => moveIn s st k r (mHold w)))) then 4
  else if !(cs.all (fun (_, i) => decide (streamCycles (col i) + 2 ≤ cap)) && ks.all (fun (_, i) => decide (sumOf (((mcol i).filter (fun w => mOp w != 0xFE)).map (fun w => mHold w + 1)) + 2 ≤ cap))) then 5
  else if ks.any (fun (k, ki) => anyCollide ((cs.filter (fun y => y.1.1 == k)).flatMap (fun ((_, c), i) => columnAccs s st k c (rows i) (col i)) ++ moverAccs s st k (mrows ki) (mcol ki))) then 6
  else if !(cs.all (fun (_, i) => drainsOk (rows i) (col i))) then 7
  else if !(ks.all (fun (_, i) => usedMoves i (fun _ r => moveOperandOk s d j r))) then 8
  else 0

/-! ### Composing NEXT -/

/-- Positions of a column from group START/8 on (R304), and rows (R284). -/
def positionsFrom (s : State) (st k c start : Nat) : List Nat :=
  ((setBits 128 (colShare s st k c)).filter (fun g => decide (start / 8 ≤ g))).flatMap (fun g => (List.range 128).map (· + 128 * g))
def rowsOfCol (s : State) (st k c : Nat) : List Nat := ((setBits 128 (colShare s st k c)).filter (· < 127)).flatMap (fun g => [2 * g + 1, 2 * g + 2])

/-- What a part adds to a bank. Keys as in `Stream`. -/
structure PartLoad where
  spans : List Span := []
  fields : List (Nat × Nat) := []
  movers : List (Nat × Nat) := []
  opRows : List (Nat × Nat) := []
  moveRows : List (Nat × Nat) := []
  first : List (Nat × Nat) := []
  cycles : Nat := 0

def rewrite28 (rows : List Nat) (w : Nat) : Nat := if fOp w = 0 ∨ fOp w = 0xFE then w else w % 2 ^ 20 + rows.getD (fOp w - 1) 0 * 2 ^ 20
def rewrite16 (rows : List Nat) (w : Nat) : Nat := if mOp w = 0 ∨ mOp w = 0xFE then w else w % 2 ^ 8 + rows.getD (mOp w - 1) 0 * 2 ^ 8

/-- Positions and rows that earlier parts of the same load took: field keys, then row keys. -/
structure Taken where
  fields : List Nat := []
  movers : List Nat := []
  opRows : List Nat := []
  moveRows : List Nat := []

/-- Lay a slice out (R304); none where the stall's positions or rows do not suffice (case 2). -/
def layout (s : State) (st rid cmd : Nat) (d : SegD) (x : Slice) (lay : Lay) (u : Taken) : Option (PartLoad × Taken) :=
  let cols := lay.cols.zipIdx.map (fun ((k, c), i) =>
    let key := (8 * k + c) * 2 ^ 14
    let str := x.cols.getD i []
    let pos := ((positionsFrom s st k c lay.start).filter (fun p => !u.fields.contains (key + p))).take str.length
    let rows := ((rowsOfCol s st k c).filter (fun r => !u.opRows.contains ((8 * k + c) * 256 + r))).take d.opRows
    ((k, c), i, key, str, pos, rows))
  let movs := lay.clusters.zipIdx.map (fun (k, i) =>
    let key := k * 2 ^ 14
    let str := if d.moveRows = 0 then [] else x.movs.getD i []
    let pos := ((positionsFrom s st k 0 lay.start).filter (fun p => !u.movers.contains (key + p))).take str.length
    let rows := ((rowsOfCol s st k 0).filter (fun r => !u.moveRows.contains (k * 256 + r))).take d.moveRows
    (k, i, key, str, pos, rows))
  if cols.any (fun (_, _, _, str, pos, rows) => decide (pos.length < str.length) || decide (rows.length < d.opRows))
    || movs.any (fun (_, _, _, str, pos, rows) => decide (pos.length < str.length) || decide (rows.length < d.moveRows)) then none
  else
    let n := lay.last + 1 - lay.start
    let p : PartLoad := {
      spans := cols.map (fun ((k, c), _, _, _, pos, _) => { col := 8 * k + c, start := lay.start, last := lay.last, first := pos.headD 0, stall := st, rid := rid, cmd := cmd })
      fields := cols.flatMap (fun (_, _, key, str, pos, rows) => (pos.zip str).map (fun (q, w) => (key + q, rewrite28 rows w)))
      movers := movs.flatMap (fun (_, _, key, str, pos, rows) => (pos.zip str).map (fun (q, w) => (key + q, rewrite16 rows w)))
      opRows := cols.flatMap (fun ((k, c), i, _, _, _, rows) => (rows.zip (x.rows.getD i [])).map (fun (q, w) => ((8 * k + c) * 256 + q, w)))
      moveRows := movs.flatMap (fun (k, i, _, _, _, rows) => (rows.zip (x.mrows.getD i [])).map (fun (q, w) => (k * 256 + q, w)))
      first := movs.filterMap (fun (k, _, _, str, pos, _) => if str.isEmpty then none else some (k * 1024 + lay.start, pos.headD 0 + 1))
      cycles := maxOf (cols.map (fun (_, _, _, str, _, _) => cdiv (1024 * (streamCycles str + 2)) n)) }
    some (p, { fields := u.fields ++ p.fields.map (·.1), movers := u.movers ++ p.movers.map (·.1),
               opRows := u.opRows ++ p.opRows.map (·.1), moveRows := u.moveRows ++ p.moveRows.map (·.1) })

/-- Write what a part adds into a bank. -/
def addLoad (p : PartLoad) (b : Stream) : Stream :=
  { b with spans := b.spans ++ p.spans
           fields := p.fields.foldl (fun m x => AMap.set 0 m x.1 (BitVec.ofNat 28 x.2)) b.fields
           movers := p.movers.foldl (fun m x => AMap.set 0 m x.1 (BitVec.ofNat 16 x.2)) b.movers
           opRows := p.opRows.foldl (fun m x => AMap.set 0 m x.1 (BitVec.ofNat 256 x.2)) b.opRows
           moveRows := p.moveRows.foldl (fun m x => AMap.set 0 m x.1 (BitVec.ofNat 256 x.2)) b.moveRows
           moverFirst := p.first.foldl (fun m x => AMap.set 0 m x.1 x.2) b.moverFirst
           cycleLen := max b.cycleLen p.cycles }
/-- The bank already holds what a part adds (R303). -/
def holdsLoad (p : PartLoad) (b : Stream) : Bool :=
  p.spans.all (fun x => b.spans.contains x) && p.fields.all (fun x => AMap.get 0 b.fields x.1 == BitVec.ofNat 28 x.2)
  && p.movers.all (fun x => AMap.get 0 b.movers x.1 == BitVec.ofNat 16 x.2)
  && p.opRows.all (fun x => AMap.get 0 b.opRows x.1 == BitVec.ofNat 256 x.2)
  && p.moveRows.all (fun x => AMap.get 0 b.moveRows x.1 == BitVec.ofNat 256 x.2)

/-- The index in the part of round `r` (R303): its rounds less those still to come. -/
def roundIndex (s : State) (rid cmd : Nat) (d : SegD) (r : Nat) : Nat := d.rounds - ((segRounds s rid cmd).filter (fun x => decide (r ≤ x))).length

/-- The porter images of a part's columns, into the stall's pages (R298, R303). -/
def loadPorters (st : Nat) (d : SegD) (lay : Lay) (s : State) : State :=
  lay.cols.zipIdx.foldl (fun t ((k, c), i) => (List.range 2).foldl (fun t p =>
    (storeRead t (offOf d.base + d.porterOff + (i * 2 + p) * d.porterBytes) d.porterBytes).zipIdx.foldl (fun t (b, a) =>
      if bit (tcmPages t st k c) (a / 4096) then setBankByte (tcmBase (16 * k + 2 * c + p) + a) b t else t) t) t) s

/-- A translation a round needs and does not hold (R305 case 9, R236): its address and cause. -/
def missingTile (s : State) (ctx : Nat) (d : SegD) (j : Nat) : Option (Nat × Nat) :=
  (operandsOf s d).findSome? (fun o => if o.kind ≠ 1 then none else match tileAt o j with
    | none => none
    | some i => (leavesOf (tileBase o i) o.tileBytes (minLeaf s ctx)).findSome? (fun va => (setBits 16 o.clusters).findSome? (fun k =>
        match xlate s ctx (some k) (max va (tileBase o i)) o.write with | .inl _ => none | .inr c => some (max va (tileBase o i), c))))

/-- A frame of a backed extent that a global operand's tile of the round names and the store no longer holds (R305 case 9, R144). -/
def missingFrame (s : State) (d : SegD) (j : Nat) : Bool :=
  (operandsOf s d).any (fun o => o.kind == 2 && (match tileAt o j with
    | some i => (readUses s (offOf (tileBase o i)) o.tileBytes).any (fun u => !present s u.1)
    | none => false))

/-- Refuse a part's load (R305): a record, a count, the end of the part. -/
def refuseLoad (q : Req) (ci case status detail : Nat) (s : State) : State :=
  endCmd q.rid ci status detail false
    (cvAdd 0x6031 3 q.stall 1 (errRec 0x85 q.rid case q.ctx q.stall status false false s))

/-- Load one part booked in round `r` into NEXT. -/
def loadPart (r : Nat) (old : Stream) (q : Req) (ci : Nat) (d : SegD) (x : State × Taken) : State × Taken :=
  let s := x.1
  let j := roundIndex s q.rid ci d r
  let lay := layOf s q.rid ci r
  let sl := offOf d.base + d.sliceOff + j % d.slices * d.sliceBytes
  if !usableRange s q.stall (gaddr s sl) d.sliceBytes then (refuseLoad q ci 9 (if pinnedRange s q.stall (gaddr s sl) d.sliceBytes then FAULT_EXTENT_CLOSED else PROTECTION) 0 s, x.2)
  else match hbmRange q.stall q.ctx sl d.sliceBytes true s with
  | (some inj, t) => (refuseLoad { q with injected := inj } ci 9 FAULT_MEMORY 0 (updReq q.rid (fun r => { r with injected := r.injected || inj }) t), x.2)
  | (none, t) =>
    match missingTile t q.ctx d j with
    | some (va, c) => let f := xlateFault q.stall q.ctx va c t; (refuseLoad q ci 9 FAULT_TRANSLATION (f.1 % 2 ^ 32) f.2, x.2)
    | none =>
      if missingFrame t d j then (refuseLoad q ci 9 FAULT_MEMORY 0 t, x.2) else
      match readSlice t d (j % d.slices) with
      | none => (refuseLoad q ci 1 INVALID 0 t, x.2)
      | some sl =>
        match sliceFault t q.stall d j sl lay with
        | 0 =>
          match layout t q.stall q.rid ci d sl lay x.2 with
          | none => (refuseLoad q ci 2 INVALID 0 t, x.2)
          | some (p, u) =>
            let t1 := if j = 0 then loadPorters q.stall d lay t else t
            let t2 := if holdsLoad p old then t1 else cvAdd 0x6031 2 q.stall 1 (act q.rid q.stall 0 (cdiv (loadBytes d j) 64) t1)
            ({ t2 with fab := { t2.fab with nextB := addLoad p t2.fab.nextB, loaded := t2.fab.loaded ++ [(q.rid, ci, r)] } }, u)
        | case => (refuseLoad q ci case INVALID 0 t, x.2)

/-- Segments with a round in `r` and not ended, in acceptance order. -/
def segmentsIn (s : State) (r : Nat) : List (Req × Nat × SegD) :=
  s.gate.reqs.flatMap (fun q => q.cmds.zipIdx.filterMap (fun (c, i) => match c.work with
    | .segment d => if c.status.isNone && (segRounds s q.rid i).contains r then some (q, i, d) else none
    | _ => none))

/-- Load one part of the round. -/
def loadOne (r : Nat) (old : Stream) (x : State × Taken) (y : Req × Nat × SegD) : State × Taken := loadPart r old y.1 y.2.1 y.2.2 x
/-- Load the spans of round `r` into an emptied NEXT; `old` is what NEXT held. -/
def loadAll (r : Nat) (old : Stream) (s : State) : State :=
  ((segmentsIn s r).foldl (loadOne r old) (s, {})).1

/-- LOADER_LOAD (R302): compose NEXT for the following round, once in a round. -/
def loadNext (s : State) : State :=
  if s.fab.nextRound = curRound s + 1 then s
  else loadAll (curRound s + 1) s.fab.nextB { s with fab := { s.fab with nextB := {}, nextRound := curRound s + 1 } }

def execLoaderLoad (s : State) : Out := .next (loadNext s)

end Sys2Proof.Machine
end

