-- ==== Sys2Proof/Machine/StreamOps.lean ====
section
/-! DEFINITION. The round stream at run time: columns and spans, the engines' operations, the cluster mover, overruns and
parity (R258-R263, R286-R295, R307). -/

namespace Sys2Proof.Machine
open Sys2Proof

/-! ### Where a column stands -/

def colSt (s : State) (col : Nat) : ColSt := AMap.get {} s.fab.cols col
def setCol (col : Nat) (x : ColSt) (s : State) : State := { s with fab := { s.fab with cols := AMap.set {} s.fab.cols col x } }
/-- The last slot of a span of the present round has ended. -/
def spanOver (s : State) (p : Span) : Bool := decide (slotEndTick (curRound s * 1024 + p.last) ≤ now s)
def spanDead (s : State) (p : Span) : Bool := match cmdOf s p.rid p.cmd with | some c => c.status.isSome | none => true
def reqCtx (s : State) (rid : Nat) : Nat := match reqOf s rid with | some q => q.ctx | none => (AMap.get 65536 s.gate.ended rid) - 1
/-- The next position of a stall in a column, ascending (R284, R286; log entry 19). -/
def nextPos (s : State) (st col pos : Nat) : Nat :=
  if bit (colShare s st (col / 8) (col % 8)) ((pos + 1) / 128) then pos + 1
  else match (setBits 128 (colShare s st (col / 8) (col % 8))).find? (fun g => decide ((pos + 1) / 128 < g)) with
    | some g => 128 * g
    | none => pos + 1
def predBit (s : State) (col p : Nat) : Bool := p == 0 || bit (AMap.get 0 s.fab.pred col) p

/-- The field a running column reads now. -/
def curField (s : State) (col : Nat) : Option (Span × Nat) :=
  let c := colSt s col
  match c.span with
  | some p => if c.active && !spanOver s p then some (p, (AMap.get 0 s.fab.runB.fields (col * 2 ^ 14 + c.pos)).toNat) else none
  | none => none
def opRowOf (s : State) (col op : Nat) : Nat := (AMap.get 0 s.fab.runB.opRows (col * 256 + op)).toNat

/-- The parts with a span in a cluster's RUN tables that have not ended: stall, request, command. -/
def clusterParts (k : Nat) (s : State) : List (Nat × Nat × Nat) :=
  (dedup ((s.fab.runB.spans.filter (fun p => p.col / 8 == k)).map (fun p => (p.stall, p.rid, p.cmd)))).filter (fun x =>
    (cmdOf s x.2.1 x.2.2).any openCmd)
/-- End every part with a span in a cluster's RUN tables; each stall's STREAM_FAULTS rises by one (R307). -/
def endCluster (k : Nat) (inj : Bool) (s : State) : State :=
  (dedup ((clusterParts k s).map (·.1))).foldl (fun t st => cvAdd 0x6031 5 st 1 t)
    ((clusterParts k s).foldl (fun t x => endCmd x.2.1 x.2.2 FAULT_MEMORY 0 inj t) s)

/-- Read the check word of a cluster field (R283, R307, R500-R502): whether the subfield runs. -/
def checkField (k pos : Nat) (p : Span) (s : State) : Bool × State :=
  let bad := AMap.get 0 s.fab.runB.checks (k * 2 ^ 14 + pos) != 0
  let loc := streamLocator k 0 pos
  if bad then (false, endCluster k false (detectRec 0x0F loc p.stall (reqCtx s p.rid) p.stall FAULT_MEMORY false s))
  else
    let i := inject 0x0F loc p.stall (!armed s 0x0F p.stall) s
    match i.1 with
    | none => (true, i.2)
    | some (dev, contain) =>
      let s1 := errRec 0x0F loc p.stall (reqCtx s p.rid) p.stall FAULT_MEMORY dev true i.2
      (false, if contain && dev then endCluster k true (detect 0x0F s1)
        else cvAdd 0x6031 5 p.stall 1 (endCmd p.rid p.cmd FAULT_MEMORY 0 true s1))

/-! ### SPAN_START and END (R286, R293) -/

/-- The next span of a column's RUN table in ascending START. -/
def nextSpan (s : State) (col : Nat) : Option Span :=
  let after := match (colSt s col).span with | some p => p.start + 1 | none => 0
  (s.fab.runB.spans.filter (fun p => p.col == col && decide (after ≤ p.start))).foldl (fun b p => match b with
    | none => some p
    | some q => if p.start < q.start then some p else some q) none

/-- SPAN_START: the column begins its next span once slot START has begun; the predicate register is cleared, and column
0 takes the cluster's mover to the first field of its stream. -/
def spanStart (col : Nat) (s : State) : State :=
  match nextSpan s col with
  | none => s
  | some p =>
    if (colSt s col).active || !slotBegun s (curRound s * 1024 + p.start) || spanOver s p then s
    else
      let s1 := setCol col { active := true, span := some p, pos := p.first, ran := [] } { s with fab := { s.fab with pred := AMap.set 0 s.fab.pred col 0 } }
      if col % 8 = 0 then
        let f := AMap.get 0 s.fab.runB.moverFirst (col / 8 * 1024 + p.start)
        { s1 with fab := { s1.fab with movs := AMap.set {} s1.fab.movs (col / 8) (if f = 0 then {} else { pos := f - 1, rep := 1 }) } }
      else s1

/-- What the engines' pipelines hold once a subfield of `n` cycles has run, its MAC rows on the engines of a mask (R286). -/
def ranAfter (ran : List Nat) (macs n : Nat) : List Nat := (List.range 4).map (fun e => if bit macs e then 16 else ran.getD e 0 - n)
/-- Run the subfield a column stands at, where `fits` accepts its operation: the check word, the predicate, the body on
its row and engines, then the next position. -/
def subfield (col : Nat) (fits : Nat → Nat → Bool) (body : Span → Nat → Nat → State → State) (s : State) : State :=
  match curField s col with
  | none => s
  | some (p, w) =>
    let row := opRowOf s col (fOp w)
    if !fits (fOp w) row then s else
    let ck := checkField (col / 8) (colSt s col).pos p s
    let taken := ck.1 && !spanDead ck.2 p && predBit ck.2 col (fPred w)
    let off := ck.1 && !spanDead ck.2 p && !predBit ck.2 col (fPred w)
    let s1 := if taken then body p w row ck.2
      else if off then cvAdd 0x6031 4 p.stall ((fHold w + 1) * popc 4 (fEngines w)) ck.2 else ck.2
    let c := colSt s1 col
    setCol col { c with pos := nextPos s1 p.stall col c.pos,
                        ran := ranAfter c.ran (if taken && oClass row == 2 && fOp w != 0 then fEngines w else 0) (fHold w + 1) } s1

/-- END: the span is run; the column is idle (R286). -/
def opEnd (col : Nat) (s : State) : State :=
  match curField s col with
  | none => s
  | some (p, w) =>
    if fOp w ≠ 0xFE then s else
    let ck := checkField (col / 8) (colSt s col).pos p s
    let c := colSt ck.2 col
    setCol col { c with active := false, ran := [] } (if ck.1 then cvAdd 0x6031 1 p.stall 1 ck.2 else ck.2)

/-- NOP: no engine is clocked, but until its pipeline is empty where that still holds MAC rows (R286). -/
def opNop (col : Nat) (s : State) : State :=
  subfield col (fun op _ => op == 0) (fun p w _ t =>
    act p.rid p.stall 9 (sumOf ((colSt t col).ran.map (fun n => min n (fHold w + 1)))) t) s

/-! ### Engines (R258-R263, R289, R290) -/

def engOf (col e : Nat) : Nat := 4 * col + e
def planeKey (eng plane row : Nat) : Nat := ((eng * 2 + plane) * 16 + row) * 256
def activePlane (s : State) (eng : Nat) : Nat := AMap.get 0 s.fab.active eng

/-- The (row, column, element, K) entries of a stored row `i` (R255, R262; log entry 17). `meta` holds one byte a column. -/
def storedEntries (f sp i : Nat) (l md : List Byte) : List (Nat × Nat × Nat × Nat × Nat) :=
  let kOf := fun (q j : Nat) => let b := (md.getD j 0).toNat
    if sp = 0 then q
    else if sp = 1 then let g := q / 2; 4 * g + bits b (4 * (g % 2) + 2 * (q % 2) + 1) (4 * (g % 2) + 2 * (q % 2))
    else 4 * q + bits b (2 * (q % 4) + 1) (2 * (q % 4))
  if wideFmt f then (List.range 8).map (fun m => (i / 2, 8 * (i % 2) + m, 0, packedElem f l m, kOf (i / 2) (8 * (i % 2) + m)))
  else (List.range 16).flatMap (fun j => (List.range (lanesOf f)).map (fun n => (i, j, n, packedElem f l (lanesOf f * j + n), kOf (lanesOf f * i + n) j)))

/-- Load one stored row into the inactive plane of an engine. -/
def loadRow (f sp eng i : Nat) (l md sc : List Byte) (s : State) : State :=
  let plane := 1 - activePlane s eng
  let cells := (storedEntries f sp i l md).foldl (fun m (r, j, n, v, k) => AMap.set (0, 0) m (planeKey eng plane r + 4 * j + n) (v, k)) s.fab.planes
  let scales := (List.range 16).foldl (fun m j => AMap.set 0 m (((eng * 2 + plane) * 16 + i) * 16 + j) (sc.getD j 127).toNat) s.fab.scalesB
  { s with fab := { s.fab with planes := cells, scalesB := scales, planeFmt := AMap.set (0, 0) s.fab.planeFmt (eng * 2 + plane) (f, sp) } }
def swapPlane (eng : Nat) (s : State) : State :=
  { s with fab := { s.fab with active := AMap.set 0 s.fab.active eng (1 - activePlane s eng) } }

/-- Read a range of a stall's space for a part: the bytes, or the part ended on an uncorrectable word or a bank not ON. -/
def readBank (p : Span) (k c space a n : Nat) (s : State) : Option (List Byte) × State :=
  let banks := banksOf s p.stall k c space
  match spaceRange p.stall (reqCtx s p.rid) k banks a n s with
  | (some inj, t) => (none, sramEnd p.rid p.cmd p.stall (reqCtx s p.rid) (bankLocator (badCell s k banks a n)) inj t)
  | (none, t) => if rangeOn t p.stall k banks a n then (some (readSpace t k banks a n), t) else (none, endCmd p.rid p.cmd FAULT_MEMORY 0 false t)

/-- Write a range of a stall's space for a part, or end the part where a bank is not ON (R268). -/
def putBank (p : Span) (k : Nat) (banks : List Nat) (a : Nat) (l : List Byte) (s : State) : State :=
  if rangeOn s p.stall k banks a l.length then writeSpace k banks a l s else endCmd p.rid p.cmd FAULT_MEMORY 0 false s

/-- Load stored row `i` of a row's B operand for engine `e`; `scaled` reads the B scales at ADDR_SCALE. -/
def loadStored (p : Span) (col e r i : Nat) (scaled : Bool) (s : State) : State :=
  let k := col / 8; let c := col % 8
  let at_ := fun base str => (atRep (base + e * oStepB r) str i).toNat
  match readBank p k c (oSpaceB r) (at_ (oAddrB r) (oStrideB r)) (storedRowBytes (oFmtB r)) s with
  | (none, t) => t
  | (some l, t) =>
    match (if oSparsity r = 0 then (some [], t) else readBank p k c (oSpaceB r) (at_ (oMeta r) (oStrideM r)) 16 t) with
    | (none, t1) => t1
    | (some md, t1) =>
      let sc := if !hasScale (oFmtB r) then (some [], t1)
        else if scaled then readBank p k c (oSpaceB r) (at_ (oScale r) (oStrideS r)) 16 t1
        else let f := fresh 128 t1; (some (leBytes 16 f.1.toNat), f.2)
      match sc with
      | (none, t2) => t2
      | (some x, t2) =>
        let t3 := loadRow (oFmtB r) (oSparsity r) (engOf col e) (i % 16) l md x t2
        if i % 16 = 15 then swapPlane (engOf col e) t3 else t3

/-- LOADW. -/
def opLoadw (col : Nat) (s : State) : State :=
  subfield col (fun op r => op != 0 && op != 0xFE && oClass r == 1) (fun p w r t =>
    act p.rid p.stall 9 (popc 4 (fEngines w) * (fHold w + 1)) ((setBits 4 (fEngines w)).foldl (fun t e =>
      (List.range (fHold w + 1)).foldl (fun t i => if spanDead t p then t else loadStored p col e r i true t) t) t)) s

/-- The active plane's weights of array row `x` and column `j`, lowest K lane first. -/
def weightsAt (s : State) (eng fb x j : Nat) : List (Num × Nat) :=
  let pl := activePlane s eng
  let sc := AMap.get 0 s.fab.scalesB (((eng * 2 + pl) * 16 + x) * 16 + j)
  (List.range (lanesOf fb)).map (fun n => let v := AMap.get (0, 0) s.fab.planes (planeKey eng pl x + 4 * j + n)
    ((if hasScale fb then scaleE8 sc (decodeElem fb v.1) else decodeElem fb v.1), v.2))
def isFinite : Num → Bool
  | .fin _ _ _ => true
  | _ => false
def planeFinite (s : State) (eng fb : Nat) : Bool :=
  (List.range 16).all (fun x => (List.range 16).all (fun j => (weightsAt s eng fb x j).all (fun v => isFinite v.1)))

/-- The value of an exact integer. -/
def Num.toInt : Num → Int
  | .fin b m e => signed b (m * 2 ^ e.toNat)
  | _ => 0
/-- INT32 addition, saturating: the sum, and whether it saturated (R258). -/
def satAdd (a b : Int) : Int × Bool :=
  let v := a + b
  if v < -2 ^ 31 then (-2 ^ 31, true) else if 2 ^ 31 - 1 < v then (2 ^ 31 - 1, true) else (v, false)

/-- One column's partial sum over the array rows in ascending order (R259, R260), and saturations. -/
def columnSum (s : State) (eng fb : Nat) (int : Bool) (a : Nat → Num) (j : Nat) : Nat × Nat :=
  (List.range 16).foldl (fun (acc : Nat × Nat) x =>
    let ps := (weightsAt s eng fb x j).map (fun v => Num.mul (a v.2) v.1)
    if int then ps.foldl (fun z q => let r := satAdd (sext 32 z.1) q.toInt; (unsext 32 r.1, z.2 + (if r.2 then 1 else 0))) acc
    else (fsum32 acc.1 ps, acc.2)) (0, 0)

/-- Present one A row to an engine: into accumulator row `i mod 16` of buffer ACC. Whether it was a zero row. -/
def macFab (col e r i : Nat) (bytes scales : List Byte) (s : State) : Bool × FabSt :=
  let eng := engOf col e
  let fa := oFmtA r; let fb := oFmtB r
  let k := planeK fb (oSparsity r)
  let int := fa < 2
  let elem := fun (n : Nat) => let v := decodeElem fa (packedElem fa bytes n)
    if hasScale fa then scaleE8 (scales.getD (n / 32) 127).toNat v else v
  let zero := (List.range k).all (fun n => (decodeElem fa (packedElem fa bytes n)).isZero) && !(hasScale fa && scales.contains 0xFF) && planeFinite s eng fb
  let buf := eng * 2 + oAcc r
  let key := buf * 256 + i % 16 * 16
  let clear := oClear r && decide (i < 16)
  let out := (List.range 16).foldl (fun (m : AMap Word32 × Nat) j =>
    let old := if clear then 0 else (AMap.get 0 m.1 (key + j)).toNat
    let c := if zero then (0, 0) else columnSum s eng fb int elem j
    let v := if int then let q := satAdd (sext 32 old) (sext 32 c.1); (unsext 32 q.1, c.2 + (if q.2 then 1 else 0))
      else (fadd32 old c.1, c.2)
    (AMap.set 0 m.1 (key + j) (BitVec.ofNat 32 v.1), m.2 + v.2)) (s.fab.acc, 0)
  (zero, { s.fab with acc := out.1, sat := AMap.set 0 s.fab.sat buf (AMap.get 0 s.fab.sat buf + out.2),
                      accInt := AMap.set 0 s.fab.accInt buf (if int then 1 else 0) })
def macRow (col e r i : Nat) (bytes scales : List Byte) (s : State) : Bool × State :=
  ((macFab col e r i bytes scales s).1, { s with fab := (macFab col e r i bytes scales s).2 })

/-- What one MAC repeat counts and loads beside its row. -/
def macBeside (p : Span) (col e r i : Nat) (m : Bool × State) : State :=
  if oLoad r then loadStored p col e r i false (if m.1 then cvAdd 0x6020 6 p.stall 1 m.2 else act p.rid p.stall 9 1 m.2)
  else if m.1 then cvAdd 0x6020 6 p.stall 1 m.2 else act p.rid p.stall 9 1 m.2

/-- One MAC repeat of one engine: the row, then the load beside it. -/
def macRepeat (p : Span) (col e r i : Nat) (s : State) : State :=
  if spanDead s p then s else
  let k := col / 8; let c := col % 8
  let kk := planeK (oFmtB r) (oSparsity r)
  match readBank p k c (oSpaceA r) (atRep (oAddrA r + e * oStepA r) (oStrideA r) i).toNat (aRowBytes (oFmtA r) kk) s with
  | (none, t) => t
  | (some l, t) =>
    match (if hasScale (oFmtA r) then readBank p k c (oSpaceA r) (atRep (oScale r) (oStrideS r) i).toNat (cdiv kk 32) t else (some [], t)) with
    | (none, t1) => t1
    | (some sc, t1) => macBeside p col e r i (macRow col e r i l sc t1)

/-- MAC. -/
def opMac (col : Nat) (s : State) : State :=
  subfield col (fun op r => op != 0 && op != 0xFE && oClass r == 2) (fun p w r t =>
    (setBits 4 (fEngines w)).foldl (fun t e => (List.range (fHold w + 1)).foldl (fun t i => macRepeat p col e r i t) t) t) s

/-- Arithmetic right shift rounded to nearest, ties to even, saturated to INT8 (R261). -/
def shiftInt8 (v : Int) (sh : Nat) : Nat :=
  let q := v / (2 ^ sh : Nat)
  let r := (v % (2 ^ sh : Nat)).toNat
  let h := 2 ^ sh
  let x := if h < 2 * r ∨ (2 * r = h ∧ q % 2 = 1) then q + 1 else q
  unsext 8 (if x < -128 then -128 else if 127 < x then 127 else x)

/-- One accumulator value in an output format (R261); a conversion the table does not give is a free value. -/
def drainElem (int : Bool) (fo sh v ctr : Nat) : Nat :=
  match fo, int with
  | 0, false => v
  | 0, true => toF32 (decodeInt 32 v)
  | 1, true => v
  | 2, true => shiftInt8 (sext 32 v) sh
  | 3, false => toBf16 (ofF32 v)
  | 4, false => toF16 (ofF32 v)
  | 5, false => toE4M3 (ofF32 v)
  | 6, false => toE5M2 (ofF32 v)
  | _, _ => (Config.free 32 ctr).toNat % 2 ^ (8 * outBytes fo)

/-- One repeat of a DRAIN on an engine: an accumulator row in FMT_OUT. -/
def drainRow (p : Span) (col r i e : Nat) (s : State) : State :=
  let buf := engOf col e * 2 + oAcc r
  let int := AMap.get 0 s.fab.accInt buf == 1
  let l := (List.range 16).flatMap (fun j => leBytes (outBytes (oFmtOut r))
    (drainElem int (oFmtOut r) (oShift r) (AMap.get 0 s.fab.acc (buf * 256 + i % 16 * 16 + j)).toNat (orderIx s p.stall + j)))
  if spanDead s p then s else
  putBank p (col / 8) (banksOf s p.stall (col / 8) (col % 8) (oSpaceA r)) (atRep (oAddrA r + e * oStepA r) (oStrideA r) i).toNat l (useOrders p.stall 16 s)
/-- A tile drained after a saturation is counted (R258). -/
def drainSat (p : Span) (col r e : Nat) (s : State) : State :=
  let buf := engOf col e * 2 + oAcc r
  if AMap.get 0 s.fab.sat buf = 0 then s else cvAdd 0x6020 3 p.stall 1 { s with fab := { s.fab with sat := AMap.set 0 s.fab.sat buf 0 } }
/-- DRAIN: cycle by cycle, of one cycle the engines by ascending number: of two writes of a word the last stands (R198). -/
def drainRows (p : Span) (col r n : Nat) (es : List Nat) (s : State) : State :=
  (List.range n).foldl (fun t i => es.foldl (fun u e => drainRow p col r i e u) t) (es.foldl (fun t e => drainSat p col r e t) s)
def opDrain (col : Nat) (s : State) : State :=
  subfield col (fun op r => op != 0 && op != 0xFE && oClass r == 3) (fun p w r t =>
    act p.rid p.stall 9 (popc 4 (fEngines w) * (fHold w + 1)) (drainRows p col r (fHold w + 1) (setBits 4 (fEngines w)) t)) s

def porterOf (s : State) (p : Nat) : Porter := AMap.get {} s.fab.porters p
def setPorter (p : Nat) (x : Porter) (s : State) : State := { s with fab := { s.fab with porters := AMap.set {} s.fab.porters p x } }

/-! ### The cluster mover (R291, R292, R295) -/

def movSt (s : State) (k : Nat) : MovSt := AMap.get {} s.fab.movs k
def setMov (k : Nat) (x : MovSt) (s : State) : State := { s with fab := { s.fab with movs := AMap.set {} s.fab.movs k x } }
/-- The span of column 0, while the mover runs beside it (`rep` 1). -/
def movSpan (s : State) (k : Nat) : Option Span :=
  match (colSt s (8 * k)).span with
  | some p => if (movSt s k).rep = 1 ∧ !spanOver s p then some p else none
  | none => none
/-- Pass over NOP fields. -/
def skipNops (s : State) (st k : Nat) : Nat → Nat → Nat
  | 0, pos => pos
  | n + 1, pos => if mOp (AMap.get 0 s.fab.runB.movers (k * 2 ^ 14 + pos)).toNat = 0 then skipNops s st k n (nextPos s st (8 * k) pos) else pos

/-- One burst of a mover row (R292): repeat `i` of a part in its round `j`. -/
def moveBurst (k : Nat) (p : Span) (d : SegD) (j r i : Nat) (s : State) : State :=
  if spanDead s p then s else
  let ctx := reqCtx s p.rid
  let banks := banksOf s p.stall k (mCore r) (mSpace r)
  let a := (atRep (mBankAddr r) (mBankStep r) i).toNat
  if mDir r = 3 then
    match readBank p k (mSrcCore r) (mSrcSpace r) (atRep (mSrcAddr r) (mOffStep r) i).toNat 256 s with
    | (some l, t) => putBank p k banks a l t
    | (none, t) => t
  else
    let o := operandOf s d (mOperand r)
    let off := atRep (mOffset r) (mOffStep r) i
    match tileAt o j with
    | none => endCmd p.rid p.cmd INVALID 0 false s
    | some n =>
      let addr := tileBase o n + off.toNat
      if off < 0 ∨ (o.tileBytes : Int) < off + 256 then
        let f := xlateFault p.stall ctx ((tileBase o n + off) % 2 ^ 64).toNat NOT_DECLARED s
        endCmd p.rid p.cmd FAULT_TRANSLATION (f.1 % 2 ^ 32) false f.2
      else
        let s0 := act p.rid p.stall 0 4 s
        if mDir r = 1 then
          match servedRange p.stall ctx (some k) (o.kind == 1) false addr 256 s0 with
          | (.inr e, t) => endCmd p.rid p.cmd e.status e.detail e.injected t
          | (.inl ps, t) => putBank p k banks a (readPieces t ps) (heatPieces ps t)
        else
          match readBank p k (mCore r) (mSpace r) a 256 s0 with
          | (none, t) => t
          | (some l, t) =>
            match servedRange p.stall ctx (some k) (o.kind == 1) true addr 256 t with
            | (.inr e, t1) => endCmd p.rid p.cmd e.status e.detail e.injected t1
            | (.inl ps, t1) => writePieces ps l t1

/-- Run the mover field a cluster stands at, where its direction is `dir`. END stops the stream. -/
def moveField (dir k : Nat) (s : State) : State :=
  match movSpan s k with
  | none => s
  | some p =>
    let pos := skipNops s p.stall k 16384 (movSt s k).pos
    let w := (AMap.get 0 s.fab.runB.movers (k * 2 ^ 14 + pos)).toNat
    let r := (AMap.get 0 s.fab.runB.moveRows (k * 256 + mOp w)).toNat
    if mOp w = 0xFE then setMov k {} s
    else if mDir r ≠ dir then s
    else
      let ck := checkField k pos p s
      let t := setMov k { pos := nextPos ck.2 p.stall (8 * k) pos, rep := 1 } ck.2
      match cmdOf t p.rid p.cmd with
      | some c => match c.work with
        | .segment d =>
          if ck.1 && !spanDead t p && predBit t (8 * k) (mPred r) then
            (List.range (mHold w + 1)).foldl (fun t i => moveBurst k p d (roundIndex t p.rid p.cmd d (curRound t)) r i t) t
          else t
        | _ => t
      | none => t

/-! ### Overrun, and the ends of spans (R288, R73, R422) -/

/-- A porter of the span still runs. -/
def porterRuns (s : State) (p : Span) (col : Nat) : Bool :=
  (List.range 2).any (fun i => let x := porterOf s (2 * col + i); (x.run == 1 || x.run == 3) && x.rid == p.rid && x.cmd == p.cmd)

/-- The calendar overrun detector (R73): its record, and the part's end. -/
def overrun (rid cmd status : Nat) (inj dev : Bool) (s : State) : State :=
  match reqOf s rid, cmdOf s rid cmd with
  | some q, some c =>
    let s1 := if inj then errRec 0x0B rid c.opcode q.ctx q.stall status dev true s
      else detectRec 0x0B rid c.opcode q.ctx q.stall status true s
    endCmd rid cmd status 0 inj s1
  | _, _ => s

/-- SPAN_OVERRUN: a column, or a porter of its span, not done by the end of slot LAST is stopped. -/
def spanOverrun (col : Nat) (s : State) : State :=
  let c := colSt s col
  match c.span with
  | none => s
  | some p =>
    if spanOver s p && (c.active || porterRuns s p col) then
      let s1 := setCol col { c with active := false } s
      let s2 := (List.range 2).foldl (fun t i => let x := porterOf t (2 * col + i); if x.rid = p.rid ∧ x.run ≠ 0 then setPorter (2 * col + i) { x with run := 0, tw := none } t else t) s1
      if spanDead s p then s2 else overrun p.rid p.cmd FAULT_MEMORY false false s2
    else s

/-- BANK_READY: a bank's wake time has passed (R268). -/
def bankReady (k b : Nat) (s : State) : State :=
  let r := bankReadyAt s k b
  if r ≠ 0 ∧ r ≤ now s then { s with fab := { s.fab with ready := AMap.set 0 s.fab.ready (k * 1024 + b) 0 } } else s

def execSpanStart (col : Nat) (s : State) : Out := .next (spanStart col s)
def execOpLoadw (col : Nat) (s : State) : Out := .next (opLoadw col s)
def execOpMac (col : Nat) (s : State) : Out := .next (opMac col s)
def execOpDrain (col : Nat) (s : State) : Out := .next (opDrain col s)
def execOpNop (col : Nat) (s : State) : Out := .next (opNop col s)
def execOpEnd (col : Nat) (s : State) : Out := .next (opEnd col s)
def execMoveHbmToBank (cluster : Nat) (s : State) : Out := .next (moveField 1 cluster s)
def execMoveBankToHbm (cluster : Nat) (s : State) : Out := .next (moveField 2 cluster s)
def execMoveBankToBank (cluster : Nat) (s : State) : Out := .next (moveField 3 cluster s)
def execSpanOverrun (col : Nat) (s : State) : Out := .next (spanOverrun col s)
def execBankReady (cluster bank : Nat) (s : State) : Out := .next (bankReady cluster bank s)

end Sys2Proof.Machine
end

