-- ==== Sys2Proof/Machine/Extents.lean ====
section
/-! DEFINITION. Extents and regions: grant, close, revoke, drain, sweep (R27-R40), PUBLISH (R41-R47), capacity (R166). -/

namespace Sys2Proof.Machine
open Sys2Proof

/-! ### Capacity (R166) -/

def grantedExts (s : State) (p : Nat → ExtRec → Bool) : Nat := (s.ext.recs.filter (fun e => e.2.state != 0 && p e.1 e.2)).length
def sumInsts (s : State) (idx sub : Nat) : Nat := sumOf ((storedInsts s idx sub).map (·.2))
def hbmUsable (s : State) : Nat := cv s 0x0020 2 - 65536 * cv s 0x4050 1
/-- Retired frames a pinned extent still holds. -/
def retiredAssigned (s : State) : Nat :=
  (s.store.retired.filter (fun p => s.ext.recs.any (fun e => e.2.state != 0 && e.2.frames.contains p))).length
def hbmUnreserved (s : State) : Nat :=
  hbmUsable s - cv s 0x4050 3 - cv s 0x4050 4 - 2 ^ 30 * grantedExts s (fun _ r => !r.backed) - 65536 * sumInsts s 0x4030 1
    - 65536 * retiredAssigned s
def pinnedAvailable (s : State) : Nat := hbmUnreserved s / 2 ^ 30
def backedCapacity (s : State) : Nat :=
  if (List.range 64).any (fun f => chanState s f == 0 || chanState s f == 3) then 0
  else (minOf ((List.range 64).map (fun f => cv s 0x4041 1 f / 2 ^ 24 * (1000 - cv s 0x4040 1) / 1000))).getD 0
def backedGranted (s : State) : Nat := grantedExts s (fun _ r => r.backed)
def extCount (s : State) (st : Nat) : Nat := grantedExts s (fun _ r => r.stall == st)
def drainsActive (s : State) : Nat := (s.ext.recs.filter (fun e => decide (2 ≤ e.2.state))).length

/-- A changed record waits to be written to flash (R520). -/
def touchExt (e : Nat) (r : ExtRec) (s : State) : State := setExt e { r with dirty := true } s

/-! ### Grant (R29) -/

/-- The physical frames of a grant (R137): 16,384 for a pinned extent, none for a backed one. -/
def grantFrames (s : State) (backed : Bool) : List Nat :=
  if backed then [] else pickFrames (reservedFrom s) s.ext.grants 16384 0 (takenFrames s)
/-- EXTENT_GRANT: the status, and the state where it is OK. -/
def extentGrant (v : Nat) (s : State) : Nat × State :=
  let e := bits v 19 0
  let backed := bit v 22
  let st := bits v 31 24
  match firstFail [
    (decide (e < extLimit) && stallState s st == 1 && bits v 21 20 == 0 && bit v 23 == false && bits v 63 32 == 0, INVALID, 0),
    ((extRec s e).state == 0, BUSY, 0),
    (decide (extCount s st < cv s 0x4011 3 st), REFUSED_QUOTA, 0),
    (if backed then decide (backedGranted s < backedCapacity s) else decide (1 ≤ pinnedAvailable s), REFUSED_QUOTA, 0)] with
  | some (x, _) => (x, s)
  | none => (OK, touchExt e { state := 1, backed := backed, stall := st, grant := s.ext.grants, frames := grantFrames s backed } { s with ext := { s.ext with grants := s.ext.grants + 1 } })

/-! ### The sweep's booking (R36, R37, R39) -/

/-- Rounds, slots of each stack and lines of one round of a sweep. -/
def sweepShape (backed : Bool) : Nat × Nat × Nat := if backed then (8, 1, 1024) else (128, 41, 131072)

def bookSweepFrom (e n slots uj last : Nat) : (fuel r : Nat) → (got : List Nat) → State → Option (List Nat × State)
  | 0, _, _, _ => none
  | fuel + 1, r, got, s =>
    if n ≤ got.length then some (got, s) else if last < r then none else
    let w : For := { rid := sweepRid e, cmd := 0, stall := 0, bulk := true, maxR := last }
    if (List.range 8).all (fun k => decide (slots ≤ (takeable s 0 (calHbm k) 0 r 0 true).length)) && chitFits s 0 r uj then
      bookSweepFrom e n slots uj last fuel (r + 1) (got ++ [r])
        (addEnergy w.rid 0 r uj true ((List.range 8).foldl (fun t k => bookN w (calHbm k) 0 r 0 slots t) s))
    else bookSweepFrom e n slots uj last fuel (r + 1) got s

/-- Book the sweep of an extent from round `from_`, within 65,536 rounds of the decision. -/
def bookSweep (e : Nat) (backed : Bool) (from_ : Nat) (s : State) : Option (List Nat × State) :=
  let x := sweepShape backed
  let a := curRound s
  bookSweepFrom e x.1 x.2.1 (ujOf s 0 x.2.2) (a + 65536) (a + 65538 - from_) from_ [] s

def sweepChit (s : State) (backed : Bool) : Nat := (sweepShape backed).1 * ujOf s 0 (sweepShape backed).2.2
def drawStall0 (uj : Int) (s : State) : State := draw 0 uj s

/-- Write-backs of the device's own on an extent that have not begun are withdrawn and refunded (R165). -/
def withdrawWbs (e : Nat) (s : State) : State :=
  let gone := s.store.wbs.filter (fun w => w.frame / 16384 == e && backgroundRid w.rid && w.begun == 0)
  gone.foldl (fun t w => refundBookings w.rid w.stall t) { s with store := { s.store with wbs := s.store.wbs.filter (fun w => !gone.contains w) } }

/-- A restock that is MERGING of a collection with an area in an extent is withdrawn (R372). -/
def withdrawRestocks (e : Nat) (s : State) : State :=
  (s.colls.filter (fun c => c.2.restock == 1 && (areaExts s c.1).contains e)).foldl (fun t c =>
    setColl c.1 { collOf t c.1 with restock := 0, retireSet := [] } (refundBookings (restockRid c.1) (cOwner t c.1) t)) s

/-! ### Close (R31-R35, R39) -/

/-- Accepted requests not completed that touch an extent (R32, R240). -/
def touching (s : State) (e st : Nat) : List Req :=
  s.gate.reqs.filter (fun q => q.cmds.any (fun c => c.exts.contains e) || (q.stall == st && s.xl.walks.any (fun w => w.rid == q.rid && !w.done)))

/-- The lines of an extent that the directory tracks. -/
def heldLines (s : State) (e : Nat) : List Nat :=
  dedup ((s.coh.dir.filterMap (·.2)).filterMap (fun d => if d.line / 2 ^ 24 = e then some d.line else none))

/-- Back-invalidate every held line of an extent. -/
def invalidateExtent (e : Nat) (s : State) : State :=
  if homeOrdered s (extRec s e).stall then (heldLines s e).foldl (fun t l => unitInvalidate (64 * l) (some e) false t) s else s

/-- A request counted for its pre-walks names the extent from now on, so that its record lowers the drain tally (R240). -/
def nameExtent (e : Nat) (q : Req) (s : State) : State :=
  if q.cmds.any (fun c => c.exts.contains e) then s else updCmd q.rid 0 (fun c => { c with exts := c.exts ++ [e] }) s

/-- Take an OPEN extent to CLOSING: the drain tally, the back-invalidations, the sweep and its chit; the free bound.
None where the sweep cannot be booked. -/
def closeExtent (e tally : Nat) (s : State) : Option (Nat × State) :=
  let r := extRec s e
  let qs := touching s e r.stall
  let s1 := invalidateExtent e s
  let snps := s1.coh.snps.length - s.coh.snps.length
  let after := max (maxOf (qs.map (·.promise))) (if snps = 0 then 0 else now s + biBound s)
  match bookSweep e r.backed (max (curRound s + 1) (cdiv after 1280)) s1 with
  | none => none
  | some (rounds, s2) =>
    let bound := (maxOf rounds + 1) * 1280
    let s3 := drawStall0 (sweepChit s r.backed) s2
    let s4 := qs.foldl (fun t q => nameExtent e q t) (withdrawRestocks e (if r.backed then withdrawWbs e s3 else s3))
    some (bound, touchExt e { r with state := 2, drain := qs.length + snps, closeTally := tally, freeBound := bound, sweep := rounds } s4)

/-- The checks of R34. -/
def closeChecks (s : State) (st e : Nat) : List (Bool × Nat × Nat) :=
  [(decide (e < extLimit) && (extRec s e).state == 1 && (extRec s e).stall == st, PROTECTION, 0),
   (decide (drainsActive s < 1024), BUSY, 0), ((closeExtent e 0xFFFF s).isSome, BUSY, 0)]

/-- EXTENT_REVOKE (R35). -/
def extentRevoke (e : Nat) (s : State) : Nat × State :=
  if (extRec s e).state ≠ 1 ∨ 1024 ≤ drainsActive s then (BUSY, s)
  else match closeExtent e 0xFFFF s with
    | some (_, t) => (OK, t)
    | none => (BUSY, s)

/-- DRAIN_ZERO (R39): the drain tally is zero before the booked start; a new booking from the next boundary, tried with the
first one's slots free, replaces the first where it ends no later, and the first one's chit returns at the next boundary. -/
def drainZero (e : Nat) (s : State) : State :=
  let r := extRec s e
  if r.state ≠ 2 ∨ r.drain ≠ 0 ∨ r.rebooked ∨ (minOf r.sweep).all (fun first => decide (first ≤ curRound s)) then s else
  let keep := setExt e { r with rebooked := true } s
  match bookSweep e r.backed (curRound s + 1) (dropBookings (sweepRid e) s) with
  | none => keep
  | some (rounds, t) =>
    if maxOf r.sweep < maxOf rounds then keep
    else setExt e { r with sweep := rounds, rebooked := true } (drawStall0 (sweepChit s r.backed) (refund 0 (chitSum s (sweepRid e)) t))

/-- SWEEP_START (R30). -/
def sweepStart (e : Nat) (s : State) : State :=
  let r := extRec s e
  if r.state = 2 ∧ r.drain = 0 ∧ r.sweep.head?.any (fun x => decide (x ≤ curRound s)) then touchExt e { r with state := 3 } s else s

/-- What a sweep removes (R36-R38): the bytes, the mapping and the cached frames, and every entry that refers to them. -/
def sweepBytes (e : Nat) (s0 : State) : State :=
  let s := (extRec s0 e).frames.foldl (fun t p => releasePhys p t) (emptyFrames (fun f _ => f / 16384 == e) s0)
  let lo := e * 2 ^ 30
  let inE := fun (off : Nat) => off / 2 ^ 30 == e
  let inF := fun (f : Nat) => f / 16384 == e
  let inRow := fun (c : RcEnt) => (tableOf s c.table).slots.any (fun x => x.2.2.1 == c.version &&
    (extsOf (offOf (x.1 + c.row * tableStride s c.table)) (tableRowBytes s c.table)).contains e)
  { s with
    mem := { s.mem with hbm := zeroCells s.mem.hbm lo (2 ^ 30), poison := s.mem.poison.filter (fun l => !inE (64 * l)), lost := s.mem.lost.filter (fun f => !inF f) }
    store := { s.store with mapping := AMap.keep (fun f _ => !inF f) s.store.mapping,
                            wbs := s.store.wbs.filter (fun w => !inF w.frame), relocs := s.store.relocs.filter (fun w => !inF w.frame), tracked := AMap.keep (fun f _ => !inF f) s.store.tracked }
    coh := { s.coh with dir := AMap.keep (fun _ d => match d with | some d => d.line / 2 ^ 24 != e | none => true) s.coh.dir,
                        dropped := s.coh.dropped.filter (fun x => x.2 / 2 ^ 24 != e) }
    fab := { s.fab with lc := s.fab.lc.filter (fun l => l.line / 2 ^ 24 != e) }
    xl := { s.xl with heatUnits := AMap.keep (fun k _ => k / 512 != e) s.xl.heatUnits, heatAgents := AMap.keep (fun k _ => k / 512 != e) s.xl.heatAgents }
    emb := { s.emb with cache := s.emb.cache.filter (fun c => !inRow c) } }

/-- SWEEP_END (R30): the extent is FREE; its close tally takes a packet on behalf of its stall (R541). -/
def sweepEnd (e : Nat) (s : State) : State :=
  let r := extRec s e
  if r.state = 3 ∧ r.sweep ≠ [] ∧ r.sweep.all (fun x => decide (x < curRound s)) then
    let s1 := sweepBytes e s
    let s2 := setExt e { grant := r.grant, dirty := true } s1
    if r.closeTally = 0xFFFF then s2 else advance r.stall r.closeTally 1 s2
  else s

/-! ### PUBLISH (R44) -/

def regionOf (s : State) (g : Nat) : Region := AMap.get {} s.ext.regions g
def regionVer (r : Region) : Nat := if r.valid then r.version else 0
/-- The checks of R44 in order. -/
def publishChecks (s : State) (st g expect base : Nat) : List (Bool × Nat × Nat) :=
  let r := regionOf s g
  let n := cv s 0x4020 2 g
  [(base % 4096 == 0 && n != 0, INVALID, 0), (cv s 0x4020 1 g == st && ownsRange s st base n, PROTECTION, 0),
   (openRange s base n, FAULT_EXTENT_CLOSED, 0), (expect == regionVer r, CONFLICT_VERSION, regionVer r),
   ((r.slots.getD ((expect + 1) % 4) (0, 0, 0)).2.2 == 0, BUSY, 0)]
/-- The effect of a PUBLISH that passes. -/
def publish (st ctx g tally expect base : Nat) (s : State) : State :=
  let r := regionOf s g
  let v := (expect + 1) % 2 ^ 32
  advance st tally 1 { s with ext := { s.ext with regions := AMap.set {} s.ext.regions g (Region.mk v ctx true (setAt r.slots (v % 4) (base, v, 0))) } }

/-- A write of REGION_OWNER resets the region (R42). -/
def regionOwner (g owner : Nat) (s : State) : Nat × State :=
  if (regionOf s g).slots.any (fun x => x.2.2 != 0) then (BUSY, s)
  else (OK, cvClear 0x4020 2 g (cvSet 0x4020 1 g owner { s with ext := { s.ext with regions := AMap.set {} s.ext.regions g {} } }))

def execDrainZero (ext : Nat) (s : State) : Out := .next (drainZero ext s)
def execSweepStart (ext : Nat) (s : State) : Out := .next (sweepStart ext s)
def execSweepEnd (ext : Nat) (s : State) : Out := .next (sweepEnd ext s)

end Sys2Proof.Machine
end

