-- ==== Sys2Proof/Machine/Stalls.lean ====
section
/-! DEFINITION. Stalls, map sweeps and pacts (R114-R119, R124, R129-R133). -/

namespace Sys2Proof.Machine
open Sys2Proof

/-- The present tick is a round boundary. -/
def atBoundary (s : State) : Bool := now s % 1280 == 0
/-- A device admission pause is in effect (R77). -/
def devicePaused (s : State) : Bool := cv s 0x1020 1 == 1

/-! ### Defaults (R118, R455) -/

def keyIdx (k : Nat) : Nat := k / 2 ^ 24
def keySub (k : Nat) : Nat := k / 2 ^ 16 % 256
def keyInst (k : Nat) : Nat := k % 2 ^ 16
/-- What an entry is instanced by; 12 for injection points, 99 for no entry. -/
def keyKind (k : Nat) : Nat := match catRow? (keyIdx k) (keySub k) with | some r => r.inst | none => 99
/-- Drop every stored value that passes `p`. -/
def dropVals (p : Nat → Bool) (s : State) : State :=
  { s with cat := { s.cat with vals := AMap.keep (fun k _ => !p k) s.cat.vals, shadow := AMap.keep (fun k _ => !p k) s.cat.shadow,
                               pendB := AMap.keep (fun k _ => !p k) s.cat.pendB } }
/-- Every entry of kind `kind` and instance `i` to its default. -/
def dropInst (kind i : Nat) (s : State) : State := dropVals (fun k => keyInst k == i && keyKind k == kind) s

/-! ### Error-ring and pact state changes (R133) -/

/-- Set a pact's state, with its log entry and records. -/
def setPact (p st : Nat) (s : State) : State :=
  let a := cv s 0x3040 2 p
  let b := cv s 0x3040 3 p
  let s1 := cvSet 0x3040 8 p st s
  let s2 := { s1 with err := { s1.err with pactLog := (s1.err.pactLog ++ [pactBits (now s) p (cv s 0x3040 1 p) a b (cv s 0x3040 4 p) st]).drop (s1.err.pactLog.length - 1023) } }
  let note := fun (x : Nat) (t : State) => if x < 256 then errRec 0x81 p st 0xFFFF x 0 false false t else t
  note b (note a s2)

/-- The object of a pact still belongs to its giver (R130). -/
def pactObjectOk (s : State) (p : Nat) : Bool :=
  let a := cv s 0x3040 2 p
  let o := cv s 0x3040 4 p
  match cv s 0x3040 1 p with
  | 1 => decide (o < 131) && (if 72 ≤ o ∧ o < 88 then (List.range 8).any (fun c => colShare s a (o - 72) c != 0) else shareMask s a (calChunk o) != 0)
  | 2 => cv s 0x7100 1 o == a
  | 3 => (extRec s o).state != 0 && (extRec s o).stall == a
  | 4 => ownsTally s a o
  | _ => false

/-- PACT_IN_FORCE (R131): at a boundary, with both consents, while the object belongs to A. -/
def pactInForce (p : Nat) (s : State) : State :=
  if cv s 0x3040 8 p = 1 && atBoundary s && cv s 0x3040 6 p == 1 && cv s 0x3040 7 p == 1 && pactObjectOk s p then setPact p 2 s else s

/-- A pact becomes ENDING (R132), one that was PROPOSED too. That one never was in force: nothing of B runs under it, and it waits
for none (DESIGN CHOICE, log entry 112). -/
def endPact (p : Nat) (s : State) : State :=
  if cv s 0x3040 8 p = 2 then setPact p 3 s
  else if cv s 0x3040 8 p = 1 then setPact p 3 { s with err := { s.err with pactEnd := AMap.set [] s.err.pactEnd p [0] } } else s

/-- A booking holds a slot of a pact's giver in the pact's calendar. -/
def inLent (s : State) (p : Nat) (b : Booking) : Bool :=
  let a := cv s 0x3040 2 p
  let o := cv s 0x3040 4 p
  b.cal == o && (if 72 ≤ o ∧ o < 88 then (setBits 8 b.mask).any (fun c => b.slots.any (fun k => bit (groupMask (colShare s a (o - 72) c)) k))
    else b.slots.any (fun k => bit (shareMask s a (calChunk o)) (k / 8)))
/-- The requests of B accepted under a pact that still run: with slots lent, from the table or over the extent. -/
def pactReqs (s : State) (p : Nat) : List Nat :=
  let o := cv s 0x3040 4 p
  (s.gate.reqs.filter (fun q => q.stall == cv s 0x3040 3 p && (match cv s 0x3040 1 p with
    | 1 => s.gate.books.any (fun b => b.rid == q.rid && inLent s p b)
    | 2 => q.cmds.any (fun c => match c.work with | .gather d => d.tables.contains o | _ => false)
    | 3 => q.cmds.any (fun c => c.exts.contains o)
    | _ => false))).map (·.rid)

/-- PACT_LEAVE_FORCE (R132): at the next boundary. -/
def pactLeaveForce (p : Nat) (s : State) : State :=
  if cv s 0x3040 8 p = 3 && atBoundary s && (AMap.get [] s.err.pactEnd p).isEmpty then
    { s with err := { s.err with pactEnd := AMap.set [] s.err.pactEnd p (0 :: pactReqs s p) } }
  else s

/-- PACT_EMPTY (R132): every request accepted under it is complete. -/
def pactEmpty (p : Nat) (s : State) : State :=
  let l := AMap.get [] s.err.pactEnd p
  if cv s 0x3040 8 p = 3 && !l.isEmpty && l.all (fun r => (reqOf s r).isNone) then
    setPact p 0 { s with err := { s.err with pactEnd := AMap.set [] s.err.pactEnd p [] } }
  else s

/-- CONSENT_A and CONSENT_B (R131, R132): writable while EXPERT_ENABLE is set for that stall. -/
def consent (sub p v : Nat) (s : State) : Nat × State :=
  let st := cv s 0x3040 (sub - 4) p
  if 1 < v then (INVALID, s) else if !expert s st then (PROTECTION, s)
  else
    let t := cvSet 0x3040 sub p v s
    (OK, if v = 0 ∧ cv s 0x3040 sub p = 1 then endPact p t else t)

/-! ### On-chip sweeps (R124, R129) -/

def zeroBank (k i : Nat) (s : State) : State :=
  { s with mem := { s.mem with bank := zeroCells s.mem.bank (bankBase k i) (2 ^ 17), ueWords := s.mem.ueWords.filter (fun w => w / 2 ^ 14 != k * 512 + i) } }
def zeroPage (k c p : Nat) (s : State) : State :=
  (List.range 2).foldl (fun t i => { t with mem := { t.mem with bank := zeroCells t.mem.bank (tcmBase (16 * k + 2 * c + i) + 4096 * p) 4096 } }) s
/-- Zero the positions and rows of a slot group of a column in both banks (R308). -/
def zeroGroup (col g : Nat) (s : State) : State :=
  let z := fun (b : Stream) =>
    let pos := fun (k : Nat) => !(k / 2 ^ 14 == col && k % 2 ^ 14 / 128 == g)
    let row := fun (k : Nat) => !(k / 256 == col && (k % 256 == 2 * g + 1 || k % 256 == 2 * g + 2))
    let mpos := fun (k : Nat) => !(col % 8 == 0 && k / 2 ^ 14 == col / 8 && k % 2 ^ 14 / 128 == g)
    let mrow := fun (k : Nat) => !(col % 8 == 0 && k / 256 == col / 8 && (k % 256 == 2 * g + 1 || k % 256 == 2 * g + 2))
    { b with fields := AMap.keep (fun k _ => pos k) b.fields, opRows := AMap.keep (fun k _ => row k) b.opRows,
             movers := AMap.keep (fun k _ => mpos k) b.movers, moveRows := AMap.keep (fun k _ => mrow k) b.moveRows }
  { s with fab := { s.fab with runB := z s.fab.runB, nextB := z s.fab.nextB } }
def clearTally (t : Nat) (s : State) : State := setTally t {} s
def clearMover (n : Nat) (s : State) : State := { s with movers := AMap.set {} s.movers n {} }
/-- Write owned line-cache lines of a stall in a cluster back and drop all its lines there. -/
def dropLines (k st : Nat) (s : State) : State :=
  let own := s.fab.lc.filter (fun l => l.cluster == k && l.stall == st && l.owned)
  let s1 := { s with fab := { s.fab with lc := s.fab.lc.filter (fun l => !(l.cluster == k && l.stall == st)) } }
  own.foldl (fun t l => storeWrite (64 * l.line) (leBytes 64 l.data.toNat) t) s1

/-- MAP_SWEEP: the sweeps a committed map made due (R124). Kinds: 0 bank, 1 page, 2 tally, 3 channel, 4 slot group. -/
def sweepUnit (kind unit : Nat) (s : State) : State :=
  match kind with
  | 0 => zeroBank (unit / 512) (unit % 512) s
  | 1 => zeroPage (unit / 128) (unit / 16 % 8) (unit % 16) s
  | 2 => clearTally unit s
  | 3 => clearMover unit s
  | 4 => zeroGroup (unit / 128) (unit % 128) s
  | _ => s
def mapSweep (s : State) : State :=
  let due := s.cat.sweepDue.filter (fun x => x.2.1 != 9 && decide (x.1 ≤ curRound s))
  due.foldl (fun t x => sweepUnit x.2.1 x.2.2 t) { s with cat := { s.cat with sweepDue := s.cat.sweepDue.filter (fun x => !(x.2.1 != 9 && decide (x.1 ≤ curRound s))) } }

/-! ### Stalls (R115-R118) -/

/-- STALL_CREATE: the stall is ACTIVE, its meters at zero, AGENT_CLEAN clear for its agent set (R116, R525). -/
def stallCreate (st : Nat) (s : State) : Nat × State :=
  if st = 0 ∨ 255 < st then (INVALID, s) else if stallState s st ≠ 0 then (BUSY, s)
  else
    let s1 := (agentsOf s st).foldl (fun t a => cvSet 0x5010 3 a 0 t) s
    (OK, cvSet 0x3000 1 st 1 ((List.range 7).foldl (fun t i => cvClear 0x3050 (i + 1) st t) s1))

/-- Close every OPEN extent of a stall that can be closed, ascending (R115, R117). -/
def closeAll (st : Nat) (s : State) : State :=
  ((s.ext.recs.filter (fun e => e.2.state == 1 && e.2.stall == st)).map (·.1)).foldl (fun t e =>
    if 1024 ≤ drainsActive t then t else match closeExtent e 0xFFFF t with
      | some (_, u) => u
      | none => t) s

/-- STALL_REMOVE. -/
def stallRemove (st : Nat) (s : State) : Nat × State :=
  if st = 0 ∨ 255 < st then (INVALID, s) else if stallState s st ≠ 1 then (BUSY, s)
  else
    let s1 := cvSet 0x1010 5 st 1 (cvSet 0x3000 1 st 2 s)
    let ctxs := (storedInsts s 0x3030 1).filter (fun e => e.2 == st)
    let s2 := ctxs.foldl (fun t e => cvClear 0x3030 1 e.1 { t with err := { t.err with retiredCtx := AMap.set 0 t.err.retiredCtx e.1 (st + 1) } }) s1
    let s3 := closeAll st s2
    (OK, ((storedInsts s 0x3040 8).filter (fun e => cv s 0x3040 2 e.1 == st || cv s 0x3040 3 e.1 == st)).foldl (fun t e => endPact e.1 t) s3)

/-- STALL_SWEEP_START (R115): nothing of the stall is left and its last promise has passed; the sweep takes one round. -/
def stallSweepStart (st : Nat) (s : State) : State :=
  if stallState s st = 2 && atBoundary s && trackInUse s st == 0 && extCount s st == 0
    && decide (AMap.get 0 s.gate.lastPromise st ≤ now s) && s.gate.books.all (fun b => b.stall != st || decide (b.round < curRound s)) then
    cvSet 0x3000 1 st 3 { s with cat := { s.cat with sweepDue := s.cat.sweepDue ++ [(curRound s + 1, 9, st)] } }
  else s

/-- What the sweep of a stall removes from the chip (R129). -/
def sweepStall (st : Nat) (s0 : State) : State :=
  let s := emptyFrames (fun _ c => c.stall == st) s0
  let s1 := (List.range 16).foldl (fun t k =>
    let t1 := ((List.range 8).flatMap (fun c => spadList s st k c) ++ storeList s st k).foldl (fun t i => zeroBank k i t) (dropLines k st t)
    (List.range 8).foldl (fun t c => ((setBits 16 (tcmPages s st k c)).foldl (fun t p => zeroPage k c p t)
      ((setBits 128 (colShare s st k c)).foldl (fun t g => zeroGroup (8 * k + c) g t) t))) t1) s
  let s2 := ((List.range (cv s 0x3013 2 st)).map (· + cv s 0x3013 1 st)).foldl (fun t i => clearTally i t) s1
  let s3 := (setBits 256 (cv s 0x3014 1 st)).foldl (fun t n => clearMover n t) s2
  { s3 with
    coh := { s3.coh with dir := AMap.keep (fun _ d => match d with | some d => d.stall != st | none => true) s3.coh.dir
                         predictor := AMap.keep (fun k _ => k / 2 ^ 24 != st) s3.coh.predictor }
    xl := { s3.xl with tlbs := s3.xl.tlbs.filter (fun t => t.stall != st), walks := s3.xl.walks.filter (fun w => w.stall != st),
                       iq := s3.xl.iq.filter (fun q => q.stall != st), iqTaken := AMap.set 0 s3.xl.iqTaken st 0,
                       xrSeq := AMap.set 0 s3.xl.xrSeq st 0, xrWritten := AMap.set 0 s3.xl.xrWritten st 0 }
    emb := { s3.emb with cache := s3.emb.cache.filter (fun c => c.stall != st), freq := AMap.keep (fun k _ => k / 2 ^ 32 != st) s3.emb.freq }
    err := { s3.err with seq := AMap.set 0 s3.err.seq st 0, written := AMap.set 0 s3.err.written st 0,
                         stallLog := AMap.set [] s3.err.stallLog st [], meterSnaps := AMap.set [] s3.err.meterSnaps st [] }
    store := { s3.store with gone := AMap.set 0 s3.store.gone st 0 }
    gate := { s3.gate with balance := AMap.set 0 s3.gate.balance st 0, refunds := AMap.set 0 s3.gate.refunds st 0, overruns := AMap.set 0 s3.gate.overruns st 0,
                           energy := s3.gate.energy.filter (fun e => e.stall != st), noStand := AMap.set (0, 0) s3.gate.noStand st (0, 0) } }

/-- The staged groups in which a stall has a shadow that differs from the default (R118). -/
def stagedGroupsOf (s : State) (st : Nat) : List Nat :=
  dedup (((s.cat.vals ++ s.cat.shadow).map (·.1)).filterMap (fun k => match catRow? (keyIdx k) (keySub k) with
    | some r => if r.inst == 1 && keyInst k == st && r.app == 3 && cvShadow s (keyIdx k) (keySub k) st != dfltOf s (keyIdx k) (keySub k) st then some r.grp else none
    | none => none))

/-- A table's and a collection's owner write (R341, R375). -/
def resetTable (t owner : Nat) (s : State) : State := cvClear 0x7100 5 t (cvSet 0x7100 1 t owner (setTable t {} s))
def resetColl (u owner : Nat) (s : State) : State := cvSet 0x7900 1 u owner (dropInst 3 u { s with colls := AMap.set {} s.colls u {} })

/-- Every table, collection, region, agent, context and pact of a stall to its defaults (R118). -/
def dropObjects (st : Nat) (s : State) : State :=
  let own := fun (idx : Nat) => ((storedInsts s idx 1).filter (fun e => e.2 == st)).map (·.1)
  let s1 := (own 0x7100).foldl (fun t i => dropInst 2 i (resetTable i 0xFFFF t)) s
  let s2 := (own 0x7900).foldl (fun t i => resetColl i 0xFFFF t) s1
  let s3 := (own 0x4020).foldl (fun t i => dropInst 4 i { t with ext := { t.ext with regions := AMap.set {} t.ext.regions i {} } }) s2
  let s4 := (own 0x5010).foldl (fun t i => cvClear 0x5010 1 i t) s3
  let s5 := ((s.err.retiredCtx.filter (fun e => e.2 == st + 1)).map (·.1)).foldl (fun t c =>
    dropInst 5 c { t with ctxs := AMap.set {} t.ctxs c {}, err := { t.err with retiredCtx := AMap.set 0 t.err.retiredCtx c 0 } }) s4
  ((storedInsts s 0x3040 8).filter (fun e => cv s 0x3040 2 e.1 == st || cv s 0x3040 3 e.1 == st)).foldl (fun t e =>
    dropInst 7 e.1 { t with err := { t.err with pactEnd := AMap.set [] t.err.pactEnd e.1 [] } }) s5

/-- A stall's injection arms and counts of firings return to their defaults (R118, R499). -/
def dropArms (st : Nat) (s : State) : State :=
  let t := dropVals (fun k => keyInst k == st && decide (0xB100 ≤ keyIdx k) && decide (keyIdx k ≤ 0xB117)) s
  { t with err := { t.err with armCount := AMap.keep (fun k _ => k % 256 != st) t.err.armCount } }

/-- STALL_UNUSED (R118): the sweep's round has ended. -/
def stallUnused (st : Nat) (s : State) : State :=
  if stallState s st = 3 && atBoundary s && s.cat.sweepDue.any (fun x => x.2.1 == 9 && x.2.2 == st && decide (x.1 ≤ curRound s)) then
    let gs := stagedGroupsOf s st
    let s0 := dropArms st (dropObjects st (sweepStall st s))
    let s1 := dropInst 1 st s0
    let s2 := gs.foldl (fun t g => cvAdd 0xF004 1 g 1 t) s1
    { s2 with cat := { s2.cat with sweepDue := s2.cat.sweepDue.filter (fun x => !(x.2.1 == 9 && x.2.2 == st)) } }
  else s

def execStallSweepStart (stall : Nat) (s : State) : Out := .next (stallSweepStart stall s)
def execStallUnused (stall : Nat) (s : State) : Out := .next (stallUnused stall s)
def execPactInForce (pact : Nat) (s : State) : Out := .next (pactInForce pact s)
def execPactLeaveForce (pact : Nat) (s : State) : Out := .next (pactLeaveForce pact s)
def execPactEmpty (pact : Nat) (s : State) : Out := .next (pactEmpty pact s)
def execMapSweep (s : State) : Out := .next (mapSweep s)

end Sys2Proof.Machine
end

