-- ==== Sys2Proof/Machine/Records.lean ====
section
/-! DEFINITION. Completion records on a context's ring, and refusals (R69, R70, R75, R380, R418, R424, R425, R427). -/

namespace Sys2Proof.Machine
open Sys2Proof

def ctxOf (s : State) (c : Nat) : Ctx := AMap.get {} s.ctxs c
def setCtx (c : Nat) (x : Ctx) (s : State) : State := { s with ctxs := AMap.set {} s.ctxs c x }
def crEntries (s : State) (c : Nat) : Nat := cv s 0x9100 5 c
/-- Reserve a ring slot of a context (R418), and give it back. -/
def reserveSlot (c : Nat) (s : State) : State := let x := ctxOf s c; setCtx c { x with reserved := x.reserved + 1 } s
def releaseSlot (c : Nat) (s : State) : State := let x := ctxOf s c; setCtx c { x with reserved := x.reserved - 1 } s

/-- Bytes written to host memory by the device. -/
def hostWrite (a : Nat) (l : List Byte) (s : State) : State := { s with mem := { s.mem with host := writeCells s.mem.host a l } }

/-- Write 32 bytes of a record where a context's ring lies: host memory for port 128, else the stall's extents. -/
def ringWrite (st c a : Nat) (l : List Byte) (s : State) : State :=
  if ctxPort s c = 128 then hostWrite a l s
  else if ownsRange s st a l.length then deviceWrite (offOf a) l s else s

/-- Write a record at the next ring position (R425): the reserved slot is released, the counts rise, CR_TALLY advances by
one packet. A context with CR_ENTRIES 0 takes no record. `rec` gives the record for a PHASE. -/
def writeRecord (st c : Nat) (rec : Nat → Nat) (s : State) : State :=
  let s0 := releaseSlot c s
  let n := crEntries s c
  if n = 0 then s0 else
  let x := ctxOf s0 c
  let pos := x.crWritten.toNat
  let s1 := ringWrite st c (cv s 0x9100 4 c + 32 * (pos % n)) (leBytes 32 (rec (phaseOf pos n))) (setCtx c { x with crWritten := x.crWritten + 1 } s0)
  advance st (cv s 0x9100 6 c) 1 (cvAdd 0x9110 2 c 1 s1)

/-! ### Mover channels (R376-R380, R427) -/

def moverOf (s : State) (n : Nat) : Mover := AMap.get {} s.movers n
def setMover (n : Nat) (m : Mover) (s : State) : State := { s with movers := AMap.set {} s.movers n m }
/-- A channel's outcome: STATE DONE, the code, the mark, the parts and bytes of the transfer; GO is cleared (R377). -/
def channelDone (n mark parts code bytes : Nat) (s : State) : State :=
  let m := moverOf s n
  setMover n { m with status := moverStatus mark parts 4 code, doneBytes := BitVec.ofNat 64 bytes, ctrl := m.ctrl &&& ~~~(1#64) } s
/-- A channel's progress: STATE 1 DECIDING, 2 BOOKED, 3 RUNNING, with the promise. -/
def channelState (n mark state : Nat) (s : State) : State := let m := moverOf s n; setMover n { m with status := moverStatus mark 0 state 0 } s

/-! ### Refusals (R69, R70) -/

/-- The earliest promise among the accepted requests of a stall that satisfy `p`; 2^64 where there is none. -/
def earliestPromise (s : State) (p : Req → Bool) : Nat := (minOf ((s.gate.reqs.filter p).map (·.promise))).getD (2 ^ 64)

/-- PROMISED and DETAIL of a refusal decided at tick `dt` (R69). For the statuses of R70 `d` is the retry tick, 2^64 where
no retry will succeed; for the others it is the detail word. -/
def refusalWords (status d dt : Nat) : Nat × Nat :=
  if hasRetry status then
    if 2 ^ 64 ≤ d then (dt + 0xFFFFFFFF, 0xFFFFFFFF) else (d, min (d - dt) 0xFFFFFFFE)
  else (if d = 0xFFFFFFFF then dt + 0xFFFFFFFF else dt, d)

/-- ENTRY, TAG, OPCODE of an arrival's record (R424). -/
def arrivalEntry (a : Arrival) : Nat := match a.chan with | some n => 0xFFFFFF00 + n | none => a.pos
def arrivalTag (a : Arrival) : Nat := if a.chan.isSome then 0 else bits (a.entries.headD 0).toNat 31 16
def arrivalOp (a : Arrival) : Nat := if a.chan.isSome then 0x06 else bits (a.entries.headD 0).toNat 7 0

/-- A refusal's counter among `0x1011`: subindex STATUS + 1 for the statuses of R70. -/
def countRefusal (st status : Nat) (s : State) : State := if hasRetry status then cvAdd 0x1011 (status + 1) st 1 s else s

/-- The tick of a stall's next decision: now, or 4 ticks after its last (R55). -/
def decTick (s : State) (st : Nat) : Nat :=
  match AMap.get none s.gate.lastDecision st with | some t => max (now s) (t + 4) | none => now s

/-- The Gate may decide a request of a stall at this tick: 4 ticks after the stall's last decision, and after no decision of a
higher stall at the same tick (R55). -/
def mayDecide (s : State) (st : Nat) : Bool :=
  decTick s st == now s && s.gate.lastDecision.all (fun e => e.2 != some (now s) || decide (e.1 ≤ st))
/-- Note a decision of a stall. -/
def noteDecision (st dt : Nat) (s : State) : State := { s with gate := { s.gate with lastDecision := AMap.set none s.gate.lastDecision st (some dt) } }

/-- Refuse an arrival of `n` commands at its decision tick: its record, its counter, its channel's outcome; it leaves the undecided requests (R69, R380). -/
def refuse (a : Arrival) (n status d : Nat) (s : State) : State :=
  let dt := decTick s a.stall
  let w := refusalWords status d dt
  let s0 := { s with gate := { s.gate with intake := s.gate.intake.filter (· != a), lastDecision := AMap.set none s.gate.lastDecision a.stall (some dt),
                                           joints := s.gate.joints.filter (fun j => !(j.rid == 0 && j.origin && j.ctx == a.ctx && j.pos == a.pos && j.chan == a.chan)) } }
  let s1 := writeRecord a.stall a.ctx (fun ph => recordBits w.2 (now s) w.1 (arrivalEntry a) 0 (arrivalTag a) (n - 1) (arrivalOp a) ph true false false status)
    (countRefusal a.stall status s0)
  match a.chan with
  | some n => channelDone n w.1 0 status 0 s1
  | none => s1

/-! ### Arrival (R53, R427) -/

def undecided (s : State) (st : Nat) : List Arrival := s.gate.intake.filter (fun a => a.stall == st)
/-- The transfers an arrival names: of its COPY and BARROW entries, or of its channel's chain. -/
def arrivalXfers (s : State) (a : Arrival) : List Xfer :=
  let ofDesc := fun (w : Nat) => ({ src := bits w 511 448, dst := bits w 447 384, count := bits w 383 320, tally := 0, packet := false,
                                    vSrc := bit w 142, vDst := bit w 141, prio := 0 } : Xfer)
  match a.chan, a.entries with
  | some n, [] => (match readChain s a.stall 16 (AMap.get ({} : Mover) s.movers n).chainAddr.toNat with | .inl l => l.map ofDesc | .inr _ => [])
  | _, es => es.filterMap (fun (e : Entry) =>
      if e.opcode = 0x06 then some { src := e.opa, dst := e.opb, count := 0, tally := 0, packet := false, vSrc := e.modeA != 0, vDst := e.modeB != 0, prio := 0 }
      else if e.opcode = 0x07 then (match resolve s a.stall e.modeA e.opa 64 with
        | .glob g _ => let w := readDesc s g
                       some { src := bits w 511 448, dst := bits w 447 384, count := 0, tally := 0, packet := false, vSrc := false, vDst := false, prio := 0 }
        | _ => none)
      else none)
/-- The decision bound of an arrival (R53, R79, R395): 300 + 2 × TB ticks with a part on another node, else 150. -/
def decisionBound (s : State) (a : Arrival) : Nat :=
  let far := (arrivalXfers s a).filter (isRemote s)
  a.tick + (if far.isEmpty then 150 else 300 + 2 * maxOf (far.map (fun x => transitTo s (farNode s x))))

/-- A request arrives: it joins the undecided ones, or is refused where 16 of its stall are undecided (R53). -/
def arrive (a : Arrival) (s : State) : State :=
  let us := undecided s a.stall
  let s1 := reserveSlot a.ctx s
  if 16 ≤ us.length then refuse a a.entries.length REFUSED_QUOTA (decisionBound s (us.headD a)) s1
  else { s1 with gate := { s1.gate with intake := s1.gate.intake ++ [a] } }

end Sys2Proof.Machine
end

