-- ==== Sys2Proof/Machine/Windows.lean ====
section
/-! DEFINITION. The windows of R19: doorbell blocks (R414-R417), tallies (R209), mover channels (R376-R380) and version
words (R43), as agents, the host port and porters reach them (R20-R22, R411). -/

namespace Sys2Proof.Machine
open Sys2Proof

/-! ### Who makes an access (R21, R380, R411, R414) -/

def porter (s : State) (p : Nat) : Porter := AMap.get {} s.fab.porters p

/-- The host-port context of a PASID: not DISABLED, CONTEXT_PORT 128 (R411). -/
def hostCtx (s : State) (pasid : Option Nat) : Option Nat :=
  match pasid with
  | none => none
  | some p => ((s.ctxs.filter (fun e => e.2.state != 0 && ctxPort s e.1 == 128 && cv s 0x5810 6 e.1 == p)).map (·.1)).head?

/-- The stall an access is checked against. -/
def accStall (s : State) (src : Accessor) : Option Nat :=
  match src with
  | .agent a => agentOf s a
  | .host p => (hostCtx s p).bind (fun c => let st := ctxStall s c; if stallLive s st then some st else none)
  | .porter p => some (porter s p).stall

/-- The context that makes a GO: a porter's is its part's, the host port's is the PASID's, and an agent's is its lowest
context of the channel's stall that is not DISABLED (log entry 20). -/
def accCtx (s : State) (src : Accessor) : Option Nat :=
  match src with
  | .agent a => ((s.ctxs.filter (fun e => e.2.state != 0 && ctxPort s e.1 == a && some (ctxStall s e.1) == agentOf s a)).map (·.1)).head?
  | .host p => hostCtx s p
  | .porter p => some (porter s p).ctx

/-- The doorbell page of context `c` is the accessor's own (R414). -/
def ownsPage (s : State) (src : Accessor) (c : Nat) : Bool :=
  match src with
  | .agent a => ctxPort s c == a && agentOf s a == some (ctxStall s c)
  | .host p => hostCtx s p == some c
  | .porter _ => false

def accCode (src : Accessor) : Nat := match src with | .agent a => a % 256 | .host _ => 128 | .porter _ => 128

/-- A PROTECTION error record (R495): cause 1 foreign NODE, 2 ownership of a window line, 3 foreign window access,
4 unbound agent or extent of another stall. -/
def protectionRec (src : Accessor) (addr cause : Nat) (s : State) : State :=
  errRec 0x8F addr (accCode src + cause * 256) 0xFFFF ((accStall s src).getD 0) 0 false false s

/-! ### What lies at a window offset (R19), by aligned 8-byte part -/

inductive WinPart where
  | doorbell (ctx part : Nat)
  | tally (t part : Nat)
  | mover (n part : Nat)
  | version (g : Nat)
  | reserved
  deriving DecidableEq, Repr

def winPart (off : Nat) : WinPart :=
  let x := off - windowBase
  if x < 0x04000000 then .doorbell (x / 4096) (x % 4096 / 8)
  else if x < 0x04100000 then .tally ((x - 0x04000000) / 64) (x % 64 / 8)
  else if x < 0x04104000 then .mover ((x - 0x04100000) / 64) (x % 64 / 8)
  else if x < 0x04200000 then .reserved
  else if x < 0x04280000 then .version ((x - 0x04200000) / 8)
  else .reserved

/-- The accessor reaches a part (R21). -/
def reachesPart (s : State) (src : Accessor) (p : WinPart) : Bool :=
  match p, accStall s src with
  | .doorbell c _, _ => ownsPage s src c
  | .tally t _, some st => reachesTally s st t
  | .mover n _, some st => ownsChan s st n
  | .version g, some st => cv s 0x4020 1 g == st
  | _, _ => false

/-- The aligned 8-byte parts of an access (R22). -/
def partsOf (off len : Nat) : List Nat := (List.range ((off + len + 7) / 8 - off / 8)).map (fun i => (off / 8 + i) * 8)
def reachesWindow (s : State) (src : Accessor) (off len : Nat) : Bool :=
  (partsOf off len).all (fun o => reachesPart s src (winPart o))

/-! ### Reads -/

/-- The channel's stall, by MOVER_MAP. -/
def chanStall (s : State) (n : Nat) : Nat := ((List.range 256).find? (fun st => ownsChan s st n)).getD 0

/-- A channel block as read: the expert fields read as reset while EXPERT_ENABLE is clear (R379). -/
def moverBits (s : State) (n : Nat) : Nat :=
  let m := AMap.get {} s.movers n
  let ex := expert s (chanStall s n)
  let ctrl := if ex then m.ctrl.toNat
    else m.ctrl.toNat % 2 ^ 39 + (bits m.ctrl.toNat 43 40) * 2 ^ 40 + 0xFFFF * 2 ^ 48
  m.src.toNat + m.dst.toNat * 2 ^ 64 + m.count.toNat * 2 ^ 128 + ctrl * 2 ^ 192 + m.status.toNat * 2 ^ 256
    + m.doneBytes.toNat * 2 ^ 320 + (if ex then m.chainAddr.toNat else 0) * 2 ^ 384

/-- The 64-bit word of a part. -/
def winWord (s : State) (p : WinPart) : Nat :=
  match p with
  | .doorbell c i => if i < 8 then doorbellBits (ctxOf s c) (cv s 0x9100 5 c) (ctxStall s c) / 2 ^ (64 * i) % 2 ^ 64 else 0
  | .tally t i => tallyBits (tallyOf s t) / 2 ^ (64 * i) % 2 ^ 64
  | .mover n i => moverBits s n / 2 ^ (64 * i) % 2 ^ 64
  | .version g => versionWord (regionOf s g)
  | .reserved => 0

/-- Bytes read from the windows. -/
def winRead (s : State) (off len : Nat) : List Byte :=
  slice ((partsOf off len).flatMap (fun o => leBytes 8 (winWord s (winPart o)))) (off % 8) len

/-! ### Writes -/

/-- Merge the bytes a mask names into an old word. -/
def mergeWord (old new mask : Nat) : Nat :=
  ((List.range 8).map (fun i => bits (if bit mask i then new else old) (8 * i + 7) (8 * i) * 2 ^ (8 * i))).foldl (· + ·) 0

/-- A doorbell write (R417): CQ_TAIL and CR_HEAD, or ignored with DOORBELL_ERRORS and a DOORBELL record. -/
def doorbell (c : Nat) (word : Nat) (s : State) : State :=
  let x := ctxOf s c
  let tail : Word32 := BitVec.ofNat 32 word
  let head : Word32 := BitVec.ofNat 32 (word / 2 ^ 32)
  if x.state == 1 && decide ((tail - x.cqTaken).toNat ≤ cv s 0x9100 3 c)
    && decide ((x.crWritten - head).toNat ≤ (x.crWritten - x.crHead).toNat) then
    setCtx c { x with cqTail := tail, crHead := head } s
  else
    let st := ctxStall s c
    errRec 0x83 c (word % 2 ^ 32) c (if st < 256 then st else 0) 0 false false (cvAdd 0x9110 3 c 1 s)

/-- The capture of a channel's registers as one COPY entry (R380); a chain keeps its address in the registers. Reserved bits of
CTRL that are set stand in the entry's reserved bit 11, so that check 1 refuses the request (R5, R377, R381). -/
def moverEntry (s : State) (n : Nat) : BitVec 512 :=
  let m := AMap.get {} s.movers n
  let c := m.ctrl.toNat
  let ex := expert s (chanStall s n)
  let tally := if ex then bits c 63 48 else 0xFFFF
  let prio := if ex then bits c 47 45 else 0
  let packet := ex && bit c 39
  BitVec.ofNat 512 (0x06 + (bits c 43 42) * 2 ^ 9 + (if bits c 38 1 = 0 then 0 else 2 ^ 11) + (if bit c 41 then 2 ^ 12 else 0) + (if bit c 40 then 2 ^ 14 else 0)
    + 0xFFFF * 2 ^ 32 + m.src.toNat * 2 ^ 128 + m.dst.toNat * 2 ^ 192 + m.count.toNat * 2 ^ 256
    + tally * 2 ^ 320 + ((if packet then 1 else 0) + 2 * prio) * 2 ^ 336)

/-- A channel's transfer is a chain. -/
def moverChain (s : State) (n : Nat) : Bool := expert s (chanStall s n) && bit (AMap.get ({} : Mover) s.movers n).ctrl.toNat 44

/-- A write of CTRL: the fields, and with GO a request of context `c` that arrives now (R380). Where the context's ring
has no free slot the channel is DONE with REFUSED_QUOTA and the context's earliest promise (R427). -/
def writeCtrl (n : Nat) (v : Nat) (c : Option Nat) (s : State) : State :=
  let m : Mover := AMap.get {} s.movers n
  let ex := expert s (chanStall s n)
  let old := m.ctrl.toNat
  let keep := if ex then v % 2 ^ 64 else v % 2 ^ 39 + (bits old 39 39) * 2 ^ 39 + (bits v 43 40) * 2 ^ 40 + (bits old 63 44) * 2 ^ 44
  let go := bit v 0 && c.isSome
  let s1 := setMover n { m with ctrl := BitVec.ofNat 64 (keep / 2 * 2 + (if go || bit old 0 then 1 else 0)) } s
  match go, c with
  | true, some ctx =>
    let entries := crEntries s1 ctx
    if entries ≠ 0 ∧ crFree (ctxOf s1 ctx) entries = 0 then
      channelDone n (earliestPromise s1 (fun r => r.ctx == ctx)) 0 REFUSED_QUOTA 0 (countRefusal (ctxStall s1 ctx) REFUSED_QUOTA s1)
    else arrive { ctx := ctx, stall := ctxStall s1 ctx, tick := now s1, pos := 0,
                  entries := if moverChain s1 n then [] else [moverEntry s1 n], chan := some n } (channelState n 0 1 s1)
  | _, _ => s1

/-- A write of a channel register part (R379): dropped with MOVER_BUSY while the channel is busy. -/
def moverWrite (n part v mask : Nat) (c : Option Nat) (s : State) : State :=
  let m : Mover := AMap.get {} s.movers n
  let st := moverState m
  if !(part == 0 || part == 1 || part == 2 || part == 3 || part == 6) then s
  else if 1 ≤ st ∧ st ≤ 3 then errRec 0x82 n (8 * part) 0xFFFF (chanStall s n) 0 false false s
  else
    let put := fun (m : Mover) => { s with movers := AMap.set {} s.movers n m }
    let mrg := fun (old : Word64) => BitVec.ofNat 64 (mergeWord old.toNat v mask)
    match part with
    | 0 => put { m with src := mrg m.src }
    | 1 => put { m with dst := mrg m.dst }
    | 2 => put { m with count := mrg m.count }
    | 3 => writeCtrl n (mergeWord (m.ctrl.toNat / 2 * 2) v mask) c s
    | _ => if expert s (chanStall s n) then put { m with chainAddr := mrg m.chainAddr } else s

/-- A write of a tally part: VALUE clears OVERFLOW, ADD adds (R209, R213). LAST_TICK is left. -/
def tallyAddSoft (st t n : Nat) (s : State) : State :=
  if n = 0 then s else
  let last := (tallyOf s t).lastTick
  let s1 := advance st t n s
  setTally t { tallyOf s1 t with lastTick := last } s1
def tallyWrite (st t part v mask : Nat) (s : State) : State :=
  match part with
  | 0 => tallySet t (BitVec.ofNat 64 (mergeWord (tallyVal s t) v mask)) s
  | 1 => tallyAddSoft st t (mergeWord 0 v mask) s
  | _ => s

/-- Write one aligned 8-byte part of a window. -/
def winWritePart (src : Accessor) (p : WinPart) (v mask : Nat) (s : State) : State :=
  match p with
  | .doorbell c 0 =>
    let x := ctxOf s c
    doorbell c (mergeWord (x.cqTail.toNat + x.crHead.toNat * 2 ^ 32) v mask) s
  | .tally t i => tallyWrite ((accStall s src).getD 0) t i v mask s
  | .mover n i => moverWrite n i v mask (accCtx s src) s
  | _ => s

/-- A write to the windows (R21, R22): dropped whole, with one record, where a part is not the accessor's. `mask` names
the bytes written, bit `i` for byte `off + i`. Before the Gate opens a write is discarded (R517). -/
def winWrite (src : Accessor) (off : Nat) (data : List Byte) (mask : Nat) (s : State) : State :=
  let lead := off % 8
  let d := List.replicate lead (0 : Byte) ++ data
  let m := mask * 2 ^ lead
  if data.isEmpty || !gateOpened s then s
  else if (partsOf off data.length).zipIdx.any (fun (o, i) => m / 2 ^ (8 * i) % 256 != 0 && !reachesPart s src (winPart o)) then
    protectionRec src (gaddr s off) 3 s
  else
    (partsOf off data.length).zipIdx.foldl (fun t (o, i) =>
      let mk := m / 2 ^ (8 * i) % 256
      if mk = 0 then t else winWritePart src (winPart o) (leNat (slice d (8 * i) 8)) mk t) s

/-- DOORBELL_WRITE: bytes at an offset of a context's page. -/
def doorbellWrite (src : Accessor) (ctx off : Nat) (data : List Byte) (s : State) : State :=
  if off + data.length ≤ 4096 ∧ ctx < 16384 then winWrite src (windowBase + 4096 * ctx + off) data (2 ^ data.length - 1) s else s
def moverOff (chan off : Nat) : Nat := windowBase + 0x04100000 + 64 * chan + off
/-- MOVER_GO: a write of CTRL whose GO bit is set. -/
def moverGo (src : Accessor) (chan : Nat) (ctrl : Word64) (s : State) : State :=
  if chan < 256 then winWrite src (moverOff chan 24) (leBytes 8 (ctrl ||| 1).toNat) 255 s else s
/-- REGISTER_WRITE: an 8-byte write to a channel register; GO is not written by it. -/
def registerWrite (src : Accessor) (chan off : Nat) (v : Word64) (s : State) : State :=
  if chan < 256 ∧ off < 64 ∧ off % 8 = 0 then
    winWrite src (moverOff chan off) (leBytes 8 (if off = 24 then v.toNat / 2 * 2 else v.toNat)) 255 s
  else s
def tallyOff (t part : Nat) : Nat := windowBase + 0x04000000 + 64 * t + 8 * part
def tallyAddWrite (src : Accessor) (t : Nat) (n : Word64) (s : State) : State :=
  if t < 16384 then winWrite src (tallyOff t 1) (leBytes 8 n.toNat) 255 s else s
def tallyValueWrite (src : Accessor) (t : Nat) (v : Word64) (s : State) : State :=
  if t < 16384 then winWrite src (tallyOff t 0) (leBytes 8 v.toNat) 255 s else s

def execDoorbellWrite (src : Accessor) (ctx off : Nat) (data : List Byte) (s : State) : Out := .next (doorbellWrite src ctx off data s)
def execMoverGo (src : Accessor) (chan : Nat) (ctrl : Word64) (s : State) : Out := .next (moverGo src chan ctrl s)
def execRegisterWrite (src : Accessor) (chan off : Nat) (value : Word64) (s : State) : Out := .next (registerWrite src chan off value s)
def execTallyAddWrite (src : Accessor) (tally : Nat) (amount : Word64) (s : State) : Out := .next (tallyAddWrite src tally amount s)
def execTallyValueWrite (src : Accessor) (tally : Nat) (value : Word64) (s : State) : Out := .next (tallyValueWrite src tally value s)

end Sys2Proof.Machine
end

