-- ==== Sys2Proof/Machine/Coherence.lean ====
section
/-! DEFINITION. CXL.mem: admission under the standing booking (R64, R65, R407), the directory in home-ordered mode
(R168-R183), owner-ordered mode (R189-R193), and the windows as agents reach them (R18-R22). -/

namespace Sys2Proof.Machine
open Sys2Proof

/-! ### Requests -/

def CxlOp.isRead : CxlOp → Bool
  | .rd _ => true | .rdData => true | _ => false
def CxlOp.isWrite : CxlOp → Bool
  | .wr _ => true | .wrPtl _ => true | _ => false
def CxlOp.isAny : CxlOp → Bool
  | .wr .any => true | .wrPtl .any => true | _ => false
/-- A request for ownership (R20). -/
def CxlOp.owns : CxlOp → Bool
  | .rd .inv => true | .inv => true | _ => false

def lineOf (r : CxlReq) : Nat := offOf r.addr / 64
/-- The stall whose partition tracks a line. -/
def homeStall (s : State) (line : Nat) : Nat := (extRec s (line / 2 ^ 24)).stall
def cxlReq (s : State) (id : Nat) : Option CxlReq := s.coh.reqs.find? (fun r => r.id == id)
def updCxl (id : Nat) (f : CxlReq → CxlReq) (s : State) : State :=
  { s with coh := { s.coh with reqs := s.coh.reqs.map (fun r => if r.id = id then f r else r) } }
def dropCxl (id : Nat) (s : State) : State := { s with coh := { s.coh with reqs := s.coh.reqs.filter (fun r => r.id != id) } }

/-- DevLoad of an answer to an agent (R408). -/
def devLoad (s : State) (a : Nat) : Nat :=
  devLoadOf (s.coh.reqs.filter (fun r => r.agent == a && r.phase == 0)).length (cv s 0x9010 5 (a / 16))

/-- Lines of the standing booking used (R174). -/
def useLines (st n : Nat) (s : State) : State := { s with gate := { s.gate with lineUse := AMap.upd 0 s.gate.lineUse st (· + n) } }

/-! ### Answers: 0 Cmp, 1 Cmp-S, 2 Cmp-E -/

/-- A port is UP; one that is not answers nothing (R409). -/
def portUp (s : State) (p : Nat) : Bool := cv s 0x9010 1 p == 2
def sendTo (a : Nat) (m : OutMsg) (s : State) : State := if portUp s (a / 16) then send m s else s
def ndr (a addr op : Nat) (s : State) : State := sendTo a (.ndr a addr op (devLoad s a)) s
/-- Poisoned data, a dropped write, or the Cmp of a request that moves no data. -/
def answerVoid (a addr : Nat) (op : CxlOp) (s : State) : State :=
  if op.isRead then sendTo a (.drs a addr 0 0 true (devLoad s a)) s else ndr a addr 0 s
/-- Data read at the home with the completion `op`; a line that reads with an error answers poisoned (R181). -/
def answerRead (r : CxlReq) (op : Nat) (s : State) : State :=
  let off := offOf r.addr / 64 * 64
  let served := hbmRange r.stall 0xFFFF off 64 true (act 0 r.stall 8 1 (act 0 r.stall 0 1 (heat true off 1 s)))
  sendTo r.agent (.drs r.agent r.addr op (BitVec.ofNat 512 (storeNat served.2 off 64)) served.1.isSome (devLoad s r.agent)) served.2

/-- The bytes a request writes, merged with the line. -/
def writeLine (r : CxlReq) (s : State) : State :=
  let off := offOf r.addr / 64 * 64
  let served := hbmRange r.stall 0xFFFF off 64 false (act 0 r.stall 8 1 (act 0 r.stall 0 1 (heat true off 1 s)))
  let old := served.2
  let data := (List.range 64).map (fun i => if r.mask.getLsbD i then BitVec.ofNat 8 (r.data.toNat / 2 ^ (8 * i)) else storeByte old (off + i))
  if r.mask = BitVec.allOnes 64 then storeWrite off data old
  else
    let bad := old.mem.poison
    let t := storeWrite off data old
    { t with mem := { t.mem with poison := bad } }

/-! ### Owner-ordered entry (R182, R190) -/

/-- A stall enters OWNER_ORDERED: AGENT_CLEAN of its set clears, MODE_CHANGES rises. -/
def enterOwnerOrdered (st : Nat) (s : State) : State :=
  if !homeOrdered s st then s else
  let s1 := (agentsOf s st).foldl (fun t a => cvSet 0x5010 3 a 0 t) (cvAdd 0x5000 3 st 1 (cvSet 0x5000 1 st 0 s))
  { s1 with coh := { s1.coh with dropped := s1.coh.dropped.filter (fun x => homeStall s x.2 != st) } }

/-- A directory inconsistency raised by a message of an agent (R182, R494, R496). -/
def dirInconsistent (st a line : Nat) (s : State) : State :=
  enterOwnerOrdered st (detectRec 0x09 (gaddr s (64 * line)) a 0xFFFF st 0 true s)

/-- The injection opportunity of a directory lookup (R494, R502). -/
def lookupInjected (st line : Nat) (s : State) : State :=
  let i := inject 0x09 (gaddr s (64 * line)) st (!armed s 0x09 st) s
  match i.1 with
  | none => i.2
  | some (dev, contain) =>
    let t := errRec 0x09 (gaddr s (64 * line)) 0xFFFF 0xFFFF st 0 dev true i.2
    if contain then enterOwnerOrdered st (if dev then detect 0x09 t else t) else t

/-- An uncorrectable error in the sector a request's lookup reads (R182): the HBM error, and the inconsistency it makes. -/
def sectorFault (st a line : Nat) (s : State) : State :=
  dirInconsistent st a line (detectRec 0x00 (gaddr s (64 * line)) 0 0xFFFF st FAULT_MEMORY false (cvAdd 0x4050 8 0 1 s))
def sectorError (r : CxlReq) (s : State) : State :=
  if r.sectorUe then sectorFault (homeStall s (lineOf r)) r.agent (lineOf r) (updCxl r.id (fun x => { x with sectorUe := false }) s) else s

/-- The injection opportunity of each BISnp issued (R494, R502): a contained firing discards the agent's answer. -/
def noteSnps (s : State) : State :=
  let fresh_ := s.coh.snps.filter (fun x => !x.seen)
  if fresh_.isEmpty then s else
  let s0 := { s with coh := { s.coh with snps := s.coh.snps.map (fun x => { x with seen := true }) } }
  fresh_.foldl (fun t x =>
    let st := homeStall t x.line
    let i := inject 0x0A (gaddr t (64 * x.line)) st (!armed t 0x0A st) t
    match i.1 with
    | none => i.2
    | some (dev, contain) =>
      let u := errRec 0x0A (gaddr t (64 * x.line)) x.agent 0xFFFF st 0 dev true i.2
      if contain then { (if dev then cvAdd 0x5002 2 st 1 (detect 0x0A u) else u) with
        coh := { u.coh with snps := u.coh.snps.map (fun y => if y.agent = x.agent ∧ y.line = x.line ∧ y.tick = x.tick then { y with deaf := true } else y) } }
      else u) s0

/-! ### Blocks (R179) -/

/-- A write of the device's own units, or an atomic, that waits for the line reached the home before a request did: of those
of one tick agents come first. -/
def laterThan (s : State) (r : CxlReq) : Bool :=
  s.coh.waits.any (fun w => w.line == lineOf r && !w.sent && decide (w.tick < r.admitted))
  || s.fab.porters.any (fun x => x.2.amoAt.any (fun a => a.1 == lineOf r && decide (a.2 < r.admitted)) && amoLive s x.2)
/-- A request that has not begun waits on its line. -/
def blockedBy (s : State) (r : CxlReq) : Bool := lineHeld s (lineOf r) || laterThan s r
/-- A waiting agent's request reached the home no later than a unit's write of tick `t`. -/
def agentFirst (s : State) (line t : Nat) : Bool :=
  s.coh.reqs.any (fun r => r.phase == 1 && !r.noFrame && lineOf r == line && decide (r.admitted ≤ t))
/-- The request is the MemWr or MemClnEvct of a holder that the blocking transaction has back-invalidated. -/
def bypasses (s : State) (r : CxlReq) : Bool :=
  (r.op.isWrite || r.op == .clnEvct) && s.coh.snps.any (fun x => x.agent == r.agent && x.line == lineOf r)

/-! ### Directory entries (R173, R176, R178) -/

/-- Take an agent out of an entry. -/
def removeFrom (s : State) (e : DirEnt) (a : Nat) (gone : List Nat) : DirEnt :=
  if e.coarse then
    let other := if a < 64 then a + 64 else a - 64
    if (agentsOf s e.stall).contains other && !gone.contains other then e
    else { e with vector := e.vector &&& ~~~(BitVec.ofNat 64 (2 ^ (a % 64))) }
  else { e with agents := e.agents.filter (· != a) }
def noHolder (s : State) (e : DirEnt) : Bool := (holdersOf s e).isEmpty && e.cluster.isNone
/-- Put an agent into a SHARED entry; a fifth holder takes it to vector form. -/
def addTo (e : DirEnt) (a : Nat) : DirEnt :=
  if e.coarse then { e with vector := e.vector ||| BitVec.ofNat 64 (2 ^ (a % 64)), owned := false, cluster := none }
  else if e.agents.contains a then { e with owned := false, cluster := none }
  else if e.agents.length < 4 then { e with agents := e.agents ++ [a], owned := false, cluster := none }
  else { e with coarse := true, agents := [], owned := false, cluster := none,
                vector := (e.agents ++ [a]).foldl (fun v x => v ||| BitVec.ofNat 64 (2 ^ (x % 64))) 0 }

/-- An agent leaves a line's entry; an entry no holder is left in is freed unless a transaction still has the line. -/
def leaveLine (a line : Nat) (keep : Bool) (gone : List Nat) (s : State) : State :=
  let st := homeStall s line
  match lookupWay s st (64 * line), lookupEnt s st (64 * line) with
  | some w, some e =>
    let e' := removeFrom s e a gone
    setWay w (if noHolder s e' && !keep then none else some e') s
  | _, _ => s

/-- A transaction has the line. -/
def lineBusy (s : State) (line : Nat) : Bool := s.coh.reqs.any (fun r => r.phase == 2 && !r.probe && lineOf r == line)

/-- The way to take for a new entry: the line's own, or a free one of its sector. -/
def wayFor (s : State) (st line : Nat) : Option Nat :=
  match lookupWay s st (64 * line) with
  | some w => some w
  | none => match sectorOf s st (64 * line) with
    | none => none
    | some sec => if (dirWay s sec 0).isNone then some (sec * 2) else if (dirWay s sec 1).isNone then some (sec * 2 + 1) else none

/-- The victim of R178: an unblocked way, SHARED before OWNED, otherwise way 0. -/
def victimWay (s : State) (st line : Nat) : Option (Nat × DirEnt) :=
  match sectorOf s st (64 * line) with
  | none => none
  | some sec =>
    let ws := [sec * 2, sec * 2 + 1].filterMap (fun w => match AMap.get none s.coh.dir w with
      | some e => if lineHeld s e.line then none else some (w, e)
      | none => none)
    match ws.find? (fun x => !x.2.owned) with | some x => some x | none => ws.head?

/-! ### Shut frames (R183) -/

/-- The store ranges a command writes. -/
def cmdWrites (s : State) (w : Work) : List (Nat × Nat) :=
  match w with
  | .gather d => if d.outSpace = 0 && !d.vOut then [(offOf d.outAddr, d.bags * d.outStride)] else []
  | .search d => (searchAreas s d d.pagesMax).map (fun x => (offOf x.1, x.2))
  | .side _ u _ _ _ _ _ => [(offOf (sideBase s u), sideEnd s u - sideBase s u)]
  | .segment d => (operandsOf s d).flatMap (fun o => if o.write && o.kind == 2 then (tilesUsed o d.rounds).map (fun i => (offOf (tileBase o i), o.tileBytes)) else [])
  | .xfer x => if x.vDst || remoteDst s x then [] else [(offOf x.dst, x.count)]
  | .catRead buf l => [(offOf buf, l.length)]
  | .catInfo buf l => [(offOf buf, l.length)]
  | _ => []

/-- The frames a command writes whose tracked count is not zero (R183). -/
def trackedFrames (s : State) (w : Work) : List Nat :=
  (s.store.tracked.map (·.1)).filter (fun f => (cmdWrites s w).any (fun x => decide (x.1 < 65536 * (f + 1)) && decide (65536 * f < x.1 + x.2)))
/-- A frame is shut: a command whose record is not written writes it, and its tracked count was zero at admission (log
entry 111). -/
def shutFrame (s : State) (f : Nat) : Bool :=
  s.gate.reqs.any (fun q => q.cmds.any (fun c => !c.tracked.contains f
    && (cmdWrites s c.work).any (fun x => decide (x.1 < 65536 * (f + 1)) && decide (65536 * f < x.1 + x.2))))

/-! ### Serving (R176, R177, R189) -/

/-- The answer has gone out: a home-ordered line stays blocked until the flit is acknowledged (R179). -/
def answered (r : CxlReq) (s : State) : State := if r.probe then dropCxl r.id s else updCxl r.id (fun x => { x with phase := 3 }) s

/-- The agent is granted the line: R181's dropping ends. -/
def granted (a line : Nat) (s : State) : State := { s with coh := { s.coh with dropped := s.coh.dropped.filter (· != (a, line)) } }

/-- The completion of a request that grants no state (R177, R189). -/
def serveStateless (r : CxlReq) (s : State) : State :=
  answered r (if r.op.isRead then answerRead r 0 s else if r.op.isWrite then ndr r.agent r.addr 0 (writeLine r s) else ndr r.agent r.addr 0 s)

/-- The entry a transaction leaves and its completion: (entry, Cmp code). -/
def resultOf (s : State) (r : CxlReq) (e : Option DirEnt) : Option DirEnt × Nat :=
  let st := homeStall s (lineOf r)
  let base : DirEnt := { line := lineOf r, stall := st, owned := false }
  let own := some { base with owned := true, agents := [r.agent] }
  let cur := match e with | some x => if noHolder s x then none else some x | none => none
  match r.op with
  | .rd .data | .rdData =>
    if r.cell = 0 then (own, 2) else if r.cell = 2 then (e, 2) else (some (addTo (cur.getD base) r.agent), 1)
  | .rd .inv | .inv => (own, 2)
  | .rd _ => (cur, 0)
  | .invNt => (none, 0)
  | .clnEvct => ((match e with | some x => let y := removeFrom s x r.agent []; if noHolder s y then none else some y | none => none), 0)
  | .wr _ | .wrPtl _ => if r.op.isAny && r.cell == 2 then (e, 0) else (none, 0)

/-- Complete a home-ordered transaction whose back-invalidations are closed, or make room for its entry first. -/
def finishHome (r : CxlReq) (s : State) : State :=
  let line := lineOf r
  let st := homeStall s line
  let s0 := match r.victim with
    | some v => (match lookupWay s st (64 * v) with | some w => setWay w none s | none => s)
    | none => s
  let s1 := updCxl r.id (fun x => { x with victim := none }) s0
  let res := resultOf s1 r (lookupEnt s1 st (64 * line))
  let close := fun (t : State) =>
    let t1 := if r.op.isWrite then writeLine r t else t
    let t2 := if res.2 = 0 then t1 else granted r.agent line t1
    answered r (if r.op.isRead then answerRead r res.2 t2 else ndr r.agent r.addr res.2 t2)
  match res.1, wayFor s1 st line with
  | none, some w => close (if (lookupEnt s1 st (64 * line)).isSome then setWay w none s1 else s1)
  | none, none => close s1
  | some e, some w => close (setWay w (some e) s1)
  | some _, none =>
    match victimWay s1 st line with
    | none => s1
    | some (w, e) =>
      let s2 := cvAdd 0x5001 4 st 1 s1
      let hs := holdersOf s2 e
      let s3 := if e.cluster.isSome then recallLine e.line (setWay w none s2) else s2
      let s4 := hs.foldl (fun t a => sendSnp a e.line 2 r.id st none e.owned t) s3
      updCxl r.id (fun x => { x with victim := if hs.isEmpty then none else some e.line }) (useLines r.stall (1 + hs.length) s4)

/-- Begin a home-ordered transaction: its cell of R176 and its back-invalidations. -/
def beginHome (r : CxlReq) (s : State) : State :=
  let line := lineOf r
  let st := homeStall s line
  let ent := lookupEnt s st (64 * line)
  let s2 := match ent, lookupWay s st (64 * line) with
    | some e, some w => if e.cluster.isSome then recallLine line (setWay w none s) else s
    | _, _ => s
  let hs := match ent with | some e => holdersOf s e | none => []
  let cell := match ent with
    | none => 0
    | some e => if !e.owned then 1 else if e.cluster.isNone && hs.contains r.agent then 2 else 3
  let others := hs.filter (· != r.agent)
  let kind := match r.op with
    | .rd .data | .rdData => if cell = 3 then some 1 else none
    | .rd .inv | .inv | .invNt => some 2
    | .rd _ => if cell = 3 then some 0 else none
    | .clnEvct => none
    | _ => if r.op.isAny && cell == 2 then none else some 2
  let whole := r.op.isWrite && r.mask == BitVec.allOnes 64
  let s3 := match kind with
    | some k => others.foldl (fun t a => sendSnp a line k r.id st none ((ent.any (·.owned)) && !whole) t) (useLines r.stall others.length s2)
    | none => s2
  updCxl r.id (fun x => { x with phase := 2, cell := cell }) s3

/-- Begin in owner-ordered mode (R189): probe every other agent of the set. -/
def beginOwner (r : CxlReq) (s : State) : State :=
  let line := lineOf r
  let st := homeStall s line
  let others := (agentsOf s st).filter (· != r.agent)
  let s1 := if r.op == .clnEvct then s else
    others.foldl (fun t a => sendSnp a line (if r.op.isRead then 0 else 2) r.id st none false t)
      (useLines r.stall others.length (recallLine line s))
  updCxl r.id (fun x => { x with phase := 2, probe := true }) s1

/-- A write or eviction that comes from an agent R181 has timed out. -/
def isDropped (s : State) (r : CxlReq) : Bool := (r.op.isWrite || r.op == .clnEvct) && s.coh.dropped.contains (r.agent, lineOf r)

/-- A request covered by no entry that must be (R182). -/
def unlisted (s : State) (r : CxlReq) : Bool :=
  (r.op == .clnEvct || r.op.isAny) && !(match lookupEnt s (homeStall s (lineOf r)) (64 * lineOf r) with
    | some e => (holdersOf s e).contains r.agent
    | none => false)

/-- Serve the write or eviction of a back-invalidated holder while the line is blocked (R170, R176, R179). -/
def serveBypass (r : CxlReq) (s : State) : State :=
  let line := lineOf r
  let s1 := if r.op.isWrite then writeLine r s else s
  let s2 := if r.op.isAny then s1 else leaveLine r.agent line (lineBusy s1 line) [] s1
  dropCxl r.id (ndr r.agent r.addr 0 s2)

/-- A window access by an agent (R20-R22). -/
def serveWindow (r : CxlReq) (s0 : State) : State :=
  let s := act 0 (agentStall s0 r.agent) 8 1 s0
  let off := offOf r.addr / 64 * 64
  if r.op.owns then dropCxl r.id (answerVoid r.agent r.addr r.op (protectionRec (.agent r.agent) r.addr 2 s))
  else if r.op.isRead then
    if reachesWindow s (.agent r.agent) off 64 then
      dropCxl r.id (sendTo r.agent (.drs r.agent r.addr 0 (BitVec.ofNat 512 (leNat (winRead s off 64))) false (devLoad s r.agent)) s)
    else dropCxl r.id (answerVoid r.agent r.addr r.op (protectionRec (.agent r.agent) r.addr 3 s))
  else if r.op.isWrite then
    dropCxl r.id (ndr r.agent r.addr 0 (winWrite (.agent r.agent) off (leBytes 64 r.data.toNat) r.mask.toNat s))
  else dropCxl r.id (ndr r.agent r.addr 0 s)

/-- Take an admitted request as far as it goes. -/
def stepReq (id : Nat) (s : State) : State :=
  match cxlReq s id with
  | none => s
  | some r =>
    let line := lineOf r
    let st := homeStall s line
    if r.noFrame then s
    else if r.phase = 1 then
      if isWindow (offOf r.addr) then serveWindow r s
      else if isDropped s r then dropCxl id (ndr r.agent r.addr 0 s)
      else if bypasses s r then serveBypass r s
      else if closingRange s r.addr 64 then dropCxl id (answerVoid r.agent r.addr r.op s)
      else if blockedBy s r then s
      else
        let s0 := if homeOrdered s st then sectorError r (lookupInjected st line s) else s
        if homeOrdered s0 st && unlisted s0 r then beginOwner r (dirInconsistent st r.agent line s0)
        else if !homeOrdered s0 st then beginOwner r s0
        else if cv s 0x3015 1 st = 0 || shutFrame s0 (line / 1024) then
          serveStateless r s0
        else beginHome r s0
    else if r.phase = 2 then
      if s.coh.snps.any (fun x => x.req == id) then s
      else if closingRange s r.addr 64 then answered r (answerVoid r.agent r.addr r.op s)
      else if r.probe then serveStateless r s else finishHome r s
    else s

/-- A waiting write goes as far as it can: it begins once its line is free and nothing reached the home before it, and is made
once its holders have answered. Of an extent swept meanwhile nothing is written. -/
def stepWrite (s : State) (w : UnitWr) : State :=
  let first := (s.coh.waits.find? (fun x => x.line == w.line)) == some w
  let mine := s.coh.snps.any (fun x => x.line == w.line && x.req == 0)
  let s1 := { s with coh := { s.coh with waits := s.coh.waits.erase w } }
  if !first || mine || (!w.sent && (lineHeld s w.line || agentFirst s w.line w.tick)) then s
  else
    let t := if 2 < (extRec s (extOf (64 * w.line))).state || (extRec s (extOf (64 * w.line))).state == 0 then s1
      else if w.sent then lineWrite w s1
      else
        let u := owned w.rid w.porter (beginWrite w) s1
        match u.coh.waits.drop s1.coh.waits.length with
        | x :: _ => { u with coh := { u.coh with waits := x :: u.coh.waits.take s1.coh.waits.length } }
        | [] => u
    if w.rid = 0 then t else updReq w.rid (fun q => { q with answered := now s }) t
def stepWrites (s : State) : State := s.coh.waits.foldl stepWrite s

/-- Let every admitted request and waiting write go as far as it can, in the order in which they reached the directory (R179). -/
def pump (s : State) : State :=
  let go := fun (t : State) => stepWrites ((t.coh.reqs.map (·.id)).foldl (fun u i => stepReq i (stepReq i (stepReq i u))) (stepWrites t))
  go (go s)

/-! ### Arrival and admission (R18, R33, R64, R65, R169, R407) -/

/-- The request of an agent may use the line: its stall's extent, or a read under an EXTENT_READ pact (R169). -/
def reachesLine (s : State) (st : Nat) (op : CxlOp) (off : Nat) : Option CxlOp :=
  let e := extRec s (extOf off)
  if e.state ≠ 0 ∧ e.stall = st then some op
  else if op.isRead && mayRead s st (extOf off) then some (.rd .noOp) else none

/-- Count an answer of R65. -/
def noStanding (st a : Nat) (s : State) : State :=
  let x := AMap.get (0, 0) s.gate.noStand st
  { s with gate := { s.gate with noStand := AMap.set (0, 0) s.gate.noStand st (x.1 + 1, if x.1 = 0 then a else x.2) } }

/-- The credits an LD holds of the kind a request takes (R407). -/
def heldCredits (s : State) (a : Nat) (write : Bool) : Nat := (s.coh.reqs.filter (fun r => r.agent == a && r.phase == 0 && r.op.isWrite == write)).length

/-- The stall an agent's request at an offset acts for: its stall while ACTIVE (R169, R525), and while RETIRING for the extents
the stall still holds (R117; log entry 113). -/
def agentFor (s : State) (a off : Nat) : Option Nat :=
  match agentOf s a with
  | some st => some st
  | none =>
    let st := agentStall s a
    if st < 256 ∧ stallState s st = 2 ∧ isWindow off = false ∧ (extRec s (extOf off)).state ≠ 0 ∧ (extRec s (extOf off)).stall = st then some st else none
/-- A CXL.mem request reaches its port. -/
def cxlArrive (a addr : Nat) (op : CxlOp) (data : BitVec 512) (mask : BitVec 64) (s : State) : State :=
  if 128 ≤ a || !portUp s (a / 16) then s
  else if !gateOpened s then answerVoid a addr op s
  else if nodeOf addr ≠ nodeNumber s then answerVoid a addr op (protectionRec (.agent a) addr 1 s)
  else match agentFor s a (offOf addr) with
    | none => answerVoid a addr op (protectionRec (.agent a) addr 4 s)
    | some st =>
      match (if isWindow (offOf addr) then some op else reachesLine s st op (offOf addr)) with
      | none => answerVoid a addr op (protectionRec (.agent a) addr 4 s)
      | some op' =>
        if cv s 0x1040 3 st = 0 then noStanding st a (answerVoid a addr op s)
        else if cv s 0x9010 5 (a / 16) ≤ heldCredits s a op.isWrite then s
        else
          let r : CxlReq := { id := s.coh.nextId, agent := a, addr := addr, op := op', data := data, mask := mask, stall := st, arrival := now s }
          { s with coh := { s.coh with reqs := s.coh.reqs ++ [r], nextId := s.coh.nextId + 1 } }

/-- The page of a line is not valid in its cached frame, or the frame is absent (R142). -/
def needsFill (s : State) (r : CxlReq) : Bool :=
  let off := offOf r.addr
  (extRec s (extOf off)).backed && !isWindow off && (match cframe s (off / 65536) with
    | some c => c.state == 3 || (!c.valid.getLsbD (off / 4096 % 16) && (r.op.isRead || r.op.isWrite))
    | none => true)

/-- Take a cache frame for a miss (R142): an EMPTY one, or the eligible CLEAN one of R143. -/
def missFrame (st f : Nat) (s : State) : Option State :=
  if 0 < spareFrames s st then some (cacheFrame st f s)
  else ((eligibleFrames s st []).filter (fun e => e.2.state == 1)).findSome? (fun e =>
    let t := recallFrame e.1 s
    if (cframe t e.1).any (fun c => c.state == 1) then
      some (setFrame f (some { stall := st, state := 1, last := curRound t, phys := e.2.phys }) (setFrame e.1 none t))
    else none)

/-- Insert an admitted request in the order of arrival at the directory: same tick, ascending agent (R179). -/
def insertAdmitted (r : CxlReq) : List CxlReq → List CxlReq
  | [] => [r]
  | x :: l => if x.phase != 0 && x.admitted == r.admitted && decide (r.agent < x.agent) then r :: x :: l else x :: insertAdmitted r l

/-- One miss of a stall's round counted. -/
def useMiss (st : Nat) (s : State) : State := { s with gate := { s.gate with missUse := AMap.upd 0 s.gate.missUse st (· + 1) } }
/-- An admitted request back in its place of the queue. -/
def putAdmitted (x : CxlReq) (s : State) : State := { s with coh := { s.coh with reqs := insertAdmitted x (s.coh.reqs.filter (fun y => y.id != x.id)) } }
/-- The cache frame of a flash frame, taken where it is not there. -/
def holdFrame (owner f : Nat) (s : State) : Option State := if present s f then some s else missFrame owner f s
/-- CXL_MEM_ADMIT: the oldest waiting request of an agent takes a line of the present round's standing booking (R64), on a port
the booking lies on since the last boundary (R63). Where the stall's booking has ended the request is answered by R65. -/
def cxlAdmit (a : Nat) (sectorUe : Bool) (s : State) : State :=
  match s.coh.reqs.find? (fun r => r.agent == a && r.phase == 0) with
  | none => s
  | some r =>
    let off := offOf r.addr
    let f := off / 65536
    let fill := needsFill s r
    let leaving := match cframe s f with | some c => c.state == 3 && decide (curRound s < c.freeRound) | none => false
    if cv s 0x1040 3 r.stall = 0 then noStanding r.stall r.agent (dropCxl r.id (answerVoid r.agent r.addr r.op s))
    else if !bit (AMap.get 0 s.gate.standing r.stall) (r.agent / 16) then s
    else if cv s 0x1040 3 r.stall ≤ AMap.get 0 s.gate.lineUse r.stall then s
    else if fill && (leaving || decide (cv s 0x1040 4 r.stall ≤ AMap.get 0 s.gate.missUse r.stall)) then s
    else
      let s1 := useLines r.stall 1 s
      let adm : CxlReq := { r with phase := 1, admitted := now s, sectorUe := sectorUe, flash := fill && bit (mapOf s f) 31 && !bit (mapOf s f) 30 }
      if !fill then pump (noteSnps (putAdmitted adm s1))
      else
        let s2 := useMiss r.stall s1
        let owner := (extRec s (extOf off)).stall
        match holdFrame owner f s2 with
        | none => putAdmitted { adm with noFrame := true } (errRec 0x80 (gaddr s (65536 * f)) 0 0xFFFF r.stall 0 false false s2)
        | some t =>
          let t1 := fillFrame f [off / 16384 % 4] (if adm.flash then act 0 r.stall 1 1 t else t)
          pump (noteSnps (putAdmitted adm (match cframe t1 f with | some c => setFrame f (some { c with last := curRound t1 }) t1 | none => t1)))

/-! ### Answers of agents (R179-R182) -/

/-- What closing a BISnp does besides the entry: the drain tally of a close, the last answer of the request whose write caused
it (R184). -/
def closeSnp (x : BiSnp) (s : State) : State :=
  let s0 := { s with coh := { s.coh with snps := s.coh.snps.erase x } }
  let s1 := if x.owner = 0 then s0 else updReq x.owner (fun q => { q with answered := now s }) s0
  match x.close with | some e => drainDown e 1 s1 | none => s1

/-- BIRSP_I, BIRSP_S and BIRSP_E (0, 1, 2): an open BISnp of the agent for the line is answered, the `nth` of them in the order
of issue: the agent chooses the order of its answers (R189). -/
def biRsp (a addr k nth : Nat) (s : State) : State :=
  let line := offOf addr / 64
  let st := homeStall s line
  let s0 := noteSnps s
  match (s0.coh.snps.filter (fun x => x.agent == a && x.line == line && !x.deaf))[nth]? with
  | none =>
    if s0.coh.dropped.contains (a, line) || s0.coh.snps.any (fun x => x.agent == a && x.line == line) then s0
    else dirInconsistent st a line s0
  | some x =>
    let s1 := closeSnp x s0
    let s2 := if k = 0 then updCxl x.req (fun r => { r with gone := r.gone ++ [a] }) s1 else s1
    let gone := match cxlReq s2 x.req with | some r => r.gone | none => []
    let s3 := if !x.block then s2
      else if k = 0 then leaveLine a line (lineBusy s2 line) gone s2
      else if k = 1 then
        (match lookupWay s2 st (64 * line), lookupEnt s2 st (64 * line) with
         | some w, some e => if e.cluster.isSome then s2 else setWay w (some { e with owned := false }) s2
         | _, _ => s2)
      else s2
    pump s3

/-- BI_TIMEOUT: a BISnp unanswered at BI_BOUND (R181). -/
def biTimeout (a addr : Nat) (s : State) : State :=
  let line := offOf addr / 64
  let st := homeStall s line
  let s0 := noteSnps s
  match s0.coh.snps.find? (fun x => x.agent == a && x.line == line) with
  | none => s0
  | some x =>
    if now s < x.tick + biBound s then s0
    else
      let s1 := updCxl x.req (fun r => { r with gone := r.gone ++ [a] }) (closeSnp x s0)
      let gone := match cxlReq s1 x.req with | some r => r.gone | none => []
      let s2 := if x.block then leaveLine a line (lineBusy s1 line) gone s1 else s1
      let s3 := if x.poison then { s2 with mem := { s2.mem with poison := if s2.mem.poison.contains line then s2.mem.poison else s2.mem.poison ++ [line] } } else s2
      let s4 := if x.deaf then s3 else detectRec 0x0A (gaddr s (64 * line)) a 0xFFFF st 0 true (cvAdd 0x5002 2 st 1 s3)
      pump { s4 with coh := { s4.coh with dropped := if s4.coh.dropped.contains (a, line) then s4.coh.dropped else s4.coh.dropped ++ [(a, line)] } }

/-- BI_CONFLICT: answered with BI-ConflictAck (R180). -/
def biConflict (a addr : Nat) (s : State) : State := ndr a addr 3 s

/-- CXL_FLIT_ACK: the line of a transaction whose answer is acknowledged unblocks (R179). -/
def flitAck (addr : Nat) (s : State) : State :=
  match s.coh.reqs.find? (fun r => r.phase == 3 && lineOf r == offOf addr / 64) with
  | none => s
  | some r => noteSnps (pump (dropCxl r.id s))

/-- LOAD_BOUND_EXPIRY: a request not served by its bound (R64), or not by R65's where its stall has no standing booking. -/
def loadBound (id : Nat) (s : State) : State :=
  match cxlReq s id with
  | none => s
  | some r =>
    let bound := if r.flash then cv s 0x1040 2 r.stall else cv s 0x1040 1 r.stall
    if (r.phase == 1 || r.phase == 2) && decide (r.admitted + bound ≤ now s) then
      pump (dropCxl id (answerVoid r.agent r.addr r.op s))
    else if r.phase == 0 && cv s 0x1040 3 r.stall == 0 && decide (r.arrival + cv s 0x1040 1 r.stall ≤ now s) then
      noStanding r.stall r.agent (dropCxl id (answerVoid r.agent r.addr r.op s))
    else s

/-- HOME_ORDERED_ENTRY (R192). -/
def homeOrderedEntry (st : Nat) (s : State) : State :=
  if !homeOrdered s st && atBoundary s && stallLive s st && cv s 0x5000 2 st == 0
    && (agentsOf s st).all (fun a => cv s 0x5010 3 a == 1) && s.coh.snps.all (fun x => homeStall s x.line != st) then
    let s0 := (s.fab.lc.filter (fun l => l.owned && homeStall s l.line == st)).foldl (fun t l => recallLine l.line t) s
    let s1 := { s0 with coh := { s0.coh with dir := AMap.keep (fun _ d => match d with | some d => d.stall != st | none => true) s0.coh.dir }
                        store := { s0.store with tracked := AMap.keep (fun f _ => (extRec s (f / 16384)).stall != st) s0.store.tracked } }
    cvAdd 0x5000 3 st 1 (cvSet 0x5000 1 st 1 s1)
  else s

/-! ### Catalogue entries with an effect (R190, R191, R195) -/

/-- A write of COHERENCE_TEST. -/
def coherenceTest (st v : Nat) (s : State) : Nat × State :=
  if 1 < v then (INVALID, s) else (OK, (fun t => if v = 1 then enterOwnerOrdered st t else t) (cvSet 0x5000 2 st v s))
/-- A write of AGENT_CLEAN. -/
def agentClean (a v : Nat) (s : State) : Nat × State :=
  if 1 < v then (INVALID, s) else
  let t := cvSet 0x5010 3 a v s
  (OK, if v = 1 then { t with coh := { t.coh with dropped := t.coh.dropped.filter (fun x => x.1 != a) } } else t)

/-- The standing booking of a stall can take in a port (R63): the slots it needs there lie in the share and free. -/
def standingFits (s : State) (st p : Nat) : Bool :=
  let need := cdiv (cvNext s 0x1040 3 st * 64) 1600
  let mask := shareMask s st (calChunk (calPort p))
  decide (need ≤ (maskSlots mask).length) && (s.gate.books.filter (fun b => b.cal == calPort p && b.stall == st)).all (fun b =>
    decide (need ≤ ((maskSlots mask).filter (fun k => !(bookedIn s b.cal b.dir b.round).contains k)).length - unplaced s st b.cal b.dir b.round))

/-- AGENT_LINES: entries that name the agent. -/
def agentLines (s : State) (a : Nat) : Nat :=
  ((s.coh.dir.filterMap (·.2)).filter (fun e => (holdersOf s e).contains a)).length

/-- A write of AGENT_STALL (R195): quiesced when no entry names the agent and it holds no request that waits for its answer. -/
def bindAgent (a st : Nat) (s : State) : Nat × State :=
  if !(st == 0xFFFF || decide (st < 256)) then (INVALID, s)
  else if agentLines s a ≠ 0 ∨ s.coh.reqs.any (fun r => r.agent == a && r.phase != 3) = true then (BUSY, s)
  else if st < 256 && !(standingPorts s st).contains (a / 16) && !standingFits s st (a / 16) then (REFUSED_CALENDAR, s)
  else (OK, cvSet 0x5010 1 a st (if agentStall s a = st then s else cvSet 0x5010 3 a 0 s))

def execMemRd (agent addr : Nat) (snp : Snp) (s : State) : Out := .next (cxlArrive agent addr (.rd snp) 0 (BitVec.allOnes 64) s)
def execMemRdData (agent addr : Nat) (s : State) : Out := .next (cxlArrive agent addr .rdData 0 (BitVec.allOnes 64) s)
def execMemInv (agent addr : Nat) (s : State) : Out := .next (cxlArrive agent addr .inv 0 (BitVec.allOnes 64) s)
def execMemInvNt (agent addr : Nat) (s : State) : Out := .next (cxlArrive agent addr .invNt 0 (BitVec.allOnes 64) s)
def execMemClnEvct (agent addr : Nat) (s : State) : Out := .next (cxlArrive agent addr .clnEvct 0 (BitVec.allOnes 64) s)
/-- MEM_SPEC_RD: dropped without effect (R168). -/
def execMemSpecRd (_agent _addr : Nat) (s : State) : Out := .next s
def execMemWr (agent addr : Nat) (m : Meta) (data : BitVec 512) (s : State) : Out := .next (cxlArrive agent addr (.wr m) data (BitVec.allOnes 64) s)
def execMemWrPtl (agent addr : Nat) (m : Meta) (data : BitVec 512) (mask : BitVec 64) (s : State) : Out :=
  .next (cxlArrive agent addr (.wrPtl m) data mask s)
def execBiConflict (agent addr : Nat) (s : State) : Out := .next (biConflict agent addr s)
def execBiRspI (agent : Nat) (x : Probe) (s : State) : Out := .next (biRsp agent x.addr 0 x.nth s)
def execBiRspS (agent : Nat) (x : Probe) (s : State) : Out := .next (biRsp agent x.addr 1 x.nth s)
def execBiRspE (agent : Nat) (x : Probe) (s : State) : Out := .next (biRsp agent x.addr 2 x.nth s)
def execCxlMemAdmit (x : Admission) (s : State) : Out := .next (cxlAdmit x.agent x.sectorUe s)
def execLoadBoundExpiry (reqId : Nat) (s : State) : Out := .next (loadBound reqId s)
def execBiTimeout (agent addr : Nat) (s : State) : Out := .next (biTimeout agent addr s)
def execCxlFlitAck (addr : Nat) (s : State) : Out := .next (flitAck addr s)
def execHomeOrderedEntry (stall : Nat) (s : State) : Out := .next (homeOrderedEntry stall s)

end Sys2Proof.Machine
end

