-- ==== Sys2Proof/Machine/Flash.lean ====
section
/-! DEFINITION. The flash log: programs and commits, retirement, compaction, recovery, checkpoints and replay
(R125, R146, R153-R162, R507). -/

namespace Sys2Proof.Machine
open Sys2Proof

/-! ### Log slots as bytes -/

def slotAddr (ch slot : Nat) : Nat := (ch * 2 ^ 26 + slot) * 65536
/-- The nonzero bytes of a log slot, by offset within the frame. -/
def slotImage (s : State) (ch slot : Nat) : List Host.Cell :=
  (s.mem.flash.filter (fun c => decide (slotAddr ch slot ≤ c.1) && decide (c.1 < slotAddr ch slot + 65536))).map (fun c => (c.1 - slotAddr ch slot, c.2))
/-- Write a log slot whole, with the headers of its four pages (R155). -/
def putSlot (ch slot seq frame kind st : Nat) (image : List Host.Cell) (s : State) : State :=
  let b := slotAddr ch slot
  let cells := image.foldl (fun m c => AMap.set 0 m (b + c.1) c.2) (zeroCells s.mem.flash b 65536)
  let hs := (List.range 4).foldl (fun m p => AMap.set 0 m ((ch * 2 ^ 26 + slot) * 4 + p) (pageHeader seq (frame / 16384) (frame % 16384) p kind st)) s.store.headers
  { s with mem := { s.mem with flash := cells }, store := { s.store with headers := hs } }
def setMap (f v : Nat) (s : State) : State := { s with store := { s.store with mapping := AMap.set 0 s.store.mapping f v } }

/-- The mapped frames of a channel whose slot lies in block `b`. -/
def slotsIn (s : State) (ch b : Nat) : List Nat :=
  (s.store.mapping.filter (fun e => bit e.2 31 && e.2 % 2 ^ 26 / 256 == b && flashChannel s (e.1 * 65536) == ch)).map (·.1)

/-- Change a channel's state, with its record (R160, R495). -/
def setChanState (ch st : Nat) (s : State) : State :=
  if chanState s ch = st then s else errRec 0x8C ch st 0xFFFF 0 0 true false (cvSet 0x4041 5 ch st s)

/-- Book `n` page operations of the log's own work in stall 0's flash share (R156): the rounds of their slots. -/
def bookPages (rid ch n kind from_ : Nat) (s : State) : Option (State × List (Nat × Nat)) :=
  let w : For := { rid := rid, cmd := 0, stall := 0, bulk := true, maxR := curRound s + 65536 }
  if n = 0 then some (s, []) else
  match runPhase w (pagesPhase s ch n kind from_) s with
  | none => none
  | some (t, _, _) => let rs := newRounds s t (calFlash ch)
                      some (pageActs w kind n rs t, rs)
/-- Draw what an own work's new chits cost from stall 0's purse, where the balance stays at or above a floor (R88, R91). -/
def drawOwn (rid : Nat) (floor : Int) (old new : State) : Option State :=
  let c : Int := (chitSum new rid : Nat) - (chitSum old rid : Nat)
  if balanceOf old 0 < c + floor then none else some (draw 0 c new)
/-- Book the reads and then the programs of the log's own work on a channel, in stall 0's share and purse: the round of the last
transfer. None where the share or the balance cannot hold them. -/
def bookLog (rid ch reads programs : Nat) (floor : Int) (s : State) : Option (State × Nat) :=
  match bookPages rid ch reads 1 ((curRound s + 3) * 1024) s with
  | none => none
  | some (t, rs) =>
    let after := match rs.getLast? with | some x => (x.1 + 1) * 1024 | none => (curRound s + 1) * 1024
    match bookPages rid ch programs 2 after t with
    | none => none
    | some (u, ps) => (drawOwn rid floor s u).map (fun v => (v, ((rs ++ ps).getLastD (0, 0)).1))

/-! ### Programs of the log's own: relocations and lost markers (R156, R158, R159) -/

def setRelocs (l : List Reloc) (s : State) : State := { s with store := { s.store with relocs := l } }
/-- A relocation, or a lost marker, is due. -/
def addReloc (x : Reloc) (s : State) : State :=
  if s.store.relocs.any (fun y => y.frame == x.frame && y.src == x.src && y.kind == x.kind) then s else setRelocs (s.store.relocs ++ [x]) s
/-- Book the reads of the old slot and the programs of the new one, with its log slot; unchanged where stall 0's share or balance, or
the log, has no room. -/
def bookReloc (x : Reloc) (s : State) : State :=
  if x.booked then s else
  match bookLog (relocRid x.chan) x.chan (if x.kind = 3 then 4 else 0) 4 0 s with
  | none => s
  | some (t, last) => match allocSlot x.chan t with
    | none => s
    | some (slot, seq, u) => setRelocs (u.store.relocs.map (fun y => if y = x then { x with dst := slot, seq := seq, last := last, booked := true } else y)) u
def bookRelocs (s : State) : State := s.store.relocs.foldl (fun t x => bookReloc x t) s
/-- Its programs have succeeded: a relocation commits only if the mapping entry still names its source slot (R156), a lost marker
only if the frame is still LOST. A relocated page counts on the frame's stall (R134). -/
def commitReloc (x : Reloc) (s : State) : State :=
  let t := setRelocs (s.store.relocs.filter (· != x)) s
  let m := mapOf s x.frame
  let st := (extRec s (x.frame / 16384)).stall
  if x.kind = 2 then (if s.mem.lost.contains x.frame then putSlot x.chan x.dst x.seq x.frame 2 st [] t else t)
  else if bit m 31 && m % 2 ^ 26 == x.src then
    cvAdd 0x3050 4 st 4 (setMap x.frame (mapEntry true (bit m 30) x.dst) (putSlot x.chan x.dst x.seq x.frame 3 st (slotImage s x.chan x.src) t))
  else t
/-- The programs booked by PROGRAM_BOUND_ROUNDS before the present round have ended (R146). -/
def commitRelocs (s : State) : State :=
  (s.store.relocs.filter (fun x => x.booked && decide (x.last + 17 ≤ curRound s))).foldl (fun t x => commitReloc x t) s
/-- Every committed slot of a block is to be relocated. -/
def relocateBlock (ch b : Nat) (s : State) : State :=
  bookRelocs ((slotsIn s ch b).foldl (fun t f => addReloc { chan := ch, frame := f, src := mapOf t f % 2 ^ 26 } t) s)

/-- Retire a block (R159): no slot of it is written again, its committed slots are relocated, the usable bytes fall, a record is
written. -/
def retireBlock (ch b : Nat) (s : State) : State :=
  let x := blockOf s ch b
  if x.state = 2 then s else
  let s1 := setBlock ch b { x with state := 2 } s
  let s2 := if (chanOf s1 ch).open_ = b then setChan ch { chanOf s1 ch with fill := 256 } s1 else s1
  let s3 := setRelocs (s2.store.relocs.map (fun y => if y.chan = ch ∧ y.booked ∧ y.dst / 256 = b then { y with booked := false } else y)) s2
  let s4 := if x.state = 0 then cvSet 0x4041 3 ch (cv s3 0x4041 3 ch - 1) s3 else s3
  let s5 := cvAdd 0x4041 2 ch 1 (cvSet 0x4041 1 ch (cv s4 0x4041 1 ch - 2 ^ 24) s4)
  errRec 0x8A (flashLocator ch b 0) x.erases 0xFFFF 0 0 true false (relocateBlock ch b s5)

/-! ### Write-backs (R146) -/

/-- The lost frames but one. -/
def clearLost (f : Nat) (s : State) : State := { s with mem := { s.mem with lost := s.mem.lost.filter (· != f) } }

/-- The mapping entry takes the new slot; the frame is CLEAN where nothing was written since its transfers began. An entry that keeps
LOST is followed by a lost marker, so that a reset finds it LOST (R146, R162, R164; log entry 116). -/
def commitWb (w : Wb) (s : State) : State :=
  let s1 := putSlot w.chan w.slot w.seq w.frame 0 w.stall w.image s
  let s2 := setMap w.frame (mapEntry true w.keepLost w.slot) { s1 with store := { s1.store with wbs := s1.store.wbs.filter (· != w) } }
  let s3 := if w.keepLost then addReloc { chan := w.chan, frame := w.frame, src := 0, kind := 2 } s2 else clearLost w.frame s2
  match cframe s3 w.frame with
  | some c => if c.state = 2 ∧ c.dirty = 0 then setFrame w.frame (some { c with state := 1 }) s3 else s3
  | none => s3

/-- End the part of the request whose write-back cannot be made (R146). -/
def failWbRequest (w : Wb) (injected : Bool) (s : State) : State :=
  match reqOf s w.rid with
  | none => s
  | some q =>
    let k := (q.cmds.findIdx? (fun c => c.status.isNone)).getD 0
    updReq w.rid (fun q => { q with injected := q.injected || injected })
      (updCmd w.rid k (fun c => if c.status.isSome then c else { c with status := some FAULT_MEMORY, endRound := curRound s }) s)

/-- The frame of a write-back that cannot be made is LOST, and the request whose victim it was ends (R146). A background write-back has
no request: its frame stays DIRTY and the write-back is deferred (R147). -/
def loseWb (w : Wb) (s : State) : State :=
  if backgroundRid w.rid then
    cvAdd 0x4030 7 w.stall 1 (match cframe s w.frame with
      | some c => setFrame w.frame (some { c with dirty := c.dirty ||| c.valid, state := 2 }) s
      | none => s)
  else
    let t := loseFrame w.frame 0x05 false s
    failWbRequest w false (if w.leaving then emptyFrame w.frame t else t)
/-- Draw what a write-back's new programs cost from its stall's purse, where the balance holds it. -/
def drawWb (w : Wb) (old new : State) : Option State :=
  let c : Int := (chitSum new w.rid : Nat) - (chitSum old w.rid : Nat)
  if balanceOf old w.stall < c then none else some (draw w.stall c new)
/-- The four programs of a write-back again, at the earliest slots of the stall's share and within the request's promise, or the
frame is LOST (R146). -/
def rebookOne (w : Wb) (s : State) : State :=
  let s1 := { s with store := { s.store with wbs := s.store.wbs.filter (· != w) } }
  let maxR := match reqOf s w.rid with | some q => q.promise / 1280 - 18 | none => curRound s + 65536
  let who : For := { rid := w.rid, cmd := 0, stall := w.stall, bulk := backgroundRid w.rid, maxR := maxR }
  match runPhase who (pagesPhase s1 w.chan 4 2 ((curRound s + 1) * 1024)) s1 with
  | none => loseWb w s1
  | some (t, _, _) =>
    match drawWb w s1 t, allocSlot w.chan t with
    | some _, some (slot, seq, u) =>
      let rs := newRounds s1 t (calFlash w.chan)
      let w' : Wb := { w with slot := slot, seq := seq, begins := (List.range 4).map (fun p => roundAt rs (410 * p)), lastRound := roundAt rs 1639,
                              begun := 0, image := [], keepLost := false }
      let v := draw w.stall ((chitSum t w.rid : Nat) - (chitSum s1 w.rid : Nat) : Int)
        (pageActs who 2 4 rs { u with store := { u.store with wbs := u.store.wbs ++ [w'] } })
      match cframe v w.frame with
      | some c => setFrame w.frame (some { c with freeRound := if w.leaving then w'.lastRound + 17 else c.freeRound,
                                                   dirty := if w.leaving then c.dirty else c.valid, state := if w.leaving then c.state else 2 }) v
      | none => v
    | _, _ => loseWb w s1
/-- Retire a block, with the write-backs that had a slot of it booked again. -/
def retireWhole (ch b : Nat) (s : State) : State :=
  let t := retireBlock ch b s
  (t.store.wbs.filter (fun w => w.chan == ch && w.slot / 256 == b)).foldl (fun u w => rebookOne w u) t
/-- A program of a write-back failed: its block is retired where the fault is real, and the programs are booked again. -/
def rebookWb (w : Wb) (retire : Bool) (s : State) : State :=
  if retire then retireWhole w.chan (w.slot / 256) s else rebookOne w s

/-- One program opportunity of injection for each page of a committed write-back (R494, R502). -/
def programInjected (w : Wb) (s : State) : State × Bool :=
  (List.range 4).foldl (fun (x : State × Bool) p =>
    if x.2 then x else
    let loc := flashLocator w.chan (w.slot / 256) (w.slot % 256 * 4 + p)
    let i := inject 0x05 loc w.stall (!armed x.1 0x05 w.stall) x.1
    match i.1 with
    | none => (i.2, false)
    | some (dev, contain) =>
      let t := errRec 0x05 loc 0 0xFFFF w.stall FAULT_MEMORY dev true i.2
      if contain then (rebookWb w dev (if dev then detect 0x05 t else t), true) else (failWbRequest w true t, false)) (s, false)

def findWb (s : State) (st f : Nat) : Option Wb := s.store.wbs.find? (fun w => w.frame == f && w.stall == st)

/-- WRITEBACK_COMMIT: all four programs of the frame's write-back have succeeded. -/
def writebackCommit (st f : Nat) (s : State) : State :=
  match findWb s st f with
  | none => s
  | some w =>
    if w.begun < 4 then s else
    let x := programInjected w s
    if x.2 then x.1 else commitWb w x.1

/-- FLASH_PROGRAM: a program of a frame's write-back, or the erase of a block, fails (R146, R159). -/
def flashProgram (ch b : Nat) (erase : Bool) (st f : Nat) (s : State) : State :=
  if 64 ≤ ch then s else
  if erase then
    if (blockOf s ch b).state = 3 then retireWhole ch b (detectRec 0x05 (flashLocator ch b 0) 1 0xFFFF st 0 false s) else s
  else match findWb s st f with
    | none => s
    | some w =>
      if w.chan ≠ ch ∨ w.slot / 256 ≠ b ∨ w.begun = 0 then s
      else rebookWb w true (detectRec 0x05 (flashLocator ch b (w.slot % 256 * 4 + (w.begun - 1))) 0 0xFFFF st 0 false s)

/-- FRAME_FREE: a LEAVING frame becomes EMPTY at the start of its free round; its write-back has committed by then (R146). -/
def frameFree (st f : Nat) (s : State) : State :=
  match cframe s f with
  | none => s
  | some c =>
    if c.stall = st ∧ c.state = 3 ∧ c.freeRound ≤ curRound s then
      let s1 := match findWb s st f with | some w => if w.begun = 4 then commitWb w s else s | none => s
      emptyFrame f s1
    else s

/-! ### Reads in service (R125, R153) -/

/-- The LUN of an erase block: the spec gives no numbering, and the block modulo the LUN count is taken (PRESUMED, log entry 69). -/
def lunOf (s : State) (ch b : Nat) : Nat := b % max 1 (chanOf s ch).luns
/-- A LUN has a program or an erase in progress. -/
def lunBusy (s : State) (ch lun : Nat) : Bool :=
  s.store.wbs.any (fun w => w.chan == ch && decide (0 < w.begun) && lunOf s ch (w.slot / 256) == lun)
  || s.store.blocks.any (fun e => e.1 / 2 ^ 26 == ch && e.2.state == 3 && lunOf s ch (e.1 % 2 ^ 26) == lun)

/-- A page read of a channel is due its array read: its transfer is booked READ_LEAD_ROUNDS after the round that begins, or a CXL.mem
miss that was admitted waits for it (R142, R153). -/
def arrayDue (s : State) (ch slot : Nat) : Bool :=
  atBoundary s && s.gate.books.any (fun b => b.cal == calFlash ch && b.round == curRound s + cv s 0x4040 7)
  || s.coh.reqs.any (fun r => r.flash && (r.phase == 1 || r.phase == 2)
      && (let f := offOf r.addr / 65536; flashChannel s (f * 65536) == ch && mapOf s f % 2 ^ 26 == slot))
/-- FLASH_ARRAY_READ: the suspend where the LUN is busy, then the array read. -/
def flashArrayRead (ch slot page : Nat) (s : State) : State :=
  if 64 ≤ ch || 4 ≤ page || !arrayDue s ch slot then s else
  let c := chanOf s ch
  let lun := lunOf s ch (slot / 256)
  let s1 := if lunBusy s ch lun && !c.suspended.contains lun then
      send (.suspend ch lun) (setChan ch { c with suspended := c.suspended ++ [lun] } s) else s
  send (.arrayRead ch slot page) s1
/-- PROGRAM_RESUME. -/
def programResume (ch lun : Nat) (s : State) : State :=
  let c := chanOf s ch
  if c.suspended.contains lun then send (.resume ch lun) (setChan ch { c with suspended := c.suspended.filter (· != lun) } s) else s

/-! ### Compaction and erase (R156, R160) -/

/-- The blocks of a channel in use but not being filled, with their committed slots. -/
def usedBlocks (s : State) (ch : Nat) : List (Nat × Nat) :=
  ((s.store.blocks.filter (fun e => e.1 / 2 ^ 26 == ch && e.2.state == 1 && e.1 % 2 ^ 26 != (chanOf s ch).open_)).map (·.1 % 2 ^ 26)).map
    (fun b => (b, (slotsIn s ch b).length))
/-- A block holds a slot that is yet to be committed, or a lost marker no valid checkpoint covers (R157, R164). -/
def blockKept (s : State) (ch b : Nat) : Bool :=
  s.store.wbs.any (fun w => w.chan == ch && w.slot / 256 == b) || s.store.relocs.any (fun x => x.chan == ch && x.booked && x.dst / 256 == b)
  || decide ((chanOf s ch).ckptSeq < (blockOf s ch b).opened)
      && s.store.headers.any (fun h => h.1 / 1024 == ch * 2 ^ 18 + b && bits h.2 27 24 == 2)
/-- The block with the fewest committed slots (R156). -/
def leastFull (l : List (Nat × Nat)) : Option (Nat × Nat) :=
  l.foldl (fun m x => match m with
    | none => some x
    | some y => if x.2 < y.2 then some x else some y) none

/-- COMPACTION: a channel with fewer than 64 free blocks relocates its emptiest block, one block at a time; SHORT where committed
slots fill every block. -/
def compaction (ch : Nat) (s : State) : State :=
  if !(chanState s ch == 1 || chanState s ch == 2) || decide (64 ≤ cv s 0x4041 3 ch) || devicePaused s
    || !(chanOf s ch).rebuilt || s.store.blocks.any (fun e => e.1 / 2 ^ 26 == ch && e.2.state == 4) then s else
  let l := usedBlocks s ch
  if l.all (fun x => decide (256 ≤ x.2)) then setChanState ch 2 s else
  match leastFull (l.filter (fun x => !blockKept s ch x.1)) with
  | some (b, n) => if 256 ≤ n then s else relocateBlock ch b (setBlock ch b { blockOf s ch b with state := 4 } s)
  | none => s

/-- Book the energy of a block's erase in stall 0's purse, at the earliest round within 64 that holds it (R88, R96). -/
def bookErase (ch : Nat) : (fuel r : Nat) → State → Option (State × Nat)
  | 0, _, _ => none
  | n + 1, r, s =>
    let uj := ujOf s 3 1
    if chitFits s 0 r uj then
      let t := addEnergy (chanRid ch) 0 r uj true { s with gate := { s.gate with acts := s.gate.acts ++ [⟨chanRid ch, 0, r, 3, 1, true⟩] } }
      (drawOwn (chanRid ch) 0 s t).map (fun u => (u, r))
    else bookErase ch n (r + 1) s
/-- A block whose committed slots have all left it is erased from the round its energy is booked in. -/
def eraseCleared (s : State) : State :=
  (s.store.blocks.filter (fun e => e.2.state == 4)).foldl (fun t e =>
    let ch := e.1 / 2 ^ 26
    let b := e.1 % 2 ^ 26
    if (slotsIn t ch b).isEmpty && !t.store.relocs.any (fun x => x.chan == ch && x.kind == 3 && x.src / 256 == b) then
      match bookErase ch 64 (curRound t + 1) t with
      | some (u, r) => setBlock ch b { blockOf u ch b with state := 3, erase := r } u
      | none => t
    else t) s

/-- An armed erase failure of a block (R504, R506): the record, and the block's retirement where it is contained. -/
def eraseInjected (ch b : Nat) (s : State) : State :=
  let i := inject 0x05 (flashLocator ch b 0) 0 (!armed s 0x05 0) s
  match i.1 with
  | none => i.2
  | some (dev, contain) =>
    let t := errRec 0x05 (flashLocator ch b 0) 1 0xFFFF 0 0 dev true i.2
    if contain && dev then retireWhole ch b (detect 0x05 t) else t
/-- A block's bytes and page headers erased. -/
def eraseCells (ch b : Nat) (s : State) : State :=
  { s with mem := { s.mem with flash := zeroCells s.mem.flash (slotAddr ch (b * 256)) (256 * 65536) }
           store := { s.store with headers := AMap.keep (fun k _ => !(k / 1024 == ch * 2 ^ 18 + b)) s.store.headers } }
/-- BLOCK_ERASE: the erase of a block ends. -/
def blockErase (ch b : Nat) (s : State) : State :=
  let x := blockOf s ch b
  if x.state ≠ 3 ∨ curRound s < x.erase then s else
  let s0 := eraseInjected ch b s
  if (blockOf s0 ch b).state = 2 then s0 else
  let n := x.erases + 1
  let s2 := setBlock ch b { state := 0, erases := n, opened := 0 } (eraseCells ch b s0)
  let s3 := cvSet 0x4041 3 ch (cv s2 0x4041 3 ch + 1) s2
  if cv s3 0x4040 5 ≤ n then retireWhole ch b s3
  else if chanState s3 ch = 2 ∧ 128 ≤ cv s3 0x4041 3 ch then setChanState ch 1 s3 else s3

/-! ### Loss (R158, R160, R162, R507) -/

/-- CHANNEL_FAILED: the uncached frames homed on it become LOST, with one EXTENT_DAMAGED record for each backed extent. -/
def channelFailed (ch : Nat) (s : State) : State :=
  if 64 ≤ ch ∨ chanState s ch = 0 ∨ chanState s ch = 3 then s else
  let s1 := setChanState ch 3 s
  (s1.ext.recs.filter (fun e => e.2.state != 0 && e.2.backed)).foldl (fun t e =>
    let fs := ((List.range 16384).map (fun i => e.1 * 16384 + i)).filter (fun f => flashChannel t (f * 65536) == ch && (cframe t f).isNone)
    errRec 0x89 (gaddr t (e.1 * 2 ^ 30)) ch 0xFFFF e.2.stall 0 false false (fs.foldl (fun u f => markLost f u) t)) s1

/-- The frame whose committed content lies in a log slot. -/
def frameAt (s : State) (ch slot : Nat) : Option Nat :=
  (s.store.mapping.find? (fun e => bit e.2 31 && e.2 % 2 ^ 26 == slot && flashChannel s (e.1 * 65536) == ch)).map (·.1)

/-- LDPC_RECOVERY: up to seven reads at shifted levels in stall 0's flash share; the frame is relocated with its block, or LOST with a
lost marker; the block is retired either way. -/
def ldpcRecovery (ch slot : Nat) (recovered : Bool) (s : State) : State :=
  match frameAt s ch slot, bookLog (chanRid ch) ch 7 0 0 s with
  | some f, some (s0, _) =>
    let s1 := errRec 0x87 (flashLocator ch (slot / 256) (slot % 256 * 4)) (if recovered then 1 else 0) 0xFFFF (extRec s (f / 16384)).stall 0 true false s0
    if recovered then retireWhole ch (slot / 256) s1
    else
      let s2 := setMap f (mapEntry false true 0) (loseFrame f 0x04 false s1)
      retireWhole ch (slot / 256) (bookRelocs (addReloc { chan := ch, frame := f, src := 0, kind := 2 } s2))
  | _, _ => s

/-! ### Checkpoints and replay (R157, R164) -/

/-- The two lowest-numbered channels that are NORMAL (R520). -/
def recordChannels (s : State) : List Nat := ((List.range 64).filter (fun f => chanState s f == 1)).take 2
/-- CHECKPOINT_PERIOD: at a boundary of the period the channel's mapping entries go into its older
area, and the block being filled is closed, so that every later slot lies in a block opened after (R157). On two channels the 8 MiB
of extent records follow them. -/
def checkpointPeriod (ch : Nat) (s : State) : State :=
  let c := chanOf s ch
  if 64 ≤ ch || !(chanState s ch == 1 || chanState s ch == 2) || !atBoundary s || curRound s % max 1 (cv s 0x4040 6) != 0 || c.ckptArea.isSome || devicePaused s then s else
  let area := if c.ckptValid = 0 then 1 else 0
  let mine := s.store.mapping.filter (fun e => flashChannel s (e.1 * 65536) == ch)
  let draft := mine.foldl (fun m e => AMap.set 0 m e.1 e.2) (AMap.keep (fun f _ => flashChannel s (f * 65536) != ch) s.store.ckptDraft)
  let pages := cdiv (cv s 0x4050 3 / 64) 16384 + (if (recordChannels s).contains ch then 512 else 0)
  setChan ch { c with ckptArea := some area, ckptNext := c.sequence, ckptLeft := pages, ckptEnd := 0, fill := 256 }
    { s with store := { s.store with ckptDraft := draft } }
/-- At a boundary each channel whose checkpoint has pages left books the program of one, while stall 0's balance stays at or above half
its depth (R88, R157; log entry 118). -/
def bookCheckpoint (ch : Nat) (s : State) : State :=
  let c := chanOf s ch
  if c.ckptArea.isNone ∨ c.ckptLeft = 0 then s else
  match bookLog (chanRid ch) ch 0 1 ((purseDepth s 0 / 2 : Nat) : Int) s with
  | some (t, last) => setChan ch { chanOf t ch with ckptLeft := c.ckptLeft - 1, ckptEnd := max c.ckptEnd last } t
  | none => s

/-- CHECKPOINT_VALID: its last page has committed. -/
def checkpointValid (ch : Nat) (s : State) : State :=
  let c := chanOf s ch
  match c.ckptArea with
  | none => s
  | some a =>
    if c.ckptLeft ≠ 0 ∨ curRound s ≤ c.ckptEnd then s else
    let mine := s.store.ckptDraft.filter (fun e => flashChannel s (e.1 * 65536) == ch)
    let kept := AMap.keep (fun f _ => flashChannel s (f * 65536) != ch) s.store.ckpt
    setChan ch { c with ckptValid := a, ckptArea := none, ckptSeq := c.ckptNext }
      { s with store := { s.store with ckpt := mine.foldl (fun m e => AMap.set 0 m e.1 e.2) kept } }

/-! ### Extent records (R520) -/

/-- Book the page of a changed extent record on each of the two channels. -/
def bookRecord (e : Nat) (s : State) : State :=
  if (AMap.get 0 s.store.recWrites e) ≠ 0 ∨ !(extRec s e).dirty ∨ (recordChannels s).isEmpty then s else
  match (recordChannels s).foldl (fun (x : Option (State × Nat)) ch => x.bind (fun y => (bookLog (chanRid ch) ch 0 1 0 y.1).map (fun z => (z.1, max y.2 z.2)))) (some (s, 0)) with
  | some (t, last) => { t with store := { t.store with recWrites := AMap.set 0 t.store.recWrites e (last + 1) } }
  | none => s
def bookRecords (s : State) : State := (s.ext.recs.filter (fun x => x.2.dirty)).foldl (fun t x => bookRecord x.1 t) s
/-- EXTENT_RECORD_WRITE: once its page transfers have ended a changed record is in the checkpoint areas. -/
def extentRecordWrite (e : Nat) (s : State) : State :=
  let b := AMap.get 0 s.store.recWrites e
  if b = 0 ∨ curRound s < b then s else
  let r := { extRec s e with dirty := false }
  let t := setExt e r s
  { t with ext := { t.ext with flashRecs := AMap.set {} t.ext.flashRecs e r }
           store := { t.store with recWrites := AMap.set 0 t.store.recWrites e 0 } }

/-- The log's own work at a round boundary (R156-R159, R520). -/
def logBoundary (s : State) : State :=
  let s1 := commitRelocs s
  if devicePaused s1 then s1 else
  (List.range 64).foldl (fun t ch => bookCheckpoint ch t) (bookRecords (eraseCleared (bookRelocs s1)))

/-- The extent record a header or a mapping entry must match (R521): OPEN or CLOSING and backed. -/
def extHeld (s : State) (e : Nat) : Bool := (extRec s e).backed && ((extRec s e).state == 1 || (extRec s e).state == 2)

/-- A log slot counts (R521): the headers of pages 0 and 3 hold and agree, and their EXTENT and STALL match a record. -/
def slotCounts (s : State) (key h : Nat) : Bool :=
  let h3 := AMap.get 0 s.store.headers (key + 3)
  headerOk h && headerOk h3 && bits h 127 64 == bits h3 127 64 && extHeld s (bits h 63 44)
  && (extRec s (bits h 63 44)).stall == bits h 23 16

/-- The log slots of a channel in blocks opened after a log sequence, as (sequence, slot, header of page 0), in order. -/
def logAfter (s : State) (ch seq : Nat) : List (Nat × Nat × Nat) :=
  let l := (s.store.headers.filter (fun e => e.1 / 4 / 2 ^ 26 == ch && e.1 % 4 == 0 && slotCounts s e.1 e.2
    && decide (seq < (blockOf s ch (e.1 / 4 % 2 ^ 26 / 256)).opened))).map (fun e => (bits e.2 127 64, e.1 / 4 % 2 ^ 26, e.2))
  l.foldl (fun acc x => insertKeyed x acc) []

/-- Replay one log slot's headers: data maps the frame, a relocation moves its entry, a lost marker sets LOST (R157, R164). -/
def replaySlot (x : Nat × Nat × Nat) (s : State) : State :=
  let h := x.2.2
  let f := bits h 63 44 * 16384 + bits h 43 30
  if bits h 27 24 = 2 then markLost f s
  else if bits h 27 24 = 0 then clearLost f (setMap f (mapEntry true false x.2.1) s)
  else if bits h 27 24 = 3 then setMap f (mapEntry true (bit (mapOf s f) 30) x.2.1) s
  else s

/-- The mapping entries of a channel rebuilt from its newest valid checkpoint. -/
def loadCheckpoint (ch : Nat) (s : State) : State :=
  let mine := s.store.ckpt.filter (fun e => flashChannel s (e.1 * 65536) == ch && extHeld s (e.1 / 16384))
  mine.foldl (fun t e => (fun u => if bit e.2 30 then markLost e.1 u else u) (setMap e.1 e.2 t))
    { s with store := { s.store with mapping := AMap.keep (fun f _ => flashChannel s (f * 65536) != ch) s.store.mapping } }
def replayLog (ch : Nat) (s : State) : State := (logAfter s ch (chanOf s ch).ckptSeq).foldl (fun t x => replaySlot x t) s

/-- MAP_REBUILD: the 1,024 entries of a 4 KiB region of the mapping table are usable again (R161), once a page of the checkpoint of every
channel that answers is booked in stall 0's share (R88; log entry 119). -/
def mapRebuild (region : Nat) (s : State) : State :=
  if !s.store.mapBad.contains region then s else
  match ((List.range 64).filter (fun f => chanState s f == 1 || chanState s f == 2)).foldl
      (fun (x : Option State) ch => x.bind (fun t => (bookLog (chanRid ch) ch 1 0 0 t).map (·.1))) (some s) with
  | some t => { t with store := { t.store with mapBad := t.store.mapBad.filter (· != region) } }
  | none => s

def execFlashArrayRead (chan slot page : Nat) (s : State) : Out := .next (flashArrayRead chan slot page s)
def execProgramResume (chan lun : Nat) (s : State) : Out := .next (programResume chan lun s)
def execWritebackCommit (stall frame : Nat) (s : State) : Out := .next (writebackCommit stall frame s)
def execFlashProgram (chan block : Nat) (erase : Bool) (stall frame : Nat) (s : State) : Out := .next (flashProgram chan block erase stall frame s)
def execFrameFree (stall frame : Nat) (s : State) : Out := .next (frameFree stall frame s)
def execCompaction (chan : Nat) (s : State) : Out := .next (compaction chan s)
def execChannelFailed (chan : Nat) (s : State) : Out := .next (channelFailed chan s)
def execLdpcRecovery (chan slot : Nat) (recovered : Bool) (s : State) : Out := .next (ldpcRecovery chan slot recovered s)
def execExtentRecordWrite (ext : Nat) (s : State) : Out := .next (extentRecordWrite ext s)
def execMapRebuild (region : Nat) (s : State) : Out := .next (mapRebuild region s)
def execBlockErase (chan block : Nat) (s : State) : Out := .next (blockErase chan block s)
def execCheckpointPeriod (chan : Nat) (s : State) : Out := .next (checkpointPeriod chan s)
def execCheckpointValid (chan : Nat) (s : State) : Out := .next (checkpointValid chan s)

end Sys2Proof.Machine
end

