-- ==== Sys2Proof/Machine/Restock.lean ====
section
/-! DEFINITION. Collections: activation, side commits, retirement and restock (R342-R375). -/

namespace Sys2Proof.Machine
open Sys2Proof

/-! ### COLL_STATE (R375) -/

/-- A write of 1 to COLL_STATE: slot 0 is current as version 1 and COLL_SEQ is 0. -/
def collActivate (u : Nat) (s : State) : Nat × State :=
  if cActive s u then (OK, s)
  else if !(collInRange s u && areasFit s u) then (INVALID, s)
  else
    let c : Coll := { slots := [(1, 0, 0), (0, 0, 0)] }
    (OK, setColl u c (cvSet 0x7900 0x11 u 0 (cvSet 0x7900 2 u 1 s)))

/-- Some accepted command names the collection. -/
def collNamed (s : State) (u : Nat) : Bool :=
  s.gate.reqs.any (fun q => q.cmds.any (fun c => match c.work with | .search d => d.coll == u | .side _ v _ _ _ _ _ => v == u | _ => false))

/-- A write of 0 to COLL_STATE. -/
def collDeactivate (u : Nat) (s : State) : Nat × State :=
  if (collOf s u).slots.any (fun x => x.2.1 != 0) || collNamed s u || (collOf s u).restock != 0 then (BUSY, s)
  else (OK, cvSet 0x7900 2 u 0 s)

/-! ### RETIRE_REQUEST, RESTOCK_NOW (R367, R371) -/

def retireRequest (u v : Nat) (s : State) : Nat × State :=
  let c := bits v 21 0
  let a := bits v 53 32
  let x := collOf s u
  let retired := fun n => (dirRow s u x.cur n).state == 1
  if bits v 31 22 ≠ 0 ∨ bits v 63 54 ≠ 0 ∨ cN s u ≤ c ∨ cN s u ≤ a ∨ c = a then (INVALID, s)
  else if retired c || retired a || x.retireQ.any (fun p => p.1 == c || p.2 == c || p.1 == a) then (INVALID, s)
  else if 4096 ≤ x.retireQ.length then (BUSY, s)
  else (OK, setColl u { x with retireQ := x.retireQ ++ [(c, a)] } s)

def restockNow (u v : Nat) (s : State) : Nat × State :=
  if 1 < v then (INVALID, s) else (OK, if v = 1 then setColl u { collOf s u with nowFlag := true } s else s)

/-! ### Commit of an insert or delete (R365) -/

/-- SIDE_COMMIT: at the end of its last slot a command commits, and COLL_SEQ takes its number. -/
def sideCommit (rid cmd : Nat) (s : State) : State :=
  match reqOf s rid, cmdOf s rid cmd with
  | some q, some c =>
    match c.work with
    | .side del u _ _ _ seq _ =>
      if (c.started || c.status.isSome) && decide (slotEndTick c.endSlot ≤ now s) && decide (cSeq s u < seq) then
        let s1 := cvSet 0x7900 0x11 u seq s
        if c.status.isSome then voidSeq u seq s1
        else
          let s2 := cvAdd 0x7A00 (if del then 5 else 4) q.stall c.detailAlt s1
          countBytes q cmd (updCmd rid cmd (fun c => { c with status := some OK, detail := 0, delivered := 1, endRound := curRound s }) s2)
      else s
    | _ => s
  | _, _ => s

/-- COLL_SEQ takes the numbers of ended commands as their last slots end (R365). -/
def takeVoids (s : State) : State :=
  (s.colls.filter (fun c => !c.2.voids.isEmpty)).foldl (fun t c =>
    let passed := fun (v : Nat × Nat) => decide (slotEndTick v.2 ≤ now t)
    let t1 := setColl c.1 { collOf t c.1 with voids := c.2.voids.filter (fun v => !passed v) } t
    (c.2.voids.filter passed).foldl (fun t v => if cSeq t c.1 < v.1 then cvSet 0x7900 0x11 c.1 v.1 t else t) t1) s

/-! ### The plan of a restock (R368) -/

/-- A list of the new slot: its pages and where they begin, or skipped. -/
structure NewList where
  c : Nat
  skipped : Bool
  first : Nat
  items : Nat
  pages : List (List Byte)
  deriving DecidableEq, Repr

/-- The flash items of a list not hidden at `m`; none where a page cannot be read. -/
def flashItems (rid st u c m : Nat) (row : DirRow) (chain : List SideRec) (s : State) : Option (List (List Byte × Nat)) × State :=
  (List.range row.pages).foldl (fun (x : Option (List (List Byte × Nat)) × State) j =>
    match x.1 with
    | none => x
    | some l => match listItems rid st 0xFFFF u c j (row.first + j) (mapOf x.2 (listPageOff x.2 u (row.first + j) / 65536)) x.2 with
      | (.inl is, t) => (some (l ++ is.filter (fun i => !hidden chain i.2 row.merged m)), t)
      | (.inr _, t) => (none, t)) (some [], s)

/-- The inserts of a chain a restock takes, not hidden at `m`. -/
def chainInserts (m : Nat) (row : DirRow) (chain : List SideRec) : List (Nat × List Byte × Nat) :=
  (chain.filter (fun r => r.kind == 1 && decide (row.merged < r.seq) && decide (r.seq ≤ m) && !hidden chain r.id r.seq m)).map (fun r => (r.seq, r.code, r.id))

/-- A page of a list (R346). -/
def listPage (s : State) (u c j : Nat) (items : List (List Byte × Nat)) : List Byte :=
  let body := items.flatMap (fun i => (i.1.take (codeBytes s u) ++ List.replicate (codeBytes s u - i.1.length) 0) ++ leBytes 8 i.2)
  let full := (leBytes 4 c ++ leBytes 2 items.length ++ leBytes 1 j ++ List.replicate 57 0) ++ body
  full ++ List.replicate (16384 - full.length) 0

/-- The items of a merged list: its own, the absorbed ones', then the inserts in SEQ order. -/
def mergedItems (rid st u m : Nat) (absorbed : List Nat) (c : Nat) (s : State) : Option (List (List Byte × Nat)) × State :=
  let cur := (collOf s u).cur
  let all := c :: absorbed
  let fl := all.foldl (fun (x : Option (List (List Byte × Nat)) × State) k =>
    match x.1 with
    | none => x
    | some l => match flashItems rid st u k m (dirRow s u cur k) (sideChain s u k) x.2 with
      | (some is, t) => (some (l ++ is), t)
      | (none, t) => (none, t)) (some [], s)
  let ins := (all.flatMap (fun k => chainInserts m (dirRow s u cur k) (sideChain s u k))).foldl (fun acc x => insertKeyed x acc) []
  (fl.1.map (fun l => l ++ ins.map (fun x => (x.2.1, x.2.2))), fl.2)

/-- The lowest run of `n` list pages outside the used ones. -/
def freeRun (total n : Nat) (used : List (Nat × Nat)) : Option Nat :=
  (List.range (total + 1 - n)).find? (fun q => used.all (fun x => decide (q + n ≤ x.1) || decide (x.1 + x.2 ≤ q)))

/-- Pages already referenced: by the current slot, and by the lists this plan has placed. -/
def usedRuns (s : State) (u : Nat) : List (Nat × Nat) :=
  ((List.range (cN s u)).map (fun n => let d := dirRow s u (collOf s u).cur n; (d.first, d.pages))).filter (fun x => x.2 != 0)

/-- One list of the plan. -/
def planList (rid st u m : Nat) (retire : List (Nat × Nat)) (x : List NewList × List (Nat × Nat) × State) (c : Nat) :
    List NewList × List (Nat × Nat) × State :=
  let s := x.2.2
  let row := dirRow s u (collOf s u).cur c
  let absorbed := (retire.filter (fun p => p.2 == c)).map (·.1)
  let due := (sideChain s u c).any (fun r => decide (row.merged < r.seq) && decide (r.seq ≤ m))
  if row.state ≠ 0 ∨ retire.any (fun p => p.1 == c) ∨ (absorbed.isEmpty && !due) then x
  else
    let skip := fun (t : State) => (x.1 ++ [{ c := c, skipped := true, first := 0, items := 0, pages := [] }], x.2.1, t)
    match mergedItems rid st u m absorbed c s with
    | (none, t) => skip t
    | (some items, t) =>
      let p := itemsPerPage s u
      let n := cdiv items.length p
      if cv s 0x7900 0x0F u < n then skip t
      else
        let pages := (List.range n).map (fun j => listPage s u c j ((items.drop (p * j)).take p))
        if n = 0 then (x.1 ++ [{ c := c, skipped := false, first := 0, items := 0, pages := [] }], x.2.1, t)
        else match freeRun (listPages s u) n x.2.1 with
          | none => skip t
          | some q => (x.1 ++ [{ c := c, skipped := false, first := q, items := items.length, pages := pages }], x.2.1 ++ [(q, n)], t)

/-- The lists a restock with merge point `m` makes, and the state after its reads. -/
def planRestock (u m : Nat) (retire : List (Nat × Nat)) (s : State) : List NewList × State :=
  let r := (List.range (cN s u)).foldl (planList (restockRid u) (cOwner s u) u m retire) ([], usedRuns s u, s)
  (r.1, r.2.2)

/-- The list pages a plan writes, with their bytes. -/
def newPages (s : State) (u : Nat) (l : List NewList) : List (Nat × List Byte) :=
  l.flatMap (fun x => x.pages.zipIdx.map (fun (b, j) => (listPageOff s u (x.first + j), b)))
def newFrames (s : State) (u : Nat) (l : List NewList) : List Nat := dedup ((newPages s u l).map (fun p => p.1 / 65536))

/-! ### The booking (R367, R95) -/

/-- Pages read and programmed on each channel: the lists read, the other pages of each frame, four programs a frame. -/
def restockPages (s : State) (u : Nat) (retire : List (Nat × Nat)) (l : List NewList) (ch : Nat) : Nat × Nat :=
  let cur := (collOf s u).cur
  let src := (l.filter (fun x => !x.skipped)).flatMap (fun x => x.c :: (retire.filter (fun p => p.2 == x.c)).map (·.1))
  let reads := src.flatMap (fun c => let d := dirRow s u cur c; (List.range d.pages).map (fun j => flashChannel s (listPageOff s u (d.first + j))))
  let fs := (newFrames s u l).filter (fun f => flashChannel s (f * 65536) == ch)
  let carried := sumOf (fs.map (fun f => 4 - ((newPages s u l).filter (fun p => p.1 / 65536 == f)).length))
  ((reads.filter (· == ch)).length + carried, 4 * fs.length)

/-- Book a restock's pages in the long calendar: the state and the last program round. -/
def bookRestock (u : Nat) (retire : List (Nat × Nat)) (l : List NewList) (s : State) : Option (State × Nat) :=
  let w : For := { rid := restockRid u, cmd := 0, stall := cOwner s u, bulk := true, maxR := curRound s + 65536 }
  let start := (curRound s + 3) * 1024
  let rd1 := (List.range 64).foldl (fun (x : Option (State × Nat)) ch => x.bind (fun y =>
    let n := (restockPages s u retire l ch).1
    if n = 0 then some y else (runPhase w (pagesPhase s ch n 1 start) y.1).map (fun r => (pageActs w 1 n (newRounds y.1 r.1 (calFlash ch)) r.1, max y.2 (r.2.2 + 1))))) (some (s, start))
  rd1.bind (fun y => (List.range 64).foldl (fun (x : Option (State × Nat)) ch => x.bind (fun z =>
    let n := (restockPages s u retire l ch).2
    if n = 0 then some z else (runPhase w (pagesPhase s ch n 2 y.2) z.1).map (fun r => (pageActs w 2 n (newRounds z.1 r.1 (calFlash ch)) r.1, max z.2 (r.2.2 / 1024))))) (some (y.1, y.2 / 1024)))

/-- RESTOCK_START: at a boundary with the trigger met and the booking held. -/
def restockStart (u : Nat) (s : State) : State :=
  let c := collOf s u
  if !(cActive s u && atBoundary s && c.restock == 0 && (decide (cv s 0x7900 0x19 u ≤ sideRecords s u) || c.nowFlag)) then s
  else
    let st := cOwner s u
    let m := cSeq s u
    if devicePaused s then cvAdd 0x7A00 7 st 1 s else
    let plan := (planRestock u m c.retireQ s).1
    match bookRestock u c.retireQ plan s with
    | none => cvAdd 0x7A00 7 st 1 s
    | some (t, last) =>
      let chit := chitSum t (restockRid u)
      if balanceOf s st < (chit : Int) then cvAdd 0x7A00 7 st 1 s
      else setColl u { collOf t u with restock := 1, nowFlag := false, mergePoint := m, retireSet := c.retireQ, builtBy := last + 17 } (draw st chit t)

/-! ### The switch and the drain (R368-R370) -/

/-- Program the frames that hold new pages: the other pages carried over (R347). -/
def programFrames (u st : Nat) (l : List NewList) (s : State) : State :=
  (newFrames s u l).foldl (fun t f =>
    let ch := flashChannel t (f * 65536)
    let m := mapOf t f
    let old := if bit m 31 && !bit m 30 then slotImage t ch (m % 2 ^ 26) else []
    let image := ((newPages s u l).filter (fun p => p.1 / 65536 == f)).foldl (fun im p => writeCells (zeroCells im (p.1 % 65536) 16384) (p.1 % 65536) p.2) old
    match allocSlot ch t with
    | none => t
    | some (slot, seq, v) => setMap f (mapEntry true (bit m 30) slot) (putSlot ch slot seq f 0 st image v)) s

/-- The new directory slot's rows. -/
def newRow (s : State) (u m : Nat) (retire : List (Nat × Nat)) (l : List NewList) (n : Nat) : DirRow :=
  let d := dirRow s u (collOf s u).cur n
  let done := retire.filter (fun p => l.any (fun x => x.c == p.2 && !x.skipped))
  match done.find? (fun p => p.1 == n), l.find? (fun x => x.c == n && !x.skipped) with
  | some p, _ => { d with state := 1, forward := p.2, pages := 0, items := 0 }
  | none, some x => { d with first := x.first, pages := x.pages.length, items := x.items, merged := m }
  | none, none =>
    if d.state = 1 then match done.find? (fun p => p.1 == d.forward) with | some p => { d with forward := p.2 } | none => d else d

/-- RESTOCK_SWITCH: the first boundary after the last program has committed. -/
def restockSwitch (u : Nat) (s : State) : State :=
  let c := collOf s u
  if !(atBoundary s && c.restock == 1 && decide (c.builtBy ≤ curRound s)) then s
  else
    let st := cOwner s u
    let r := planRestock u c.mergePoint c.retireSet s
    let l := r.1
    let s1 := (l.filter (·.skipped)).foldl (fun t x => errRec 0x86 u x.c 0xFFFF st 0 false false (cvAdd 0x7A00 8 st 1 t)) r.2
    let s2 := programFrames u st l s1
    let new := 1 - c.cur
    let s3 := (List.range (cN s u)).foldl (fun t n =>
      listWrite (offOf (dirBase s u new) + 32 * n) (leBytes 32 (dirRowBits (newRow s u c.mergePoint c.retireSet l n))) t) s2
    let kept := c.retireQ.filter (fun p => !(c.retireSet.contains p && l.any (fun x => x.c == p.2 && !x.skipped)))
    let ver := (c.slots.getD c.cur (0, 0, 0)).1
    setColl u { collOf s3 u with cur := new, slots := setAt (collOf s3 u).slots new (ver + 1, 0, c.mergePoint), restock := 2,
                                 retireQ := kept } s3

/-- Free the records of a chain up to `merged` (all of them where the centroid is retired): whole blocks are returned, the
records that stay move to the front of the blocks kept (R370). -/
def drainChain (u n : Nat) (s : State) : State :=
  let d := dirRow s u (collOf s u).cur n
  let keep := if d.state = 1 then [] else (sideChain s u n).filter (fun r => decide (d.merged < r.seq))
  let blocks := chainBlocks s u (sideBlocks s u) (storeNat s (offOf (headAddr s u n)) 4)
  if keep.length = (sideChain s u n).length then s
  else
    let per := recordsPerBlock s u
    let need := cdiv keep.length per
    let used := blocks.take need
    let back := blocks.drop need
    let h := offOf (headAddr s u n)
    let s1 := listWrite h (leBytes 4 (match used.head? with | some b => b + 1 | none => 0) ++ leBytes 4 (match used.getLast? with | some b => b + 1 | none => 0)
      ++ leBytes 2 keep.length) s
    let s2 := used.zipIdx.foldl (fun t (b, i) =>
      let base := offOf (blockBase t u b)
      let rs := (keep.drop (per * i)).take per
      let t1 := listWrite base (leBytes 4 (match used[i + 1]? with | some k => k + 1 | none => 0)) t
      rs.zipIdx.foldl (fun v (r, j) =>
        let body := leBytes 8 r.id ++ leBytes 6 r.seq ++ leBytes 1 r.kind ++ leBytes 1 0 ++ r.code
        listWrite (base + 64 + recordBytes s u * j) (body ++ List.replicate (recordBytes s u - body.length) 0) v)
        (listWrite (base + 8) (leBytes 2 rs.length) t1)) s1
    setColl u { collOf s2 u with chains := AMap.set 0 (collOf s2 u).chains n keep.length, freeBlocks := (collOf s2 u).freeBlocks ++ back } s2

/-- RESTOCK_DRAIN: the first boundary at which the old slot's pin count is zero. -/
def restockDrain (u : Nat) (s : State) : State :=
  let c := collOf s u
  if !(atBoundary s && c.restock == 2 && (c.slots.getD (1 - c.cur) (0, 0, 0)).2.1 == 0) then s
  else
    let s1 := (c.chains.map (·.1)).foldl (fun t n => drainChain u n t) s
    cvAdd 0x7A00 6 (cOwner s u) 1 (setColl u { collOf s1 u with restock := 0, retireSet := [] } s1)

def execSideCommit (rid cmd : Nat) (s : State) : Out := .next (sideCommit rid cmd s)
def execRestockStart (coll : Nat) (s : State) : Out := .next (restockStart coll s)
def execRestockSwitch (coll : Nat) (s : State) : Out := .next (restockSwitch coll s)
def execRestockDrain (coll : Nat) (s : State) : Out := .next (restockDrain coll s)

end Sys2Proof.Machine
end

