-- ==== Sys2Proof/Machine/Power.lean ====
section
/-! DEFINITION. Operating points, the hardware limits and energy calibration (R103-R111, R526, R532, R540). -/

namespace Sys2Proof.Machine
open Sys2Proof

/-- PWR is halted: the operating point holds and calibration goes unmeasured (R464). -/
def pwrDown (s : State) : Bool := (AMap.get ({} : Comp) s.fw.comps 1).halted

/-- The longest cycle length of the two stream banks (R107). -/
def bankCycles (s : State) : Nat := max s.fab.runB.cycleLen s.fab.nextB.cycleLen

/-- A point is round-safe for a ceiling (R107); while a throttle holds, only point 0 is permitted (R110). -/
def roundSafe (s : State) (ceiling p : Nat) : Bool :=
  decide (p ≤ ceiling) && decide (p ≤ 4) && decide (bankCycles s ≤ oppCycles p)
  && (!(s.clk.throttled || s.clk.throttlePending) || p == 0)

/-- The point OPP_POLICY asks for (R107): the ceiling, or the lowest round-safe point. -/
def oppTarget (s : State) : Option Nat :=
  let c := cv s 0x2030 2
  if cv s 0x2030 3 = 0 then (if roundSafe s c c then some c else none)
  else (List.range 5).find? (roundSafe s c)

/-- Any round not yet settled holds a segment chit (R108). -/
def segmentChits (s : State) : Bool :=
  s.gate.books.any (fun b => decide (72 ≤ b.cal) && decide (b.cal < 88) && decide (curRound s ≤ b.round))

/-- The check of R108 on a write of OPP_CEILING. -/
def ceilingBusy (s : State) (v : Nat) : Bool :=
  if cv s 0x2030 2 < v then segmentChits s
  else decide (v < cv s 0x2030 2) && decide (oppCycles v < bankCycles s)

/-- Send a VDD_CORE target over AVSBus; the limit block sends none outside 650-850 mV (R110, R532). -/
def avsTarget (mv : Nat) (s : State) : State :=
  if 650 ≤ mv ∧ mv ≤ 850 then send (.avs mv) { s with clk := { s.clk with vddTarget := mv, vddTick := now s } } else s

/-- The voltage of a raise, sent no later than 640 ticks before the boundary (R109); a target that a lowered ceiling has left
behind is replaced. -/
def voltageRaise (s : State) : State :=
  match oppTarget s with
  | some p => if !pwrDown s ∧ now s % 1280 ≤ 640 ∧ cv s 0x2030 4 < p ∧ s.clk.vddTarget ≠ oppMv p then avsTarget (oppMv p) s else s
  | none => s

/-- The switch of the compute frequency at a boundary (R109): a raise once VDD_CORE is within 10 mV of its target, sent 640 ticks
before at the latest; a lowering at once, with the lower voltage after it. -/
def frequencySwitch (vdd : Nat) (s : State) : State :=
  match oppTarget s with
  | none => s
  | some p =>
    let cur := cv s 0x2030 4
    if !atBoundary s || p == cur || pwrDown s then s
    else if cur < p then
      if s.clk.vddTarget = oppMv p ∧ s.clk.vddTick + 640 ≤ now s ∧ vdd ≤ oppMv p + 10 ∧ oppMv p ≤ vdd + 10 then cvSet 0x2030 4 0 p s else s
    else avsTarget (oppMv p) (cvSet 0x2030 4 0 p s)

/-- The limit block's trigger and its release (R110). -/
def overLimits (x : Sensors) : Bool := decide (105 ≤ x.tjC) || decide (900 < x.iccA)
def belowLimits (x : Sensors) : Bool := decide (x.tjC < 100) && decide (x.iccA < 900)

/-- What a throttle does when it is raised (R110, R111): point 0 from the next boundary, THROTTLE_EVENTS. -/
def forceThrottle (s : State) : State :=
  cvAdd 0x2050 6 0 1 { s with clk := { s.clk with throttlePending := true, throttleRound := curRound s + 1, coolRounds := 0 } }

/-- THROTTLE_ENTRY: the record names the first round affected and, so far, no affected round (log entry 21). -/
def throttleEntry (x : Sensors) (s : State) : State :=
  if !overLimits x then s
  else if s.clk.throttled || s.clk.throttlePending then { s with clk := { s.clk with coolRounds := 0 } }
  else detectRec 0x12 (curRound s + 1) 0 0xFFFF 0 0 false (forceThrottle s)

/-- THROTTLE_RELEASE, after 64 rounds below the limits; its record holds the rounds affected (R110, R429). -/
def throttleRelease (x : Sensors) (s : State) : State :=
  if s.clk.throttled && belowLimits x && decide (64 ≤ s.clk.coolRounds) then
    errRec 0x12 s.clk.throttleRound (curRound s - s.clk.throttleRound) 0xFFFF 0 0 true false
      { s with clk := { s.clk with throttled := false, coolRounds := 0 } }
  else s

/-- The fastest point a measured VDD_CORE permits, within the 10 mV of R109 (R110; log entry 109). -/
def pointAt (vdd : Nat) : Nat := ((List.range 5).filter (fun p => decide (oppMv p ≤ vdd + 10))).getLastD 0

/-- No frequency above the one paired with the measured voltage (R110): the point falls, which is a forced change (R111). -/
def voltageLimit (x : Sensors) (s : State) : State :=
  let p := pointAt x.vddMv
  if cv s 0x2030 4 ≤ p then s
  else detectRec 0x12 (curRound s) 0 0xFFFF 0 0 false (cvAdd 0x2050 6 0 1 (cvSet 0x2030 4 0 p s))

/-- The limit block at a round boundary: the voltage's limit holds, a pending throttle forces point 0, cool rounds are counted. -/
def limitBoundary (x : Sensors) (s0 : State) : State :=
  let s := voltageLimit x s0
  let inj := inject 0x12 (curRound s) 0 s.clk.throttlePending s
  let s1 := match inj.1 with
    | some (dev, contain) =>
      let t := errRec 0x12 (curRound s) 0 0xFFFF 0 0 dev true inj.2
      if contain && dev then detect 0x12 (forceThrottle t) else t
    | none => inj.2
  let s2 := if s.clk.throttled then
      { s1 with clk := { s1.clk with coolRounds := if belowLimits x then s1.clk.coolRounds + 1 else 0 } } else s1
  if s.clk.throttlePending then
    avsTarget (oppMv 0) (cvSet 0x2030 4 0 0 { s2 with clk := { s2.clk with throttlePending := false, throttled := true } })
  else s2

/-- Telemetry at a round boundary (R526). -/
def telemetry (x : Sensors) (s : State) : State :=
  cvSet 0xC050 3 0 (x.iccA % 65536) (cvSet 0xC050 2 0 (x.vddMv % 65536) (cvSet 0xC050 1 0 (unsext 16 x.tjC)
    { s with clk := { s.clk with sensors := x } }))

/-- The energy over the period between two readings of the accumulator (R103, R105): none where the value is below the previous
one without a wrap. A reset of the ledger starts from an accumulator at 0 (log entry 107). -/
def eoutDiff (prev : Option (Nat × Nat)) (acc wraps : Nat) : Option Nat :=
  let p := prev.getD (0, 0)
  let turned := (wraps + 256 - p.2 % 256) % 256
  if acc + turned * Config.eoutSpan < p.1 then none else some (acc + turned * Config.eoutSpan - p.1)

/-- The regulator as it is read at a calibration boundary: no read is made while PWR is halted (R464). -/
def pmbusRead (s : State) (vr : VrRead) : VrRead := if pwrDown s then ⟨none, none, none, none, none, vr.wraps⟩ else vr

/-- A VR_* entry takes what was read; a failed read leaves it (R540). -/
def putVr (sub : Nat) (v : Option Nat) (s : State) : State := match v with | some x => cvSet 0x2060 sub 0 (x % 65536) s | none => s

/-- CALIBRATION_PERIOD (R103-R105, R532, R540): the regulator's readings, the measured and estimated energy, LEDGER_OVER. A read
that fails writes the record of R105; without READ_EOUT the period is unmeasured. -/
def calibrate (vr0 : VrRead) (s : State) : State :=
  let period := cv s 0x2040 1
  if !atBoundary s || curRound s % max 1 period != 0 then s
  else
    let vr := pmbusRead s vr0
    let est := s.gate.charged + cv s 0x2000 3 * period
    let s1 := putVr 2 vr.status (putVr 3 vr.vout (putVr 4 vr.iout (putVr 5 vr.temp (cvSet 0x2040 4 0 est
      { s with gate := { s.gate with charged := 0 }
               clk := { s.clk with eout := (vr.eout.map (fun m => (m, vr.wraps))).or s.clk.eout } }))))
    let status := vr.status.getD (cv s 0x2060 2) % 256
    let energy := vr.eout.bind (fun m => eoutDiff s.clk.eout m vr.wraps)
    let failed := energy.isNone || vr.status.isNone || vr.vout.isNone || vr.iout.isNone || vr.temp.isNone
    let tele := inject 0x14 0 0 failed s1
    let s2 := match tele.1 with
      | some (dev, contain) =>
        let t := errRec 0x14 0 status 0xFFFF 0 0 dev true tele.2
        if contain && dev then detect 0x14 t else t
      | none => if failed then detectRec 0x14 0 status 0xFFFF 0 0 false tele.2 else tele.2
    let lost := match tele.1 with | some (dev, contain) => dev && contain | none => false
    match energy with
    | none => s2
    | some m =>
      if lost then s2 else
      let s3 := cvSet 0x2040 3 0 m (cvSet 0x2040 2 0 (m * 1000000 / est) s2)
      let excess := decide (roundBudget (cv s 0x2000 1) * period < m)
      let led := inject 0x13 m 0 excess s3
      if excess then cvAdd 0x2040 5 0 1 (detectRec 0x13 m period 0xFFFF 0 0 false led.2)
      else match led.1 with
        | some (dev, contain) =>
          let t := errRec 0x13 m period 0xFFFF 0 0 dev true led.2
          if contain && dev then cvAdd 0x2040 5 0 1 (detect 0x13 t) else t
        | none => led.2

def execOppVoltageRaise (s : State) : Out := .next (voltageRaise s)
def execFrequencySwitch (vddMv : Nat) (s : State) : Out := .next (frequencySwitch vddMv s)
def execThrottleEntry (sensors : Sensors) (s : State) : Out := .next (throttleEntry sensors s)
def execThrottleRelease (sensors : Sensors) (s : State) : Out := .next (throttleRelease sensors s)
def execCalibrationPeriod (vr : VrRead) (s : State) : Out := .next (calibrate vr s)

end Sys2Proof.Machine
end

