-- ==== Sys2Proof/Machine/Crypto.lean ====
section
/-! DEFINITION. SHA-256 (FIPS 180-4) and LMS verification (RFC 8554), which the manual takes by reference
(R466, R480; PRESUMED, log entry 22). -/

namespace Sys2Proof.Machine
open Sys2Proof

/-! ### SHA-256 -/

/-- The first `n` primes, for the constants of FIPS 180-4. -/
def isPrime (n : Nat) : Bool := decide (2 ≤ n) && (List.range n).all (fun d => d < 2 || n % d != 0)
def primes (bound : Nat) : List Nat := (List.range bound).filter isPrime

/-- The integer `k`-th root, by bits from `2^(n-1)` down. -/
def rootBits (k m : Nat) : Nat → Nat → Nat
  | 0, r => r
  | n + 1, r => rootBits k m n (if (r + 2 ^ n) ^ k ≤ m then r + 2 ^ n else r)

/-- The first 32 bits of the fraction of a square root and of a cube root. -/
def sqrtFrac (p : Nat) : Word32 := BitVec.ofNat 32 (rootBits 2 (p * 2 ^ 64) 37 0)
def cbrtFrac (p : Nat) : Word32 := BitVec.ofNat 32 (rootBits 3 (p * 2 ^ 96) 36 0)
def shaH0 : List Word32 := ((primes 20).take 8).map sqrtFrac
def shaK : List Word32 := ((primes 312).take 64).map cbrtFrac

def beNat (l : List Byte) : Nat := leNat l.reverse
def beBytes (n v : Nat) : List Byte := (leBytes n v).reverse

/-- Padding to a multiple of 64 bytes. -/
def shaPad (l : List Byte) : List Byte :=
  l ++ [0x80] ++ List.replicate ((119 - l.length % 64) % 64) 0 ++ beBytes 8 (8 * l.length)

def ssig0 (x : Word32) : Word32 := x.rotateRight 7 ^^^ x.rotateRight 18 ^^^ (x >>> 3)
def ssig1 (x : Word32) : Word32 := x.rotateRight 17 ^^^ x.rotateRight 19 ^^^ (x >>> 10)
def bsig0 (x : Word32) : Word32 := x.rotateRight 2 ^^^ x.rotateRight 13 ^^^ x.rotateRight 22
def bsig1 (x : Word32) : Word32 := x.rotateRight 6 ^^^ x.rotateRight 11 ^^^ x.rotateRight 25

/-- The message schedule, newest word first. -/
def schedule : Nat → List Word32 → List Word32
  | 0, w => w
  | n + 1, w => schedule n ((ssig1 (w.getD 1 0) + w.getD 6 0 + ssig0 (w.getD 14 0) + w.getD 15 0) :: w)

/-- One round on the eight working words. -/
def shaRound (v : List Word32) (kw : Word32) : List Word32 :=
  match v with
  | [a, b, c, d, e, f, g, h] =>
    let t1 := h + bsig1 e + ((e &&& f) ^^^ (~~~e &&& g)) + kw
    let t2 := bsig0 a + ((a &&& b) ^^^ (a &&& c) ^^^ (b &&& c))
    [t1 + t2, a, b, c, d + t1, e, f, g]
  | _ => v

def shaBlock (h : List Word32) (blk : List Byte) : List Word32 :=
  let w16 := (List.range 16).map (fun i => (BitVec.ofNat 32 (beNat (slice blk (4 * i) 4)) : Word32))
  let w := (schedule 48 w16.reverse).reverse
  let v := (List.zipWith (· + ·) shaK w).foldl shaRound h
  List.zipWith (· + ·) h v

def shaBlocks : Nat → List Word32 → List Byte → List Word32
  | 0, h, _ => h
  | n + 1, h, l => shaBlocks n (shaBlock h (l.take 64)) (l.drop 64)

/-- The 32-byte digest of a byte list. -/
def sha256 (l : List Byte) : List Byte :=
  let p := shaPad l
  (shaBlocks (p.length / 64) shaH0 p).flatMap (fun w => beBytes 4 w.toNat)

/-! ### LMS_SHA256_M32_H10 with LMOTS_SHA256_N32_W4 (R480) -/

/-- The 67 base-16 digits of a message hash with its checksum. -/
def otsDigits (q : List Byte) : List Nat :=
  let d := q.flatMap (fun b => [b.toNat / 16, b.toNat % 16])
  let c := sumOf (d.map (fun x => 15 - x)) * 16
  d ++ [c / 4096 % 16, c / 256 % 16, c / 16 % 16]

/-- Hash chain `i` from step `j` for `n` steps. -/
def otsChain (iq : List Byte) (i : Nat) : (n j : Nat) → List Byte → List Byte
  | 0, _, t => t
  | n + 1, j, t => otsChain iq i n (j + 1) (sha256 (iq ++ beBytes 2 i ++ beBytes 1 j ++ t))

/-- The one-time public key a one-time signature claims. -/
def otsKey (iq msg sig : List Byte) : List Byte :=
  let q := sha256 (iq ++ beBytes 2 0x8181 ++ slice sig 4 32 ++ msg)
  sha256 (iq ++ beBytes 2 0x8080 ++ ((otsDigits q).zipIdx.flatMap (fun (a, i) => otsChain iq i (15 - a) a (slice sig (36 + 32 * i) 32))))

/-- The root a path leads to. -/
def lmsRoot (ident : List Byte) : (n node : Nat) → List Byte → List Byte → List Byte
  | 0, _, _, t => t
  | n + 1, node, path, t =>
    let sib := path.take 32
    lmsRoot ident n (node / 2) (path.drop 32)
      (sha256 (ident ++ beBytes 4 (node / 2) ++ beBytes 2 0x8383 ++ (if node % 2 = 1 then sib ++ t else t ++ sib)))

/-- An LMS signature of 2,508 bytes verifies under a public key of 56 bytes. -/
def lmsVerify (key msg sig : List Byte) : Bool :=
  let ident := slice key 8 16
  let q := beNat (slice sig 0 4)
  let leaf := sha256 (ident ++ beBytes 4 (1024 + q) ++ beBytes 2 0x8282 ++ otsKey (ident ++ beBytes 4 q) msg (slice sig 4 2180))
  key.length == 56 && sig.length == 2508 && beNat (slice key 0 4) == 6 && beNat (slice key 4 4) == 3
  && beNat (slice sig 4 4) == 3 && beNat (slice sig 2184 4) == 6 && decide (q < 1024)
  && lmsRoot ident 10 (1024 + q) (slice sig 2188 320) leaf == slice key 24 32

end Sys2Proof.Machine
end

