-- ==== Sys2Proof/Machine/Reset.lean ====
section
/-! DEFINITION. Resets, the boot chain and the start sequence (R40, R455, R477-R487, R512-R525, R533, R536). -/

namespace Sys2Proof.Machine
open Sys2Proof

/-! ### What a reset keeps (R513) -/

/-- Catalogue values a device reset keeps: the AON state, the table and collection configuration of R340 and R374, and
the count of retired frames; a power-on reset keeps only the last (log entry 23). -/
def resetKeeps (power : Bool) (k : Nat) : Bool :=
  let i := keyIdx k
  let b := keySub k
  (i == 0x4050 && b == 1)
  || (!power && ((i == 0x5010 && b == 1) || (i == 0x1000 && b == 3) || (i == 0x7100 && decide (1 ≤ b) && decide (b ≤ 5))
      || (i == 0x7900 && (b == 1 || (decide (3 ≤ b) && decide (b ≤ 0x10)) || b == 0x19))))

/-- An extent record as a reset leaves it: what its requests and its sweep booked is gone. -/
def resetExt (r : ExtRec) : ExtRec := { r with drain := 0, closeTally := 0xFFFF, freeBound := 0, sweep := [], rebooked := false }

/-- Every block but the AON state returns to its reset state (R75, R112, R194, R224, R251, R308, R340, R374, R403, R430, R455,
R508). `power`: a power-on reset, which reaches the AON state too. -/
def resetBlocks (power : Bool) (cause : Nat) (s : State) : State :=
  let opens := s.sec.unlock && !power
  { pending := s.pending, sent := s.sent, freeCtr := s.freeCtr
    clk := { inReset := true, resetCause := cause, powered := s.clk.powered, thermtrip := s.clk.thermtrip && !power,
             brdPos := s.clk.brdPos, cfgPooled := s.clk.cfgPooled, sensors := s.clk.sensors
             throttled := !power && s.clk.throttled, throttlePending := !power && s.clk.throttlePending
             coolRounds := if power then 0 else s.clk.coolRounds }
    cat := { vals := let m := AMap.keep (fun k _ => resetKeeps power k) s.cat.vals
                     if !power && s.clk.throttled then AMap.set none m (catKey 0x2030 4 0) (some 0) else m }
    ext := { recs := (if power then s.ext.flashRecs else s.ext.recs).map (fun e => (e.1, resetExt e.2)),
             flashRecs := s.ext.flashRecs, grants := s.ext.grants }
    mem := { hbm := if power then [] else s.mem.hbm, host := s.mem.host, flash := s.mem.flash }
    store := { ckpt := if opens then [] else s.store.ckpt, headers := if opens then [] else s.store.headers,
               chans := s.store.chans.map (fun c => (c.1, { c.2 with ckptArea := none, loaded := false, rebuilt := false, suspended := [] })),
               blocks := s.store.blocks.map (fun b => (b.1, if b.2.state = 4 then { b.2 with state := 1 } else b.2)), retired := s.store.retired }
    sec := { s.sec with reports := [], lastReport := none, challenge := none, bootPending := false,
                        unlock := false, debugOpen := if power then false else s.sec.debugOpen || opens,
                        debugHistory := if power then false else s.sec.debugHistory || opens }
    fw := { inEffect := s.fw.inEffect }
    err := if power then {} else { log := s.err.log, logWritten := s.err.logWritten, detections := s.err.detections } }

/-- A device reset (R512): one that arrives during a device reset restarts it, and GATE_EPOCH rises once (R75); it does
nothing during a power-on reset, without power, or while THERMTRIP_N is low (R536). -/
def deviceResetNow (cause : Nat) (s : State) : State :=
  if !s.clk.powered || s.clk.thermtrip || (s.clk.inReset && s.clk.resetCause == 0) then s
  else
    let t := resetBlocks false cause (emptyFrames (fun _ _ => true) s)
    if s.clk.inReset then t else cvAdd 0x1000 3 0 1 t

/-- RST_N low for at least 100 ticks. -/
def rstN (low : Nat) (s : State) : State := if 100 ≤ low then deviceResetNow 1 s else s

/-- VDD_AON rises into range. -/
def powerOnReset (s : State) : State :=
  let t := resetBlocks true 0 s
  { t with clk := { t.clk with powered := true, brdPos := 0, cfgPooled := false } }

/-- Every rail is removed: the AON state, the error log and HBM are lost; flash, fuses and boot flash stay. -/
def powerRemoval (s : State) : State :=
  let t := resetBlocks true 0 s
  { t with clk := { t.clk with powered := false } }

/-- THERMTRIP (R110, R513, R536): every block but AON is held in device reset until power is removed. -/
def thermtrip (s : State) : State :=
  if !s.clk.powered then s
  else
    let t := if s.clk.inReset then resetBlocks false s.clk.resetCause s else cvAdd 0x1000 3 0 1 (resetBlocks false s.clk.resetCause s)
    { t with clk := { t.clk with thermtrip := true } }

/-- DEVICE_RESET: the reset begins 2,560 ticks after the write is decided (R512). -/
def deviceResetWrite (s : State) : Nat × State := (OK, { s with clk := { s.clk with resetDue := some (now s + 2560) } })

/-- INTERNAL_RESET_END: tick 0; the straps are sampled and the ROM runs (R514, R515). -/
def internalResetEnd (brd : Nat) (pooled : Bool) (s : State) : State :=
  if s.clk.inReset && s.clk.powered && !s.clk.thermtrip then
    { s with clk := { s.clk with inReset := false, calTick := 0, brdPos := brd % 16, cfgPooled := pooled } }
  else s

def startPhase (s : State) : Nat := cv s 0xC030 1
def setPhase (p : Nat) (s : State) : State := cvSet 0xC030 1 0 p s
/-- The device is out of reset. -/
def running (s : State) : Bool := s.clk.powered && !s.clk.inReset

/-! ### Images (R479-R483) -/

/-- The checks of R481 on an image for a configuration: 1 OK, 2 FORMAT, 3 SIGNATURE, 4 ROLLBACK, 5 STEPPING. -/
def verifyImage (s : State) (img : List Byte) (config : Nat) : Nat :=
  let fld := fun (o n : Nat) => leNat (slice img o n)
  let size := fld 16 4
  let slot := fld 20 1
  let key := slice img 64 56
  if !(fld 0 4 == 0x57464D54 && fld 4 2 == 1 && decide (1 ≤ size) && decide (size ≤ 1045760) && decide (fld 12 4 ≤ fld 8 4)
      && decide (slot ≤ 3) && fld 21 1 != 0 && decide (fld 21 1 ≤ 3) && decide (fld 22 1 < 16) && !bit (fld 22 1) slot
      && fld 23 9 == 0 && fld 120 136 == 0 && fld 2764 52 == 0 && img.length == 2816 + size) then 2
  else if bit s.sec.revoked slot || sha256 key != Config.vendorKeyHash slot || !lmsVerify key (slice img 0 256) (slice img 256 2508)
      || sha256 (img.drop 2816) != slice img 32 32 then 3
  else if fld 11 1 < s.sec.floor then 4
  else if fld 6 2 ≠ 0x00B1 then 5
  else if bit (fld 21 1) config then 1 else 2

/-- The checks on a slot; the image the part ships with passes them (log entry 5). -/
def verifySlot (s : State) (x : Slot) (config : Nat) : Nat :=
  match x with
  | .empty => 2
  | .factory => 1
  | .image b => verifyImage s b config

def slotVersion : Slot → Nat
  | .empty => 0
  | .factory => Config.factoryVersion % 2 ^ 32
  | .image b => leNat (slice b 8 4)
def slotDigest : Slot → List Byte
  | .empty => List.replicate 32 0
  | .factory => Config.factoryDigest
  | .image b => sha256 b

/-- The boot record in use (R478): copy 0 or 1 with the slot it names, or none. -/
def bootRecord (s : State) : Option (Nat × Nat × Nat) :=
  match s.sec.rec0, s.sec.rec1 with
  | none, none => none
  | some a, none => some (0, a)
  | none, some b => some (1, b)
  | some a, some b =>
    let d := (b.1 + 2 ^ 32 - a.1) % 2 ^ 32
    if 1 ≤ d ∧ d < 2 ^ 31 then some (1, b) else some (0, a)

/-- CORE_ROLES after a reset (R457). -/
def rolesOf (pooled : Bool) : List Nat :=
  if pooled then 0x01 :: List.replicate 19 0x04
  else [0x01, 0x02, 0x03] ++ (List.range 16).map (0x10 + ·) ++ [0x00]

/-- SEC_START (R482, R483): the ACTIVE slot, else the other, is verified and started; with neither, recovery. -/
def secStart (s : State) : State :=
  if !running s || startPhase s != 0 then s else
  let cfg := if s.clk.cfgPooled then 1 else 0
  let active := match bootRecord s with | some (_, _, a) => a % 2 | none => 0
  let at_ := fun (k : Nat) => if k = 0 then s.sec.slotA else s.sec.slotB
  let r1 := verifySlot s (at_ active) cfg
  let r2 := if r1 = 1 then 0 else verifySlot s (at_ (1 - active)) cfg
  let res := if active = 0 then r1 + 16 * r2 else r2 + 16 * r1
  let t := { s with sec := { s.sec with bootResult := res, sigNext := s.sec.reserveR } }
  if r1 = 1 ∨ r2 = 1 then
    let k := if r1 = 1 then active else 1 - active
    cvSet 0xA000 3 0 cfg (setPhase 1 { t with sec := { t.sec with bootSlot := k }, fw := { t.fw with inEffect := at_ k, roles := rolesOf s.clk.cfgPooled } })
  else setPhase 4 { t with fw := { t.fw with inEffect := .empty, roles := 0x01 :: List.replicate 19 0x00 } }

/-! ### SEC_INIT and STORE (R515-R521) -/

/-- HBM_TRAINING_DONE: with every stack trained SEC_INIT ends, and Twine training begins on every link (R516, R522); where a
stack has failed the device stays in SEC_INIT. -/
def hbmTrainingDone (failed : Nat) (s : State) : State :=
  if !running s || startPhase s != 1 || s.clk.hbmTrained || cv s 0xC030 6 != 0 then s else
  let t := cvSet 0xC030 6 0 (failed % 256) s
  if failed % 256 = 0 then
    let u := setPhase 2 { t with clk := { t.clk with hbmTrained := true } }
    (List.range 32).foldl (fun v l => cvSet 0x8110 1 l 1 v) u
  else t

/-- Every channel has been rebuilt, or is ABSENT or FAILED. -/
def allRebuilt (s : State) : Bool :=
  s.clk.discoveryDone && (List.range 64).all (fun f => chanState s f == 0 || chanState s f == 3 || (chanOf s f).rebuilt)

/-- The end of rebuild records MAP_READY_TICK; the end of STORE takes CLOSING extents to SWEEPING (R40, R521). After a
power-on reset with no NORMAL channel every extent is FREE (R520). -/
def endStore (s : State) : State :=
  if startPhase s ≠ 2 ∨ s.clk.storeDone then s else
  let s1 := if allRebuilt s && cv s 0xC030 4 == 0 then cvSet 0xC030 4 0 (now s) s else s
  if allRebuilt s1 && s1.clk.zeroFillDone then
    let none_ := s1.clk.resetCause == 0 && (List.range 64).all (fun f => chanState s1 f != 1)
    let recs := if none_ then [] else s1.ext.recs.map (fun e => (e.1, if e.2.state = 2 then { e.2 with state := 3, dirty := true } else e.2))
    { s1 with clk := { s1.clk with storeDone := true }, ext := { s1.ext with recs := recs } }
  else s1

/-- ZERO_FILL_DONE (R519). -/
def zeroFillDone (s : State) : State :=
  if running s && startPhase s == 2 && !s.clk.zeroFillDone then
    endStore (cvSet 0xC030 3 0 (now s) { s with clk := { s.clk with zeroFillDone := true }, mem := { s.mem with hbm := [], poison := [] } })
  else s

/-- TARGET_RESET_TIMEOUT: the position is empty. -/
def targetTimeout (ch t : Nat) (s : State) : State :=
  if running s && startPhase s == 2 && !s.clk.discoveryDone && decide (ch < 64) && decide (t < 4) then
    { s with store := { s.store with emptyTargets := dedup (s.store.emptyTargets ++ [(ch, t)]) } }
  else s

/-- What a channel is found to hold: ABSENT unless its parts meet every row of R152 and a target answers (R519). -/
def chanConforms (s : State) (f : ChanFound) : Bool :=
  f.nvLpddr4 && f.mtps == 3600 && f.pageBytes == 16384 && decide (2048 ≤ f.spareBytes) && (f.unitPages == 1024 || f.unitPages == 512)
  && f.suspends && f.levelReads && decide (f.readNs ≤ 20000) && decide (f.suspendNs ≤ 4000) && decide (f.progNs ≤ 200000)
  && decide (f.eraseNs ≤ 10000000) && decide (1 ≤ f.targets) && decide (f.targets ≤ 4) && decide (1 ≤ f.luns) && decide (f.luns ≤ 16)
  && !(List.range 4).all (fun t => s.store.emptyTargets.contains (f.chan, t))

/-- A channel found with conforming parts: NORMAL, with its blocks counted (R152, R519). -/
def foundChannel (t : State) (f : ChanFound) : State :=
  let dead := (t.store.blocks.filter (fun b => b.1 / 2 ^ 26 == f.chan && b.2.state == 2)).length
  let used := (t.store.blocks.filter (fun b => b.1 / 2 ^ 26 == f.chan && (b.2.state == 1 || b.2.state == 3))).length
  let good := f.blocks - f.factoryBad.length - dead - 40
  cvSet 0x4041 1 f.chan (good * 2 ^ 24) (cvSet 0x4041 3 f.chan (good - used) <| cvSet 0x4041 2 f.chan dead <| cvSet 0x4041 5 f.chan 1 <|
    (setChan f.chan { chanOf t f.chan with luns := f.luns, blocks := f.blocks, bad := f.factoryBad } t))

/-- FLASH_DISCOVERY_DONE (R519): the channels found, FLASH_CHANNELS_POPULATED, FLASH_BYTES_INSTALLED, MAP_TABLE_BYTES. A channel whose
responding parts do not conform is ABSENT (R152) and adds no installed bytes (DESIGN CHOICE, log entry 100). -/
def discoveryDone (found : List ChanFound) (s : State) : State :=
  if !running s || startPhase s != 2 || s.clk.discoveryDone then s else
  let t := (found.filter (fun f => decide (f.chan < 64) && chanConforms s f)).foldl foundChannel s
  let total := sumOf ((List.range 64).map (fun f => if chanState t f = 1 then (chanOf t f).blocks * 2 ^ 24 else 0))
  let present := (List.range 64).foldl (fun a f => if (found.any (fun x => x.chan == f && decide (1 ≤ x.targets)
    && !(List.range 4).all (fun k => s.store.emptyTargets.contains (f, k)))) then a + 2 ^ f else a) 0
  endStore (cvSet 0x4050 3 0 (total / 16384) (cvSet 0x0030 2 0 total (cvSet 0x0030 1 0 present
    { t with clk := { t.clk with discoveryDone := true } })))

/-- CHECKPOINT_LOADED and REPLAY_DONE (R157, R521). -/
def rebuilding (ch : Nat) (s : State) : Bool :=
  running s && startPhase s == 2 && s.clk.discoveryDone && decide (ch < 64) && (chanState s ch == 1 || chanState s ch == 2)
def checkpointLoaded (ch : Nat) (s : State) : State :=
  if rebuilding ch s && !(chanOf s ch).loaded then
    let t := loadCheckpoint ch s
    setChan ch { chanOf t ch with loaded := true } t
  else s
def replayDone (ch : Nat) (s : State) : State :=
  if rebuilding ch s && (chanOf s ch).loaded && !(chanOf s ch).rebuilt then
    let t := replayLog ch s
    endStore (setChan ch { chanOf t ch with rebuilt := true } t)
  else s

/-- GATE_OPEN (R40, R524): at a boundary after STORE, with no component halted. Pinned extents in SWEEPING become FREE;
the sweeps of backed ones are booked from the next round, and their chits are drawn at once, before the first rate comes (DESIGN
CHOICE, log entry 103). With the shares and rates a reset leaves stall 0 the calendar holds them; where it could not, nothing is
booked and the extent is FREE at the end of the long calendar (DESIGN CHOICE, log entry 102). -/
def gateOpen (s : State) : State :=
  if !running s || startPhase s != 2 || !s.clk.storeDone || !atBoundary s || s.fw.comps.any (fun c => c.2.halted) then s else
  let s1 := cvSet 0xC030 2 0 (now s) (setPhase 3 { s with clk := { s.clk with memActive := true } })
  (s1.ext.recs.filter (fun e => e.2.state == 3)).foldl (fun t e =>
    if e.2.backed then
      match bookSweep e.1 true (curRound t + 1) t with
      | some (rounds, u) => setExt e.1 { e.2 with sweep := rounds } (drawStall0 (sweepChit t true) u)
      | none => setExt e.1 { e.2 with sweep := [curRound t + 65536] } t
    else setExt e.1 { grant := e.2.grant, dirty := true } t) s1

/-! ### Ports (R409, R512, R513, R523) -/

/-- A change of PORT_STATE, with its record (R495). -/
def setPort (p st : Nat) (s : State) : State :=
  if cv s 0x9010 1 p = st then s else errRec 0x8D p st 0xFFFF 0 0 false false (cvSet 0x9010 1 p st s)

/-- PORT_TRAINED: the port is UP and is booked from the next round. -/
def portTrained (p rate width : Nat) (s : State) : State :=
  if running s && decide (p < 9) && cv s 0x9010 1 p != 2 then
    let t := cvSet 0x9010 3 p (width % 256) (cvSet 0x9010 2 p (rate % 256) (setPort p 2 s))
    { t with port := { t.port with upRound := AMap.set none t.port.upRound p (some (curRound s)) } }
  else s

/-- A port goes to `st`: its held credits are discarded, its rate and width read 0. -/
def portLost (p st : Nat) (s : State) : State :=
  let t := cvSet 0x9010 3 p 0 (cvSet 0x9010 2 p 0 (setPort p st s))
  { t with port := { t.port with upRound := AMap.set none t.port.upRound p none },
           coh := { t.coh with reqs := t.coh.reqs.filter (fun r => !(r.phase == 0 && r.agent / 16 == p)) } }
def portDown (p : Nat) (s : State) : State := if running s && decide (p < 9) && cv s 0x9010 1 p != 0 then portLost p 0 s else s
/-- LINK_RESET: DOWN, then training again; contexts keep their state. -/
def linkReset (p : Nat) (s : State) : State := if running s && decide (p < 9) then setPort p 1 (portLost p 0 s) else s

def execPowerOnReset (s : State) : Out := .next (powerOnReset s)
def execRstN (lowTicks : Nat) (s : State) : Out := .next (rstN lowTicks s)
def execLinkReset (port : Nat) (s : State) : Out := .next (linkReset port s)
def execInternalResetEnd (brdPos : Nat) (cfgPooled : Bool) (s : State) : Out := .next (internalResetEnd brdPos cfgPooled s)
def execSecStart (s : State) : Out := .next (secStart s)
def execHbmTrainingDone (failedStacks : Nat) (s : State) : Out := .next (hbmTrainingDone failedStacks s)
def execZeroFillDone (s : State) : Out := .next (zeroFillDone s)
def execTargetResetTimeout (chan target : Nat) (s : State) : Out := .next (targetTimeout chan target s)
def execFlashDiscoveryDone (found : List ChanFound) (s : State) : Out := .next (discoveryDone found s)
def execCheckpointLoaded (chan : Nat) (s : State) : Out := .next (checkpointLoaded chan s)
def execReplayDone (chan : Nat) (s : State) : Out := .next (replayDone chan s)
def execGateOpen (s : State) : Out := .next (gateOpen s)
def execPortTrained (port rate width : Nat) (s : State) : Out := .next (portTrained port rate width s)
def execPortDown (port : Nat) (s : State) : Out := .next (portDown port s)
def execThermtrip (s : State) : Out := .next (thermtrip s)
def execPowerRemoval (s : State) : Out := .next (powerRemoval s)

end Sys2Proof.Machine
end

