-- ==== Sys2Proof/Machine/Firmware.lean ====
section
/-! DEFINITION. Management firmware: components, faults and recovery, updates and handoff (R457-R476, R485). A component is
numbered 0 SEC, 1 PWR, 2 SCH, 3 + k CTLk. -/

namespace Sys2Proof.Machine
open Sys2Proof

def comp (s : State) (c : Nat) : Comp := AMap.get {} s.fw.comps c
def setComp (c : Nat) (x : Comp) (s : State) : State := { s with fw := { s.fw with comps := AMap.set {} s.fw.comps c x } }
/-- A component is halted: it faulted and has not been restarted (R462). -/
def halted (s : State) (c : Nat) : Bool := (comp s c).halted
def roleCode (c : Nat) : Nat := if c < 3 then c + 1 else 0x10 + (c - 3)
/-- FW_UPDATE_STATE: 0 EMPTY, 1 STAGED, 2 VERIFYING, 3 VERIFIED, 4 REJECTED, 5 HANDOFF, 6 DONE. -/
def fwState (s : State) : Nat := cv s 0xA010 3
def setFwState (v : Nat) (s : State) : State := cvSet 0xA010 3 0 v s
/-- REJECTED with a result. -/
def fwReject (result : Nat) (s : State) : State := setFwState 4 (cvSet 0xA010 4 0 result s)
def pooled (s : State) : Bool := cv s 0xA000 3 == 1
def setRole (core r : Nat) (s : State) : State := { s with fw := { s.fw with roles := setAt s.fw.roles core r } }
/-- The core that holds a role. -/
def coreOf (s : State) (r : Nat) : Nat := s.fw.roles.findIdx (· == r)
/-- The core a component runs on: in POOLED the pool's components are taken on its first POOL core (log entry 24). -/
def compCore (s : State) (c : Nat) : Nat := if c = 0 then 0 else coreOf s (if pooled s then 0x04 else roleCode c)

/-! ### Staging and verification (R467, R468, R481) -/

/-- The image of a FINAL segment of FW_STAGE. -/
def fwStageImage (img : List Byte) (s : State) : Nat × State :=
  if fwState s = 2 ∨ fwState s = 5 then (BUSY, s)
  else if 1048576 < img.length then (INVALID, s)
  else (OK, setFwState 1 { s with fw := { s.fw with stage := img } })

/-- FW_UPDATE = 1. -/
def fwVerify (s : State) : Nat × State :=
  if fwState s ≠ 1 ∨ halted s 0 then (BUSY, s)
  else (OK, setFwState 2 { s with fw := { s.fw with verifyStart := some (now s) } })

/-- FW_UPDATE = 3. -/
def fwClear (s : State) : Nat × State :=
  if [1, 3, 4, 6].contains (fwState s) && !halted s 0 then (OK, setFwState 0 { s with fw := { s.fw with stage := [] } }) else (BUSY, s)

/-- FW_UPDATE = 2 (R469); in recovery the verified image goes to slot A and the device resets (R483). -/
def fwHandoff (s : State) : Nat × State :=
  if fwState s ≠ 3 then (BUSY, s)
  else if startPhase s = 4 then
    (OK, deviceResetNow 3 { s with sec := { s.sec with slotA := .image s.fw.stage } })
  else if devicePaused s || (List.range 6).any (pendingGroup s) || (List.range 19).any (halted s) || s.fw.phase != 0 then (BUSY, s)
  else (OK, setFwState 5 { s with fw := { s.fw with phase := 1, accepted := curRound s } })

/-- FW_UPDATE. -/
def fwUpdate (v : Nat) (s : State) : Nat × State :=
  match v with
  | 1 => fwVerify s
  | 2 => fwHandoff s
  | 3 => fwClear s
  | _ => (INVALID, s)

/-- VERIFY_DONE. -/
def verifyDone (s : State) : State :=
  if fwState s ≠ 2 then s else
  let r := verifyImage s s.fw.stage (cv s 0xA000 4)
  let t := { s with fw := { s.fw with verifyStart := none } }
  if r = 1 then
    cvSet 0xA010 6 0 (leNat (sha256 s.fw.stage)) (cvSet 0xA010 5 0 (slotVersion (.image s.fw.stage)) (setFwState 3 (cvSet 0xA010 4 0 1 t)))
  else fwReject r t

/-! ### Handoff (R469-R475) -/

/-- The components a handoff moves, in order of their boundaries P0 + 1, P0 + 2, … (R471). -/
def moveOrder : List Nat := (List.range 16).map (· + 3) ++ [1, 2]
/-- The round of the boundary of the `i`-th move. -/
def moveRound (s : State) (i : Nat) : Nat := s.fw.p0 + 1 + i

/-- PREPARE_END. -/
def prepareEnd (s : State) : State :=
  if s.fw.phase = 1 ∧ curRound s < s.fw.accepted + 64 then { s with fw := { s.fw with phase := 2 } } else s

/-- PREPARE_TIMEOUT: REJECTED with FAULT, and no pause. -/
def prepareTimeout (s : State) : State :=
  if s.fw.phase = 1 ∧ s.fw.accepted + 64 ≤ curRound s then
    (if fwState s = 5 then fwReject 7 else id) { s with fw := { s.fw with phase := 0 } }
  else s

/-- ADMISSION_PAUSE_START at P0 (R471, R472); SEC restarts only in an update or when it is the one recovered. -/
def pauseStart (s : State) : State :=
  if s.fw.phase = 2 ∧ atBoundary s then
    let sec := fwState s != 5 && !s.fw.recovering.contains 0
    cvSet 0x1020 2 0 (now s + 399360) (cvSet 0x1020 1 0 1 { s with fw := { s.fw with phase := 3, p0 := curRound s, secDone := sec } })
  else s

/-- Every component but SEC that is to move has moved. -/
def allMoved (s : State) : Bool :=
  if fwState s = 5 then moveOrder.all (fun c => (comp s c).moved) else s.fw.recovering.all (· == 0)

/-- Lower ADMISSION_PAUSE_END to the reopening boundary once every component has moved and SEC has restarted (R472). -/
def lowerPause (s : State) : State :=
  if allMoved s && s.fw.secDone then cvSet 0x1020 2 0 ((max (s.fw.p0 + 19) (curRound s + 1)) * 1280) s else s

/-- Move a component onto the spare core; its old core is freed. -/
def moveCore (c : Nat) (s : State) : State :=
  if pooled s then s
  else
    let old := compCore s c
    let spare := coreOf s 0x00
    setRole spare (if cv s 0xA000 4 = 1 ∧ fwState s = 5 then 0x04 else roleCode c) (setRole old 0x00 s)

/-- COMPONENT_MOVE: the component due at this boundary moves. In a recovery it is the faulted one, restarted on the image
in effect, and its core is reset (R465, R471). -/
def componentMove (s : State) : State :=
  if s.fw.phase ≠ 3 ∨ !atBoundary s then s
  else
    let due := (moveOrder.zipIdx.filter (fun x => decide (moveRound s x.2 ≤ curRound s)
      && (if fwState s = 5 then !(comp s x.1).moved else s.fw.recovering.contains x.1))).head?
    match due with
    | none => s
    | some (c, _) =>
      if fwState s = 5 then lowerPause (setComp c { comp s c with moved := true } (moveCore c s))
      else
        let core := if pooled s then coreOf s 0xFF else coreOf s 0x00
        let faulted := coreOf s 0xFF
        let s1 := if pooled s then setRole core 0x04 s else setRole faulted 0x00 (setRole core (roleCode c) s)
        lowerPause (setComp c { comp s1 c with halted := false, missed := false, restart := some (curRound s) }
          { s1 with fw := { s1.fw with recovering := s1.fw.recovering.filter (· != c) } })

/-- SEC_RESTART, in place. -/
def secRestart (s : State) : State :=
  if s.fw.phase = 3 ∧ !s.fw.secDone then
    let s1 := { s with fw := { s.fw with secDone := true, recovering := s.fw.recovering.filter (· != 0) } }
    let s2 := if halted s 0 then setRole 0 0x01 (setComp 0 { comp s1 0 with halted := false, missed := false, restart := some (curRound s) } s1) else s1
    lowerPause s2
  else s

/-- End a pause: LAST_PAUSE_TICKS, no component marked moved; a recovery that still waits starts. -/
def endPause (s : State) : State :=
  let t := cvSet 0xA010 8 0 (now s - s.fw.p0 * 1280) (cvSet 0x1020 1 0 0 s)
  let comps := (List.range 19).foldl (fun m c => AMap.set ({} : Comp) m c { AMap.get ({} : Comp) m c with moved := false }) t.fw.comps
  { t with fw := { t.fw with comps := comps, phase := if t.fw.recovering.isEmpty then 0 else 1, accepted := curRound t } }

/-- ADMISSIONS_REOPEN (R471, R474): on the new image DONE, with FW_CONFIG as it takes it; after a rollback REJECTED. -/
def reopen (s : State) : State :=
  if !atBoundary s || now s < cv s 0x1020 2 && s.fw.phase != 4 then s
  else if s.fw.phase = 3 ∧ allMoved s ∧ s.fw.secDone ∧ s.fw.p0 + 19 ≤ curRound s then
    if fwState s = 5 then
      let next := cv s 0xA000 4
      let roles := if next = cv s 0xA000 3 then s.fw.roles else rolesOf (next == 1)
      endPause (cvAdd 0xA000 5 0 1 (cvSet 0xA000 3 0 next (setFwState 6
        { s with fw := { s.fw with inEffect := .image s.fw.stage, roles := roles }, sec := { s.sec with bootPending := true } })))
    else endPause s
  else if s.fw.phase = 4 ∧ (List.range 19).all (fun c => !(comp s c).moved) then
    endPause ((if fwState s = 5 then fwReject s.fw.rollbackCause else id) s)
  else s

/-- HANDOFF_ROLLBACK (R474): a late SCH starts it; at each boundary the last component moved returns, one a boundary. -/
def rollback (s : State) : State :=
  if !atBoundary s || fwState s != 5 then s else
  let s1 := if s.fw.phase = 3 ∧ s.fw.p0 + 280 ≤ curRound s ∧ !(comp s 2).moved then
      { s with fw := { s.fw with phase := 4, rollbackCause := 6 } } else s
  if s1.fw.phase ≠ 4 ∨ s1.fw.accepted = curRound s1 then s1 else
  match (moveOrder.filter (fun c => (comp s1 c).moved)).getLast? with
  | none => s1
  | some c =>
    let spare := coreOf s1 0x00
    let cur := if (comp s1 c).halted then coreOf s1 0xFF else compCore s1 c
    let s2 := if pooled s1 then s1 else setRole spare (roleCode c) (setRole cur 0x00 s1)
    setComp c { comp s2 c with moved := false, halted := false, missed := false }
      { s2 with fw := { s2.fw with recovering := s2.fw.recovering.filter (· != c), accepted := curRound s2 } }

/-- A boot-flash write at an address, an opportunity of SIG_STATE (R494, R502): whether it was written. `status` is the status its
failure gives a request. -/
def bootFlashWrite (addr status : Nat) (s : State) : Bool × State :=
  let i := inject 0x17 addr 0 false s
  match i.1 with
  | none => (true, i.2)
  | some (dev, contain) =>
    let failed := dev && contain
    (!failed, errRec 0x17 addr 0 0xFFFF 0 (if failed then status else 0) dev true (if failed then detect 0x17 i.2 else i.2))

/-- What SEC does after DONE (R485): the image into the slot that did not boot, the boot record not used, the rollback floor
and the revoke bits; a write that fails leaves the rest undone. It takes place at the tick after DONE (log entry 25). -/
def bootSteps (s : State) : State :=
  if !s.sec.bootPending then s else
  let img := match s.fw.inEffect with | .image b => b | _ => []
  let k := 1 - s.sec.bootSlot
  let done := fun (t : State) => { t with sec := { t.sec with bootPending := false } }
  let w := bootFlashWrite (0x00100000 * (k + 1)) 0 s
  if !w.1 then done w.2
  else
    let s1 := { w.2 with sec := if k = 0 then { w.2.sec with slotA := Slot.image img } else { w.2.sec with slotB := Slot.image img } }
    let cur := bootRecord s
    let seq := (match cur with | some (_, q, _) => q + 1 | none => 1) % 2 ^ 32
    let put := match cur with | some (0, _) => 1 | some _ => 0 | none => 0
    let v := bootFlashWrite (0x8000 * put) 0 s1
    if !v.1 then done v.2
    else
      let x := v.2.sec
      let y := if put = 0 then { x with rec0 := some (seq, k) } else { x with rec1 := some (seq, k) }
      done { v.2 with sec := { y with floor := max y.floor (min 63 (leNat (slice img 15 1))), revoked := y.revoked ||| leNat (slice img 22 1) % 16 } }

/-! ### Component faults (R462-R465) -/

/-- A component fault: the core halts. A second one within 64 rounds of its restart leaves it HALTED for good; during a
handoff it starts a rollback; else a recovery handoff begins (R462, R465, R474). -/
def compFault (c : Nat) (s : State) : State :=
  let x := comp s c
  let core := compCore s c
  let s1 := setRole core 0xFF (setComp c { x with halted := true, fault := some (curRound s) } s)
  if x.restart.any (fun r => decide (curRound s ≤ r + 64)) then setPhase 5 s1
  else
    let s2 := cvAdd 0xA000 6 0 1 { s1 with fw := { s1.fw with recovering := dedup (s1.fw.recovering ++ [c]) } }
    if fwState s = 5 then
      if s.fw.phase = 3 then { s2 with fw := { s2.fw with phase := 4, rollbackCause := 7 } }
      else fwReject 7 { s2 with fw := { s2.fw with phase := 1, accepted := curRound s } }
    else if s.fw.phase = 0 then { s2 with fw := { s2.fw with phase := 1, accepted := curRound s } }
    else if s.fw.phase = 3 ∧ c = 0 then { s2 with fw := { s2.fw with secDone := false } }
    else s2

/-- What a missed deadline does to its component: WATCHDOG_MISSES rises and it faults. -/
def compMissed (c : Nat) (s : State) : State :=
  let t := compFault c (cvAdd 0xA020 1 0 1 s)
  setComp c { comp t c with missed := true } t
/-- WATCHDOG: a missed deadline. -/
def watchdog (c : Nat) (s : State) : State :=
  if !running s || 19 ≤ c || halted s c then s
  else compMissed c (detectRec 0x10 (roleCode c) (curRound s) 0xFFFF 0 0 false s)

/-- FW_PROTECTION: a refused access, an illegal instruction or a double exception. -/
def fwProtection (c addr : Nat) (s : State) : State :=
  if !running s || 19 ≤ c || halted s c then s
  else compFault c (detectRec 0x11 (roleCode c) (addr % 2 ^ 32) 0xFFFF 0 0 false s)

def execVerifyDone (s : State) : Out := .next (verifyDone s)
def execPrepareEnd (s : State) : Out := .next (prepareEnd s)
def execPrepareTimeout (s : State) : Out := .next (prepareTimeout s)
def execAdmissionPauseStart (s : State) : Out := .next (pauseStart s)
def execComponentMove (s : State) : Out := .next (componentMove s)
def execSecRestart (s : State) : Out := .next (secRestart s)
def execAdmissionsReopen (s : State) : Out := .next (reopen s)
def execHandoffRollback (s : State) : Out := .next (rollback s)
def execWatchdog (component : Nat) (s : State) : Out := .next (watchdog component s)
def execFwProtection (component addr : Nat) (s : State) : Out := .next (fwProtection component addr s)

end Sys2Proof.Machine
end

