-- ==== Sys2Proof/Machine/CatRead.lean ====
section
/-! DEFINITION. What a catalogue entry reads as (R434, R443, R452): stored values, and the values the device computes. -/

namespace Sys2Proof.Machine
open Sys2Proof

/-! ### Addresses (R432, R433) -/

/-- The entries of an index; 0xB100 + d takes the injection rows (R509). -/
def catRows? (idx : Nat) : Option (List CatRow) :=
  let i := if 0xB100 ≤ idx ∧ idx ≤ 0xB117 then 0xB1FF else if idx = 0xB1FF then 0x10000 else idx
  (catTable.find? (fun e => e.1 == i)).map (·.2)

/-- A detector can be armed for a stall (R494, R498). -/
def stallScope (d : Nat) : Bool := !(List.contains [0x01, 0x03, 0x10, 0x11, 0x12, 0x13, 0x14, 0x17] d)

/-- An instance lies in the range of its kind (R432). -/
def instOk (idx sub kind inst : Nat) : Bool :=
  match kind with
  | 0 => inst == 0
  | 1 | 4 | 7 => decide (inst < if kind = 4 then 65536 else 256)
  | 2 => decide (inst < 65536)
  | 3 => decide (inst < 4096)
  | 5 => decide (inst < 16384)
  | 6 => decide (inst < 128)
  | 8 => decide (inst < 32)
  | 9 => decide (inst < 64)
  | 10 => decide (inst < if idx = 0x9010 ∧ (sub = 4 ∨ sub = 5) then 8 else 9)
  | 11 => inst == 2 || inst == 3
  | 12 => inst == 0 || (decide (inst < 256) && stallScope (idx - 0xB100))
  | _ => false

/-- The entry at an assigned address; subindex 0 is a U8 of its own (R433). -/
def entryOf (idx sub inst : Nat) : Option CatRow :=
  if sub = 0 then
    match catRows? idx with
    | some rs => if inst = 0 then some ⟨0, "", 0, 1, 0, 0, maxOf (rs.map (·.sub)), 0, 0, 0, 1, 0, 255⟩ else none
    | none => none
  else
    match catRow? idx sub with
    | some r => if instOk idx sub r.inst inst then some r else none
    | none => none

/-! ### Computed values -/

/-- R87. -/
def assignedUj (s : State) : Nat := sumOf ((List.range 256).map (fun st => cv s 0x2010 1 st + cv s 0x2010 3 st))
/-- R399: the stalls that hold a slot group of a link, seven positions a cycle. -/
def controlCycleOf (share : Nat → Nat) (l : Nat) : Nat :=
  4 * cdiv ((List.range 256).filter (fun st => share st / 2 ^ (128 * (200 + l)) % 2 ^ 128 != 0)).length 7
def controlCycle (s : State) (l : Nat) : Nat := controlCycleOf (fun st => cv s 0x3010 1 st) l

/-- One row of CAL_OCCUPANCY (R85): slots booked in calendar `cal` in round `r`. -/
def occupancy (s : State) (st cal r : Nat) : Nat :=
  if 131 ≤ cal then (if cal = calPurse st then chitIn s st r else 0)
  else
    let bs := s.gate.books.filter (fun b => b.stall == st && b.cal == cal && b.dir == 0 && b.round == r)
    (dedup (bs.flatMap (·.slots))).length + sumOf ((bs.filter (fun b => b.slots.isEmpty)).map (·.count)) + standingNeed s st cal
def calOccupancy (s : State) (st : Nat) : List Byte :=
  (List.range 387).flatMap (fun c => (List.range 256).flatMap (fun i => leBytes 2 (occupancy s st c (curRound s + i))))

/-- Rows 1 to 9 of CAL_OCCUPANCY_AUX: the inbound half of a port, with the intake of R52. -/
def inboundUse (s : State) (st p r : Nat) : Nat :=
  let bs := s.gate.books.filter (fun b => b.stall == st && b.cal == calPort p && b.dir == 1 && b.round == r)
  (dedup (bs.flatMap (·.slots))).length + sumOf ((bs.filter (fun b => b.slots.isEmpty)).map (·.count))
    + cdiv (64 * AMap.get 0 s.gate.inbound ((r * 16 + p) * 256 + st)) (if p = 8 then 800 else 1600) + standingNeed s st (calPort p)
def calOccupancyAux (s : State) (st : Nat) : List Byte :=
  (List.range 10).flatMap (fun c => (List.range 256).flatMap (fun i =>
    let r := curRound s + i
    leBytes 2 (if c = 0 then floatIn s st r + standingFloat s st else inboundUse s st (c - 1) r)))

/-- The banks of a stall in a cluster. -/
def banksIn (s : State) (st k : Nat) : List Nat := (List.range 8).flatMap (fun c => spadList s st k c) ++ storeList s st k
/-- BANK_POWER and BANK_POWER_NOW (R269): banks outside the map read 0, a bank that is not ready yet reads 3. -/
def bankPowers (s : State) (st : Nat) (effect : Bool) : Nat :=
  sumOf ((List.range 16).flatMap (fun k => (banksIn s st k).map (fun i =>
    let w := bankPower s st k i
    (if effect && w == 0 && decide (now s < bankReadyAt s k i) then 3 else w) * 2 ^ powerBit k i)))

/-- A list page lies in a run that a directory slot references. -/
def listPagesFree (s : State) (u : Nat) : Nat :=
  let runs := dedup (((List.range 2).filter (fun k => ((collOf s u).slots.getD k (0, 0, 0)).1 != 0)).flatMap (fun k =>
    ((List.range (cN s u)).map (fun n => let d := dirRow s u k n; (d.first, d.pages))).filter (fun x => x.2 != 0)))
  ((List.range (listPages s u)).filter (fun q => !runs.any (fun x => decide (x.1 ≤ q) && decide (q < x.1 + x.2)))).length

/-- STAGED_DIFFERS (R446). -/
def stagedDiffers (s : State) (g : Nat) : Nat :=
  (s.cat.shadow.filter (fun e => match catRow? (keyIdx e.1) (keySub e.1) with | some r => r.grp == g | none => false)).length

/-- The frames of a SWEEPING extent not yet swept (R27): those of the booked rounds left. With no sweep booked, after a reset
(R40), a backed extent has all of them left, and a pinned one until the zero-fill has cleared it. -/
def unswept (s : State) (e : Nat) (r : ExtRec) : Nat :=
  let left := fun (x : Nat) => decide (curRound s < x) || (x == curRound s && s.gate.books.any (fun b => b.rid == sweepRid e && b.round == x
    && b.slots.any (fun k => decide (now s < slotEndTick (x * 1024 + k)))))
  if r.sweep.isEmpty then (if r.backed || !s.clk.zeroFillDone then 16384 else 0)
  else (r.sweep.filter left).length * if r.backed then 2048 else 128
/-- An extent's record as read (R27): in SWEEPING, DRAIN holds the frames not yet swept. -/
def extentWord (s : State) (e : Nat) (r : ExtRec) : Nat := extentBits e (if r.state = 3 then { r with drain := unswept s e r } else r)

/-- The value of an entry that is a number; none for one the device gives no formula for, whose stored value it is. -/
def computed (s : State) (idx sub inst : Nat) : Option Nat :=
  match idx, sub with
  | 0x0040, 3 => some s.clk.brdPos
  | 0x1000, 1 => some (now s)
  | 0x1000, 2 => some (curRound s)
  | 0x1001, 8 => some (300 + 2 * transitMax s)
  | 0x1010, 2 => some (trackInUse s inst)
  | 0x1010, 7 => some ((minOf ((s.gate.pauses.filter (fun p => p.stall == inst && decide (now s ≤ p.start))).map (·.start))).getD 0)
  | 0x1030, 3 => some (confirmHold s)
  | 0x2000, 2 => some (roundBudget (cv s 0x2000 1))
  | 0x2000, 4 => some (roundBudget (cv s 0x2000 1) - cv s 0x2000 3)
  | 0x2000, 5 => some (assignedUj s)
  | 0x2010, 4 => some (unsext 64 (balanceOf s inst))
  | 0x2030, 5 => some oppTable
  | 0x3041, 2 => some ((pactsInForce s).filter (fun p => cv s 0x3040 2 p == inst || cv s 0x3040 3 p == inst)).length
  | 0x4011, 1 => some (extCount s inst)
  | 0x4012, 1 => some (drainsActive s)
  | 0x4020, 3 => some (versionWord (regionOf s inst))
  | 0x4020, 4 => some (regionSlotBits (regionOf s inst))
  | 0x4030, 2 => some (usableFrames s inst)
  | 0x4030, 3 => some (framesOf s inst).length
  | 0x4030, 4 => some ((framesOf s inst).filter (fun e => e.2.state == 2)).length
  | 0x4030, 5 => some ((framesOf s inst).filter (fun e => holdCount s e.1 != 0)).length
  | 0x4030, 8 => some (s.mem.lost.filter (fun f => (extRec s (f / 16384)).state != 0 && (extRec s (f / 16384)).stall == inst)).length
  | 0x4040, 2 => some (backedCapacity s)
  | 0x4040, 3 => some (backedGranted s)
  | 0x4040, 4 => some (sumInsts s 0x4041 2)
  | 0x4041, 4 => some (maxOf ((s.store.blocks.filter (fun e => e.1 / 2 ^ 26 == inst && e.2.state != 2)).map (·.2.erases)))
  | 0x4050, 2 => some (hbmUsable s)
  | 0x4050, 5 => some (hbmUnreserved s)
  | 0x4050, 6 => some (pinnedAvailable s)
  | 0x5001, 3 => some (s.coh.dir.filter (fun e => match e.2 with | some d => d.stall == inst | none => false)).length
  | 0x5003, 1 => some (cv s 0x3015 1 inst / 256)
  | 0x5003, 5 => some (biBound s + 160)
  | 0x5010, 2 => some (if portUp s (inst / 16) && decide (inst % 16 < cv s 0x9010 4 (inst / 16)) then 1 else 0)
  | 0x5010, 4 => some (agentLines s inst)
  | 0x5101, 4 => some (biBound s + 200)
  | 0x5800, 5 => some (prewalkLead s)
  | 0x5841, 3 => some (s.xl.tlbs.filter (fun t => t.stall == inst && t.cluster.isNone && tlbHeld s t)).length
  | 0x6010, 1 => some (bankPowers s inst false)
  | 0x6010, 2 => some (bankPowers s inst true)
  | 0x6030, 3 => some s.fab.runB.cycleLen
  | 0x6030, 4 => some s.fab.nextB.cycleLen
  | 0x7100, 6 => some (tableVersionWord (tableOf s inst))
  | 0x7100, 7 => some (tableSlotBits (tableOf s inst))
  | 0x7100, 8 => let t := tableOf s inst; some (if t.valid then slotRows t (t.version % 4) else 0)
  | 0x7200, 1 => some (rowcacheLines s inst)
  | 0x7900, 18 => let c := collOf s inst; some (c.slots.getD c.cur (0, 0, 0)).1
  | 0x7900, 19 => some (dirSlotBits (collOf s inst))
  | 0x7900, 20 => some (if cActive s inst then listPagesMax s inst else 0)
  | 0x7900, 21 => some (sideRecords s inst)
  | 0x7900, 22 => some (sideListMax s inst)
  | 0x7900, 23 => some (if cActive s inst then sideBlocksFree s inst else 0)
  | 0x7900, 24 => some (if cActive s inst then listPagesFree s inst else 0)
  | 0x7900, 27 => some (collOf s inst).restock
  | 0x7900, 29 => some (collOf s inst).retireQ.length
  | 0x8110, 4 => some (controlCycle s inst)
  | 0x9020, 1 => some s.port.i3cDyn
  | 0x9020, 3 => some s.port.eid
  | 0x9100, 10 => some (if (ctxOf s inst).state = 0 then 0 else 1)
  | 0xA000, 1 => some (slotVersion s.fw.inEffect)
  | 0xA000, 2 => some (leNat (slotDigest s.fw.inEffect))
  | 0xA001, 1 => some (leNat (s.fw.roles.map (BitVec.ofNat 8)))
  | 0xA100, 1 => some s.sec.lifecycle
  | 0xA100, 2 => some (leNat (sha256 Config.hssPublicKey))
  | 0xA100, 3 => some (leNat Config.hssPublicKey)
  | 0xA100, 4 => some (leNat Config.endorsement)
  | 0xA101, 1 => some s.sec.sigNext
  | 0xA101, 2 => some (1048576 - s.sec.sigNext)
  | 0xA102, 1 => some s.sec.revoked
  | 0xA102, 2 => some s.sec.floor
  | 0xA102, 3 => some s.sec.bootSlot
  | 0xA102, 4 => some s.sec.bootResult
  | 0xA102, 6 => some (if s.sec.bootPending then 1 else 0)
  | 0xA103, 1 => some (if s.sec.debugOpen || s.sec.lifecycle == 0 then 1 else 0)
  | 0xA103, 2 => some (leNat (s.sec.challenge.getD []))
  | 0xB001, 1 => some (sumOf ((List.range 24).map (fun d => AMap.get 0 s.err.detections d % 2 ^ 64 * 2 ^ (64 * d))))
  | 0xB010, 2 => some s.err.logWritten
  | 0xC000, 1 => some s.clk.resetCause
  | 0xC020, 1 => some (s.clk.brdPos + if s.clk.cfgPooled then 16 else 0)
  | 0xF004, 2 => some (stagedDiffers s inst)
  | _, _ => none

/-- The bytes of the entries of variable length, and of the two long tables of R85. -/
def longValue (s : State) (idx sub inst : Nat) : Option (List Byte) :=
  match idx, sub with
  | 0x1012, 1 => some (calOccupancy s inst)
  | 0x1012, 2 => some (calOccupancyAux s inst)
  | 0x3041, 1 => some (s.err.pactLog.flatMap (leBytes 32))
  | 0x3051, 2 => some ((AMap.get [] s.err.meterSnaps inst).flatMap (leBytes 80))
  | 0x4011, 2 => some ((s.ext.recs.filter (fun e => e.2.state != 0 && e.2.stall == inst)).flatMap (fun e => leBytes 8 (extentWord s e.1 e.2)))
  | 0xA010, 1 => some s.fw.stage
  | 0xB010, 1 => some (s.err.log.flatMap (leBytes 32))
  | 0xB011, 1 => some ((AMap.get [] s.err.stallLog inst).flatMap (leBytes 32))
  | _, _ => none

/-- The value in effect of an assigned entry, as bytes (R434). -/
def catValue (s : State) (r : CatRow) (idx inst : Nat) : List Byte :=
  if r.sub = 0 then leBytes 1 r.dflt
  else match longValue s idx r.sub inst with
    | some l => l
    | none => leBytes r.len ((computed s idx r.sub inst).getD (cv s idx r.sub inst))

/-- The shadow of a staged entry; the value in effect of any other (R439). -/
def catShadow (s : State) (r : CatRow) (idx inst : Nat) : List Byte :=
  if r.app = 3 then leBytes r.len (cvShadow s idx r.sub inst) else catValue s r idx inst

/-- The descriptor of R452. -/
def catInfo (s : State) (r : CatRow) (idx inst : Nat) : List Byte :=
  let len := if r.len = 0 then (catValue s r idx inst).length else r.len
  leBytes 16 (infoBits len r.typ r.acc r.priv r.expert r.app r.grp (if r.inst = 12 then 1 else r.inst))

end Sys2Proof.Machine
end

