-- ==== Sys2Proof/Machine/CatCheck.lean ====
section
/-! DEFINITION. The checks of a catalogue request (R435-R441): privilege, access, ranges, quiesce conditions. -/

namespace Sys2Proof.Machine
open Sys2Proof

/-! ### Privilege (R437, R438) -/

def isAdmin (s : State) : Requester → Bool
  | .i3c _ => true
  | .vdm _ => cv s 0xF011 1 == 1
  | .ctx c => ctxStall s c == 0
  | .fw _ => true

/-- The stall that owns an instance; none where no stall does. -/
def ownerOf (s : State) (kind idx inst : Nat) : Option Nat :=
  let o := match kind with
    | 1 => inst
    | 2 => cv s 0x7100 1 inst
    | 3 => cv s 0x7900 1 inst
    | 4 => cv s 0x4020 1 inst
    | 5 => ctxStall s inst
    | 6 => agentStall s inst
    | 12 => if idx < 0xB100 then 0xFFFF else inst
    | _ => 0xFFFF
  if o < 256 then some o else none

/-- A client context bound to stall `st`. -/
def actsFor (s : State) (rq : Requester) (st : Nat) : Bool :=
  match rq with | .ctx c => ctxStall s c == st && decide (st < 256) | _ => false

/-- The requester holds privilege `priv` for an instance. ADMIN never satisfies STALL_A or STALL_B. -/
def holds (s : State) (rq : Requester) (priv kind idx inst : Nat) : Bool :=
  match priv with
  | 0 => true
  | 1 => isAdmin s rq || (match ownerOf s kind idx inst with | some o => actsFor s rq o | none => false)
  | 2 => isAdmin s rq
  | 3 => match rq with | .fw _ => true | _ => false
  | 4 => actsFor s rq (cv s 0x3040 2 inst)
  | _ => actsFor s rq (cv s 0x3040 3 inst)

/-- HOST_MCTP_ADMIN is written over I3C alone. -/
def writerOk (rq : Requester) (idx sub : Nat) : Bool :=
  if idx = 0xF011 ∧ sub = 1 then (match rq with | .i3c _ => true | _ => false) else true

/-- The expert gate (R440): a level E entry of a stall, or of an object a stall owns. -/
def expertOk (s : State) (r : CatRow) (idx inst : Nat) : Bool :=
  if r.expert = 0 then true
  else
    let o := if r.inst = 7 then (if r.sub = 6 then some (cv s 0x3040 2 inst) else if r.sub = 7 then some (cv s 0x3040 3 inst) else none)
      else if r.inst = 12 ∧ inst = 0 then none else ownerOf s r.inst idx inst
    match o with | some st => expert s st | none => true

/-! ### Values (R5, R6, R441 check 5) -/

def isRingSize (n : Nat) : Bool := n == 0 || (List.range 11).any (fun i => n == 64 * 2 ^ i)
def stallOrNone (v : Nat) : Bool := decide (v < 256) || v == 0xFFFF

/-- INJECT_ARM (R499). -/
def armOk (v : Nat) : Bool :=
  let mode := armMode v
  if mode = 0 then v == 0
  else (mode == 1 || mode == 2) && bits v 7 4 == 0 && decide (bits v 15 8 ≤ 1) && bits v 63 16 == 0 && bits v 127 96 != 0
    && (mode == 2 || bits v 95 64 == 0)

/-- The value of an entry lies in the range its chapter states. -/
def rangeOk (s : State) (r : CatRow) (idx inst v : Nat) : Bool :=
  let own := fun (t : Nat) => ownsTally s inst t
  let plain := if r.typ = 11 ∨ r.typ = 12 then true else decide (r.lo ≤ v) && decide (v ≤ r.hi)
  plain && (match idx, r.sub with
  | 0x3012, 1 => (List.range 16).all (fun k => let w := v / 2 ^ (640 * k); bits w 639 544 == 0 && bits w 159 144 == 0)
  | 0x3030, 1 | 0x3040, 2 | 0x3040, 3 | 0x4020, 1 | 0x5010, 1 | 0x7100, 1 | 0x7900, 1 => stallOrNone v
  | 0x4020, 2 => v % 4096 == 0
  | 0x5810, 3 => v % 4096 == 0
  | 0x5810, 5 => (List.range 64).all (fun i => let w := bits v (16 * i + 15) (16 * i); decide (w ≤ 16383) || w == 0xFFFF)
  | 0x5820, 2 | 0x5830, 2 | 0x9100, 3 | 0x9100, 5 | 0x9200, 2 => isRingSize v
  | 0x5820, 3 | 0x5820, 4 | 0x5830, 3 | 0x5830, 4 | 0x9200, 3 | 0x9200, 4 => own v
  | 0x6010, 1 => (List.range 6144).all (fun i => v / 4 ^ i % 4 != 3)
  | 0x7100, 3 => knownFmt v
  | 0x7100, 4 => v % 8 == 0
  | 0x8120, 1 => (List.range 16384).all (fun i => let w := v / 256 ^ i % 256; bits w 6 5 == 0 && (decide (w % 32 ≤ 16) || w % 32 == 31))
  | 0x9100, 1 => decide (v ≤ 128) || v == 255
  | 0xF003, 1 => v == 2 || v == 3
  | 0xF001, 1 => v % 256 == 2 || v % 256 == 3
  | 0x3040, 5 => if cv s 0x3040 1 inst = 1 then decide (1 ≤ v) && decide (v ≤ 1024) else v == 0
  | 0x4010, 1 => bits v 21 20 == 0 && !bit v 23 && bits v 63 32 == 0
  | i, 1 => if 0xB100 ≤ i ∧ i ≤ 0xB117 then armOk v else true
  | _, _ => true)

/-! ### Quiesce conditions (R442, check 6) -/

/-- The context holds no tracking entry. -/
def ctxIdle (s : State) (c : Nat) : Bool := s.gate.reqs.all (fun q => q.ctx != c || q.peerTicket.isSome)

def xferVirtual (x : Xfer) : Bool := x.vSrc || x.vDst
/-- An accepted command has a virtual operand. -/
def workVirtual (s : State) : Work → Bool
  | .gather d => d.vBag || d.vIndex || d.vWeight || d.vOut
  | .segment d => (operandsOf s d).any (fun o => o.kind == 1)
  | .xfer x => xferVirtual x
  | .side _ _ _ _ _ _ virt => virt
  | _ => false

/-- An accepted RUN_SEGMENT holds a booked round (R443). -/
def segmentBooked (s : State) : Bool :=
  s.gate.reqs.any (fun q => q.cmds.zipIdx.any (fun (c, i) => match c.work with
    | .segment _ => s.gate.books.any (fun b => b.rid == q.rid && b.cmd == i && decide (72 ≤ b.cal) && decide (b.cal < 88) && decide (curRound s ≤ b.round))
    | _ => false))

/-- A booked set-switch window that names a table (R341). -/
def windowNames (s : State) (t : Nat) : Bool :=
  s.gate.reqs.any (fun q => q.cmds.any (fun c => match c.work with
    | .setSwitch _ n _ _ list => c.status.isNone && (listEntries s list n).any (fun x => x.1 == t)
    | _ => false))

/-- The entry's quiesce condition holds for a write of `v`. -/
def quiesced (s : State) (idx sub inst v : Nat) : Bool :=
  match idx with
  | 0x1030 => s.gate.joints.isEmpty
  | 0x3030 => ctxIdle s inst
  | 0x3040 => decide (cv s 0x3040 8 inst ≤ 1)
  | 0x4001 | 0x4002 => s.ext.recs.all (fun e => e.2.state == 0)
  | 0x4040 => if sub = 1 then s.ext.recs.all (fun e => e.2.state == 0 || !e.2.backed) else true
  | 0x4020 => (regionOf s inst).slots.all (fun x => x.2.2 == 0)
  | 0x5002 => s.coh.snps.isEmpty && (decide (v ≤ biBound s) || !segmentBooked s)
  | 0x5800 => s.xl.ats.isEmpty && s.xl.walks.all (fun w => cv s 0x5810 1 w.ctx != 2 || w.done)
  | 0x5810 => ctxIdle s inst && s.xl.tlbs.all (fun t => t.ctx != inst || !tlbHeld s t)
      && !(sub == 6 && ctxPort s inst == 128 && (ctxOf s inst).state != 0)
  | 0x5820 | 0x5830 =>
      s.gate.reqs.all (fun q => q.stall != inst || q.cmds.all (fun c => !workVirtual s c.work)) && cv s 0x5840 3 inst == 0
      && s.xl.iq.all (fun e => e.stall != inst || !e.queue)
  | 0x7100 => (tableOf s inst).slots.all (fun x => x.2.2.2 == 0) && !windowNames s inst
  | 0x7900 => !cActive s inst
  | 0x8120 => s.gate.joints.isEmpty
  | 0x9000 => s.ctxs.all (fun e => e.2.state != 1 || ctxPort s e.1 != 128)
  | 0x9010 => if sub = 4 then (storedInsts s 0x5010 1).all (fun e => e.1 / 16 != inst || decide (255 < e.2))
              else s.coh.reqs.all (fun r => r.agent / 16 != inst || r.phase != 0)
  | 0x9020 => s.port.i3cDyn == 0
  | 0x9100 => (ctxOf s inst).state == 0
  | 0xA010 => fwState s != 2 && fwState s != 5
  | _ => true

/-! ### The checks in order (R441) -/

/-- A catalogue request as either transport carries it. -/
structure CatReq where
  rq : Requester
  idx : Nat
  sub : Nat
  inst : Nat
  off : Nat
  len : Nat
  flags : Nat
  deriving DecidableEq, Repr

def CatReq.shadow (q : CatReq) : Bool := bit q.flags 0
def CatReq.final (q : CatReq) : Bool := bit q.flags 1
def CatReq.snap (q : CatReq) : Bool := bit q.flags 2
def CatReq.key (q : CatReq) : Nat := catKey q.idx q.sub q.inst

/-- Whole-value types name offset 0 and the full length (R435). -/
def isBlob (r : CatRow) : Bool := r.typ == 10 || r.typ == 11

/-- Checks 1 to 4 of a read: the entry, or the status. -/
def readCheck (s : State) (q : CatReq) (maxLen : Nat) : CatRow ⊕ Nat :=
  match entryOf q.idx q.sub q.inst with
  | none => .inr INVALID
  | some r =>
    if 8 ≤ q.flags ∨ maxLen < q.len then .inr INVALID
    else if !holds s q.rq r.priv r.inst q.idx q.inst then .inr PROTECTION
    else if r.acc = 2 then .inr PROTECTION
    else if !isBlob r && !(q.off == 0 && q.len == r.len) then .inr INVALID
    else .inl r

/-- Checks 1 to 4 of a write or a segment: the entry, or the status and whether the check counts as a refused write
(check 2 or later). -/
def writeCheck (s : State) (q : CatReq) (maxLen : Nat) : CatRow ⊕ (Nat × Bool) :=
  match entryOf q.idx q.sub q.inst with
  | none => .inr (INVALID, false)
  | some r =>
    if 8 ≤ q.flags ∨ maxLen < q.len then .inr (INVALID, false)
    else if !holds s q.rq r.priv r.inst q.idx q.inst || !writerOk q.rq q.idx q.sub then .inr (PROTECTION, true)
    else if r.acc = 0 ∨ !expertOk s r q.idx q.inst then .inr (PROTECTION, true)
    else if isBlob r then (if q.off + q.len ≤ (if r.len = 0 then 1048576 else r.len) then .inl r else .inr (INVALID, true))
    else if q.off = 0 ∧ q.len = r.len then .inl r else .inr (INVALID, true)

/-- Where the device serves no catalogue request of this kind (R464, R473, R483, R516-R518): no response (`none`), or the
status it answers. `some none`: the request is decided. A request of no context is ordered as stall 0's, so none is decided
after another stall's decision of the same tick (R444). -/
def served (s : State) (rq : Requester) (idx : Nat) (write : Bool) : Option (Option Nat) :=
  let inBand := match rq with | .ctx _ => true | _ => false
  let phase := startPhase s
  if !running s || halted s 1 || (!inBand && s.gate.lastDecision.any (fun e => e.2 == some (now s) && e.1 != 0)) then none
  else if phase = 4 ∨ (phase = 1 ∧ cv s 0xC030 6 ≠ 0) then
    match rq with
    | .i3c _ => some (if idx ≤ 0x0FFF ∨ idx = 0xA010 ∨ (0xA100 ≤ idx ∧ idx ≤ 0xA103) then none else some BUSY)
    | _ => none
  else if phase < 2 then none
  else if !gateOpened s then (if inBand then none else some (if write then some BUSY else none))
  else if devicePaused s && (write || inBand) then some (some REFUSED_PAUSED)
  else some none

end Sys2Proof.Machine
end

