-- ==== Sys2Proof/Machine/CatWrite.lean ====
section
/-! DEFINITION. What a catalogue write does once it has passed checks 1 to 6 of R441: the entries' own checks and
effects, and the apply classes (R442). -/

namespace Sys2Proof.Machine
open Sys2Proof

/-- A staged write: the shadow, and the group's serial (R446). -/
def stageWrite (g idx sub inst v : Nat) (s : State) : State :=
  let s1 := { s with cat := { s.cat with shadow := AMap.set none s.cat.shadow (catKey idx sub inst) (if v = cv s idx sub inst then none else some v) } }
  cvSet 0xF004 1 g ((cv s 0xF004 1 g + 1) % 2 ^ 32) s1

/-- A class B write waits for the boundary; the last of a round stands (R442). -/
def deferWrite (idx sub inst v : Nat) (s : State) : State :=
  { s with cat := { s.cat with pendB := AMap.set none s.cat.pendB (catKey idx sub inst) (some v) } }

/-- The effect of an apply class. -/
def applyWrite (r : CatRow) (idx inst v : Nat) (s : State) : State :=
  match r.app with
  | 1 => deferWrite idx r.sub inst v s
  | 3 => stageWrite r.grp idx r.sub inst v s
  | _ => cvSet idx r.sub inst v s

/-! ### Own checks (check 7) -/

/-- The shares hold a standing booking in every round of the horizon (R63): the slots of the share that no booking holds. -/
def standingHolds (s : State) (st lines misses : Nat) : Bool :=
  ((List.range 72).map id ++ (standingPorts s st).map calPort).all (fun cal =>
    let n := standingNeedOf s st cal lines misses
    let own := maskSlots (shareMask s st (calChunk cal))
    n == 0 || (List.range 257).all (fun i =>
      [0, 1].all (fun dir =>
        let r := curRound s + 1 + i
        decide (n + ((bookedIn s cal dir r).filter (fun k => own.contains k)).length + unplaced s st cal dir r ≤ own.length))))

/-- LOAD_LINES_PER_ROUND and LOAD_MISSES_PER_ROUND (R63, R93). A stall whose agents still hold lines keeps its lines. -/
def loadWrite (sub st v : Nat) (s : State) : Nat × State :=
  let lines := if sub = 3 then v else cvNext s 0x1040 3 st
  let misses := if sub = 4 then v else cvNext s 0x1040 4 st
  if sub = 3 ∧ v = 0 ∧ (agentsOf s st).any (fun a => agentLines s a != 0) then (BUSY, s)
  else if !standingHolds s st lines (if lines = 0 then 0 else misses) then (REFUSED_CALENDAR, s)
  else if (s.gate.energy.filter (fun e => !e.chit && e.stall == st && decide (curRound s < e.round))).any
        (fun e => decide (cvMin s 2 0x2010 3 st < floatIn s st e.round + standingFloatOf s lines)) ∨
      cvMin s 2 0x2010 3 st < standingFloatOf s lines then (REFUSED_PURSE, s)
  else (OK, deferWrite 0x1040 sub st v s)

/-- TRACK_QUOTA (R57). -/
def quotaWrite (st v : Nat) (s : State) : Nat × State :=
  if 2097152 < sumOf ((List.range 256).map (fun x => if x = st then v else cv s 0x1010 1 x)) then (INVALID, s)
  else (OK, cvSet 0x1010 1 st v s)

/-- A bank of BANK_POWER that a write takes to RET or OFF and that a part of the stall with booked rounds uses (R269):
the banks of the clusters its segments and gathers occupy (log entry 26). -/
def namedClusters (s : State) (st : Nat) : List Nat :=
  dedup ((s.gate.reqs.filter (fun q => q.stall == st)).flatMap (fun q => q.cmds.zipIdx.flatMap (fun (c, i) => match c.work with
    | .segment _ => (s.gate.books.filter (fun b => b.rid == q.rid && b.cmd == i && decide (72 ≤ b.cal) && decide (b.cal < 88) && decide (curRound s ≤ b.round))).map (fun b => b.cal - 72)
    | .gather d => if d.outSpace = 1 ∧ c.status.isNone then selClusters d else []
    | _ => [])))

def bankPowerWrite (st v : Nat) (s : State) : Nat × State :=
  if (namedClusters s st).any (fun k => (banksIn s st k).any (fun i => bits v (powerBit k i + 1) (powerBit k i) != 0 && bankPower s st k i == 0)) then (BUSY, s)
  else (OK, deferWrite 0x6010 1 st v s)

/-- TRANSIT_BOUND (R400). -/
def transitWrite (l v : Nat) (s : State) : Nat × State :=
  if v < controlCycle s l + cv s 0x8110 3 l + 4 then (INVALID, s) else (OK, cvSet 0x1030 1 l v s)

/-- CONTEXT_STALL (R119): a stall named is ACTIVE. -/
def contextStall (c v : Nat) (s : State) : Nat × State :=
  if v < 256 ∧ stallState s v ≠ 1 then (INVALID, s) else (OK, cvSet 0x3030 1 c v s)

/-- A pact's kind, giver, taker and limit are written: it is complete (R131, R136). -/
def pactComplete (s : State) (p : Nat) : Bool :=
  cv s 0x3040 1 p != 0 && decide (cv s 0x3040 2 p < 256) && decide (cv s 0x3040 3 p < 256)
  && (if cv s 0x3040 1 p = 1 then decide (1 ≤ cv s 0x3040 5 p) else cv s 0x3040 5 p == 0)
/-- A pact's kind, stalls, object and limit (R131): once complete the pact is PROPOSED; a later write clears consents given
before it (DESIGN CHOICE, log entry 112). Kind 0 clears the pact. -/
def pactWrite (sub p v : Nat) (s : State) : Nat × State :=
  if (sub = 2 ∨ sub = 3) ∧ v < 256 ∧ v = cv s 0x3040 (5 - sub) p then (INVALID, s)
  else
    let t := cvSet 0x3040 sub p v s
    if sub = 1 ∧ v = 0 then (OK, dropInst 7 p (if cv s 0x3040 8 p = 0 then t else setPact p 0 s))
    else
      let u := cvClear 0x3040 6 p (cvClear 0x3040 7 p t)
      (OK, if cv s 0x3040 8 p = 1 then u else if pactComplete u p then setPact p 1 u else u)

/-- TABLE_OWNER and TABLE_SET (R341). -/
def tableOwner (t owner : Nat) (s : State) : Nat × State := (OK, resetTable t owner s)
def tableSetWrite (t v : Nat) (s : State) : Nat × State :=
  let o := cv s 0x7100 1 t
  if v ≠ 0 ∧ 64 ≤ ((storedInsts s 0x7100 5).filter (fun e => e.2 == v && e.1 != t && cv s 0x7100 1 e.1 == o)).length then (INVALID, s)
  else (OK, cvSet 0x7100 5 t v s)

/-- COLL_OWNER (R375). -/
def collOwner (u owner : Nat) (s : State) : Nat × State := (OK, resetColl u owner s)

/-- CONTEXT_ENABLE (R415). A context that is not DISABLED stays as it is. -/
def contextEnable (c : Nat) (s : State) : Nat × State :=
  let x := ctxOf s c
  let st := ctxStall s c
  let port := ctxPort s c
  let n := cv s 0x9100 3 c
  let m := cv s 0x9100 5 c
  let a := cv s 0x9100 2 c
  let b := cv s 0x9100 4 c
  if x.state ≠ 0 then (OK, s)
  else if 255 < st ∨ port = 255 ∨ n = 0 ∨ m = 0 ∨ a % (64 * n) ≠ 0 ∨ b % (32 * m) ≠ 0
    ∨ (port < 128 ∧ !(pinnedRange s st a (64 * n) && pinnedRange s st b (32 * m)))
    ∨ (port = 128 ∧ s.ctxs.any (fun e => e.1 != c && e.2.state != 0 && ctxPort s e.1 == 128 && cv s 0x5810 6 e.1 == cv s 0x5810 6 c)) then (INVALID, s)
  else (OK, setCtx c { state := 1 } s)

/-- A write of 0: BUSY while a tracking entry or a reserved ring slot is held; entries not taken are discarded. -/
def contextDisable (c : Nat) (s : State) : Nat × State :=
  let x := ctxOf s c
  if !ctxIdle s c || x.reserved != 0 then (BUSY, s) else (OK, if x.state = 0 then s else setCtx c { x with state := 0 } s)

/-- INJECT_ARM (R499, R505): a write replaces the arm and restarts its count. -/
def injectArm (d inst v : Nat) (s : State) : Nat × State :=
  if armMode v ≠ 0 ∧ cv s 0xB020 1 = 0 then (PROTECTION, s)
  else (OK, cvSet (0xB100 + d) 1 inst v { s with err := { s.err with armCount := AMap.set 0 s.err.armCount (d * 256 + inst) 0 } })

/-- INJECTION_ALLOWED (R505): 0 disarms every point. -/
def injectionAllowed (v : Nat) (s : State) : Nat × State :=
  let t := cvSet 0xB020 1 0 v s
  (OK, if v = 0 then
    { t with cat := { t.cat with vals := t.cat.vals.map (fun e =>
        if 0xB100 ≤ keyIdx e.1 ∧ keyIdx e.1 ≤ 0xB117 ∧ keySub e.1 = 1 then (e.1, e.2.map (fun a => a - armMode a)) else e) } }
    else t)

/-- OPP_CEILING (R108). -/
def oppCeilingWrite (v : Nat) (s : State) : Nat × State :=
  if ceilingBusy s v then (BUSY, s) else (OK, deferWrite 0x2030 2 0 v s)

/-! ### COMMIT and DISCARD (R447, R450) -/

def commitWrite (v : Nat) (s : State) : Nat × State :=
  let g := v % 256
  if v / 256 % 2 ^ 24 ≠ cv s 0xF004 1 g % 2 ^ 24 then (CONFLICT_VERSION, s)
  else if pendingGroup s g || (AMap.get none s.cat.accepted g).isSome then (BUSY, s)
  else (OK, { s with cat := { s.cat with accepted := AMap.set none s.cat.accepted g (some (now s)) } })

/-- The entries of a staged group. -/
def inGroup (g k : Nat) : Bool := match catRow? (keyIdx k) (keySub k) with | some r => r.app == 3 && r.grp == g | none => false

def discardWrite (g : Nat) (s : State) : Nat × State :=
  if pendingGroup s g then (BUSY, s)
  else (OK, cvSet 0xF004 1 g ((cv s 0xF004 1 g + 1) % 2 ^ 32)
    { s with cat := { s.cat with shadow := AMap.keep (fun k _ => !inGroup g k) s.cat.shadow } })

/-! ### The write -/

/-- Check 7 and the effect of a value that passed checks 1 to 6. -/
def writeValue (r : CatRow) (idx inst v : Nat) (bytes : List Byte) (s : State) : Nat × State :=
  match idx, r.sub with
  | 0x1010, 1 => quotaWrite inst v s
  | 0x1030, 1 => transitWrite inst v s
  | 0x1040, 3 => loadWrite 3 inst v s
  | 0x1040, 4 => loadWrite 4 inst v s
  | 0x2030, 2 => oppCeilingWrite v s
  | 0x3000, 2 => stallCreate v s
  | 0x3000, 3 => stallRemove v s
  | 0x3030, 1 => contextStall inst v s
  | 0x3040, 6 => consent 6 inst v s
  | 0x3040, 7 => consent 7 inst v s
  | 0x3040, n => pactWrite n inst v s
  | 0x4010, 1 => extentGrant v s
  | 0x4010, 2 => extentRevoke v s
  | 0x4020, 1 => regionOwner inst v s
  | 0x5000, 2 => coherenceTest inst v s
  | 0x5010, 1 => bindAgent inst v s
  | 0x5010, 3 => agentClean inst v s
  | 0x6010, 1 => bankPowerWrite inst v s
  | 0x7100, 1 => tableOwner inst v s
  | 0x7100, 5 => tableSetWrite inst v s
  | 0x7900, 1 => collOwner inst v s
  | 0x7900, 2 => if v = 1 then collActivate inst s else collDeactivate inst s
  | 0x7900, 26 => restockNow inst v s
  | 0x7900, 28 => retireRequest inst v s
  | 0x9100, 10 => if v = 1 then contextEnable inst s else contextDisable inst s
  | 0xA010, 1 => fwStageImage bytes s
  | 0xA010, 2 => fwUpdate v s
  | 0xB020, 1 => injectionAllowed v s
  | 0xC010, 1 => deviceResetWrite s
  | 0xF001, 1 => commitWrite v s
  | 0xF003, 1 => discardWrite v s
  | i, 1 => if 0xB100 ≤ i ∧ i ≤ 0xB117 then injectArm (i - 0xB100) inst v s else (OK, applyWrite r idx inst v s)
  | _, _ => (OK, applyWrite r idx inst v s)

/-- Checks 5 to 7 on a whole value, and its effect. -/
def writeWhole (r : CatRow) (idx inst : Nat) (bytes : List Byte) (s : State) : Nat × State :=
  let v := leNat bytes
  if !rangeOk s r idx inst v then (INVALID, s)
  else if r.app = 2 ∧ !quiesced s idx r.sub inst v then (BUSY, s)
  else if r.app = 3 ∧ pendingGroup s r.grp then (BUSY, s)
  else writeValue r idx inst v bytes s

/-- Count a refused write and remember it (R441, R456). -/
def noteRefusal (q : CatReq) (status : Nat) (s : State) : State :=
  cvSet 0xF020 2 0 (now s % 2 ^ 64 + q.idx % 2 ^ 16 * 2 ^ 64 + q.sub % 256 * 2 ^ 80 + status * 2 ^ 88 + q.inst % 2 ^ 16 * 2 ^ 96)
    (cvAdd 0xF020 1 0 1 s)

/-- Put bytes at offsets of a value. -/
def overlay (base : List Byte) (segs : List (Nat × List Byte)) : List Byte :=
  segs.foldl (fun l x => let l' := l ++ List.replicate (x.1 - l.length) 0
                         l'.take x.1 ++ x.2 ++ l'.drop (x.1 + x.2.length)) base

def dropAsm (rq : Requester) (s : State) : State := { s with cat := { s.cat with asm := s.cat.asm.filter (fun b => b.rq != rq) } }
/-- A requester's assembly buffer for an address, while it has not expired (R435). -/
def asmOf (s : State) (q : CatReq) : List (Nat × List Byte) :=
  match s.cat.asm.find? (fun b => b.rq == q.rq && b.key == q.key && decide (curRound s ≤ b.round + 64)) with | some b => b.segs | none => []

/-- The value the FINAL segment makes (R435): the bytes at their offsets in the value or its shadow; a variable length
ends at the highest byte written. -/
def assembled (s : State) (r : CatRow) (q : CatReq) (segs : List (Nat × List Byte)) : List Byte :=
  let base := if r.app = 3 then leBytes r.len (cvShadow s q.idx q.sub q.inst)
    else if r.len = 0 then catValue s r q.idx q.inst else leBytes r.len (cv s q.idx q.sub q.inst)
  let v := overlay base segs
  if r.len = 0 then v.take (maxOf (segs.map (fun x => x.1 + x.2.length))) else v

/-- A write or segment decided under R441 (R435). -/
def writeEntry (q : CatReq) (data : List Byte) (maxLen : Nat) (s : State) : Nat × State :=
  match writeCheck s q maxLen with
  | .inr (st, counted) =>
    let t := if counted then noteRefusal q st s else s
    (st, if st = INVALID ∧ counted && ((entryOf q.idx q.sub q.inst).map isBlob).getD false then dropAsm q.rq t else t)
  | .inl r =>
    if isBlob r && !q.final then
      let b : AsmBuf := { rq := q.rq, key := q.key, segs := asmOf s q ++ [(q.off, data)], round := curRound s }
      let t := dropAsm q.rq s
      (OK, { t with cat := { t.cat with asm := t.cat.asm ++ [b] } })
    else
      let bytes := if isBlob r then assembled s r q (asmOf s q ++ [(q.off, data)]) else data
      let t := if isBlob r then dropAsm q.rq s else s
      let x := writeWhole r q.idx q.inst bytes t
      (x.1, if x.1 = OK then x.2 else noteRefusal q x.1 t)

end Sys2Proof.Machine
end

