-- ==== Sys2Proof/Machine/Catalogue.lean ====
section
/-! DEFINITION. Staged commits (R113, R123, R124, R139, R172, R400, R446-R450), the transports (R453, R454), and the
commands that are single catalogue writes. -/

namespace Sys2Proof.Machine
open Sys2Proof

/-! ### Validation (R447) -/

abbrev stalls : List Nat := List.range 256

def shv (s : State) (idx sub st : Nat) : Nat := cvShadow s idx sub st
def differs (s : State) (k : Nat) : Bool := (AMap.get none s.cat.shadow k).isSome

/-- The failing entry of a check that several entries take part in (R447). -/
def firstPart (s : State) (keys : List Nat) : Nat :=
  let ks := keys.mergeSort (fun a b => decide (a ≤ b))
  match ks.find? (differs s) with | some k => k | none => ks.headD 0

/-- The stalls whose masks of an entry share a bit with another's. -/
def overlapping (f : Nat → Nat) : List Nat :=
  let l := stalls.filter (fun st => f st != 0)
  l.filter (fun a => l.any (fun b => a != b && (f a &&& f b) != 0))
def rangesOverlap (f : Nat → Nat × Nat) : List Nat :=
  let l := stalls.filter (fun st => (f st).2 != 0)
  l.filter (fun a => l.any (fun b => a != b && decide ((f a).1 < (f b).1 + (f b).2) && decide ((f b).1 < (f a).1 + (f a).2)))

/-- The failures of group 2 (R87, R113): (status, key). -/
def failures2 (s : State) : List (Nat × Nat) :=
  let cap := roundBudget (shv s 0x2000 1 0)
  let res := shv s 0x2000 3 0
  let sum := sumOf (stalls.map (fun st => shv s 0x2010 1 st + shv s 0x2010 3 st))
  let caps := [catKey 0x2000 1 0, catKey 0x2000 3 0]
  (if cap - res < sum then [(INVALID, firstPart s (caps ++ stalls.flatMap (fun st => [catKey 0x2010 1 st, catKey 0x2010 3 st])))] else [])
  ++ (if cap < res then [(INVALID, firstPart s caps)] else [])
  ++ stalls.flatMap (fun st =>
    let es := s.gate.energy.filter (fun e => e.stall == st && decide (curRound s ≤ e.round))
    (if es.any (fun e => e.chit && decide (shv s 0x2010 1 st < chitIn s st e.round)) then [(BUSY, catKey 0x2010 1 st)] else [])
    ++ (if decide (shv s 0x2010 3 st < standingFloat s st)
          || es.any (fun e => !e.chit && decide (shv s 0x2010 3 st < floatIn s st e.round + standingFloat s st)) then [(BUSY, catKey 0x2010 3 st)] else []))

/-- The mask of chunk `k` of a SHARE_MAP value. -/
def chunkOf (m k : Nat) : Nat := m / 2 ^ (128 * k) % 2 ^ 128
/-- The share of a calendar that a booking uses: the chunks of its columns, or its calendar's. -/
def bookChunks (b : Booking) : List Nat :=
  if 72 ≤ b.cal ∧ b.cal < 88 then (setBits 8 b.mask).map (fun c => 72 + 8 * (b.cal - 72) + c) else [calChunk b.cal]

/-- A slot group with a booking of the stall leaves it. -/
def groupLeaves (s : State) (st : Nat) : Bool :=
  let old := cv s 0x3010 1 st
  let new := shv s 0x3010 1 st
  s.gate.books.any (fun b => b.stall == st && decide (b.cal < 131) && decide (curRound s ≤ b.round) && (bookChunks b).any (fun k =>
    b.slots.any (fun i => bit (chunkOf old k) (i / 8) && !bit (chunkOf new k) (i / 8))))

/-- The new columns of a cluster cannot hold the pitch counts not yet placed, with what is placed and within BULK_SHARE. -/
def pitchLeaves (s : State) (st : Nat) : Bool :=
  (List.range 16).any (fun k =>
    let n := sumOf ((List.range 8).map (fun c => (maskSlots (chunkOf (shv s 0x3010 1 st) (72 + 8 * k + c))).length))
    let bs := s.gate.books.filter (fun b => b.stall == st && b.cal == calPitch k && decide (curRound s ≤ b.round))
    let use := fun (l : List Booking) => sumOf (l.map (fun b => max b.count b.slots.length * popc 8 b.mask))
    (dedup ((bs.filter (·.slots.isEmpty)).map (·.round))).any (fun r =>
      let here := bs.filter (fun b => b.round == r)
      decide (n < use here) || decide (n * cv s 0x1010 4 st / 100 < use (here.filter (·.bulk)))))
/-- The new share of a calendar cannot hold the counts not yet placed, or the standing booking. -/
def countsLeave (s : State) (st : Nat) : Bool :=
  pitchLeaves s st ||
  ((List.range 131).filter (fun c => decide (c < 72) || decide (88 ≤ c))).any (fun cal =>
    let n := (maskSlots (chunkOf (shv s 0x3010 1 st) (calChunk cal))).length
    let need := standingNeed s st cal
    let bs := s.gate.books.filter (fun b => b.stall == st && b.cal == cal && decide (curRound s ≤ b.round))
    decide (n < need) || (dedup (bs.map (fun b => (b.dir, b.round)))).any (fun (d, r) =>
      let here := bs.filter (fun b => b.dir == d && b.round == r)
      let placed := (here.flatMap (·.slots)).length
      let counts := sumOf ((here.filter (fun b => b.slots.isEmpty)).map (·.count))
      decide (n < need + placed + counts) || (decide (0 < counts) && decide (n * cv s 0x1010 4 st / 100 < bulkIn s st cal d r))))

/-- The banks and pages a loaded segment names (R123): the spaces its operation and mover rows address, and the pages of
its porter images: (cluster, bank) and (cluster, core, page). -/
def loadedBanks (s : State) (st : Nat) : List (Nat × Nat) :=
  dedup ([s.fab.runB, s.fab.nextB].flatMap (fun b => (b.spans.filter (fun p => p.stall == st && !spanDead s p)).flatMap (fun p =>
    let k := p.col / 8
    let c := p.col % 8
    let rows := (rowsOfCol s st k c).map (fun r => (AMap.get 0 b.opRows (p.col * 256 + r)).toNat)
    let mrows := (rowsOfCol s st k 0).map (fun r => (AMap.get 0 b.moveRows (k * 256 + r)).toNat)
    (rows.flatMap (fun r => (rowAccs r 0).flatMap (fun a => banksOf s st k c a.space)))
      ++ (mrows.flatMap (fun r => (if mDir r = 0 then [] else banksOf s st k (mCore r) (mSpace r))
        ++ (if mDir r = 3 then banksOf s st k (mSrcCore r) (mSrcSpace r) else []))) |>.map (fun i => (k, i)))))
def loadedPages (s : State) (st : Nat) : List (Nat × Nat × Nat) :=
  dedup ([s.fab.runB, s.fab.nextB].flatMap (fun b => (b.spans.filter (fun p => p.stall == st && !spanDead s p)).flatMap (fun p =>
    match cmdOf s p.rid p.cmd with
    | some c => (match c.work with
      | .segment d => ((setBits 16 (tcmPages s st (p.col / 8) (p.col % 8))).take (cdiv d.porterBytes 4096)).map (fun g => (p.col / 8, p.col % 8, g))
      | _ => [])
    | none => [])))

/-- The accepted gathers of a stall, with the stall whose ways serve them. -/
def liveGathers (s : State) : List (Nat × BatchD) :=
  s.gate.reqs.flatMap (fun q => q.cmds.filterMap (fun c => match c.work with | .gather d => some (q.stall, d) | _ => none))
/-- The tallies a stall's accepted requests name, and its mover channels in use. -/
def liveTallies (s : State) (st : Nat) : List Nat :=
  (s.gate.reqs.filter (fun q => q.stall == st)).flatMap (fun q => q.cmds.flatMap (fun c => c.waitTally :: workTallies c.work))

/-- A unit of a map leaves a stall while it is named (R123). -/
def sramLeaves (s : State) (st : Nat) : Bool :=
  let new := shv s 0x3012 1 st
  let rec_ := fun (k : Nat) => new / 2 ^ (640 * k) % 2 ^ 640
  let keeps := fun (k i : Nat) => if i < 256 then bit (rec_ k) (160 + i) else bit (rec_ k) (i - 256)
  (loadedBanks s st).any (fun x => !keeps x.1 x.2)
  || (loadedPages s st).any (fun x => !bit (rec_ x.1) (416 + 16 * x.2.1 + x.2.2))
  || (liveGathers s).any (fun x => x.1 == st && x.2.outSpace == 1 && (selClusters x.2).any (fun k => (storeList s st k).any (fun i => !keeps k i)))
def waysLeave (s : State) (st : Nat) : Bool :=
  (cv s 0x3011 1 st &&& shv s 0x3011 1 st) != cv s 0x3011 1 st
  && (liveGathers s).any (fun x => (usedTables x.2).any (fun t => (if cv s 0x7100 1 t = x.1 then x.1 else waysOwner s x.1 t) == st))
def talliesLeave (s : State) (st : Nat) : Bool :=
  (liveTallies s st).any (fun t => ownsTally s st t && !(decide (shv s 0x3013 1 st ≤ t) && decide (t < shv s 0x3013 1 st + shv s 0x3013 2 st)))
def channelsLeave (s : State) (st : Nat) : Bool :=
  s.gate.reqs.any (fun q => q.stall == st && (match q.chan with | some n => ownsChan s st n && !bit (shv s 0x3014 1 st) n | none => false))

/-- The failures of group 3 (R123, R139, R172, R400): (status, key). -/
def failures3 (s : State) : List (Nat × Nat) :=
  let many := fun (idx sub : Nat) (l : List Nat) => if l.isEmpty then [] else [(INVALID, firstPart s (l.map (catKey idx sub)))]
  let total := fun (idx sub lim : Nat) => if lim < sumOf (stalls.map (shv s idx sub)) then [(INVALID, firstPart s (stalls.map (catKey idx sub)))] else []
  let changed := stalls.filter (fun st => differs s (catKey 0x3010 1 st))
  let frames := sumOf (stalls.map (shv s 0x4030 1))
  let unres := hbmUnreserved s + 65536 * sumInsts s 0x4030 1
  many 0x3010 1 (overlapping (shv s 0x3010 1)) ++ many 0x3011 1 (overlapping (shv s 0x3011 1))
  ++ many 0x3012 1 (overlapping (shv s 0x3012 1)) ++ many 0x3014 1 (overlapping (shv s 0x3014 1))
  ++ (let l := rangesOverlap (fun st => (shv s 0x3013 1 st, shv s 0x3013 2 st))
      if l.isEmpty then [] else [(INVALID, firstPart s (l.flatMap (fun st => [catKey 0x3013 1 st, catKey 0x3013 2 st])))])
  ++ stalls.flatMap (fun st => if 16384 < shv s 0x3013 1 st + shv s 0x3013 2 st then [(INVALID, firstPart s [catKey 0x3013 1 st, catKey 0x3013 2 st])] else [])
  ++ total 0x3015 1 16777216 ++ total 0x3015 2 65536 ++ total 0x3015 3 1024 ++ total 0x3013 2 16384
  ++ (if (List.range 8).any (fun k => (maskSlots (chunkOf (shv s 0x3010 1 0) k)).length * cv s 0x1010 4 0 / 100 < 41) then [(INVALID, catKey 0x3010 1 0)] else [])
  ++ changed.flatMap (fun st => if groupLeaves s st || countsLeave s st then [(BUSY, catKey 0x3010 1 st)] else [])
  ++ stalls.flatMap (fun st =>
    (if differs s (catKey 0x3012 1 st) && sramLeaves s st then [(BUSY, catKey 0x3012 1 st)] else [])
    ++ (if differs s (catKey 0x3011 1 st) && waysLeave s st then [(BUSY, catKey 0x3011 1 st)] else [])
    ++ (if talliesLeave s st then [(BUSY, firstPart s [catKey 0x3013 1 st, catKey 0x3013 2 st])] else [])
    ++ (if channelsLeave s st then [(BUSY, catKey 0x3014 1 st)] else [])
    ++ (if shv s 0x4030 1 st < ((framesOf s st).filter (fun e => claimed s e.1)).length + (absentHeld s st).length then [(BUSY, catKey 0x4030 1 st)] else [])
    ++ (if shv s 0x3015 1 st % 256 ≠ 0 then [(INVALID, catKey 0x3015 1 st)] else []))
  ++ (if unres < 65536 * frames then [(INVALID, firstPart s (stalls.map (catKey 0x4030 1)))] else [])
  ++ (if (List.range 32).any (fun l => let c := controlCycleOf (shv s 0x3010 1) l
        decide (controlCycle s l < c) && decide (cv s 0x1030 1 l < c + cv s 0x8110 3 l + 4)) then [(INVALID, firstPart s (changed.map (catKey 0x3010 1)))] else [])

/-- The failure with the lowest entry, the earlier check first. -/
def lowestFailure (l : List (Nat × Nat)) : Option (Nat × Nat) :=
  l.foldl (fun b x => match b with | none => some x | some y => if x.2 < y.2 then some x else some y) none

def setCommit (g state status k : Nat) (s : State) : State := cvSet 0xF002 1 g (commitStatus state status (keyInst k) (keySub k) (keyIdx k)) s

/-- COMMIT_VALIDATION: an accepted COMMIT is validated; PENDING until the first boundary at least 256 ticks on (R448). -/
def commitValidation (g : Nat) (s : State) : State :=
  if (AMap.get none s.cat.accepted g).isNone then s
  else
    let t := { s with cat := { s.cat with accepted := AMap.set none s.cat.accepted g none } }
    match lowestFailure (if g = 2 then failures2 s else failures3 s) with
    | some (st, k) => setCommit g 3 st k t
    | none => setCommit g 1 OK 0 { t with cat := { t.cat with pendCommit := AMap.set none t.cat.pendCommit g (some (cdiv (now s + 256) 1280)) } }

/-! ### Application (R124, R449) -/

/-- The units a map gives a stall that did not hold them, with kinds as `sweepUnit` numbers them. -/
def gained (old new : State) (st : Nat) : List (Nat × Nat) :=
  let mask := fun (w : Nat) (f : State → Nat) => (setBits w (f new)).filter (fun i => !bit (f old) i)
  let sram := (List.range 16).flatMap (fun k =>
    let f := fun (x : State) => sramRec x st k
    (mask 544 f).filterMap (fun i =>
      if i < 128 then some (0, k * 512 + 256 + i) else if i < 160 then none
      else if i < 416 then some (0, k * 512 + (i - 160)) else some (1, (k * 8 + (i - 416) / 16) * 16 + (i - 416) % 16)))
  let tallies := ((List.range (cv new 0x3013 2 st)).map (· + cv new 0x3013 1 st)).filter (fun t => !ownsTally old st t)
  let groups := (List.range 128).flatMap (fun col =>
    (mask 128 (fun x => chunkOf (cv x 0x3010 1 st) (72 + col))).map (fun g => (4, col * 128 + g)))
  sram ++ tallies.map (fun t => (2, t)) ++ (mask 256 (fun x => cv x 0x3014 1 st)).map (fun n => (3, n)) ++ groups
    ++ (mask 32 (fun x => cv x 0x3011 1 st)).map (fun w => (5, st * 32 + w))

/-- Row-cache contents after a stall's ways change (R129, R328, R329): an entry whose ways all stay moves with them; the
rest, and the counters of ways that leave or enter, are dropped. -/
def remapWays (old new : State) (st : Nat) (s : State) : State :=
  let a := setBits 32 (cv old 0x3011 1 st)
  let b := setBits 32 (cv new 0x3011 1 st)
  if a == b then s
  else
    let place := fun (p : Nat) => match a[p]? with | some w => (if b.contains w then some (b.findIdx (· == w)) else none) | none => none
    let move := fun (e : RcEnt) => if e.stall != st then some e
      else if e.places.all (fun l => (place (l / 49152)).isSome) then
        some { e with places := e.places.map (fun l => (place (l / 49152)).getD 0 * 49152 + l % 49152) }
      else none
    let fr := s.emb.freq.filter (fun e => e.1 / 2 ^ 32 != st)
    let mine := (s.emb.freq.filter (fun e => e.1 / 2 ^ 32 == st)).filterMap (fun e =>
      let c := e.1 % 2 ^ 32
      (place (c / 262144)).map (fun p => (st * 2 ^ 32 + p * 262144 + c % 262144, e.2)))
    { s with emb := { s.emb with cache := s.emb.cache.filterMap move, freq := mine.foldl (fun m e => AMap.set 0 m e.1 e.2) fr } }

/-- Put the directory entries of a stall into the sectors of its new partition (R123): one that finds no free way is
evicted, its holders back-invalidated. -/
def rehashDir (st : Nat) (s : State) : State :=
  let mine := s.coh.dir.filterMap (fun e => e.2.bind (fun d => if d.stall = st then some (e.1, d) else none))
  let s1 := mine.foldl (fun t e => setWay e.1 none t) s
  mine.foldl (fun t e =>
    let d := e.2
    match sectorOf t st (64 * d.line) with
    | some sec =>
      if (dirWay t sec 0).isNone then setWay (sec * 2) (some d) t
      else if (dirWay t sec 1).isNone then setWay (sec * 2 + 1) (some d) t
      else recallLine d.line ((holdersOf t d).foldl (fun u a => sendSnp a d.line 2 0 st none d.owned u) (cvAdd 0x5001 4 st 1 t))
    | none => recallLine d.line ((holdersOf t d).foldl (fun u a => sendSnp a d.line 2 0 st none d.owned u) (cvAdd 0x5001 4 st 1 t))) s1

/-- A stall's die TLB entries beyond its new count: those not held go, oldest first. -/
def trimTlb (st : Nat) (s : State) : State :=
  let mine := s.xl.tlbs.filter (fun t => t.stall == st && t.cluster.isNone)
  let excess := mine.length - cv s 0x3015 2 st
  let gone := ((mine.filter (fun t => !tlbHeld s t)).mergeSort (fun a b => decide (a.began ≤ b.began))).take excess
  { s with xl := { s.xl with tlbs := s.xl.tlbs.filter (fun t => !gone.contains t) } }

/-- Line-cache and cluster-TLB ways of a stall that change empty: owned lines are written back. -/
def lineWaysChange (old new : State) (st : Nat) (s : State) : State :=
  (List.range 16).foldl (fun t k =>
    if lineWays old st k = lineWays new st k then t
    else
      let u := dropLines k st t
      { u with xl := { u.xl with tlbs := u.xl.tlbs.filter (fun x => !(x.stall == st && x.cluster == some k && !tlbHeld u x)) } }) s

/-- The effects of a committed map: sweeps in the next round, evictions, banks ON and ready after their sweep (R124, R269). -/
def applyMaps (old s : State) : State :=
  (stalls.filter (fun st => [0x3010, 0x3011, 0x3012, 0x3014].any (fun i => differs old (catKey i 1 st)) || differs old (catKey 0x3013 1 st)
      || differs old (catKey 0x3013 2 st) || differs old (catKey 0x3015 1 st) || differs old (catKey 0x3015 2 st))).foldl (fun t st =>
    let g := gained old s st
    let t1 := { t with cat := { t.cat with sweepDue := t.cat.sweepDue ++ g.map (fun x => (curRound s + 1, x.1, x.2)) } }
    let t2 := (g.filter (fun x => x.1 == 0)).foldl (fun u x =>
      let k := x.2 / 512
      let i := x.2 % 512
      let w := cv u 0x6010 1 st
      let v := cvSet 0x6010 1 st (w - bits w (powerBit k i + 1) (powerBit k i) * 2 ^ powerBit k i) u
      { v with fab := { v.fab with ready := AMap.set 0 v.fab.ready (k * 1024 + i) ((curRound s + 2) * 1280) } }) t1
    let t3 := lineWaysChange old s st (remapWays old s st t2)
    let t4 := if cv old 0x3015 1 st = cv s 0x3015 1 st then t3 else rehashDir st t3
    trimTlb st t4) s

/-- COMMIT_APPLY: at the boundary every shadow of the group takes effect together. Frames a stall caches beyond a lowered CACHE_FRAMES
stay resident until they are victims (R139; DESIGN CHOICE, log entry 123). -/
def commitApply (g : Nat) (s : State) : State :=
  match AMap.get none s.cat.pendCommit g with
  | some r =>
    if !atBoundary s ∨ curRound s < r then s
    else
      let sh := s.cat.shadow.filter (fun e => inGroup g e.1)
      let t := { s with cat := { s.cat with vals := sh.foldl (fun m e => AMap.set none m e.1 e.2) s.cat.vals,
                                            shadow := AMap.keep (fun k _ => !inGroup g k) s.cat.shadow,
                                            pendCommit := AMap.set none s.cat.pendCommit g none } }
      let u := setCommit g 2 OK 0 (cvSet 0xF002 2 g (now s) t)
      if g = 3 then applyMaps s u else u
  | none => s

/-! ### Transports (R453, R454) -/

/-- The snapshot of a requester for an address, while it is held (R436). -/
def snapOf (s : State) (q : CatReq) : Option (List Byte) :=
  (s.cat.snaps.find? (fun x => x.rq == q.rq && x.key == q.key && decide (curRound s ≤ x.round + 64))).map (·.bytes)

/-- A read decided (R435, R436, R439): the status, the bytes, and the state with a snapshot taken. -/
def readEntry (q : CatReq) (maxLen : Nat) (s : State) : Nat × List Byte × State :=
  match readCheck s q maxLen with
  | .inr st => (st, [], s)
  | .inl r =>
    let v := if q.shadow then catShadow s r q.idx q.inst else catValue s r q.idx q.inst
    if q.snap && q.off == 0 then
      let keep := s.cat.snaps.filter (fun x => x.rq != q.rq)
      (OK, v.take q.len, { s with cat := { s.cat with snaps := keep ++ [{ rq := q.rq, key := q.key, bytes := v, round := curRound s }] } })
    else if q.snap then
      match snapOf s q with
      | some b => (OK, slice b q.off q.len, s)
      | none => (BUSY, [], s)
    else (OK, slice v q.off q.len, s)

/-- A descriptor: checks 1 and 2 (R452). -/
def infoEntry (q : CatReq) (s : State) : Nat × List Byte :=
  match entryOf q.idx q.sub q.inst with
  | none => (INVALID, [])
  | some r => if holds s q.rq r.priv r.inst q.idx q.inst then (OK, catInfo s r q.idx q.inst) else (PROTECTION, [])

/-- Answer a requester that is an MCTP endpoint. -/
def answer (rq : Requester) (tag result : Nat) (data : List Byte) (s : State) : State :=
  match rq with
  | .i3c _ => send (.mctp rq tag result data) s
  | .vdm _ => send (.mctp rq tag result data) s
  | _ => s

def isMctp (rq : Requester) : Bool := match rq with | .i3c _ => true | .vdm _ => true | _ => false

def mctpRead (q : CatReq) (tag : Nat) (s : State) : State :=
  match served s q.rq q.idx false with
  | none => s
  | some (some st) => answer q.rq tag st [] s
  | some none => let x := readEntry q 1024 s; answer q.rq tag x.1 x.2.1 x.2.2
def mctpWrite (q : CatReq) (tag : Nat) (data : List Byte) (s : State) : State :=
  match served s q.rq q.idx true with
  | none => s
  | some (some st) => answer q.rq tag st [] s
  | some none => let x := writeEntry q data 1024 s; answer q.rq tag x.1 [] x.2
def mctpInfo (q : CatReq) (tag : Nat) (s : State) : State :=
  match served s q.rq q.idx false with
  | none => s
  | some (some st) => answer q.rq tag st [] s
  | some none => let x := infoEntry q s; answer q.rq tag x.1 x.2 s


/-- ASSEMBLY_EXPIRY and SNAPSHOT_RELEASE: at the boundary that begins round r + 65. -/
def assemblyExpiry (rq : Requester) (s : State) : State :=
  { s with cat := { s.cat with asm := s.cat.asm.filter (fun b => b.rq != rq || decide (curRound s ≤ b.round + 64)) } }
def snapshotRelease (rq : Requester) (s : State) : State :=
  { s with cat := { s.cat with snaps := s.cat.snaps.filter (fun b => b.rq != rq || decide (curRound s ≤ b.round + 64)) } }

/-! ### The commands -/

def execMctpRead (rq : Requester) (tag flags idx sub inst off len : Nat) (s : State) : Out :=
  .next (if isMctp rq then mctpRead ⟨rq, idx, sub, inst, off, len, flags⟩ tag s else s)
def execMctpWrite (rq : Requester) (tag flags idx sub inst off : Nat) (data : List Byte) (s : State) : Out :=
  .next (if isMctp rq then mctpWrite ⟨rq, idx, sub, inst, off, data.length, flags⟩ tag data s else s)
def execMctpInfo (rq : Requester) (tag idx sub inst : Nat) (s : State) : Out :=
  .next (if isMctp rq then mctpInfo ⟨rq, idx, sub, inst, 0, 0, 0⟩ tag s else s)
def execAssemblyExpiry (rq : Requester) (s : State) : Out := .next (assemblyExpiry rq s)
def execSnapshotRelease (rq : Requester) (s : State) : Out := .next (snapshotRelease rq s)
def execCommitValidation (group : Nat) (s : State) : Out := .next (commitValidation group s)
def execCommitApply (group : Nat) (s : State) : Out := .next (commitApply group s)

end Sys2Proof.Machine
end

