-- ==== Sys2Proof/Machine/Attest.lean ====
section
/-! DEFINITION. Identity, attestation reports and the debug lock (R486-R493). -/

namespace Sys2Proof.Machine
open Sys2Proof

/-- An attestation request over MCTP reaches SEC: answered BUSY while SEC is halted (R464); out of service as the other
catalogue addresses are (R483, R518). -/
def attestServed (s : State) (rq : Requester) : Option (Option Nat) :=
  if !isMctp rq then none
  else match served s rq 0x1000 false with
    | some none => some (if halted s 0 then some BUSY else none)
    | x => x

/-- Serve a request of R490: the status and the data. -/
def attest (rq : Requester) (tag : Nat) (f : State → Nat × List Byte × State) (s : State) : State :=
  match attestServed s rq with
  | none => s
  | some (some st) => answer rq tag st [] s
  | some none => let x := f s; answer rq tag x.1 x.2.1 x.2.2

def deviceId : List Byte := sha256 Config.hssPublicKey

/-- IDENTITY_READ: the HSS public key followed by ENDORSEMENT. -/
def identityRead (off len : Nat) (s : State) : Nat × List Byte × State :=
  if 1024 < len then (INVALID, [], s) else (OK, slice (Config.hssPublicKey ++ Config.endorsement) off len, s)

/-- DEBUG_STATE reads OPEN. -/
def debugIsOpen (s : State) : Bool := s.sec.debugOpen || s.sec.lifecycle == 0

/-- Every entry and instance of the staged groups, in ascending order (R445). -/
def stagedKeys : List (Nat × Nat × Nat × Nat) :=
  catTable.flatMap (fun e => (e.2.filter (fun r => r.app == 3)).flatMap (fun r =>
    (List.range (if r.inst = 1 then 256 else 1)).map (fun i => (e.1, r.sub, i, r.len))))
/-- CONFIG_DIGEST (R489). -/
def configDigest (s : State) : List Byte := sha256 (stagedKeys.flatMap (fun k => leBytes k.2.2.2 (cv s k.1 k.2.1 k.2.2.1)))

/-- A report's body of 256 bytes (R489). -/
def reportBody (s : State) (nonce : List Byte) (q : Nat) : List Byte :=
  let b := leBytes 4 0x52414D54 ++ leBytes 2 1 ++ leBytes 2 0x00B1 ++ nonce ++ deviceId ++ Config.romDigest ++ slotDigest s.fw.inEffect
    ++ leBytes 4 (slotVersion s.fw.inEffect) ++ leBytes 4 q ++ leBytes 8 (now s) ++ leBytes 4 (cv s 0x1000 3) ++ leBytes 2 (nodeNumber s)
    ++ leBytes 1 s.clk.brdPos ++ leBytes 1 s.sec.lifecycle ++ leBytes 1 (if s.sec.debugHistory then 1 else 0) ++ leBytes 1 s.sec.revoked
    ++ leBytes 1 s.sec.floor ++ leBytes 1 (cv s 0xA000 3) ++ configDigest s
  b ++ List.replicate (256 - b.length) 0

/-- Write the reserve counter in the boot flash (R487): whether it was written. -/
def writeReserve (s : State) : Bool × State :=
  match bootFlashWrite 0x00300000 FAULT_MEMORY s with
  | (false, t) => (false, t)
  | (true, t) => (true, { t with sec := { t.sec with reserveR := t.sec.reserveR + 16 } })

/-- REPORT_REQUEST: a nonce is accepted, and signing begins with the next index (R487, R490). -/
def reportRequest (rq : Requester) (nonce : List Byte) (s : State) : Nat × List Byte × State :=
  if nonce.length ≠ 32 then (INVALID, [], s)
  else if s.sec.reports.any (fun r => r.bytes.isNone)
    || (match s.sec.lastReport with | some r => decide (curRound s < r + cv s 0xA101 3) | none => false) then (BUSY, [], s)
  else if debugIsOpen s || s.sec.lifecycle == 2 then (PROTECTION, [], s)
  else if 1048576 ≤ s.sec.sigNext then (REFUSED_QUOTA, [], s)
  else
    let w := if s.sec.sigNext = s.sec.reserveR then writeReserve s else (true, s)
    if !w.1 then (FAULT_MEMORY, [], w.2)
    else
      let t := w.2
      let q := t.sec.sigNext
      let r : Report := { rq := rq, body := reportBody t nonce q, q := q, bytes := none, round := curRound t }
      (OK, [], { t with sec := { t.sec with sigNext := q + 1, treeFuses := max t.sec.treeFuses (q / 1024 + 1), lastReport := some (curRound t),
                                            reports := t.sec.reports.filter (fun x => x.rq != rq) ++ [r] } })

/-- REPORT_READ: BUSY until the requester's report is signed. -/
def reportRead (rq : Requester) (off len : Nat) (s : State) : Nat × List Byte × State :=
  if 1024 < len then (INVALID, [], s)
  else match (s.sec.reports.find? (fun r => r.rq == rq && decide (curRound s < r.round + 78125))).bind (·.bytes) with
    | some b => (OK, slice b off len, s)
    | none => (BUSY, [], s)

/-- REPORT_SIGNED: signing ends, once the report's bottom tree is built; nothing is signed while DEBUG_STATE is OPEN. -/
def reportSigned (s : State) : State :=
  match s.sec.reports.find? (fun r => r.bytes.isNone) with
  | some r =>
    if debugIsOpen s || s.sec.tree ≤ r.q / 1024 then s
    else
      let done := { r with bytes := some (r.body ++ Config.hssSign r.q r.body), round := curRound s }
      cvAdd 0xA101 4 0 1 { s with sec := { s.sec with reports := s.sec.reports.map (fun x => if x = r then done else x) } }
  | none => s

/-- REPORT_DISCARD: a signed report is held for 78,125 rounds. -/
def reportDiscard (rq : Requester) (s : State) : State :=
  { s with sec := { s.sec with reports := s.sec.reports.filter (fun r => !(r.rq == rq && r.bytes.isSome && decide (r.round + 78125 ≤ curRound s))) } }

/-- BOTTOM_TREE_BUILD (R488): the tree of the next index, or the one after it once the leaf index reaches 512. -/
def bottomTreeBuild (s : State) : State :=
  let t := s.sec.sigNext / 1024
  if debugIsOpen s || 1024 ≤ s.sec.tree then s
  else if s.sec.tree ≤ t ∨ s.sec.reports.any (fun r => decide (s.sec.tree ≤ r.q / 1024)) ∨ (s.sec.tree = t + 1 ∧ 512 ≤ s.sec.sigNext % 1024) then
    { s with sec := { s.sec with tree := s.sec.tree + 1 } }
  else s

/-! ### Debug unlock (R492) -/

/-- Command 0x43: 16 fresh bytes and DEVICE_ID. -/
def debugChallenge (s : State) : Nat × List Byte × State :=
  let f := fresh 128 s
  let c := leBytes 16 f.1.toNat ++ deviceId
  let t := f.2
  (OK, c, { t with sec := { t.sec with challenge := some c } })

/-- Command 0x44: challenge, DEVICE_ID, key slot (4 bytes), LMS signature over those 52 bytes, public key (log entry 29). -/
def debugToken (token : List Byte) (s : State) : Nat × List Byte × State :=
  let slot := leNat (slice token 48 4)
  let key := slice token 2560 56
  let ok := token.length == 2616 && (s.sec.challenge == some (token.take 48)) && decide (slot < 4) && !bit s.sec.revoked slot
    && sha256 key == Config.vendorKeyHash slot && lmsVerify key (token.take 52) (slice token 52 2508) && s.sec.lifecycle != 2
  let t := { s with sec := { s.sec with challenge := none } }
  if ok then (OK, [], { t with sec := { t.sec with unlock := true } }) else (PROTECTION, [], t)

def execIdentityRead (rq : Requester) (tag off len : Nat) (s : State) : Out := .next (attest rq tag (identityRead off len) s)
def execReportRequest (rq : Requester) (tag : Nat) (nonce : List Byte) (s : State) : Out := .next (attest rq tag (reportRequest rq nonce) s)
def execReportRead (rq : Requester) (tag off len : Nat) (s : State) : Out := .next (attest rq tag (reportRead rq off len) s)
def execDebugChallenge (rq : Requester) (tag : Nat) (s : State) : Out := .next (attest rq tag debugChallenge s)
def execDebugToken (rq : Requester) (tag : Nat) (token : List Byte) (s : State) : Out := .next (attest rq tag (debugToken token) s)
def execReportSigned (s : State) : Out := .next (reportSigned s)
def execReportDiscard (rq : Requester) (s : State) : Out := .next (reportDiscard rq s)
def execBottomTreeBuild (s : State) : Out := .next (bottomTreeBuild s)

end Sys2Proof.Machine
end

