-- ==== Sys2Proof/Machine/Ports.lean ====
section
/-! DEFINITION. The CXL mailbox and data object exchange (R406), the I3C target and the MCTP endpoint (R412, R413). -/

namespace Sys2Proof.Machine
open Sys2Proof

/-- A component command or CDAT read answered on a port that is UP, to an LD the port has. The command codes and the
payload are CXL 3.1's; the manual gives neither (log entry 11), so the payload is free. -/
def mailbox (port ld command operand : Nat) (s : State) : State :=
  if running s && portUp s port && decide (port < 8) && decide (ld < cv s 0x9010 4 port) then
    send (.mailbox port ld command (Config.mailboxData command operand s.freeCtr)) { s with freeCtr := s.freeCtr + 1 }
  else s

/-- ENTDAA: an address for a target that has none. -/
def assignDyn (addr : Nat) (s : State) : State :=
  if running s && s.port.i3cDyn == 0 && decide (0 < addr) && decide (addr < 128) then { s with port := { s.port with i3cDyn := addr } } else s
/-- SETDASA: the target whose static address is named. -/
def setDasa (static dyn : Nat) (s : State) : State := if static = cv s 0x9020 2 then assignDyn dyn s else s
def rstDaa (s : State) : State := { s with port := { s.port with i3cDyn := 0 } }
/-- SETMWL and SETMRL: 69 to 255 bytes. -/
def setMwl (n : Nat) (s : State) : State := if 69 ≤ n ∧ n ≤ 255 ∧ running s then { s with port := { s.port with mwl := n } } else s
def setMrl (n : Nat) (s : State) : State := if 69 ≤ n ∧ n ≤ 255 ∧ running s then { s with port := { s.port with mrl := n } } else s
/-- Set Endpoint ID: 8 to 254 (log entry 28). -/
def setEid (eid : Nat) (s : State) : State := if running s && decide (8 ≤ eid) && decide (eid ≤ 254) then { s with port := { s.port with eid := eid } } else s

def execIdentifyMemoryDevice (port ld : Nat) (s : State) : Out := .next (mailbox port ld 0x4000 0 s)
def execGetSupportedLogs (port ld : Nat) (s : State) : Out := .next (mailbox port ld 0x0400 0 s)
def execGetLog (port ld offset length : Nat) (s : State) : Out := .next (mailbox port ld 0x0401 (offset * 2 ^ 32 + length) s)
def execGetHealthInfo (port ld : Nat) (s : State) : Out := .next (mailbox port ld 0x4200 0 s)
def execGetPoisonList (port ld addr length : Nat) (s : State) : Out := .next (mailbox port ld 0x4300 (addr * 2 ^ 64 + length) s)
def execCdatRead (port handle : Nat) (s : State) : Out := .next (mailbox port 0 0 handle s)
def execEntdaa (addr : Nat) (s : State) : Out := .next (assignDyn addr s)
def execSetdasa (static dyn : Nat) (s : State) : Out := .next (setDasa static dyn s)
def execRstdaa (s : State) : Out := .next (rstDaa s)
/-- ENEC is accepted, and no event is ever enabled. -/
def execEnec (_mask : Nat) (s : State) : Out := .next s
def execDisec (_mask : Nat) (s : State) : Out := .next s
def execSetmwl (len : Nat) (s : State) : Out := .next (setMwl len s)
def execSetmrl (len : Nat) (s : State) : Out := .next (setMrl len s)
def execSetEndpointId (eid : Nat) (s : State) : Out := .next (setEid eid s)

end Sys2Proof.Machine
end

