-- ==== Sys2Proof/Machine/Links.lean ====
section
/-! DEFINITION. Twine links: training, flits received, retries, gaps, failures and control flits (R221-R224, R396-R403,
R522). -/

namespace Sys2Proof.Machine
open Sys2Proof

/-! ### Parts that use a link (R72, R389, R401) -/

/-- End the part of a command in progress: of a transfer, its first part not completed (R389). -/
def endPart (rid cmd status detail : Nat) (inj : Bool) (s : State) : State :=
  match cmdOf s rid cmd with
  | some c =>
    if c.status.isSome then s else
    match c.work with
    | .xfer x =>
      let np := partCount x.count
      endXfer rid cmd np (((List.range np).find? (fun i => !bit c.parts i)).getD 0) status detail inj s
    | _ => endCmd rid cmd status detail inj s
  | none => s

/-- The commands with booked use of a link; of one stall where `st` is given. -/
def linkParts (s : State) (l : Nat) (st : Option Nat) : List (Nat × Nat) :=
  dedup ((s.gate.books.filter (fun b => b.cal == calLink l && (match st with | some k => b.stall == k | none => true))).map (fun b => (b.rid, b.cmd)))

def endLinkParts (l : Nat) (st : Option Nat) (inj : Bool) (s : State) : State :=
  (linkParts s l st).foldl (fun t x => endPart x.1 x.2 FAULT_LINK 0 inj t) s

/-! ### Sequences and gaps (R221, R223) -/

/-- The joint booking a ticket names, at the end where its destination is: the peer of a push, the origin of a pull. -/
def jointAt (s : State) (ticket : Nat) (origin : Bool) : Option Joint := s.gate.joints.find? (fun j => j.ticket == ticket && j.origin == origin)
def jointDst (s : State) (ticket : Nat) : Option Joint :=
  s.gate.joints.find? (fun j => j.ticket == ticket && j.rid != 0 && nodeOf j.q.dst == nodeNumber s)

def nextSeqOf (s : State) (src st : Nat) : Nat := AMap.get 0 s.twine.nextSeq (src * 256 + st)
def setNextSeq (src st v : Nat) (s : State) : State := { s with twine := { s.twine with nextSeq := AMap.set 0 s.twine.nextSeq (src * 256 + st) v } }
/-- Distance of a sequence number ahead of the next expected, in 24 bits. -/
def seqAhead (seq next : Nat) : Nat := (seq + 2 ^ 24 - next % 2 ^ 24) % 2 ^ 24

/-- A remote write takes effect: its bytes, the byte tally, the counts (R221, R388, R389). A write whose part has ended,
or that no booking of this device holds, is dropped. The packet tally waits for the last part's completion (R383). -/
def applyTrain (t : Train) (s : State) : State :=
  match jointDst s t.ticket with
  | none => s
  | some j => match reqOf s j.rid, cmdOf s j.rid j.cmd with
    | some q, some c =>
      let n := t.data.length
      if c.status.isSome || !localRange s t.dst n || !ownsRange s t.stall t.dst n || q.stall != t.stall then s else
      let gap := inject 0x16 (t.src + t.stall * 2 ^ 16) t.stall (!armed s 0x16 t.stall) s
      let s0 := match gap.1 with
        | some (dev, contain) =>
          let r := endPart j.rid j.cmd FAULT_LINK 0 true (errRec 0x16 (t.src + t.stall * 2 ^ 16) t.seq q.ctx t.stall FAULT_LINK dev true gap.2)
          if contain && dev then cvAdd 0x5102 2 t.stall 1 (detect 0x16 r) else r
        | none => gap.2
      if (match gap.1 with | some (dev, contain) => dev && contain | none => false) then s0 else
      match hbmRange t.stall q.ctx (offOf t.dst) n false s0 with
      | (some i, s1) => endPart j.rid j.cmd FAULT_MEMORY 0 i s1
      | (none, s1) =>
        let large := match c.work with | .xfer x => isLarge s x.count | _ => false
        let s2 := actAs large j.rid t.stall 0 (cdiv n 64) (owned j.rid 0 (unitWrite (offOf t.dst) t.data) s1)
        let s3 := cvAdd 0x8001 2 t.stall n s2
        updCmd j.rid j.cmd (fun c => { c with delivered := c.delivered + n }) s3
    | _, _ => s

/-- Apply the held writes that the sequence now reaches. -/
def applyHeld (src st : Nat) : Nat → State → State
  | 0, s => s
  | n + 1, s => match s.twine.held.find? (fun t => t.src == src && t.stall == st && t.seq == nextSeqOf s src st) with
    | none => s
    | some t =>
      let rest := s.twine.held.filter (fun x => x != t)
      let s1 := applyTrain t { s with twine := { s.twine with held := rest } }
      applyHeld src st n (setNextSeq src st ((t.seq + 1) % 2 ^ 24) s1)

/-- A train's writes arrive: in turn, ahead of a gap (held) or behind (a replay already taken). -/
def arriveTrain (t : Train) (s : State) : State :=
  let d := seqAhead t.seq (nextSeqOf s t.src t.stall)
  if d = 0 then
    let s1 := setNextSeq t.src t.stall ((t.seq + 1) % 2 ^ 24) (applyTrain t s)
    applyHeld t.src t.stall s1.twine.held.length s1
  else if d < 2 ^ 23 ∧ !s.twine.held.any (fun x => x.src == t.src && x.stall == t.stall && x.seq == t.seq) then
    { s with twine := { s.twine with held := s.twine.held ++ [t] } }
  else s

/-- SKIP_NOTICE (R401): the sequence continues at `seq`; held writes before it are discarded, later ones take effect. -/
def skipNotice (src st seq : Nat) (s : State) : State :=
  if seqAhead seq (nextSeqOf s src st) < 2 ^ 23 then
    let kept := s.twine.held.filter (fun x => !(x.src == src && x.stall == st) || decide (seqAhead x.seq seq < 2 ^ 23))
    let s1 := setNextSeq src st (seq % 2 ^ 24) { s with twine := { s.twine with held := kept } }
    applyHeld src st s1.twine.held.length s1
  else s

/-- The unfilled gaps of the sources a failed link serves (R223): held writes discarded, the parts ended, the counter
and the record. -/
def gapsFail (l : Nat) (s : State) : State :=
  let gaps := dedup ((s.twine.held.filter (fun t => (hopLinks s t.src).contains l)).map (fun t => (t.src, t.stall)))
  gaps.foldl (fun t g =>
    let mine := t.twine.held.filter (fun x => x.src == g.1 && x.stall == g.2)
    let next := nextSeqOf t g.1 g.2
    let t1 := { t with twine := { t.twine with held := t.twine.held.filter (fun x => !(x.src == g.1 && x.stall == g.2)) } }
    let t2 := mine.foldl (fun u x => match jointDst u x.ticket with | some j => endPart j.rid j.cmd FAULT_LINK 0 false u | none => u) t1
    detectRec 0x16 (g.1 + g.2 * 2 ^ 16) next 0xFFFF g.2 FAULT_LINK false (cvAdd 0x5102 2 g.2 1 t2)) s

/-! ### Failure (R401) -/

/-- The other UP links of the pair of a link. -/
def pairUp (s : State) (l : Nat) : List Nat := if l < 30 then ([2 * (l / 2), 2 * (l / 2) + 1].filter (fun x => x != l && linkUp s x)) else []

/-- A link becomes FAILED. Causes: 1 retry limit, 2 dead, 3 lock, 4 training seen. -/
def linkFailed (l cause : Nat) (injected : Bool) (s : State) : State :=
  let k := linkOf s l
  let peer := cv s 0x8110 2 l
  let s1 := cvAdd 0x8110 9 l 1 (cvSet 0x8110 2 l 0xFFFF (cvSet 0x8110 1 l 3 s))
  let s2 := if injected then s1 else detectRec 0x08 (linkLocator l 0xFF) cause 0xFFFF 0 0 false s1
  let s3 := gapsFail l (endLinkParts l none injected s2)
  let s4 := match pairUp s3 l with
    | o :: _ => (dedup (k.retry.map (·.1))).foldl (fun t st => send (.skip o (nodeNumber t) st (AMap.get 0 t.twine.sendSeq (peer * 256 + st))) t) s3
    | [] => s3
  setLink l { failTick := some (now s), credits := k.credits } s4

/-- A failure event of an UP link. -/
def linkEvent (l cause : Nat) (s : State) : State := if running s && linkUp s l then linkFailed l cause false s else s

/-- LINK_DEAD_TICKS_EXPIRY: no flit of any kind for LINK_DEAD_TICKS. -/
def linkDead (l : Nat) (s : State) : State :=
  if (linkOf s l).lastFlit + cv s 0x8100 6 ≤ now s then linkEvent l 2 s else s

/-- The injection of LINK_FAIL at a tick of a stall's booked use of a link (R494, R502). -/
def linkUseTick (l st : Nat) (s : State) : State :=
  let loc := linkLocator l st
  match inject 0x08 loc st (!armed s 0x08 st) s with
  | (none, t) => t
  | (some (dev, contain), t) =>
    let t1 := endLinkParts l (some st) true (errRec 0x08 loc 0 0xFFFF st FAULT_LINK dev true t)
    if !contain then t1
    else if dev then linkFailed l 0 true (detect 0x08 t1)
    else { t1 with twine := { t1.twine with blocked := AMap.set none t1.twine.blocked (l * 256 + st) (some (now t1 + 1280)) } }

/-! ### Training (R522, R14, R402) -/

/-- The board position of the peer a link expects. -/
def expectedPos (s : State) (l : Nat) : Nat :=
  let p := cv s 0x4002 1
  let own := if s.clk.brdPos < 16 then s.clk.brdPos else p
  if 30 ≤ l then own else if l / 2 < own then l / 2 else l / 2 + 1

/-- Sequence numbers with a node restart at zero (R224); what was held behind a gap is discarded. -/
def restartSeq (node : Nat) (s : State) : State :=
  { s with twine := { s.twine with nextSeq := AMap.keep (fun k _ => k / 256 != node) s.twine.nextSeq, sendSeq := AMap.keep (fun k _ => k / 256 != node) s.twine.sendSeq,
                                   held := s.twine.held.filter (fun t => t.src != node) } }

/-- LINK_UP: training ends; where no other link of the pair is up the sequences with the peer restart (R224, log entry 30); the link is UP, or DOWN where the peer is at another position. -/
def linkTrained (l node pos wire : Nat) (s : State) : State :=
  if !(running s && decide (l < 32) && cv s 0x8110 1 l == 1) then s
  else if pos ≠ expectedPos s l then cvSet 0xC040 2 0 (cv s 0xC040 2 ||| 2 ^ l) (cvSet 0x8110 1 l 0 s)
  else
    let s1 := cvSet 0x8110 3 l wire (cvSet 0x8110 2 l (node % 2 ^ 14) (cvSet 0x8110 1 l 2 s))
    let s2 := if (pairUp s l).isEmpty then restartSeq (node % 2 ^ 14) s1 else s1
    setLink l { upRound := some (curRound s), lastFlit := now s } s2

/-- TWINE_TRAIN_TIMEOUT: no peer answers; the link goes DOWN until a reset. -/
def trainTimeout (l : Nat) (s : State) : State :=
  if running s && decide (l < 32) && cv s 0x8110 1 l == 1 then cvSet 0x8110 1 l 0 s else s

/-- LINK_RETRAIN: 1,280 ticks after the failure the link trains again. -/
def linkRetrain (l : Nat) (s : State) : State :=
  match (linkOf s l).failTick with
  | some t => if running s && cv s 0x8110 1 l == 3 && decide (t + 1280 ≤ now s) then cvSet 0x8110 1 l 1 s else s
  | none => s

/-! ### Flits received (R397, R398) -/

def hByte (h : List Byte) (a n : Nat) : Nat := leNat (slice h a n)

/-- A flit that is not taken (R398): the retry request, the count of successive failures, the limit. `counted` false
leaves the counters as they are (R502, a stall-scope injection). -/
def flitFails (l st linkSeq : Nat) (counted : Bool) (s : State) : State :=
  let k := linkOf s l
  let s1 := send (.retry l st linkSeq) s
  if !counted then s1 else
  let s2 := cvAdd 0x8110 8 l 1 (setLink l { k with fails := k.fails + 1 } s1)
  if cv s 0x8100 5 ≤ k.fails + 1 then linkFailed l 1 false s2 else s2

/-- The injection of LINK_CRC (6) or LINK_FEC (7) on a flit: whether the flit is discarded, and whether that counts. -/
def flitInject (d l st detail ticket : Nat) (real : Bool) (s : State) : Option Bool × State :=
  if !armed s d st then (none, s) else
  match inject d (linkLocator l st) st real s with
  | (none, t) => (none, t)
  | (some (dev, contain), t) =>
    let t1 := errRec d (linkLocator l st) detail 0xFFFF st FAULT_LINK dev true t
    let t2 := match jointDst t1 ticket with | some j => endPart j.rid j.cmd FAULT_LINK 0 true t1 | none => t1
    if !contain then (none, t2)
    else if dev then (some true, cvAdd 0x8110 (if d = 6 then 7 else 6) l 1 (detect d t2)) else (some false, t2)

/-- A received flit against its CRC and the FEC decoder: taken, or discarded with its retry asked for. -/
def flitTaken (l st linkSeq ticket : Nat) (crcOk fecOk : Bool) (s : State) : Bool × State :=
  let s1 := if fecOk then s else cvAdd 0x8110 6 l 1 (detect 7 s)
  let s2 := if crcOk then s1 else cvAdd 0x8110 7 l 1 (detect 6 s1)
  let i6 := flitInject 6 l st linkSeq ticket (!crcOk) s2
  let i7 := flitInject 7 l st 0 ticket (!fecOk) i6.2
  let s3 := i7.2
  if !crcOk || !fecOk || i6.1 == some true || i7.1 == some true then (false, flitFails l st linkSeq true s3)
  else if i6.1.isSome || i7.1.isSome then (false, flitFails l st linkSeq false s3)
  else (true, setLink l { linkOf s3 l with fails := 0 } s3)

/-- The fields of a header are those of R397: KIND 1, 1 to 16 flits, reserved fields zero. -/
def headerFormOk (h : List Byte) : Bool :=
  hByte h 0 1 == 1 && inRange 1 16 (hByte h 1 1) && decide (hByte h 3 1 < 4) && hByte h 7 1 == 0 && hByte h 92 160 == 0

/-- The train of a header and its data flits. -/
def trainOf (src : Nat) (h : List Byte) (flits : List (List Byte)) : Train :=
  let first := hByte h 18 1
  let n := 256 * (flits.length - 1) + hByte h 19 1 + 1 - first
  { src := src, stall := hByte h 2 1, seq := hByte h 4 3, dst := hByte h 8 8, data := slice flits.flatten first n,
    tally := hByte h 16 2, packet := hByte h 3 1 % 2 == 1, lastOfPart := hByte h 3 1 / 2 == 1, ticket := hByte h 20 4 }

/-- The link a relay has booked for the data of a joint booking towards a node (R395): the one the query came on, where the data goes to
the origin, else the one the query left on. -/
def outLink (s : State) (ticket node : Nat) : Nat :=
  match jointAt s ticket false, jointAt s ticket true with
  | some up, some down => if node = up.q.origin then up.link else down.link
  | _, _ => 0
/-- A whole train has come: it takes effect here, or a relay sends it on (R395). -/
def trainDone (l : Nat) (h : List Byte) (flits : List (List Byte)) (s : State) : State :=
  let ticket := hByte h 20 4
  let src := match jointDst s ticket with
    | some j => if j.origin then nodeOf j.q.src else j.q.origin
    | none => cv s 0x8110 2 l
  let t := trainOf src h flits
  if nodeOf t.dst = nodeNumber s then arriveTrain t s
  else match s.gate.joints.find? (fun j => j.ticket == ticket && j.rid != 0) with
    | some j =>
      let s1 := putTrain (outLink s ticket (nodeOf t.dst)) t.stall (relayHeader h) flits s
      let large := match cmdOf s1 j.rid j.cmd with | some c => (match c.work with | .xfer x => isLarge s1 x.count | _ => false) | none => false
      act j.rid t.stall 11 t.data.length (actAs large j.rid t.stall 4 flits.length (updCmd j.rid j.cmd (fun c => { c with delivered := c.delivered + t.data.length }) s1))
    | none => s

/-- TRAIN_HEADER_RECEIVE. -/
def headerReceive (l : Nat) (f : BitVec 2048) (fecOk : Bool) (s : State) : State :=
  if !(running s && linkUp s l) then s else
  let h := flitBytes f
  let s1 := setLink l { linkOf s l with lastFlit := now s, header := none, got := [] } s
  let crcOk := hByte h 252 4 == crc32 (slice h 0 252)
  if crcOk && fecOk && !headerFormOk h then s1 else
  let seq := if crcOk && fecOk then hByte h 24 4 else (linkOf s l).linkSeq
  match flitTaken l (hByte h 2 1) seq (hByte h 20 4) crcOk fecOk s1 with
  | (true, t) => setLink l { linkOf t l with header := some f, got := [], linkSeq := (seq + 1) % 2 ^ 32 } t
  | (false, t) => t

/-- A flit taken by the link's train: kept, or the train ended by its last one. -/
def flitNext (l : Nat) (h : List Byte) (got : List (BitVec 2048)) (next : Nat) (t : State) : State :=
  if got.length < hByte h 1 1 then setLink l { linkOf t l with got := got, linkSeq := next } t
  else trainDone l h (got.map flitBytes) (setLink l { linkOf t l with header := none, got := [], linkSeq := next } t)
/-- What a taken or refused flit does to its link. -/
def flitStep (l : Nat) (h : List Byte) (k : Link) (f : BitVec 2048) (x : Bool × State) : State :=
  if x.1 then flitNext l h (k.got ++ [f]) ((k.linkSeq + 1) % 2 ^ 32) x.2 else x.2
/-- A flit of a train whose header flit is `hf`. -/
def flitGiven (l : Nat) (f : BitVec 2048) (fecOk : Bool) (k : Link) (h : List Byte) (s : State) : State :=
  flitStep l h k f (flitTaken l (hByte h 2 1) k.linkSeq (hByte h 20 4) (crc32 (flitBytes f) == hByte h (28 + 4 * k.got.length) 4) fecOk s)
/-- DATA_FLIT_RECEIVE: a flit of the train being received; the last completes the train. -/
def dataReceive (l : Nat) (f : BitVec 2048) (fecOk : Bool) (s : State) : State :=
  if !(running s && linkUp s l) then s else
  let s1 := setLink l { linkOf s l with lastFlit := now s } s
  match (linkOf s1 l).header with
  | none => s1
  | some hf => flitGiven l f fecOk (linkOf s1 l) (flitBytes hf) s1

/-! ### Control flits (R398, R399) -/

/-- RETRY_REQUEST received: the stall's flits are replayed from the one named, out of its own retry buffer. -/
def retryRequest (l st seq : Nat) (s : State) : State :=
  if !(running s && linkUp s l) then s else
  let mine := (linkOf s l).retry.filter (fun x => x.1 == st)
  let from_ := mine.dropWhile (fun x => x.2.1 != seq)
  from_.foldl (fun t x => send (.flit l x.2.2) t) (setLink l { linkOf s l with lastFlit := now s } s)

/-- CREDIT_MESSAGE: credits of a stall on a link. -/
def credit (l st n : Nat) (s : State) : State :=
  if !(running s && linkUp s l) then s else
  let k := linkOf s l
  setLink l { k with lastFlit := now s, credits := AMap.upd 0 k.credits st (· + n) } s

/-- The stalls that hold a slot group of a link. -/
def linkStalls (s : State) (l : Nat) : List Nat := (List.range 256).filter (fun st => shareMask s st (calChunk (calLink l)) != 0)

/-- CONTROL_FLIT_SEND: positions 0 to 6 go to the stalls holding the link in turn, in ascending number. -/
def controlFlit (l : Nat) (s : State) : State :=
  if !(running s && linkUp s l) || now s % cv s 0x8100 4 != 0 then s else
  let all := linkStalls s l
  let k := linkOf s l
  let turn := (all.drop (k.turn % max 1 all.length) ++ all.take (k.turn % max 1 all.length)).take 7
  send (.control l turn) (setLink l { k with turn := (k.turn + turn.length) % max 1 all.length } s)

def execLinkUp (link peerNode peerPos wireTicks : Nat) (s : State) : Out := .next (linkTrained link peerNode peerPos wireTicks s)
def execTwineTrainTimeout (link : Nat) (s : State) : Out := .next (trainTimeout link s)
def execSkipNotice (link src stall seq : Nat) (s : State) : Out :=
  .next (if running s && linkUp s link then skipNotice src stall seq (setLink link { linkOf s link with lastFlit := now s } s) else s)
def execCreditMessage (link stall count : Nat) (s : State) : Out := .next (credit link stall count s)
def execRetryRequest (link stall linkSeq : Nat) (s : State) : Out := .next (retryRequest link stall linkSeq s)
def execTrainHeaderReceive (link : Nat) (flit : BitVec 2048) (fecOk : Bool) (s : State) : Out := .next (headerReceive link flit fecOk s)
def execDataFlitReceive (link : Nat) (flit : BitVec 2048) (fecOk : Bool) (s : State) : Out := .next (dataReceive link flit fecOk s)
def execControlFlitSend (link : Nat) (s : State) : Out := .next (controlFlit link s)
def execLinkDeadTicksExpiry (link : Nat) (s : State) : Out := .next (linkDead link s)
def execLaneLockLoss (link _lane : Nat) (s : State) : Out := .next (linkEvent link 3 s)
def execPeerTrainingSeen (link : Nat) (s : State) : Out := .next (linkEvent link 4 s)
def execLinkRetrain (link : Nat) (s : State) : Out := .next (linkRetrain link s)

end Sys2Proof.Machine
end

