-- ==== Sys2Proof/Machine/Xlate.lean ====
section
/-! DEFINITION. Translation at work: pre-walks, ATS, the invalidation queues and page heat (R226-R251), and the decay of
row-cache frequencies (R329). -/

namespace Sys2Proof.Machine
open Sys2Proof

/-! ### Faults and installs (R234-R236, R242) -/

/-- A pre-walk yields no usable translation: the FAULT record, and the part's end with its sequence (R242). -/
def walkFault (w : PreWalk) (cause : Nat) (inj : Bool) (s : State) : State :=
  let r := xlateFault w.stall w.ctx w.va cause s
  endPart w.rid w.cmd FAULT_TRANSLATION (r.1 % 2 ^ 32) inj r.2

/-- Install one translation, replacing the stall's oldest entry not held where its entries are full (log entry 31). -/
def installTlb (x : Tlb) (s : State) : State :=
  let mine := s.xl.tlbs.filter (fun t => t.stall == x.stall && t.cluster == x.cluster)
  let cap := match x.cluster with | some k => 256 * popc 16 (lineWays s x.stall k) | none => cv s 0x3015 2 x.stall
  let out := if mine.length < cap then [] else (mine.find? (fun t => !tlbHeld s t)).toList
  { s with xl := { s.xl with tlbs := s.xl.tlbs.filter (fun t => !out.contains t) ++ [x] } }


/-- Mark a pre-walk as run. -/
def walkDone (w : PreWalk) (s : State) : State :=
  { s with xl := { s.xl with walks := s.xl.walks.map (fun x => if x.rid = w.rid ∧ x.index = w.index then { x with done := true } else x) } }

/-- A translated part of a command lands in extents: a close of one of them counts the request from now on (R32). -/
def landIn (rid cmd : Nat) (es : List Nat) (s : State) : State := updCmd rid cmd (fun c => { c with exts := dedup (c.exts ++ es) }) s
/-- A leaf found for a pre-walk: checked under R238, R240 and R228, then installed. -/
def walkFound (w : PreWalk) (ga size : Nat) (r wr dirty : Bool) (began : Nat) (s : State) : State :=
  if size < minLeaf s w.ctx then walkFault w LEAF_SMALL false s
  else if pinnedRange s w.stall ga size && closingRange s ga size then endPart w.rid w.cmd FAULT_EXTENT_CLOSED 0 false s
  else if !usableRange s w.stall ga size then walkFault w OUTSIDE false s
  else if (if w.write then !wr else !r) then walkFault w PERMISSION false s
  else if w.write && !dirty then walkFault w ACCESS_DIRTY false s
  else (walkTargets w).foldl (fun t k =>
    if (tlbFind t w.ctx k w.va).isSome then t
    else installTlb { ctx := w.ctx, stall := w.stall, cluster := k, va := w.va / size * size, ga := ga, size := size, read := r, write := wr, dirty := dirty, began := began } t)
    (landIn w.rid w.cmd (extsOf (offOf ga) size) s)

/-! ### Pre-walks (R233, R237) -/

/-- The injection of WALK_ERROR and HBM_UE over the table lines a walk reads: whether one ends the walk. An uncorrectable error in a
table line is a WALK_ERROR (R233), injected or not (R501). -/
def walkInject (w : PreWalk) : List Nat → State → Bool × State
  | [], s => (false, s)
  | a :: r, s =>
    if !armed s 0x0D w.stall && !armed s 0x00 w.stall then (false, s) else
    let bad := (tableEntry s w.stall a).isNone
    match inject 0x0D (a / 64 * 64) w.stall (bad || !armed s 0x0D w.stall) s with
    | (some (dev, _), t) => (true, errRec 0x0D (a / 64 * 64) w.ctx w.ctx w.stall FAULT_TRANSLATION dev true t)
    | (none, t) =>
      if bad then walkInject w r t else
      match hbmRange w.stall w.ctx (offOf a / 64 * 64) 64 true t with
      | (some true, t1) => (true, errRec 0x0D (a / 64 * 64) w.ctx w.ctx w.stall FAULT_TRANSLATION true true t1)
      | (_, t1) => walkInject w r t1

/-- A walk that ended in WALK_ERROR raises its detector: stall-caused where the page lies outside the stall's pinned
extents (R229, R233, R496). -/
def walkErrorRec (w : PreWalk) (reads : List Nat) (s : State) : State :=
  match reads.getLast? with
  | some a => detectRec 0x0D (a / 64 * 64) w.ctx w.ctx w.stall FAULT_TRANSLATION (!pinnedRange s w.stall a 8) s
  | none => s

/-- PRE_WALK: the booked pre-walk `index` of a request, from its round's boundary on. -/
def preWalk (rid index : Nat) (s : State) : State :=
  match s.xl.walks.find? (fun w => w.rid == rid && w.index == index) with
  | none => s
  | some w =>
    if w.done || !gateOpened s || decide (curRound s < w.round) || s.xl.ats.any (fun a => a.walk == w) then s
    else if (match cmdOf s rid w.cmd with | some c => c.status.isSome | none => true) then walkDone w s
    else if (walkTargets w).all (fun k => (tlbFind s w.ctx k w.va).isSome) then walkDone w s
    else if cv s 0x5810 1 w.ctx = 2 then
      let id := s.xl.nextAts
      send (.atsRequest id (cv s 0x5810 6 w.ctx) w.va)
        { s with xl := { s.xl with nextAts := id + 1, ats := s.xl.ats ++ [{ id := id, walk := w, issued := now s }] } }
    else
      let p := cv s 0x5810 2 w.ctx
      let reads := if canonical p w.va then walkReads s w.stall w.ctx w.va (if p = 0 then 3 else 4) (cv s 0x5810 3 w.ctx) else []
      let s1 := cvAdd 0x5841 2 w.stall 1 (act rid w.stall 0 reads.length (walkDone w s))
      match walkInject w reads s1 with
      | (true, t) => walkFault w WALK_ERROR true t
      | (false, t) =>
        match walkLeaf t w.stall w.ctx w.va w.write with
        | .leaf g n r wr dirty => walkFound w g n r wr dirty (1280 * w.round) t
        | .cause c => walkFault w c false (if c = WALK_ERROR then walkErrorRec w reads t else t)

/-! ### ATS (R248) -/

def dropAts (id : Nat) (s : State) : State := { s with xl := { s.xl with ats := s.xl.ats.filter (fun a => a.id != id) } }
def atsOf (s : State) (id : Nat) : Option AtsReq := s.xl.ats.find? (fun a => a.id == id)

/-- A Translation Completion: the translated address through NODE_MAP, or ATS_FAIL where it is unsuccessful or late. -/
def atsCompletion (id : Nat) (pa : Option Nat) (size : Nat) (writable readable : Bool) (s : State) : State :=
  match atsOf s id with
  | none => s
  | some a =>
    let w := a.walk
    let s1 := cvAdd 0x5841 2 w.stall 1 (walkDone w (dropAts id s))
    match pa with
    | none => walkFault w ATS_FAIL false s1
    | some p =>
      if a.issued + cv s 0x5800 6 < now s then walkFault w ATS_FAIL false s1 else
      match nodeMapped s1 w.ctx (p / size * size) with
      | none => walkFault w OUTSIDE false s1
      | some g => walkFound w g size readable writable true a.issued s1

/-- ATS_BOUND passes with no completion. -/
def atsBound (id : Nat) (s : State) : State :=
  match atsOf s id with
  | some a => if a.issued + cv s 0x5800 6 ≤ now s then walkFault a.walk ATS_FAIL false (walkDone a.walk (dropAts id s)) else s
  | none => s

/-- An Invalidate Request: an entry with DRAIN 0 for every context in mode ATS with that PASID, or one that applies to nothing. -/
def atsInvalidate (pasid va len : Nat) (s : State) : State :=
  let cs := ((storedInsts s 0x5810 1).filter (fun e => e.2 == 2 && cv s 0x5810 6 e.1 == pasid)).map (fun e => (ctxStall s e.1, e.1))
  let id := s.xl.nextAts
  { s with xl := { s.xl with nextAts := id + 1, iq := s.xl.iq ++ (if cs.isEmpty then [(0, 0x10000)] else cs).map (fun e =>
      { stall := e.1, va := va, len := len, ctx := e.2, drain := false, taken := now s, queue := false, ats := some (id, pasid) }) } }

/-! ### Invalidation (R245, R246) -/

/-- Take queue entry `pos` of a stall: malformed entries apply to every address, a foreign context to nothing; both with
an error record of kind 0x84. -/
def takeEntry (st pos : Nat) (s : State) : State :=
  let a := cv s 0x5830 1 st + 32 * (pos % cv s 0x5830 2 st)
  let readable := usableRange s st a 32 && !rangeBad s (offOf a) 32
  let w := if readable then storeNat s (offOf a) 32 else 0xFFFF * 2 ^ 112 + 2
  let va := bits w 255 192; let len := bits w 191 128; let c := bits w 127 112
  let formOk := bits w 111 1 == 0 && va % 4096 == 0 && len % 4096 == 0
  let foreign := c != 0xFFFF && ctxStall s c != st
  let e : IqEnt := { stall := st, va := va, len := if formOk then len else 0, ctx := if foreign then 0x10000 else c, drain := bit w 0,
                     taken := now s, queue := true }
  let s1 := { s with xl := { s.xl with iq := s.xl.iq ++ [e], iqTaken := AMap.set 0 s.xl.iqTaken st (pos + 1) } }
  if formOk && !foreign then s1 else errRec 0x84 c pos c st 0 false false s1

/-- Take the entries the tail tally covers; a tail more than IQ_ENTRIES ahead is one invalidation of every context. -/
def takeQueue (st : Nat) (s : State) : State :=
  let n := cv s 0x5830 2 st
  let tail := tallyVal s (cv s 0x5830 3 st)
  let taken := AMap.get 0 s.xl.iqTaken st
  if n = 0 || !ownsTally s st (cv s 0x5830 3 st) || decide (tail ≤ taken) then s
  else if n < tail - taken then
    let e : IqEnt := { stall := st, va := 0, len := 0, ctx := 0xFFFF, drain := false, taken := now s, queue := true, n := tail - taken }
    errRec 0x84 0xFFFF taken 0xFFFF st 0 false false
      { s with xl := { s.xl with iq := s.xl.iq ++ [e], iqTaken := AMap.set 0 s.xl.iqTaken st tail } }
  else (List.range (tail - taken)).foldl (fun t i => takeEntry st (taken + i) t) s

/-- Every invalidation queue, at the end of a tick: an entry is taken at the tick of the advance that covers it. -/
def takeQueues (s : State) : State := ((storedInsts s 0x5830 2).map (·.1)).foldl (fun t st => takeQueue st t) s

/-- An entry's scope holds a translation. -/
def inScope (e : IqEnt) (t : Tlb) : Bool :=
  t.stall == e.stall && (e.ctx == 0xFFFF || e.ctx == t.ctx) && (e.len == 0 || (decide (t.va < e.va + e.len) && decide (e.va < t.va + t.size)))
  && decide (t.began < e.taken)

/-- The entry may be applied at this boundary (R246). -/
def iqReady (s : State) (e : IqEnt) : Bool :=
  decide (e.taken / 1280 < curRound s)
  && !s.xl.walks.any (fun w => w.stall == e.stall && !w.done && decide (1280 * w.round < e.taken))
  && !s.xl.ats.any (fun a => a.walk.stall == e.stall && decide (a.issued < e.taken))
  && (!e.drain || !s.xl.tlbs.any (fun t => inScope e t && tlbHeld s t))

/-- Apply one entry: the translations in its scope go, the pre-walks that held one are cut, the done tally advances, the command
completes; one Invalidation Completion is sent once every entry of its request is applied. -/
def iqApplyOne (e : IqEnt) (s : State) : State :=
  let gone := s.xl.tlbs.filter (inScope e)
  let s1 := { s with xl := { s.xl with iq := s.xl.iq.erase e, tlbs := s.xl.tlbs.filter (fun t => !inScope e t),
                                       walks := s.xl.walks.map (fun w => if gone.any (fun t => walkHolds s t w) then { w with cut := true } else w) } }
  let s2 := if e.queue then cvAdd 0x5830 5 e.stall e.n (advance e.stall (cv s 0x5830 4 e.stall) e.n s1) else s1
  let s3 := if e.rid ≠ 0 then endCmd e.rid e.cmd OK 0 false s2 else s2
  match e.ats with
  | some x => if s3.xl.iq.any (fun y => y.ats == some x) then s3 else send (.atsInvDone x.2) s3
  | none => s3

/-- IQ_APPLY: at a boundary, the entries of a stall in the order taken, up to the first that must wait. -/
def iqApply (st : Nat) : Nat → State → State
  | 0, s => s
  | n + 1, s => match s.xl.iq.find? (fun e => e.stall == st) with
    | some e => if iqReady s e then iqApply st n (iqApplyOne e s) else s
    | none => s

/-! ### Page heat (R250) and frequencies (R329) -/

/-- HEAT_PERIOD: the records of the regions at or over the threshold, in ascending address order; the counters halve. -/
def heatPeriod (st : Nat) (s : State) : State :=
  if !atBoundary s || !gateOpened s || cv s 0x5840 3 st != 1 || curRound s % cv s 0x5840 1 st != 0 then s else
  let mine := fun (k : Nat) => (extRec s (k / 512)).state != 0 && (extRec s (k / 512)).stall == st
  let keys := (dedup ((s.xl.heatUnits ++ s.xl.heatAgents).map (·.1))).mergeSort (fun a b => decide (a ≤ b)) |>.filter mine
  let hot := keys.filter (fun k => decide (cv s 0x5840 2 st ≤ AMap.get 0 s.xl.heatUnits k + AMap.get 0 s.xl.heatAgents k))
  let s1 := hot.foldl (fun t k => (xrAppend st (xlateBits (gaddr s (k * 2 ^ 21)) (now s) (AMap.get 0 s.xl.heatUnits k) (AMap.get 0 s.xl.heatAgents k) 0xFFFF 2 0) t).2) s
  keys.foldl (fun t k => { t with xl := { t.xl with heatUnits := AMap.upd 0 t.xl.heatUnits k (· / 2), heatAgents := AMap.upd 0 t.xl.heatAgents k (· / 2) } }) s1

/-- DECAY_PERIOD: every row-cache frequency counter of the stall is halved. -/
def decayPeriod (st : Nat) (s : State) : State :=
  if !atBoundary s || cv s 0x7200 2 st == 0 || curRound s % cv s 0x7200 2 st != 0 then s else
  { s with emb := { s.emb with freq := s.emb.freq.filterMap (fun e => if e.1 / 2 ^ 32 = st then (if e.2 / 2 = 0 then none else some (e.1, e.2 / 2)) else some e) } }

def execPreWalk (rid index : Nat) (s : State) : Out := .next (preWalk rid index s)
def execAtsCompletion (id : Nat) (ga : Option Nat) (size : Nat) (x : AtsRights) (s : State) : Out := .next (atsCompletion id ga size x.writable x.readable s)
def execAtsBoundExpiry (id : Nat) (s : State) : Out := .next (atsBound id s)
def execAtsInvalidateRequest (pasid va length : Nat) (s : State) : Out := .next (atsInvalidate pasid va length s)
def execIqApply (stall : Nat) (s : State) : Out := .next (if atBoundary s then iqApply stall s.xl.iq.length s else s)
def execHeatPeriod (stall : Nat) (s : State) : Out := .next (heatPeriod stall s)
def execDecayPeriod (stall : Nat) (s : State) : Out := .next (decayPeriod stall s)

end Sys2Proof.Machine
end

