-- ==== Sys2Proof/Machine/PorterMem.lean ====
section
/-! DEFINITION. What a porter reaches: its memory, the banks, the line cache and the store buffer, the windows; acquire,
release and the atomics (R186-R188, R198-R208, R264-R265, R270-R275). -/

namespace Sys2Proof.Machine
open Sys2Proof

/-! ### Exceptions and outcomes (R277) -/

/-- An exception: the status that ends the part, the record's mcause and mtval, the record's detail word. -/
structure PTrap where
  status : Nat
  cause : Nat
  tval : Nat
  detail : Nat := 0
  deriving DecidableEq, Repr

/-- What an operation of a porter comes to: a value, an exception, or a wait (the instruction is tried again). -/
inductive PRes where
  | val (v : Nat)
  | trap (t : PTrap)
  | wait
  deriving DecidableEq, Repr

/-- Cluster, core within it, and column of a porter. -/
def porterCluster (p : Nat) : Nat := p / 16
def porterCore (p : Nat) : Nat := p / 2 % 8

/-- Access-fault and misaligned causes of the RISC-V privileged architecture, for a load or a store. -/
def accessFault (write : Bool) (a : Nat) : PTrap := ⟨PROTECTION, if write then 7 else 5, a, 0⟩
def misaligned (write : Bool) (a : Nat) : PTrap := ⟨INVALID, if write then 6 else 4, a, 0⟩
def memoryFault (a : Nat) : PTrap := ⟨FAULT_MEMORY, 19, a, 0⟩

/-- Halt a porter and end its part (R277): mcause, mepc and mtval, the count, the record. The manual gives the record's
kind no code: it is a free value, and the places of its fields are the model's (log entry 32). -/
def porterTrap (p : Nat) (t : PTrap) (s : State) : State :=
  let x := porterOf s p
  let cs := AMap.set 0 (AMap.set 0 (AMap.set 0 x.csrs 0x342 (BitVec.ofNat 32 t.cause)) 0x341 x.pc) 0x343 (BitVec.ofNat 32 t.tval)
  let k := fresh 16 ((if x.amoAt.isSome then pump else id) (setPorter p { x with run := 4, csrs := cs, tw := none, amo := 0, amoAt := none } s))
  let s1 := errRec k.1.toNat (t.tval % 2 ^ 32 + x.pc.toNat * 2 ^ 32) (p + t.cause * 256) x.ctx x.stall t.status false false (cvAdd 0x6020 5 x.stall 1 k.2)
  endCmd x.rid x.cmd t.status t.detail false s1

/-! ### Where an address lies (R272, R273) -/

inductive Place where
  | tcm (a : Nat)
  | spad (a : Nat)
  | store (a : Nat)
  | line (ga : Nat) (bypass : Bool)
  | win (off : Nat)
  | bad (t : PTrap)
  deriving DecidableEq, Repr

/-- The stall may reach a store byte for the access: its own extent, or for a load one a pact covers; a closing extent
only where the command is counted in it; a backed extent only where the frame is cached (log entry 33). -/
def lineReach (s : State) (x : Porter) (ga : Nat) (write : Bool) : Option PTrap :=
  let e := extOf (offOf ga)
  let named := match cmdOf s x.rid x.cmd with | some c => c.exts.contains e | none => false
  if !(if write then ownsRange s x.stall ga 1 else readsRange s x.stall ga 1) then some (accessFault write ga)
  else if (extRec s e).state != 1 && !named then some ⟨FAULT_EXTENT_CLOSED, if write then 7 else 5, ga, 0⟩
  else if (extRec s e).backed && !present s (offOf ga / 65536) then some (accessFault write ga)
  else none

/-- The place of an access at `a`; a failed translation writes its FAULT record. -/
def placeOf (p a : Nat) (write : Bool) (s : State) : Place × State :=
  let x := porterOf s p
  if a < 0x10000 then (.tcm a, s)
  else if 0x10000000 ≤ a ∧ a < 0x10100000 then (.spad (a - 0x10000000), s)
  else if 0x20000000 ≤ a ∧ a < 0x20C00000 then (.store (a - 0x20000000), s)
  else if a < 0x80000000 then (.bad (accessFault write a), s)
  else
    let n := (a - 0x80000000) / 0x20000000
    let lo := (AMap.get 0 x.csrs (0x800 + 2 * n)).toNat
    let hi := (AMap.get 0 x.csrs (0x801 + 2 * n)).toNat
    let ga := (hi * 2 ^ 32 + lo / 2 ^ 29 * 2 ^ 29 + (a - 0x80000000) % 0x20000000) % 2 ^ 64
    if !bit lo 0 then (.bad (accessFault write a), s)
    else if bit lo 1 then
      match xlate s x.ctx (some (porterCluster p)) ga write with
      | .inl g => match lineReach s x g write with | some t => (.bad t, s) | none => (.line g (bit lo 2), s)
      | .inr c =>
        let f := xlateFault x.stall x.ctx ga c s
        (.bad ⟨FAULT_TRANSLATION, if write then 15 else 13, a, f.1 % 2 ^ 32⟩, f.2)
    else if nodeOf ga ≠ nodeNumber s then (.bad (accessFault write a), s)
    else if isWindow (offOf ga) then (.win (offOf ga), s)
    else match lineReach s x ga write with | some t => (.bad t, s) | none => (.line ga (bit lo 2), s)

/-! ### The line cache and the store buffer (R199-R201) -/

def lcFind (s : State) (k st line : Nat) : Option LcLine := s.fab.lc.find? (fun l => l.cluster == k && l.stall == st && l.line == line)
def setLc (l : List LcLine) (s : State) : State := { s with fab := { s.fab with lc := l } }

/-- A line enters the stall's ways of a cluster: 256 lines a way. Where they are full a line the model does not choose is
replaced, its data written back where the cluster owns it (log entry 34). -/
def lcAlloc (x : LcLine) (s : State) : State :=
  let mine := s.fab.lc.filter (fun l => l.cluster == x.cluster && l.stall == x.stall)
  let cap := 256 * popc 16 (lineWays s x.stall x.cluster)
  if cap = 0 then s
  else if mine.length < cap then setLc (s.fab.lc ++ [x]) s
  else
    match mine[(Config.free 16 (orderIx s x.stall)).toNat % mine.length]? with
    | none => s
    | some o =>
      let s1 := setLc (s.fab.lc.filter (fun l => l != o) ++ [x]) (useOrders x.stall 1 s)
      if o.owned then storeWrite (64 * o.line) (leBytes 64 o.data.toNat) s1 else s1

/-- Bytes `[i, i + n)` of a line's data replaced. -/
def patchLine (d : BitVec 512) (i : Nat) (b : List Byte) : BitVec 512 :=
  let l := leBytes 64 d.toNat
  BitVec.ofNat 512 (leNat (l.take i ++ b ++ l.drop (i + b.length)))
/-- Overlay the bytes a mask names. -/
def overlayLine (d : BitVec 512) (e : SbEnt) : BitVec 512 :=
  BitVec.ofNat 512 (leNat ((List.range 64).map (fun i => if e.mask.getLsbD i then BitVec.ofNat 8 (e.data.toNat / 2 ^ (8 * i)) else BitVec.ofNat 8 (d.toNat / 2 ^ (8 * i)))))

/-- A load of `n` bytes from a store line (R199, R200). -/
def lineLoad (p ga n : Nat) (bypass : Bool) (s : State) : PRes × State :=
  let x := porterOf s p
  let k := porterCluster p
  let line := offOf ga / 64
  let own := fun (d : BitVec 512) => match x.sb.find? (fun e => e.line == line) with | some e => overlayLine d e | none => d
  let pick := fun (d : BitVec 512) => leNat (slice (leBytes 64 (own d).toNat) (offOf ga % 64) n)
  match (if bypass then none else lcFind s k x.stall line) with
  | some l => (.val (pick l.data), s)
  | none =>
    match hbmRange x.stall x.ctx (64 * line) 64 true (heat false (64 * line) 1 (act x.rid x.stall 0 1 s)) with
    | (some _, t) => (.trap (memoryFault ga), t)
    | (none, t) =>
      let d := BitVec.ofNat 512 (leNat (storeRead t (64 * line) 64))
      (.val (pick d), if bypass then t else lcAlloc { cluster := k, stall := x.stall, line := line, data := d } t)

/-- A store-buffer entry is written at the home: a write by the device's own units (R183, R201). The line of the cluster's line
cache, where the line has come in since the store, takes its bytes: the porter's loads go on seeing them (R199). -/
def writeEntryHome (p : Nat) (x : Porter) (e : SbEnt) (s : State) : State :=
  let off := 64 * e.line
  if (extRec s (extOf off)).state = 0 ∨ (extRec s (extOf off)).stall ≠ x.stall then s else
  let s0 := setLc (s.fab.lc.map (fun l => if l.cluster = porterCluster p ∧ l.stall = x.stall ∧ l.line = e.line then { l with data := overlayLine l.data e } else l)) s
  let s1 := heat false off 1 (act x.rid x.stall 0 1 s0)
  let s2 := (hbmRange x.stall x.ctx off 64 false s1)
  match s2.1 with
  | some i => endCmd x.rid x.cmd FAULT_MEMORY 0 i s2.2
  | none => owned x.rid (p + 1) (homeWrite { line := e.line, data := e.data, mask := e.mask, tick := now s }) s2.2

/-- Drain the oldest entry of a porter's store buffer. -/
def drainOne (p : Nat) (s : State) : State :=
  let x := porterOf s p
  match x.sb with
  | [] => s
  | e :: r => writeEntryHome p x e (setPorter p { x with sb := r } s)
def drainN (p : Nat) : Nat → State → State
  | 0, s => s
  | n + 1, s => drainN p n (drainOne p s)
def drainAll (p : Nat) (s : State) : State := drainN p (porterOf s p).sb.length s

/-- A store to a line needs an entry, and all 16 are in use (R201). -/
def bufferFull (x : Porter) (line : Nat) : Bool := decide (16 ≤ x.sb.length) && x.sb.all (fun e => e.line != line)
/-- A store of `n` bytes to a store line (R201); one that finds 16 entries in use waits until the oldest is written. -/
def lineStore (p ga n v : Nat) (s0 : State) : PRes × State :=
  let s := if bufferFull (porterOf s0 p) (offOf ga / 64) then drainOne p s0 else s0
  let x := porterOf s p
  let k := porterCluster p
  let line := offOf ga / 64
  let i := offOf ga % 64
  let b := leBytes n v
  let s1 := setLc (s.fab.lc.map (fun l => if l.cluster = k ∧ l.stall = x.stall ∧ l.line = line then { l with data := patchLine l.data i b } else l)) s
  let m := BitVec.ofNat 64 ((2 ^ n - 1) * 2 ^ i)
  if x.sb.any (fun e => e.line == line) then
    (.val 0, setPorter p { x with sb := x.sb.map (fun e => if e.line = line then { e with mask := e.mask ||| m, data := patchLine e.data i b } else e) } s1)
  else (.val 0, setPorter p { x with sb := x.sb ++ [{ line := line, mask := m, data := patchLine 0 i b }] } s1)

/-! ### Loads and stores (R272, R275) -/

/-- The cells of the porter's own memory, in the stall's pages. -/
def tcmOk (s : State) (p a : Nat) : Bool := bit (tcmPages s (porterOf s p).stall (porterCluster p) (porterCore p)) (a / 4096)
/-- The SRAM locator of a porter-memory word: the porter's place in the bank field (log entry 32). -/
def tcmLocator (p a : Nat) : Nat := sramLocator (porterCluster p) (p % 16) (a / 8)

def readTcm (s : State) (p a : Nat) : Nat → List Byte
  | 0 => []
  | n + 1 => bankByte s (tcmBase p + a) :: readTcm s p (a + 1) n
def writeTcm (p a : Nat) : List Byte → State → State
  | [], s => s
  | b :: r, s => writeTcm p (a + 1) r (setBankByte (tcmBase p + a) b s)

/-- A bank access of a porter: its banks and their size. -/
def portBanks (s : State) (p : Nat) (spad : Bool) : List Nat × Nat :=
  let st := (porterOf s p).stall
  if spad then (spadList s st (porterCluster p) (porterCore p), spadSize s st (porterCluster p) (porterCore p))
  else (storeList s st (porterCluster p), storeSize s st (porterCluster p))

/-- A load of `n` bytes, naturally aligned. -/
def porterLoad (p a n : Nat) (s : State) : PRes × State :=
  let x := porterOf s p
  if a % n ≠ 0 then (.trap (misaligned false a), s) else
  let bank := fun (spad : Bool) (b : Nat) =>
    let bs := portBanks s p spad
    if bs.2 < b + n then (PRes.trap (accessFault false a), s)
    else if !rangeOn s x.stall (porterCluster p) bs.1 b n then (.trap (memoryFault a), s)
    else match spaceRange x.stall x.ctx (porterCluster p) bs.1 b n s with
      | (some i, t) => (.trap (memoryFault a), sramEnd x.rid x.cmd x.stall x.ctx (bankLocator (spaceAddr (porterCluster p) bs.1 b)) i t)
      | (none, t) => (.val (leNat (readSpace t (porterCluster p) bs.1 b n)), t)
  match placeOf p a false s with
  | (.bad t, s1) => (.trap t, s1)
  | (.tcm b, _) =>
    if !tcmOk s p b then (.trap (accessFault false a), s)
    else match sramWord x.stall x.ctx (tcmLocator p b) ((tcmBase p + b) / 8) s with
      | (some i, t) => (.trap (memoryFault a), sramEnd x.rid x.cmd x.stall x.ctx (tcmLocator p b) i t)
      | (none, t) => (.val (leNat (readTcm t p b n)), t)
  | (.spad b, _) => bank true b
  | (.store b, _) => bank false b
  | (.line ga byp, s1) => lineLoad p ga n byp s1
  | (.win off, s1) =>
    if reachesWindow s1 (.porter p) off n then (.val (leNat (winRead s1 off n)), s1)
    else (.trap (memoryFault a), protectionRec (.porter p) (gaddr s1 off) 3 s1)

/-- A store of `n` bytes, naturally aligned. -/
def porterStore (p a n v : Nat) (s : State) : PRes × State :=
  let x := porterOf s p
  if a % n ≠ 0 then (.trap (misaligned true a), s) else
  let bank := fun (spad : Bool) (b : Nat) =>
    let bs := portBanks s p spad
    if bs.2 < b + n then (PRes.trap (accessFault true a), s)
    else if !rangeOn s x.stall (porterCluster p) bs.1 b n then (.trap (memoryFault a), s)
    else (.val 0, writeSpace (porterCluster p) bs.1 b (leBytes n v) s)
  match placeOf p a true s with
  | (.bad t, s1) => (.trap t, s1)
  | (.tcm b, _) => if tcmOk s p b then (.val 0, writeTcm p b (leBytes n v) s) else (.trap (accessFault true a), s)
  | (.spad b, _) => bank true b
  | (.store b, _) => bank false b
  | (.line ga _, s1) => lineStore p ga n v s1
  | (.win off, s1) => (.val 0, winWrite (.porter p) off (leBytes n v) (2 ^ n - 1) s1)

/-! ### Acquire and release (R202, R203) -/

/-- The lines of a RANGE operand: `n` lines from the one that holds the address, each through the aperture. -/
def rangeLines (p a : Nat) : Nat → State → (List Nat ⊕ PTrap) × State
  | 0, s => (.inl [], s)
  | n + 1, s => match placeOf p a false s with
    | (.line ga _, s1) => match rangeLines p (a + 64) n s1 with
      | (.inl l, s2) => (.inl (offOf ga / 64 :: l), s2)
      | r => r
    | (.bad t, s1) => (.inr t, s1)
    | (_, s1) => (.inr (accessFault false a), s1)

/-- A write of the porter waits at the home, or a back-invalidation its writes caused is open. -/
def porterSnps (s : State) (p : Nat) : Bool := s.coh.snps.any (fun x => x.porter == p + 1) || s.coh.waits.any (fun w => w.porter == p + 1)

/-- TC.ACQ: the lines of the stall's ways in the cluster that the cluster does not own go. `scope` none is ALL. -/
def acquire (p : Nat) (scope : Option (List Nat)) (s : State) : PRes × State :=
  let x := porterOf s p
  (.val 0, setLc (s.fab.lc.filter (fun l => !(l.cluster == porterCluster p && l.stall == x.stall && !l.owned
    && (match scope with | none => true | some ls => ls.contains l.line)))) s)

/-- TC.REL: every store of the porter is written at the home, and the owned lines in scope to HBM; it waits while a
back-invalidation that such writes caused is open. -/
def release (p : Nat) (scope : Option (List Nat)) (s : State) : PRes × State :=
  let x := porterOf s p
  let s1 := drainAll p s
  if porterSnps s1 p then (.wait, s1)
  else
    let own := s1.fab.lc.filter (fun l => l.cluster == porterCluster p && l.stall == x.stall && l.owned
      && (match scope with | none => true | some ls => ls.contains l.line))
    (.val 0, own.foldl (fun t l => storeWrite (64 * l.line) (leBytes 64 l.data.toNat) t) s1)

/-- An operation with the scope of R202: funct7 0 is ALL, 1 is RANGE. -/
def withScope (p : Nat) (op : Nat → Option (List Nat) → State → PRes × State) (range : Option (Nat × Nat)) (s : State) : PRes × State :=
  match range with
  | none => op p none s
  | some (a, n) =>
    if n < 1 ∨ 64 < n then (.trap ⟨INVALID, 2, 0, 0⟩, s)
    else match rangeLines p (a / 64 * 64) n s with
      | (.inl ls, s1) => op p (some ls) s1
      | (.inr t, s1) => (.trap t, s1)

/-! ### Tallies (R214-R217) -/

/-- TC.TWAIT begins: the porter waits on the tally. -/
def twaitBegin (p rd tally target : Nat) (s : State) : PRes × State :=
  let x := porterOf s p
  if !reachesTally s x.stall tally then (.trap (accessFault false tally), s)
  else (.val 0, setPorter p { x with run := 3, tw := some (rd, tally, target, now s) } s)

/-- TC.TADD: the tally advances at once. -/
def porterTadd (p tally amount : Nat) (s : State) : PRes × State :=
  let x := porterOf s p
  if !reachesTally s x.stall tally then (.trap (accessFault true tally), s) else (.val 0, advance x.stall tally amount s)

/-! ### Atomics (R186-R188, R274, R275) -/

/-- The new value of an atomic: `old` in memory, `v` the operand, `want` what CAS expects. -/
def amoNew (op n old v want : Nat) : Nat :=
  let w := 8 * n
  match op with
  | 0 => (old + v) % 2 ^ w
  | 1 => v
  | 2 => if old = want then v else old
  | 3 => if sext w v < sext w old then v else old
  | 4 => if sext w old < sext w v then v else old
  | 5 => min old v
  | 6 => max old v
  | _ => fadd32 old v

/-- The predictor counter of a line (R186). -/
def predKey (s : State) (st off : Nat) : Nat :=
  st * 2 ^ 24 + (bits off 27 12 ^^^ bits off 43 28 ^^^ bits off 49 44) % (cv s 0x3015 1 st / 256)
def runsFar (s : State) (st off : Nat) : Bool :=
  let mode := cv s 0x5003 4 st
  if !homeOrdered s st || decide (cv s 0x3015 1 st / 256 = 0) || mode == 1 then true
  else if mode = 2 then false
  else decide (2 ≤ AMap.get 0 s.coh.predictor (predKey s st off))
/-- The counter moves once the atomic is served. -/
def predMove (st off : Nat) (held : Bool) (s : State) : State :=
  if cv s 0x3015 1 st / 256 = 0 then s else
  { s with coh := { s.coh with predictor := AMap.upd 0 s.coh.predictor (predKey s st off) (fun c => if held then min 3 (c + 1) else c - 1) } }

/-- The line is held by a requester other than the cluster. -/
def heldByOther (s : State) (k st off : Nat) : Bool :=
  match lookupEnt s st off with
  | some e => !(holdersOf s e).isEmpty || (match e.cluster with | some j => j != k | none => false)
  | none => false

/-- The line of a near atomic is taken (R187): its holders' back-invalidations, the recall, the entry that names the cluster. -/
def ownLine (k st line w : Nat) (s : State) : State :=
  let mine : DirEnt := { line := line, stall := st, owned := true, cluster := some k }
  match lookupEnt s st (64 * line) with
  | none => setWay w (some mine) s
  | some e =>
    let t := (holdersOf s e).foldl (fun t a => sendSnp a line 2 0 st none e.owned t) (setWay w (some mine) s)
    if e.cluster.isSome then recallLine line t else t
/-- The entries of a line's sector, one of which an atomic of the porter evicts. -/
def evicting (s : State) (p st line : Nat) : Bool :=
  match sectorOf s st (64 * line) with
  | none => false
  | some sec => s.coh.snps.any (fun x => x.porter == p + 1 && ((dirWay s sec 0).any (fun e => e.line == x.line) || (dirWay s sec 1).any (fun e => e.line == x.line)))
/-- Take a line for a near atomic (R178, R187): where both ways of its sector are in use one is evicted, its holders' answers
waited for, and where both are blocked the atomic waits. False while it has no way. -/
def takeLine (p st line : Nat) (s : State) : Bool × State :=
  let k := porterCluster p
  match wayFor s st line with
  | some w => (true, ownLine k st line w s)
  | none =>
    if evicting s p st line then (false, s) else
    match victimWay s st line with
    | none => (false, s)
    | some (w, v) =>
      let s1 := cvAdd 0x5001 4 st 1 s
      if (holdersOf s v).isEmpty then
        (true, ownLine k st line w (recallLine v.line (setWay w none s1)))
      else (false, (holdersOf s v).foldl (fun t a => sendSnp a v.line 2 0 st none v.owned t) s1)

/-- What of an atomic has begun: whether its line was held by another, and whether it runs far. -/
def amoMark (p : Nat) (held far : Bool) (s : State) : State :=
  setPorter p { porterOf s p with amo := 1 + held.toNat + 2 * far.toNat } s
/-- An atomic that has not begun waits (R179): its line is blocked, or an agent's request, an atomic or a write that reached the
home before it waits for the line. Of one tick agents come first, then clusters by number, then writes. -/
def amoWaits (s : State) (p line t : Nat) : Bool :=
  heldFor s line (some p) || agentFirst s line t
  || s.coh.waits.any (fun w => w.line == line && (decide (w.tick < t) || w.sent || w.porter == p + 1))
  || s.fab.porters.any (fun x => x.1 != p && amoLive s x.2
      && x.2.amoAt.any (fun a => a.1 == line && (decide (a.2 < t) || a.2 == t && decide (x.1 < p))))

/-- Serve an atomic whose line is free: near in the line cache, far at the home. The old value. -/
def amoServe (p op n ga v want : Nat) (far held : Bool) (s : State) : PRes × State :=
  let x := porterOf s p
  let k := porterCluster p
  let off := offOf ga
  let line := off / 64
  let done := fun (t : State) => pump (cvAdd 0x5003 (if far then 3 else 2) x.stall 1 (predMove x.stall off held (setPorter p { porterOf t p with amo := 0, amoAt := none } t)))
  match (if far then none else lcFind s k x.stall line) with
  | some l =>
    if l.owned then
      let old := leNat (slice (leBytes 64 l.data.toNat) (off % 64) n)
      let d := patchLine l.data (off % 64) (leBytes n (amoNew op n old v want))
      (.val old, done (setLc (s.fab.lc.map (fun y => if y = l then { l with data := d } else y)) s))
    else (.wait, s)
  | none =>
    match hbmRange x.stall x.ctx (64 * line) 64 true (heat false (64 * line) 1 (act x.rid x.stall 0 1 s)) with
    | (some _, t) => (.trap (memoryFault ga), t)
    | (none, t) =>
      let old := leNat (storeRead t off n)
      (.val old, done (storeWrite off (leBytes n (amoNew op n old v want)) t))

/-- An atomic access runs at the store: far by its line, or the cluster has no place for the line. -/
def amoFar (k st off : Nat) (s : State) : Bool := runsFar s st off || lineWays s st k == 0 || (sectorOf s st off).isNone
/-- Lines of the line caches other than a stall's line in one cluster. -/
def otherLines (k st line : Nat) (s : State) : List LcLine := s.fab.lc.filter (fun l => !(l.cluster == k && l.stall == st && l.line == line))
/-- The line of an atomic access claimed: invalidated everywhere for a far one, taken by the cluster for a near one. False
while a near one has no way. -/
def amoClaim (p st amo off : Nat) (far : Bool) (s : State) : Bool × State :=
  let k := porterCluster p
  if far then (true, if amo ≠ 0 then s else unitInvalidate off none false s)
  else if (match lookupEnt s st off with | some e => e.cluster == some k | none => false) then (true, s)
  else let t := takeLine p st (off / 64) s
       (t.1, setLc (otherLines k st (off / 64) t.2) t.2)
/-- The claimed line read into the cluster's line cache. -/
def amoFill (k st line : Nat) (s : State) : State :=
  lcAlloc { cluster := k, stall := st, line := line, data := BitVec.ofNat 512 (leNat (storeRead s (64 * line) 64)), owned := true }
    (setLc (otherLines k st line s) s)
/-- The access once its line is claimed and no invalidation is open. -/
def amoRun (p op n ga v want : Nat) (far held : Bool) (s : State) : PRes × State :=
  let x := porterOf s p
  let off := offOf ga
  let k := porterCluster p
  if far || (lcFind s k x.stall (off / 64)).any (·.owned) then amoServe p op n ga v want far held s
  else match hbmRange x.stall x.ctx (off / 64 * 64) 64 true (act x.rid x.stall 0 1 s) with
    | (some _, t) => (.trap (memoryFault ga), t)
    | (none, t) => amoServe p op n ga v want far held (amoFill k x.stall (off / 64) t)

/-- An atomic of `n` bytes: it first drains the porter's own stores of the line, frees the line of other holders, waits
for their answers, and is then served near or far. -/
def porterAmo (p op n a v want : Nat) (s : State) : PRes × State :=
  let x := porterOf s p
  if a % n ≠ 0 then (.trap (misaligned true a), s) else
  match placeOf p a true s with
  | (.bad t, s1) => (.trap t, s1)
  | (.line ga _, s0) =>
    let off := offOf ga
    let k := porterCluster p
    let s1 := if x.sb.any (fun e => e.line == off / 64) then drainAll p s0 else s0
    let at_ := match x.amoAt with | some a => if a.1 = off / 64 then a else (off / 64, now s) | none => (off / 64, now s)
    let s2 := setPorter p { porterOf s1 p with amoAt := some at_ } s1
    if x.amo = 0 ∧ amoWaits s2 p (off / 64) at_.2 = true then (.wait, s2) else
    let far := if x.amo = 0 then amoFar k x.stall off s2 else decide (3 ≤ x.amo)
    let held := x.amo == 2 || x.amo == 4 || heldByOther s2 k x.stall off
    let s3 := amoMark p held far s2
    let n0 := s3.coh.snps.length
    let c := amoClaim p x.stall x.amo off far s3
    let s4 := { c.2 with coh := { c.2.coh with snps := c.2.coh.snps.take n0 ++ (c.2.coh.snps.drop n0).map (fun y => { y with owner := x.rid, porter := p + 1 }) } }
    if !c.1 || s4.coh.snps.any (fun y => y.line == off / 64 && y.req == 0) then (.wait, s4)
    else amoRun p op n ga v want far held s4
  | (_, s1) => (.trap (accessFault true a), s1)

end Sys2Proof.Machine
end

