-- ==== Sys2Proof/Machine/Porter.lean ====
section
/-! DEFINITION. The porters: RV32IMC in machine mode with the tile-control extension (R271-R277, R293, R294). The base
instruction set is the RISC-V one, which the manual names and does not repeat (log entry 35). -/

namespace Sys2Proof.Machine
open Sys2Proof

/-! ### Registers and CSRs -/

def rget (x : Porter) (r : Nat) : Nat := if r = 0 then 0 else (AMap.get 0 x.regs r).toNat
def rset (r v : Nat) (x : Porter) : Porter := if r = 0 then x else { x with regs := AMap.set 0 x.regs r (BitVec.ofNat 32 v) }
/-- A pair of registers, low then high (R274). -/
def pget (x : Porter) (r : Nat) : Nat := rget x r + rget x (r + 1) * 2 ^ 32
def pset (r v : Nat) (x : Porter) : Porter := rset (r + 1) (v / 2 ^ 32) (rset r v x)

/-- Compute cycles of a tick at the operating point in effect (R106). -/
def cyclesPerTick (s : State) : Nat := oppMhz (cv s 0x2030 4) / 100

/-- The columns of a porter's part in its cluster. -/
def partColumns (s : State) (p : Nat) : List Nat :=
  let x := porterOf s p
  ((s.fab.runB.spans.filter (fun y => y.rid == x.rid && y.cmd == x.cmd && y.col / 8 == porterCluster p)).map (fun y => y.col % 8))

/-- A CSR's value; none where it does not exist. Counters count R276's cycles; the interrupt-enable bits read zero. -/
def csrRead (s : State) (p n : Nat) : Option Nat :=
  let x := porterOf s p
  if 0x800 ≤ n ∧ n ≤ 0x808 then some (AMap.get 0 x.csrs n).toNat
  else if n = 0x809 then some p
  else if 0x80A ≤ n ∧ n ≤ 0x811 then
    if (partColumns s p).contains (n - 0x80A) then some (setBit (AMap.get 0 s.fab.pred (8 * porterCluster p + (n - 0x80A))) 0 true) else none
  else match n with
    | 0x300 => some 0x1800
    | 0x301 => some 0x40001104
    | 0x304 | 0x344 | 0x310 | 0xF11 | 0xF12 | 0xF13 | 0xF15 => some 0
    | 0xF14 => some p
    | 0x305 | 0x340 | 0x341 | 0x342 | 0x343 => some (AMap.get 0 x.csrs n).toNat
    | 0xB00 | 0xC00 => some (x.cycle % 2 ^ 32)
    | 0xB80 | 0xC80 => some (x.cycle / 2 ^ 32 % 2 ^ 32)
    | 0xB02 | 0xC02 => some (x.instret % 2 ^ 32)
    | 0xB82 | 0xC82 => some (x.instret / 2 ^ 32 % 2 ^ 32)
    | _ => none

/-- The predicate register of a column takes bits 15 to 1 (R293). -/
def setPred (k j v : Nat) (s : State) : State :=
  { s with fab := { s.fab with pred := AMap.set 0 s.fab.pred (8 * k + j) (v % 2 ^ 16 / 2 * 2) } }

/-- Write a CSR; false where it is read-only. -/
def csrWrite (p n v : Nat) (s : State) : Bool × State :=
  let x := porterOf s p
  let put := fun (w : Nat) => (true, setPorter p { x with csrs := AMap.set 0 x.csrs n (BitVec.ofNat 32 w) } s)
  if 0x800 ≤ n ∧ n ≤ 0x807 then put (if n % 2 = 0 then v / 2 ^ 29 % 8 * 2 ^ 29 + v % 8 else v)
  else if n = 0x808 then put (v % 2 ^ 20)
  else if 0x80A ≤ n ∧ n ≤ 0x811 then (true, setPred (porterCluster p) (n - 0x80A) v s)
  else match n with
    | 0x300 | 0x301 | 0x304 | 0x344 | 0x310 => (true, s)
    | 0x305 | 0x340 | 0x342 | 0x343 => put v
    | 0x341 => put (v / 2 * 2)
    | 0xB00 => (true, setPorter p { x with cycle := x.cycle / 2 ^ 32 * 2 ^ 32 + v % 2 ^ 32 } s)
    | 0xB80 => (true, setPorter p { x with cycle := x.cycle % 2 ^ 32 + v % 2 ^ 32 * 2 ^ 32 } s)
    | 0xB02 => (true, setPorter p { x with instret := x.instret / 2 ^ 32 * 2 ^ 32 + v % 2 ^ 32 } s)
    | 0xB82 => (true, setPorter p { x with instret := x.instret % 2 ^ 32 + v % 2 ^ 32 * 2 ^ 32 } s)
    | _ => (false, s)

/-! ### Compressed instructions: each expands to a base instruction -/

def encR (f7 rs2 rs1 f3 rd op : Nat) : Nat := f7 * 2 ^ 25 + rs2 * 2 ^ 20 + rs1 * 2 ^ 15 + f3 * 2 ^ 12 + rd * 2 ^ 7 + op
def encI (imm rs1 f3 rd op : Nat) : Nat := imm % 2 ^ 12 * 2 ^ 20 + rs1 * 2 ^ 15 + f3 * 2 ^ 12 + rd * 2 ^ 7 + op
def encS (imm rs2 rs1 f3 op : Nat) : Nat := bits imm 11 5 * 2 ^ 25 + rs2 * 2 ^ 20 + rs1 * 2 ^ 15 + f3 * 2 ^ 12 + imm % 32 * 2 ^ 7 + op
def encB (imm rs2 rs1 f3 : Nat) : Nat :=
  bits imm 12 12 * 2 ^ 31 + bits imm 10 5 * 2 ^ 25 + rs2 * 2 ^ 20 + rs1 * 2 ^ 15 + f3 * 2 ^ 12 + bits imm 4 1 * 2 ^ 8 + bits imm 11 11 * 2 ^ 7 + 0x63
def encJ (imm rd : Nat) : Nat :=
  bits imm 20 20 * 2 ^ 31 + bits imm 10 1 * 2 ^ 21 + bits imm 11 11 * 2 ^ 20 + bits imm 19 12 * 2 ^ 12 + rd * 2 ^ 7 + 0x6F

/-- A signed `w`-bit field extended to 32 bits. -/
def sx (w n : Nat) : Nat := unsext 32 (sext w n)

/-- The offsets of C.J and C.BEQZ. -/
def cjImm (c : Nat) : Nat :=
  sx 12 (bits c 12 12 * 2 ^ 11 + bits c 11 11 * 2 ^ 4 + bits c 10 9 * 2 ^ 8 + bits c 8 8 * 2 ^ 10 + bits c 7 7 * 2 ^ 6 + bits c 6 6 * 2 ^ 7 + bits c 5 3 * 2 + bits c 2 2 * 2 ^ 5)
def cbImm (c : Nat) : Nat :=
  sx 9 (bits c 12 12 * 2 ^ 8 + bits c 11 10 * 2 ^ 3 + bits c 6 5 * 2 ^ 6 + bits c 4 3 * 2 + bits c 2 2 * 2 ^ 5)

/-- Quadrant 0. -/
def expandC0 (c : Nat) : Option Nat :=
  let rd := 8 + bits c 4 2; let rs := 8 + bits c 9 7
  let off := bits c 5 5 * 64 + bits c 12 10 * 8 + bits c 6 6 * 4
  match bits c 15 13 with
  | 0 => let imm := bits c 10 7 * 64 + bits c 12 11 * 16 + bits c 5 5 * 8 + bits c 6 6 * 4
         if imm = 0 then none else some (encI imm 2 0 rd 0x13)
  | 2 => some (encI off rs 2 rd 0x03)
  | 6 => some (encS off rd rs 2 0x23)
  | _ => none

/-- Quadrant 1. -/
def expandC1 (c : Nat) : Option Nat :=
  let rd := bits c 11 7; let r := 8 + bits c 9 7; let r2 := 8 + bits c 4 2
  let raw := bits c 12 12 * 32 + bits c 6 2
  let imm := sx 6 raw
  match bits c 15 13 with
  | 0 => some (encI imm rd 0 rd 0x13)
  | 1 => some (encJ (cjImm c) 1)
  | 2 => some (encI imm 0 0 rd 0x13)
  | 3 =>
    if rd = 2 then
      let s := bits c 12 12 * 512 + bits c 4 3 * 128 + bits c 5 5 * 64 + bits c 2 2 * 32 + bits c 6 6 * 16
      if s = 0 then none else some (encI (sx 10 s) 2 0 2 0x13)
    else if raw = 0 then none else some (imm % 2 ^ 20 * 2 ^ 12 + rd * 2 ^ 7 + 0x37)
  | 4 =>
    match bits c 11 10 with
    | 0 => if raw < 32 then some (encI raw r 5 r 0x13) else none
    | 1 => if raw < 32 then some (encI (raw + 0x400) r 5 r 0x13) else none
    | 2 => some (encI imm r 7 r 0x13)
    | _ => if bits c 12 12 = 1 then none else
      match bits c 6 5 with
      | 0 => some (encR 0x20 r2 r 0 r 0x33)
      | 1 => some (encR 0 r2 r 4 r 0x33)
      | 2 => some (encR 0 r2 r 6 r 0x33)
      | _ => some (encR 0 r2 r 7 r 0x33)
  | 5 => some (encJ (cjImm c) 0)
  | 6 => some (encB (cbImm c) 0 r 0)
  | _ => some (encB (cbImm c) 0 r 1)

/-- Quadrant 2. -/
def expandC2 (c : Nat) : Option Nat :=
  let rd := bits c 11 7; let rs2 := bits c 6 2
  match bits c 15 13 with
  | 0 => if bits c 12 12 = 1 then none else some (encI rs2 rd 1 rd 0x13)
  | 2 => if rd = 0 then none else some (encI (bits c 3 2 * 64 + bits c 12 12 * 32 + bits c 6 4 * 4) 2 2 rd 0x03)
  | 4 =>
    if bits c 12 12 = 0 then
      if rs2 = 0 then (if rd = 0 then none else some (encI 0 rd 0 0 0x67)) else some (encR 0 rs2 0 0 rd 0x33)
    else if rs2 = 0 then (if rd = 0 then some 0x00100073 else some (encI 0 rd 0 1 0x67)) else some (encR 0 rs2 rd 0 rd 0x33)
  | 6 => some (encS (bits c 8 7 * 64 + bits c 12 9 * 4) rs2 2 2 0x23)
  | _ => none

def expandC (c : Nat) : Option Nat :=
  match c % 4 with | 0 => expandC0 c | 1 => expandC1 c | 2 => expandC2 c | _ => none

/-! ### Arithmetic -/

def sgn (n : Nat) : Int := sext 32 n
/-- The integer operations of OP and OP-IMM. `alt` is the bit that makes SUB of ADD and SRA of SRL. -/
def aluOp (f3 : Nat) (alt : Bool) (a b : Nat) : Nat :=
  match f3 with
  | 0 => if alt then (a + 2 ^ 32 - b) % 2 ^ 32 else (a + b) % 2 ^ 32
  | 1 => a * 2 ^ (b % 32) % 2 ^ 32
  | 2 => if sgn a < sgn b then 1 else 0
  | 3 => if a < b then 1 else 0
  | 4 => a ^^^ b
  | 5 => if alt then unsext 32 (sgn a / 2 ^ (b % 32)) else a / 2 ^ (b % 32)
  | 6 => a ||| b
  | _ => a &&& b
/-- The M extension. -/
def mulOp (f3 a b : Nat) : Nat :=
  match f3 with
  | 0 => a * b % 2 ^ 32
  | 1 => unsext 32 (sgn a * sgn b / 2 ^ 32)
  | 2 => unsext 32 (sgn a * (b : Int) / 2 ^ 32)
  | 3 => a * b / 2 ^ 32 % 2 ^ 32
  | 4 => if b = 0 then 2 ^ 32 - 1 else unsext 32 ((sgn a).tdiv (sgn b))
  | 5 => if b = 0 then 2 ^ 32 - 1 else a / b
  | 6 => if b = 0 then a else unsext 32 ((sgn a).tmod (sgn b))
  | _ => if b = 0 then a else a % b
def branchTaken (f3 a b : Nat) : Option Bool :=
  match f3 with
  | 0 => some (a == b)
  | 1 => some (a != b)
  | 4 => some (decide (sgn a < sgn b))
  | 5 => some (decide (sgn b ≤ sgn a))
  | 6 => some (decide (a < b))
  | 7 => some (decide (b ≤ a))
  | _ => none

/-! ### The steps of a porter -/

/-- Illegal instruction. -/
def illegal (w : Nat) : PTrap := ⟨INVALID, 2, w, 0⟩

/-- Retire an instruction: write `rd`, move on, count (R276). -/
def retire (p rd v pc cycles : Nat) (s : State) : State :=
  let x := rset rd v (porterOf s p)
  setPorter p { x with pc := BitVec.ofNat 32 pc, cycle := x.cycle + cycles, instret := x.instret + 1 } s

/-- Finish an operation: its value goes to `put`, an exception halts the porter, a wait leaves the instruction. -/
def finish (p len cycles : Nat) (put : Nat → Porter → Porter) (r : PRes × State) : State :=
  match r.1 with
  | .trap t => porterTrap p t r.2
  | .wait => r.2
  | .val v =>
    let x := put v (porterOf r.2 p)
    setPorter p { x with pc := x.pc + BitVec.ofNat 32 len, cycle := x.cycle + cycles, instret := x.instret + 1 } r.2

/-- Worst-case cycles of a load or store by where it goes (R276). -/
def memCycles (s : State) (p a : Nat) (write : Bool) : Nat :=
  let x := porterOf s p
  match (placeOf p a write s).1 with
  | .tcm _ | .bad _ => 1
  | .spad _ => 3
  | .store _ => 17
  | .win _ => 60 * cyclesPerTick s
  | .line ga byp =>
    if (if write then bufferFull x (offOf ga / 64) else byp || (lcFind s (porterCluster p) x.stall (offOf ga / 64)).isNone) then 60 * cyclesPerTick s
    else if write then 2 else 4

/-- A load of the porter's own memory marks the register it fills (R276). -/
def loadOp (p len f3 rd a : Nat) (w : Nat) (s : State) : State :=
  let c := memCycles s p a false
  let mark := fun (x : Porter) => if a < 0x10000 then { x with ldRd := rd } else x
  let ld := fun (n : Nat) (f : Nat → Nat) => finish p len c (fun v x => mark (rset rd (f v) x)) (porterLoad p a n s)
  match f3 with
  | 0 => ld 1 (sx 8)
  | 1 => ld 2 (sx 16)
  | 2 => ld 4 id
  | 4 => ld 1 id
  | 5 => ld 2 id
  | _ => porterTrap p (illegal w) s
def storeOp (p len f3 a v : Nat) (w : Nat) (s : State) : State :=
  let c := memCycles s p a true
  match f3 with
  | 0 => finish p len c (fun _ x => x) (porterStore p a 1 (v % 2 ^ 8) s)
  | 1 => finish p len c (fun _ x => x) (porterStore p a 2 (v % 2 ^ 16) s)
  | 2 => finish p len c (fun _ x => x) (porterStore p a 4 v s)
  | _ => porterTrap p (illegal w) s

/-- The CSR instructions: CSRRW, CSRRS, CSRRC and their immediate forms. -/
def csrOp (p len f3 rd src n : Nat) (w : Nat) (s : State) : State :=
  match csrRead s p n with
  | none => porterTrap p (illegal w) s
  | some old =>
    let v := if 4 ≤ f3 then src else rget (porterOf s p) src
    let writes := f3 % 4 == 1 || src != 0
    let new := match f3 % 4 with | 1 => v | 2 => old ||| v | _ => old &&& (2 ^ 32 - 1 - v)
    if !writes then finish p len 1 (fun v => rset rd v) (.val old, s)
    else match csrWrite p n new s with
      | (true, t) => finish p len 1 (fun v => rset rd v) (.val old, t)
      | (false, _) => porterTrap p (illegal w) s

/-- The tile-control operations, shared by PORTER_INSTRUCTION and the rows that name them. -/
def tcAcq (p len : Nat) (range : Option (Nat × Nat)) (s : State) : State :=
  let n := match range with | none => 16 | some (_, r) => 4 + rget (porterOf s p) r
  finish p len n (fun _ x => x) (withScope p acquire (range.map (fun r => (rget (porterOf s p) r.1, rget (porterOf s p) r.2))) s)
def tcRel (p len : Nat) (range : Option (Nat × Nat)) (s : State) : State :=
  finish p len (releaseTicks s * cyclesPerTick s) (fun _ x => x)
    (withScope p release (range.map (fun r => (rget (porterOf s p) r.1, rget (porterOf s p) r.2))) s)
def tcWait (p len rd rs1 rs2 : Nat) (w : Nat) (s : State) : State :=
  if rs2 % 2 = 1 then porterTrap p (illegal w) s
  else finish p len 4 (fun _ x => x) (twaitBegin p rd (rget (porterOf s p) rs1) (pget (porterOf s p) rs2) s)
def tcAdd (p len rs1 rs2 : Nat) (s : State) : State :=
  finish p len 2 (fun _ x => x) (porterTadd p (rget (porterOf s p) rs1) (rget (porterOf s p) rs2) s)
def tcAmo (p len op : Nat) (dbl : Bool) (rd rs1 rs2 : Nat) (w : Nat) (s : State) : State :=
  let x := porterOf s p
  if 7 < op ∨ (dbl ∧ (op = 7 ∨ rd % 2 = 1 ∨ rs2 % 2 = 1)) then porterTrap p (illegal w) s
  else
    let c := atomicTicks s * cyclesPerTick s
    if dbl then finish p len c (fun v => pset rd v) (porterAmo p op 8 (rget x rs1) (pget x rs2) (pget x rd) s)
    else finish p len c (fun v => rset rd v) (porterAmo p op 4 (rget x rs1) (rget x rs2) (rget x rd) s)

/-- The instruction of the custom-0 opcode (R274). -/
def tileOp (p len w : Nat) (s : State) : State :=
  let rd := bits w 11 7; let f3 := bits w 14 12; let rs1 := bits w 19 15; let rs2 := bits w 24 20; let f7 := bits w 31 25
  let all := f7 == 0 && rd == 0 && rs1 == 0 && rs2 == 0
  match f3 with
  | 0 => if all then tcAcq p len none s else if f7 = 1 then tcAcq p len (some (rs1, rs2)) s else porterTrap p (illegal w) s
  | 1 => if all then tcRel p len none s else if f7 = 1 then tcRel p len (some (rs1, rs2)) s else porterTrap p (illegal w) s
  | 2 => if f7 = 0 then tcWait p len rd rs1 rs2 w s else porterTrap p (illegal w) s
  | 3 => if f7 = 0 then tcAdd p len rs1 rs2 s else porterTrap p (illegal w) s
  | 4 => tcAmo p len f7 false rd rs1 rs2 w s
  | 5 => tcAmo p len f7 true rd rs1 rs2 w s
  | _ => porterTrap p (illegal w) s

/-- SYSTEM without a CSR: ECALL, EBREAK, MRET and WFI, which ends the program (R288). -/
def systemOp (p len w : Nat) (s : State) : State :=
  let x := porterOf s p
  if w = 0x00000073 then porterTrap p ⟨INVALID, 11, 0, 0⟩ s
  else if w = 0x00100073 then porterTrap p ⟨INVALID, 3, x.pc.toNat, 0⟩ s
  else if w = 0x30200073 then retire p 0 0 (AMap.get 0 x.csrs 0x341).toNat 2 s
  else if w = 0x10500073 then
    let t := retire p 0 0 (x.pc.toNat + len) 1 s
    setPorter p { porterOf t p with run := 2 } t
  else porterTrap p (illegal w) s

/-- The registers an instruction reads. -/
def regsRead (w : Nat) : List Nat :=
  let rd := bits w 11 7; let f3 := bits w 14 12; let rs1 := bits w 19 15; let rs2 := bits w 24 20
  match w % 128 with
  | 0x67 | 0x03 | 0x13 => [rs1]
  | 0x63 | 0x23 | 0x33 => [rs1, rs2]
  | 0x73 => if 1 ≤ f3 ∧ f3 ≤ 3 then [rs1] else []
  | 0x0B => if f3 = 2 then [rs1, rs2, rs2 + 1] else if f3 = 5 then [rs1, rs2, rs2 + 1, rd, rd + 1] else [rs1, rs2, rd]
  | _ => []
/-- One cycle more where the instruction uses a value the one before it loaded from the porter's memory (R276). -/
def loadUse (p w : Nat) (s : State) : State :=
  let x := porterOf s p
  if x.ldRd = 0 then s else setPorter p { x with ldRd := 0, cycle := x.cycle + (if (regsRead w).contains x.ldRd then 1 else 0) } s

/-- One 32-bit instruction; `len` is the length it was fetched with. -/
def op32 (p len w : Nat) (s : State) : State :=
  let x := porterOf s p
  let pc := x.pc.toNat
  let rd := bits w 11 7; let f3 := bits w 14 12; let rs1 := bits w 19 15; let rs2 := bits w 24 20; let f7 := bits w 31 25
  let a := rget x rs1; let b := rget x rs2
  let immI := sx 12 (bits w 31 20)
  let next := pc + len
  match w % 128 with
  | 0x37 => retire p rd (bits w 31 12 * 4096) next 1 s
  | 0x17 => retire p rd (pc + bits w 31 12 * 4096) next 1 s
  | 0x6F => retire p rd next (pc + sx 21 (bits w 31 31 * 2 ^ 20 + bits w 19 12 * 2 ^ 12 + bits w 20 20 * 2 ^ 11 + bits w 30 21 * 2)) 2 s
  | 0x67 => if f3 = 0 then retire p rd next ((a + immI) % 2 ^ 32 / 2 * 2) 2 s else porterTrap p (illegal w) s
  | 0x63 => match branchTaken f3 a b with
    | some true => retire p 0 0 (pc + sx 13 (bits w 31 31 * 2 ^ 12 + bits w 7 7 * 2 ^ 11 + bits w 30 25 * 32 + bits w 11 8 * 2)) 2 s
    | some false => retire p 0 0 next 1 s
    | none => porterTrap p (illegal w) s
  | 0x03 => loadOp p len f3 rd ((a + immI) % 2 ^ 32) w s
  | 0x23 => storeOp p len f3 ((a + sx 12 (f7 * 32 + rd)) % 2 ^ 32) b w s
  | 0x13 =>
    if (f3 = 1 ∧ f7 ≠ 0) ∨ (f3 = 5 ∧ f7 ≠ 0 ∧ f7 ≠ 0x20) then porterTrap p (illegal w) s
    else retire p rd (aluOp f3 (f3 == 5 && f7 == 0x20) a immI) next 1 s
  | 0x33 =>
    if f7 = 0 ∨ (f7 = 0x20 ∧ (f3 = 0 ∨ f3 = 5)) then retire p rd (aluOp f3 (f7 == 0x20) a b) next 1 s
    else if f7 = 1 then retire p rd (mulOp f3 a b) next (if 4 ≤ f3 then 33 else 1) s
    else porterTrap p (illegal w) s
  | 0x0F => if f3 = 0 then retire p 0 0 next 1 s else porterTrap p (illegal w) s
  | 0x73 => if f3 = 0 then systemOp p len w s else if f3 = 4 then porterTrap p (illegal w) s else csrOp p len f3 rd rs1 (bits w 31 20) w s
  | 0x0B => tileOp p len w s
  | _ => porterTrap p (illegal w) s

/-- A porter of a live part, before its span's last slot ends, that runs. -/
def porterLive (s : State) (p : Nat) : Bool :=
  let x := porterOf s p
  decide (p < 256) && x.run == 1 && (match cmdOf s x.rid x.cmd with | some c => c.status.isNone | none => false)

/-- Fetch 16 bits at an address: as a load, its exceptions those of an instruction fetch. -/
def fetchHalf (p a : Nat) (s : State) : PRes × State :=
  match porterLoad p a 2 s with
  | (.trap t, s1) => (.trap { t with cause := if t.cause = 5 then 1 else if t.cause = 13 then 12 else t.cause }, s1)
  | r => r

/-- PORTER_INSTRUCTION: fetch, expand where compressed, execute. -/
def porterStep (p : Nat) (s : State) : State :=
  if !porterLive s p then s else
  let pc := (porterOf s p).pc.toNat
  match fetchHalf p pc s with
  | (.trap t, s1) => porterTrap p t s1
  | (.wait, s1) => s1
  | (.val lo, s1) =>
    if lo % 4 ≠ 3 then
      match expandC lo with
      | some w => op32 p 2 w (loadUse p w s1)
      | none => porterTrap p (illegal lo) s1
    else match fetchHalf p ((pc + 2) % 2 ^ 32) s1 with
      | (.trap t, s2) => porterTrap p t s2
      | (.wait, s2) => s2
      | (.val hi, s2) => op32 p 4 (lo + hi * 2 ^ 16) (loadUse p (lo + hi * 2 ^ 16) s2)

/-- A live porter executes the instruction the command names, of word `w`. -/
def porterDoes (p w : Nat) (f : State → State) (s : State) : State := if porterLive s p then f (loadUse p w s) else s

/-- The custom-0 word of a tile-control instruction. -/
def tileWord (f7 rs2 rs1 f3 rd : Nat) : Nat := encR f7 rs2 rs1 f3 rd 0x0B

/-- PRED_CSR_WRITE: a CSRRW of tc.predj with the value given. -/
def predCsr (p col v : Nat) (s : State) : State :=
  if col < 8 ∧ (partColumns s p).contains col then finish p 4 1 (fun _ x => x) (.val 0, (csrWrite p (0x80A + col) v s).2)
  else porterTrap p (illegal (encI (0x80A + col) 0 1 0 0x73)) s

/-- The tally of a waiting TC.TWAIT is reached: 1. -/
def twaitDone (p : Nat) (s : State) : State :=
  let x := porterOf s p
  match x.tw with
  | some (rd, t, target, start) =>
    if x.run = 3 ∧ reached s t target ∧ (now s - start) * cyclesPerTick s ≤ (AMap.get 0 x.csrs 0x808).toNat then
      let y := rset rd 1 x
      setPorter p { y with run := 1, tw := none } s
    else s
  | none => s

/-- The bound of TC.TWAIT has passed: 0, or 1 where the tally is reached. -/
def twaitBound (p : Nat) (s : State) : State :=
  let x := porterOf s p
  match x.tw with
  | some (rd, t, target, start) =>
    if x.run = 3 ∧ (AMap.get 0 x.csrs 0x808).toNat ≤ (now s - start) * cyclesPerTick s then
      let inTime := decide ((now s - start) * cyclesPerTick s < (AMap.get 0 x.csrs 0x808).toNat + cyclesPerTick s)
      let y := rset rd (if inTime && reached s t target then 1 else 0) x
      setPorter p { y with run := 1, tw := none, cycle := y.cycle + (AMap.get 0 x.csrs 0x808).toNat } s
    else s
  | none => s

def execPorterInstruction (porter : Nat) (s : State) : Out := .next (porterStep porter s)
def execPredCsrWrite (porter col : Nat) (value : Word32) (s : State) : Out := .next (porterDoes porter 0x73 (predCsr porter col value.toNat) s)
def execTcAcqAll (porter : Nat) (s : State) : Out := .next (porterDoes porter (tileWord 0 0 0 0 0) (tcAcq porter 4 none) s)
def execTcAcqRange (porter rs1 rs2 : Nat) (s : State) : Out := .next (porterDoes porter (tileWord 1 rs2 rs1 0 0) (tcAcq porter 4 (some (rs1, rs2))) s)
def execTcRelAll (porter : Nat) (s : State) : Out := .next (porterDoes porter (tileWord 0 0 0 1 0) (tcRel porter 4 none) s)
def execTcRelRange (porter rs1 rs2 : Nat) (s : State) : Out := .next (porterDoes porter (tileWord 1 rs2 rs1 1 0) (tcRel porter 4 (some (rs1, rs2))) s)
def execTcTwait (porter rd rs1 rs2 : Nat) (s : State) : Out := .next (porterDoes porter (tileWord 0 rs2 rs1 2 rd) (tcWait porter 4 rd rs1 rs2 (tileWord 0 rs2 rs1 2 rd)) s)
def execTwaitSatisfied (porter : Nat) (s : State) : Out := .next (twaitDone porter s)
def execTwaitBoundExpiry (porter : Nat) (s : State) : Out := .next (twaitBound porter s)
def execTcTadd (porter rs1 rs2 : Nat) (s : State) : Out := .next (porterDoes porter (tileWord 0 rs2 rs1 3 0) (tcAdd porter 4 rs1 rs2) s)
/-- The atomics, by their op code. -/
def amoRow (porter op : Nat) (dbl : Bool) (rd rs1 rs2 : Nat) (s : State) : State :=
  porterDoes porter (tileWord op rs2 rs1 (if dbl then 5 else 4) rd) (tcAmo porter 4 op dbl rd rs1 rs2 (tileWord op rs2 rs1 (if dbl then 5 else 4) rd)) s
def execTcAmoAdd (porter : Nat) (dbl : Bool) (rd rs1 rs2 : Nat) (s : State) : Out := .next (amoRow porter 0 dbl rd rs1 rs2 s)
def execTcAmoSwap (porter : Nat) (dbl : Bool) (rd rs1 rs2 : Nat) (s : State) : Out := .next (amoRow porter 1 dbl rd rs1 rs2 s)
def execTcAmoCas (porter : Nat) (dbl : Bool) (rd rs1 rs2 : Nat) (s : State) : Out := .next (amoRow porter 2 dbl rd rs1 rs2 s)
def execTcAmoMin (porter : Nat) (dbl : Bool) (rd rs1 rs2 : Nat) (s : State) : Out := .next (amoRow porter 3 dbl rd rs1 rs2 s)
def execTcAmoMax (porter : Nat) (dbl : Bool) (rd rs1 rs2 : Nat) (s : State) : Out := .next (amoRow porter 4 dbl rd rs1 rs2 s)
def execTcAmoMinu (porter : Nat) (dbl : Bool) (rd rs1 rs2 : Nat) (s : State) : Out := .next (amoRow porter 5 dbl rd rs1 rs2 s)
def execTcAmoMaxu (porter : Nat) (dbl : Bool) (rd rs1 rs2 : Nat) (s : State) : Out := .next (amoRow porter 6 dbl rd rs1 rs2 s)
def execTcAmoFadd (porter : Nat) (rd rs1 rs2 : Nat) (s : State) : Out := .next (amoRow porter 7 false rd rs1 rs2 s)
/-- STORE_BUFFER_DRAIN: the oldest entry of the store buffer. -/
def execStoreBufferDrain (porter : Nat) (s : State) : Out := .next (drainOne porter s)

end Sys2Proof.Machine
end

