-- ==== Sys2Proof/Machine/Spans.lean ====
section
/-! DEFINITION. Where the round stream and the porters meet: PSTART, and the ends of spans (R126, R211, R271, R290, R422). -/

namespace Sys2Proof.Machine
open Sys2Proof

/-- PSTART: the selected porters start at the entry address, their CSRs reset (R290, R273, R271). Stores an earlier part left
are written first (R201). -/
def opPstart (col : Nat) (s : State) : State :=
  subfield col (fun op r => op != 0 && op != 0xFE && oClass r == 4) (fun p w r t =>
    (setBits 2 (fEngines w)).foldl (fun t0 i =>
      let n := 2 * col + i
      let t := drainAll n t0
      let old := porterOf t n
      setPorter n { run := 1, regs := old.regs, pc := BitVec.ofNat 32 (oAddrA r % 65536), stall := p.stall, rid := p.rid, cmd := p.cmd,
                    ctx := reqCtx t p.rid, sb := old.sb } t) t) s

/-- The stores a part's porters still hold are written by the end of the span (R201: within the slots the segment booked). -/
def drainPart (rid cmd : Nat) (s : State) : State :=
  (s.fab.porters.filter (fun x => x.2.rid == rid && x.2.cmd == cmd && !x.2.sb.isEmpty)).foldl (fun t x => drainAll x.1 t) s
/-- The parts of the RUN bank whose span's last slot ends in the ticks after `old` up to now: a column that did not
reach END leaves the round unreported; else the part's tally takes its packet once the round's writes have closed (R422, R126,
R211), and the last round completes the command. -/
def spanEnds (old : Nat) (s : State) : State :=
  let due := s.fab.runB.spans.filter (fun p => let e := slotEndTick (old / 1280 * 1024 + p.last); decide (old < e) && decide (e ≤ now s))
  (dedup (due.map (fun p => (p.rid, p.cmd)))).foldl (fun t x =>
    match reqOf t x.1, cmdOf t x.1 x.2 with
    | some q, some c =>
      match c.work with
      | .segment d =>
        let mine := due.filter (fun p => p.rid == x.1 && p.cmd == x.2)
        let t0 := drainPart x.1 x.2 t
        if c.status.isSome || !mine.all (fun p => (colSt t p.col).span == some p && !(colSt t p.col).active && !porterRuns t p p.col) then t0
        else
          let t1 := countBytes q x.2 (updCmd x.1 x.2 (fun c => { c with delivered := c.delivered + 1 }) t0)
          if roundIndex t x.1 x.2 d (old / 1280) + 1 = d.rounds then endCmd x.1 x.2 OK 0 false t1 else t1
      | _ => t
    | _, _ => t) s

def execOpPstart (col : Nat) (s : State) : Out := .next (opPstart col s)

end Sys2Proof.Machine
end

