-- ==== Sys2Proof/Machine/Gate.lean ====
section
/-! DEFINITION. The Gate: requests read from queues (R418, R421), the ordered checks (R56, R66, R423), placement and
promises (R57-R60, R67, R76, R79, R80, R337), purses and retry ticks (R69, R70, R91, R92), acceptance. -/

namespace Sys2Proof.Machine
open Sys2Proof

/-! ### What a command asks: the checks 1 to 3, and the effect of one decided at admission (R56, R423) -/

/-- A command of a request: its wait, and its checks given the commands before it. The state after a check carries what
the decision tick itself does, in chain order; a refusal discards it. -/
structure Item where
  opcode : Nat
  waitTally : Nat
  waitTarget : Nat
  waitRounds : Nat
  check : Bool → List Cmd → State → Chk × State

/-- The destination tallies of a command (R210, R419). -/
def destTallies (w : Work) : List Nat :=
  (match w with | .tableSwitch .. => [] | .setSwitch .. => [] | _ => workTallies w).filter (· ≠ 0xFFFF)

/-- A command whose whole outcome is decided at admission (R60). -/
def doneCmd (op : Nat) (w : Work) (detail : Nat) : Cmd := { opcode := op, work := w, started := true, status := some OK, detail := detail }

/-- Answer a check list, else go on. -/
def orElse (l : List (Bool × Nat × Nat)) (s : State) (k : Chk × State) : Chk × State :=
  match firstFail l with
  | some (x, d) => (.bad x d, s)
  | none => k

/-- PUBLISH (R44, R423). -/
def ownPublish (st ctx : Nat) (e : Entry) (decided : Bool) (s : State) : Chk × State :=
  let g := e.args 0 2; let tally := e.args 2 2; let expect := e.args 4 4
  let w := Work.publish g tally expect e.opa
  orElse [(cv s 0x4020 1 g == st, PROTECTION, 0), (tally == 0xFFFF || reachesTally s st tally, PROTECTION, 0)] s
    (if !decided then (.good { opcode := 0x08, work := w, deferred := true }, s)
     else orElse (publishChecks s st g expect e.opa) s
       (.good (doneCmd 0x08 w ((expect + 1) % 2 ^ 32)), publish st ctx g tally expect e.opa s))

/-- TABLE_SWITCH (R335, R423). -/
def ownTableSwitch (st : Nat) (e : Entry) (decided : Bool) (s : State) : Chk × State :=
  match checkTableSwitch s st e (!decided) with
  | .bad x d => (.bad x d, s)
  | .good c => if !decided then (.good c, s)
    else (.good { c with started := true, status := some OK, detail := (e.args 2 2 + 1) % 2 ^ 16 },
          cvAdd 0x7200 0x0A st 1 (switchTable (e.args 0 2) (e.args 2 2) (e.args 8 8) e.opa s))

/-- SET_SWITCH (R336): every table switches at the decision tick. -/
def ownSetSwitch (st : Nat) (e : Entry) (s : State) : Chk × State :=
  match checkSetSwitch s st e with
  | .good c => match c.work with
    | .setSwitch _ n _ _ list => let r := applySetSwitch list n s; (.good { c with detail := r.1 }, cvAdd 0x7200 0x0B st 1 r.2)
    | _ => (.good c, s)
  | b => (b, s)

/-- TALLY_ADD (R422, R423). -/
def ownTallyAdd (st : Nat) (e : Entry) (decided : Bool) (s : State) : Chk × State :=
  let t := e.args 0 2
  let w := Work.tallyAdd t (e.args 8 8)
  orElse [(reachesTally s st t, PROTECTION, 0)] s
    (if !decided then (.good { opcode := 0x0C, work := w, deferred := true }, s) else (.good (doneCmd 0x0C w 0), advance st t (e.args 8 8) s))

/-- FENCE (R148, R160, R219). -/
def ownFence (st : Nat) (e : Entry) (s : State) : Chk × State :=
  let durable := bit (e.args 0 1) 0
  let x := e.args 4 4
  let r := extRec s x
  let frames := (framesOf s st).filter (fun f => f.1 / 16384 == x && f.2.state == 2)
  (if !durable then .good { opcode := 0x0D, work := .fence false 0 }
   else match firstFail [(r.state != 0 && r.stall == st, PROTECTION, 0), (r.backed, INVALID, 0), (r.state == 1, FAULT_EXTENT_CLOSED, 0),
       (frames.all (fun f => chanState s (flashChannel s (65536 * f.1)) != 2), REFUSED_QUOTA, 2 ^ 64)] with
     | some (a, d) => .bad a d
     | none => .good { opcode := 0x0D, work := .fence true x, exts := [x] }, s)

/-- INVALIDATE_XLATE (R245, R422). -/
def ownInvalidate (st : Nat) (e : Entry) (s : State) : Chk × State :=
  let va := e.args 0 8; let len := e.args 8 8; let c := e.args 16 2
  orElse [(va % 4096 == 0 && len % 4096 == 0, INVALID, 0), (c == 0xFFFF || ctxStall s c == st, PROTECTION, 0)] s
    (.good { opcode := 0x0E, work := .invalidate va len c (bit (e.args 18 1) 0) }, s)

/-- EXTENT_CLOSE (R34, R423): its free bound is its detail. -/
def ownExtentClose (st : Nat) (e : Entry) (decided : Bool) (s : State) : Chk × State :=
  let x := e.args 0 4; let tally := e.args 4 2
  let w := Work.extentClose x tally
  orElse [((extRec s x).state != 0 && (extRec s x).stall == st, PROTECTION, 0), (tally == 0xFFFF || reachesTally s st tally, PROTECTION, 0)] s
    (if !decided then (.good { opcode := 0x0F, work := w, deferred := true }, s)
     else orElse (closeChecks s st x) s
       (match closeExtent x tally s with
        | some (bound, t) => (.good (doneCmd 0x0F w (bound % 2 ^ 32)), t)
        | none => (.bad BUSY 0, s)))

/-- The catalogue request of an entry (R454). -/
def catReqOf (ctx : Nat) (e : Entry) : CatReq :=
  { rq := .ctx ctx, idx := e.args 0 2, sub := e.args 2 1, inst := e.args 4 2,
    off := if e.opcode = 0x82 then 0 else e.args 8 4, len := if e.opcode = 0x82 then 16 else e.args 12 4, flags := if e.opcode = 0x82 then 0 else e.args 16 1 }

/-- CAT_READ, CAT_WRITE and CAT_INFO (R454): the buffer, then the request under R441 at the decision tick. -/
def ownCatalogue (st ctx : Nat) (e : Entry) (s : State) : Chk × State :=
  let q := catReqOf ctx e
  match resolve s st e.modeA e.opa q.len with
  | .bad x => (.bad x 0, s)
  | .virt _ => (.bad INVALID 0, s)
  | .glob a pins =>
    let exts := if q.len = 0 then [] else extsOf (offOf a) q.len
    let front := [(q.len == 0 || pinnedRange s st a q.len, PROTECTION, 0), (q.len == 0 || openRange s a q.len, FAULT_EXTENT_CLOSED, 0)]
    orElse front s (
      if e.opcode = 0x80 then
        let r := readEntry q 65536 s
        if r.1 = OK then (.good { opcode := 0x80, work := .catRead a r.2.1, pins := pins, exts := exts }, r.2.2) else (.bad r.1 0, s)
      else if e.opcode = 0x82 then
        let r := infoEntry q s
        if r.1 = OK then (.good { opcode := 0x82, work := .catInfo a r.2, pins := pins, exts := exts }, s) else (.bad r.1 0, s)
      else if rangeBad s (offOf a) q.len then (.bad FAULT_MEMORY 0, s)
      else
        let r := writeEntry q (storeRead s (offOf a) q.len) 4096 s
        if r.1 = OK then (.good { doneCmd 0x81 .catWrite 0 with pins := pins, exts := exts }, r.2) else (.bad r.1 0, r.2))

/-- A command's own checks, by opcode. -/
def ownChecks (st ctx cls : Nat) (e : Entry) (decided : Bool) (s : State) : Chk × State :=
  match e.opcode with
  | 0x01 => (checkGather s st ctx e, s)
  | 0x02 => (checkSearch s st ctx e, s)
  | 0x03 => (checkSide s st ctx e false, s)
  | 0x04 => (checkSide s st ctx e true, s)
  | 0x05 => (checkSegment s st ctx e, s)
  | 0x06 => (checkCopy s st ctx e, s)
  | 0x07 => (checkBarrow s st ctx cls e, s)
  | 0x08 => ownPublish st ctx e decided s
  | 0x09 => ownTableSwitch st e decided s
  | 0x0A => ownSetSwitch st e s
  | 0x0B => (.good { opcode := 0x0B, work := .tallyWait }, s)
  | 0x0C => ownTallyAdd st e decided s
  | 0x0D => ownFence st e s
  | 0x0E => ownInvalidate st e s
  | 0x0F => ownExtentClose st e decided s
  | _ => ownCatalogue st ctx e s

/-- CLASS_ALLOWED's bit of a class (R85, R419). -/
def classBit (cls : Nat) : Nat := if cls = 0 then 1 else if cls = 1 then 0 else 2

/-- The parts of check 2 that every command shares. -/
def ctxChecks (s : State) (st ctx cls waitTally : Nat) : List (Bool × Nat × Nat) :=
  [(ctxStall s ctx == st && stallLive s st, PROTECTION, 0), (bit (cv s 0x1010 3 st) (classBit cls), PROTECTION, 0),
   (waitTally == 0xFFFF || reachesTally s st waitTally, PROTECTION, 0)]

/-- The command of an entry (R419, R422); `cls` is the class of the request's first entry. -/
def entryItem (st ctx cls : Nat) (e : Entry) : Item :=
  { opcode := e.opcode, waitTally := e.waitTally, waitTarget := e.waitTarget, waitRounds := e.waitRounds,
    check := fun first done s =>
      orElse ([(entryFormOk e, INVALID, 0), (e.cls == cls, INVALID, 0), (waitOk e (done.flatMap (fun c => destTallies c.work)), INVALID, 0),
               (e.opcode != 0x0B || e.waitTally != 0xFFFF, INVALID, 0), (e.opcode != 0x0C || e.args 0 2 != 0xFFFF, INVALID, 0),
               (e.opcode != 0x0D || bit (e.args 0 1) 0 || e.args 4 4 == 0, INVALID, 0)]
              ++ ctxChecks s st ctx cls e.waitTally) s
        (ownChecks st ctx cls e (first && e.waitTally == 0xFFFF) s) }

/-! ### Chains of a mover channel (R384, R385) -/


/-- The command of a chain descriptor: its wait inside the chain reads no WAIT_ROUNDS (R385). -/
def descItem (st ctx cls prio w : Nat) : Item :=
  let wt := bits w 175 160
  { opcode := 0x06, waitTally := wt, waitTarget := bits w 319 256, waitRounds := bits w 159 144,
    check := fun _ done s =>
      orElse ([(bits w 140 0 == 0, INVALID, 0),
               (wt == 0xFFFF || (done.flatMap (fun c => destTallies c.work)).contains wt || bits w 159 144 != 0, INVALID, 0)]
              ++ ctxChecks s st ctx cls wt) s
        (checkXfer s st ctx 0x06 { src := bits w 511 448, dst := bits w 447 384, count := bits w 383 320, tally := bits w 191 176,
                                   packet := bit w 143, vSrc := bit w 142, vDst := bit w 141, prio := prio } [], s) }

/-- An arrival's class and commands, or the status that refuses it whole (R385, R421). -/
def askOf (s : State) (a : Arrival) : (Nat × List Item) ⊕ Nat :=
  match a.chan, a.entries with
  | some n, [] =>
    let ctrl := (moverOf s n).ctrl.toNat
    let cls := bits ctrl 43 42
    if cls = 3 ∨ bits ctrl 38 1 ≠ 0 then .inr INVALID else
    match readChain s a.stall 16 (moverOf s n).chainAddr.toNat with
    | .inl l => .inl (cls, l.map (descItem a.stall a.ctx cls (bits ctrl 47 45)))
    | .inr x => .inr x
  | _, es =>
    let cls := Entry.cls (es.headD 0)
    if es.length = 16 ∧ Entry.chain (es.getLastD 0) then .inr INVALID
    else .inl (cls, es.map (entryItem a.stall a.ctx cls))

/-- Checks 1 to 3, command by command in chain order (R66), each beside the frames the earlier ones claim (R144), and what the
decision tick does: pins, sequence numbers. -/
def checkItems : List Item → (first : Bool) → List Cmd → State → (List Cmd × State) ⊕ (Nat × Nat × Item)
  | [], _, done, s => .inl (done, dropHolds 0 s)
  | it :: rest, first, done, s =>
    match it.check first done s with
    | (.bad x d, _) => .inr (x, d, it)
    | (.good c, t) =>
      let t1 := match c.work with | .side _ u _ _ _ seq _ => setColl u { collOf t u with pendSeq := seq } t | _ => t
      checkItems rest false (done ++ [{ c with waitTally := it.waitTally, waitTarget := it.waitTarget, waitRounds := it.waitRounds }])
        (claimFrames 0 done.length (2 ^ 64) c.hold (c.pins.foldl (fun t p => pin p t) t1))

/-- Checks 4 and 5. -/
def stallChecks (s : State) (st n : Nat) : List (Bool × Nat × Nat) :=
  [(!devicePaused s, REFUSED_PAUSED, cv s 0x1020 2),
   (cv s 0x1010 5 st == 0 && stallState s st == 1 && startPhase s != 5, REFUSED_PAUSED, 2 ^ 64),
   (decide (trackInUse s st + n ≤ cv s 0x1010 1 st), REFUSED_QUOTA,
    if cv s 0x1010 1 st < n then 2 ^ 64 else earliestPromise s (fun r => r.stall == st))]

/-- Checks 1 to 5 of an arrival: the class, the commands and the state of its decision, or the refusal and the state it
leaves: a refused CAT_WRITE is counted (R441), nothing else stays. -/
def screen (a : Arrival) (s : State) : (Nat × List Cmd × State) ⊕ (Nat × Nat × State) :=
  match askOf s a with
  | .inr x => .inr (x, 0, s)
  | .inl (cls, items) =>
    match checkItems items true [] s with
    | .inr (x, d, it) => .inr (x, d, if it.opcode = 0x81 then (match it.check true [] s with | (.bad _ _, t) => t | _ => s) else s)
    | .inl (cmds, t) =>
      match firstFail (stallChecks s a.stall items.length) with
      | some (x, d) => .inr (x, d, s)
      | none => .inl (cls, cmds, t)

/-! ### Placement (R58, R67, R423) -/

/-- The earliest absolute slot of a command decided in round `a` (R67, R219). -/
def earlyOf (a : Nat) (c : Cmd) (placed : List Cmd) : Nat :=
  let after := fun (l : List Cmd) => maxOf (l.map (fun p => (p.endSlot / 1024 + 1) * 1024))
  let fences := after (placed.filter (fun p => match p.work with | .fence .. => true | _ => false))
  let src := placed.filter (fun p => (destTallies p.work).contains c.waitTally)
  let wait := if c.waitTally = 0xFFFF then 0 else if src.isEmpty then (a + c.waitRounds) * 1024 else after src
  max ((a + 1) * 1024) (max fences wait)

/-- A window of a stall holds no PROMPT or STEADY booking and no other window (R76). -/
def windowFree (s : State) (st start len : Nat) : Bool :=
  s.gate.books.all (fun b => b.stall != st || b.bulk || b.slots.all (fun k =>
    let x := b.round * 1024 + k
    !(decide (4 * start < 5 * (x + 1)) && decide (5 * x < 4 * (start + len)))))
  && s.gate.pauses.all (fun p => p.stall != st || decide (p.start + p.len ≤ start) || decide (start + len ≤ p.start))

/-- The last booked slot of every accepted command that pins a version of a set's table other than the current one (R337). -/
def oldPinsEnd (s : State) (st set : Nat) : Nat :=
  maxOf (s.gate.reqs.flatMap (fun q => q.cmds.filterMap (fun c =>
    if c.pins.any (fun p => p.kind == 1 && cv s 0x7100 1 p.id == st && tableSet s p.id == set && p.slot != (tableOf s p.id).version % 4)
    then some (c.endSlot + 1) else none)))

def findWindow (s : State) (st len maxR : Nat) : (fuel r : Nat) → Option Nat
  | 0, _ => none
  | n + 1, r => if maxR < r then none else if windowFree s st (r * 1280) len then some r else findWindow s st len maxR n (r + 1)

/-- The promise-round of a context's accepted requests: the round that begins at the latest promise (R219). -/
def fenceRound (s : State) (rid ctx a : Nat) : Nat :=
  max (a + 1) (maxOf ((s.gate.reqs.filter (fun q => q.ctx == ctx && q.rid != rid && q.peerTicket.isNone)).map (fun q => q.promise / 1280)))

/-- Place one command: the state with its bookings, its first and its last absolute slot. -/
def placeWork (w : For) (ctx a early : Nat) (bound : Option (Nat × Nat)) (c : Cmd) (s : State) : Option (State × Nat × Nat) :=
  match c.work with
  | .gather d => placeGather w ctx a early d s
  | .search d => placeSearch w early d s
  | .side del u _ n array _ virt => placeSide w ctx a early u n array del virt s
  | .segment d => placeSegment w ctx a early d 64 s
  | .xfer x => placeXfer { w with prio := x.prio, xfer := true } ctx a early bound x s
  | .setSwitch set n _ _ _ =>
    let len := 100 + 50 * n
    let r0 := max (cdiv early 1024) (cdiv (oldPinsEnd s w.stall set) 1024)
    match findWindow s w.stall len w.maxR (w.maxR + 2 - r0) r0 with
    | none => none
    | some r =>
      some ({ s with gate := { s.gate with pauses := s.gate.pauses ++ [{ stall := w.stall, start := r * 1280, len := len, rid := w.rid }] } },
            r * 1024, ((r * 1280 + len - 1) / 1280 + 1) * 1024)
  | .fence durable x =>
    let at_ := max early (fenceRound s w.rid ctx a * 1024)
    if !durable then some (s, at_, at_)
    else
      let frames := ((framesOf s w.stall).filter (fun f => f.1 / 16384 == x && f.2.state == 2)).map (·.1)
      match bookWritebacks w a false frames 0 s with
      | none => none
      | some (t, free) =>
        let wbs := t.store.wbs.map (fun (b : Wb) => if b.frame / 16384 = x ∧ b.fence = 0 then { b with fence := w.rid } else b)
        let last := max free (maxOf ((t.store.wbs.filter (fun b => b.frame / 16384 == x)).map (fun b => b.lastRound + 17)))
        some ({ t with store := { t.store with wbs := wbs } }, early, max at_ (last * 1024))
  | .invalidate _ _ _ drain =>
    let ws := s.xl.walks.filter (fun x => x.stall == w.stall)
    let walks := maxOf ((ws.filter (fun x => !x.done && decide (x.round * 1024 ≤ early))).map (fun x => x.round + prewalkLead s))
    let held := if drain then maxOf (s.gate.reqs.filterMap (fun q => if ws.any (fun x => x.rid == q.rid) then some (q.promise / 1280) else none)) else 0
    some (s, early, max (early + 1024) (max walks held * 1024))
  | .catRead buf l | .catInfo buf l =>
    let n := cdiv (8192 * (if l.isEmpty then 0 else blocks64 buf l.length)) 25600
    let r := cdiv early 1024
    let uj := ujOf s 0 (cdiv l.length 64)
    if (List.range 8).any (fun k => decide ((avail s w (calHbm k) 0 r 0).length < n)) || !floatFits s w.stall r uj then none
    else
      let t := addEnergy w.rid w.stall r uj false ((List.range 8).foldl (fun t k => bookN w (calHbm k) 0 r 0 n t) s)
      some (t, r * 1024, r * 1024 + maxOf ((t.gate.books.filter (fun b => b.rid == w.rid && b.cmd == w.cmd)).flatMap (·.slots)))
  | _ => some (s, early, early)

/-- A clean victim taken for a command is free from the round of the new use (R146). -/
def freeVictims (old : State) (r : Nat) (s : State) : State :=
  s.store.frames.foldl (fun t f => match f.2, cframe old f.1 with
    | some c, some o => if c.state = 3 ∧ o.state = 1 then setFrame f.1 (some { c with freeRound := r }) t else t
    | _, _ => t) s

/-- The lines a command writes in frames whose tracked count is not zero (R183). -/
def trackedLines (s : State) (k : Work) : List Nat :=
  if s.store.tracked.isEmpty then [] else
  dedup ((cmdWrites s k).flatMap (fun x => (linesOf x.1 x.2).filter (fun l => AMap.get 0 s.store.tracked (l / 1024) != 0)))

/-- The further bookings of a command that writes tracked lines (R183), over the rounds `r` to `r + n - 1` of its work: a
sector access a line on the sector's stack and, in owner-ordered mode, a BISnpInv a line on each port of the agent set. -/
def trackedNeeds (s : State) (st : Nat) (ls : List Nat) : List (Nat × Nat × Nat) :=
  (List.range 8).map (fun k => (calHbm k, 64 * (ls.filter (fun l => (hbmStack s (64 * l) + 4) % 8 == k)).length, 25600))
  ++ (if homeOrdered s st then [] else (standingPorts s st).map (fun p => (calPort p, 64 * ls.length, 1600)))
def bookTracked (w : For) (needs : List (Nat × Nat × Nat)) (r n : Nat) (s : State) : Option State :=
  (List.range n).foldl (fun o i => o.bind (fun t =>
    let xs := needs.map (fun (x : Nat × Nat × Nat) => (x.1, cdiv (share x.2.1 n i 1) x.2.2))
    if xs.all (fun x => decide (x.2 ≤ (avail t w x.1 0 (r + i) 0).length)) then some (xs.foldl (fun u x => bookN w x.1 0 (r + i) 0 x.2 u) t) else none)) (some s)

/-- Place a command with its further bookings for tracked lines, later where a round of its work cannot take them. -/
def placeTracked (w : For) (ctx a : Nat) (bound : Option (Nat × Nat)) (c : Cmd) : (fuel early : Nat) → State → Option (State × Nat × Nat)
  | 0, _, _ => none
  | n + 1, early, s =>
    match placeWork w ctx a early bound c s with
    | none => none
    | some (t, f, l) =>
      let ls := trackedLines s c.work
      if ls.isEmpty then some (t, f, l) else
      match bookTracked w (trackedNeeds s w.stall ls) (f / 1024) (l / 1024 + 1 - f / 1024) t with
      | some u => some (u, f, l)
      | none => placeTracked w ctx a bound c n ((f / 1024 + 1) * 1024) s

/-- The earliest round of the record after commands that write tracked lines: the writes end BI_BOUND ticks or more
before the promise (R183). -/
def trackedLeast (s : State) (cmds : List Cmd) : Nat :=
  maxOf (cmds.map (fun c => if (trackedLines s c.work).isEmpty then 0 else cdiv (slotEndTick c.endSlot + cv s 0x5002 1) 1280 - 1))

/-- A command uses a unit a committed map has given its stall (R124): a bank or a page, a row-cache way, a tally, a channel. -/
def usesUnit (s : State) (st : Nat) (chan : Option Nat) (c : Cmd) (x : Nat × Nat) : Bool :=
  match x.1 with
  | 0 => bit (sramRec s st (x.2 / 512)) (if x.2 % 512 < 256 then 160 + x.2 % 512 else x.2 % 512 - 256)
      && (match c.work with | .segment _ => true | .gather d => d.outSpace == 1 && decide (256 ≤ x.2 % 512) | _ => false)
  | 1 => bit (sramRec s st (x.2 / 128)) (416 + x.2 % 128) && (match c.work with | .segment _ => true | _ => false)
  | 2 => ownsTally s st x.2 && (c.waitTally == x.2 || (destTallies c.work).contains x.2)
  | 3 => bit (cv s 0x3014 1 st) x.2 && chan == some x.2
  | 5 => x.2 / 32 == st && (match c.work with | .gather _ => true | _ => false)
  | _ => false
/-- The first slot of the round after the sweep of every unit a command uses (R124). -/
def sweptFrom (s : State) (w : For) (c : Cmd) : Nat :=
  let chan := (reqOf s w.rid).bind (·.chan)
  maxOf ((s.cat.sweepDue.filter (fun x => x.2.1 != 9 && usesUnit s w.stall chan c x.2)).map (fun x => (x.1 + 1) * 1024))
/-- Place the commands of a request in order; the request among the accepted ones keeps the commands placed so far. -/
def placeCmds (w : For) (ctx a : Nat) (bounds : Nat → Option (Nat × Nat)) : List Cmd → List Cmd → State → Option (State × List Cmd)
  | [], placed, s => some (s, placed)
  | c :: rest, placed, s =>
    let keep := fun (c : Cmd) (t : State) => updReq w.rid (fun q => { q with cmds := placed ++ [c] }) t
    if c.status.isSome then
      let c' := { c with startSlot := a * 1024, endSlot := a * 1024 + 1023 }
      placeCmds w ctx a bounds rest (placed ++ [c']) (keep c' s)
    else match placeTracked { w with cmd := placed.length } ctx a (bounds placed.length) c 256 (max (earlyOf a c placed) (sweptFrom s w c)) s with
      | none => none
      | some (t, f, l) =>
        let c' := withPace t w.rid placed.length { c with startSlot := f, endSlot := max l (maxOf (heldSlots t w.rid placed.length)), tracked := trackedFrames s c.work }
        placeCmds w ctx a bounds rest (placed ++ [c']) (keep c' (claimFrames w.rid placed.length (2 ^ 64) c.hold (freeVictims s (f / 1024) t)))

/-- The last round that holds a booking of a request, and the slot after its last there. -/
def lastBooked (s : State) (rid least : Nat) (cmds : List Cmd) : Nat × Nat :=
  let bs := s.gate.books.filter (fun b => b.rid == rid)
  let r := max least (max (maxOf (bs.map (·.round))) (maxOf (cmds.map (fun c => c.endSlot / 1024))))
  (r, maxOf ((bs.filter (fun b => b.round == r)).flatMap (fun b => b.slots.map (· + 1))))

/-- What a placement is tried for. `recCal`: where the record goes, none for the record reserve. -/
structure Try where
  q : Req
  cmds : List Cmd
  recCal : Option Nat
  bounds : Nat → Nat → Option (Nat × Nat)   -- decision round, command
  least : Nat → Nat                         -- decision round: the earliest round of the record
  next : Bool                               -- the record's round is the one after the decision's (R454)

/-- Try a placement decided in round `a`, the record by round `last`: the state with every booking, the request. -/
def attempt (x : Try) (a last : Nat) (s : State) : Option (State × Req) :=
  let maxR := if x.next then min last (a + 1) else last
  let w : For := { rid := x.q.rid, cmd := 0, stall := x.q.stall, bulk := x.q.cls == 2, maxR := maxR }
  match placeCmds w x.q.ctx a (x.bounds a) x.cmds [] { s with gate := { s.gate with reqs := s.gate.reqs ++ [{ x.q with cmds := [] }] } } with
  | none => none
  | some (t, cmds) =>
    let b := lastBooked t x.q.rid (max (x.least a) (trackedLeast s cmds)) cmds
    let rec_ := match x.recCal with
      | some cal => placeRecord { w with cmd := cmds.length } cal (maxR + 2 - b.1) b.1 b.2 t
      | none => if maxR < b.1 then none else some (t, b.1)
    match rec_ with
    | none => none
    | some (u, l) =>
      let q : Req := { x.q with cmds := cmds, recRound := l, promise := (l + 1) * 1280, bound := 0 }
      let walks := u.xl.walks.map (fun (p : PreWalk) => if p.rid = x.q.rid ∧ p.lastRound = 2 ^ 40 then { p with lastRound := l } else p)
      some (updReq q.rid (fun _ => q) { u with xl := { u.xl with walks := walks } }, q)

/-! ### Retry ticks (R70, R92) -/

/-- The stall with no request's booking in its shares (R69). The standing booking, which is no request's, stays (DESIGN CHOICE, log
entry 106). -/
def emptyShares (st : Nat) (s : State) : State :=
  { s with gate := { s.gate with books := s.gate.books.filter (fun b => b.stall != st), energy := s.gate.energy.filter (fun e => e.stall != st),
                                 pauses := s.gate.pauses.filter (fun p => p.stall != st), reqs := s.gate.reqs.filter (fun q => q.stall != st) } }

/-- The least arrival tick from `t` on at which a placement meets a class limit; at most `cap`. -/
def leastArrival (try_ : Nat → Option Nat) (limit cap : Nat) : (fuel t : Nat) → Nat
  | 0, _ => cap
  | n + 1, t =>
    if cap < t then cap else
    match try_ (t / 1280) with
    | none => leastArrival try_ limit cap n ((t / 1280 + 1) * 1280)
    | some l => if (l + 1) * 1280 ≤ t + limit then t else leastArrival try_ limit cap n ((l + 1) * 1280 - limit)

/-- The least decision round from `r` on whose own window holds the placement; at most `cap`. -/
def leastRound (try_ : Nat → Option Nat) (cap : Nat) : (fuel r : Nat) → Nat
  | 0, _ => cap
  | n + 1, r =>
    if cap ≤ r then cap else
    match try_ r with
    | none => leastRound try_ cap n (r + 1)
    | some l => if l ≤ r + 65536 then r else leastRound try_ cap n (l - 65536)

/-- The refusal of a request no placement was found for: the status and the retry tick, 2^64 for none. -/
def noPlacement (x : Try) (dt : Nat) (s : State) : Nat × Nat :=
  let a := dt / 1280
  let recOf := fun (o : Option (State × Req)) => o.map (fun p => p.2.recRound)
  let alone := attempt x a (lastRecRound x.q.cls dt a) (emptyShares x.q.stall s)
  if x.q.cls = 2 then
    (REFUSED_QUOTA, if alone.isNone then 2 ^ 64 else 1280 * leastRound (fun r => recOf (attempt x r (r + 131072) s)) (a + 65536) 65537 (a + 1))
  else
    let lim := classLimit x.q.cls
    (REFUSED_CALENDAR, if alone.isNone then 2 ^ 64
      else leastArrival (fun r => recOf (attempt x r (r + 1 + (lim + 327680) / 1280) s)) lim (dt + 327680) 300 dt)

/-- The retry tick of REFUSED_PURSE (R92). -/
def purseRetry (s : State) (st a c : Nat) : Nat :=
  let rate := cv s 0x2010 1 st
  if purseDepth s st < c ∨ rate = 0 then 2 ^ 64 else (a + cdiv ((c : Int) - balanceOf s st).toNat rate) * 1280

/-! ### Decision -/

/-- A promise of a stall is noted (R115). -/
def promised (st p : Nat) (s : State) : State :=
  { s with gate := { s.gate with lastPromise := AMap.upd 0 s.gate.lastPromise st (max p) } }
/-- Checks 6 to 8 of a request decided at `dt`: the refusal, or the state with its bookings, and the request. -/
def book (x : Try) (dt : Nat) (s : State) : (Nat × Nat) ⊕ (State × Req) :=
  let a := dt / 1280
  match attempt x a (lastRecRound x.q.cls x.q.arrival a) s with
  | none => .inl (noPlacement x dt s)
  | some (t, q) =>
    if !tlbFits t q.stall q.rid then
      .inl (REFUSED_QUOTA, if !tlbAloneFits t q.stall q.rid then 2 ^ 64
        else earliestPromise s (fun r => r.stall == q.stall && s.xl.walks.any (fun w => w.rid == r.rid)))
    else
      let c := chitSum t q.rid
      if balanceOf s q.stall < (c : Int) then .inl (REFUSED_PURSE, purseRetry s q.stall a c)
      else .inr (promised q.stall q.promise (addHolds q.rid q.promise q.cmds (draw q.stall c t)), q)

/-- The joints of an arrival. -/
def ofArrival (a : Arrival) (j : Joint) : Bool := j.origin && j.rid == 0 && j.ctx == a.ctx && j.pos == a.pos && j.chan == a.chan
def jointsOf (s : State) (a : Arrival) : List Joint := s.gate.joints.filter (ofArrival a)
/-- The far node of a joint's part, and the bound of R80 from the origin's or a relay's side. -/
def jointFar (s : State) (q : QueryMsg) : Nat := if nodeOf q.dst = nodeNumber s ∨ (nodeOf q.dst = q.origin ∧ nodeOf q.src ≠ nodeNumber s) then nodeOf q.src else nodeOf q.dst
def margin (s : State) (n : Nat) : Nat := cdiv (n * (1000000 + cv s 0x1030 2)) 1000000
/-- TB of a joint booking: of the link its query left on (R80, R395). -/
def jointTb (s : State) (j : Joint) : Nat := linkTb s j.link (jointFar s j.q)
def jointBound (s : State) (j : Joint) : Nat := j.sent + margin s (2 * jointTb s j + j.d)

/-- A command has a part on another node (R79). -/
def remoteCmd (s : State) (c : Cmd) : Bool := match c.work with | .xfer x => isRemote s x | _ => false

/-- The request of an arrival, before its placement. -/
def reqFor (a : Arrival) (cls dt : Nat) (cmds : List Cmd) (s : State) : Req :=
  { rid := s.gate.nextRid, ctx := a.ctx, chan := a.chan, stall := a.stall, cls := cls, arrival := a.tick, decided := dt, promise := 0,
    recRound := 0, entryPos := arrivalEntry a, tag := arrivalTag a, opcode := arrivalOp a, cmds := cmds,
    reserve := match cmds with | [c] => c.status.isSome && c.opcode != 0x81 | _ => false }

/-- The device writes ORIGIN and TICKET into the barrow descriptor of a request of one BARROW (R391). -/
def writeTicket (a : Arrival) (i ticket : Nat) (s : State) : State :=
  match a.entries[i]? with
  | some e => if Entry.opcode e = 0x07 then
      match resolve s a.stall (Entry.modeA e) (Entry.opa e) 64 with
      | .glob g _ => deviceWrite (offOf g + 24) (leBytes 8 (ticket + nodeNumber s * 2 ^ 50)) s
      | _ => s
    else s
  | none => s

/-- Conclude a decision on an arrival: checks 6 to 9, then acceptance or refusal. `t` carries what the decision tick
does, `s` is the state a refusal goes on from. -/
def conclude (a : Arrival) (cls : Nat) (cmds : List Cmd) (t s : State) : State :=
  let dt := decTick s a.stall
  let js := jointsOf s a
  let q := reqFor a cls dt cmds s
  let b := fun (j : Joint) => jointBound s j
  let x : Try := { q := q, cmds := cmds, recCal := if q.reserve || crEntries s a.ctx == 0 then none else some (calPort (portOf s a.ctx)),
                   bounds := fun r i => (js.find? (fun j => j.cmd == i)).map (fun j => ((b j + (r - dt / 1280) * 1280) / 1280, j.rate)),
                   least := fun r => max (r + 1) (maxOf (js.map (fun j => (b j + (r - dt / 1280) * 1280) / 1280))),
                   next := match cmds with | [c] => decide (0x80 ≤ c.opcode) | _ => false }
  match book x dt t with
  | .inl (st, d) => refuse a cmds.length st d s
  | .inr (u, q) =>
    let u1 := { u with gate := { u.gate with
      intake := u.gate.intake.filter (· != a), nextRid := q.rid + 1, lastDecision := AMap.set none u.gate.lastDecision a.stall (some dt),
      joints := u.gate.joints.map (fun j => if ofArrival a j then { j with rid := q.rid, bound := b j, confirmed := true } else j) } }
    let u2 := js.foldl (fun v j => writeTicket a j.cmd j.ticket (send (.confirm j.link j.ticket) v)) (cvAdd 0x1011 1 a.stall 1 u1)
    match a.chan with
    | some n => channelState n q.promise 2 u2
    | none => u2

/-- Send the booking queries of an arrival's remote parts (R79): the arrival waits for the replies. -/
def postQueries (a : Arrival) (cls : Nat) (cmds : List Cmd) (s : State) : State :=
  let s0 := { s with gate := { s.gate with intake := s.gate.intake.map (fun b => if b = a then { b with posted := true } else b) } }
  cmds.zipIdx.foldl (fun t (c, i) => match c.work with
    | .xfer x => if !isRemote t x then t else
      let far := farNode t x
      let l := (linksTo t a.stall far).headD 0
      let ticket := nodeNumber t * 2 ^ 18 + t.gate.nextTicket % 2 ^ 18
      let left := classLimit cls - (now t - a.tick) - 1280
      let q : QueryMsg := { origin := nodeNumber t, ticket := ticket, stall := a.stall, cls := cls, prio := x.prio, src := x.src, dst := x.dst,
                            length := x.count, tally := x.tally, packet := x.packet,
                            limit := left * 1000000 / (1000000 + cv t 0x1030 2) - 2 * linkTb t l far }
      let j : Joint := { ticket := ticket, node := cv t 0x8110 2 l, origin := true, cmd := i, ctx := a.ctx, pos := a.pos, chan := a.chan,
                         link := l, sent := now t, q := q }
      cvAdd 0x8001 5 a.stall 1 (send (.query l q) { t with gate := { t.gate with joints := t.gate.joints ++ [j], nextTicket := t.gate.nextTicket + 1 } })
    | _ => t) s0

/-- The Gate takes up an arrival: it is refused, or decided, or its remote parts are asked for. -/
def gateDecide (a : Arrival) (s : State) : State :=
  match screen a s with
  | .inr (x, d, t) => refuse a (match askOf s a with | .inl (_, l) => l.length | .inr _ => a.entries.length) x d t
  | .inl (cls, cmds, t) => if cmds.any (remoteCmd s) then postQueries a cls cmds s else conclude a cls cmds t s

/-- A context's oldest request that waits for its decision. -/
def oldest (s : State) (c : Nat) : Option Arrival := s.gate.intake.find? (fun a => a.ctx == c && !a.posted)
/-- Decide a context's oldest request, where it is of the row's form. -/
def gateRow (fits : Arrival → Bool) (c : Nat) (s : State) : State :=
  match oldest s c with
  | some a => if running s && gateOpened s && fits a && mayDecide s a.stall then gateDecide a s else s
  | none => s
/-- A request of one command of an opcode. -/
def isOp (op : Nat) (a : Arrival) : Bool := match a.entries with | [e] => Entry.opcode e == op | _ => false
/-- A catalogue request the management complex serves now (R464, R473). -/
def isCat (s : State) (op : Nat) (a : Arrival) : Bool :=
  isOp op a && (served s (.ctx a.ctx) (Entry.args (a.entries.headD 0) 0 2) (op == 0x81)).isSome
/-- A chain: several entries, or a channel's chain of descriptors. -/
def isChain (a : Arrival) : Bool := a.entries.length != 1

/-! ### Entries read (R415, R418, R421) -/

/-- The bytes at queue position `k` of a context, as an entry, and whether they can be read. -/
def queueAddr (s : State) (c k : Nat) : Nat := cv s 0x9100 2 c + 64 * (k % max 1 (cv s 0x9100 3 c))
def entryAt (s : State) (c k : Nat) : Entry :=
  let a := queueAddr s c k
  BitVec.ofNat 512 (if ctxPort s c = 128 then leNat (readCells s.mem.host a 64) else storeNat s (offOf a) 64)
def entryReads (s : State) (c k : Nat) : Bool :=
  let a := queueAddr s c k
  ctxPort s c == 128 || (pinnedRange s (ctxStall s c) a 64 && !rangeBad s (offOf a) 64)

/-- The entries of a context's next request: up to the first without CHAIN, 16 at most. -/
def nextEntries (s : State) (c : Nat) : (fuel k : Nat) → List Entry
  | 0, _ => []
  | n + 1, k => let e := entryAt s c k
                if e.chain then e :: nextEntries s c n ((k + 1) % 2 ^ 32) else [e]
def requestOf (s : State) (c : Nat) : List Entry := nextEntries s c 16 (ctxOf s c).cqTaken.toNat

/-- A context has a request ready to be read. -/
def ctxReady (s : State) (c : Nat) : Bool :=
  let x := ctxOf s c
  x.state == 1 && x.cqTail != x.cqTaken && decide (1 ≤ crFree x (crEntries s c))
  && decide ((requestOf s c).length ≤ (x.cqTail - x.cqTaken).toNat)

/-- A queue read fails: the context is HALTED, with a record (R415, R494, R502). -/
def haltCtx (c pos : Nat) (s : State) : State :=
  let st := ctxStall s c
  setCtx c { ctxOf s c with state := 2 } (detectRec 0x15 c pos c (if st < 256 then st else 0) 0 true s)

/-- One entry read: whether it fails (R494, R500-R502). -/
def readEntryOnce (c k : Nat) (s : State) : Bool × State :=
  let st := ctxStall s c
  if !entryReads s c k then (true, haltCtx c k s) else
  let i := inject 0x15 c st (!armed s 0x15 st) s
  match i.1 with
  | none => (false, i.2)
  | some (dev, contain) =>
    let t := errRec 0x15 c k c st 0 dev true i.2
    if contain then (true, setCtx c { ctxOf t c with state := 2 } (if dev then detect 0x15 t else t)) else (false, t)

def readAll (c : Nat) : List Nat → State → Bool × State
  | [], s => (false, s)
  | k :: r, s => match readEntryOnce c k s with
    | (true, t) => (true, t)
    | (false, t) => readAll c r t

/-- The context a stall's rotation reads next (R418). -/
def nextCtx (s : State) (st : Nat) : Option Nat :=
  let ready := ((storedInsts s 0x3030 1).filter (fun e => e.2 == st && ctxReady s e.1)).map (·.1)
  let from_ := AMap.get 0 s.gate.rotation st
  match ready.find? (fun c => decide (from_ ≤ c)) with
  | some c => some c
  | none => ready.head?

/-- ENTRY_FETCH: the next request of a stall is read, one entry every 4 ticks up to now, and arrives (R418). A request of
one entry with a reserved code is refused at once (check 1). -/
def entryFetch (st : Nat) (s : State) : State :=
  if !running s || !gateOpened s then s else
  match nextCtx s st with
  | none => s
  | some c =>
    let es := requestOf s c
    let pos := (ctxOf s c).cqTaken.toNat
    let since := match AMap.get none s.gate.lastFetch st with | some t => now s - t | none => 4 * es.length
    if since < 4 * es.length then s else
    match readAll c ((List.range es.length).map (fun i => (pos + i) % 2 ^ 32)) s with
    | (true, t) => t
    | (false, t) =>
      let x := ctxOf t c
      let t1 := cvAdd 0x9110 1 c es.length (setCtx c { x with cqTaken := x.cqTaken + BitVec.ofNat 32 es.length } t)
      let key := (curRound t * 16 + portOf t c) * 256 + st
      let t2 := { t1 with gate := { t1.gate with lastFetch := AMap.set none t1.gate.lastFetch st (some (now t)), rotation := AMap.set 0 t1.gate.rotation st (c + 1),
                                                 inbound := AMap.set 0 t1.gate.inbound key (AMap.get 0 t1.gate.inbound key + es.length) } }
      let a : Arrival := { ctx := c, stall := st, tick := now t, pos := pos, entries := es }
      let t3 := arrive a t2
      match es with
      | [e] => if knownOp (Entry.opcode e) || !t3.gate.intake.contains a then t3 else refuse a 1 INVALID 0 t3
      | _ => t3

/-- QUEUE_FETCH: a read of a context's next entry fails, or does not complete in its bound (R415). -/
def queueFetch (c : Nat) (s : State) : State :=
  let x := ctxOf s c
  if running s && gateOpened s && x.state == 1 && x.cqTail != x.cqTaken then haltCtx c x.cqTaken.toNat s else s

def execEntryFetch (stall : Nat) (s : State) : Out := .next (entryFetch stall s)
def execQueueFetch (ctx : Nat) (s : State) : Out := .next (queueFetch ctx s)
def execChain (ctx : Nat) (s : State) : Out := .next (gateRow isChain ctx s)
def execGatherBags (ctx : Nat) (s : State) : Out := .next (gateRow (isOp 0x01) ctx s)
def execSearch (ctx : Nat) (s : State) : Out := .next (gateRow (isOp 0x02) ctx s)
def execInsertVectors (ctx : Nat) (s : State) : Out := .next (gateRow (isOp 0x03) ctx s)
def execDeleteVectors (ctx : Nat) (s : State) : Out := .next (gateRow (isOp 0x04) ctx s)
def execRunSegment (ctx : Nat) (s : State) : Out := .next (gateRow (isOp 0x05) ctx s)
def execCopy (ctx : Nat) (s : State) : Out := .next (gateRow (isOp 0x06) ctx s)
def execBarrow (ctx : Nat) (s : State) : Out := .next (gateRow (isOp 0x07) ctx s)
def execPublish (ctx : Nat) (s : State) : Out := .next (gateRow (isOp 0x08) ctx s)
def execTableSwitch (ctx : Nat) (s : State) : Out := .next (gateRow (isOp 0x09) ctx s)
def execSetSwitch (ctx : Nat) (s : State) : Out := .next (gateRow (isOp 0x0A) ctx s)
def execTallyWait (ctx : Nat) (s : State) : Out := .next (gateRow (isOp 0x0B) ctx s)
def execTallyAdd (ctx : Nat) (s : State) : Out := .next (gateRow (isOp 0x0C) ctx s)
def execFence (ctx : Nat) (s : State) : Out := .next (gateRow (isOp 0x0D) ctx s)
def execInvalidateXlate (ctx : Nat) (s : State) : Out := .next (gateRow (isOp 0x0E) ctx s)
def execExtentClose (ctx : Nat) (s : State) : Out := .next (gateRow (isOp 0x0F) ctx s)
def execCatRead (ctx : Nat) (s : State) : Out := .next (gateRow (isCat s 0x80) ctx s)
def execCatWrite (ctx : Nat) (s : State) : Out := .next (gateRow (isCat s 0x81) ctx s)
def execCatInfo (ctx : Nat) (s : State) : Out := .next (gateRow (isCat s 0x82) ctx s)

end Sys2Proof.Machine
end

