-- ==== Sys2Proof/Machine/Parts.lean ====
section
/-! DEFINITION. Accepted work: starts, deferred checks, windows, part completion, faults, overruns and completion records
(R61, R62, R67-R74, R83, R101, R126, R148, R183, R184, R214, R219, R337, R383, R388-R390, R423-R426, R454, R520). -/

namespace Sys2Proof.Machine
open Sys2Proof

/-! ### Start (R62, R67, R74) -/

/-- The ticket of a request's part, 0 where it has none. -/
def ticketOf (s : State) (rid i : Nat) : Nat := match s.gate.joints.find? (fun j => j.rid == rid && j.cmd == i) with | some j => j.ticket | none => 0
/-- A part held for a peer runs once its booking is confirmed (R81). -/
def confirmed (s : State) (rid : Nat) : Bool := s.gate.joints.all (fun j => j.rid != rid || j.origin || j.confirmed)

/-- Write the buffer of a catalogue read (R454). -/
def writeBuffer (rid i st ctx buf : Nat) (l : List Byte) (s : State) : State :=
  match servedRange st ctx none false true buf l.length s with
  | (.inr e, t) => endCmd rid i e.status e.detail e.injected t
  | (.inl ps, t) => owned rid 0 (writePieces ps l) (act rid st 0 (cdiv l.length 64) t)

/-- The work of a command at its booked start. -/
def startWork (q : Req) (i : Nat) (c : Cmd) (s : State) : State :=
  match c.work with
  | .gather _ => startGather q.rid i s
  | .search _ => startSearch q.rid i s
  | .segment d => takeFrames (segUses s d) s
  | .xfer x => startXfer x s
  | .tallyWait => endCmd q.rid i OK 0 false s
  | .invalidate va len ctx drain =>
    let e : IqEnt := { stall := q.stall, va := va, len := len, ctx := ctx, drain := drain, taken := now s, queue := false, rid := q.rid, cmd := i }
    { s with xl := { s.xl with iq := s.xl.iq ++ [e] } }
  | .catRead buf l => writeBuffer q.rid i q.stall q.ctx buf l s
  | .catInfo buf l => writeBuffer q.rid i q.stall q.ctx buf l s
  | _ => s

/-- A command may start now: accepted, not started nor abandoned, and its slot has begun. -/
def mayStart (s : State) (q : Req) (c : Cmd) : Bool :=
  !c.started && openCmd c && slotBegun s c.startSlot && confirmed s q.rid

/-- A command's wait is over: its tally has reached its target (R74, R214). -/
def waitMet (s : State) (c : Cmd) : Bool := c.waitTally == 0xFFFF || reached s c.waitTally c.waitTarget

/-- Mark a command started; a channel is RUNNING from its first. -/
def markStarted (q : Req) (i : Nat) (s : State) : State :=
  let s1 := updCmd q.rid i (fun c => { c with started := true }) s
  match q.chan with
  | some n => channelState n q.promise 3 s1
  | none => s1

/-- PART_START. A deferred command and a SET_SWITCH have rows of their own. -/
def partStart (rid i : Nat) (s : State) : State :=
  match reqOf s rid, cmdOf s rid i with
  | some q, some c =>
    if !mayStart s q c || c.deferred || (match c.work with | .setSwitch .. => true | _ => false) then s
    else
      let s1 := markStarted q i s
      if waitMet s c then startWork q i c s1 else endCmd rid i BUSY (tallyVal s c.waitTally % 2 ^ 32) false s1
  | _, _ => s

/-- SET_SWITCH_WINDOW: the booked window begins; the rows of the set's previous versions are marked (R337). -/
def setSwitchWindow (rid : Nat) (s : State) : State :=
  match reqOf s rid with
  | none => s
  | some q => q.cmds.zipIdx.foldl (fun t (c, i) => match c.work with
    | .setSwitch set _ _ _ _ =>
      if mayStart s q c then
        let t1 := markStarted q i t
        if waitMet s c then markSet q.stall set t1 else endCmd rid i BUSY (tallyVal s c.waitTally % 2 ^ 32) false t1
      else t
    | _ => t) s

/-- The own checks and the effect of a deferred admission command (R34, R44, R335, R423). -/
def deferredWork (q : Req) (i : Nat) (w : Work) (s : State) : State :=
  let fin := fun (l : List (Bool × Nat × Nat)) (detail : Nat) (t : State) =>
    match firstFail l with
    | some (x, d) => endCmd q.rid i x d false s
    | none => endCmd q.rid i OK detail false t
  match w with
  | .publish g tally expect base => fin (publishChecks s q.stall g expect base) ((expect + 1) % 2 ^ 32) (publish q.stall q.ctx g tally expect base s)
  | .tableSwitch t expect tally rows target base =>
    match tableSwitchFail s q.stall t expect tally rows target base with
    | some (x, d) => endCmd q.rid i x d false s
    | none => endCmd q.rid i OK ((expect + 1) % 2 ^ 16) false (cvAdd 0x7200 0x0A q.stall 1 (switchTable t expect rows base s))
  | .tallyAdd t n => fin [] 0 (advance q.stall t n s)
  | .extentClose e tally =>
    match closeExtent e tally s with
    | some (b, t) => fin (closeChecks s q.stall e) (b % 2 ^ 32) t
    | none => fin (closeChecks s q.stall e ++ [(false, BUSY, 0)]) 0 s
  | _ => s

/-- DEFERRED_ADMISSION_CHECK: at the first tick of its round (R423). -/
def deferredCheck (rid i : Nat) (s : State) : State :=
  match reqOf s rid, cmdOf s rid i with
  | some q, some c =>
    if !mayStart s q c || !c.deferred then s
    else
      let s1 := markStarted q i s
      if waitMet s c then deferredWork q i c.work s1 else endCmd rid i BUSY (tallyVal s c.waitTally % 2 ^ 32) false s1
  | _, _ => s

/-! ### Progress at the ends of slots (R126, R211) -/

/-- What the slots that have ended make of a command's work. -/
def paceWork (q : Req) (i : Nat) (c : Cmd) (s : State) : State :=
  match c.work with
  | .gather d => paceGather q.rid i q.stall q.ctx c d s
  | .search d => paceSearch q.rid i q.stall q.ctx c d s
  | .side del u _ n array seq virt => paceSide q.rid i q.stall q.ctx u n array seq del virt c s
  | .xfer x => if remoteSrc s x then s else paceXfer q.rid i q.stall q.ctx c x (ticketOf s q.rid i) s
  | _ => s

/-- A slot of the command's pacing calendar has ended since its last progress, or a page unit of its search has. -/
def paceDue (s : State) (q : Req) (i : Nat) (c : Cmd) : Bool :=
  decide (c.done < slotsEnded s q.rid i c) || (match c.work with
    | .search d => (match searchRun s q.rid i with | some r => !(endedUnits s q.rid i c.startSlot d r).isEmpty | none => false)
    | _ => false)

/-- One command at the end of a slot (R126): its work goes on, its bytes are counted. -/
def paceCmd (q : Req) (i : Nat) (s : State) : State :=
  match cmdOf s q.rid i with
  | none => s
  | some c =>
    if !c.started || !paceDue s q i c then s else
    let t := if openCmd c then owned q.rid 0 (paceWork q i c) s else s
    let whole := match c.work with | .gather _ => (batchRun t q.rid i).isNone || (batchRun t q.rid i) != (batchRun s q.rid i) | _ => true
    countBytes q i (if whole then updCmd q.rid i (fun c => { c with done := slotsEnded s q.rid i c }) t else t)

/-- The progress of every accepted request, in the order of acceptance; what it counts belongs to the round of the slots. -/
def paceAll (s : State) : State :=
  if s.gate.reqs.isEmpty then s else
  let n := s.gate.acts.length
  let t := s.gate.reqs.foldl (fun t q => (List.range q.cmds.length).foldl (fun t i => paceCmd q i t) t) s
  { t with gate := { t.gate with acts := t.gate.acts.take n ++ (t.gate.acts.drop n).map (fun a => { a with round := endedRound s }) } }

/-! ### Completion of parts (R183, R383, R388) -/

/-- A FENCE's conditions hold (R148, R219, R520). -/
def fenceMet (s : State) (q : Req) (durable : Bool) (e : Nat) : Bool :=
  s.gate.reqs.all (fun r => !(r.ctx == q.ctx && decide (r.rid < q.rid) && r.peerTicket.isNone))
  && (!durable || (s.store.wbs.all (fun w => !(w.frame / 16384 == e && w.fence != 0 && decide (w.fence ≤ q.rid)))
      && (AMap.get ({} : ExtRec) s.ext.flashRecs e).state == 1))

/-- The work of a command that no event of its own ends is done. -/
def workDone (s : State) (q : Req) (i : Nat) (c : Cmd) : Bool :=
  c.started && openCmd c && decide (slotEndTick c.endSlot ≤ now s) &&
  (match c.work with
   | .gather _ => (batchRun s q.rid i).isNone && decide (c.slots ≤ c.done) && !ownSnps s q.rid
   | .search d => (searchRun s q.rid i).isNone && decide (d.queries ≤ c.delivered) && !ownSnps s q.rid
   | .catRead _ _ | .catInfo _ _ => !ownSnps s q.rid
   | .setSwitch .. => true
   | .fence durable e => fenceMet s q durable e
   | _ => false)

/-- End the commands of a request whose work is done. -/
def settleReq (rid : Nat) (s : State) : State :=
  match reqOf s rid with
  | none => s
  | some q => q.cmds.zipIdx.foldl (fun t (c, i) => if workDone s q i c then endCmd rid i OK c.detail false t else t) s

/-- The joint booking of a request's part at its origin. -/
def originJoint (s : State) (rid i : Nat) : Option Joint := s.gate.joints.find? (fun j => j.rid == rid && j.cmd == i && j.origin)

/-- A transfer is complete: every part's bit, and the peer's message where it has one; its packet counts where its
destination is here (R383, R392). -/
def finishXfer (q : Req) (i : Nat) (x : Xfer) (s : State) : State :=
  match cmdOf s q.rid i with
  | none => s
  | some c =>
    let told := match originJoint s q.rid i with | some j => j.done | none => true
    if c.parts == allParts x.count && told && openCmd c then
      let s1 := if x.packet && !remoteDst s x then advance q.stall x.tally 1 s else s
      cvAdd 0x8001 1 q.stall (if q.peerTicket.isSome then 0 else 1) (endCmd q.rid i OK 0 false s1)
    else s

/-- The destination of part `k` of a transfer. -/
def partPieces (s : State) (ctx : Nat) (x : Xfer) (k : Nat) : List (Nat × Nat) :=
  dstPieces s ctx x (k * partSize x.count) (min ((k + 1) * partSize x.count) x.count)

/-- PART_COMPLETE: the part's bytes are written, its back-invalidations closed and its last line read back (R383). A part
of another command completes with the command. A peer that sends completes a part once it is sent. -/
def partComplete (rid i k : Nat) (s : State) : State :=
  match reqOf s rid, cmdOf s rid i with
  | some q, some c =>
    match c.work with
    | .xfer x =>
      if !c.started || !openCmd c || partCount x.count ≤ k || bit c.parts k then s
      else if remoteDst s x then
        if q.peerTicket.isSome && !remoteSrc s x && decide (min ((k + 1) * partSize x.count) x.count ≤ c.delivered) then finishXfer q i x (updCmd rid i (fun c => { c with parts := setBit c.parts k true }) s) else s
      else
        let hi := min ((k + 1) * partSize x.count) x.count
        let ps := partPieces s q.ctx x k
        if c.delivered < hi || ps.any (fun p => snpsOpen s (offOf p.1) p.2) then s
        else
          let last := (ps.getLastD (x.dst, 1))
          let line := (offOf last.1 + last.2 - 1) / 64 * 64
          match hbmRange q.stall q.ctx line 64 true s with
          | (some inj, t) => endXfer rid i (partCount x.count) k FAULT_MEMORY 0 inj t
          | (none, t) => finishXfer q i x (updCmd rid i (fun c => { c with parts := setBit c.parts k true }) t)
    | _ => if workDone s q i c then endCmd rid i OK c.detail false s else s
  | _, _ => s

/-! ### Faults and overruns (R72, R73) -/

/-- End part `k` of a command in progress. -/
def endAt (rid i k status detail : Nat) (inj : Bool) (s : State) : State :=
  match cmdOf s rid i with
  | some c =>
    if c.status.isSome then s else
    match c.work with
    | .xfer x => endXfer rid i (partCount x.count) k status detail inj s
    | _ => endCmd rid i status detail inj s
  | none => s

/-- PART_FAULT: a real fault met by a command under way (R72). An address from 2^64 on names a 4 KiB region of a mapping
table (R161). -/
def partFault (rid i k : Nat) (cause : FaultCause) (s : State) : State :=
  match reqOf s rid, cmdOf s rid i with
  | some q, some c =>
    if !c.started || !openCmd c then s else
    match cause with
    | .hbmUe addr =>
      let t := if 2 ^ 64 ≤ addr then { detectRec 0x00 (addr % 2 ^ 64) 0 q.ctx q.stall FAULT_MEMORY false (cvAdd 0x4050 8 0 1 s) with
                                       store := { s.store with mapBad := s.store.mapBad ++ [addr - 2 ^ 64] } }
        else hbmUe (offOf addr) q.ctx q.stall FAULT_MEMORY s
      endAt rid i k FAULT_MEMORY 0 false t
    | .hbmCe addr => hbmCe (offOf addr) q.stall s
    | .sector addr => if homeOrdered s (homeStall s (offOf addr / 64)) then pump (sectorFault (homeStall s (offOf addr / 64)) 0xFFFF (offOf addr / 64) s) else s
    | .sramUe loc => endAt rid i k FAULT_MEMORY 0 false (cvAdd 0x6020 2 q.stall 1 (detectRec 0x02 loc 0 q.ctx q.stall FAULT_MEMORY false s))
    | .sramCe _ => detect 0x03 s
    | .ldpc loc => endAt rid i k FAULT_MEMORY 0 false (cvAdd 0x4040 9 0 1 (detectRec 0x04 loc 0 q.ctx q.stall FAULT_MEMORY false s))
    | .translation va cause => let f := xlateFault q.stall q.ctx va cause s; endAt rid i k FAULT_TRANSLATION (f.1 % 2 ^ 32) false f.2
    | .link l cause => let t := if linkUp s l then linkFailed l cause false s else s; endAt rid i k FAULT_LINK 0 false t
    | .streamParity loc => endCluster (bits loc 47 40) false (detectRec 0x0F loc q.stall q.ctx q.stall FAULT_MEMORY false s)
  | _, _ => s

/-- The status of R72 for the path of a command's part. -/
def pathStatus (s : State) (c : Cmd) : Nat := if remoteCmd s c then FAULT_LINK else FAULT_MEMORY
/-- The command's part has done its work: of a transfer every byte is at its destination or sent (R184 lets answers come
later), of a segment only its own end says so. -/
def servedAll (s : State) (q : Req) (i : Nat) (c : Cmd) : Bool :=
  c.started && (match c.work with
    | .xfer x => remoteDst s x || decide (x.count ≤ c.delivered)
    | .segment _ => false
    | .gather _ => (batchRun s q.rid i).isNone
    | .search _ => (searchRun s q.rid i).isNone
    | _ => true)

/-- CAL_OVERRUN: a part not finished when its last booked slot ends is stopped (R73); of a part that is finished the end
is an opportunity of the detector. -/
def calOverrun (rid i : Nat) (s : State) : State :=
  match reqOf s rid, cmdOf s rid i with
  | some q, some c =>
    if !openCmd c || c.deferred || decide (now s < slotEndTick c.endSlot) then s
    else if !servedAll s q i c then overrun rid i (pathStatus s c) false false s
    else match inject 0x0B rid q.stall (!armed s 0x0B q.stall) s with
      | (some (dev, contain), t) => overrun rid i (pathStatus s c) true dev (if contain && dev then detect 0x0B t else t)
      | (none, t) => t
  | _, _ => s

/-! ### The completion record (R61, R68, R101, R389, R390, R424-R426) -/

/-- Every command of a request has ended or is abandoned. -/
def allOver (q : Req) : Bool := q.cmds.all (fun c => c.status.isSome)
/-- The first command in chain order with a status other than OK. -/
def firstFailed (q : Req) : Option Cmd := q.cmds.find? failed
def reqStatus (q : Req) : Nat := match firstFailed q with | some c => c.status.getD OK | none => OK

/-- DETAIL of a command that ended with OK (R426). -/
def okDetail (c : Cmd) : Nat :=
  match c.work with
  | .gather _ => c.detailAlt
  | .search _ => min c.detailAlt 0xFFFFFFFF
  | .side _ _ _ _ _ seq _ => seq % 2 ^ 32
  | _ => c.detail
def reqDetail (q : Req) : Nat := match firstFailed q with | some c => c.detail | none => (q.cmds.getLast?.map okDetail).getD 0

/-- The part bitmap: of a lone transfer its parts (R389), of a chain its commands (R68), else none. -/
def reqParts (q : Req) : Nat :=
  match q.cmds with
  | [c] => (match c.work with | .xfer _ => c.parts | _ => 0)
  | l => sumOf (l.zipIdx.map (fun (c, i) => if c.status = some OK then 2 ^ i else 0))
/-- Some, but not all, of the parts or commands completed with OK. -/
def reqPartial (q : Req) : Bool := reqStatus q != OK && (reqParts q != 0 || q.cmds.any (fun c => c.status == some PARTIAL))

/-- The record of an accepted request. -/
def reqRecord (s : State) (q : Req) (ph : Nat) : Nat :=
  recordBits (reqDetail q) (now s) q.promise q.entryPos (reqParts q) q.tag (q.cmds.length - 1) q.opcode ph false (reqPartial q)
    (q.injected && reqStatus q != OK) (reqStatus q)

/-- Refund the chits of the rounds after the present one; the purse calendar keeps them booked (R101). The page transfers those
rounds were booked for are not made, but for the programs of write-backs, which are counted and no longer charged. -/
def refundLater (q : Req) (s : State) : State :=
  let later := fun (e : EBook) => e.rid == q.rid && e.chit && decide (curRound s < e.round)
  let uj := sumOf ((s.gate.energy.filter later).map (·.uj))
  let gone := fun (a : Act) => a.rid == q.rid && decide (curRound s < a.round)
  refund q.stall uj { s with gate := { s.gate with
    energy := s.gate.energy.map (fun e => if later e then { e with rid := lapsedRid } else e)
    acts := (s.gate.acts.filter (fun a => !gone a || a.kind == 2)).map (fun a => if gone a then { a with rid := lapsedRid } else a) } }

/-- What a failed INSERT_VECTORS or DELETE_VECTORS wrote is void; its sequence number, where its last slot has not ended, stays with
its collection: COLL_SEQ takes it then (R365). -/
def leaveNumber (c : Cmd) (s : State) : State :=
  match c.work with
  | .side _ u _ _ _ seq _ =>
    let t := if failed c then voidSeq u seq s else s
    if failed c && decide (cSeq s u < seq) then setColl u { collOf t u with voids := (collOf t u).voids ++ [(seq, c.endSlot)] } t else t
  | _ => s

/-- What a request's end releases: pins, translations, row-cache rows, the drain tallies it is counted in (R32, R46, R236,
R318, R334, R353), its tracking entries and its joint bookings. -/
def releaseReq (q : Req) (s0 : State) : State :=
  let s := q.cmds.foldl (fun t c => leaveNumber c t) s0
  let s1 := (q.cmds.flatMap (·.pins)).foldl (fun t p => unpin p t) s
  let s2 := (dedup (q.cmds.flatMap (·.exts))).foldl (fun t e => drainDown e 1 t) (releaseRows q.rid (dropWalks q.rid s1))
  { s2 with gate := { s2.gate with ended := AMap.set 65536 s2.gate.ended q.rid (q.ctx + 1), reqs := s2.gate.reqs.filter (fun r => r.rid != q.rid), joints := s2.gate.joints.filter (fun j => j.rid != q.rid) } }

/-- A held part's link has been UP since the part was booked; where it has trained again its origin has reset or lost it (R84). -/
def linkSince (s : State) (j : Joint) : Bool :=
  linkUp s j.link && (match (linkOf s j.link).upRound with | some u => decide (u * 1280 ≤ j.replyTick) | none => false)
/-- The part-completion message of a part held for a peer (R83), discarded where the origin has reset (R84). -/
def tellOrigin (q : Req) (s : State) : State :=
  match s.gate.joints.find? (fun j => j.rid == q.rid && !j.origin), q.cmds.head? with
  | some j, some c =>
    let st := if c.status = some PARTIAL then c.detail % 256 else reqStatus q
    let t := cvAdd 0x8001 6 q.stall 1 s
    if linkSince s j then send (.partDone j.link j.ticket c.parts c.delivered st) t else t
  | _, _ => s

/-- The tick at which a request's booked record slot ends; 0 once its round has passed. -/
def recordSlotEnd (s : State) (q : Req) : Nat :=
  maxOf ((s.gate.books.filter (fun b => b.rid == q.rid && b.cmd == q.cmds.length && !b.slots.isEmpty)).map (fun b => slotEndTick (b.round * 1024 + maxOf b.slots)))
/-- The end of the first slot of the stall's outbound port share that ends after tick `t` (R184). -/
def nextPortEnd (s : State) (q : Req) (t : Nat) : Nat :=
  let ks := maskSlots (shareMask s q.stall (calChunk (calPort (portOf s q.ctx))))
  (minOf ([t / 1280, t / 1280 + 1].flatMap (fun r => (ks.map (fun k => slotEndTick (r * 1024 + k))).filter (fun e => decide (t < e))))).getD 0
/-- A record may be written (R61, R126, R184): none of the request's back-invalidations is open; with OK its booked slot has ended;
one held back for an answer waits for the port slot after it. At the promise it is written in every case. -/
def mayRecord (s : State) (q : Req) : Bool :=
  decide (q.promise ≤ now s) || (!ownSnps s q.rid
    && (reqStatus q != OK || q.reserve || (decide (q.recRound ≤ curRound s) && decide (recordSlotEnd s q ≤ now s)))
    && (q.answered == 0 || decide (q.answered < recordSlotEnd s q) || decide (nextPortEnd s q q.answered ≤ now s)))

/-- COMPLETION_RECORD: once every command has ended and its writes have closed; its bytes are counted by then (R211, R218). -/
def completionRecord (rid : Nat) (s : State) : State :=
  let s1 := settleReq rid s
  match reqOf s1 rid with
  | none => s1
  | some q0 =>
    let q := if chainFailed q0 then abandon (fun _ => true) q0 else q0
    let ok := reqStatus q == OK
    if !allOver q || !mayRecord s1 q then s1
    else
      let s0 := (List.range q.cmds.length).foldl (fun t i => countBytes q i t) s1
      let told := if q.peerTicket.isSome then tellOrigin q s0 else s0
      let s1 := releaseReq q (if ok then told else cvAdd 0x1011 6 q.stall (if q.peerTicket.isSome then 0 else 1) (refundLater q told))
      if q.peerTicket.isSome then s1 else
      let s2 := writeRecord q.stall q.ctx (reqRecord s1 q) s1
      match q.chan with
      | some n => channelDone n q.promise (reqParts q) (reqStatus q) (sumOf (q.cmds.map (·.delivered))) s2
      | none => s2

def execDeferredAdmissionCheck (rid cmd : Nat) (s : State) : Out := .next (deferredCheck rid cmd s)
def execPartStart (rid cmd : Nat) (s : State) : Out := .next (partStart rid cmd s)
def execPartComplete (rid cmd part : Nat) (s : State) : Out := .next (partComplete rid cmd part s)
def execCompletionRecord (rid : Nat) (s : State) : Out := .next (completionRecord rid s)
def execCalOverrun (rid cmd : Nat) (s : State) : Out := .next (calOverrun rid cmd s)
def execPartFault (rid cmd part : Nat) (cause : FaultCause) (s : State) : Out := .next (partFault rid cmd part cause s)
def execSetSwitchWindow (rid : Nat) (s : State) : Out := .next (setSwitchWindow rid s)

end Sys2Proof.Machine
end

