-- ==== Sys2Proof/Machine/Joint.lean ====
section
/-! DEFINITION. Joint booking: a peer's and a relay's part, replies, confirmations, holds and completion messages
(R79-R84, R389, R392, R395). -/

namespace Sys2Proof.Machine
open Sys2Proof

/-! ### The peer and the relay (R79, R81, R84, R395) -/

/-- The transfer a query asks for. -/
def xferOf (q : QueryMsg) : Xfer :=
  { src := q.src, dst := q.dst, count := q.length, tally := q.tally, packet := q.packet, vSrc := false, vDst := false, prio := q.prio }

/-- A refusal's D in a reply: the interval to the retry tick, or the detail word (R69, R82). -/
def refusalD (status d dt : Nat) : Nat := if hasRetry status then (if 2 ^ 64 ≤ d then 0xFFFFFFFF else min (d - dt) 0xFFFFFFFE) else d

/-- Answer a query's sender with a status that refuses, at decision tick `dt` of its stall (R55). -/
def replyTo (link ticket status d : Nat) (s : State) : State := send (.reply link ticket status d 0) s
def replyRefused (link : Nat) (m : QueryMsg) (status d dt : Nat) (s : State) : State :=
  noteDecision m.stall dt (replyTo link m.ticket status (refusalD status d dt) s)

/-- The per-round rate of a held part: the most bytes its transmit slots carry in a round (R80; the reply carries it, log entry
104). -/
def partRate (s : State) (rid : Nat) : Nat :=
  let bs := s.gate.books.filter (fun b => b.rid == rid && b.cmd == 0 && decide (88 ≤ b.cal) && decide (b.cal < 120))
  maxOf ((dedup (bs.map (·.round))).map (fun r => 1250 * sumOf ((bs.filter (fun b => b.round == r)).map (fun b => max b.count b.slots.length))))

/-- Place a part held for another device: the data at its place after the confirmation hold, then the message on the link
the query came on. Phases of the part are placed by `data`. -/
def placeHeld (w : For) (link early : Nat) (c : Cmd) (data : State → Option (State × Nat × Nat)) (q : Req) (least : Nat) (s : State) : Option (State × Req) :=
  match data { s with gate := { s.gate with reqs := s.gate.reqs ++ [q] } } with
  | none => none
  | some (t, f, l) =>
    let cmds := [withPace t q.rid w.cmd { c with startSlot := f, endSlot := max l (maxOf (heldSlots t q.rid w.cmd)), tracked := trackedFrames s c.work }]
    let b := lastBooked t q.rid (max least (early / 1024)) cmds
    match placeRecord { w with cmd := 1 } (calLink link) (w.maxR + 2 - b.1) b.1 b.2 t with
    | none => none
    | some (u, r) =>
      let q' := { q with cmds := cmds, recRound := r, promise := (r + 1) * 1280 }
      some (updReq q.rid (fun _ => q') (freeVictims s (f / 1024) u), q')

/-- Decide a part held for another device at `dt`: the refusal, or the state with its bookings, and the part. -/
def bookHeld (w : For) (link dt a : Nat) (c : Cmd) (q : Req) (least : Nat)
    (data : For → Nat → State → Option (State × Nat × Nat)) (s : State) : (Nat × Nat) ⊕ (State × Req) :=
  let early := max ((a + 1) * 1024) (sweptFrom s w c)
  match placeHeld w link early c (data w early) q least s with
  | none =>
    let lim := (w.maxR + 1) * 1280 - dt
    let try_ := fun (r : Nat) => let v := { w with maxR := r + 1 + (lim + 327680) / 1280 }
                                 (placeHeld v link ((r + 1) * 1024) c (data v ((r + 1) * 1024)) q (least + (r - a)) s).map (fun p => p.2.recRound)
    let alone := placeHeld w link early c (data w early) q least (emptyShares q.stall s)
    .inl (if q.cls = 2 then (REFUSED_QUOTA, if alone.isNone then 2 ^ 64 else 1280 * leastRound try_ (a + 65536) 65537 (a + 1))
      else (REFUSED_CALENDAR, if alone.isNone then 2 ^ 64 else leastArrival try_ lim (dt + 327680) 300 dt))
  | some (t, r) =>
    let uj := chitSum t q.rid
    if balanceOf s q.stall < (uj : Int) then .inl (REFUSED_PURSE, purseRetry s q.stall a uj)
    else .inr (promised q.stall r.promise (addHolds q.rid r.promise r.cmds (draw q.stall uj t)), r)

/-- The request of a part held for another device. -/
def heldReq (m : QueryMsg) (dt : Nat) (c : Cmd) (s : State) : Req :=
  { rid := s.gate.nextRid, ctx := 0xFFFF, stall := m.stall, cls := m.cls, arrival := now s, decided := dt, promise := 0, recRound := 0,
    entryPos := 0, tag := 0, opcode := 0x07, cmds := [c], peerTicket := some m.ticket }
/-- The last round of a held part's bookings: its class and the interval the origin allows. -/
def heldLast (s : State) (m : QueryMsg) (a : Nat) : Nat := min (lastRecRound m.cls (now s) a) ((now s + m.limit) / 1280 - 1)

/-- A query's stall is ACTIVE here and may use the class (R56). -/
def heldStall (s : State) (m : QueryMsg) : List (Bool × Nat × Nat) :=
  [(stallLive s m.stall, PROTECTION, 0), (bit (cv s 0x1010 3 m.stall) (classBit m.cls), PROTECTION, 0)]
/-- The checks of a query before its placement (R56, R84): the part as a transfer of its stall, its class, pauses, one
tracking entry. -/
def heldChecks (s : State) (m : QueryMsg) : Chk :=
  match firstFail (heldStall s m) with
  | some (x, d) => .bad x d
  | none =>
    match checkXfer s m.stall 0 0x07 (xferOf m) [] with
    | .bad x d => .bad x d
    | .good c => match firstFail (stallChecks s m.stall 1) with
      | some (x, d) => .bad x d
      | none => .good c

/-- Place a peer's part: the writes of a push with their frames, or the reads and transmit slots of a pull (R392). -/
def placePeer (m : QueryMsg) (w : For) (early : Nat) (s : State) : Option (State × Nat × Nat) :=
  let x := xferOf m
  let v := { w with prio := m.prio, xfer := true }
  if remoteDst s x then placeXfer v 0 (early / 1024 - 1) early none x s
  else
    match placeWithFrames v (early / 1024 - 1) (xferUses s x) early (fun e t => runPhase v (recvPhase t x e) (preemptFor v (recvPhase t x e) t)) 8 ((early / 1024 + 2) * 1024) s with
    | none => none
    | some (t, f, l) =>
      let ls := trackedLines s (.xfer x)
      if ls.isEmpty then some (t, f, l)
      else (bookTracked v (trackedNeeds s w.stall ls) (f / 1024) (l / 1024 + 1 - f / 1024) t).map (fun u => (u, f, l))

/-- Hold a decided part: the joint booking, the reply with D (R79). -/
def holdPart (link : Nat) (m : QueryMsg) (dt : Nat) (q : Req) (s : State) : State :=
  let d := q.promise - now s
  let j : Joint := { ticket := m.ticket, node := m.origin, origin := false, rid := q.rid, link := link, sent := now s, replied := true, replyTick := now s, d := d, q := m }
  send (.reply link m.ticket OK d (partRate s q.rid))
    (noteDecision m.stall dt { s with gate := { s.gate with nextRid := q.rid + 1, joints := s.gate.joints ++ [j] } })

/-- A query for a part that lies here. -/
def peerQuery (link : Nat) (m : QueryMsg) (s : State) : State :=
  let dt := decTick s m.stall
  match heldChecks s m with
  | .bad x d => replyRefused link m x d dt s
  | .good c =>
    let a := (dt + confirmHold s) / 1280
    let q := heldReq m dt c s
    let w : For := { rid := q.rid, cmd := 0, stall := m.stall, bulk := m.cls == 2, maxR := heldLast s m a }
    match bookHeld w link dt a c q (a + 1) (placePeer m) s with
    | .inl (x, d) => replyRefused link m x d dt s
    | .inr (t, q) => holdPart link m dt q t

/-- A query for another node: a relay asks on, where it may (R395). -/
def relayQuery (link : Nat) (m : QueryMsg) (s : State) : State :=
  let far := if nodeOf m.dst = m.origin then nodeOf m.src else nodeOf m.dst
  let ls := linksTo s m.stall far
  if cv s 0x8120 2 ≠ 1 ∨ !hasRoute s far ∨ viaRelay s far then replyRefused link m PROTECTION 0 (decTick s m.stall) s
  else
    match firstFail (heldStall s m ++ [(!ls.isEmpty, FAULT_LINK, 0xFFFFFFFF)] ++ stallChecks s m.stall 1) with
    | some (x, d) => replyRefused link m x d (decTick s m.stall) s
    | none =>
      let out := ls.headD 0
      let lim := m.limit * 1000000 / (1000000 + cv s 0x1030 2) - 2 * linkTb s out far - 1280
      let m' : QueryMsg := { m with limit := lim }
      let up : Joint := { ticket := m.ticket, node := cv s 0x8110 2 link, origin := false, link := link, sent := now s, q := m }
      let down : Joint := { ticket := m.ticket, node := far, origin := true, link := out, sent := now s, q := m' }
      send (.query out m') { s with gate := { s.gate with joints := s.gate.joints ++ [up, down] } }

/-- BOOKING_QUERY. -/
def bookingQuery (link : Nat) (m : QueryMsg) (s : State) : State :=
  if !running s || !gateOpened s || !linkUp s link || (jointAt s m.ticket false).isSome || !mayDecide s m.stall then s
  else if nodeOf m.src = nodeNumber s ∨ nodeOf m.dst = nodeNumber s then peerQuery link m s
  else relayQuery link m s

/-! ### Replies (R80, R82, R395) -/

/-- The tick of a retry a peer names, carried to this clock (R82); the detail of a status without one. -/
def peerRetry (s : State) (j : Joint) (status d dt : Nat) : Nat :=
  if hasRetry status then (if d = 0xFFFFFFFF then 2 ^ 64 else dt + margin s (d + 2 * jointTb s j)) else d

def dropJoints (ticket : Nat) (s : State) : State :=
  { s with gate := { s.gate with joints := s.gate.joints.filter (fun j => j.ticket != ticket) } }
def setJoint (ticket : Nat) (origin : Bool) (f : Joint → Joint) (s : State) : State :=
  { s with gate := { s.gate with joints := s.gate.joints.map (fun j => if j.ticket = ticket ∧ j.origin = origin then f j else j) } }

/-- The transit part of a relay: transmit slots of the link the data leaves on (R395). -/
def transitPhase (s : State) (link : Nat) (m : QueryMsg) (early : Nat) : Phase :=
  let total := cdiv m.length 1250
  let flits := cdiv m.length 256
  let large := isLarge s m.length
  { total := total, cals := [(calLink link, 0)], early := early, side := fun _ _ => [],
    chit := fun d u => if large then ujOf s 4 (share flits total d u) else 0, flt := fun d u => if large then 0 else ujOf s 4 (share flits total d u) }

/-- A relay books its transit once the destination has accepted, and answers the origin. -/
def relayReply (up down : Joint) (s : State) : State :=
  let m := up.q
  let dt := decTick s m.stall
  let a := (dt + confirmHold s) / 1280
  let out := if nodeOf m.dst = m.origin then up.link else down.link
  let c : Cmd := { opcode := 0x07, work := .xfer (xferOf m) }
  let q := heldReq m dt c s
  let b := jointBound s down
  let w : For := { rid := q.rid, cmd := 0, stall := m.stall, bulk := m.cls == 2, maxR := heldLast s m a, prio := m.prio, xfer := true }
  match bookHeld w up.link dt a c q (max (a + 1) (b / 1280)) (fun v e t => runPhase v (transitPhase t out m e) t) s with
  | .inl (x, d) => replyRefused up.link m x d dt (dropJoints m.ticket s)
  | .inr (t, q) =>
    let d := q.promise - up.sent
    let t1 := setJoint m.ticket false (fun j => { j with rid := q.rid, replied := true, replyTick := now s, d := d }) (setJoint m.ticket true (fun j => { j with rid := q.rid, bound := b }) t)
    send (.reply up.link m.ticket OK d (partRate t q.rid)) (noteDecision m.stall dt { t1 with gate := { t1.gate with nextRid := q.rid + 1 } })

/-- The undecided arrival of a joint booking. -/
def arrivalOf (s : State) (j : Joint) : Option Arrival := s.gate.intake.find? (fun a => a.posted && ofArrival a j)

/-- Every peer has replied: the origin books its own parts and decides (R79, R80). -/
def replied (a : Arrival) (s : State) : State :=
  if (jointsOf s a).all (fun j => j.replied) then
    match screen a s with
    | .inr (x, d, t) => refuse a (match askOf s a with | .inl (_, l) => l.length | .inr _ => a.entries.length) x d t
    | .inl (cls, cmds, t) => conclude a cls cmds t s
  else s

/-- BOOKING_REPLY: at the origin, or at a relay from the destination; no reply counts after 2 × TB + 150 ticks (R82). -/
def bookingReply (ticket status d rate : Nat) (s : State) : State :=
  match jointAt s ticket true with
  | none => s
  | some j =>
    if j.rid ≠ 0 ∨ j.replied ∨ j.sent + 2 * jointTb s j + 150 < now s ∨ !mayDecide s j.q.stall then s else
    let j' := { j with replied := true, replyTick := now s, status := status, d := d, rate := rate }
    let s1 := setJoint ticket true (fun _ => j') s
    match jointAt s ticket false with
    | some up =>
      if status = OK then relayReply up j' s1
      else replyTo up.link ticket status (if hasRetry status then (if d = 0xFFFFFFFF then d else margin s (d + 2 * jointTb s j)) else d) (dropJoints ticket s)
    | none => match arrivalOf s1 j' with
      | none => s
      | some a => if status = OK then replied a s1
                  else refuse a (match askOf s a with | .inl (_, l) => l.length | .inr _ => a.entries.length) status (peerRetry s j status d (decTick s a.stall)) s

/-- REPLY_TIMEOUT: no reply within 2 × TB + 150 ticks of the query (R82). -/
def replyTimeout (ticket : Nat) (s : State) : State :=
  match jointAt s ticket true with
  | none => s
  | some j =>
    if j.rid ≠ 0 ∨ j.replied ∨ now s ≤ j.sent + 2 * jointTb s j + 150 then s else
    match jointAt s ticket false with
    | some up => replyTo up.link ticket FAULT_LINK j.node (dropJoints ticket s)
    | none => match arrivalOf s j with
      | some a => refuse a (match askOf s a with | .inl (_, l) => l.length | .inr _ => a.entries.length) FAULT_LINK j.node s
      | none => dropJoints ticket s

/-! ### Confirmation and hold (R81) -/

/-- BOOKING_CONFIRMATION, within the hold: the part runs; a relay confirms on. -/
def bookingConfirmation (origin ticket : Nat) (s : State) : State :=
  match jointAt s ticket false with
  | some j =>
    if j.q.origin ≠ origin ∨ j.rid = 0 ∨ j.confirmed ∨ j.replyTick + confirmHold s < now s then s
    else
      let s1 := setJoint ticket false (fun j => { j with confirmed := true }) s
      match jointAt s ticket true with
      | some d => send (.confirm d.link ticket) (setJoint ticket true (fun j => { j with confirmed := true }) s1)
      | none => s1
  | none => s

/-- Withdraw a part held for another device: its bookings go, its chits return, its write-backs that have not begun are
withdrawn; nothing of it runs. -/
def withdraw (q : Req) (s : State) : State :=
  let gone := s.store.wbs.filter (fun w => w.rid == q.rid && w.begun == 0)
  let s1 := gone.foldl (fun t w => match cframe t w.frame with
    | some c => setFrame w.frame (some { c with state := 2, freeRound := 0 }) t
    | none => t) { s with store := { s.store with wbs := s.store.wbs.filter (fun w => !gone.contains w), holds := s.store.holds.filter (fun h => h.rid != q.rid) } }
  releaseReq q (refundBookings q.rid q.stall s1)

/-- CONFIRM_HOLD_EXPIRY. -/
def confirmHoldExpiry (origin ticket : Nat) (s : State) : State :=
  match jointAt s ticket false with
  | some j =>
    if j.q.origin ≠ origin ∨ !j.replied ∨ j.confirmed ∨ now s ≤ j.replyTick + confirmHold s then s
    else match reqOf s j.rid with
      | some q => dropJoints ticket (withdraw q s)
      | none => dropJoints ticket s
  | none => s

/-! ### Completion messages (R83, R389, R392) -/

/-- The end of a part another device ran, from its bitmap, its bytes and its status (R389). -/
def endFromPeer (q : Req) (i : Nat) (x : Xfer) (parts bytes status : Nat) (s : State) : State :=
  let s1 := updCmd q.rid i (fun c => { c with parts := parts, delivered := bytes }) s
  if status = OK && parts == allParts x.count then finishXfer q i x s1
  else endXfer q.rid i (partCount x.count) (((List.range (partCount x.count)).find? (fun k => !bit parts k)).getD 0) (if status = OK then FAULT_LINK else status) 0 false s1

/-- PART_COMPLETION_MESSAGE, by B (R83): of a push, and at a relay, the bitmap is the peer's; of a pull the origin's own parts count,
and only a failure ends them. -/
def partCompletionMessage (ticket parts bytes status : Nat) (s : State) : State :=
  match jointAt s ticket true with
  | none => s
  | some j =>
    if j.rid = 0 ∨ j.done ∨ j.bound < now s then s else
    let s1 := setJoint ticket true (fun j => { j with done := true }) s
    match reqOf s1 j.rid, cmdOf s1 j.rid j.cmd with
    | some q, some c =>
      if !openCmd c then s1 else
      match c.work with
      | .xfer x =>
        if remoteDst s x then endFromPeer q j.cmd x (parts % 2 ^ 16) bytes status s1
        else if status = OK then finishXfer q j.cmd x s1 else endPart j.rid j.cmd status 0 false s1
      | _ => s1
    | _, _ => s1

/-- JOINT_BOUND_EXPIRY: B has passed with no message (R83): FAULT_LINK, the part's bits clear, the peer in the detail. -/
def jointBoundExpiry (ticket : Nat) (s : State) : State :=
  match jointAt s ticket true with
  | none => s
  | some j =>
    if j.rid = 0 ∨ j.done ∨ now s < j.bound then s else
    let s1 := setJoint ticket true (fun j => { j with done := true }) s
    match cmdOf s1 j.rid j.cmd with
    | some c => if openCmd c then endCmd j.rid j.cmd FAULT_LINK j.node false (updCmd j.rid j.cmd (fun c => { c with parts := 0, started := true }) s1) else s1
    | none => s1

def execBookingQuery (link : Nat) (q : QueryMsg) (s : State) : Out := .next (bookingQuery link q s)
def execBookingReply (ticket status : Nat) (x : Terms) (s : State) : Out := .next (bookingReply ticket status x.d x.rate s)
def execBookingConfirmation (origin ticket : Nat) (s : State) : Out := .next (bookingConfirmation origin ticket s)
def execConfirmHoldExpiry (origin ticket : Nat) (s : State) : Out := .next (confirmHoldExpiry origin ticket s)
def execReplyTimeout (ticket : Nat) (s : State) : Out := .next (replyTimeout ticket s)
def execPartCompletionMessage (ticket parts bytes status : Nat) (s : State) : Out := .next (partCompletionMessage ticket parts bytes status s)
def execJointBoundExpiry (ticket : Nat) (s : State) : Out := .next (jointBoundExpiry ticket s)

end Sys2Proof.Machine
end

