-- ==== Sys2Proof/Machine/Deadlines.lean ====
section
/-! DEFINITION. What is due at a tick whatever is commanded: decisions at their bounds (R53, R82), and the ends and records of
accepted requests at their promises (R61, R68, R72, R83). -/

namespace Sys2Proof.Machine
open Sys2Proof

/-- The tick by which a request's record is written: its promise; once a command has failed, the end of the round after the later of
the round of that end and the last round of a command still running then (R68, R72). -/
def recordDue (q : Req) : Nat :=
  match minOf ((q.cmds.filter failed).map (·.endRound)) with
  | none => q.promise
  | some e =>
    let running := q.cmds.filter (fun c => c.started && (c.status.isNone || decide (e < c.endRound)))
    min q.promise ((max e (maxOf (running.map (fun c => c.endSlot / 1024))) + 2) * 1280)

/-- Finish a command at the end of its request's time: a deferred check is made, what is complete completes; a part on a peer that has said nothing is
FAULT_LINK (R83); anything else is stopped as an overrun (R73). -/
def finishCmd (rid i : Nat) (s : State) : State :=
  let s0 := deferredCheck rid i s
  let s1 := match cmdOf s0 rid i with
    | some c => (match c.work with
      | .xfer x => (List.range (partCount x.count)).foldl (fun t k => partComplete rid i k t) s0
      | _ => partComplete rid i 0 s0)
    | none => s0
  match cmdOf s1 rid i, originJoint s1 rid i with
  | some c, some j => if !openCmd c then s1 else if j.done then overrun rid i (pathStatus s1 c) false false s1
                      else endCmd rid i FAULT_LINK j.node false (updCmd rid i (fun c => { c with parts := 0, started := true }) (setJoint j.ticket true (fun j => { j with done := true }) s1))
  | some c, none => if openCmd c then overrun rid i (pathStatus s1 c) false false s1 else s1
  | none, _ => s1

/-- The record of a request that is due (R61): its commands end, and it is written. -/
def recordAtBound (q : Req) (s : State) : State :=
  let s1 := if chainFailed q then updReq q.rid (abandon (fun _ => true)) s else settleReq q.rid s
  completionRecord q.rid ((List.range q.cmds.length).foldl (fun t i => finishCmd q.rid i t) s1)

/-- The records due at this tick, in the order of acceptance. -/
def recordsDue (s : State) : State :=
  (s.gate.reqs.filter (fun q => decide (recordDue q ≤ now s))).foldl (fun t q => recordAtBound q t) s

/-- The decisions due at this tick, by ascending stall (R53, R55): of a request not asked of a peer yet 150 ticks after its arrival,
of one a peer leaves unanswered by R82. A catalogue request the management complex does not serve now waits. -/
def decisionsDue (s : State) : State :=
  let s1 := (s.gate.joints.filter (fun j => j.origin && j.rid == 0 && !j.replied)).foldl (fun t j => replyTimeout j.ticket t) s
  if !running s1 || !gateOpened s1 then s1 else
  let due := s1.gate.intake.filter (fun a => !a.posted && decide (a.tick + 150 ≤ now s1) && ([0x80, 0x81, 0x82].all (fun op => !isOp op a) || [0x80, 0x81, 0x82].any (fun op => isCat s1 op a)))
  (List.range 256).foldl (fun t st => match due.find? (fun a => a.stall == st && mayDecide t st) with
    | some a => gateDecide a t
    | none => t) s1

/-- Everything due at the present tick. -/
def dueNow (s : State) : State :=
  let s1 := if s.gate.intake.isEmpty && s.gate.joints.isEmpty then s else decisionsDue s
  if s1.gate.reqs.isEmpty then s1 else recordsDue s1

end Sys2Proof.Machine
end

