-- ==== Sys2Proof/Machine/Boundary.lean ====
section
/-! DEFINITION. Time: what a tick does, and the actions every round boundary runs (R49, R50, R62-R65, R89-R102, R117,
R134, R135, R146, R147, R302, R442). -/

namespace Sys2Proof.Machine
open Sys2Proof

/-! ### Settlement (R90, R99-R102) -/


/-- µJ of a list of activity: each component's quantity at its coefficient, rounded up (R96, R98, R99). -/
def actUj (s : State) (l : List Act) : Nat :=
  let q := fun (k : Nat) => sumOf ((l.filter (fun a => a.kind == k)).map (·.qty))
  let p := cv s 0x2030 4
  sumOf ([0, 1, 2, 3, 4, 5, 8].map (fun k => ujOf s k (q k)))
    + cdiv (q 6 * cv s 0x2020 7 + q 7 * cv s 0x2020 8) 1000000 + cdiv (q 9 * oppNj p) (oppCycles p * 1000)

/-- Microjoules past what a round's booking covers, noted against a stall. -/
def noteOverrun (st n : Nat) (s : State) : State := { s with gate := { s.gate with overruns := AMap.upd 0 s.gate.overruns st (· + n) } }
/-- Microjoules charged to a stall (0x3050:06). -/
def chargeUj (st c : Nat) (s : State) : State := cvAdd 0x3050 6 st c { s with gate := { s.gate with charged := s.gate.charged + c } }
/-- An armed overrun of a request's chit (R504, R506). -/
def overrunInjected (rid st : Nat) (excess : Bool) (s : State) : State :=
  let i := inject 0x0C rid st excess s
  match i.1 with
  | some (dev, contain) =>
    let t := errRec 0x0C rid 1 (reqCtx s rid) st 0 dev true i.2
    if contain then noteOverrun st 1 (if dev then detect 0x0C t else t) else t
  | none => i.2
/-- A charge above its booking (R100, R102): the overrun, the detector's record. -/
def overrunOf (rid st n : Nat) (s : State) : State := detectRec 0x0C rid n (reqCtx s rid) st 0 true (noteOverrun st n s)

/-- One request's chit of a round (R99, R100): booked against charged, a refund or an overrun. -/
def settleChit (r rid st : Nat) (s : State) : State :=
  let booked := sumOf ((s.gate.energy.filter (fun e => e.rid == rid && e.chit && e.round == r)).map (·.uj))
  let used := actUj s (s.gate.acts.filter (fun a => a.rid == rid && a.chit && a.round == r))
  let excess := decide (booked < used)
  let s2 := overrunInjected rid st excess (chargeUj st used s)
  if excess then overrunOf rid st (used - booked) s2
  else if used < booked then refund st (booked - used) s2
  else s2

/-- µJ of standing use: a line's HBM and port energy are one component, as its booking takes them (R93, R98). -/
def standingUj (s : State) (l : List Act) : Nat :=
  let q := fun (k : Nat) => sumOf ((l.filter (fun a => a.kind == k)).map (·.qty))
  cdiv (q 0 * cv s 0x2020 1 + q 8 * cv s 0x2020 9) 1000000 + actUj s (l.filter (fun a => a.kind != 0 && a.kind != 8))
/-- One request's float of a round (R102): unused float lapses, an excess is an overrun. Request number 0 stands for the standing
booking. -/
def settleFloat (r rid st : Nat) (s : State) : State :=
  let l := s.gate.acts.filter (fun a => a.rid == rid && a.stall == st && !a.chit && a.round == r && a.kind != 11)
  let used := if rid = 0 then standingUj s l else actUj s l
  let booked := if rid = 0 then standingFloatOf s (cv s 0x1040 3 st)
    else sumOf ((s.gate.energy.filter (fun e => e.rid == rid && !e.chit && e.round == r)).map (·.uj))
  let s1 := chargeUj st used s
  if rid != ringRid && decide (booked < used) then overrunOf rid st (used - booked) s1 else s1

/-- The lines a sweep's round writes (R36, R37): 8 MiB of zeros, or 2,048 mapping entries. -/
def sweepActs (r : Nat) (s : State) : State :=
  let es := s.gate.energy.filter (fun e => e.round == r && decide (sweepRid 0 ≤ e.rid) && decide (e.rid < chanRid 0))
  { s with gate := { s.gate with acts := s.gate.acts ++ es.map (fun e =>
      { rid := e.rid, stall := 0, round := r, kind := 0, qty := if (extRec s (e.rid - sweepRid 0)).backed then 128 else 131072, chit := true }) } }

/-- Settle round `r`: every request, standing booking and work of the device's own with a booking or activity in it. -/
def settleRound (r : Nat) (s0 : State) : State :=
  let s := sweepActs r s0
  let es := s.gate.energy.filter (fun e => e.round == r && e.rid != lapsedRid)
  let as_ := s.gate.acts.filter (fun a => a.round == r && a.rid != lapsedRid)
  let of := fun (chit : Bool) => dedup (((es.filter (fun e => e.chit == chit)).map (fun e => (e.rid, e.stall))) ++ ((as_.filter (fun a => a.chit == chit)).map (fun a => (a.rid, a.stall))))
  (of false).foldl (fun t x => settleFloat r x.1 x.2 t) ((of true).foldl (fun t x => settleChit r x.1 x.2 t) s)

/-- The balance at a boundary, in the order of R90: the rate, the refunds, the overruns, the depth; 0 until the Gate
is open (R112, R524). REFUNDED_UJ and OVERRUN_UJ rise by what is settled (R113). -/
def balanceStep (rate refunds overruns depth : Nat) (b : Int) : Int := min (b + rate + refunds - overruns) depth
def settleBalances (s : State) : State :=
  let sts := (List.range 256).filter (fun st => cv s 0x2010 1 st != 0 || AMap.get 0 s.gate.refunds st != 0 || AMap.get 0 s.gate.overruns st != 0 || balanceOf s st != 0)
  let bal := sts.foldl (fun m st => AMap.set 0 m st
    (balanceStep (cv s 0x2010 1 st) (AMap.get 0 s.gate.refunds st) (AMap.get 0 s.gate.overruns st) (purseDepth s st) (balanceOf s st))) s.gate.balance
  let t := { s with gate := { s.gate with balance := if gateOpened s then bal else [], refunds := [], overruns := [] } }
  s.gate.overruns.foldl (fun t e => cvAdd 0x2010 6 e.1 e.2 t) (s.gate.refunds.foldl (fun t e => cvAdd 0x2010 5 e.1 e.2 t) t)

/-! ### Meters (R134) -/

/-- Column-slots of pitch a stall booked in a round. -/
def columnSlots (s : State) (st r : Nat) : Nat :=
  sumOf ((s.gate.books.filter (fun b => b.stall == st && b.round == r && decide (72 ≤ b.cal) && decide (b.cal < 88))).map (fun b => max b.count b.slots.length * popc 8 b.mask))
/-- Pages a stall programmed in a round; a relocated page counts on its frame's stall when it commits (R134). -/
def programs (s : State) (st r : Nat) : Nat :=
  sumOf ((s.gate.acts.filter (fun a => a.stall == st && a.round == r && a.kind == 2 && !isReloc a.rid)).map (·.qty))
def meterStall (r st : Nat) (s : State) : State :=
  let q := fun (k : Nat) => sumOf ((s.gate.acts.filter (fun a => a.stall == st && a.round == r && a.kind == k)).map (·.qty))
  cvAdd 0x3050 7 st (q 11) (cvAdd 0x3050 5 st (columnSlots s st r * oppCycles (cv s 0x2030 4) / 1024) (cvAdd 0x3050 4 st (programs s st r) (cvAdd 0x3050 3 st (q 1)
    (cvAdd 0x3050 2 st (64 * q 0) (cvAdd 0x3050 1 st (extCount s st) s)))))
def liveStalls (s : State) : List Nat := (List.range 256).filter (stallLive s)

/-! ### Write-backs (R146, R147) -/

/-- The nonzero bytes of page `p` of a frame, by offset within it: its valid sub-blocks from HBM, the others from flash; zeros where
there is nothing to merge (R146). -/
def pageImage (s : State) (f p : Nat) : List Host.Cell :=
  match cframe s f with
  | none => []
  | some c =>
    let inPage := fun (o : Nat) => decide (16384 * p ≤ o) && decide (o < 16384 * (p + 1))
    let hbm := (s.mem.hbm.filter (fun x => decide (65536 * f ≤ x.1) && decide (x.1 < 65536 * (f + 1)))).map (fun x => (x.1 - 65536 * f, x.2))
    let old := if merges s f then slotImage s (flashChannel s (f * 65536)) (mapOf s f % 2 ^ 26) else []
    let fromFlash := old.filter (fun x => inPage x.1 && !c.valid.getLsbD (x.1 / 4096))
    (hbm.filter (fun x => inPage x.1 && c.valid.getLsbD (x.1 / 4096))).foldl (fun m x => AMap.set 0 m x.1 x.2) fromFlash
/-- A page of a frame has a sub-block that is not valid. -/
def pageOpen (s : State) (f p : Nat) : Bool := (cframe s f).any (fun c => (missingPages c).contains p)

/-- The page transfers of a write-back that begin carry the frame's bytes as they are now: their sub-blocks are no longer DIRTY, a merge
read has made those that were not valid VALID, and a LOST frame with one that was not stays LOST (R146; log entry 37). -/
def beginWb (ps : List Nat) (w : Wb) (s : State) : State :=
  let img := ps.foldl (fun m p => (pageImage s w.frame p).foldl (fun m x => AMap.set 0 m x.1 x.2) m) w.image
  let lost := bit (mapOf s w.frame) 30 || s.mem.lost.contains w.frame
  let w' : Wb := { w with image := img, begun := w.begun + ps.length, keepLost := w.keepLost || (lost && ps.any (pageOpen s w.frame)) }
  let t := { s with store := { s.store with wbs := s.store.wbs.map (fun x => if x = w then w' else x) } }
  let u := if merges t w.frame then fillFrame w.frame ps t else t
  match cframe u w.frame with
  | some c =>
    let m := BitVec.ofNat 16 (sumOf (ps.map (fun p => 15 * 2 ^ (4 * p))))
    setFrame w.frame (some { c with dirty := c.dirty &&& ~~~m }) u
  | none => u
def beginPages (r : Nat) (s : State) : State :=
  s.store.wbs.foldl (fun t w =>
    let ps := (List.range 4).filter (fun p => w.begins.getD p 0 == r)
    if ps.isEmpty then t else beginWb ps w t) s

/-- Background write-backs of a stall (R147): its DIRTY frames, oldest last access first and, of equals, the lowest frame first
(DESIGN CHOICE, log entry 122). Those whose home channel is SHORT are deferred (R160). -/
def backgroundWbs (st : Nat) (s : State) : State :=
  let n := cv s 0x4030 6 st / 4
  let dirty := (framesOf s st).filter (fun x => x.2.state == 2 && holdCount s x.1 == 0 && !s.store.wbs.any (fun w => w.frame == x.1))
  ((dirty.mergeSort (fun a b => decide (a.2.last < b.2.last) || (a.2.last == b.2.last && decide (a.1 ≤ b.1)))).take n).foldl (fun t x =>
    let w : For := { rid := wbRid x.1, cmd := 0, stall := st, bulk := true, maxR := curRound t + 65536 }
    if chanShort t (flashChannel t (x.1 * 65536)) then cvAdd 0x4030 7 st 1 t else
    match bookWriteback w x.1 (curRound t) false t with
    | some (u, _) =>
      let c : Int := (chitSum u w.rid : Nat) - (chitSum t w.rid : Nat)
      if c ≤ balanceOf t st then draw st c u else cvAdd 0x4030 7 st 1 t
    | none => cvAdd 0x4030 7 st 1 t) s

/-! ### The banks of the round stream (R302, R462) -/

/-- A part's spans lie in a bank; the requests of a bank's parts. -/
def bankParts (b : Stream) (p : Span → Bool) : List (Nat × Nat) := dedup ((b.spans.filter p).map (fun x => (x.rid, x.cmd)))

/-- RUN and NEXT exchange; every column and mover begins the round at rest, and each cluster's cycle length is NEXT's. A
halted sequencer leaves its clusters without a span, and their parts end. -/
def swapBanks (s : State) : State :=
  let ready := if s.fab.nextRound = curRound s then s.fab.nextB else { s.fab.nextB with spans := [] }
  let stopped := fun (k : Nat) => halted s 2 || halted s (3 + k)
  let lost := bankParts ready (fun p => stopped (p.col / 8))
  let run := { ready with spans := ready.spans.filter (fun p => !stopped (p.col / 8)) }
  let s1 := cvAdd 0x6030 5 0 1 { s with fab := { s.fab with runB := run, nextB := s.fab.runB, cols := [], movs := [] } }
  lost.foldl (fun t x => endCmd x.1 x.2 FAULT_MEMORY 0 false t) s1

/-! ### Ticks -/

/-- A slot of a round covers a tick of it (R49). -/
def slotCovers (k tau : Nat) : Bool := decide (5 * k < 4 * tau + 4) && decide (4 * tau < 5 * k + 5)

/-- The injection opportunities of LINK_FAIL in a tick: the booked uses of links (R494). -/
def linkUses (s : State) : State :=
  if !((armMode (armOf s 0x08 0) != 0) || (storedInsts s 0xB108 1).any (fun e => armMode e.2 != 0)) then s else
  let tau := now s % 1280
  let uses := dedup ((s.gate.books.filter (fun b => decide (88 ≤ b.cal) && decide (b.cal < 120) && b.round == curRound s && b.slots.any (fun k => slotCovers k tau))).map
    (fun b => (b.cal - 88, b.stall)))
  uses.foldl (fun t x => linkUseTick x.1 x.2 t) s

/-- The end of a tick: what is noted at it, the tick's advance, and what falls due at the new tick. -/
def tickOnce (s : State) : State :=
  let s1 := linkUses (noteChains (noteSnps (takeQueues s)))
  let s2 := { s1 with clk := { s1.clk with calTick := s1.clk.calTick + 1 } }
  let s3 := dueNow (bootSteps (takeVoids (spanEnds s1.clk.calTick (paceAll s2))))
  match s3.clk.resetDue with
  | some t => if t ≤ now s3 then deviceResetNow 2 s3 else s3
  | none => s3

/-! ### The round boundary -/

/-- Standing use carries what a round exceeded; the misses start again; the answers of R65 are recorded. -/
def standingBoundary (s : State) : State :=
  let recs := s.gate.noStand.foldl (fun t e => errRec 0x8E e.2.2 e.2.1 0xFFFF e.1 0 false false t) s
  let use := (s.gate.lineUse.map (fun e => (e.1, e.2 - cv s 0x1040 3 e.1))).filter (fun e => e.2 != 0)
  { recs with gate := { recs.gate with noStand := [], missUse := [], lineUse := use } }

/-- The ports each stall's standing booking lies on in the round that begins (R63). -/
def standingStart (s : State) : State :=
  let held := (storedInsts s 0x1040 3).filter (fun e => e.2 != 0)
  let ports := fun (st : Nat) => sumOf ((standingPorts s st).map (fun p => 2 ^ p))
  { s with gate := { s.gate with standing := held.foldl (fun m e => AMap.set 0 m e.1 (ports e.1)) [] } }

/-- A stall's BANK_POWER takes effect (R268): a bank entering OFF loses its contents; one entering ON is ready 4 ticks
after RET and 200 after OFF. -/
def powerBanks (st v : Nat) (s : State) : State :=
  let changes := (List.range 16).flatMap (fun k => (banksIn s st k).filterMap (fun i =>
    let new := bits v (powerBit k i + 1) (powerBit k i)
    if new = bankPower s st k i then none else some (k, i, bankPower s st k i, new)))
  changes.foldl (fun t c =>
    if c.2.2.2 = 0 then { t with fab := { t.fab with ready := AMap.set 0 t.fab.ready (c.1 * 1024 + c.2.1) (now s + (if c.2.2.1 = 1 then 4 else 200)) } }
    else if c.2.2.2 = 2 then zeroBank c.1 c.2.1 t else t) (cvSet 0x6010 1 st v s)

/-- Class B writes take effect (R442). -/
def classB (s : State) : State :=
  s.cat.pendB.foldl (fun t e => match e.2 with
    | some v => if keyIdx e.1 = 0x6010 then powerBanks (keyInst e.1) v t else cvSet (keyIdx e.1) (keySub e.1) (keyInst e.1) v t
    | none => t) { s with cat := { s.cat with pendB := [] } }

/-- A firing of WATCHDOG or FW_PROTECTION for a component that is not halted (R494, R501, R502). -/
def compInject (d c detail : Nat) (s : State) : State :=
  if halted s c then s else
  match inject d (roleCode c) 0 false s with
  | (some (dev, contain), u) =>
    let v := errRec d (roleCode c) detail 0xFFFF 0 0 dev true u
    if !(contain && dev) then v
    else if d = 0x10 then compMissed c (detect d v) else compFault c (detect d v)
  | (none, u) => u

/-- Each firmware component's check-in of the round, an opportunity of WATCHDOG, and with it one access of its core, an
opportunity of FW_PROTECTION whose address is free (R494; log entry 114). -/
def checkIns (s : State) : State :=
  let s1 := if armMode (armOf s 0x10 0) = 0 then s else (List.range 19).foldl (fun t c => compInject 0x10 c (curRound t) t) s
  if armMode (armOf s1 0x11 0) = 0 then s1 else
  (List.range 19).foldl (fun t c => let a := fresh 32 t; compInject 0x11 c a.1.toNat a.2) s1

/-- The actions of the boundary at the present tick. -/
def boundaryWith (x : Sensors) (s : State) : State :=
  let r := curRound s
  let s1 := (liveStalls s).foldl (fun t st => meterStall (r - 1) st t) (settleBalances (settleRound (r - 1) s))
  let energy := s1.gate.energy.filter (fun e => decide (r ≤ e.round))
  let s2 := { s1 with gate := { s1.gate with energy := energy, acts := s1.gate.acts.filter (fun a => decide (r ≤ a.round)),
                                             ended := AMap.keep (fun k _ => energy.any (fun e => e.rid == k)) s1.gate.ended } }
  let s3 := placePitch (r + 256) (placeCounts (r + 256) (pruneBooks r (swapBanks (standingStart (classB (standingBoundary s2))))))
  let s4 := { s3 with store := { s3.store with holds := s3.store.holds.filter (fun h => decide (now s3 < h.till)) },
                      gate := { s3.gate with inbound := AMap.keep (fun k _ => decide (r ≤ k / 4096)) s3.gate.inbound } }
  let s5 := beginPages r s4
  let s6 := logBoundary (if devicePaused s5 then s5 else (dedup ((s5.store.frames.filterMap (fun e => e.2.map (·.stall))))).foldl (fun t st => backgroundWbs st t) s5)
  let s7 := ((liveStalls s6).filter (fun st => stallState s6 st == 2)).foldl (fun t st => closeAll st t) s6
  checkIns (limitBoundary x (telemetry x s7))

/-- One tick of a block that runs; at the start of a round, its boundary. In reset, and before power, no tick counts. -/
def idleTick (s : State) : State :=
  if !running s then s else
  let t := tickOnce s
  if running t && atBoundary t then boundaryWith t.clk.sensors t else t

/-- Ticks up to the next round boundary. -/
def toBoundary : Nat → State → State
  | 0, s => s
  | n + 1, s => let t := tickOnce s; if !running t || atBoundary t then t else toBoundary n t

/-- ROUND_BOUNDARY: the ticks up to the next boundary, then its actions with the sensors' values. -/
def roundBoundary (x : Sensors) (s : State) : State :=
  if !running s then s else
  let t := toBoundary 1280 s
  if running t then boundaryWith x t else t

/-- SNAPSHOT_PERIOD: a meter snapshot for each ACTIVE or RETIRING stall (R135); the latest 64 are kept. -/
def snapshotPeriod (s : State) : State :=
  let p := cv s 0x3051 1
  if !running s || !atBoundary s || p == 0 || curRound s % p != 0 then s else
  (liveStalls s).foldl (fun t st =>
    let m := snapshotBits (curRound t) (cv t 0x1000 3) (cv t 0x3020 1 st) ((List.range 7).map (fun i => cv t 0x3050 (i + 1) st))
    let l := AMap.get [] t.err.meterSnaps st ++ [m]
    { t with err := { t.err with meterSnaps := AMap.set [] t.err.meterSnaps st (l.drop (l.length - 64)) } }) s

def execRoundBoundary (sensors : Sensors) (s : State) : Out := .next (roundBoundary sensors s)
def execSnapshotPeriod (s : State) : Out := .next (snapshotPeriod s)

end Sys2Proof.Machine
end

