-- ==== Sys2Proof/Machine/Writes.lean ====
section
/-! DEFINITION. The rows that are one catalogue write each: by an MCTP endpoint or a firmware component checked and applied as
any other write, by a client context as the CAT_WRITE that carries it (R11, R435, R441, R454). -/

namespace Sys2Proof.Machine
open Sys2Proof

/-- An undecided CAT_WRITE of a context carries this write (R454). -/
def carries (s : State) (idx sub inst off : Nat) (data : List Byte) (a : Arrival) : Bool :=
  let e : Entry := a.entries.headD 0
  let q := catReqOf a.ctx e
  isCat s 0x81 a && q.idx == idx && q.sub == sub && q.inst == inst && q.off == off && q.final && q.len == data.length
  && (match resolve s a.stall e.modeA e.opa q.len with | .glob b _ => storeRead s (offOf b) q.len == data | _ => false)

/-- A whole write of `data` at an entry by a requester. A client context writes the catalogue through the Gate alone: its
oldest request is decided where it is the CAT_WRITE that carries the write. The answer to an MCTP endpoint has message tag 0 (log
entry 27). -/
def writeAs (rq : Requester) (idx sub inst off : Nat) (data : List Byte) (maxLen : Nat) (s : State) : State :=
  match rq with
  | .ctx c => gateRow (carries s idx sub inst off data) c s
  | _ =>
    match served s rq idx true with
    | none => s
    | some (some st) => answer rq 0 st [] s
    | some none =>
      let x := writeEntry { rq := rq, idx := idx, sub := sub, inst := inst, off := off, len := data.length, flags := 2 } data maxLen s
      answer rq 0 x.1 [] x.2

/-- One catalogue write of a whole value (R435); a value too wide for the entry is INVALID. -/
def catWriteAs (rq : Requester) (idx sub inst v : Nat) (s : State) : State :=
  let len := match entryOf idx sub inst with | some r => r.len | none => 0
  if 256 ^ len ≤ v then answer rq 0 INVALID [] s else writeAs rq idx sub inst 0 (leBytes len v) 4096 s
/-- A FINAL segment of FW_STAGE (R467). -/
def fwStageWrite (rq : Requester) (off : Nat) (data : List Byte) (s : State) : State := writeAs rq 0xA010 1 0 off data 1048576 s

def execDeviceReset (rq : Requester) (value : Nat) (s : State) : Out := .next (catWriteAs rq 0xC010 1 0 value s)
def execOppCeiling (rq : Requester) (value : Nat) (s : State) : Out := .next (catWriteAs rq 0x2030 2 0 value s)
def execExtentGrant (rq : Requester) (value : Nat) (s : State) : Out := .next (catWriteAs rq 0x4010 1 0 value s)
def execExtentRevoke (rq : Requester) (ext : Nat) (s : State) : Out := .next (catWriteAs rq 0x4010 2 0 ext s)
def execStallCreate (rq : Requester) (stall : Nat) (s : State) : Out := .next (catWriteAs rq 0x3000 2 0 stall s)
def execStallRemove (rq : Requester) (stall : Nat) (s : State) : Out := .next (catWriteAs rq 0x3000 3 0 stall s)
def execConsentA (rq : Requester) (pact value : Nat) (s : State) : Out := .next (catWriteAs rq 0x3040 6 pact value s)
def execConsentB (rq : Requester) (pact value : Nat) (s : State) : Out := .next (catWriteAs rq 0x3040 7 pact value s)
def execCommit (rq : Requester) (value : Nat) (s : State) : Out := .next (catWriteAs rq 0xF001 1 0 value s)
def execDiscard (rq : Requester) (group : Nat) (s : State) : Out := .next (catWriteAs rq 0xF003 1 0 group s)
def execRegionOwner (rq : Requester) (region owner : Nat) (s : State) : Out := .next (catWriteAs rq 0x4020 1 region owner s)
def execTableOwner (rq : Requester) (table owner : Nat) (s : State) : Out := .next (catWriteAs rq 0x7100 1 table owner s)
def execCollOwner (rq : Requester) (coll owner : Nat) (s : State) : Out := .next (catWriteAs rq 0x7900 1 coll owner s)
def execCollActivate (rq : Requester) (coll : Nat) (s : State) : Out := .next (catWriteAs rq 0x7900 2 coll 1 s)
def execCollDeactivate (rq : Requester) (coll : Nat) (s : State) : Out := .next (catWriteAs rq 0x7900 2 coll 0 s)
def execRetireRequest (rq : Requester) (coll value : Nat) (s : State) : Out := .next (catWriteAs rq 0x7900 28 coll value s)
def execRestockNow (rq : Requester) (coll value : Nat) (s : State) : Out := .next (catWriteAs rq 0x7900 26 coll value s)
def execAgentStall (rq : Requester) (agent stall : Nat) (s : State) : Out := .next (catWriteAs rq 0x5010 1 agent stall s)
def execAgentClean (rq : Requester) (agent value : Nat) (s : State) : Out := .next (catWriteAs rq 0x5010 3 agent value s)
def execCoherenceTest (rq : Requester) (stall value : Nat) (s : State) : Out := .next (catWriteAs rq 0x5000 2 stall value s)
def execContextEnable (rq : Requester) (ctx : Nat) (s : State) : Out := .next (catWriteAs rq 0x9100 10 ctx 1 s)
def execContextDisable (rq : Requester) (ctx : Nat) (s : State) : Out := .next (catWriteAs rq 0x9100 10 ctx 0 s)
def execAdmitHold (rq : Requester) (stall value : Nat) (s : State) : Out := .next (catWriteAs rq 0x1010 5 stall value s)
def execInjectArm (rq : Requester) (detector inst value : Nat) (s : State) : Out := .next (catWriteAs rq (0xB100 + detector) 1 inst value s)
def execInjectionAllowed (rq : Requester) (value : Nat) (s : State) : Out := .next (catWriteAs rq 0xB020 1 0 value s)
def execFwStage (rq : Requester) (off : Nat) (data : List Byte) (s : State) : Out := .next (fwStageWrite rq off data s)
def execFwUpdateVerify (rq : Requester) (s : State) : Out := .next (catWriteAs rq 0xA010 2 0 1 s)
def execFwUpdateHandoff (rq : Requester) (s : State) : Out := .next (catWriteAs rq 0xA010 2 0 2 s)
def execFwUpdateClear (rq : Requester) (s : State) : Out := .next (catWriteAs rq 0xA010 2 0 3 s)

end Sys2Proof.Machine
end

