-- ==== Sys2Proof/Machine/Dispatch.lean ====
section
/-! DEFINITION. The meaning of a command: one arm per row of the command table. -/

namespace Sys2Proof.Machine
open Sys2Proof

/-- The effect of a command on everything but the queue. -/
def exec (i : Instr) (s : State) : Host.Outcome State Fault Refusal :=
  match i with
  | .powerOnReset => Sys2Proof.Machine.execPowerOnReset s
  | .rstN lowTicks => Sys2Proof.Machine.execRstN lowTicks s
  | .deviceReset rq value => Sys2Proof.Machine.execDeviceReset rq value s
  | .linkReset port => Sys2Proof.Machine.execLinkReset port s
  | .internalResetEnd brdPos cfgPooled => Sys2Proof.Machine.execInternalResetEnd brdPos cfgPooled s
  | .secStart => Sys2Proof.Machine.execSecStart s
  | .hbmTrainingDone failedStacks => Sys2Proof.Machine.execHbmTrainingDone failedStacks s
  | .zeroFillDone => Sys2Proof.Machine.execZeroFillDone s
  | .targetResetTimeout chan target => Sys2Proof.Machine.execTargetResetTimeout chan target s
  | .flashDiscoveryDone found => Sys2Proof.Machine.execFlashDiscoveryDone found s
  | .checkpointLoaded chan => Sys2Proof.Machine.execCheckpointLoaded chan s
  | .replayDone chan => Sys2Proof.Machine.execReplayDone chan s
  | .gateOpen => Sys2Proof.Machine.execGateOpen s
  | .portTrained port rate width => Sys2Proof.Machine.execPortTrained port rate width s
  | .portDown port => Sys2Proof.Machine.execPortDown port s
  | .linkUp link peerNode peerPos wireTicks => Sys2Proof.Machine.execLinkUp link peerNode peerPos wireTicks s
  | .twineTrainTimeout link => Sys2Proof.Machine.execTwineTrainTimeout link s
  | .thermtrip => Sys2Proof.Machine.execThermtrip s
  | .throttleEntry sensors => Sys2Proof.Machine.execThrottleEntry sensors s
  | .throttleRelease sensors => Sys2Proof.Machine.execThrottleRelease sensors s
  | .roundBoundary sensors => Sys2Proof.Machine.execRoundBoundary sensors s
  | .loaderLoad => Sys2Proof.Machine.execLoaderLoad s
  | .snapshotPeriod => Sys2Proof.Machine.execSnapshotPeriod s
  | .calibrationPeriod vr => Sys2Proof.Machine.execCalibrationPeriod vr s
  | .heatPeriod stall => Sys2Proof.Machine.execHeatPeriod stall s
  | .decayPeriod stall => Sys2Proof.Machine.execDecayPeriod stall s
  | .checkpointPeriod chan => Sys2Proof.Machine.execCheckpointPeriod chan s
  | .assemblyExpiry rq => Sys2Proof.Machine.execAssemblyExpiry rq s
  | .snapshotRelease rq => Sys2Proof.Machine.execSnapshotRelease rq s
  | .entryFetch stall => Sys2Proof.Machine.execEntryFetch stall s
  | .queueFetch ctx => Sys2Proof.Machine.execQueueFetch ctx s
  | .chain ctx => Sys2Proof.Machine.execChain ctx s
  | .gatherBags ctx => Sys2Proof.Machine.execGatherBags ctx s
  | .search ctx => Sys2Proof.Machine.execSearch ctx s
  | .insertVectors ctx => Sys2Proof.Machine.execInsertVectors ctx s
  | .deleteVectors ctx => Sys2Proof.Machine.execDeleteVectors ctx s
  | .runSegment ctx => Sys2Proof.Machine.execRunSegment ctx s
  | .copy ctx => Sys2Proof.Machine.execCopy ctx s
  | .barrow ctx => Sys2Proof.Machine.execBarrow ctx s
  | .publish ctx => Sys2Proof.Machine.execPublish ctx s
  | .tableSwitch ctx => Sys2Proof.Machine.execTableSwitch ctx s
  | .setSwitch ctx => Sys2Proof.Machine.execSetSwitch ctx s
  | .tallyWait ctx => Sys2Proof.Machine.execTallyWait ctx s
  | .tallyAdd ctx => Sys2Proof.Machine.execTallyAdd ctx s
  | .fence ctx => Sys2Proof.Machine.execFence ctx s
  | .invalidateXlate ctx => Sys2Proof.Machine.execInvalidateXlate ctx s
  | .extentClose ctx => Sys2Proof.Machine.execExtentClose ctx s
  | .catRead ctx => Sys2Proof.Machine.execCatRead ctx s
  | .catWrite ctx => Sys2Proof.Machine.execCatWrite ctx s
  | .catInfo ctx => Sys2Proof.Machine.execCatInfo ctx s
  | .deferredAdmissionCheck rid cmd => Sys2Proof.Machine.execDeferredAdmissionCheck rid cmd s
  | .partStart rid cmd => Sys2Proof.Machine.execPartStart rid cmd s
  | .partComplete rid cmd part => Sys2Proof.Machine.execPartComplete rid cmd part s
  | .completionRecord rid => Sys2Proof.Machine.execCompletionRecord rid s
  | .calOverrun rid cmd => Sys2Proof.Machine.execCalOverrun rid cmd s
  | .partFault rid cmd part cause => Sys2Proof.Machine.execPartFault rid cmd part cause s
  | .bookingQuery link q => Sys2Proof.Machine.execBookingQuery link q s
  | .bookingReply ticket status d => Sys2Proof.Machine.execBookingReply ticket status d s
  | .bookingConfirmation origin ticket => Sys2Proof.Machine.execBookingConfirmation origin ticket s
  | .confirmHoldExpiry origin ticket => Sys2Proof.Machine.execConfirmHoldExpiry origin ticket s
  | .replyTimeout ticket => Sys2Proof.Machine.execReplyTimeout ticket s
  | .partCompletionMessage ticket parts bytes status => Sys2Proof.Machine.execPartCompletionMessage ticket parts bytes status s
  | .jointBoundExpiry ticket => Sys2Proof.Machine.execJointBoundExpiry ticket s
  | .skipNotice link src stall seq => Sys2Proof.Machine.execSkipNotice link src stall seq s
  | .creditMessage link stall count => Sys2Proof.Machine.execCreditMessage link stall count s
  | .retryRequest link stall linkSeq => Sys2Proof.Machine.execRetryRequest link stall linkSeq s
  | .trainHeaderReceive link flit fecOk => Sys2Proof.Machine.execTrainHeaderReceive link flit fecOk s
  | .dataFlitReceive link flit fecOk => Sys2Proof.Machine.execDataFlitReceive link flit fecOk s
  | .controlFlitSend link => Sys2Proof.Machine.execControlFlitSend link s
  | .linkDeadTicksExpiry link => Sys2Proof.Machine.execLinkDeadTicksExpiry link s
  | .laneLockLoss link lane => Sys2Proof.Machine.execLaneLockLoss link lane s
  | .peerTrainingSeen link => Sys2Proof.Machine.execPeerTrainingSeen link s
  | .linkRetrain link => Sys2Proof.Machine.execLinkRetrain link s
  | .memRd agent addr snp => Sys2Proof.Machine.execMemRd agent addr snp s
  | .memRdData agent addr => Sys2Proof.Machine.execMemRdData agent addr s
  | .memInv agent addr => Sys2Proof.Machine.execMemInv agent addr s
  | .memInvNt agent addr => Sys2Proof.Machine.execMemInvNt agent addr s
  | .memClnEvct agent addr => Sys2Proof.Machine.execMemClnEvct agent addr s
  | .memSpecRd agent addr => Sys2Proof.Machine.execMemSpecRd agent addr s
  | .memWr agent addr m data => Sys2Proof.Machine.execMemWr agent addr m data s
  | .memWrPtl agent addr m data mask => Sys2Proof.Machine.execMemWrPtl agent addr m data mask s
  | .biConflict agent addr => Sys2Proof.Machine.execBiConflict agent addr s
  | .biRspI agent addr => Sys2Proof.Machine.execBiRspI agent addr s
  | .biRspS agent addr => Sys2Proof.Machine.execBiRspS agent addr s
  | .biRspE agent addr => Sys2Proof.Machine.execBiRspE agent addr s
  | .cxlMemAdmit agent => Sys2Proof.Machine.execCxlMemAdmit agent s
  | .loadBoundExpiry reqId => Sys2Proof.Machine.execLoadBoundExpiry reqId s
  | .biTimeout agent addr => Sys2Proof.Machine.execBiTimeout agent addr s
  | .cxlFlitAck addr => Sys2Proof.Machine.execCxlFlitAck addr s
  | .homeOrderedEntry stall => Sys2Proof.Machine.execHomeOrderedEntry stall s
  | .identifyMemoryDevice port ld => Sys2Proof.Machine.execIdentifyMemoryDevice port ld s
  | .getSupportedLogs port ld => Sys2Proof.Machine.execGetSupportedLogs port ld s
  | .getLog port ld offset length => Sys2Proof.Machine.execGetLog port ld offset length s
  | .getHealthInfo port ld => Sys2Proof.Machine.execGetHealthInfo port ld s
  | .getPoisonList port ld addr length => Sys2Proof.Machine.execGetPoisonList port ld addr length s
  | .cdatRead port handle => Sys2Proof.Machine.execCdatRead port handle s
  | .entdaa addr => Sys2Proof.Machine.execEntdaa addr s
  | .setdasa static dyn => Sys2Proof.Machine.execSetdasa static dyn s
  | .rstdaa => Sys2Proof.Machine.execRstdaa s
  | .enec mask => Sys2Proof.Machine.execEnec mask s
  | .disec mask => Sys2Proof.Machine.execDisec mask s
  | .setmwl len => Sys2Proof.Machine.execSetmwl len s
  | .setmrl len => Sys2Proof.Machine.execSetmrl len s
  | .setEndpointId eid => Sys2Proof.Machine.execSetEndpointId eid s
  | .mctpRead rq tag flags idx sub inst off len => Sys2Proof.Machine.execMctpRead rq tag flags idx sub inst off len s
  | .mctpWrite rq tag flags idx sub inst off data => Sys2Proof.Machine.execMctpWrite rq tag flags idx sub inst off data s
  | .mctpInfo rq tag idx sub inst => Sys2Proof.Machine.execMctpInfo rq tag idx sub inst s
  | .identityRead rq tag off len => Sys2Proof.Machine.execIdentityRead rq tag off len s
  | .reportRequest rq tag nonce => Sys2Proof.Machine.execReportRequest rq tag nonce s
  | .reportRead rq tag off len => Sys2Proof.Machine.execReportRead rq tag off len s
  | .debugChallenge rq tag => Sys2Proof.Machine.execDebugChallenge rq tag s
  | .debugToken rq tag token => Sys2Proof.Machine.execDebugToken rq tag token s
  | .reportSigned => Sys2Proof.Machine.execReportSigned s
  | .reportDiscard rq => Sys2Proof.Machine.execReportDiscard rq s
  | .bottomTreeBuild => Sys2Proof.Machine.execBottomTreeBuild s
  | .doorbellWrite src ctx off data => Sys2Proof.Machine.execDoorbellWrite src ctx off data s
  | .moverGo src chan ctrl => Sys2Proof.Machine.execMoverGo src chan ctrl s
  | .registerWrite src chan off value => Sys2Proof.Machine.execRegisterWrite src chan off value s
  | .tallyAddWrite src tally amount => Sys2Proof.Machine.execTallyAddWrite src tally amount s
  | .tallyValueWrite src tally value => Sys2Proof.Machine.execTallyValueWrite src tally value s
  | .porterInstruction porter => Sys2Proof.Machine.execPorterInstruction porter s
  | .predCsrWrite porter col value => Sys2Proof.Machine.execPredCsrWrite porter col value s
  | .tcAcqAll porter => Sys2Proof.Machine.execTcAcqAll porter s
  | .tcAcqRange porter rs1 rs2 => Sys2Proof.Machine.execTcAcqRange porter rs1 rs2 s
  | .tcRelAll porter => Sys2Proof.Machine.execTcRelAll porter s
  | .tcRelRange porter rs1 rs2 => Sys2Proof.Machine.execTcRelRange porter rs1 rs2 s
  | .tcTwait porter rd rs1 rs2 => Sys2Proof.Machine.execTcTwait porter rd rs1 rs2 s
  | .twaitSatisfied porter => Sys2Proof.Machine.execTwaitSatisfied porter s
  | .twaitBoundExpiry porter => Sys2Proof.Machine.execTwaitBoundExpiry porter s
  | .tcTadd porter rs1 rs2 => Sys2Proof.Machine.execTcTadd porter rs1 rs2 s
  | .tcAmoAdd porter dbl rd rs1 rs2 => Sys2Proof.Machine.execTcAmoAdd porter dbl rd rs1 rs2 s
  | .tcAmoSwap porter dbl rd rs1 rs2 => Sys2Proof.Machine.execTcAmoSwap porter dbl rd rs1 rs2 s
  | .tcAmoCas porter dbl rd rs1 rs2 => Sys2Proof.Machine.execTcAmoCas porter dbl rd rs1 rs2 s
  | .tcAmoMin porter dbl rd rs1 rs2 => Sys2Proof.Machine.execTcAmoMin porter dbl rd rs1 rs2 s
  | .tcAmoMax porter dbl rd rs1 rs2 => Sys2Proof.Machine.execTcAmoMax porter dbl rd rs1 rs2 s
  | .tcAmoMinu porter dbl rd rs1 rs2 => Sys2Proof.Machine.execTcAmoMinu porter dbl rd rs1 rs2 s
  | .tcAmoMaxu porter dbl rd rs1 rs2 => Sys2Proof.Machine.execTcAmoMaxu porter dbl rd rs1 rs2 s
  | .tcAmoFadd porter rd rs1 rs2 => Sys2Proof.Machine.execTcAmoFadd porter rd rs1 rs2 s
  | .storeBufferDrain porter => Sys2Proof.Machine.execStoreBufferDrain porter s
  | .spanStart col => Sys2Proof.Machine.execSpanStart col s
  | .opLoadw col => Sys2Proof.Machine.execOpLoadw col s
  | .opMac col => Sys2Proof.Machine.execOpMac col s
  | .opDrain col => Sys2Proof.Machine.execOpDrain col s
  | .opPstart col => Sys2Proof.Machine.execOpPstart col s
  | .opNop col => Sys2Proof.Machine.execOpNop col s
  | .opEnd col => Sys2Proof.Machine.execOpEnd col s
  | .moveHbmToBank cluster => Sys2Proof.Machine.execMoveHbmToBank cluster s
  | .moveBankToHbm cluster => Sys2Proof.Machine.execMoveBankToHbm cluster s
  | .moveBankToBank cluster => Sys2Proof.Machine.execMoveBankToBank cluster s
  | .spanOverrun col => Sys2Proof.Machine.execSpanOverrun col s
  | .bankReady cluster bank => Sys2Proof.Machine.execBankReady cluster bank s
  | .oppCeiling rq value => Sys2Proof.Machine.execOppCeiling rq value s
  | .oppVoltageRaise => Sys2Proof.Machine.execOppVoltageRaise s
  | .frequencySwitch vddMv => Sys2Proof.Machine.execFrequencySwitch vddMv s
  | .flashArrayRead chan slot page => Sys2Proof.Machine.execFlashArrayRead chan slot page s
  | .programResume chan lun => Sys2Proof.Machine.execProgramResume chan lun s
  | .writebackCommit stall frame => Sys2Proof.Machine.execWritebackCommit stall frame s
  | .flashProgram chan block erase stall frame => Sys2Proof.Machine.execFlashProgram chan block erase stall frame s
  | .frameFree stall frame => Sys2Proof.Machine.execFrameFree stall frame s
  | .compaction chan => Sys2Proof.Machine.execCompaction chan s
  | .channelFailed chan => Sys2Proof.Machine.execChannelFailed chan s
  | .ldpcRecovery chan slot recovered => Sys2Proof.Machine.execLdpcRecovery chan slot recovered s
  | .mapRebuild region => Sys2Proof.Machine.execMapRebuild region s
  | .extentRecordWrite ext => Sys2Proof.Machine.execExtentRecordWrite ext s
  | .extentGrant rq value => Sys2Proof.Machine.execExtentGrant rq value s
  | .extentRevoke rq ext => Sys2Proof.Machine.execExtentRevoke rq ext s
  | .drainZero ext => Sys2Proof.Machine.execDrainZero ext s
  | .sweepStart ext => Sys2Proof.Machine.execSweepStart ext s
  | .sweepEnd ext => Sys2Proof.Machine.execSweepEnd ext s
  | .stallCreate rq stall => Sys2Proof.Machine.execStallCreate rq stall s
  | .stallRemove rq stall => Sys2Proof.Machine.execStallRemove rq stall s
  | .stallSweepStart stall => Sys2Proof.Machine.execStallSweepStart stall s
  | .stallUnused stall => Sys2Proof.Machine.execStallUnused stall s
  | .consentA rq pact value => Sys2Proof.Machine.execConsentA rq pact value s
  | .consentB rq pact value => Sys2Proof.Machine.execConsentB rq pact value s
  | .pactInForce pact => Sys2Proof.Machine.execPactInForce pact s
  | .pactLeaveForce pact => Sys2Proof.Machine.execPactLeaveForce pact s
  | .pactEmpty pact => Sys2Proof.Machine.execPactEmpty pact s
  | .mapSweep => Sys2Proof.Machine.execMapSweep s
  | .commit rq value => Sys2Proof.Machine.execCommit rq value s
  | .commitValidation group => Sys2Proof.Machine.execCommitValidation group s
  | .commitApply group => Sys2Proof.Machine.execCommitApply group s
  | .discard rq group => Sys2Proof.Machine.execDiscard rq group s
  | .regionOwner rq region owner => Sys2Proof.Machine.execRegionOwner rq region owner s
  | .tableOwner rq table owner => Sys2Proof.Machine.execTableOwner rq table owner s
  | .collOwner rq coll owner => Sys2Proof.Machine.execCollOwner rq coll owner s
  | .collActivate rq coll => Sys2Proof.Machine.execCollActivate rq coll s
  | .collDeactivate rq coll => Sys2Proof.Machine.execCollDeactivate rq coll s
  | .retireRequest rq coll value => Sys2Proof.Machine.execRetireRequest rq coll value s
  | .restockNow rq coll value => Sys2Proof.Machine.execRestockNow rq coll value s
  | .sideCommit rid cmd => Sys2Proof.Machine.execSideCommit rid cmd s
  | .restockStart coll => Sys2Proof.Machine.execRestockStart coll s
  | .restockSwitch coll => Sys2Proof.Machine.execRestockSwitch coll s
  | .restockDrain coll => Sys2Proof.Machine.execRestockDrain coll s
  | .agentStall rq agent stall => Sys2Proof.Machine.execAgentStall rq agent stall s
  | .agentClean rq agent value => Sys2Proof.Machine.execAgentClean rq agent value s
  | .coherenceTest rq stall value => Sys2Proof.Machine.execCoherenceTest rq stall value s
  | .contextEnable rq ctx => Sys2Proof.Machine.execContextEnable rq ctx s
  | .contextDisable rq ctx => Sys2Proof.Machine.execContextDisable rq ctx s
  | .admitHold rq stall value => Sys2Proof.Machine.execAdmitHold rq stall value s
  | .injectArm rq detector inst value => Sys2Proof.Machine.execInjectArm rq detector inst value s
  | .injectionAllowed rq value => Sys2Proof.Machine.execInjectionAllowed rq value s
  | .fwStage rq off data => Sys2Proof.Machine.execFwStage rq off data s
  | .fwUpdateVerify rq => Sys2Proof.Machine.execFwUpdateVerify rq s
  | .fwUpdateHandoff rq => Sys2Proof.Machine.execFwUpdateHandoff rq s
  | .fwUpdateClear rq => Sys2Proof.Machine.execFwUpdateClear rq s
  | .verifyDone => Sys2Proof.Machine.execVerifyDone s
  | .prepareEnd => Sys2Proof.Machine.execPrepareEnd s
  | .prepareTimeout => Sys2Proof.Machine.execPrepareTimeout s
  | .admissionPauseStart => Sys2Proof.Machine.execAdmissionPauseStart s
  | .componentMove => Sys2Proof.Machine.execComponentMove s
  | .secRestart => Sys2Proof.Machine.execSecRestart s
  | .admissionsReopen => Sys2Proof.Machine.execAdmissionsReopen s
  | .handoffRollback => Sys2Proof.Machine.execHandoffRollback s
  | .watchdog component => Sys2Proof.Machine.execWatchdog component s
  | .fwProtection component addr => Sys2Proof.Machine.execFwProtection component addr s
  | .setSwitchWindow rid => Sys2Proof.Machine.execSetSwitchWindow rid s
  | .preWalk rid index => Sys2Proof.Machine.execPreWalk rid index s
  | .atsCompletion id ga size writable => Sys2Proof.Machine.execAtsCompletion id ga size writable s
  | .atsBoundExpiry id => Sys2Proof.Machine.execAtsBoundExpiry id s
  | .atsInvalidateRequest pasid va length => Sys2Proof.Machine.execAtsInvalidateRequest pasid va length s
  | .iqApply stall => Sys2Proof.Machine.execIqApply stall s
  | .powerRemoval => Sys2Proof.Machine.execPowerRemoval s
  | .blockErase chan block => Sys2Proof.Machine.execBlockErase chan block s
  | .checkpointValid chan => Sys2Proof.Machine.execCheckpointValid chan s

end Sys2Proof.Machine
end

