-- ==== Sys2Proof/Safety.lean ====
section
/-! DEFINITION. The terms the statements use: the canonical forms every step keeps, and when a catalogue write is taken. -/

namespace Sys2Proof.Safety
open Sys2Proof Sys2Proof.Machine

/-- The block's addressed memories are in canonical form: addresses strictly rising, no listed byte zero. -/
def MemInv (s : State) : Prop :=
  Memory.wf s.mem.hbm = true ∧ Memory.wf s.mem.host = true ∧ Memory.wf s.mem.bank = true ∧ Memory.wf s.mem.flash = true

/-- A write of the whole value `v` to a catalogue entry, by an MCTP endpoint or a firmware component (a client context's passes the
Gate), passes checks 1 to 6 of R441: the device serves the requester, the address is assigned and the value fits it, the requester holds its privilege, the entry is writable and not behind a closed
expert gate, the value is in its range, and its quiesce condition holds. -/
def WriteReaches (s : State) (rq : Requester) (idx sub inst v : Nat) : Prop :=
  (∀ c, rq ≠ .ctx c) ∧ ∃ r, entryOf idx sub inst = some r ∧ isBlob r = false ∧ r.len ≤ 4096 ∧ v < 256 ^ r.len ∧ served s rq idx true = some none
    ∧ holds s rq r.priv r.inst idx inst = true ∧ writerOk rq idx sub = true ∧ r.acc ≠ 0 ∧ expertOk s r idx inst = true
    ∧ rangeOk s r idx inst v = true ∧ (r.app = 2 → quiesced s idx sub inst v = true) ∧ (r.app = 3 → pendingGroup s r.grp = false)

/-- What the placement of an arrival with no part on another node is tried for. -/
def localTry (a : Arrival) (cls : Nat) (cmds : List Cmd) (s : State) : Try :=
  { q := reqFor a cls (decTick s a.stall) cmds s, cmds := cmds,
    recCal := if (reqFor a cls (decTick s a.stall) cmds s).reserve || crEntries s a.ctx == 0 then none else some (calPort (portOf s a.ctx)),
    bounds := fun _ _ => none, least := fun r => max (r + 1) 0, next := match cmds with | [c] => decide (0x80 ≤ c.opcode) | _ => false }

/-- The oldest undecided request of context `c` is `a`, of the form that `fits`, in a queue, and the Gate may decide it now (R55); it
passes every check (R54 to
R57), has no part on another node, and books as `q` with the bookings of `u` (R58 to R68, R87 to R94). -/
def GateAccepts (fits : Arrival → Bool) (c : Nat) (s : State) (a : Arrival) (u : State) (q : Req) : Prop :=
  oldest s c = some a ∧ running s = true ∧ gateOpened s = true ∧ fits a = true ∧ mayDecide s a.stall = true ∧ a.chan = none ∧ jointsOf s a = []
  ∧ ∃ cls cmds t, screen a s = .inl (cls, cmds, t) ∧ (∀ x ∈ cmds, remoteCmd s x = false)
    ∧ book (localTry a cls cmds s) (decTick s a.stall) t = .inr (u, q)

/-- The state once the instruction porter `p` executes retires: its pc 4 on, `cycles` and one instruction counted (R276). -/
def retired (p cycles : Nat) (t : State) : State :=
  let x := porterOf t p
  setPorter p { x with pc := x.pc + 4, cycle := x.cycle + cycles, instret := x.instret + 1 } t

end Sys2Proof.Safety
end

