-- ==== Sys2Proof/Certificates/Slice0/Obligations.lean ====
section
/-! DEFINITION. The statements about the model, one `def Obligations.<Name> : Prop` each. -/

open Sys2Proof Sys2Proof.Machine Sys2Proof.Safety

/-! ## The machine -/

/-- A step takes the command at the front of the queue and runs it on the state with the queue's rest. -/
def Obligations.StepRunsTheFrontCommand : Prop :=  ∀ (c : Instr) (rest : List Instr) (s : State), step { s with pending := c :: rest } = exec c { s with pending := rest }

/-- On an empty queue the calendar tick runs (log entry 2): the block idles by one tick, and not at all in reset.
The command table gives no row an encoding, so no word spells a command and none is placed by one. -/
def Obligations.StepWithoutCommands : Prop :=
  (∀ s : State, s.pending = [] → step s = .next (idleTick s) ∧ (running s = false → step s = .next s))
  ∧ (∀ (nbits w : Nat) (s : State), decodeTableWord nbits w = none ∧ s.withFetchWord nbits w = s)

/-- A command's effect is on everything but the queue. -/
def Obligations.CommandsLeaveTheQueue : Prop :=  ∀ (c : Instr) (s t : State), exec c s = .next t → t.pending = s.pending

/-- Every step keeps the block's addressed memories canonical: HBM, client memory, the banks and the flash array. -/
def Obligations.StepKeepsMemoryCanonical : Prop :=  ∀ s t : State, MemInv s → step s = .next t → MemInv t

/-- The memories are canonical at reset. -/
def Obligations.ResetMemoryCanonical : Prop := MemInv State.reset

/-- At reset: the tick at 0 (R50), no booking, no undecided and no accepted request (R75), stall 0 ACTIVE and every other
UNUSED (R114), stall 0 with a purse rate of 512 µJ and a float rate of 64 µJ (R88), an empty queue. -/
def Obligations.ResetState : Prop :=  State.reset.clk.calTick = 0 ∧ State.reset.gate.books = [] ∧ State.reset.gate.intake = [] ∧ State.reset.gate.reqs = []
  ∧ stallState State.reset 0 = 1 ∧ (∀ st, 0 < st → st < 256 → stallState State.reset st = 0)
  ∧ cv State.reset 0x2010 1 0 = 512 ∧ cv State.reset 0x2010 3 0 = 64 ∧ State.reset.pending = []

/-- A catalogue value put into effect reads back, and every other value reads as before. -/
def Obligations.CatalogueValuesReadBack : Prop :=  ∀ (i j k v : Nat) (s : State), j < 256 → k < 65536 →
    cv (cvSet i j k v s) i j k = v ∧
    ∀ i' j' k', j' < 256 → k' < 65536 → (i', j', k') ≠ (i, j, k) → cv (cvSet i j k v s) i' j' k' = cv s i' j' k'

/-! ## Resets and the start sequence -/

/-- A device reset that reaches the Gate discards every booking and every request, undecided or accepted, writes no record of
them (host memory, HBM and the messages sent are as before), and raises GATE_EPOCH by one. -/
def Obligations.DeviceResetClearsTheGate : Prop :=  ∀ (s : State) (cause low : Nat), s.clk.powered = true → s.clk.thermtrip = false → s.clk.inReset = false → 100 ≤ low →
    (let t := deviceResetNow cause s
     t.gate = {} ∧ t.mem.host = s.mem.host ∧ t.mem.hbm = s.mem.hbm ∧ t.sent = s.sent ∧ cv t 0x1000 3 = cv s 0x1000 3 + 1)
    ∧ exec (.rstN low) s = .next (deviceResetNow 1 s)

/-- The supplies: VDD_AON's rise is a power-on reset of every block, which loses HBM, the Gate and the error log and keeps
the flash array; the removal of the rails leaves the block without power; THERMTRIP holds every block but AON in device
reset, and keeps HBM.
RST_N low for fewer than 100 ticks resets nothing.
The end of the internal reset: tick 0, with the straps sampled; nothing else changes. -/
def Obligations.SupplyAndResetEvents : Prop :=
  (
    ∀ s : State,
      (∃ t, exec .powerOnReset s = .next t ∧ t.clk.powered = true ∧ t.clk.inReset = true ∧ t.clk.resetCause = 0 ∧ t.clk.thermtrip = false
        ∧ t.mem.hbm = [] ∧ t.gate = {} ∧ t.err = {} ∧ t.mem.flash = s.mem.flash)
      ∧ (∃ t, exec .powerRemoval s = .next t ∧ t.clk.powered = false ∧ t.clk.inReset = true ∧ t.mem.hbm = [] ∧ t.gate = {} ∧ t.err = {}
        ∧ t.mem.flash = s.mem.flash)
      ∧ (s.clk.powered = true → ∃ t, exec .thermtrip s = .next t ∧ t.clk.thermtrip = true ∧ t.clk.inReset = true ∧ t.gate = {}
        ∧ t.mem.hbm = s.mem.hbm ∧ t.err.log = s.err.log ∧ t.mem.flash = s.mem.flash))
  ∧ (∀ (s : State) (low : Nat), low < 100 → exec (.rstN low) s = .next s)
  ∧ (
    ∀ (s : State) (brd : Nat) (pooled : Bool), s.clk.powered = true → s.clk.inReset = true → s.clk.thermtrip = false →
      exec (.internalResetEnd brd pooled) s
        = .next { s with clk := { s.clk with inReset := false, calTick := 0, brdPos := brd % 16, cfgPooled := pooled } })

/-- The boot of a part whose boot record names a slot that verifies: SEC_INIT begins with that slot's image in effect. With
neither slot passing, the device enters recovery with no image. -/
def Obligations.SecStartBoots : Prop :=  ∀ s : State, running s = true → startPhase s = 0 →
    let cfg := if s.clk.cfgPooled then 1 else 0
    let active := match bootRecord s with | some (_, _, a) => a % 2 | none => 0
    let slot := fun (k : Nat) => if k = 0 then s.sec.slotA else s.sec.slotB
    (verifySlot s (slot active) cfg = 1 → ∃ t, exec .secStart s = .next t ∧ startPhase t = 1 ∧ t.fw.inEffect = slot active ∧ t.sec.bootSlot = active
      ∧ cv t 0xA000 3 = cfg ∧ t.mem = s.mem ∧ t.gate = s.gate)
    ∧ (verifySlot s (slot active) cfg ≠ 1 → verifySlot s (slot (1 - active)) cfg = 1 → ∃ t, exec .secStart s = .next t ∧ startPhase t = 1
      ∧ t.fw.inEffect = slot (1 - active) ∧ t.sec.bootSlot = 1 - active ∧ t.mem = s.mem ∧ t.gate = s.gate)
    ∧ (verifySlot s (slot active) cfg ≠ 1 → verifySlot s (slot (1 - active)) cfg ≠ 1 → ∃ t, exec .secStart s = .next t ∧ startPhase t = 4
      ∧ t.fw.inEffect = .empty ∧ t.mem = s.mem ∧ t.gate = s.gate)

/-- SEC_INIT and STORE. With every stack trained STORE begins and every link trains; with one failed the device stays in SEC_INIT. The
zero-fill leaves HBM at zero and notes its tick; a target that answers no reset is an empty position; discovery ends with the channels
whose parts conform NORMAL, and no other. The Gate opens at a boundary once STORE is done and no component is halted, and its tick is
noted; a pinned extent left in SWEEPING is FREE from then.
Mapping rebuild, channel by channel: the checkpoint is loaded, then the log after it is replayed. -/
def Obligations.StoreStartsAndRebuilds : Prop :=
  (
    ∀ s : State, running s = true →
      (startPhase s = 1 → s.clk.hbmTrained = false → cv s 0xC030 6 = 0 →
        (∃ t, exec (.hbmTrainingDone 0) s = .next t ∧ startPhase t = 2 ∧ t.clk.hbmTrained = true
          ∧ (∀ l, l < 32 → cv t 0x8110 1 l = 1) ∧ t.mem = s.mem ∧ t.gate = s.gate)
        ∧ ∀ failed, 0 < failed → failed < 256 → exec (.hbmTrainingDone failed) s = .next (cvSet 0xC030 6 0 failed s))
      ∧ (startPhase s = 2 → s.clk.zeroFillDone = false → ∃ t, exec .zeroFillDone s = .next t ∧ t.clk.zeroFillDone = true ∧ t.mem.hbm = []
        ∧ cv t 0xC030 3 = now s ∧ t.mem.flash = s.mem.flash ∧ t.mem.host = s.mem.host ∧ t.gate = s.gate)
      ∧ (∀ ch k, startPhase s = 2 → s.clk.discoveryDone = false → ch < 64 → k < 4 →
        ∃ t, exec (.targetResetTimeout ch k) s = .next t ∧ t = { s with store := { s.store with emptyTargets := t.store.emptyTargets } }
        ∧ (ch, k) ∈ t.store.emptyTargets ∧ ∀ x ∈ s.store.emptyTargets, x ∈ t.store.emptyTargets)
      ∧ (∀ found, startPhase s = 2 → s.clk.discoveryDone = false → ∃ t, exec (.flashDiscoveryDone found) s = .next t ∧ t.clk.discoveryDone = true
        ∧ t.mem = s.mem ∧ t.gate = s.gate ∧ t.store.emptyTargets = s.store.emptyTargets
        ∧ ∀ ch, ch < 64 → ((∃ f ∈ found, f.chan = ch ∧ chanConforms s f = true) → chanState t ch = 1)
          ∧ ((∀ f ∈ found, f.chan = ch → chanConforms s f = false) → chanState t ch = chanState s ch))
      ∧ (startPhase s = 2 → s.clk.storeDone = true → atBoundary s = true → (∀ c ∈ s.fw.comps, c.2.halted = false) →
        let opened := cvSet 0xC030 2 0 (now s) (setPhase 3 { s with clk := { s.clk with memActive := true } })
        ((∀ e ∈ s.ext.recs, e.2.state ≠ 3) → exec .gateOpen s = .next opened)
        ∧ (∀ e r, s.ext.recs = [(e, r)] → r.state = 3 → r.backed = false → exec .gateOpen s = .next (setExt e { grant := r.grant, dirty := true } opened)))
      ∧ (atBoundary s = false → exec .gateOpen s = .next s))
  ∧ (
    ∀ (s : State) (ch : Nat), rebuilding ch s = true →
      ((chanOf s ch).loaded = false → ∃ t, exec (.checkpointLoaded ch) s = .next t ∧ (chanOf t ch).loaded = true
        ∧ t.store.mapping = (loadCheckpoint ch s).store.mapping ∧ t.mem = (loadCheckpoint ch s).mem)
      ∧ ((chanOf s ch).loaded = true → (chanOf s ch).rebuilt = false → ∃ t, exec (.replayDone ch) s = .next t ∧ (chanOf t ch).rebuilt = true))

/-- A port comes UP with its rate and width, and is booked from the next round; a port that goes DOWN has neither; a link
reset takes it DOWN and trains it again. -/
def Obligations.PortsComeAndGo : Prop :=  ∀ (s : State) (p rate width : Nat), running s = true → p < 9 →
    (cv s 0x9010 1 p ≠ 2 → ∃ t, exec (.portTrained p rate width) s = .next t ∧ cv t 0x9010 2 p = rate % 256 ∧ cv t 0x9010 3 p = width % 256
      ∧ AMap.get none t.port.upRound p = some (curRound s))
    ∧ (cv s 0x9010 1 p ≠ 0 → ∃ t, exec (.portDown p) s = .next t ∧ cv t 0x9010 2 p = 0 ∧ cv t 0x9010 3 p = 0
      ∧ ∀ r ∈ t.coh.reqs, r.phase = 0 → r.agent / 16 ≠ p)
    ∧ exec (.linkReset p) s = .next (setPort p 1 (portLost p 0 s))

/-! ## Twine links -/

/-- Training ends with the link UP and its peer's number and wire delay noted, or, with a peer at another position, DOWN and
miswired; a link that no peer answers goes DOWN; a failed link trains again 1,280 ticks after its failure.
An UP link fails when a lane loses lock, when its peer is seen to train, and when no flit has come for LINK_DEAD_TICKS:
the link is FAILED from that tick, and what it was receiving is gone. -/
def Obligations.LinksTrainAndFail : Prop :=
  (
    ∀ (s : State) (l node pos wire : Nat), running s = true → l < 32 →
      (cv s 0x8110 1 l = 1 → pos = expectedPos s l → ∃ t, exec (.linkUp l node pos wire) s = .next t ∧ cv t 0x8110 1 l = 2
        ∧ cv t 0x8110 2 l = node % 2 ^ 14 ∧ cv t 0x8110 3 l = wire ∧ linkOf t l = { upRound := some (curRound s), lastFlit := now s }
        ∧ t = { s with cat := t.cat, twine := t.twine })
      ∧ (cv s 0x8110 1 l = 1 → pos ≠ expectedPos s l → ∃ t, exec (.linkUp l node pos wire) s = .next t ∧ cv t 0x8110 1 l = 0
        ∧ cv t 0xC040 2 = cv s 0xC040 2 ||| 2 ^ l ∧ t = { s with cat := t.cat })
      ∧ (cv s 0x8110 1 l = 1 → exec (.twineTrainTimeout l) s = .next (cvSet 0x8110 1 l 0 s))
      ∧ (∀ f, cv s 0x8110 1 l = 3 → (linkOf s l).failTick = some f → f + 1280 ≤ now s →
        exec (.linkRetrain l) s = .next (cvSet 0x8110 1 l 1 s)))
  ∧ (
    ∀ (s : State) (l lane : Nat), running s = true → linkUp s l = true →
      exec (.laneLockLoss l lane) s = .next (linkFailed l 3 false s)
      ∧ exec (.peerTrainingSeen l) s = .next (linkFailed l 4 false s)
      ∧ ((linkOf s l).lastFlit + cv s 0x8100 6 ≤ now s → exec (.linkDeadTicksExpiry l) s = .next (linkFailed l 2 false s))
      ∧ (now s < (linkOf s l).lastFlit + cv s 0x8100 6 → exec (.linkDeadTicksExpiry l) s = .next s)
      ∧ ∀ cause, (linkOf (linkFailed l cause false s) l).failTick = some (now s) ∧ (linkOf (linkFailed l cause false s) l).header = none
        ∧ (linkOf (linkFailed l cause false s) l).got = [])

/-- On an UP link: credits add to a stall's own; a retry request is answered with the stall's flits from the one named on; a
control flit, due every CONTROL cycle, serves up to seven stalls in turn.
A skip notice moves a stall's sequence with a node on to the number it names, where that lies less than 2^23 ahead and
nothing of the sequence is held; a notice of a number already passed changes no sequence. -/
def Obligations.LinkMessagesAndNotices : Prop :=
  (
    ∀ (s : State) (l st n seq : Nat), running s = true → linkUp s l = true →
      exec (.creditMessage l st n) s
        = .next (setLink l { linkOf s l with lastFlit := now s, credits := AMap.upd 0 (linkOf s l).credits st (· + n) } s)
      ∧ (∃ t, exec (.retryRequest l st seq) s = .next t
        ∧ t.sent = s.sent ++ (((linkOf s l).retry.filter (fun x => x.1 == st)).dropWhile (fun x => x.2.1 != seq)).map (fun x => .flit l x.2.2)
        ∧ t = { s with twine := t.twine, sent := t.sent })
      ∧ (now s % cv s 0x8100 4 = 0 → ∃ (t : State) (turn : List Nat), exec (.controlFlitSend l) s = .next t ∧ turn.length ≤ 7
        ∧ (∀ x ∈ turn, x ∈ linkStalls s l) ∧ t.sent = s.sent ++ [.control l turn] ∧ t = { s with twine := t.twine, sent := t.sent }))
  ∧ (
    ∀ (s : State) (l src st seq : Nat), running s = true → linkUp s l = true →
      let u := setLink l { linkOf s l with lastFlit := now s } s
      (seqAhead seq (nextSeqOf s src st) < 2 ^ 23 → (∀ x ∈ s.twine.held, ¬(x.src = src ∧ x.stall = st)) →
        exec (.skipNotice l src st seq) s = .next (setNextSeq src st (seq % 2 ^ 24) u))
      ∧ (2 ^ 23 ≤ seqAhead seq (nextSeqOf s src st) → exec (.skipNotice l src st seq) s = .next u))

/-- A flit with a good CRC that the FEC decoder passes, where no injection is armed, is taken: a header flit of the form
R397 gives begins a train, a data flit before the last joins it; the count of failures starts again. -/
def Obligations.FlitsAreTaken : Prop :=  ∀ (s : State) (l : Nat) (f : BitVec 2048), running s = true → linkUp s l = true →
    (let h := flitBytes f
     0 < now s → hByte h 252 4 = crc32 (slice h 0 252) → headerFormOk h = true → armed s 6 (hByte h 2 1) = false → armed s 7 (hByte h 2 1) = false →
     ∃ t, exec (.trainHeaderReceive l f true) s = .next t ∧ (linkOf t l).header = some f ∧ (linkOf t l).got = []
       ∧ (linkOf t l).linkSeq = (hByte h 24 4 + 1) % 2 ^ 32 ∧ (linkOf t l).fails = 0 ∧ t = { s with twine := t.twine })
    ∧ (∀ hf, (linkOf s l).header = some hf →
       let h := flitBytes hf
       let k := linkOf s l
       crc32 (flitBytes f) = hByte h (28 + 4 * k.got.length) 4 → k.got.length + 1 < hByte h 1 1 →
       armed s 6 (hByte h 2 1) = false → armed s 7 (hByte h 2 1) = false →
       ∃ t, exec (.dataFlitReceive l f true) s = .next t ∧ (linkOf t l).header = some hf ∧ (linkOf t l).got = k.got ++ [f]
         ∧ (linkOf t l).linkSeq = (k.linkSeq + 1) % 2 ^ 32 ∧ (linkOf t l).fails = 0 ∧ t = { s with twine := t.twine })

/-! ## Rounds, periods and the operating point -/

/-- Sensors over the limits raise a throttle for the next round, counted in THROTTLE_EVENTS; of the Gate nothing changes but the activity
its record's ring counts. Sensors within them raise none.
After 64 rounds below the limits the throttle ends. -/
def Obligations.Throttling : Prop :=
  (
    ∀ (x : Sensors) (s : State),
      (overLimits x = true → s.clk.throttled = false → s.clk.throttlePending = false →
        ∃ t, exec (.throttleEntry x) s = .next t ∧ t.clk.throttlePending = true ∧ t.clk.throttleRound = curRound s + 1
          ∧ cv t 0x2050 6 = cv s 0x2050 6 + 1 ∧ t.gate = { s.gate with acts := t.gate.acts } ∧ t.ext = s.ext)
      ∧ (overLimits x = false → exec (.throttleEntry x) s = .next s))
  ∧ (
    ∀ (x : Sensors) (s : State), s.clk.throttled = true → belowLimits x = true → 64 ≤ s.clk.coolRounds →
      ∃ t, exec (.throttleRelease x) s = .next t ∧ t.clk.throttled = false ∧ t.clk.coolRounds = 0 ∧ t.clk.calTick = s.clk.calTick
        ∧ t.gate = { s.gate with acts := t.gate.acts } ∧ t.ext = s.ext)

/-- A round's boundary is the ticks up to it and then its actions, unless a reset stops the block first. A balance restarts there at
what it was with the rate and the refunds added and the overruns taken off, at most the purse's depth. The loader composes the next
round's streams once in a round, from the streams the round before left; with no segment booked there NEXT is empty. -/
def Obligations.RoundsAdvance : Prop :=  ∀ (x : Sensors) (s : State),
    (running s = true → exec (.roundBoundary x) s
      = .next (if running (toBoundary 1280 s) then boundaryWith x (toBoundary 1280 s) else toBoundary 1280 s))
    ∧ (∀ st, st < 256 → gateOpened s = true → AMap.wf 0 s.gate.balance = true →
      balanceOf (settleBalances s) st
        = min (balanceOf s st + cv s 0x2010 1 st + AMap.get 0 s.gate.refunds st - AMap.get 0 s.gate.overruns st) (purseDepth s st))
    ∧ (s.fab.nextRound ≠ curRound s + 1 →
      let empty := { s with fab := { s.fab with nextB := {}, nextRound := curRound s + 1 } }
      exec .loaderLoad s = .next (loadAll (curRound s + 1) s.fab.nextB empty)
      ∧ (segmentsIn s (curRound s + 1) = [] → exec .loaderLoad s = .next empty))
    ∧ (running s = false → exec (.roundBoundary x) s = .next s)
    ∧ (s.fab.nextRound = curRound s + 1 → exec .loaderLoad s = .next s)

/-- The periods of a stall at their boundaries: a meter snapshot changes nothing but the snapshots, row-cache frequencies
halve, and nothing else; what an assembly or a snapshot of a requester held for 64 rounds is released, and no one else's.
HEAT_PERIOD at a boundary of a stall's period, where no region of its extents has reached the threshold: no record is
written, and only the heat counters change; while HEAT_ENABLE is clear nothing does.
CHECKPOINT_PERIOD: at a boundary of the period of a NORMAL or SHORT channel the checkpoint begins: it goes to the older of the
channel's two areas, its pages wait to be booked, and the block being filled is closed. -/
def Obligations.PeriodsAtBoundaries : Prop :=
  (
    ∀ (s : State),
      (running s = true → atBoundary s = true → cv s 0x3051 1 ≠ 0 → curRound s % cv s 0x3051 1 = 0 →
        ∃ t, exec .snapshotPeriod s = .next t ∧ t = { s with err := { s.err with meterSnaps := t.err.meterSnaps } }
          ∧ ∀ st ∈ liveStalls s, ∃ l, AMap.get [] t.err.meterSnaps st
            = l ++ [snapshotBits (curRound s) (cv s 0x1000 3) (cv s 0x3020 1 st) ((List.range 7).map (fun i => cv s 0x3050 (i + 1) st))])
      ∧ (∀ st, atBoundary s = true → cv s 0x7200 2 st ≠ 0 → curRound s % cv s 0x7200 2 st = 0 →
        exec (.decayPeriod st) s = .next { s with emb := { s.emb with freq := s.emb.freq.filterMap (fun e =>
          if e.1 / 2 ^ 32 = st then (if e.2 / 2 = 0 then none else some (e.1, e.2 / 2)) else some e) } })
      ∧ (∀ rq, ∃ t, exec (.assemblyExpiry rq) s = .next t ∧ t = { s with cat := { s.cat with asm := t.cat.asm } }
        ∧ ∀ b, b ∈ t.cat.asm ↔ b ∈ s.cat.asm ∧ (b.rq ≠ rq ∨ curRound s ≤ b.round + 64))
      ∧ (∀ rq, ∃ t, exec (.snapshotRelease rq) s = .next t ∧ t = { s with cat := { s.cat with snaps := t.cat.snaps } }
        ∧ ∀ b, b ∈ t.cat.snaps ↔ b ∈ s.cat.snaps ∧ (b.rq ≠ rq ∨ curRound s ≤ b.round + 64)))
  ∧ (
    ∀ (s : State) (st : Nat), atBoundary s = true → gateOpened s = true →
      (cv s 0x5840 3 st ≠ 1 → exec (.heatPeriod st) s = .next s)
      ∧ (cv s 0x5840 3 st = 1 → curRound s % cv s 0x5840 1 st = 0 →
        (∀ k, (extRec s (k / 512)).state ≠ 0 → (extRec s (k / 512)).stall = st → AMap.get 0 s.xl.heatUnits k + AMap.get 0 s.xl.heatAgents k < cv s 0x5840 2 st) →
        ∃ t, exec (.heatPeriod st) s = .next t ∧ t = { s with xl := { s.xl with heatUnits := t.xl.heatUnits, heatAgents := t.xl.heatAgents } }))
  ∧ (
    ∀ (s : State) (ch : Nat), ch < 64 → (chanState s ch = 1 ∨ chanState s ch = 2) → atBoundary s = true → curRound s % max 1 (cv s 0x4040 6) = 0 →
      (chanOf s ch).ckptArea = none → devicePaused s = false →
      ∃ t, exec (.checkpointPeriod ch) s = .next t ∧ (chanOf t ch).ckptArea = some (if (chanOf s ch).ckptValid = 0 then 1 else 0)
        ∧ (chanOf t ch).fill = 256 ∧ (chanOf t ch).ckptNext = (chanOf s ch).sequence
        ∧ (chanOf t ch).ckptLeft = cdiv (cv s 0x4050 3 / 64) 16384 + (if (recordChannels s).contains ch then 512 else 0)
        ∧ (∀ c, c ≠ ch → chanOf t c = chanOf s c) ∧ t.gate = s.gate ∧ t.mem = s.mem)

/-- CALIBRATION_PERIOD, with no injection armed: what was read of the regulator is shown and what was not keeps its value; with an
accumulator not below the previous one the difference is the measured energy, and without one the measured energy and the factor
keep theirs (R103, R105). The booked energy of the period starts again at zero.
The operating point: a raise sends its voltage at least 640 ticks before the boundary and switches at a boundary with
VDD_CORE within 10 mV of it; a lowering switches at the boundary and then lowers the voltage. -/
def Obligations.CalibrationAndOperatingPoint : Prop :=
  (
    ∀ (s : State) (vr : VrRead), atBoundary s = true → curRound s % max 1 (cv s 0x2040 1) = 0 → pwrDown s = false → armed s 0x14 0 = false →
      let est := s.gate.charged + cv s 0x2000 3 * cv s 0x2040 1
      let shown := fun (t : State) (sub : Nat) (v : Option Nat) => cv t 0x2060 sub = (match v with | some x => x % 65536 | none => cv s 0x2060 sub)
      ∃ t, exec (.calibrationPeriod vr) s = .next t ∧ cv t 0x2040 4 = est ∧ shown t 2 vr.status ∧ shown t 3 vr.vout ∧ shown t 4 vr.iout ∧ shown t 5 vr.temp
        ∧ t.gate.charged = 0
        ∧ (∀ m e, vr.eout = some m → eoutDiff s.clk.eout m vr.wraps = some e → cv t 0x2040 3 = e ∧ cv t 0x2040 2 = e * 1000000 / est
          ∧ t.clk = { s.clk with eout := some (m, vr.wraps) })
        ∧ (vr.eout = none → cv t 0x2040 3 = cv s 0x2040 3 ∧ cv t 0x2040 2 = cv s 0x2040 2 ∧ t.clk = s.clk))
  ∧ (
    ∀ (s : State) (p : Nat), oppTarget s = some p → p < 5 → pwrDown s = false →
      (now s % 1280 ≤ 640 → cv s 0x2030 4 < p → s.clk.vddTarget ≠ oppMv p →
        exec .oppVoltageRaise s = .next { s with clk := { s.clk with vddTarget := oppMv p, vddTick := now s }, sent := s.sent ++ [.avs (oppMv p)] })
      ∧ (∀ vdd, atBoundary s = true → cv s 0x2030 4 < p → s.clk.vddTarget = oppMv p → s.clk.vddTick + 640 ≤ now s → vdd ≤ oppMv p + 10 → oppMv p ≤ vdd + 10 →
        exec (.frequencySwitch vdd) s = .next (cvSet 0x2030 4 0 p s))
      ∧ (∀ vdd, cv s 0x2030 4 < p → (s.clk.vddTarget ≠ oppMv p ∨ now s < s.clk.vddTick + 640 ∨ vdd + 10 < oppMv p) →
        exec (.frequencySwitch vdd) s = .next s)
      ∧ (∀ vdd, atBoundary s = true → p < cv s 0x2030 4 →
        ∃ t, exec (.frequencySwitch vdd) s = .next t ∧ cv t 0x2030 4 = p ∧ t.clk.vddTarget = oppMv p ∧ t.sent = s.sent ++ [.avs (oppMv p)]))

/-! ## CXL.mem, the component commands and the I3C target -/

/-- A CXL.mem request of an agent that may reach the line, with a line booking and a credit for it, waits at its port: the
request, of every kind, joins the waiting ones and nothing else changes.
Where the line may not be reached: a request of another node's address, or of a line that is not its agent's, is answered at once
without data or effect, with a PROTECTION record, and without one while no store is served yet; a read of the line of a stall without
a line booking is answered poisoned and a write of one is dropped, counted for the round's record. MemSpecRd has no effect at all. -/
def Obligations.CxlRequestsArrive : Prop :=
  (
    ∀ (s : State) (a addr st : Nat), a < 128 → portUp s (a / 16) = true → gateOpened s = true → nodeOf addr = nodeNumber s →
      agentFor s a (offOf addr) = some st →
      (isWindow (offOf addr) = true ∨ ((extRec s (extOf (offOf addr))).state ≠ 0 ∧ (extRec s (extOf (offOf addr))).stall = st)) →
      cv s 0x1040 3 st ≠ 0 →
      let whole : BitVec 64 := BitVec.allOnes 64
      let waits := fun (op : CxlOp) (data : BitVec 512) (mask : BitVec 64) =>
        { s with coh := { s.coh with nextId := s.coh.nextId + 1, reqs := s.coh.reqs ++
          [{ id := s.coh.nextId, agent := a, addr := addr, op := op, data := data, mask := mask, stall := st, arrival := now s }] } }
      (heldCredits s a false < cv s 0x9010 5 (a / 16) →
        (∀ snp, exec (.memRd a addr snp) s = .next (waits (.rd snp) 0 whole)) ∧ exec (.memRdData a addr) s = .next (waits .rdData 0 whole)
        ∧ exec (.memInv a addr) s = .next (waits .inv 0 whole) ∧ exec (.memInvNt a addr) s = .next (waits .invNt 0 whole)
        ∧ exec (.memClnEvct a addr) s = .next (waits .clnEvct 0 whole))
      ∧ (heldCredits s a true < cv s 0x9010 5 (a / 16) → ∀ (m : Meta) (data : BitVec 512) (mask : BitVec 64),
        exec (.memWr a addr m data) s = .next (waits (.wr m) data whole) ∧ exec (.memWrPtl a addr m data mask) s = .next (waits (.wrPtl m) data mask)))
  ∧ (
    ∀ (s : State) (a addr : Nat), a < 128 → portUp s (a / 16) = true →
      exec (.memSpecRd a addr) s = .next s
      ∧ (∀ snp m data, gateOpened s = false → exec (.memRd a addr snp) s = .next (send (.drs a addr 0 0 true (devLoad s a)) s)
        ∧ exec (.memWr a addr m data) s = .next (send (.ndr a addr 0 (devLoad s a)) s))
      ∧ (∀ snp m data (x : Nat), gateOpened s = true → (nodeOf addr ≠ nodeNumber s ∧ x = 1 ∨ nodeOf addr = nodeNumber s ∧ agentFor s a (offOf addr) = none ∧ x = 4) →
        exec (.memRd a addr snp) s = .next (answerVoid a addr (.rd snp) (protectionRec (.agent a) addr x s))
        ∧ exec (.memWr a addr m data) s = .next (answerVoid a addr (.wr m) (protectionRec (.agent a) addr x s)))
      ∧ (∀ snp m data st, gateOpened s = true → nodeOf addr = nodeNumber s → agentFor s a (offOf addr) = some st →
        (isWindow (offOf addr) = true ∨ ((extRec s (extOf (offOf addr))).state ≠ 0 ∧ (extRec s (extOf (offOf addr))).stall = st)) → cv s 0x1040 3 st = 0 →
        exec (.memRd a addr snp) s = .next (noStanding st a (send (.drs a addr 0 0 true (devLoad s a)) s))
        ∧ exec (.memWr a addr m data) s = .next (noStanding st a (send (.ndr a addr 0 (devLoad s a)) s))
        ∧ exec (.memInv a addr) s = .next (noStanding st a (send (.ndr a addr 0 (devLoad s a)) s))))

/-- Admission: of a stall whose standing booking has ended the agent's oldest waiting request is answered by R65; on a port the booking
does not lie on since the last boundary it waits, and while the round's lines of its stall are used; one that needs no fill takes a line
of the round and goes to the directory in order; one that needs a fill is held back where the round's misses are used, and otherwise
takes a line and a miss, and the frame of its line, which is filled; where there is no frame to take it waits for its bound.
A line's transaction ends when its answer is acknowledged; a request not served by its bound is answered without data and
goes, and so does one still waiting where its stall has no standing booking (R65). Nothing happens where there is none, or before the
bound. -/
def Obligations.CxlRequestsAreServed : Prop :=
  (
    ∀ (s : State) (a : Nat) (ue : Bool),
      (s.coh.reqs.find? (fun r => r.agent == a && r.phase == 0) = none → exec (.cxlMemAdmit ⟨a, ue⟩) s = .next s)
      ∧ ∀ r, s.coh.reqs.find? (fun r => r.agent == a && r.phase == 0) = some r →
        let used := AMap.get 0 s.gate.lineUse r.stall
        let f := offOf r.addr / 65536
        let held := bit (AMap.get 0 s.gate.standing r.stall) (r.agent / 16)
        let owner := (extRec s (extOf (offOf r.addr))).stall
        let adm : CxlReq := { r with phase := 1, admitted := now s, sectorUe := ue, flash := false }
        let taken := useMiss r.stall (useLines r.stall 1 s)
        (cv s 0x1040 3 r.stall = 0 →
          exec (.cxlMemAdmit ⟨a, ue⟩) s = .next (noStanding r.stall r.agent (dropCxl r.id (answerVoid r.agent r.addr r.op s))))
        ∧ (0 < cv s 0x1040 3 r.stall → (held = false ∨ cv s 0x1040 3 r.stall ≤ used) → exec (.cxlMemAdmit ⟨a, ue⟩) s = .next s)
        ∧ (held = true → used < cv s 0x1040 3 r.stall →
          (needsFill s r = false → exec (.cxlMemAdmit ⟨a, ue⟩) s = .next (pump (noteSnps (putAdmitted adm (useLines r.stall 1 s)))))
          ∧ (needsFill s r = true → cv s 0x1040 4 r.stall ≤ AMap.get 0 s.gate.missUse r.stall → exec (.cxlMemAdmit ⟨a, ue⟩) s = .next s)
          ∧ (needsFill s r = true → (∀ c, cframe s f = some c → c.state ≠ 3) → AMap.get 0 s.gate.missUse r.stall < cv s 0x1040 4 r.stall →
            let flash := bit (mapOf s f) 31 && !bit (mapOf s f) 30
            (∀ u, holdFrame owner f taken = some u →
              let t := fillFrame f [offOf r.addr / 16384 % 4] (if flash then act 0 r.stall 1 1 u else u)
              exec (.cxlMemAdmit ⟨a, ue⟩) s = .next (pump (noteSnps (putAdmitted { adm with flash := flash }
                (match cframe t f with | some c => setFrame f (some { c with last := curRound t }) t | none => t)))))
            ∧ (holdFrame owner f taken = none → exec (.cxlMemAdmit ⟨a, ue⟩) s
                = .next (putAdmitted { adm with flash := flash, noFrame := true } (errRec 0x80 (gaddr s (65536 * f)) 0 0xFFFF r.stall 0 false false taken))))))
  ∧ (
    ∀ s : State,
      (∀ addr r, s.coh.reqs.find? (fun r => r.phase == 3 && lineOf r == offOf addr / 64) = some r →
        exec (.cxlFlitAck addr) s = .next (noteSnps (pump (dropCxl r.id s))))
      ∧ (∀ addr, s.coh.reqs.find? (fun r => r.phase == 3 && lineOf r == offOf addr / 64) = none → exec (.cxlFlitAck addr) s = .next s)
      ∧ (∀ id r, cxlReq s id = some r → (r.phase = 1 ∨ r.phase = 2) →
        let bound := cv s 0x1040 (if r.flash then 2 else 1) r.stall
        (r.admitted + bound ≤ now s → exec (.loadBoundExpiry id) s = .next (pump (dropCxl id (answerVoid r.agent r.addr r.op s))))
        ∧ (now s < r.admitted + bound → exec (.loadBoundExpiry id) s = .next s))
      ∧ (∀ id r, cxlReq s id = some r → r.phase = 0 →
        (cv s 0x1040 3 r.stall = 0 → r.arrival + cv s 0x1040 1 r.stall ≤ now s →
          exec (.loadBoundExpiry id) s = .next (noStanding r.stall r.agent (dropCxl id (answerVoid r.agent r.addr r.op s))))
        ∧ (cv s 0x1040 3 r.stall ≠ 0 → exec (.loadBoundExpiry id) s = .next s)))

/-- The messages of the coherence protocol: BI-ConflictAck answers BIConflict; a BIRsp closes one of the agent's open BISnps of the line,
the agent's choice, which leaves the agent out of the entry (I), the entry SHARED (S) or as it is (E) where the snoop blocks the line;
one that answers no BISnp is a directory inconsistency, unless its BISnp's bound has passed; an unanswered one is closed at BI_BOUND and
not before.
Home-ordered entry: at a boundary at which every agent of the stall is clean, COHERENCE_TEST is clear and no probe is open, the
stall's directory is empty, nothing of its frames is tracked, it is HOME_ORDERED and MODE_CHANGES is one higher; while an agent
is not clean, nothing changes. -/
def Obligations.CoherenceMessages : Prop :=
  (
    ∀ (s : State) (a addr : Nat),
      let line := offOf addr / 64
      let st := homeStall s line
      (portUp s (a / 16) = true → exec (.biConflict a addr) s = .next (send (.ndr a addr 3 (devLoad s a)) s))
      ∧ (∀ x nth, (∀ y ∈ s.coh.snps, y.seen = true) → (s.coh.snps.filter (fun x => x.agent == a && x.line == line && !x.deaf))[nth]? = some x →
        let u := closeSnp x s
        let v := updCxl x.req (fun r => { r with gone := r.gone ++ [a] }) u
        (x.close = none → x.owner = 0 → u = { s with coh := { s.coh with snps := s.coh.snps.erase x } })
        ∧ (x.block = false → exec (.biRspS a ⟨addr, nth⟩) s = .next (pump u) ∧ exec (.biRspE a ⟨addr, nth⟩) s = .next (pump u) ∧ exec (.biRspI a ⟨addr, nth⟩) s = .next (pump v))
        ∧ (x.block = true → exec (.biRspE a ⟨addr, nth⟩) s = .next (pump u)
          ∧ (∀ w e, lookupWay u st (64 * line) = some w → lookupEnt u st (64 * line) = some e →
              exec (.biRspS a ⟨addr, nth⟩) s = .next (pump (if e.cluster.isSome then u else setWay w (some { e with owned := false }) u)))
          ∧ exec (.biRspI a ⟨addr, nth⟩) s = .next (pump (leaveLine a line (lineBusy v line) (match cxlReq v x.req with | some r => r.gone | none => []) v))))
      ∧ (∀ nth, (∀ y ∈ s.coh.snps, y.seen = true ∧ ¬(y.agent = a ∧ y.line = line)) →
        ((a, line) ∈ s.coh.dropped → exec (.biRspI a ⟨addr, nth⟩) s = .next s ∧ exec (.biRspS a ⟨addr, nth⟩) s = .next s ∧ exec (.biRspE a ⟨addr, nth⟩) s = .next s)
        ∧ ((a, line) ∉ s.coh.dropped → exec (.biRspI a ⟨addr, nth⟩) s = .next (dirInconsistent st a line s)
          ∧ exec (.biRspS a ⟨addr, nth⟩) s = .next (dirInconsistent st a line s) ∧ exec (.biRspE a ⟨addr, nth⟩) s = .next (dirInconsistent st a line s)))
      ∧ (∀ x, (∀ y ∈ s.coh.snps, y.seen = true) → s.coh.snps.find? (fun x => x.agent == a && x.line == line) = some x → now s < x.tick + biBound s →
        exec (.biTimeout a addr) s = .next s)
      ∧ (∀ x, s.coh.snps = [x] → x.seen = true → x.agent = a → x.line = line → x.tick + biBound s ≤ now s → s.coh.reqs = [] → s.coh.waits = [] →
        x.block = false → x.close = none → cv s 0x9200 2 st = 0 →
        ∃ t, exec (.biTimeout a addr) s = .next t ∧ t.coh.snps = [] ∧ (a, line) ∈ t.coh.dropped))
  ∧ (
    ∀ (s : State) (st : Nat), homeOrdered s st = false → st < 256 →
      (atBoundary s = true → stallLive s st = true → cv s 0x5000 2 st = 0 → (∀ a ∈ agentsOf s st, cv s 0x5010 3 a = 1) →
        (∀ x ∈ s.coh.snps, homeStall s x.line ≠ st) →
        ∃ t, exec (.homeOrderedEntry st) s = .next t ∧ homeOrdered t st = true ∧ cv t 0x5000 3 st = cv s 0x5000 3 st + 1
          ∧ (∀ w d, AMap.get none t.coh.dir w = some d → d.stall ≠ st)
          ∧ (∀ f, (extRec s (f / 16384)).stall = st → AMap.get 0 t.store.tracked f = 0)
          ∧ ((∀ l ∈ s.fab.lc, l.owned = true → homeStall s l.line ≠ st) →
            t = { s with cat := t.cat, coh := { s.coh with dir := t.coh.dir }, store := { s.store with tracked := t.store.tracked } }))
      ∧ (∀ a ∈ agentsOf s st, cv s 0x5010 3 a ≠ 1 → exec (.homeOrderedEntry st) s = .next s))

/-- The five component commands and the CDAT read of a port that is UP are answered, to an LD the port has, and change nothing
else; what a payload holds is CXL's and free here (log entry 11). To any other nothing is answered. -/
def Obligations.ComponentCommandsAreAnswered : Prop :=  ∀ (s : State) (p ld : Nat), running s = true → p < 8 →
    let sends := fun (ld command operand : Nat) =>
      { s with freeCtr := s.freeCtr + 1, sent := s.sent ++ [.mailbox p ld command (Config.mailboxData command operand s.freeCtr)] }
    (portUp s p = true → ld < cv s 0x9010 4 p →
      exec (.identifyMemoryDevice p ld) s = .next (sends ld 0x4000 0) ∧ exec (.getSupportedLogs p ld) s = .next (sends ld 0x0400 0)
      ∧ (∀ off len, exec (.getLog p ld off len) s = .next (sends ld 0x0401 (off * 2 ^ 32 + len)))
      ∧ exec (.getHealthInfo p ld) s = .next (sends ld 0x4200 0)
      ∧ (∀ addr len, exec (.getPoisonList p ld addr len) s = .next (sends ld 0x4300 (addr * 2 ^ 64 + len))))
    ∧ (portUp s p = true → 0 < cv s 0x9010 4 p → ∀ handle, exec (.cdatRead p handle) s = .next (sends 0 0 handle))
    ∧ (portUp s p = false → ∀ handle off len addr, exec (.identifyMemoryDevice p ld) s = .next s ∧ exec (.getSupportedLogs p ld) s = .next s
      ∧ exec (.getLog p ld off len) s = .next s ∧ exec (.getHealthInfo p ld) s = .next s ∧ exec (.getPoisonList p ld addr len) s = .next s
      ∧ exec (.cdatRead p handle) s = .next s)

/-- The I3C target: ENTDAA and SETDASA (from its static address) give it an address where it has none, RSTDAA takes it; SETMWL and
SETMRL take lengths of 69 to 255 bytes; ENEC and DISEC are accepted and enable nothing; Set Endpoint ID takes the IDs of MCTP
endpoints. -/
def Obligations.I3cTarget : Prop :=  ∀ s : State, running s = true →
    let addressed := fun (d : Nat) => { s with port := { s.port with i3cDyn := d } }
    (∀ d, s.port.i3cDyn = 0 → 0 < d → d < 128 → exec (.entdaa d) s = .next (addressed d) ∧ exec (.setdasa (cv s 0x9020 2) d) s = .next (addressed d))
    ∧ (∀ d x, s.port.i3cDyn ≠ 0 → exec (.entdaa d) s = .next s ∧ exec (.setdasa x d) s = .next s)
    ∧ (∀ d x, x ≠ cv s 0x9020 2 → exec (.setdasa x d) s = .next s)
    ∧ exec .rstdaa s = .next (addressed 0)
    ∧ (∀ m, exec (.enec m) s = .next s ∧ exec (.disec m) s = .next s)
    ∧ (∀ n, 69 ≤ n → n ≤ 255 → exec (.setmwl n) s = .next { s with port := { s.port with mwl := n } }
      ∧ exec (.setmrl n) s = .next { s with port := { s.port with mrl := n } })
    ∧ (∀ n, (n < 69 ∨ 255 < n) → exec (.setmwl n) s = .next s ∧ exec (.setmrl n) s = .next s)
    ∧ (∀ n, 8 ≤ n → n ≤ 254 → exec (.setEndpointId n) s = .next { s with port := { s.port with eid := n } })

/-! ## The catalogue: the commands that are single writes -/

/-- An extent is granted to an ACTIVE stall with room in its quota, backed or pinned, where it is FREE and the store has room:
OPEN with the next grant number. One that is not FREE is refused BUSY, and counted as a refused write. -/
def Obligations.ExtentGrant : Prop :=  ∀ (s : State) (rq : Requester) (v : Nat), WriteReaches s rq 0x4010 1 0 v →
    let e := bits v 19 0
    let st := bits v 31 24
    let backed := bit v 22
    e < extLimit → stallState s st = 1 →
    ((extRec s e).state = 0 → extCount s st < cv s 0x4011 3 st → (if backed then backedGranted s < backedCapacity s else 1 ≤ pinnedAvailable s) →
      exec (.extentGrant rq v) s = .next (answer rq 0 OK [] (touchExt e
        { state := 1, backed := backed, stall := st, grant := s.ext.grants, frames := grantFrames s backed }
        { s with ext := { s.ext with grants := s.ext.grants + 1 } })))
    ∧ ((extRec s e).state ≠ 0 → ∃ q, exec (.extentGrant rq v) s = .next (answer rq 0 BUSY [] (noteRefusal q BUSY s)))

/-- EXTENT_REVOKE takes any OPEN extent to CLOSING, whoever owns it and with no tally; it is refused with BUSY where the extent is
not OPEN, where DRAINS_ACTIVE equals DRAIN_LIMIT, and where stall 0 cannot book the sweep (R35). -/
def Obligations.ExtentRevoke : Prop :=  ∀ (s : State) (rq : Requester) (e : Nat), WriteReaches s rq 0x4010 2 0 e →
    let busy := fun (t : State) => ∃ q, t = answer rq 0 BUSY [] (noteRefusal q BUSY s)
    (∀ b u, (extRec s e).state = 1 → drainsActive s < 1024 → closeExtent e 0xFFFF s = some (b, u) →
      exec (.extentRevoke rq e) s = .next (answer rq 0 OK [] u) ∧ (extRec u e).state = 2 ∧ (extRec u e).closeTally = 0xFFFF)
    ∧ ((extRec s e).state ≠ 1 → ∃ t, exec (.extentRevoke rq e) s = .next t ∧ busy t)
    ∧ (drainsActive s = 1024 → ∃ t, exec (.extentRevoke rq e) s = .next t ∧ busy t)
    ∧ (closeExtent e 0xFFFF s = none → ∃ t, exec (.extentRevoke rq e) s = .next t ∧ busy t)

/-- STALL_CREATE makes an UNUSED stall other than stall 0 ACTIVE, with AGENT_CLEAN clear for its agents; STALL_REMOVE takes an
ACTIVE one to DRAINING with admissions held; stall 0 is neither created nor removed.
A party's consent is the write of a client context, and the Gate's to accept: the state its bookings go on from holds it; one
withdrawn begins the pact's end.
Every row of one catalogue write, where a client context makes it, is the Gate's decision of the context's oldest request, a
CAT_WRITE of that address and value; where that request is another, nothing happens. -/
def Obligations.StallsAndConsents : Prop :=
  (
    ∀ (s : State) (rq : Requester) (st : Nat), st < 256 →
      (WriteReaches s rq 0x3000 2 0 st → 0 < st → stallState s st = 0 →
        ∃ u, exec (.stallCreate rq st) s = .next (answer rq 0 OK [] u) ∧ stallState u st = 1 ∧ (∀ a ∈ agentsOf s st, cv u 0x5010 3 a = 0) ∧ u = { s with cat := u.cat })
      ∧ (WriteReaches s rq 0x3000 3 0 st → 0 < st → stallState s st = 1 →
        ∃ u, exec (.stallRemove rq st) s = .next (answer rq 0 OK [] u) ∧ stallState u st = 2 ∧ cv u 0x1010 5 st = 1)
      ∧ (WriteReaches s rq 0x3000 2 0 0 → ∃ q, exec (.stallCreate rq 0) s = .next (answer rq 0 INVALID [] (noteRefusal q INVALID s)))
      ∧ (WriteReaches s rq 0x3000 3 0 0 → ∃ q, exec (.stallRemove rq 0) s = .next (answer rq 0 INVALID [] (noteRefusal q INVALID s))))
  ∧ (
    ∀ (s : State) (c p v : Nat), v ≤ 1 → ∀ x ∈ [(Instr.consentA (.ctx c) p v, 6), (Instr.consentB (.ctx c) p v, 7)],
      let fits := carries s 0x3040 x.2 p 0 (leBytes 1 v)
      (∀ a u q, GateAccepts fits c s a u q → ∃ w, exec x.1 s = .next w ∧ cv w 0x1011 1 a.stall = cv u 0x1011 1 a.stall + 1 ∧ a ∉ w.gate.intake
        ∧ w = { u with cat := w.cat, gate := { u.gate with intake := u.gate.intake.filter (· != a), nextRid := q.rid + 1, joints := w.gate.joints,
                                                           lastDecision := AMap.set none u.gate.lastDecision a.stall (some (decTick s a.stall)) } })
      ∧ (∀ a cls cmds t, oldest s c = some a → fits a = true → screen a s = .inl (cls, cmds, t) →
        cv t 0x3040 x.2 p = v
        ∧ (v = 0 → cv s 0x3040 x.2 p = 1 → (cv s 0x3040 8 p = 1 ∨ cv s 0x3040 8 p = 2) → cv t 0x3040 8 p = 3)
        ∧ ((v = 1 ∨ cv s 0x3040 x.2 p = 0) → cv t 0x3040 8 p = cv s 0x3040 8 p)))
  ∧ (
    ∀ (s : State) (c k v : Nat),
      let rq := Requester.ctx c
      let rows : List (Instr × Nat × Nat × Nat × Nat) := [(.deviceReset rq v, 0xC010, 1, 0, v), (.oppCeiling rq v, 0x2030, 2, 0, v), (.extentGrant rq v, 0x4010, 1, 0, v),
        (.extentRevoke rq v, 0x4010, 2, 0, v), (.stallCreate rq v, 0x3000, 2, 0, v), (.stallRemove rq v, 0x3000, 3, 0, v), (.consentA rq k v, 0x3040, 6, k, v),
        (.consentB rq k v, 0x3040, 7, k, v), (.commit rq v, 0xF001, 1, 0, v), (.discard rq v, 0xF003, 1, 0, v), (.regionOwner rq k v, 0x4020, 1, k, v),
        (.tableOwner rq k v, 0x7100, 1, k, v), (.collOwner rq k v, 0x7900, 1, k, v), (.collActivate rq k, 0x7900, 2, k, 1), (.collDeactivate rq k, 0x7900, 2, k, 0),
        (.retireRequest rq k v, 0x7900, 28, k, v), (.restockNow rq k v, 0x7900, 26, k, v), (.agentStall rq k v, 0x5010, 1, k, v), (.agentClean rq k v, 0x5010, 3, k, v),
        (.coherenceTest rq k v, 0x5000, 2, k, v), (.contextEnable rq k, 0x9100, 10, k, 1), (.contextDisable rq k, 0x9100, 10, k, 0), (.admitHold rq k v, 0x1010, 5, k, v),
        (.injectionAllowed rq v, 0xB020, 1, 0, v), (.fwUpdateVerify rq, 0xA010, 2, 0, 1), (.fwUpdateHandoff rq, 0xA010, 2, 0, 2), (.fwUpdateClear rq, 0xA010, 2, 0, 3)]
      ∀ x ∈ rows, ∀ r, entryOf x.2.1 x.2.2.1 x.2.2.2.1 = some r → x.2.2.2.2 < 256 ^ r.len →
        let fits := carries s x.2.1 x.2.2.1 x.2.2.2.1 0 (leBytes r.len x.2.2.2.2)
        (∀ a, oldest s c = some a → fits a = true → exec x.1 s = exec (.catWrite c) s)
        ∧ ((∀ a, oldest s c = some a → fits a = false) → exec x.1 s = .next s))

/-- Owners: a write of REGION_OWNER, TABLE_OWNER or COLL_OWNER resets the object and gives it to the stall named; a region with a
version in use is BUSY. COLL_STATE starts a collection whose areas fit, with slot 0 current, and stops one that nothing uses;
RESTOCK_NOW is remembered, and a retirement of two live records waits in the collection's list. -/
def Obligations.OwnersAndCollections : Prop :=  ∀ (s : State) (rq : Requester) (k o : Nat),
    (WriteReaches s rq 0x4020 1 k o → (∀ x ∈ (regionOf s k).slots, x.2.2 = 0) → ∃ u, exec (.regionOwner rq k o) s = .next (answer rq 0 OK [] u)
      ∧ u.ext.regions = AMap.set {} s.ext.regions k {} ∧ cv u 0x4020 1 k = o ∧ u = { s with cat := u.cat, ext := { s.ext with regions := u.ext.regions } })
    ∧ (WriteReaches s rq 0x7100 1 k o → ∃ u, exec (.tableOwner rq k o) s = .next (answer rq 0 OK [] u)
      ∧ u.emb = { s.emb with tables := AMap.set {} s.emb.tables k {} } ∧ cv u 0x7100 1 k = o ∧ u = { s with cat := u.cat, emb := u.emb })
    ∧ (WriteReaches s rq 0x7900 1 k o → ∃ u, exec (.collOwner rq k o) s = .next (answer rq 0 OK [] u)
      ∧ u.colls = AMap.set {} s.colls k {} ∧ cv u 0x7900 1 k = o ∧ u = { s with cat := u.cat, colls := u.colls })
    ∧ (WriteReaches s rq 0x7900 2 k 1 → cActive s k = false → collInRange s k = true → areasFit s k = true →
      ∃ u, exec (.collActivate rq k) s = .next (answer rq 0 OK [] u) ∧ cActive u k = true ∧ collOf u k = { slots := [(1, 0, 0), (0, 0, 0)] }
        ∧ cv u 0x7900 0x11 k = 0 ∧ u = { s with cat := u.cat, colls := u.colls })
    ∧ (WriteReaches s rq 0x7900 2 k 0 → (∀ x ∈ (collOf s k).slots, x.2.1 = 0) → collNamed s k = false → (collOf s k).restock = 0 →
      exec (.collDeactivate rq k) s = .next (answer rq 0 OK [] (cvSet 0x7900 2 k 0 s)))
    ∧ (WriteReaches s rq 0x7900 26 k 1 → exec (.restockNow rq k 1) s = .next (answer rq 0 OK [] (setColl k { collOf s k with nowFlag := true } s)))
    ∧ (∀ c a, c < 2 ^ 22 → a < 2 ^ 22 → c ≠ a → c < cN s k → a < cN s k → WriteReaches s rq 0x7900 28 k (c + a * 2 ^ 32) →
      (dirRow s k (collOf s k).cur c).state ≠ 1 → (dirRow s k (collOf s k).cur a).state ≠ 1 → (collOf s k).retireQ = [] →
      exec (.retireRequest rq k (c + a * 2 ^ 32)) s = .next (answer rq 0 OK [] (setColl k { collOf s k with retireQ := [(c, a)] } s)))

/-- Agents and coherence: AGENT_STALL binds an agent that no entry names and that has no request to a stall whose bookings reach
its port; AGENT_CLEAN ends the dropping of its late writes; COHERENCE_TEST takes the stall to OWNER_ORDERED. -/
def Obligations.AgentsAndCoherence : Prop :=  ∀ (s : State) (rq : Requester) (k st : Nat),
    (WriteReaches s rq 0x5010 1 k st → st < 256 → agentLines s k = 0 → (∀ r ∈ s.coh.reqs, r.agent = k → r.phase = 3) →
      ((standingPorts s st).contains (k / 16) = true ∨ standingFits s st (k / 16) = true) →
      ∃ u, exec (.agentStall rq k st) s = .next (answer rq 0 OK [] u) ∧ agentStall u k = st ∧ (agentStall s k ≠ st → cv u 0x5010 3 k = 0)
        ∧ u = { s with cat := u.cat })
    ∧ (WriteReaches s rq 0x5010 3 k 1 → ∃ u, exec (.agentClean rq k 1) s = .next (answer rq 0 OK [] u) ∧ cv u 0x5010 3 k = 1
      ∧ (∀ x ∈ u.coh.dropped, x.1 ≠ k) ∧ u = { s with cat := u.cat, coh := { s.coh with dropped := u.coh.dropped } })
    ∧ (WriteReaches s rq 0x5000 2 k 1 → k < 256 → ∃ u, exec (.coherenceTest rq k 1) s = .next (answer rq 0 OK [] u) ∧ cv u 0x5000 2 k = 1
      ∧ homeOrdered u k = false ∧ u.coh.dir = s.coh.dir ∧ u.coh.reqs = s.coh.reqs)
    ∧ (WriteReaches s rq 0x5000 2 k 0 → exec (.coherenceTest rq k 0) s = .next (answer rq 0 OK [] (cvSet 0x5000 2 k 0 s)))

/-- A client context is enabled where it has a stall, a port and rings of whole entries, aligned, in pinned memory or over the
die-to-die link with a PASID no other enabled context there has; it is disabled, and the entries it has not taken are gone, when it holds no tracking entry and no reserved
slot, and is BUSY before. -/
def Obligations.ContextsAreEnabledAndDisabled : Prop :=  ∀ (s : State) (rq : Requester) (c : Nat),
    let st := ctxStall s c
    let n := cv s 0x9100 3 c
    let m := cv s 0x9100 5 c
    (WriteReaches s rq 0x9100 10 c 1 → (ctxOf s c).state = 0 → st < 256 → 0 < n → 0 < m → cv s 0x9100 2 c % (64 * n) = 0 → cv s 0x9100 4 c % (32 * m) = 0 →
      (ctxPort s c < 128 ∧ pinnedRange s st (cv s 0x9100 2 c) (64 * n) = true ∧ pinnedRange s st (cv s 0x9100 4 c) (32 * m) = true
        ∨ ctxPort s c = 128 ∧ ∀ e ∈ s.ctxs, e.1 ≠ c → e.2.state ≠ 0 → ctxPort s e.1 = 128 → cv s 0x5810 6 e.1 ≠ cv s 0x5810 6 c) →
      exec (.contextEnable rq c) s = .next (answer rq 0 OK [] (setCtx c { state := 1 } s)))
    ∧ (WriteReaches s rq 0x9100 10 c 0 → (ctxOf s c).state ≠ 0 → ctxIdle s c = true → (ctxOf s c).reserved = 0 →
      exec (.contextDisable rq c) s = .next (answer rq 0 OK [] (setCtx c { ctxOf s c with state := 0 } s)))
    ∧ (WriteReaches s rq 0x9100 10 c 0 → ctxIdle s c = false →
      ∃ q, exec (.contextDisable rq c) s = .next (answer rq 0 BUSY [] (noteRefusal q BUSY s)))

/-- The writes of the device itself: ADMIT_HOLD; a fault injection armed, its count restarted, where injection is allowed, and none
where it is not; INJECTION_ALLOWED; a ceiling on the operating point, deferred to the boundary; a device reset 2,560 ticks on. -/
def Obligations.DeviceWrites : Prop :=  ∀ (s : State) (rq : Requester) (k v : Nat),
    (WriteReaches s rq 0x1010 5 k v → exec (.admitHold rq k v) s = .next (answer rq 0 OK [] (cvSet 0x1010 5 k v s)))
    ∧ (∀ d, d < 0x18 → WriteReaches s rq (0xB100 + d) 1 k v → cv s 0xB020 1 = 1 → ∃ u, exec (.injectArm rq d k v) s = .next (answer rq 0 OK [] u)
      ∧ cv u (0xB100 + d) 1 k = v ∧ u.err = { s.err with armCount := AMap.set 0 s.err.armCount (d * 256 + k) 0 })
    ∧ (∀ d, d < 0x18 → WriteReaches s rq (0xB100 + d) 1 k v → cv s 0xB020 1 = 0 → armMode v ≠ 0 →
      ∃ q, exec (.injectArm rq d k v) s = .next (answer rq 0 PROTECTION [] (noteRefusal q PROTECTION s)))
    ∧ (WriteReaches s rq 0xB020 1 0 1 → exec (.injectionAllowed rq 1) s = .next (answer rq 0 OK [] (cvSet 0xB020 1 0 1 s)))
    ∧ (WriteReaches s rq 0x2030 2 0 v → ceilingBusy s v = false → exec (.oppCeiling rq v) s = .next (answer rq 0 OK [] (deferWrite 0x2030 2 0 v s)))
    ∧ (WriteReaches s rq 0xC010 1 0 v → exec (.deviceReset rq v) s
        = .next (answer rq 0 OK [] { s with clk := { s.clk with resetDue := some (now s + 2560) } }))

/-- DISCARD sets every shadow of the group to its value in effect and raises STAGE_SERIAL by one; while the group is PENDING it
gives BUSY (R450). -/
def Obligations.Discard : Prop :=  ∀ (s : State) (rq : Requester) (g : Nat), WriteReaches s rq 0xF003 1 0 g →
    (pendingGroup s g = false → ∃ u, exec (.discard rq g) s = .next (answer rq 0 OK [] u)
      ∧ (∀ idx sub inst r, idx < 65536 → sub < 256 → inst < 65536 → catRow? idx sub = some r → r.app = 3 → r.grp = g →
          cvShadow u idx sub inst = cv u idx sub inst ∧ cv u idx sub inst = cv s idx sub inst)
      ∧ cv u 0xF004 1 g = (cv s 0xF004 1 g + 1) % 2 ^ 32)
    ∧ (pendingGroup s g = true → ∃ q, exec (.discard rq g) s = .next (answer rq 0 BUSY [] (noteRefusal q BUSY s)))

/-- A COMMIT of the serial the group has is accepted; it is validated, and waits (PENDING) for the first boundary at least 256
ticks on, or fails with the lowest failing entry and changes no value; at that boundary every shadow of the group takes effect
together. What the new maps gain is swept in the rounds noted. -/
def Obligations.CommitsTakeEffect : Prop :=  ∀ s : State,
    (∀ rq g serial, g < 256 → serial < 2 ^ 24 → serial = cv s 0xF004 1 g % 2 ^ 24 → WriteReaches s rq 0xF001 1 0 (g + 256 * serial) → pendingGroup s g = false →
      AMap.get none s.cat.accepted g = none →
      exec (.commit rq (g + 256 * serial)) s = .next (answer rq 0 OK [] { s with cat := { s.cat with accepted := AMap.set none s.cat.accepted g (some (now s)) } }))
    ∧ (∀ g, (AMap.get none s.cat.accepted g).isSome →
      (lowestFailure (if g = 2 then failures2 s else failures3 s) = none → ∃ t, exec (.commitValidation g) s = .next t
        ∧ AMap.get none t.cat.pendCommit g = some (cdiv (now s + 256) 1280) ∧ t.cat.shadow = s.cat.shadow ∧ t = { s with cat := t.cat })
      ∧ (∀ st k, lowestFailure (if g = 2 then failures2 s else failures3 s) = some (st, k) → ∃ t, exec (.commitValidation g) s = .next t
        ∧ cv t 0xF002 1 g = commitStatus 3 st (keyInst k) (keySub k) (keyIdx k) ∧ t.cat.pendCommit = s.cat.pendCommit ∧ t.cat.shadow = s.cat.shadow ∧ t = { s with cat := t.cat }))
    ∧ (∀ r, AMap.get none s.cat.pendCommit 2 = some r → atBoundary s = true → r ≤ curRound s → ∃ t, exec (.commitApply 2) s = .next t
      ∧ (∀ k v, k ∉ [catKey 0xF002 1 2, catKey 0xF002 2 2] → AMap.get none s.cat.shadow k = some v → inGroup 2 k = true → AMap.wf none s.cat.shadow = true → AMap.get none t.cat.vals k = some v)
      ∧ cv t 0xF002 2 2 = now s ∧ t = { s with cat := t.cat })
    ∧ (∀ g r, AMap.get none s.cat.pendCommit g = some r → (atBoundary s = false ∨ curRound s < r) → exec (.commitApply g) s = .next s)
    ∧ ((∀ x ∈ s.cat.sweepDue, x.2.1 ≠ 9 → curRound s < x.1) → exec .mapSweep s = .next s)
    ∧ (∀ r k n, s.cat.sweepDue = [(r, k, n)] → k ≠ 9 → r ≤ curRound s →
      exec .mapSweep s = .next (sweepUnit k n { s with cat := { s.cat with sweepDue := [] } }))

/-! ## Catalogue messages and attestation over MCTP -/

/-- An MCTP catalogue message, where the device serves it, is answered: a READ with the bytes of the value asked for, a WRITE with its
status, an INFO with the entry's descriptor; each with INVALID for an address no entry is assigned to (R7), and changing
nothing then. While nothing serves the requester, nothing is answered. -/
def Obligations.CatalogueMessages : Prop :=  ∀ (s : State) (rq : Requester) (tag flags idx sub inst off len : Nat) (data : List Byte), isMctp rq = true → served s rq idx false = some none →
    let reply := fun (st : Nat) (d : List Byte) (t : State) => { t with sent := t.sent ++ [OutMsg.mctp rq tag st d] }
    (entryOf idx sub inst = none → exec (.mctpRead rq tag flags idx sub inst off len) s = .next (reply INVALID [] s)
      ∧ exec (.mctpInfo rq tag idx sub inst) s = .next (reply INVALID [] s)
      ∧ (served s rq idx true = some none → exec (.mctpWrite rq tag flags idx sub inst off data) s = .next (reply INVALID [] s)))
    ∧ (∀ r, entryOf idx sub inst = some r → holds s rq r.priv r.inst idx inst = true →
      exec (.mctpInfo rq tag idx sub inst) s = .next (reply OK (catInfo s r idx inst) s)
      ∧ (flags = 0 → r.acc ≠ 2 → isBlob r = false → off = 0 → len = r.len → len ≤ 1024 →
        exec (.mctpRead rq tag flags idx sub inst off len) s = .next (reply OK (slice (catValue s r idx inst) 0 len) s))
      ∧ (flags = 2 → served s rq idx true = some none → writerOk rq idx sub = true → r.acc ≠ 0 → expertOk s r idx inst = true → isBlob r = false →
        off = 0 → data.length = r.len → r.len ≤ 1024 → ∀ t, writeWhole r idx inst data s = (OK, t) →
        exec (.mctpWrite rq tag flags idx sub inst off data) s = .next (reply OK [] t)))
    ∧ (∀ r, entryOf idx sub inst = some r → holds s rq r.priv r.inst idx inst = false →
      exec (.mctpInfo rq tag idx sub inst) s = .next (reply PROTECTION [] s))

/-- Identity and attestation requests over MCTP are answered: IDENTITY_READ with the public key and ENDORSEMENT from the offset;
REPORT_REQUEST takes a nonce and the next index, whose counter in the boot flash and whose fuse cover it, and REPORT_READ is BUSY
until the report is signed; a debug challenge is 16 fresh bytes and DEVICE_ID, good for one token; a token that
verifies unlocks the device from the next reset, and one that does not verify unlocks nothing.
Signing: the report that is being signed is complete once its bottom tree is built, and counted; nothing is signed while
DEBUG_STATE is OPEN. A signed report goes 78,125 rounds on. The bottom tree of the next index is built, and the one after it
from leaf index 512. -/
def Obligations.Attestation : Prop :=
  (
    ∀ (s : State) (rq : Requester) (tag : Nat), isMctp rq = true → attestServed s rq = some none →
      let reply := fun (st : Nat) (d : List Byte) (t : State) => { t with sent := t.sent ++ [OutMsg.mctp rq tag st d] }
      (∀ off len, len ≤ 1024 → exec (.identityRead rq tag off len) s = .next (reply OK (slice (Config.hssPublicKey ++ Config.endorsement) off len) s))
      ∧ (∀ nonce, nonce.length = 32 → (∀ r ∈ s.sec.reports, r.bytes ≠ none) → s.sec.lastReport = none → debugIsOpen s = false → s.sec.lifecycle ≠ 2 →
          s.sec.sigNext < 1048576 → s.sec.sigNext ≠ s.sec.reserveR →
          ∃ t, exec (.reportRequest rq tag nonce) s = .next (reply OK [] t) ∧ t.sec.sigNext = s.sec.sigNext + 1 ∧ s.sec.sigNext / 1024 < t.sec.treeFuses
            ∧ t.sec.lastReport = some (curRound s)
            ∧ t.sec.reports = s.sec.reports.filter (fun x => x.rq != rq) ++
                [{ rq := rq, body := reportBody s nonce s.sec.sigNext, q := s.sec.sigNext, bytes := none, round := curRound s }]
            ∧ t = { s with sec := t.sec })
      ∧ (∀ off len, len ≤ 1024 → (∀ r ∈ s.sec.reports, r.rq = rq → r.bytes = none) → exec (.reportRead rq tag off len) s = .next (reply BUSY [] s))
      ∧ (∀ off len r b, len ≤ 1024 → s.sec.reports.find? (fun r => r.rq == rq && decide (curRound s < r.round + 78125)) = some r → r.bytes = some b →
          exec (.reportRead rq tag off len) s = .next (reply OK (slice b off len) s))
      ∧ (∃ t c, exec (.debugChallenge rq tag) s = .next (reply OK c t) ∧ t.sec.challenge = some c ∧ c.drop 16 = deviceId ∧ c.length = 16 + deviceId.length
          ∧ t = { s with sec := { s.sec with challenge := some c }, freeCtr := t.freeCtr })
      ∧ (∀ token,
          let slot := leNat (slice token 48 4)
          let key := slice token 2560 56
          let ok := token.length == 2616 && (s.sec.challenge == some (token.take 48)) && decide (slot < 4) && !bit s.sec.revoked slot
            && sha256 key == Config.vendorKeyHash slot && lmsVerify key (token.take 52) (slice token 52 2508) && s.sec.lifecycle != 2
          exec (.debugToken rq tag token) s = .next (if ok then reply OK [] { s with sec := { s.sec with challenge := none, unlock := true } }
            else reply PROTECTION [] { s with sec := { s.sec with challenge := none } }))
      ∧ (∀ token, s.sec.challenge ≠ some (token.take 48) → exec (.debugToken rq tag token) s
          = .next (reply PROTECTION [] { s with sec := { s.sec with challenge := none } })))
  ∧ (
    ∀ s : State,
      (∀ r, s.sec.reports.find? (fun r => r.bytes.isNone) = some r → debugIsOpen s = false → r.q / 1024 < s.sec.tree →
        ∃ t, exec .reportSigned s = .next t ∧ { r with bytes := some (r.body ++ Config.hssSign r.q r.body), round := curRound s } ∈ t.sec.reports
          ∧ cv t 0xA101 4 = cv s 0xA101 4 + 1 ∧ t = { s with cat := t.cat, sec := { s.sec with reports := t.sec.reports } })
      ∧ (debugIsOpen s = true → exec .reportSigned s = .next s)
      ∧ (∀ rq, ∃ t, exec (.reportDiscard rq) s = .next t ∧ t = { s with sec := { s.sec with reports := t.sec.reports } }
        ∧ ∀ r, r ∈ t.sec.reports ↔ r ∈ s.sec.reports ∧ (r.rq ≠ rq ∨ r.bytes = none ∨ curRound s < r.round + 78125))
      ∧ (debugIsOpen s = false → s.sec.tree < 1024 → (s.sec.tree ≤ s.sec.sigNext / 1024 ∨ (s.sec.tree = s.sec.sigNext / 1024 + 1 ∧ 512 ≤ s.sec.sigNext % 1024)) →
        exec .bottomTreeBuild s = .next { s with sec := { s.sec with tree := s.sec.tree + 1 } })
      ∧ (debugIsOpen s = true → exec .bottomTreeBuild s = .next s))

/-! ## Firmware update and recovery -/

/-- The update's writes: a FINAL segment of FW_STAGE stages an image; VERIFY begins its verification, HANDOFF of a verified image
begins its preparation where no pause, PENDING group, halted component or other handoff stands against it, and CLEAR empties
the staging area. -/
def Obligations.FirmwareWrites : Prop :=  ∀ (s : State) (rq : Requester),
    (∀ off data, (∀ c, rq ≠ .ctx c) → served s rq 0xA010 true = some none → 0 < data.length → off + data.length ≤ 1048576 → holds s rq 2 0 0xA010 0 = true →
      fwState s ≠ 2 → fwState s ≠ 5 → asmOf s { rq := rq, idx := 0xA010, sub := 1, inst := 0, off := off, len := data.length, flags := 2 } = [] → off = 0 →
      ∃ u, exec (.fwStage rq off data) s = .next (answer rq 0 OK [] u) ∧ fwState u = 1 ∧ u.fw = { s.fw with stage := data })
    ∧ (WriteReaches s rq 0xA010 2 0 1 → fwState s = 1 → halted s 0 = false → exec (.fwUpdateVerify rq) s
      = .next (answer rq 0 OK [] (setFwState 2 { s with fw := { s.fw with verifyStart := some (now s) } })))
    ∧ (WriteReaches s rq 0xA010 2 0 2 → fwState s = 3 → startPhase s ≠ 4 → devicePaused s = false → (∀ g, g < 6 → pendingGroup s g = false) →
      (∀ c, c < 19 → halted s c = false) → s.fw.phase = 0 →
      exec (.fwUpdateHandoff rq) s = .next (answer rq 0 OK [] (setFwState 5 { s with fw := { s.fw with phase := 1, accepted := curRound s } })))
    ∧ (WriteReaches s rq 0xA010 2 0 3 → fwState s ∈ [1, 3, 4, 6] → halted s 0 = false →
      exec (.fwUpdateClear rq) s = .next (answer rq 0 OK [] (setFwState 0 { s with fw := { s.fw with stage := [] } })))

/-- The stages of a handoff: verification ends VERIFIED or REJECTED; within 64 rounds the preparation ends, and after them it is
rejected with no pause; at P0 the admission pause starts, with ADMISSION_PAUSE_END 399,360 ticks on; SEC restarts in place.
The components move one at a boundary in the order of R471, the component due first; once all have moved and SEC has
restarted, the reopening ends the pause: DONE, with the staged image in effect and HANDOFFS one higher. A rollback returns the
last component moved, one at a boundary. -/
def Obligations.HandoffsMoveComponents : Prop :=
  (
    ∀ s : State,
      (∀ r, fwState s = 2 → verifyImage s s.fw.stage (cv s 0xA000 4) = r → ∃ t, exec .verifyDone s = .next t ∧ fwState t = (if r = 1 then 3 else 4)
        ∧ cv t 0xA010 4 = r ∧ t.fw = { s.fw with verifyStart := none }
        ∧ (r = 1 → cv t 0xA010 5 = slotVersion (.image s.fw.stage) ∧ cv t 0xA010 6 = leNat (sha256 s.fw.stage)))
      ∧ (s.fw.phase = 1 → curRound s < s.fw.accepted + 64 → exec .prepareEnd s = .next { s with fw := { s.fw with phase := 2 } })
      ∧ (s.fw.phase = 1 → s.fw.accepted + 64 ≤ curRound s → exec .prepareEnd s = .next s)
      ∧ (s.fw.phase = 1 → s.fw.accepted + 64 ≤ curRound s → fwState s = 5 → ∃ t, exec .prepareTimeout s = .next t ∧ fwState t = 4 ∧ cv t 0xA010 4 = 7
        ∧ t.fw.phase = 0 ∧ devicePaused t = devicePaused s)
      ∧ (s.fw.phase = 2 → atBoundary s = true → ∃ t, exec .admissionPauseStart s = .next t ∧ devicePaused t = true ∧ cv t 0x1020 2 = now s + 399360
        ∧ t.fw.phase = 3 ∧ t.fw.p0 = curRound s)
      ∧ (s.fw.phase = 3 → s.fw.secDone = false → ∃ t, exec .secRestart s = .next t ∧ t.fw.secDone = true ∧ halted t 0 = false))
  ∧ (
    ∀ s : State, atBoundary s = true → fwState s = 5 →
      (∀ c i rest, s.fw.phase = 3 → moveOrder.zipIdx.filter (fun x => decide (moveRound s x.2 ≤ curRound s) && !(comp s x.1).moved) = (c, i) :: rest →
        ∃ t, exec .componentMove s = .next t ∧ (comp t c).moved = true ∧ ∀ d, d ≠ c → comp t d = comp s d)
      ∧ (s.fw.phase = 3 → allMoved s = true → s.fw.secDone = true → s.fw.p0 + 19 ≤ curRound s → cv s 0x1020 2 ≤ now s →
        ∃ t, exec .admissionsReopen s = .next t ∧ fwState t = 6 ∧ devicePaused t = false ∧ t.fw.inEffect = .image s.fw.stage ∧ t.sec.bootPending = true
          ∧ cv t 0xA000 5 = cv s 0xA000 5 + 1 ∧ cv t 0xA000 3 = cv s 0xA000 4)
      ∧ (∀ c, s.fw.phase = 4 → s.fw.accepted ≠ curRound s → (moveOrder.filter (fun c => (comp s c).moved)).getLast? = some c →
        ∃ t, exec .handoffRollback s = .next t ∧ t.fw.accepted = curRound s
          ∧ t.fw.comps = AMap.set {} s.fw.comps c { comp s c with moved := false, halted := false, missed := false })
      ∧ (s.fw.phase = 4 → s.fw.accepted = curRound s → exec .handoffRollback s = .next s))

/-- A component that misses its watchdog deadline or makes a refused access halts on its core and is counted; a recovery handoff
begins where none is under way, and one that faults again within 64 rounds of its restart stays halted for good. -/
def Obligations.ComponentFaults : Prop :=  ∀ (s : State) (c addr : Nat), running s = true → c < 19 → halted s c = false →
    (∃ t, exec (.watchdog c) s = .next t ∧ halted t c = true ∧ (comp t c).missed = true ∧ (comp t c).fault = some (curRound s))
    ∧ (∃ t, exec (.fwProtection c addr) s = .next t ∧ halted t c = true ∧ (comp t c).fault = some (curRound s))
    ∧ ((comp s c).restart = none → fwState s ≠ 5 → s.fw.phase = 0 →
      ∃ t, exec (.fwProtection c addr) s = .next t ∧ t.fw.phase = 1 ∧ c ∈ t.fw.recovering ∧ t.fw.accepted = curRound s)
    ∧ (∀ r, (comp s c).restart = some r → curRound s ≤ r + 64 → ∃ t, exec (.fwProtection c addr) s = .next t ∧ startPhase t = 5 ∧ t.fw.recovering = s.fw.recovering)
    ∧ (∀ d, 19 ≤ d → exec (.watchdog d) s = .next s ∧ exec (.fwProtection d addr) s = .next s)

/-! ## The Gate -/

/-- ENTRY_FETCH reads the next request of the stall's rotation, one entry every four ticks: its entries are taken from the context's
queue and counted, and the request arrives among the undecided ones with a ring slot reserved. Where no context has one ready, or
too soon, nothing happens. A queue read that fails halts the context. -/
def Obligations.EntriesAreFetched : Prop :=  ∀ (s : State) (st c : Nat), running s = true → gateOpened s = true →
    let n := (requestOf s c).length
    let pos := (ctxOf s c).cqTaken.toNat
    (nextCtx s st = none → exec (.entryFetch st) s = .next s)
    ∧ (∀ t0, nextCtx s st = some c → AMap.get none s.gate.lastFetch st = some t0 → t0 ≤ now s → now s < t0 + 4 * n → exec (.entryFetch st) s = .next s)
    ∧ (∀ t, nextCtx s st = some c → (∀ t0, AMap.get none s.gate.lastFetch st = some t0 → t0 + 4 * n ≤ now s) →
      readAll c ((List.range n).map (fun i => (pos + i) % 2 ^ 32)) s = (false, t) → (undecided t st).length < 16 →
      ((requestOf s c).length ≠ 1 ∨ ∀ e ∈ requestOf s c, knownOp (Entry.opcode e) = true) →
      ∃ v, exec (.entryFetch st) s = .next v ∧ v.gate.intake = t.gate.intake ++ [{ ctx := c, stall := st, tick := now t, pos := pos, entries := requestOf s c }]
        ∧ (ctxOf v c).cqTaken = (ctxOf t c).cqTaken + BitVec.ofNat 32 n ∧ (ctxOf v c).reserved = (ctxOf t c).reserved + 1
        ∧ cv v 0x9110 1 c = cv t 0x9110 1 c + n ∧ AMap.get none v.gate.lastFetch st = some (now t))
    ∧ ((ctxOf s c).state = 1 → (ctxOf s c).cqTail ≠ (ctxOf s c).cqTaken →
      ∃ t, exec (.queueFetch c) s = .next t ∧ t = haltCtx c pos s ∧ (ctxOf t c).state = 2)

/-- A request of each form that passes every check and can be booked is accepted: it leaves the undecided requests, its stall's
decision is noted, the count of acceptances rises by one, and the state is that of its bookings otherwise. -/
def Obligations.GateAcceptsRequests : Prop :=  ∀ (s : State) (c : Nat),
    let accepted := fun (i : Instr) (fits : Arrival → Bool) => ∀ a u q, GateAccepts fits c s a u q →
      ∃ v, exec i s = .next v ∧ cv v 0x1011 1 a.stall = cv u 0x1011 1 a.stall + 1 ∧ a ∉ v.gate.intake
        ∧ v = { u with cat := v.cat, gate := { u.gate with intake := u.gate.intake.filter (· != a), nextRid := q.rid + 1, joints := v.gate.joints,
                                                           lastDecision := AMap.set none u.gate.lastDecision a.stall (some (decTick s a.stall)) } }
    accepted (.chain c) isChain ∧ accepted (.gatherBags c) (isOp 0x01) ∧ accepted (.search c) (isOp 0x02) ∧ accepted (.insertVectors c) (isOp 0x03)
    ∧ accepted (.deleteVectors c) (isOp 0x04) ∧ accepted (.runSegment c) (isOp 0x05) ∧ accepted (.copy c) (isOp 0x06) ∧ accepted (.barrow c) (isOp 0x07)
    ∧ accepted (.publish c) (isOp 0x08) ∧ accepted (.tableSwitch c) (isOp 0x09) ∧ accepted (.setSwitch c) (isOp 0x0A) ∧ accepted (.tallyWait c) (isOp 0x0B)
    ∧ accepted (.tallyAdd c) (isOp 0x0C) ∧ accepted (.fence c) (isOp 0x0D) ∧ accepted (.invalidateXlate c) (isOp 0x0E) ∧ accepted (.extentClose c) (isOp 0x0F)
    ∧ accepted (.catRead c) (isCat s 0x80) ∧ accepted (.catWrite c) (isCat s 0x81) ∧ accepted (.catInfo c) (isCat s 0x82)

/-- A request that fails a check is refused at its decision with the status and detail of the first check it fails; one with a part
on another node that passes the checks asks for it and stays undecided; one of another form, or whose stall may not decide at this
tick (R55), waits. -/
def Obligations.GateRefusesRequests : Prop :=  ∀ (s : State) (c : Nat) (a : Arrival), oldest s c = some a → running s = true → gateOpened s = true →
    let rows : List (Instr × (Arrival → Bool)) := [(.chain c, isChain), (.gatherBags c, isOp 0x01), (.search c, isOp 0x02), (.insertVectors c, isOp 0x03),
      (.deleteVectors c, isOp 0x04), (.runSegment c, isOp 0x05), (.copy c, isOp 0x06), (.barrow c, isOp 0x07), (.publish c, isOp 0x08),
      (.tableSwitch c, isOp 0x09), (.setSwitch c, isOp 0x0A), (.tallyWait c, isOp 0x0B), (.tallyAdd c, isOp 0x0C), (.fence c, isOp 0x0D),
      (.invalidateXlate c, isOp 0x0E), (.extentClose c, isOp 0x0F), (.catRead c, isCat s 0x80), (.catWrite c, isCat s 0x81), (.catInfo c, isCat s 0x82)]
    ∀ p ∈ rows,
      (p.2 a = false ∨ mayDecide s a.stall = false → exec p.1 s = .next s)
      ∧ (p.2 a = true → mayDecide s a.stall = true →
        (∀ x d t, screen a s = .inr (x, d, t) → ∃ n v, exec p.1 s = .next v ∧ v = refuse a n x d t ∧ a ∉ v.gate.intake)
        ∧ (∀ cls cmds t, screen a s = .inl (cls, cmds, t) → (∃ k ∈ cmds, remoteCmd s k = true) → exec p.1 s = .next (postQueries a cls cmds s)))

/-- Parts start at their slots: one that may start, with its wait met, is marked and its work begins; with its wait not met it ends
BUSY; one that may not start yet does not. A deferred TALLY_ADD or PUBLISH does its work at its admission check; a set's switch
begins with its window. -/
def Obligations.PartsStart : Prop :=  ∀ (s : State) (rid i : Nat) (q : Req) (c : Cmd), reqOf s rid = some q → cmdOf s rid i = some c →
    let busy := fun (t : State) => endCmd rid i BUSY (tallyVal s c.waitTally % 2 ^ 32) false t
    (mayStart s q c = false → exec (.partStart rid i) s = .next s ∧ exec (.deferredAdmissionCheck rid i) s = .next s)
    ∧ (mayStart s q c = true → c.deferred = false → (∀ a b d e f, c.work ≠ .setSwitch a b d e f) →
      (waitMet s c = true → exec (.partStart rid i) s = .next (startWork q i c (markStarted q i s)))
      ∧ (waitMet s c = false → exec (.partStart rid i) s = .next (busy (markStarted q i s))))
    ∧ (mayStart s q c = true → c.deferred = true →
      (waitMet s c = false → exec (.deferredAdmissionCheck rid i) s = .next (busy (markStarted q i s)))
      ∧ (∀ k n, waitMet s c = true → c.work = .tallyAdd k n →
        exec (.deferredAdmissionCheck rid i) s = .next (endCmd q.rid i OK 0 false (advance q.stall k n (markStarted q i s))))
      ∧ (∀ g k expect base, waitMet s c = true → c.work = .publish g k expect base → firstFail (publishChecks (markStarted q i s) q.stall g expect base) = none →
        exec (.deferredAdmissionCheck rid i) s
          = .next (endCmd q.rid i OK ((expect + 1) % 2 ^ 32) false (publish q.stall q.ctx g k expect base (markStarted q i s)))))
    ∧ (∀ set n x y z, q.cmds = [c] → c.work = .setSwitch set n x y z → mayStart s q c = true → waitMet s c = true →
      exec (.setSwitchWindow rid) s = .next (markSet q.stall set (markStarted q 0 s)))

/-- Parts end: a command whose work is done ends OK; a transfer's part ends once its bytes are there, its snoops closed and its last
line reads back; a side command commits at the end of its last slot, with its sequence number, its count and its packet, and one that
failed has what it wrote void. A part that has not done its work when its last slot ends is stopped, and one that meets a fault ends
with it. -/
def Obligations.PartsEnd : Prop :=  ∀ (s : State) (rid i : Nat) (q : Req) (c : Cmd), reqOf s rid = some q → cmdOf s rid i = some c →
    (∀ k, workDone s q i c = true → (∀ x, c.work ≠ .xfer x) → exec (.partComplete rid i k) s = .next (endCmd rid i OK c.detail false s))
    ∧ (∀ k, workDone s q i c = false → (∀ x, c.work ≠ .xfer x) → exec (.partComplete rid i k) s = .next s)
    ∧ (∀ k x t, c.work = .xfer x → c.started = true → c.status = none → k < partCount x.count → bit c.parts k = false → remoteDst s x = false →
      min ((k + 1) * partSize x.count) x.count ≤ c.delivered → (∀ p ∈ partPieces s q.ctx x k, snpsOpen s (offOf p.1) p.2 = false) →
      (let last := (partPieces s q.ctx x k).getLastD (x.dst, 1)
       hbmRange q.stall q.ctx ((offOf last.1 + last.2 - 1) / 64 * 64) 64 true s = (none, t)) →
      exec (.partComplete rid i k) s = .next (finishXfer q i x (updCmd rid i (fun c => { c with parts := setBit c.parts k true }) t)))
    ∧ (∀ k x, c.work = .xfer x → remoteDst s x = false → c.delivered < min ((k + 1) * partSize x.count) x.count → exec (.partComplete rid i k) s = .next s)
    ∧ (∀ del u tally n array seq virt, c.work = .side del u tally n array seq virt →
      let s1 := cvSet 0x7900 0x11 u seq s
      (slotEndTick c.endSlot ≤ now s → cSeq s u < seq → cSeq s1 u = seq
        ∧ (c.started = true → c.status = none → exec (.sideCommit rid i) s = .next (countBytes q i
            (updCmd rid i (fun c => { c with status := some OK, detail := 0, delivered := 1, endRound := curRound s })
              (cvAdd 0x7A00 (if del then 5 else 4) q.stall c.detailAlt s1))))
        ∧ (c.status ≠ none → exec (.sideCommit rid i) s = .next (voidSeq u seq s1)))
      ∧ (now s < slotEndTick c.endSlot ∨ seq ≤ cSeq s u → exec (.sideCommit rid i) s = .next s))
    ∧ (c.status = none → c.deferred = false → slotEndTick c.endSlot ≤ now s →
      (servedAll s q i c = false → exec (.calOverrun rid i) s = .next (overrun rid i (pathStatus s c) false false s))
      ∧ (∀ t, servedAll s q i c = true → inject 0x0B rid q.stall (!armed s 0x0B q.stall) s = (none, t) → exec (.calOverrun rid i) s = .next t))
    ∧ (now s < slotEndTick c.endSlot → exec (.calOverrun rid i) s = .next s)
    ∧ (c.started = true → c.status = none → ∀ k loc,
      exec (.partFault rid i k (.sramUe loc)) s
        = .next (endAt rid i k FAULT_MEMORY 0 false (cvAdd 0x6020 2 q.stall 1 (detectRec 0x02 loc 0 q.ctx q.stall FAULT_MEMORY false s)))
      ∧ exec (.partFault rid i k (.ldpc loc)) s
        = .next (endAt rid i k FAULT_MEMORY 0 false (cvAdd 0x4040 9 0 1 (detectRec 0x04 loc 0 q.ctx q.stall FAULT_MEMORY false s)))
      ∧ exec (.partFault rid i k (.sramCe loc)) s = .next (detect 0x03 s)
      ∧ exec (.partFault rid i k (.hbmCe loc)) s = .next (hbmCe (offOf loc) q.stall s)
      ∧ (loc < 2 ^ 64 → exec (.partFault rid i k (.hbmUe loc)) s
        = .next (endAt rid i k FAULT_MEMORY 0 false (hbmUe (offOf loc) q.ctx q.stall FAULT_MEMORY s)))
      ∧ (∀ cause, exec (.partFault rid i k (.translation loc cause)) s = .next (endAt rid i k FAULT_TRANSLATION ((xlateFault q.stall q.ctx loc cause s).1 % 2 ^ 32)
        false (xlateFault q.stall q.ctx loc cause s).2))
      ∧ (∀ cause, exec (.partFault rid i k (.link loc cause)) s
        = .next (endAt rid i k FAULT_LINK 0 false (if linkUp s loc then linkFailed loc cause false s else s))))
    ∧ (c.started = false → ∀ k x, exec (.partFault rid i k x) s = .next s)

/-- The completion record: a request whose commands have all ended, and whose record may be written (R61, R126, R184), has what it
holds released and its record written, its bytes counted before; one that failed has the chits of the later rounds refunded and is
counted; a part held for a peer sends its message in place of a record; a channel takes its outcome; one whose record may not be
written yet waits. -/
def Obligations.CompletionRecords : Prop :=  ∀ (s : State) (rid : Nat) (q : Req),
    let u := settleReq rid s
    let counted := fun (p : Req) => (List.range p.cmds.length).foldl (fun t i => countBytes p i t) u
    reqOf u rid = some q →
    (chainFailed q = false → allOver q = true → mayRecord u q = true → reqStatus q = OK → q.peerTicket = none →
      let v := releaseReq q (counted q)
      let w := writeRecord q.stall q.ctx (reqRecord v q) v
      (∀ r ∈ w.gate.reqs, r.rid ≠ q.rid)
      ∧ exec (.completionRecord rid) s = .next (match q.chan with
          | some n => channelDone n q.promise (reqParts q) (reqStatus q) (sumOf (q.cmds.map (·.delivered))) w
          | none => w))
    ∧ (chainFailed q = false → allOver q = false ∨ mayRecord u q = false → exec (.completionRecord rid) s = .next u)
    ∧ (chainFailed q = true →
      let p := abandon (fun _ => true) q
      let v := releaseReq p (cvAdd 0x1011 6 p.stall 1 (refundLater p (counted p)))
      allOver p = true → mayRecord u p = true → reqStatus p ≠ OK → p.peerTicket = none → p.chan = none →
        exec (.completionRecord rid) s = .next (writeRecord p.stall p.ctx (reqRecord v p) v))
    ∧ (∀ ticket, chainFailed q = false → allOver q = true → mayRecord u q = true → reqStatus q = OK → q.peerTicket = some ticket →
      exec (.completionRecord rid) s = .next (releaseReq q (tellOrigin q (counted q))))

/-! ## Joint bookings -/

/-- A query for a part that lies here is answered at its stall's decision: with the first check it fails and nothing booked, or with OK,
D, the interval to its promise, and the rate of its slots, the part then held with its bookings; one for a third node is refused
where the node is no relay. At the origin a refusal in a reply refuses the request, an OK that is not the last is noted; a query
without a reply by its bound refuses it with FAULT_LINK. The rate in the reply is the model's choice (log entry 104). -/
def Obligations.BookingQueriesAndReplies : Prop :=  ∀ (s : State) (l : Nat) (m : QueryMsg), running s = true → gateOpened s = true → mayDecide s m.stall = true →
    let dt := decTick s m.stall
    let a := (dt + confirmHold s) / 1280
    let n := nodeNumber s
    (linkUp s l = true → jointAt s m.ticket false = none →
      (nodeOf m.src = n ∨ nodeOf m.dst = n →
        (∀ x d, heldChecks s m = .bad x d → exec (.bookingQuery l m) s
          = .next { noteDecision m.stall dt s with sent := s.sent ++ [.reply l m.ticket x (refusalD x d dt) 0] })
        ∧ (∀ c t q, heldChecks s m = .good c →
          bookHeld { rid := s.gate.nextRid, cmd := 0, stall := m.stall, bulk := m.cls == 2, maxR := heldLast s m a } l dt a c (heldReq m dt c s) (a + 1) (placePeer m) s = .inr (t, q) →
          ∃ v, exec (.bookingQuery l m) s = .next v ∧ v = holdPart l m dt q t
            ∧ v.sent = t.sent ++ [.reply l m.ticket OK (q.promise - now t) (partRate v q.rid)]
            ∧ v.gate.nextRid = q.rid + 1 ∧ v.gate.books = t.gate.books))
      ∧ (nodeOf m.src ≠ n → nodeOf m.dst ≠ n → cv s 0x8120 2 ≠ 1 → exec (.bookingQuery l m) s = .next (replyRefused l m PROTECTION 0 dt s)))
    ∧ (∀ j st d rate, jointAt s m.ticket true = some j → j.rid = 0 → j.replied = false → jointAt s m.ticket false = none →
      now s ≤ j.sent + 2 * jointTb s j + 150 → mayDecide s j.q.stall = true →
      let j' := { j with replied := true, replyTick := now s, status := st, d := d, rate := rate }
      let s1 := setJoint m.ticket true (fun _ => j') s
      ∀ b, arrivalOf s1 j' = some b →
        (st ≠ OK → ∃ k, exec (.bookingReply m.ticket st ⟨d, rate⟩) s = .next (refuse b k st (peerRetry s j st d (decTick s b.stall)) s))
        ∧ (st = OK → (∃ k ∈ jointsOf s1 b, k.replied = false) → exec (.bookingReply m.ticket st ⟨d, rate⟩) s = .next s1))
    ∧ (∀ j b, jointAt s m.ticket true = some j → j.rid = 0 → j.replied = false → j.sent + 2 * jointTb s j + 150 < now s →
      jointAt s m.ticket false = none → arrivalOf s j = some b → ∃ k, exec (.replyTimeout m.ticket) s = .next (refuse b k FAULT_LINK j.node s))
    ∧ (∀ j, jointAt s m.ticket true = some j → now s ≤ j.sent + 2 * jointTb s j + 150 → exec (.replyTimeout m.ticket) s = .next s)

/-- A peer that receives no confirmation within CONFIRM_HOLD ticks of its reply withdraws its booking, and nothing of the part runs
(R81): no booking and no request of it is left, and its joint booking is gone. Before, and once confirmed, it stays. -/
def Obligations.ConfirmHoldExpiry : Prop :=  ∀ (s : State) (ticket : Nat) (j : Joint), jointAt s ticket false = some j →
    (∀ q, j.replied = true → j.confirmed = false → j.replyTick + confirmHold s < now s → reqOf s j.rid = some q →
      ∃ t, exec (.confirmHoldExpiry j.q.origin ticket) s = .next t ∧ (∀ b ∈ t.gate.books, b.rid ≠ q.rid) ∧ (∀ r ∈ t.gate.reqs, r.rid ≠ q.rid)
        ∧ (∀ k ∈ t.gate.joints, k.ticket ≠ ticket))
    ∧ (now s ≤ j.replyTick + confirmHold s → exec (.confirmHoldExpiry j.q.origin ticket) s = .next s)
    ∧ (j.confirmed = true → exec (.confirmHoldExpiry j.q.origin ticket) s = .next s)

/-- A confirmation within the hold confirms the part at a peer; a part's completion message ends the origin's command by the peer's
bitmap, bytes and status where the destination is there; a message after the bound is discarded, and from the bound the part ends with
FAULT_LINK naming the peer. -/
def Obligations.JointPartsEnd : Prop :=  ∀ (s : State) (ticket : Nat) (j : Joint),
    (jointAt s ticket false = some j → j.rid ≠ 0 → j.confirmed = false → now s ≤ j.replyTick + confirmHold s → jointAt s ticket true = none →
      exec (.bookingConfirmation j.q.origin ticket) s = .next (setJoint ticket false (fun j => { j with confirmed := true }) s))
    ∧ (jointAt s ticket false = some j → j.replyTick + confirmHold s < now s → exec (.bookingConfirmation j.q.origin ticket) s = .next s)
    ∧ (jointAt s ticket true = some j → j.rid ≠ 0 → j.done = false →
      let s1 := setJoint ticket true (fun j => { j with done := true }) s
      (∀ q c x parts bytes status, now s ≤ j.bound → reqOf s1 j.rid = some q → cmdOf s1 j.rid j.cmd = some c → c.status = none → c.work = .xfer x →
        (remoteDst s x = true → exec (.partCompletionMessage ticket parts bytes status) s = .next (endFromPeer q j.cmd x (parts % 2 ^ 16) bytes status s1))
        ∧ (remoteDst s x = false → status = OK → exec (.partCompletionMessage ticket parts bytes status) s = .next (finishXfer q j.cmd x s1)))
      ∧ (∀ c, cmdOf s1 j.rid j.cmd = some c → c.status = none → j.bound ≤ now s →
        exec (.jointBoundExpiry ticket) s = .next (endCmd j.rid j.cmd FAULT_LINK j.node false (updCmd j.rid j.cmd (fun c => { c with parts := 0, started := true }) s1)))
      ∧ (∀ parts bytes status, j.bound < now s → exec (.partCompletionMessage ticket parts bytes status) s = .next s)
      ∧ (now s < j.bound → exec (.jointBoundExpiry ticket) s = .next s))

/-! ## The windows -/

/-- A whole 8-byte write to a part of the windows that its accessor reaches: a doorbell takes CQ_TAIL and CR_HEAD where they lie in
their ranges; a channel's register takes the value, and CTRL its fields, with GO a request of the accessor's context; a tally's ADD
adds and its VALUE replaces the value and clears OVERFLOW, before the advances of the same tick.
A write to the windows that its accessor does not reach is dropped whole with one PROTECTION record; before the Gate opens every
write is dropped with none. -/
def Obligations.WindowAccesses : Prop :=
  (
    ∀ (s : State) (src : Accessor) (v : Word64), gateOpened s = true →
      (∀ c, c < 16384 → ownsPage s src c = true →
        exec (.doorbellWrite src c 0 (leBytes 8 v.toNat)) s = .next (doorbell c v.toNat s)
        ∧ (let x := ctxOf s c
           let tail : Word32 := BitVec.ofNat 32 v.toNat
           let head : Word32 := BitVec.ofNat 32 (v.toNat / 2 ^ 32)
           x.state = 1 → (tail - x.cqTaken).toNat ≤ cv s 0x9100 3 c → (x.crWritten - head).toNat ≤ (x.crWritten - x.crHead).toNat →
           doorbell c v.toNat s = setCtx c { x with cqTail := tail, crHead := head } s))
      ∧ (∀ st n, n < 256 → accStall s src = some st → ownsChan s st n = true → ¬(1 ≤ moverState (moverOf s n) ∧ moverState (moverOf s n) ≤ 3) →
        exec (.moverGo src n v) s = .next (writeCtrl n (v ||| 1).toNat (accCtx s src) s)
        ∧ exec (.registerWrite src n 0 v) s = .next (setMover n { moverOf s n with src := v } s)
        ∧ exec (.registerWrite src n 8 v) s = .next (setMover n { moverOf s n with dst := v } s)
        ∧ exec (.registerWrite src n 16 v) s = .next (setMover n { moverOf s n with count := v } s)
        ∧ exec (.registerWrite src n 24 v) s = .next (writeCtrl n (v.toNat / 2 * 2) (accCtx s src) s))
      ∧ (∀ st n, n < 256 → accStall s src = some st → ownsChan s st n = true → 1 ≤ moverState (moverOf s n) → moverState (moverOf s n) ≤ 3 →
        exec (.registerWrite src n 0 v) s = .next (errRec 0x82 n 0 0xFFFF (chanStall s n) 0 false false s))
      ∧ (∀ st k, k < 16384 → accStall s src = some st → reachesTally s st k = true →
        exec (.tallyAddWrite src k v) s = .next (tallyAddSoft st k v.toNat s)
        ∧ exec (.tallyValueWrite src k v) s = .next (tallySet k v s)
        ∧ (tickSum s k = 0 → tallySet k v s = setTally k { tallyOf s k with value := v, overflow := false } s)))
  ∧ (
    ∀ (s : State) (src : Accessor) (v : Word64) (c n k : Nat),
      (gateOpened s = false → (∀ off data, exec (.doorbellWrite src c off data) s = .next s) ∧ exec (.moverGo src n v) s = .next s
        ∧ (∀ off, exec (.registerWrite src n off v) s = .next s) ∧ exec (.tallyAddWrite src k v) s = .next s ∧ exec (.tallyValueWrite src k v) s = .next s)
      ∧ (gateOpened s = true → c < 16384 → ownsPage s src c = false →
        exec (.doorbellWrite src c 0 (leBytes 8 v.toNat)) s = .next (protectionRec src (gaddr s (windowBase + 4096 * c)) 3 s))
      ∧ (∀ st, gateOpened s = true → k < 16384 → accStall s src = some st → reachesTally s st k = false →
        exec (.tallyAddWrite src k v) s = .next (protectionRec src (gaddr s (tallyOff k 1)) 3 s)
        ∧ exec (.tallyValueWrite src k v) s = .next (protectionRec src (gaddr s (tallyOff k 0)) 3 s)))

/-! ## Porters -/

/-- PORTER_INSTRUCTION runs the instruction the porter stands at: 32 bits fetched as two halves, or a compressed one expanded; an
exception in the fetch, or of an instruction that is none, halts the porter. It completes for an instruction in the porter's own
memory, in its stall's pages and with no bad word. A porter that does not run executes nothing. The base instruction set is that of
RISC-V, which the spec names and does not repeat (log entry 35). -/
def Obligations.PorterInstructions : Prop :=  ∀ (s : State) (p : Nat),
    let pc := (porterOf s p).pc.toNat
    let addi := fun (i : Instr) (w : Nat) (v : State) => w % 128 = 0x13 → bits w 14 12 = 0 →
      let u := loadUse p w v
      let x := porterOf u p
      exec i s = .next (retire p (bits w 11 7) ((rget x (bits w 19 15) + sx 12 (bits w 31 20)) % 2 ^ 32) (x.pc.toNat + 4) 1 u)
    let lui := fun (i : Instr) (w : Nat) (v : State) => w % 128 = 0x37 →
      let u := loadUse p w v
      exec i s = .next (retire p (bits w 11 7) (bits w 31 12 * 4096) ((porterOf u p).pc.toNat + 4) 1 u)
    let own := fun (a : Nat) => tcmOk s p a = true ∧ s.mem.ueWords.contains ((tcmBase p + a) / 8) = false
    (porterLive s p = false → exec (.porterInstruction p) s = .next s)
    ∧ (porterLive s p = true →
      (∀ lo hi u v, fetchHalf p pc s = (.val lo, u) → lo % 4 = 3 → fetchHalf p ((pc + 2) % 2 ^ 32) u = (.val hi, v) →
        let w := lo + hi * 2 ^ 16
        exec (.porterInstruction p) s = .next (op32 p 4 w (loadUse p w v))
        ∧ addi (.porterInstruction p) w v ∧ lui (.porterInstruction p) w v)
      ∧ (∀ lo u w, fetchHalf p pc s = (.val lo, u) → lo % 4 ≠ 3 → expandC lo = some w → exec (.porterInstruction p) s = .next (op32 p 2 w (loadUse p w u)))
      ∧ (∀ lo u, fetchHalf p pc s = (.val lo, u) → lo % 4 ≠ 3 → expandC lo = none → exec (.porterInstruction p) s = .next (porterTrap p (illegal lo) u))
      ∧ (∀ e u, fetchHalf p pc s = (.trap e, u) → exec (.porterInstruction p) s = .next (porterTrap p e u))
      ∧ (pc % 2 = 0 → pc + 4 ≤ 0x10000 → own pc → own (pc + 2) → armed s 0x02 (porterOf s p).stall = false → armed s 0x03 0 = false →
        let lo := leNat (readTcm s p pc 2)
        let w := lo + leNat (readTcm s p (pc + 2) 2) * 2 ^ 16
        (lo % 4 = 3 → exec (.porterInstruction p) s = .next (op32 p 4 w (loadUse p w s)) ∧ addi (.porterInstruction p) w s ∧ lui (.porterInstruction p) w s)
        ∧ (∀ c, lo % 4 ≠ 3 → expandC lo = some c → exec (.porterInstruction p) s = .next (op32 p 2 c (loadUse p c s)))))

/-- The tile-control instructions of a porter that runs: acquire, release, tally wait and tally add over all lines or a range, the
predicate write and the drain of its store buffer. Each completes, with the pc 4 on, the instructions counted and its worst-case
cycles added, where its scope names lines of the store, its tally is reached by the stall, its column is one of the part's, and no
back-invalidation its writes caused is open. A release waits for those; the others trap.
TC.TWAIT ends: with 1 once its tally reaches the target within its bound, and at its bound with 0 where the tally has not been
reached in time; before, the porter waits. -/
def Obligations.TileControlAndTallyWaits : Prop :=
  (
    ∀ (s : State) (p rd rs1 rs2 : Nat), porterLive s p = true →
      let cached := fun (u : State) (l : LcLine) => l.cluster == porterCluster p && l.stall == (porterOf u p).stall
      let lines := fun (u : State) (ls : List Nat) => 1 ≤ rget (porterOf u p) rs2 ∧ rget (porterOf u p) rs2 ≤ 64 ∧ ls.length = rget (porterOf u p) rs2
        ∧ ∀ i l, ls[i]? = some l → ∃ ga byp, placeOf p (rget (porterOf u p) rs1 / 64 * 64 + 64 * i) false u = (.line ga byp, u) ∧ offOf ga / 64 = l
      let written := fun (own : List LcLine) (v : State) => own.foldl (fun t l => storeWrite (64 * l.line) (leBytes 64 l.data.toNat) t) v
      (let u := loadUse p (tileWord 0 0 0 0 0) s
       exec (.tcAcqAll p) s = .next (retired p 16 (setLc (u.fab.lc.filter (fun l => !(cached u l && !l.owned))) u)))
      ∧ (let u := loadUse p (tileWord 1 rs2 rs1 0 0) s
         ∀ ls, lines u ls → exec (.tcAcqRange p rs1 rs2) s
           = .next (retired p (4 + ls.length) (setLc (u.fab.lc.filter (fun l => !(cached u l && !l.owned && ls.contains l.line))) u)))
      ∧ (let u := loadUse p (tileWord 0 0 0 1 0) s
         let v := drainAll p u
         (porterSnps v p = false → exec (.tcRelAll p) s
           = .next (retired p (releaseTicks u * cyclesPerTick u) (written (v.fab.lc.filter (fun l => cached u l && l.owned)) v)))
         ∧ (porterSnps v p = true → exec (.tcRelAll p) s = .next v)
         ∧ ((porterOf u p).sb = [] → v = u))
      ∧ (let u := loadUse p (tileWord 1 rs2 rs1 1 0) s
         let v := drainAll p u
         ∀ ls, lines u ls → porterSnps v p = false → exec (.tcRelRange p rs1 rs2) s
           = .next (retired p (releaseTicks u * cyclesPerTick u) (written (v.fab.lc.filter (fun l => cached u l && l.owned && ls.contains l.line)) v)))
      ∧ (let u := loadUse p (tileWord 0 rs2 rs1 2 rd) s
         let x := porterOf u p
         (rs2 % 2 = 0 → reachesTally u x.stall (rget x rs1) = true → exec (.tcTwait p rd rs1 rs2) s
           = .next (retired p 4 (setPorter p { x with run := 3, tw := some (rd, rget x rs1, pget x rs2, now u) } u)))
         ∧ (rs2 % 2 = 0 → reachesTally u x.stall (rget x rs1) = false → exec (.tcTwait p rd rs1 rs2) s
           = .next (porterTrap p (accessFault false (rget x rs1)) u))
         ∧ (rs2 % 2 = 1 → exec (.tcTwait p rd rs1 rs2) s = .next (porterTrap p (illegal (tileWord 0 rs2 rs1 2 rd)) u)))
      ∧ (let u := loadUse p (tileWord 0 rs2 rs1 3 0) s
         let x := porterOf u p
         (reachesTally u x.stall (rget x rs1) = true → exec (.tcTadd p rs1 rs2) s = .next (retired p 2 (advance x.stall (rget x rs1) (rget x rs2) u)))
         ∧ (reachesTally u x.stall (rget x rs1) = false → exec (.tcTadd p rs1 rs2) s = .next (porterTrap p (accessFault true (rget x rs1)) u)))
      ∧ (∀ col v, let u := loadUse p 0x73 s
         (col < 8 → (partColumns u p).contains col = true → exec (.predCsrWrite p col v) s = .next (retired p 1 (setPred (porterCluster p) col v.toNat u)))
         ∧ (8 ≤ col ∨ (partColumns u p).contains col = false → ∃ e, exec (.predCsrWrite p col v) s = .next (porterTrap p e u)))
      ∧ (∀ e rest, (porterOf s p).sb = e :: rest → exec (.storeBufferDrain p) s
         = .next (writeEntryHome p (porterOf s p) e (setPorter p { porterOf s p with sb := rest } s))))
  ∧ (
    ∀ (s : State) (p rd tally target start : Nat), (porterOf s p).tw = some (rd, tally, target, start) → (porterOf s p).run = 3 →
      let bound := (AMap.get 0 (porterOf s p).csrs 0x808).toNat
      let elapsed := (now s - start) * cyclesPerTick s
      let ends := fun (v : Nat) => { rset rd v (porterOf s p) with run := 1, tw := none }
      (reached s tally target = true → elapsed ≤ bound → exec (.twaitSatisfied p) s = .next (setPorter p (ends 1) s))
      ∧ (reached s tally target = false ∨ bound < elapsed → exec (.twaitSatisfied p) s = .next s)
      ∧ (bound ≤ elapsed → exec (.twaitBoundExpiry p) s
        = .next (setPorter p { ends (if elapsed < bound + cyclesPerTick s ∧ reached s tally target = true then 1 else 0) with cycle := (porterOf s p).cycle + bound } s))
      ∧ (elapsed < bound → exec (.twaitBoundExpiry p) s = .next s))

/-- The atomics of a porter, on 4 or 8 bytes at the address in rs1: rd takes the value read and the operation's result is written. One
that runs far on a line of a pinned extent, with no holder, nothing waiting and no bad byte, completes: rd takes the old bytes, the
new ones stand at the address and every other byte of the store is unchanged. A doubleword with an odd register pair, and a
doubleword floating-point add, are illegal. -/
def Obligations.PorterAtomics : Prop :=  ∀ (s : State) (p rd rs1 rs2 : Nat), porterLive s p = true →
    let free := fun (u : State) (off : Nat) =>
      let x := porterOf u p
      (x.amo = 0 ∧ x.amoAt = none ∧ (x.sb.all (fun e => e.line != off / 64)) = true ∧ u.coh.snps = [] ∧ u.coh.reqs = [] ∧ u.coh.waits = []
        ∧ (u.fab.porters.all (fun y => y.1 == p || y.2.amoAt.isNone)) = true)
      ∧ homeOrdered u x.stall = true ∧ (extRec u (extOf off)).stall = x.stall ∧ (extRec u (extOf off)).backed = false ∧ lookupEnt u x.stall off = none
      ∧ amoFar (porterCluster p) x.stall off u = true ∧ rangeBad u (64 * (off / 64)) 64 = false ∧ armed u 0x00 x.stall = false ∧ armed u 0x01 0 = false
    let amo := fun (i : Instr) (op n v want w : Nat) (put : Nat → Porter → Porter) =>
      let u := loadUse p w s
      let x := porterOf u p
      let c := atomicTicks u * cyclesPerTick u
      (∀ old t, porterAmo p op n (rget x rs1) v want u = (.val old, t) →
        let y := put old (porterOf t p)
        exec i s = .next (setPorter p { y with pc := y.pc + 4, cycle := y.cycle + c, instret := y.instret + 1 } t))
      ∧ (∀ ga byp, rget x rs1 % n = 0 → placeOf p (rget x rs1) true u = (.line ga byp, u) → free u (offOf ga) → offOf ga % 64 + n ≤ 64 →
        let old := leNat (storeRead u (offOf ga) n)
        let y := put old x
        ∃ t, exec i s = .next t ∧ porterOf t p = { y with pc := y.pc + 4, cycle := y.cycle + c, instret := y.instret + 1, amo := 0, amoAt := none }
          ∧ storeRead t (offOf ga) n = leBytes n (amoNew op n old v want)
          ∧ ∀ b, b < offOf ga ∨ offOf ga + n ≤ b → storeByte t b = storeByte u b)
    let word := fun (i : Instr) (op : Nat) =>
      let w := tileWord op rs2 rs1 4 rd
      let x := porterOf (loadUse p w s) p
      amo i op 4 (rget x rs2) (rget x rd) w (rset rd)
    let double := fun (i : Instr) (op : Nat) => rd % 2 = 0 → rs2 % 2 = 0 →
      let w := tileWord op rs2 rs1 5 rd
      let x := porterOf (loadUse p w s) p
      amo i op 8 (pget x rs2) (pget x rd) w (pset rd)
    word (.tcAmoAdd p false rd rs1 rs2) 0 ∧ word (.tcAmoSwap p false rd rs1 rs2) 1 ∧ word (.tcAmoCas p false rd rs1 rs2) 2 ∧ word (.tcAmoMin p false rd rs1 rs2) 3
    ∧ word (.tcAmoMax p false rd rs1 rs2) 4 ∧ word (.tcAmoMinu p false rd rs1 rs2) 5 ∧ word (.tcAmoMaxu p false rd rs1 rs2) 6 ∧ word (.tcAmoFadd p rd rs1 rs2) 7
    ∧ double (.tcAmoAdd p true rd rs1 rs2) 0 ∧ double (.tcAmoSwap p true rd rs1 rs2) 1 ∧ double (.tcAmoCas p true rd rs1 rs2) 2 ∧ double (.tcAmoMin p true rd rs1 rs2) 3
    ∧ double (.tcAmoMax p true rd rs1 rs2) 4 ∧ double (.tcAmoMinu p true rd rs1 rs2) 5 ∧ double (.tcAmoMaxu p true rd rs1 rs2) 6
    ∧ (rd % 2 = 1 → ∃ e u, exec (.tcAmoAdd p true rd rs1 rs2) s = .next (porterTrap p e u))

/-! ## Cluster streams -/

/-- A column begins its next span once slot START has begun, at the span's first field and with its predicates clear; a column still
at work, or a porter of its span, when slot LAST has ended is stopped with an overrun; a bank is ready once its wake time has passed. -/
def Obligations.SpansStartAndOverrun : Prop :=  ∀ (s : State) (col : Nat),
    (∀ p, nextSpan s col = some p → (colSt s col).active = false → slotBegun s (curRound s * 1024 + p.start) = true → spanOver s p = false →
      ∃ t, exec (.spanStart col) s = .next t ∧ colSt t col = { active := true, span := some p, pos := p.first, ran := [] }
        ∧ t = { s with fab := { s.fab with cols := t.fab.cols, pred := AMap.set 0 s.fab.pred col 0, movs := t.fab.movs } })
    ∧ (nextSpan s col = none → exec (.spanStart col) s = .next s)
    ∧ (∀ p, (colSt s col).span = some p → spanOver s p = true → (colSt s col).active = true ∨ porterRuns s p col = true → spanDead s p = false →
      ∃ t u, exec (.spanOverrun col) s = .next t ∧ t = overrun p.rid p.cmd FAULT_MEMORY false false u
        ∧ u.fab.cols = AMap.set {} s.fab.cols col { colSt s col with active := false } ∧ u = { s with fab := { s.fab with cols := u.fab.cols, porters := u.fab.porters } })
    ∧ (∀ p, (colSt s col).span = some p → spanOver s p = false ∨ (colSt s col).active = false ∧ porterRuns s p col = false →
      exec (.spanOverrun col) s = .next s)
    ∧ (∀ k b, bankReadyAt s k b ≠ 0 → bankReadyAt s k b ≤ now s →
      exec (.bankReady k b) s = .next { s with fab := { s.fab with ready := AMap.set 0 s.fab.ready (k * 1024 + b) 0 } })
    ∧ (∀ k b, now s < bankReadyAt s k b → exec (.bankReady k b) s = .next s)

/-- The field a column stands at, its check word good: LOADW, MAC, DRAIN and PSTART run for each of its engines where its predicate
is set, and the column moves to its next field; where the predicate is clear only the skipped engine cycles are
counted; NOP clocks what the engines' pipelines still hold. END makes the column idle and its span is counted as run. -/
def Obligations.ColumnsRunTheirFields : Prop :=  ∀ (s u : State) (col w : Nat) (p : Span), curField s col = some (p, w) → checkField (col / 8) (colSt s col).pos p s = (true, u) →
    let r := opRowOf s col (fOp w)
    let moves := fun (macs : Nat) (v : State) =>
      setCol col { colSt v col with pos := nextPos v p.stall col (colSt v col).pos, ran := ranAfter (colSt v col).ran macs (fHold w + 1) } v
    let work := fun (v : State) => act p.rid p.stall 9 (popc 4 (fEngines w) * (fHold w + 1)) v
    let starts := fun (i : Nat) (v : State) =>
      setPorter (2 * col + i)
        { run := 1, regs := (porterOf v (2 * col + i)).regs, pc := BitVec.ofNat 32 (oAddrA r % 65536), stall := p.stall, rid := p.rid, cmd := p.cmd, ctx := reqCtx v p.rid, sb := (porterOf v (2 * col + i)).sb } v
    let skip := cvAdd 0x6031 4 p.stall ((fHold w + 1) * popc 4 (fEngines w)) u
    (spanDead u p = false → predBit u col (fPred w) = true →
      (fOp w ≠ 0 → fOp w ≠ 0xFE →
        (oClass r = 1 → exec (.opLoadw col) s = .next (moves 0 (work ((setBits 4 (fEngines w)).foldl (fun t e =>
          (List.range (fHold w + 1)).foldl (fun t i => if spanDead t p then t else loadStored p col e r i true t) t) u))))
        ∧ (oClass r = 2 → exec (.opMac col) s = .next (moves (fEngines w) ((setBits 4 (fEngines w)).foldl (fun t e =>
          (List.range (fHold w + 1)).foldl (fun t i => macRepeat p col e r i t) t) u)))
        ∧ (oClass r = 3 → exec (.opDrain col) s = .next (moves 0 (work (drainRows p col r (fHold w + 1) (setBits 4 (fEngines w)) u))))
        ∧ (oClass r = 4 → ∃ t, exec (.opPstart col) s = .next t ∧
          t = moves 0 ((setBits 2 (fEngines w)).foldl (fun t i => starts i (drainAll (2 * col + i) t)) u)))
      ∧ (fOp w = 0 → exec (.opNop col) s = .next (moves 0 (act p.rid p.stall 9 (sumOf ((colSt u col).ran.map (fun n => min n (fHold w + 1)))) u))))
    ∧ (spanDead u p = false → predBit u col (fPred w) = false → fOp w ≠ 0 → fOp w ≠ 0xFE → oClass r = 2 → exec (.opMac col) s = .next (moves 0 skip))
    ∧ (fOp w = 0xFE → ∃ t, exec (.opEnd col) s = .next t
      ∧ t = (let v := cvAdd 0x6031 1 p.stall 1 u
             setCol col { colSt v col with active := false, ran := [] } v))

/-- The mover of a cluster, at a field whose row moves HBM to a bank, a bank to HBM or a bank to a bank: the bursts of the field run
in order and the mover stands at its next field; END stops its stream; a field of another direction waits for its own row. -/
def Obligations.MoversRunTheirFields : Prop :=  ∀ (s : State) (k : Nat) (p : Span), movSpan s k = some p →
    let pos := skipNops s p.stall k 16384 (movSt s k).pos
    let w := (AMap.get 0 s.fab.runB.movers (k * 2 ^ 14 + pos)).toNat
    let r := (AMap.get 0 s.fab.runB.moveRows (k * 256 + mOp w)).toNat
    let rows : List (Nat × Instr) := [(1, .moveHbmToBank k), (2, .moveBankToHbm k), (3, .moveBankToBank k)]
    ∀ x ∈ rows,
      (mOp w = 0xFE → exec x.2 s = .next (setMov k {} s))
      ∧ (mOp w ≠ 0xFE → mDir r ≠ x.1 → exec x.2 s = .next s)
      ∧ (∀ u c d, mOp w ≠ 0xFE → mDir r = x.1 → checkField k pos p s = (true, u) →
        (let t := setMov k { pos := nextPos u p.stall (8 * k) pos, rep := 1 } u
         cmdOf t p.rid p.cmd = some c → c.work = .segment d → spanDead t p = false → predBit t (8 * k) (mPred r) = true →
         exec x.2 s = .next ((List.range (mHold w + 1)).foldl (fun t' i => moveBurst k p d (roundIndex t' p.rid p.cmd d (curRound t')) r i t') t)))

/-! ## Flash -/

/-- Reads, programs and commits of the flash channels: a page read that is due is issued, of a busy LUN once it is
suspended, and its work is resumed; a write-back
whose four programs have ended commits, the frame's mapping entry naming its slot; a failed program retires the block and the
write-back is booked again; a LEAVING frame becomes EMPTY in its free round. -/
def Obligations.FlashReadsAndWritebacks : Prop :=  ∀ (s : State) (ch : Nat), ch < 64 →
    (∀ slot page, page < 4 → arrayDue s ch slot = true → let lun := lunOf s ch (slot / 256)
      (lunBusy s ch lun = false → exec (.flashArrayRead ch slot page) s = .next { s with sent := s.sent ++ [.arrayRead ch slot page] })
      ∧ (lunBusy s ch lun = true → lun ∉ (chanOf s ch).suspended → exec (.flashArrayRead ch slot page) s
          = .next { setChan ch { chanOf s ch with suspended := (chanOf s ch).suspended ++ [lun] } s with sent := s.sent ++ [.suspend ch lun, .arrayRead ch slot page] }))
    ∧ (∀ slot page, arrayDue s ch slot = false → exec (.flashArrayRead ch slot page) s = .next s)
    ∧ (∀ lun, lun ∈ (chanOf s ch).suspended → exec (.programResume ch lun) s
        = .next { setChan ch { chanOf s ch with suspended := (chanOf s ch).suspended.filter (· != lun) } s with sent := s.sent ++ [.resume ch lun] })
    ∧ (∀ lun, lun ∉ (chanOf s ch).suspended → exec (.programResume ch lun) s = .next s)
    ∧ (∀ st f w u, findWb s st f = some w → 4 ≤ w.begun → programInjected w s = (u, false) → ∃ t, exec (.writebackCommit st f) s = .next t
        ∧ t = commitWb w u ∧ mapOf t w.frame = mapEntry true w.keepLost w.slot)
    ∧ (∀ st f w, findWb s st f = some w → w.begun < 4 → exec (.writebackCommit st f) s = .next s)
    ∧ (∀ st f w, findWb s st f = some w → w.chan = ch → w.begun ≠ 0 → exec (.flashProgram ch (w.slot / 256) false st f) s
        = .next (rebookWb w true (detectRec 0x05 (flashLocator ch (w.slot / 256) (w.slot % 256 * 4 + (w.begun - 1))) 0 0xFFFF st 0 false s)))
    ∧ (∀ b st f, (blockOf s ch b).state = 3 → exec (.flashProgram ch b true st f) s
        = .next (retireWhole ch b (detectRec 0x05 (flashLocator ch b 0) 1 0xFFFF st 0 false s)))
    ∧ (∀ st f c, cframe s f = some c → c.stall = st → c.state = 3 → c.freeRound ≤ curRound s → findWb s st f = none →
        exec (.frameFree st f) s = .next (emptyFrame f s)
        ∧ (AMap.get 0 s.store.ceCount c.phys < cv s 0x4050 9 → emptyFrame f s = setFrame f none s))
    ∧ (∀ st f c, cframe s f = some c → curRound s < c.freeRound → exec (.frameFree st f) s = .next s)

/-- The log's own work: compaction takes the block with the fewest committed slots, its slots are to be relocated, or marks the channel
SHORT where committed slots fill every block; an erase that is booked ends with the block free and its erases counted; a failed
channel is FAILED; a page that LDPC recovery reads has its block retired, one it does not has its frame LOST too; a checkpoint is
valid once its last page commits; a bad region of the mapping is usable again once rebuilt. -/
def Obligations.FlashLogWork : Prop :=  ∀ (s : State) (ch : Nat), ch < 64 →
    (chanState s ch = 1 ∨ chanState s ch = 2 → cv s 0x4041 3 ch < 64 → devicePaused s = false → (chanOf s ch).rebuilt = true →
      (∀ e ∈ s.store.blocks, e.1 / 2 ^ 26 = ch → e.2.state ≠ 4) →
      (∀ b n, leastFull ((usedBlocks s ch).filter (fun x => !blockKept s ch x.1)) = some (b, n) → n < 256 →
        exec (.compaction ch) s = .next (relocateBlock ch b (setBlock ch b { blockOf s ch b with state := 4 } s)))
      ∧ ((∀ x ∈ usedBlocks s ch, 256 ≤ x.2) → exec (.compaction ch) s = .next (setChanState ch 2 s)))
    ∧ (64 ≤ cv s 0x4041 3 ch → exec (.compaction ch) s = .next s)
    ∧ (∀ b, (blockOf s ch b).state = 3 → (blockOf s ch b).erase ≤ curRound s → (blockOf s ch b).erases + 1 < cv s 0x4040 5 → chanState s ch = 1 →
      armed s 0x05 0 = false → ∃ t, exec (.blockErase ch b) s = .next t
        ∧ blockOf t ch b = { state := 0, erases := (blockOf s ch b).erases + 1, opened := 0 } ∧ cv t 0x4041 3 ch = cv s 0x4041 3 ch + 1)
    ∧ (∀ b, (blockOf s ch b).state ≠ 3 ∨ curRound s < (blockOf s ch b).erase → exec (.blockErase ch b) s = .next s)
    ∧ (chanState s ch = 1 → (∀ e ∈ s.ext.recs, e.2.backed = false) → exec (.channelFailed ch) s = .next (setChanState ch 3 s))
    ∧ (∀ slot f v last, frameAt s ch slot = some f → bookLog (chanRid ch) ch 7 0 0 s = some (v, last) →
      let note := fun (n : Nat) => errRec 0x87 (flashLocator ch (slot / 256) (slot % 256 * 4)) n 0xFFFF (extRec s (f / 16384)).stall 0 true false v
      exec (.ldpcRecovery ch slot true) s = .next (retireWhole ch (slot / 256) (note 1))
      ∧ exec (.ldpcRecovery ch slot false) s = .next (retireWhole ch (slot / 256)
          (bookRelocs (addReloc { chan := ch, frame := f, src := 0, kind := 2 } (setMap f (mapEntry false true 0) (loseFrame f 0x04 false (note 0)))))))
    ∧ (∀ slot r, frameAt s ch slot = none → exec (.ldpcRecovery ch slot r) s = .next s)
    ∧ (∀ a, (chanOf s ch).ckptArea = some a → (chanOf s ch).ckptLeft = 0 → (chanOf s ch).ckptEnd < curRound s → ∃ t, exec (.checkpointValid ch) s = .next t
        ∧ t = { s with store := { s.store with ckpt := t.store.ckpt, chans := t.store.chans } }
        ∧ t.store.chans = AMap.set {} s.store.chans ch { chanOf s ch with ckptValid := a, ckptArea := none, ckptSeq := (chanOf s ch).ckptNext })
    ∧ ((chanOf s ch).ckptArea = none ∨ (chanOf s ch).ckptLeft ≠ 0 ∨ curRound s ≤ (chanOf s ch).ckptEnd → exec (.checkpointValid ch) s = .next s)
    ∧ (∀ region, region ∉ s.store.mapBad → exec (.mapRebuild region) s = .next s)
    ∧ (∀ region, region ∈ s.store.mapBad → (∀ f, f < 64 → chanState s f ≠ 1 ∧ chanState s f ≠ 2) →
      exec (.mapRebuild region) s = .next { s with store := { s.store with mapBad := s.store.mapBad.filter (· != region) } })
    ∧ (∀ region v last, region ∈ s.store.mapBad → (∀ f, f < 64 → ((chanState s f = 1 ∨ chanState s f = 2) ↔ f = ch)) →
      bookLog (chanRid ch) ch 1 0 0 s = some (v, last) →
      exec (.mapRebuild region) s = .next { v with store := { v.store with mapBad := v.store.mapBad.filter (· != region) } })

/-! ## Extents, stalls and pacts that go -/

/-- A closing extent: with its drain tally zero before the booked start, the sweep is booked anew once, where that ends no later; it starts in its round
once the tally is zero, and at its end the extent is FREE and keeps only its grant number; a changed record reaches the flash
once its booked pages are written. A stall that drains is swept once nothing of it is left, and is UNUSED after the sweep's round. -/
def Obligations.ExtentsAndStallsAreSwept : Prop :=  ∀ (s : State) (e : Nat),
    let r := extRec s e
    (∀ rounds t, r.state = 2 → r.drain = 0 → r.rebooked = false → r.sweep ≠ [] → (∀ x ∈ r.sweep, curRound s < x) →
      bookSweep e r.backed (curRound s + 1) (dropBookings (sweepRid e) s) = some (rounds, t) →
      (maxOf rounds ≤ maxOf r.sweep → exec (.drainZero e) s
        = .next (setExt e { r with sweep := rounds, rebooked := true } (drawStall0 (sweepChit s r.backed) (refund 0 (chitSum s (sweepRid e)) t))))
      ∧ (maxOf r.sweep < maxOf rounds → exec (.drainZero e) s = .next (setExt e { r with rebooked := true } s)))
    ∧ ((r.state ≠ 2 ∨ r.drain ≠ 0 ∨ r.rebooked = true) → exec (.drainZero e) s = .next s)
    ∧ (∀ first rest, r.state = 2 → r.drain = 0 → r.sweep = first :: rest → first ≤ curRound s →
      exec (.sweepStart e) s = .next (setExt e { r with state := 3, dirty := true } s))
    ∧ (r.drain ≠ 0 → exec (.sweepStart e) s = .next s)
    ∧ (r.state = 3 → r.sweep ≠ [] → (∀ x ∈ r.sweep, x < curRound s) → r.closeTally = 0xFFFF → ∃ t, exec (.sweepEnd e) s = .next t
      ∧ t = setExt e { grant := r.grant, dirty := true } (sweepBytes e s) ∧ (extRec t e).state = 0)
    ∧ (r.state ≠ 3 ∨ r.sweep = [] → exec (.sweepEnd e) s = .next s)
    ∧ (let due := AMap.get 0 s.store.recWrites e
       (due ≠ 0 → due ≤ curRound s → ∃ t, exec (.extentRecordWrite e) s = .next t ∧ t.ext.flashRecs = AMap.set {} s.ext.flashRecs e { r with dirty := false }
         ∧ t.ext.recs = AMap.set {} s.ext.recs e { r with dirty := false } ∧ AMap.get 0 t.store.recWrites e = 0 ∧ t = { s with ext := t.ext, store := t.store })
       ∧ (due = 0 ∨ curRound s < due → exec (.extentRecordWrite e) s = .next s))
    ∧ (∀ st, st < 256 → stallState s st = 2 → atBoundary s = true → trackInUse s st = 0 → extCount s st = 0 → AMap.get 0 s.gate.lastPromise st ≤ now s → (∀ b ∈ s.gate.books, b.stall = st → b.round < curRound s) →
      exec (.stallSweepStart st) s = .next (cvSet 0x3000 1 st 3 { s with cat := { s.cat with sweepDue := s.cat.sweepDue ++ [(curRound s + 1, 9, st)] } }))
    ∧ (∀ st r, 0 < st → st < 256 → stallState s st = 3 → atBoundary s = true → (r, 9, st) ∈ s.cat.sweepDue → r ≤ curRound s →
      ∃ t, exec (.stallUnused st) s = .next t ∧ stallState t st = 0)

/-- A pact is in force from the boundary at which both consents stand and its object is its giver's; one that
ends leaves force at a boundary with the requests accepted under it noted, and is empty when they have completed. -/
def Obligations.PactsComeAndGo : Prop :=  ∀ (s : State) (p : Nat), p < 65536 →
    (cv s 0x3040 8 p = 1 → atBoundary s = true → cv s 0x3040 6 p = 1 → cv s 0x3040 7 p = 1 → pactObjectOk s p = true →
      ∃ t, exec (.pactInForce p) s = .next t ∧ t = setPact p 2 s ∧ cv t 0x3040 8 p = 2)
    ∧ ((cv s 0x3040 6 p ≠ 1 ∨ cv s 0x3040 7 p ≠ 1) → exec (.pactInForce p) s = .next s)
    ∧ (cv s 0x3040 8 p = 3 → atBoundary s = true → AMap.get [] s.err.pactEnd p = [] →
      exec (.pactLeaveForce p) s = .next { s with err := { s.err with pactEnd := AMap.set [] s.err.pactEnd p (0 :: pactReqs s p) } })
    ∧ (cv s 0x3040 8 p = 3 → AMap.get [] s.err.pactEnd p ≠ [] → (∀ r ∈ AMap.get [] s.err.pactEnd p, reqOf s r = none) →
      ∃ t, exec (.pactEmpty p) s = .next t ∧ cv t 0x3040 8 p = 0)
    ∧ (∀ r ∈ AMap.get [] s.err.pactEnd p, reqOf s r ≠ none → exec (.pactEmpty p) s = .next s)

/-! ## Restocks and translation -/

/-- A restock of a collection: at a boundary with its trigger met, no pause, its programs booked and its chit covered it starts with its
merge point at COLL_SEQ; when the last program has committed the other slot is current; and when no request pins the old slot its
side lists are drained and the restock is counted. -/
def Obligations.Restocks : Prop :=  ∀ (s : State) (u : Nat), atBoundary s = true →
    let c := collOf s u
    let st := cOwner s u
    (∀ t last, cActive s u = true → c.restock = 0 → (cv s 0x7900 0x19 u ≤ sideRecords s u ∨ c.nowFlag = true) → devicePaused s = false →
      bookRestock u c.retireQ (planRestock u (cSeq s u) c.retireQ s).1 s = some (t, last) → (chitSum t (restockRid u) : Int) ≤ balanceOf s st →
      ∃ v, exec (.restockStart u) s = .next v ∧ collOf v u = { collOf t u with restock := 1, nowFlag := false, mergePoint := cSeq s u, retireSet := c.retireQ, builtBy := last + 17 }
        ∧ v = { t with colls := v.colls, gate := v.gate })
    ∧ (c.restock ≠ 0 → exec (.restockStart u) s = .next s)
    ∧ (c.restock = 1 → c.builtBy ≤ curRound s → ∃ t, exec (.restockSwitch u) s = .next t ∧ (collOf t u).cur = 1 - c.cur ∧ (collOf t u).restock = 2)
    ∧ (curRound s < c.builtBy → exec (.restockSwitch u) s = .next s)
    ∧ (c.restock = 2 → (c.slots.getD (1 - c.cur) (0, 0, 0)).2.1 = 0 → ∃ t, exec (.restockDrain u) s = .next t
      ∧ t = (let v := (c.chains.map (·.1)).foldl (fun t n => drainChain u n t) s
             cvAdd 0x7A00 6 st 1 (setColl u { collOf v u with restock := 0, retireSet := [] } v)))
    ∧ ((c.slots.getD (1 - c.cur) (0, 0, 0)).2.1 ≠ 0 → exec (.restockDrain u) s = .next s)

/-- Translation: a booked pre-walk of a table-walking context reads its tables from its round on, and what it finds is installed; one of an
ATS context sends a Translation Request, whose completion is installed through NODE_MAP, and one unsuccessful, late or missing at
ATS_BOUND ends in an ATS_FAIL fault. An Invalidate Request queues an entry for each context of its PASID, or one that applies to nothing; at a boundary the entries that
may be applied are, the oldest first. -/
def Obligations.Translation : Prop :=  ∀ (s : State),
    (∀ rid i w c t, s.xl.walks.find? (fun w => w.rid == rid && w.index == i) = some w → w.done = false → gateOpened s = true → w.round ≤ curRound s →
      (∀ a ∈ s.xl.ats, a.walk ≠ w) → cmdOf s rid w.cmd = some c → c.status = none → (∃ k ∈ walkTargets w, tlbFind s w.ctx k w.va = none) →
      (cv s 0x5810 1 w.ctx = 2 → exec (.preWalk rid i) s = .next (send (.atsRequest s.xl.nextAts (cv s 0x5810 6 w.ctx) w.va)
        { s with xl := { s.xl with nextAts := s.xl.nextAts + 1, ats := s.xl.ats ++ [{ id := s.xl.nextAts, walk := w, issued := now s }] } }))
      ∧ (∀ g n r wr dirty, cv s 0x5810 1 w.ctx ≠ 2 →
        (let p := cv s 0x5810 2 w.ctx
         let reads := if canonical p w.va then walkReads s w.stall w.ctx w.va (if p = 0 then 3 else 4) (cv s 0x5810 3 w.ctx) else []
         walkInject w reads (cvAdd 0x5841 2 w.stall 1 (act rid w.stall 0 reads.length (walkDone w s))) = (false, t)) →
        walkLeaf t w.stall w.ctx w.va w.write = .leaf g n r wr dirty → exec (.preWalk rid i) s = .next (walkFound w g n r wr dirty (1280 * w.round) t)))
    ∧ (∀ id a, atsOf s id = some a →
      let s1 := cvAdd 0x5841 2 a.walk.stall 1 (walkDone a.walk (dropAts id s))
      (∀ p size wr rd g, now s ≤ a.issued + cv s 0x5800 6 → nodeMapped s1 a.walk.ctx (p / size * size) = some g →
        exec (.atsCompletion id (some p) size ⟨wr, rd⟩) s = .next (walkFound a.walk g size rd wr true a.issued s1))
      ∧ (∀ size wr rd, exec (.atsCompletion id none size ⟨wr, rd⟩) s = .next (walkFault a.walk ATS_FAIL false s1))
      ∧ (a.issued + cv s 0x5800 6 ≤ now s → exec (.atsBoundExpiry id) s = .next (walkFault a.walk ATS_FAIL false (walkDone a.walk (dropAts id s))))
      ∧ (now s < a.issued + cv s 0x5800 6 → exec (.atsBoundExpiry id) s = .next s))
    ∧ (∀ pasid va len, let mine := (storedInsts s 0x5810 1).filter (fun e => e.2 == 2 && cv s 0x5810 6 e.1 == pasid)
       let entry := fun (st c : Nat) =>
         ({ stall := st, va := va, len := len, ctx := c, drain := false, taken := now s, queue := false, ats := some (s.xl.nextAts, pasid) } : IqEnt)
       exec (.atsInvalidateRequest pasid va len) s = .next { s with xl := { s.xl with nextAts := s.xl.nextAts + 1, iq := s.xl.iq ++
         (if mine = [] then [entry 0 0x10000] else mine.map (fun e => entry (ctxStall s e.1) e.1)) } })
    ∧ (∀ st e, atBoundary s = true → s.xl.iq = [e] → e.stall = st → iqReady s e = true → exec (.iqApply st) s = .next (iqApplyOne e s))
    ∧ (∀ st, (atBoundary s = false ∨ ∀ e, s.xl.iq.find? (fun e => e.stall == st) = some e → iqReady s e = false) → exec (.iqApply st) s = .next s)
end

