-- ==== Sys2Proof/Laws/Maps.lean ====
section
/-! SUPPORT. The laws of sparse arrays: reading after writing, and that every operation keeps the canonical form. -/

namespace Sys2Proof

variable {α : Type}

@[simp] theorem AMap.get_nil (d : α) (k : Nat) : AMap.get d [] k = d := rfl

/-- Reading a key after writing it a value that is listed. -/
theorem AMap.get_set_same [DecidableEq α] {d v : α} (h : v ≠ d) (m : AMap α) (k : Nat) : AMap.get d (AMap.set d m k v) k = v := by
  induction m with
  | nil => simp [AMap.set, AMap.get, h]
  | cons e r ih =>
    obtain ⟨a, w⟩ := e
    simp only [AMap.set]
    split
    · simp [AMap.get]
    · split
      · simp [AMap.get, *]
      · simp only [AMap.get]
        rw [if_neg (by omega)]
        exact ih

/-- Writing one key leaves every other as it was. -/
theorem AMap.get_set_ne [DecidableEq α] (d v : α) (m : AMap α) {k j : Nat} (h : j ≠ k) : AMap.get d (AMap.set d m k v) j = AMap.get d m j := by
  induction m with
  | nil => simp only [AMap.set]; split <;> simp [AMap.get, Ne.symm h]
  | cons e r ih =>
    obtain ⟨a, w⟩ := e
    simp only [AMap.set]
    split
    · split <;> simp [AMap.get, Ne.symm h]
    · split
      · have : ¬ a = j := by omega
        split <;> simp [AMap.get, this]
      · simp only [AMap.get]; split <;> simp [ih]

theorem AMap.wfFrom_weaken [DecidableEq α] {d : α} {lo k : Nat} (hk : k ≤ lo) : ∀ {m : AMap α}, AMap.wfFrom d (some lo) m = true → AMap.wfFrom d (some k) m = true
  | [], _ => rfl
  | (a, v) :: r, h => by
    simp only [AMap.wfFrom, Bool.and_eq_true, decide_eq_true_eq] at h ⊢
    exact ⟨⟨by omega, h.1.2⟩, h.2⟩
theorem AMap.wfFrom_none [DecidableEq α] {d : α} {lo : Nat} : ∀ {m : AMap α}, AMap.wfFrom d (some lo) m = true → AMap.wfFrom d none m = true
  | [], _ => rfl
  | (a, v) :: r, h => by
    simp only [AMap.wfFrom, Bool.and_eq_true, decide_eq_true_eq] at h ⊢
    exact ⟨⟨trivial, h.1.2⟩, h.2⟩

/-- Below the least key of a canonical array nothing is listed. -/
theorem AMap.get_below [DecidableEq α] {d : α} {lo k : Nat} (hk : k ≤ lo) : ∀ {m : AMap α}, AMap.wfFrom d (some lo) m = true → AMap.get d m k = d
  | [], _ => rfl
  | (a, v) :: r, h => by
    simp only [AMap.wfFrom, Bool.and_eq_true, decide_eq_true_eq] at h
    rw [AMap.get, if_neg (by omega)]
    exact AMap.get_below (by omega) h.2

theorem AMap.wfFrom_set [DecidableEq α] {d : α} (k : Nat) (v : α) : ∀ {lo : Nat} {m : AMap α}, lo < k → AMap.wfFrom d (some lo) m = true →
    AMap.wfFrom d (some lo) (AMap.set d m k v) = true
  | lo, [], hl, _ => by
    simp only [AMap.set]; split
    · rfl
    · simp [AMap.wfFrom, *]
  | lo, (a, w) :: r, hl, h => by
    simp only [AMap.wfFrom, Bool.and_eq_true, decide_eq_true_eq] at h
    simp only [AMap.set]
    split
    · split
      · simp [AMap.wfFrom, h]
      · simp [AMap.wfFrom, *]
    · split
      · split
        · exact AMap.wfFrom_weaken (by omega) h.2
        · simp [AMap.wfFrom, h, *]
      · simp only [AMap.wfFrom, Bool.and_eq_true, decide_eq_true_eq]
        exact ⟨h.1, AMap.wfFrom_set k v (by omega) h.2⟩

/-- A write keeps the canonical form. -/
theorem AMap.wf_set [DecidableEq α] {d : α} (k : Nat) (v : α) {m : AMap α} (h : AMap.wf d m = true) : AMap.wf d (AMap.set d m k v) = true := by
  cases m with
  | nil => simp only [AMap.set]; split <;> simp [AMap.wf, AMap.wfFrom, *]
  | cons e r =>
    obtain ⟨a, w⟩ := e
    simp only [AMap.wf, AMap.wfFrom, Bool.and_eq_true, decide_eq_true_eq] at h
    simp only [AMap.set, AMap.wf]
    split
    · split <;> simp_all [AMap.wfFrom]
    · split
      · split
        · exact AMap.wfFrom_none h.2
        · simp_all [AMap.wfFrom]
      · simp only [AMap.wfFrom, Bool.and_eq_true, decide_eq_true_eq]
        exact ⟨h.1, AMap.wfFrom_set k v (by omega) h.2⟩

/-- Reading any key of a canonical array after writing one. -/
theorem AMap.get_set [DecidableEq α] {d : α} (v : α) {m : AMap α} (h : AMap.wf d m = true) (k j : Nat) :
    AMap.get d (AMap.set d m k v) j = if j = k then v else AMap.get d m j := by
  by_cases hj : j = k
  · subst hj
    rw [if_pos rfl]
    by_cases hv : v = d
    · subst hv
      induction m with
      | nil => simp [AMap.set, AMap.get]
      | cons e r ih =>
        obtain ⟨a, w⟩ := e
        simp only [AMap.wf, AMap.wfFrom, Bool.and_eq_true, decide_eq_true_eq] at h
        simp only [AMap.set]
        split
        · simp only [if_true, AMap.get]; rw [if_neg (by omega)]
          exact AMap.get_below (by omega) h.2
        · split
          · simp only [if_true]
            exact AMap.get_below (by omega) h.2
          · simp only [AMap.get]; rw [if_neg (by omega)]
            exact ih (AMap.wfFrom_none h.2)
    · exact AMap.get_set_same hv m j
  · rw [if_neg hj]; exact AMap.get_set_ne d v m hj

theorem AMap.wfFrom_filter [DecidableEq α] {d : α} (p : Nat × α → Bool) : ∀ {lo : Nat} {m : AMap α}, AMap.wfFrom d (some lo) m = true →
    AMap.wfFrom d (some lo) (m.filter p) = true
  | _, [], _ => rfl
  | lo, (a, v) :: r, h => by
    simp only [AMap.wfFrom, Bool.and_eq_true, decide_eq_true_eq] at h
    simp only [List.filter]
    split
    · simp only [AMap.wfFrom, Bool.and_eq_true, decide_eq_true_eq]
      exact ⟨h.1, AMap.wfFrom_filter p h.2⟩
    · exact AMap.wfFrom_weaken (by omega) (AMap.wfFrom_filter p h.2)

/-- Leaving entries out keeps the canonical form. -/
theorem AMap.wf_filter [DecidableEq α] {d : α} (p : Nat × α → Bool) {m : AMap α} (h : AMap.wf d m = true) : AMap.wf d (m.filter p) = true := by
  cases m with
  | nil => rfl
  | cons e r =>
    obtain ⟨a, v⟩ := e
    simp only [AMap.wf, AMap.wfFrom, Bool.and_eq_true, decide_eq_true_eq] at h
    simp only [List.filter, AMap.wf]
    split
    · simp only [AMap.wfFrom, Bool.and_eq_true, decide_eq_true_eq]
      exact ⟨h.1, AMap.wfFrom_filter p h.2⟩
    · exact AMap.wfFrom_none (AMap.wfFrom_filter p h.2)

end Sys2Proof
end

