-- ==== Sys2Proof/Laws/Catalogue.lean ====
section
/-! SUPPORT. The laws of catalogue values: reading after writing, and what a catalogue write that reaches its entry does. -/

namespace Sys2Proof.Machine
open Sys2Proof

/-- A value put into effect reads back. -/
@[simp] theorem cv_cvSet_same (i j k v : Nat) (s : State) : cv (cvSet i j k v s) i j k = v := by
  simp only [cv, cvSet]
  rw [AMap.get_set_same (by simp)]

/-- Values at other keys read as before. -/
theorem cv_cvSet_ne {i j k i' j' k' : Nat} (h : catKey i' j' k' ≠ catKey i j k) (v : Nat) (s : State) : cv (cvSet i j k v s) i' j' k' = cv s i' j' k' := by
  simp only [cv, cvSet]
  rw [AMap.get_set_ne none _ _ h]
  rfl

@[simp] theorem cv_cvAdd_same (i j k n : Nat) (s : State) : cv (cvAdd i j k n s) i j k = cv s i j k + n := cv_cvSet_same ..
theorem cv_cvAdd_ne {i j k i' j' k' : Nat} (h : catKey i' j' k' ≠ catKey i j k) (n : Nat) (s : State) : cv (cvAdd i j k n s) i' j' k' = cv s i' j' k' := cv_cvSet_ne h ..

/-- A value cleared in a canonical catalogue is its default. -/
theorem cv_cvClear_same (i j k : Nat) {s : State} (h : AMap.wf none s.cat.vals = true) : cv (cvClear i j k s) i j k = dfltOf s i j k := by
  simp only [cv, cvClear]
  rw [AMap.get_set none h, if_pos rfl]
  rfl

/-- A change of any group but the catalogue and the clocks leaves every value. -/
theorem cv_congr {s t : State} (h : t.cat = s.cat) (g : t.clk = s.clk) (i j k : Nat) : cv t i j k = cv s i j k := by
  simp only [cv, dfltOf, h, g]

/-- The bytes of a number that fits them spell it. -/
theorem leNat_leBytes : ∀ (n v : Nat), v < 256 ^ n → leNat (leBytes n v) = v
  | 0, v, h => by simp at h; simp [leBytes, leNat, h]
  | n + 1, v, h => by
    rw [Nat.pow_succ] at h
    rw [leBytes, leNat, leNat_leBytes n (v / 256) (by omega), BitVec.toNat_ofNat]
    omega

end Sys2Proof.Machine
end

