-- ==== Sys2Proof/Laws/Memory.lean ====
section
/-! SUPPORT. The laws of the block's byte memories: every operation keeps the canonical form; reading after writing. -/

namespace Sys2Proof.Machine
open Sys2Proof

theorem writeCells_wf : ∀ (l : List Byte) {m : List Host.Cell} (a : Nat), Memory.wf m = true → Memory.wf (writeCells m a l) = true
  | [], _, _, h => h
  | b :: r, _, a, h => writeCells_wf r (a + 1) (AMap.wf_set a b h)

theorem set_wf {m : List Host.Cell} (a : Nat) (b : Byte) (h : Memory.wf m = true) : Memory.wf (AMap.set 0 m a b) = true := AMap.wf_set a b h

theorem zeroCells_wf {m : List Host.Cell} (a n : Nat) (h : Memory.wf m = true) : Memory.wf (zeroCells m a n) = true := AMap.wf_filter _ h

theorem filter_wf {m : List Host.Cell} (p : Host.Cell → Bool) (h : Memory.wf m = true) : Memory.wf (m.filter p) = true := AMap.wf_filter p h

/-- A write leaves every byte outside it as it was. -/
theorem get_writeCells_outside : ∀ (l : List Byte) (m : List Host.Cell) (a : Nat) {k : Nat}, (k < a ∨ a + l.length ≤ k) →
    AMap.get 0 (writeCells m a l) k = AMap.get 0 m k
  | [], _, _, _, _ => rfl
  | b :: r, m, a, k, h => by
    rw [writeCells, get_writeCells_outside r _ (a + 1) (by simp only [List.length_cons] at h; omega), AMap.get_set_ne]
    simp only [List.length_cons] at h; omega

/-- A byte written reads as written. -/
theorem get_writeCells_inside : ∀ (l : List Byte) {m : List Host.Cell} (a : Nat), Memory.wf m = true → ∀ {i : Nat} (hi : i < l.length),
    AMap.get 0 (writeCells m a l) (a + i) = l[i]
  | b :: r, m, a, h, 0, _ => by
    rw [writeCells, get_writeCells_outside r _ (a + 1) (by omega), Nat.add_zero, AMap.get_set b h, if_pos rfl]; rfl
  | b :: r, m, a, h, i + 1, hi => by
    have := get_writeCells_inside r (a + 1) (AMap.wf_set a b h) (i := i) (by simpa using hi)
    rw [writeCells, show a + (i + 1) = a + 1 + i by omega, this]; rfl

/-- Reading a range back after writing it. -/
theorem readCells_writeCells : ∀ (l : List Byte) {m : List Host.Cell} (a : Nat), Memory.wf m = true → readCells (writeCells m a l) a l.length = l
  | [], _, _, _ => rfl
  | b :: r, m, a, h => by
    simp only [List.length_cons, readCells, writeCells]
    rw [readCells_writeCells r (a + 1) (AMap.wf_set a b h), get_writeCells_outside r _ (a + 1) (by omega), AMap.get_set b h, if_pos rfl]

theorem memory_wf_nil : Memory.wf [] = true := rfl
theorem foldl_wf {α : Type} {f : List Host.Cell → α → List Host.Cell} (hf : ∀ m a, Memory.wf m = true → Memory.wf (f m a) = true) :
    ∀ (l : List α) {m : List Host.Cell}, Memory.wf m = true → Memory.wf (l.foldl f m) = true
  | [], _, h => h
  | a :: l, m, h => foldl_wf hf l (hf m a h)

end Sys2Proof.Machine
end

