-- ==== Sys2Proof/Laws/Keeps.lean ====
section
/-! SUPPORT. `Keeps`: what every operation of the block leaves: the queue as it is, and canonical memories canonical. -/

set_option linter.unusedSimpArgs false
namespace Sys2Proof.Machine
open Sys2Proof Sys2Proof.Safety

/-- `t` has the queue of `s`, and canonical memories where `s` has. -/
def Keeps (s t : State) : Prop := t.pending = s.pending ∧ (MemInv s → MemInv t)

namespace Keeps
variable {s t u : State}

theorem refl (s : State) : Keeps s s := ⟨rfl, id⟩
theorem trans (h : Keeps s t) (g : Keeps t u) : Keeps s u := ⟨g.1.trans h.1, g.2 ∘ h.2⟩
/-- A state with the same queue and memories. -/
theorem same (h : Keeps s t) (hp : u.pending = t.pending) (hm : u.mem = t.mem) : Keeps s u :=
  ⟨hp.trans h.1, fun i => by have j := h.2 i; unfold MemInv at *; rw [hm]; exact j⟩
theorem foldl {α : Type} {f : State → α → State} (hf : ∀ x a, Keeps s x → Keeps s (f x a)) : ∀ (l : List α) {t : State}, Keeps s t → Keeps s (l.foldl f t)
  | [], _, h => h
  | a :: l, t, h => foldl hf l (hf t a h)
/-- An update of groups other than the queue and the memories. -/
theorem mk_iff {clk cat ext tally ctxs gate store coh xl fab emb colls movers twine port fw sec err sent freeCtr orders} :
    Keeps s ⟨u.pending, clk, cat, ext, u.mem, tally, ctxs, gate, store, coh, xl, fab, emb, colls, movers, twine, port, fw, sec, err, sent, freeCtr, orders⟩ ↔ Keeps s u := Iff.rfl
/-- An update that leaves the bytes of the memories. -/
theorem mk_mem_iff {clk cat ext tally ctxs gate store coh xl fab emb colls movers twine port fw sec err sent freeCtr orders poison lost ue} :
    Keeps s ⟨u.pending, clk, cat, ext, ⟨u.mem.hbm, u.mem.host, u.mem.bank, u.mem.flash, poison, lost, ue⟩, tally, ctxs, gate, store, coh, xl, fab, emb, colls, movers, twine, port, fw, sec, err, sent, freeCtr, orders⟩ ↔ Keeps s u := Iff.rfl
/-- An update of the memories that keeps each canonical. -/
theorem mem {clk cat ext tally ctxs gate store coh xl fab emb colls movers twine port fw sec err sent freeCtr orders hbm host bank flash poison lost ue} (h : Keeps s u)
    (h1 : Memory.wf u.mem.hbm = true → Memory.wf hbm = true) (h2 : Memory.wf u.mem.host = true → Memory.wf host = true)
    (h3 : Memory.wf u.mem.bank = true → Memory.wf bank = true) (h4 : Memory.wf u.mem.flash = true → Memory.wf flash = true) :
    Keeps s ⟨u.pending, clk, cat, ext, ⟨hbm, host, bank, flash, poison, lost, ue⟩, tally, ctxs, gate, store, coh, xl, fab, emb, colls, movers, twine, port, fw, sec, err, sent, freeCtr, orders⟩ :=
  ⟨h.1, fun i => ⟨h1 (h.2 i).1, h2 (h.2 i).2.1, h3 (h.2 i).2.2.1, h4 (h.2 i).2.2.2⟩⟩
theorem foldl_snd {α β : Type} {f : β × State → α → β × State} (hf : ∀ x a, Keeps s x.2 → Keeps s (f x a).2) :
    ∀ (l : List α) {i : β × State}, Keeps s i.2 → Keeps s (l.foldl f i).2
  | [], _, h => h
  | a :: l, i, h => foldl_snd hf l (hf i a h)
theorem foldl_fst {α β : Type} {f : State × β → α → State × β} (hf : ∀ x a, Keeps s x.1 → Keeps s (f x a).1) :
    ∀ (l : List α) {i : State × β}, Keeps s i.1 → Keeps s (l.foldl f i).1
  | [], _, h => h
  | a :: l, i, h => foldl_fst hf l (hf i a h)
theorem of_pair {α : Type} {x : α} {p : α × State} (h : p = (x, u)) (k : Keeps s p.2) : Keeps s u := by rw [h] at k; exact k
theorem of_pair' {α : Type} {x : α} {p : State × α} (h : p = (u, x)) (k : Keeps s p.1) : Keeps s u := by rw [h] at k; exact k
theorem of_triple {α β : Type} {x : α} {y : β} {p : α × β × State} (h : p = (x, y, u)) (k : Keeps s p.2.2) : Keeps s u := by rw [h] at k; exact k
theorem of_some {α : Type} {x : α} {o : Option (State × α)} (h : o = some (u, x)) (k : ∀ v y, o = some (v, y) → Keeps s v) : Keeps s u := k u x h
theorem of_some' {α : Type} {x : α} {o : Option (α × State)} (h : o = some (x, u)) (k : ∀ y v, o = some (y, v) → Keeps s v) : Keeps s u := k x u h
theorem of_some1 {o : Option State} (h : o = some u) (k : ∀ v, o = some v → Keeps s v) : Keeps s u := k u h
theorem ite {c : Prop} [Decidable c] (h : c → Keeps s t) (g : ¬c → Keeps s u) : Keeps s (if c then t else u) := by
  by_cases k : c
  · rw [if_pos k]; exact h k
  · rw [if_neg k]; exact g k
theorem getD {o : Option State} (h : Keeps s u) (k : ∀ v, o = some v → Keeps s v) : Keeps s (o.getD u) := by
  cases o with
  | none => exact h
  | some v => exact k v rfl
theorem foldl_opt {α β : Type} {f : Option (State × β) → α → Option (State × β)}
    (hf : ∀ x a, (∀ p, x = some p → Keeps s p.1) → ∀ p, f x a = some p → Keeps s p.1) :
    ∀ (l : List α) {i : Option (State × β)}, (∀ p, i = some p → Keeps s p.1) → ∀ p, l.foldl f i = some p → Keeps s p.1
  | [], _, h => h
  | a :: l, i, h => foldl_opt hf l (hf i a h)
theorem foldl_opt1 {α : Type} {f : Option State → α → Option State}
    (hf : ∀ x a, (∀ p, x = some p → Keeps s p) → ∀ p, f x a = some p → Keeps s p) :
    ∀ (l : List α) {i : Option State}, (∀ p, i = some p → Keeps s p) → ∀ p, l.foldl f i = some p → Keeps s p
  | [], _, h => h
  | a :: l, i, h => foldl_opt1 hf l (hf i a h)
theorem foldl_third {α β γ : Type} {f : β × γ × State → α → β × γ × State} (hf : ∀ x a, Keeps s x.2.2 → Keeps s (f x a).2.2) :
    ∀ (l : List α) {i : β × γ × State}, Keeps s i.2.2 → Keeps s (l.foldl f i).2.2
  | [], _, h => h
  | a :: l, i, h => foldl_third hf l (hf i a h)
theorem of_eq {p q : State} (h : p = q) (k : Keeps s p) : Keeps s q := h ▸ k
theorem of_prod {α : Type} {x : α} {p : α × State} (h : p = (x, u)) (k : ∀ y v, p = (y, v) → Keeps s v) : Keeps s u := k x u h
theorem of_map {α β : Type} {o : Option α} {f : α → State × β} {p} (e : o.map f = some p) (k : ∀ x, o = some x → Keeps s (f x).1) : Keeps s p.1 := by
  obtain ⟨x, h, rfl⟩ := Option.map_eq_some_iff.mp e
  exact k x h
theorem of_map1 {α : Type} {o : Option α} {f : α → State} {p} (e : o.map f = some p) (k : ∀ x, o = some x → Keeps s (f x)) : Keeps s p := by
  obtain ⟨x, h, rfl⟩ := Option.map_eq_some_iff.mp e
  exact k x h
theorem foldl_bind {α β : Type} {f : α → State × β → Option (State × β)} (hf : ∀ {a y p}, Keeps s y.1 → f a y = some p → Keeps s p.1) :
    ∀ (l : List α) {i p}, Keeps s i.1 → l.foldl (fun x a => x.bind (f a)) (some i) = some p → Keeps s p.1
  | [], _, _, h, e => by cases e; exact h
  | a :: l, i, p, h, e => by
    rw [List.foldl_cons] at e
    cases g : f a i with
    | none =>
      rw [show (some i).bind (f a) = none from g] at e
      have z : ∀ l : List α, l.foldl (fun x a => x.bind (f a)) none = none := fun l => by induction l with | nil => rfl | cons _ _ ih => exact ih
      rw [z] at e
      cases e
    | some y => rw [show (some i).bind (f a) = some y from g] at e; exact foldl_bind hf l (hf h g) e
theorem foldl_bind1 {α : Type} {f : α → State → Option State} (hf : ∀ {a y p}, Keeps s y → f a y = some p → Keeps s p) :
    ∀ (l : List α) {i p}, Keeps s i → l.foldl (fun x a => x.bind (f a)) (some i) = some p → Keeps s p
  | [], _, _, h, e => by cases e; exact h
  | a :: l, i, p, h, e => by
    rw [List.foldl_cons] at e
    cases g : f a i with
    | none =>
      rw [show (some i).bind (f a) = none from g] at e
      have z : ∀ l : List α, l.foldl (fun x a => x.bind (f a)) none = none := fun l => by induction l with | nil => rfl | cons _ _ ih => exact ih
      rw [z] at e
      cases e
    | some y => rw [show (some i).bind (f a) = some y from g] at e; exact foldl_bind1 hf l (hf h g) e
end Keeps

end Sys2Proof.Machine
end

