-- ==== Sys2Proof/Laws/KeepsOps.lean ====
section
/-! SUPPORT. The operations of Machine/Ops.lean leave the queue as it is and keep canonical memories canonical. -/

namespace Sys2Proof.Machine
open Sys2Proof Sys2Proof.Safety

theorem fresh_keeps {s t : State} {x0} (h : Keeps s t) : Keeps s (fresh x0 t).2 := by
  unfold fresh
  repeat' with_reducible first | assumption | simp only [Keeps.mk_iff]
theorem useOrders_keeps {s t : State} {x0 x1} (h : Keeps s t) : Keeps s (useOrders x0 x1 t) := by
  unfold useOrders
  repeat' with_reducible first | assumption | simp only [Keeps.mk_iff]
theorem send_keeps {s t : State} {x0} (h : Keeps s t) : Keeps s (send x0 t) := by
  unfold send
  repeat' with_reducible first | assumption | simp only [Keeps.mk_iff]
theorem cvSet_keeps {s t : State} {x0 x1 x2 x3} (h : Keeps s t) : Keeps s (cvSet x0 x1 x2 x3 t) := by
  unfold cvSet
  repeat' with_reducible first | assumption | simp only [Keeps.mk_iff]
theorem cvClear_keeps {s t : State} {x0 x1 x2} (h : Keeps s t) : Keeps s (cvClear x0 x1 x2 t) := by
  unfold cvClear
  repeat' with_reducible first | assumption | simp only [Keeps.mk_iff]
theorem cvAdd_keeps {s t : State} {x0 x1 x2 x3} (h : Keeps s t) : Keeps s (cvAdd x0 x1 x2 x3 t) := by
  unfold cvAdd
  repeat' with_reducible first | assumption | apply cvSet_keeps
theorem setExt_keeps {s t : State} {x0 x1} (h : Keeps s t) : Keeps s (setExt x0 x1 t) := by
  unfold setExt
  repeat' with_reducible first | assumption | simp only [Keeps.mk_iff]
theorem setHbm_keeps {s t : State} {m} (hm : Memory.wf t.mem.hbm = true → Memory.wf m = true) (h : Keeps s t) : Keeps s (setHbm m t) :=
  Keeps.mem h hm id id id
theorem setBank_keeps {s t : State} {m} (hm : Memory.wf t.mem.bank = true → Memory.wf m = true) (h : Keeps s t) : Keeps s (setBank m t) :=
  Keeps.mem h id id hm id
theorem setFrame_keeps {s t : State} {x0 x1} (h : Keeps s t) : Keeps s (setFrame x0 x1 t) := by
  unfold setFrame
  repeat' with_reducible first | assumption | simp only [Keeps.mk_iff]
theorem fillFrame_keeps {s t : State} {x0 x1} (h : Keeps s t) : Keeps s (fillFrame x0 x1 t) := by
  unfold fillFrame
  split
  · exact h
  · refine Keeps.ite (fun _ => h) (fun _ => ?_)
    exact setFrame_keeps (setHbm_keeps (fun i => foldl_wf (fun _ _ j => writeCells_wf _ _ j) _ i) h)
theorem storeWrite_keeps {s t : State} {x0 x1} (h : Keeps s t) : Keeps s (storeWrite x0 x1 t) := by
  have w : Keeps s { t with mem := { t.mem with hbm := writeCells t.mem.hbm x0 x1, poison := t.mem.poison.filter (fun l => !(decide (x0 ≤ 64 * l) && decide (64 * l + 64 ≤ x0 + x1.length))) } } :=
    Keeps.mem h (writeCells_wf _ _) id id id
  unfold storeWrite
  split
  · exact w
  · refine Keeps.foldl (fun _ _ k => ?_) _ (Keeps.mem (Keeps.foldl (fun _ _ k => fillFrame_keeps k) _ h) (writeCells_wf _ _) id id id)
    split
    · exact setFrame_keeps k
    · exact k
theorem setTally_keeps {s t : State} {x0 x1} (h : Keeps s t) : Keeps s (setTally x0 x1 t) := by
  unfold setTally
  repeat' with_reducible first | assumption | simp only [Keeps.mk_iff]
theorem updReq_keeps {s t : State} {x0 x1} (h : Keeps s t) : Keeps s (updReq x0 x1 t) := by
  unfold updReq
  repeat' with_reducible first | assumption | simp only [Keeps.mk_iff]
theorem updCmd_keeps {s t : State} {x0 x1 x2} (h : Keeps s t) : Keeps s (updCmd x0 x1 x2 t) := by
  unfold updCmd
  repeat' with_reducible first | assumption | apply updReq_keeps
theorem setWay_keeps {s t : State} {x0 x1} (h : Keeps s t) : Keeps s (setWay x0 x1 t) := by
  unfold setWay
  repeat' with_reducible first | assumption | simp only [Keeps.mk_iff]
theorem sendSnp_keeps {s t : State} {x0 x1 x2 x3 x4 x5 x6} (h : Keeps s t) : Keeps s (sendSnp x0 x1 x2 x3 x4 x5 x6 t) := by
  unfold sendSnp
  repeat' with_reducible first | assumption | apply cvAdd_keeps | apply send_keeps | simp only [Keeps.mk_iff]
theorem owned_keeps {s t : State} {rid porter} {f : State → State} (h : Keeps s (f t)) : Keeps s (owned rid porter f t) := by
  unfold owned
  exact Keeps.mk_iff.mpr h
theorem recallLine_keeps {s t : State} {x0} (h : Keeps s t) : Keeps s (recallLine x0 t) := by
  unfold recallLine
  repeat' with_reducible first | assumption | apply storeWrite_keeps | (refine Keeps.foldl (fun _ _ _ => ?_) _ ?_ <;> try dsimp only) | simp only [Keeps.mk_iff]
theorem unitInvalidate_keeps {s t : State} {x0 x1 x2} (h : Keeps s t) : Keeps s (unitInvalidate x0 x1 x2 t) := by
  unfold unitInvalidate
  repeat' with_reducible first | assumption | apply setWay_keeps | apply sendSnp_keeps | apply recallLine_keeps | (refine Keeps.foldl (fun _ _ _ => ?_) _ ?_ <;> try dsimp only) | refine Keeps.ite (fun _ => ?_) (fun _ => ?_) | simp only [Keeps.mk_iff] | split
theorem lineWrite_keeps {s t : State} {x0} (h : Keeps s t) : Keeps s (lineWrite x0 t) := by
  unfold lineWrite
  repeat' with_reducible first | assumption | apply storeWrite_keeps | refine Keeps.ite (fun _ => ?_) (fun _ => ?_) | simp only [Keeps.mk_iff, Keeps.mk_mem_iff]
theorem addWait_keeps {s t : State} {x0} (h : Keeps s t) : Keeps s (addWait x0 t) := by
  unfold addWait
  repeat' with_reducible first | assumption | simp only [Keeps.mk_iff]
theorem beginWrite_keeps {s t : State} {x0} (h : Keeps s t) : Keeps s (beginWrite x0 t) := by
  unfold beginWrite
  repeat' with_reducible first | assumption | apply unitInvalidate_keeps | apply lineWrite_keeps | apply addWait_keeps | refine Keeps.ite (fun _ => ?_) (fun _ => ?_)
theorem homeWrite_keeps {s t : State} {x0} (h : Keeps s t) : Keeps s (homeWrite x0 t) := by
  unfold homeWrite
  repeat' with_reducible first | assumption | apply addWait_keeps | apply beginWrite_keeps | refine Keeps.ite (fun _ => ?_) (fun _ => ?_)
theorem heat_keeps {s t : State} {x0 x1 x2} (h : Keeps s t) : Keeps s (heat x0 x1 x2 t) := by
  unfold heat
  repeat' with_reducible first | assumption | refine Keeps.ite (fun _ => ?_) (fun _ => ?_) | simp only [Keeps.mk_iff]
theorem heatSpan_keeps {s t : State} {x0 x1} (h : Keeps s t) : Keeps s (heatSpan x0 x1 t) := by
  unfold heatSpan
  repeat' with_reducible first | assumption | apply heat_keeps | (refine Keeps.foldl (fun _ _ _ => ?_) _ ?_ <;> try dsimp only) | refine Keeps.ite (fun _ => ?_) (fun _ => ?_)
theorem deviceWrite_keeps {s t : State} {x0 x1} (h : Keeps s t) : Keeps s (deviceWrite x0 x1 t) := by
  unfold deviceWrite
  repeat' with_reducible first | assumption | apply storeWrite_keeps | apply homeWrite_keeps | (refine Keeps.foldl (fun _ _ _ => ?_) _ ?_ <;> try dsimp only) | refine Keeps.ite (fun _ => ?_) (fun _ => ?_)
theorem unitWrite_keeps {s t : State} {x0 x1} (h : Keeps s t) : Keeps s (unitWrite x0 x1 t) := by
  unfold unitWrite
  repeat' with_reducible first | assumption | apply heatSpan_keeps | apply deviceWrite_keeps | refine Keeps.ite (fun _ => ?_) (fun _ => ?_)
theorem listWrite_keeps {s t : State} {x0 x1} (h : Keeps s t) : Keeps s (listWrite x0 x1 t) := by
  unfold listWrite
  repeat' with_reducible first | assumption | apply unitWrite_keeps | apply storeWrite_keeps | refine Keeps.ite (fun _ => ?_) (fun _ => ?_)
theorem ringLine_keeps {s t : State} {x0} (h : Keeps s t) : Keeps s (ringLine x0 t) := by
  unfold ringLine
  repeat' with_reducible first | assumption | simp only [Keeps.mk_iff]
theorem tallyBump_keeps {s t : State} {x0 x1} (h : Keeps s t) : Keeps s (tallyBump x0 x1 t) := by
  unfold tallyBump
  repeat' with_reducible first | assumption | apply setTally_keeps
theorem ringStore_keeps {s t : State} {x0 x1} (h : Keeps s t) : Keeps s (ringStore x0 x1 t).2 := by
  unfold ringStore
  repeat' with_reducible first | assumption | apply ringLine_keeps | apply deviceWrite_keeps | apply cvAdd_keeps | simp only [Keeps.mk_iff] | split
theorem logStore_keeps {s t : State} {x0} (h : Keeps s t) : Keeps s (logStore x0 t) := by
  unfold logStore
  repeat' with_reducible first | assumption | simp only [Keeps.mk_iff]
theorem detect_keeps {s t : State} {x0} (h : Keeps s t) : Keeps s (detect x0 t) := by
  unfold detect
  repeat' with_reducible first | assumption | simp only [Keeps.mk_iff]
theorem ringAppend_keeps {s t : State} {x0 x1} (h : Keeps s t) : Keeps s (ringAppend x0 x1 t) := by
  unfold ringAppend
  repeat' with_reducible first | assumption | apply ringStore_keeps | apply tallyBump_keeps | apply logStore_keeps | apply detect_keeps | apply cvAdd_keeps | refine Keeps.ite (fun _ => ?_) (fun _ => ?_)
theorem errRec_keeps {s t : State} {x0 x1 x2 x3 x4 x5 x6 x7} (h : Keeps s t) : Keeps s (errRec x0 x1 x2 x3 x4 x5 x6 x7 t) := by
  unfold errRec
  repeat' with_reducible first | assumption | apply logStore_keeps | apply ringAppend_keeps | (refine Keeps.foldl (fun _ _ _ => ?_) _ ?_ <;> try dsimp only) | refine Keeps.ite (fun _ => ?_) (fun _ => ?_)
theorem retirePhys_keeps {s t : State} {x0 x1 x2} (h : Keeps s t) : Keeps s (retirePhys x0 x1 x2 t) := by
  unfold retirePhys
  repeat' with_reducible first | assumption | apply errRec_keeps | apply cvAdd_keeps | refine Keeps.ite (fun _ => ?_) (fun _ => ?_) | simp only [Keeps.mk_iff]
theorem releasePhys_keeps {s t : State} {x0} (h : Keeps s t) : Keeps s (releasePhys x0 t) := by
  unfold releasePhys
  repeat' with_reducible first | assumption | apply retirePhys_keeps | refine Keeps.ite (fun _ => ?_) (fun _ => ?_)
theorem loseCache_keeps {s t : State} {x0} (h : Keeps s t) : Keeps s (loseCache x0 t) := by
  unfold loseCache
  repeat' with_reducible first | assumption | simp only [Keeps.mk_iff]
theorem emptyFrame_keeps {s t : State} {x0} (h : Keeps s t) : Keeps s (emptyFrame x0 t) := by
  unfold emptyFrame
  repeat' with_reducible first | assumption | apply releasePhys_keeps | apply setFrame_keeps | apply loseCache_keeps | refine Keeps.ite (fun _ => ?_) (fun _ => ?_) | simp only [Keeps.mk_iff] | split
theorem emptyFrames_keeps {s t : State} {x0} (h : Keeps s t) : Keeps s (emptyFrames x0 t) := by
  unfold emptyFrames
  repeat' with_reducible first | assumption | apply emptyFrame_keeps | (refine Keeps.foldl (fun _ _ _ => ?_) _ ?_ <;> try dsimp only)
theorem cacheFrame_keeps {s t : State} {x0 x1} (h : Keeps s t) : Keeps s (cacheFrame x0 x1 t) := by
  unfold cacheFrame
  repeat' with_reducible first | assumption | apply emptyFrame_keeps | apply setFrame_keeps
theorem detectRec_keeps {s t : State} {x0 x1 x2 x3 x4 x5 x6} (h : Keeps s t) : Keeps s (detectRec x0 x1 x2 x3 x4 x5 x6 t) := by
  unfold detectRec
  repeat' with_reducible first | assumption | apply errRec_keeps | apply detect_keeps
theorem armStep_keeps {s t : State} {x0 x1} (h : Keeps s t) : Keeps s (armStep x0 x1 t).2 := by
  unfold armStep
  repeat' with_reducible first | assumption | apply cvAdd_keeps | apply cvSet_keeps | refine Keeps.ite (fun _ => ?_) (fun _ => ?_) | simp only [Keeps.mk_iff] | split
theorem inject_keeps {s t : State} {x0 x1 x2 x3} (h : Keeps s t) : Keeps s (inject x0 x1 x2 x3 t).2 := by
  unfold inject
  repeat' with_reducible first | assumption | apply armStep_keeps | simp only [Keeps.mk_iff] | split
theorem advance_keeps {s t : State} {x0 x1 x2} (h : Keeps s t) : Keeps s (advance x0 x1 x2 t) := by
  unfold advance
  repeat' with_reducible first | assumption | apply inject_keeps | apply tallyBump_keeps | apply cvAdd_keeps | apply detectRec_keeps | apply setTally_keeps | apply detect_keeps | apply errRec_keeps | refine Keeps.ite (fun _ => ?_) (fun _ => ?_) | simp only [Keeps.mk_iff] | split
theorem tallySet_keeps {s t : State} {x0 x1} (h : Keeps s t) : Keeps s (tallySet x0 x1 t) := by
  unfold tallySet
  repeat' with_reducible first | assumption | apply setTally_keeps
theorem actAs_keeps {s t : State} {x0 x1 x2 x3 x4} (h : Keeps s t) : Keeps s (actAs x0 x1 x2 x3 x4 t) := by
  unfold actAs
  repeat' with_reducible first | assumption | refine Keeps.ite (fun _ => ?_) (fun _ => ?_) | simp only [Keeps.mk_iff]
theorem act_keeps {s t : State} {x0 x1 x2 x3} (h : Keeps s t) : Keeps s (act x0 x1 x2 x3 t) := by
  unfold act
  repeat' with_reducible first | assumption | apply actAs_keeps
theorem drainDown_keeps {s t : State} {x0 x1} (h : Keeps s t) : Keeps s (drainDown x0 x1 t) := by
  unfold drainDown
  repeat' with_reducible first | assumption | apply setExt_keeps | refine Keeps.ite (fun _ => ?_) (fun _ => ?_)
theorem pinBy_keeps {s t : State} {x0 x1} (h : Keeps s t) : Keeps s (pinBy x0 x1 t) := by
  unfold pinBy
  repeat' with_reducible first | assumption | simp only [Keeps.mk_iff] | split
theorem pin_keeps {s t : State} {x0} (h : Keeps s t) : Keeps s (pin x0 t) := by
  unfold pin
  repeat' with_reducible first | assumption | apply pinBy_keeps
theorem unpin_keeps {s t : State} {x0} (h : Keeps s t) : Keeps s (unpin x0 t) := by
  unfold unpin
  repeat' with_reducible first | assumption | apply pinBy_keeps

end Sys2Proof.Machine
end

