-- ==== Sys2Proof/Laws/KeepsCalendar.lean ====
section
/-! SUPPORT. The operations of Machine/Calendar.lean leave the queue as it is and keep canonical memories canonical. -/

namespace Sys2Proof.Machine
open Sys2Proof Sys2Proof.Safety

theorem addBook_keeps {s t : State} {x0} (h : Keeps s t) : Keeps s (addBook x0 t) := by
  unfold addBook
  repeat' with_reducible first | assumption | simp only [Keeps.mk_iff]
theorem addEnergy_keeps {s t : State} {x0 x1 x2 x3 x4} (h : Keeps s t) : Keeps s (addEnergy x0 x1 x2 x3 x4 t) := by
  unfold addEnergy
  repeat' with_reducible first | assumption | refine Keeps.ite (fun _ => ?_) (fun _ => ?_) | simp only [Keeps.mk_iff]
theorem bookN_keeps {s t : State} {x0 x1 x2 x3 x4 x5} (h : Keeps s t) : Keeps s (bookN x0 x1 x2 x3 x4 x5 t) := by
  unfold bookN
  repeat' with_reducible first | assumption | apply addBook_keeps | refine Keeps.ite (fun _ => ?_) (fun _ => ?_)
theorem bookRound_keeps {s t : State} {x0 x1 x2 x3 x4} (h : Keeps s t) : Keeps s (bookRound x0 x1 x2 x3 x4 t).1 := by
  unfold bookRound
  repeat' with_reducible first | assumption | apply bookN_keeps | apply addEnergy_keeps | (refine Keeps.foldl (fun _ _ _ => ?_) _ ?_ <;> try dsimp only)
theorem placePhase_keeps {s t : State} {x0 x1 x2 x3 x4 x5 x6} {p} (h : Keeps s t) (e : placePhase x0 x1 x2 x3 x4 x5 x6 t = some p) : Keeps s p.1 := by
  induction x2 generalizing x0 x1 x3 x4 x5 x6 t p with
  | zero =>
    unfold placePhase at e
    revert e
    repeat' with_reducible first | (intro e; cases e)
  | succ _ ih =>
    unfold placePhase at e
    revert e
    repeat' with_reducible first | assumption | apply bookRound_keeps | (refine fun e => ih ?_ e) | simp only [Keeps.mk_iff] | split | (intro e; cases e)
theorem runPhase_keeps {s t : State} {x0 x1} {p} (h : Keeps s t) (e : runPhase x0 x1 t = some p) : Keeps s p.1 := by
  unfold runPhase at e
  revert e
  repeat' with_reducible first | assumption | (refine fun e => placePhase_keeps ?_ e)
theorem placeRecord_keeps {s t : State} {x0 x1 x2 x3 x4} {p} (h : Keeps s t) (e : placeRecord x0 x1 x2 x3 x4 t = some p) : Keeps s p.1 := by
  induction x2 generalizing x0 x1 x3 x4 t p with
  | zero =>
    unfold placeRecord at e
    revert e
    repeat' with_reducible first | (intro e; cases e)
  | succ _ ih =>
    unfold placeRecord at e
    revert e
    repeat' with_reducible first | assumption | apply bookN_keeps | (refine fun e => ih ?_ e) | split | (intro e; cases e)
theorem dropBookings_keeps {s t : State} {x0} (h : Keeps s t) : Keeps s (dropBookings x0 t) := by
  unfold dropBookings
  repeat' with_reducible first | assumption | simp only [Keeps.mk_iff]
theorem draw_keeps {s t : State} {x0 x1} (h : Keeps s t) : Keeps s (draw x0 x1 t) := by
  unfold draw
  repeat' with_reducible first | assumption | simp only [Keeps.mk_iff]
theorem refund_keeps {s t : State} {x0 x1} (h : Keeps s t) : Keeps s (refund x0 x1 t) := by
  unfold refund
  repeat' with_reducible first | assumption | simp only [Keeps.mk_iff]
theorem refundBookings_keeps {s t : State} {x0 x1} (h : Keeps s t) : Keeps s (refundBookings x0 x1 t) := by
  unfold refundBookings
  repeat' with_reducible first | assumption | apply refund_keeps | apply dropBookings_keeps
theorem retimeRound_keeps {s t : State} {x0 x1 x2} (h : Keeps s t) : Keeps s (retimeRound x0 x1 x2 t) := by
  unfold retimeRound
  repeat' with_reducible first | assumption | apply updCmd_keeps
theorem placeCounts_keeps {s t : State} {x0} (h : Keeps s t) : Keeps s (placeCounts x0 t) := by
  unfold placeCounts
  repeat' with_reducible first | assumption | apply addBook_keeps | apply retimeRound_keeps | (refine Keeps.foldl (fun _ _ _ => ?_) _ ?_ <;> try dsimp only) | simp only [Keeps.mk_iff]
theorem pruneBooks_keeps {s t : State} {x0} (h : Keeps s t) : Keeps s (pruneBooks x0 t) := by
  unfold pruneBooks
  repeat' with_reducible first | assumption | simp only [Keeps.mk_iff]
theorem moveEnergy_keeps {s t : State} {x0 x1 x2 x3} (h : Keeps s t) : Keeps s (moveEnergy x0 x1 x2 x3 t) := by
  unfold moveEnergy
  repeat' with_reducible first | assumption | apply addEnergy_keeps | simp only [Keeps.mk_iff]
theorem moveSlot_keeps {s t : State} {x0 x1} {p} (h : Keeps s t) (e : moveSlot x0 x1 t = some p) : Keeps s p := by
  unfold moveSlot at e
  revert e
  repeat' with_reducible first | assumption | apply cvAdd_keeps | apply moveEnergy_keeps | apply updCmd_keeps | simp only [Keeps.mk_iff] | split | (intro e; cases e)
theorem preempt_keeps {s t : State} {a b c d e n} (h : Keeps s t) : Keeps s (preempt a b c d e n t) := by
  induction n generalizing t with
  | zero => exact h
  | succ n ih =>
    unfold preempt
    split
    · obtain ⟨x, -, e⟩ := List.exists_of_findSome?_eq_some ‹_›
      exact ih (moveSlot_keeps h e)
    · exact h

end Sys2Proof.Machine
end

