-- ==== Sys2Proof/Laws/KeepsStorePlace.lean ====
section
/-! SUPPORT. The operations of Machine/StorePlace.lean leave the queue as it is and keep canonical memories canonical. -/

namespace Sys2Proof.Machine
open Sys2Proof Sys2Proof.Safety

theorem setChan_keeps {s t : State} {x0 x1} (h : Keeps s t) : Keeps s (setChan x0 x1 t) := by
  unfold setChan
  repeat' with_reducible first | assumption | simp only [Keeps.mk_iff]
theorem setBlock_keeps {s t : State} {x0 x1 x2} (h : Keeps s t) : Keeps s (setBlock x0 x1 x2 t) := by
  unfold setBlock
  repeat' with_reducible first | assumption | simp only [Keeps.mk_iff]
theorem allocSlot_keeps {s t : State} {x0} {p} (h : Keeps s t) (e : allocSlot x0 t = some p) : Keeps s p.2.2 := by
  unfold allocSlot at e
  revert e
  repeat' with_reducible first | assumption | apply setBlock_keeps | apply cvSet_keeps | apply setChan_keeps | simp only [Keeps.mk_iff] | split | (intro e; cases e) | refine Keeps.of_some' (by assumption) (fun _ _ => ?_)
theorem pageActs_keeps {s t : State} {x0 x1 x2 x3} (h : Keeps s t) : Keeps s (pageActs x0 x1 x2 x3 t) := by
  unfold pageActs
  repeat' with_reducible first | assumption | simp only [Keeps.mk_iff]
theorem bookWriteback_keeps {s t : State} {x0 x1 x2 x3} {p} (h : Keeps s t) (e : bookWriteback x0 x1 x2 x3 t = some p) : Keeps s p.1 := by
  unfold bookWriteback at e
  revert e
  repeat' with_reducible first | assumption | refine runPhase_keeps (p := (_, _, _)) ?_ (by assumption) | refine allocSlot_keeps (p := (_, _, _)) ?_ (by assumption) | apply pageActs_keeps | apply setFrame_keeps | (refine fun e => runPhase_keeps ?_ e) | simp only [Keeps.mk_iff] | split | (intro e; cases e) | refine Keeps.of_some (by assumption) (fun _ _ => ?_)
theorem bookWritebacks_keeps {s t : State} {x0 x1 x2 x3 x4} {p} (h : Keeps s t) (e : bookWritebacks x0 x1 x2 x3 x4 t = some p) : Keeps s p.1 := by
  induction x3 generalizing x0 x1 x2 x4 t p with
  | nil =>
    unfold bookWritebacks at e
    revert e
    repeat' with_reducible first | assumption | (intro e; cases e)
  | cons _ _ ih =>
    unfold bookWritebacks at e
    revert e
    repeat' with_reducible first | assumption | refine bookWriteback_keeps (p := (_, _)) ?_ (by assumption) | (refine fun e => ih ?_ e) | split | (intro e; cases e)
theorem bookFills_keeps {s t : State} {x0 x1 x2 x3} {p} (h : Keeps s t) (e : bookFills x0 x1 x2 x3 t = some p) : Keeps s p.1 := by
  induction x1 generalizing x0 x2 x3 t p with
  | nil =>
    unfold bookFills at e
    revert e
    repeat' with_reducible first | assumption | (intro e; cases e)
  | cons _ _ ih =>
    unfold bookFills at e
    revert e
    repeat' with_reducible first | assumption | refine runPhase_keeps (p := (_, _, _)) ?_ (by assumption) | apply pageActs_keeps | (refine fun e => ih ?_ e) | simp only [Keeps.mk_iff] | split | (intro e; cases e)
theorem recallFrame_keeps {s t : State} {x0} (h : Keeps s t) : Keeps s (recallFrame x0 t) := by
  unfold recallFrame
  repeat' with_reducible first | assumption | apply recallLine_keeps | apply setWay_keeps | (refine Keeps.foldl (fun _ _ _ => ?_) _ ?_ <;> try dsimp only)
theorem leaveClean_keeps {s t : State} {x0 x1} (h : Keeps s t) : Keeps s (leaveClean x0 x1 t) := by
  unfold leaveClean
  repeat' with_reducible first | assumption | apply setFrame_keeps | refine Keeps.ite (fun _ => ?_) (fun _ => ?_) | split
theorem bookVictims_keeps {s t : State} {x0 x1 x2} {p} (h : Keeps s t) (e : bookVictims x0 x1 x2 t = some p) : Keeps s p.1 := by
  unfold bookVictims at e
  revert e
  repeat' with_reducible first | assumption | apply recallFrame_keeps | apply leaveClean_keeps | (refine fun e => bookWritebacks_keeps ?_ e) | (refine Keeps.foldl (fun _ _ _ => ?_) _ ?_ <;> try dsimp only)
theorem placeWithFrames_keeps {s : State} {w a uses early} {data : Nat → State → Option (State × Nat × Nat)}
    (hd : ∀ {e t p}, Keeps s t → data e t = some p → Keeps s p.1) {n k t p} (h : Keeps s t)
    (e : placeWithFrames w a uses early data n k t = some p) : Keeps s p.1 := by
  induction n generalizing k p with
  | zero => exact absurd e (by simp [placeWithFrames])
  | succ n ih =>
    unfold placeWithFrames at e
    split at e
    · contradiction
    · have h1 := bookVictims_keeps h ‹_›
      split at e
      · contradiction
      · have h2 := bookFills_keeps h1 ‹_›
        split at e
        · contradiction
        · have h3 := hd h2 ‹_›
          dsimp only at e
          split at e
          · exact ih e
          · cases e; exact h3
theorem claimFrames_keeps {s t : State} {x0 x1 x2 x3} (h : Keeps s t) : Keeps s (claimFrames x0 x1 x2 x3 t) := by
  unfold claimFrames
  repeat' with_reducible first | assumption | simp only [Keeps.mk_iff]
theorem dropHolds_keeps {s t : State} {x0} (h : Keeps s t) : Keeps s (dropHolds x0 t) := by
  unfold dropHolds
  repeat' with_reducible first | assumption | simp only [Keeps.mk_iff]
theorem addHolds_keeps {s t : State} {x0 x1 x2} (h : Keeps s t) : Keeps s (addHolds x0 x1 x2 t) := by
  unfold addHolds
  repeat' with_reducible first | assumption | apply claimFrames_keeps | apply dropHolds_keeps | (refine Keeps.foldl (fun _ _ _ => ?_) _ ?_ <;> try dsimp only)
theorem takeFrames_keeps {s t : State} {x0} (h : Keeps s t) : Keeps s (takeFrames x0 t) := by
  unfold takeFrames
  repeat' with_reducible first | assumption | apply fillFrame_keeps | apply cacheFrame_keeps | apply setFrame_keeps | (refine Keeps.foldl (fun _ _ _ => ?_) _ ?_ <;> try dsimp only) | refine Keeps.ite (fun _ => ?_) (fun _ => ?_) | split

end Sys2Proof.Machine
end

