-- ==== Sys2Proof/Laws/KeepsWalks.lean ====
section
/-! SUPPORT. The operations of Machine/Walks.lean leave the queue as it is and keep canonical memories canonical. -/

namespace Sys2Proof.Machine
open Sys2Proof Sys2Proof.Safety

theorem bookWalk_keeps {s t : State} {x0 x1 x2 x3 x4 x5 x6} {p} (h : Keeps s t) (e : bookWalk x0 x1 x2 x3 x4 x5 x6 t = some p) : Keeps s p := by
  unfold bookWalk at e
  revert e
  repeat' with_reducible first | assumption | apply bookN_keeps | apply addEnergy_keeps | (refine Keeps.foldl (fun _ _ _ => ?_) _ ?_ <;> try dsimp only) | simp only [Keeps.mk_iff] | split | (intro e; cases e)
theorem bookWalkList_keeps {s t : State} {x0 x1 x2 x3 x4 x5 x6} {p} (h : Keeps s t) (e : bookWalkList x0 x1 x2 x3 x4 x5 x6 t = some p) : Keeps s p := by
  induction x6 generalizing x0 x1 x2 x3 x4 x5 t p with
  | nil =>
    unfold bookWalkList at e
    revert e
    repeat' with_reducible first | assumption | (intro e; cases e)
  | cons _ _ ih =>
    unfold bookWalkList at e
    revert e
    repeat' with_reducible first | assumption | refine bookWalk_keeps (p := _) ?_ (by assumption) | (refine fun e => ih ?_ e) | split | (intro e; cases e)
theorem bookRanges_keeps {s t : State} {x0 x1 x2 x3 x4} {p} (h : Keeps s t) (e : bookRanges x0 x1 x2 x3 x4 t = some p) : Keeps s p := by
  induction x4 generalizing x0 x1 x2 x3 t p with
  | nil =>
    unfold bookRanges at e
    revert e
    repeat' with_reducible first | assumption | (intro e; cases e)
  | cons _ _ ih =>
    unfold bookRanges at e
    revert e
    repeat' with_reducible first | assumption | refine bookWalkList_keeps (p := _) ?_ (by assumption) | (refine fun e => ih ?_ e) | split | (intro e; cases e)
theorem placeWithWalks_keeps {s : State} {w ctx a vs} {data : Nat → State → Option (State × Nat × Nat)}
    (hd : ∀ {e t p}, Keeps s t → data e t = some p → Keeps s p.1) {n k t p} (h : Keeps s t)
    (e : placeWithWalks w ctx a vs data n k t = some p) : Keeps s p.1 := by
  induction n generalizing k p with
  | zero => exact absurd e (by simp [placeWithWalks])
  | succ n ih =>
    unfold placeWithWalks at e
    split at e
    · exact hd h e
    · dsimp only at e
      split at e
      · contradiction
      · have h2 := hd h ‹_›
        split at e
        · cases e; exact bookRanges_keeps h2 ‹_›
        · split at e
          · contradiction
          · exact ih e
theorem dropWalks_keeps {s t : State} {x0} (h : Keeps s t) : Keeps s (dropWalks x0 t) := by
  unfold dropWalks
  repeat' with_reducible first | assumption | simp only [Keeps.mk_iff]
theorem xrAppend_keeps {s t : State} {x0 x1} (h : Keeps s t) : Keeps s (xrAppend x0 x1 t).2 := by
  unfold xrAppend
  repeat' with_reducible first | assumption | apply ringLine_keeps | apply advance_keeps | apply deviceWrite_keeps | apply cvAdd_keeps | simp only [Keeps.mk_iff] | split
theorem xlateFault_keeps {s t : State} {x0 x1 x2 x3} (h : Keeps s t) : Keeps s (xlateFault x0 x1 x2 x3 t).2 := by
  unfold xlateFault
  repeat' with_reducible first | assumption | apply xrAppend_keeps | apply cvAdd_keeps

end Sys2Proof.Machine
end

