-- ==== Sys2Proof/Laws/KeepsErrors.lean ====
section
/-! SUPPORT. The operations of Machine/Errors.lean leave the queue as it is and keep canonical memories canonical. -/

namespace Sys2Proof.Machine
open Sys2Proof Sys2Proof.Safety

theorem markLost_keeps {s t : State} {x0} (h : Keeps s t) : Keeps s (markLost x0 t) := by
  unfold markLost
  repeat' with_reducible first | assumption | apply setFrame_keeps | refine Keeps.ite (fun _ => ?_) (fun _ => ?_) | simp only [Keeps.mk_iff, Keeps.mk_mem_iff] | split
theorem loseFrame_keeps {s t : State} {x0 x1 x2} (h : Keeps s t) : Keeps s (loseFrame x0 x1 x2 t) := by
  unfold loseFrame
  repeat' with_reducible first | assumption | apply errRec_keeps | apply markLost_keeps | refine Keeps.ite (fun _ => ?_) (fun _ => ?_)
theorem containUe_keeps {s t : State} {x0 x1 x2} (h : Keeps s t) : Keeps s (containUe x0 x1 x2 t) := by
  unfold containUe
  repeat' with_reducible first | assumption | apply loseFrame_keeps | apply loseCache_keeps | apply setFrame_keeps | apply retirePhys_keeps | apply emptyFrame_keeps | refine Keeps.ite (fun _ => ?_) (fun _ => ?_) | simp only [Keeps.mk_iff] | split
theorem hbmUe_keeps {s t : State} {x0 x1 x2 x3} (h : Keeps s t) : Keeps s (hbmUe x0 x1 x2 x3 t) := by
  unfold hbmUe
  repeat' with_reducible first | assumption | apply containUe_keeps | apply detectRec_keeps | apply cvAdd_keeps
theorem hbmCe_keeps {s t : State} {x0 x1} (h : Keeps s t) : Keeps s (hbmCe x0 x1 t) := by
  unfold hbmCe
  repeat' with_reducible first | assumption | apply cvAdd_keeps | apply detect_keeps | apply errRec_keeps | refine Keeps.ite (fun _ => ?_) (fun _ => ?_) | simp only [Keeps.mk_iff]
theorem hbmLine_keeps {s t : State} {x0 x1 x2 x3} (h : Keeps s t) : Keeps s (hbmLine x0 x1 x2 x3 t).2 := by
  unfold hbmLine
  repeat' with_reducible first | assumption | apply inject_keeps | apply errRec_keeps | apply hbmCe_keeps | apply containUe_keeps | apply cvAdd_keeps | apply detect_keeps | refine Keeps.ite (fun _ => ?_) (fun _ => ?_) | simp only [Keeps.mk_iff] | split
theorem hbmLines_keeps {s t : State} {x0 x1 x2 x3} (h : Keeps s t) : Keeps s (hbmLines x0 x1 x2 x3 t).2 := by
  induction x3 generalizing x0 x1 x2 t with
  | nil =>
    unfold hbmLines
    assumption
  | cons _ _ ih =>
    unfold hbmLines
    repeat' with_reducible first | assumption | refine Keeps.of_pair (by assumption) (hbmLine_keeps ?_) | apply ih | split
theorem hbmRange_keeps {s t : State} {x0 x1 x2 x3 x4} (h : Keeps s t) : Keeps s (hbmRange x0 x1 x2 x3 x4 t).2 := by
  unfold hbmRange
  repeat' with_reducible first | assumption | apply hbmLines_keeps | split
theorem sramWord_keeps {s t : State} {x0 x1 x2 x3} (h : Keeps s t) : Keeps s (sramWord x0 x1 x2 x3 t).2 := by
  unfold sramWord
  repeat' with_reducible first | assumption | apply inject_keeps | apply errRec_keeps | apply cvAdd_keeps | apply detect_keeps | refine Keeps.ite (fun _ => ?_) (fun _ => ?_) | simp only [Keeps.mk_iff, Keeps.mk_mem_iff] | split

end Sys2Proof.Machine
end

