-- ==== Sys2Proof/Laws/KeepsTwine.lean ====
section
/-! SUPPORT. The operations of Machine/Twine.lean leave the queue as it is and keep canonical memories canonical. -/

namespace Sys2Proof.Machine
open Sys2Proof Sys2Proof.Safety

theorem setLink_keeps {s t : State} {x0 x1} (h : Keeps s t) : Keeps s (setLink x0 x1 t) := by
  unfold setLink
  repeat' with_reducible first | assumption | simp only [Keeps.mk_iff]
theorem putTrain_keeps {s t : State} {x0 x1 x2 x3} (h : Keeps s t) : Keeps s (putTrain x0 x1 x2 x3 t) := by
  unfold putTrain
  repeat' with_reducible first | assumption | apply setLink_keeps | apply send_keeps | (refine Keeps.foldl (fun _ _ _ => ?_) _ ?_ <;> try dsimp only)
theorem sendTrain_keeps {s t : State} {x0 x1 x2 x3 x4 x5 x6 x7} (h : Keeps s t) : Keeps s (sendTrain x0 x1 x2 x3 x4 x5 x6 x7 t) := by
  unfold sendTrain
  repeat' with_reducible first | assumption | apply putTrain_keeps | refine Keeps.ite (fun _ => ?_) (fun _ => ?_) | simp only [Keeps.mk_iff]
theorem sendRange_keeps {s t : State} {x0 x1 x2 x3 x4 x5 x6 x7 x8 x9} (h : Keeps s t) : Keeps s (sendRange x0 x1 x2 x3 x4 x5 x6 x7 x8 x9 t) := by
  unfold sendRange
  repeat' with_reducible first | assumption | apply sendTrain_keeps | (refine Keeps.foldl (fun _ _ _ => ?_) _ ?_ <;> try dsimp only)

end Sys2Proof.Machine
end

