-- ==== Sys2Proof/Laws/KeepsCopy.lean ====
section
/-! SUPPORT. The operations of Machine/Copy.lean leave the queue as it is and keep canonical memories canonical. -/

namespace Sys2Proof.Machine
open Sys2Proof Sys2Proof.Safety

theorem bookReceive_keeps {s t : State} {x0 x1 x2 x3 x4 x5} {p} (h : Keeps s t) (e : bookReceive x0 x1 x2 x3 x4 x5 t = some p) : Keeps s p := by
  induction x4 generalizing x0 x1 x2 x3 x5 t p with
  | zero =>
    unfold bookReceive at e
    revert e
    repeat' with_reducible first | assumption | (intro e; cases e)
  | succ _ ih =>
    unfold bookReceive at e
    revert e
    repeat' with_reducible first | assumption | apply addEnergy_keeps | apply bookN_keeps | (refine fun e => ih ?_ e) | (refine Keeps.foldl (fun _ _ _ => ?_) _ ?_ <;> try dsimp only) | simp only [Keeps.mk_iff] | split | (intro e; cases e)
theorem preemptRounds_keeps {s t : State} {x0 x1 x2 x3 x4} (h : Keeps s t) : Keeps s (preemptRounds x0 x1 x2 x3 x4 t) := by
  induction x2 generalizing x0 x1 x3 x4 t with
  | zero =>
    unfold preemptRounds
    assumption
  | succ _ ih =>
    unfold preemptRounds
    repeat' with_reducible first | assumption | apply preempt_keeps | apply ih | (refine Keeps.foldl (fun _ _ _ => ?_) _ ?_ <;> try dsimp only) | refine Keeps.ite (fun _ => ?_) (fun _ => ?_)
theorem preemptFor_keeps {s t : State} {x0 x1} (h : Keeps s t) : Keeps s (preemptFor x0 x1 t) := by
  unfold preemptFor
  repeat' with_reducible first | assumption | apply preemptRounds_keeps | refine Keeps.ite (fun _ => ?_) (fun _ => ?_)
theorem placeXfer_keeps {s t : State} {x0 x1 x2 x3 x4 x5} {p} (h : Keeps s t) (e : placeXfer x0 x1 x2 x3 x4 x5 t = some p) : Keeps s p.1 := by
  unfold placeXfer at e
  revert e
  repeat' with_reducible first | assumption | refine bookReceive_keeps (p := _) ?_ (by assumption) | apply preemptFor_keeps | (refine fun e => placeWithWalks_keeps (fun _ => ?_) ?_ e <;> try dsimp only) | (refine fun e => placeWithFrames_keeps (fun _ => ?_) ?_ e <;> try dsimp only) | (refine fun e => runPhase_keeps ?_ e) | simp only [Keeps.mk_iff] | split | (intro e; cases e)
theorem heatPieces_keeps {s t : State} {x0} (h : Keeps s t) : Keeps s (heatPieces x0 t) := by
  unfold heatPieces
  repeat' with_reducible first | assumption | apply heatSpan_keeps | (refine Keeps.foldl (fun _ _ _ => ?_) _ ?_ <;> try dsimp only)
theorem servePieces_keeps {s t : State} {x0 x1 x2 x3} (h : Keeps s t) : Keeps s (servePieces x0 x1 x2 x3 t).2 := by
  induction x3 generalizing x0 x1 x2 t with
  | nil =>
    unfold servePieces
    assumption
  | cons _ _ ih =>
    unfold servePieces
    repeat' with_reducible first | assumption | refine Keeps.of_pair (by assumption) (hbmRange_keeps ?_) | apply ih | split
theorem writePieces_keeps {s t : State} {x0 x1} (h : Keeps s t) : Keeps s (writePieces x0 x1 t) := by
  induction x0 generalizing x1 t with
  | nil =>
    unfold writePieces
    assumption
  | cons _ _ ih =>
    unfold writePieces
    repeat' with_reducible first | assumption | apply unitWrite_keeps | apply ih
theorem servedRange_keeps {s t : State} {x0 x1 x2 x3 x4 x5 x6} (h : Keeps s t) : Keeps s (servedRange x0 x1 x2 x3 x4 x5 x6 t).2 := by
  unfold servedRange
  repeat' with_reducible first | assumption | apply xlateFault_keeps | refine Keeps.of_pair (by assumption) (servePieces_keeps ?_) | simp only [Keeps.mk_iff] | split
theorem endXfer_keeps {s t : State} {x0 x1 x2 x3 x4 x5 x6} (h : Keeps s t) : Keeps s (endXfer x0 x1 x2 x3 x4 x5 x6 t) := by
  unfold endXfer
  repeat' with_reducible first | assumption | apply updCmd_keeps | apply updReq_keeps | apply cvAdd_keeps | refine Keeps.ite (fun _ => ?_) (fun _ => ?_) | simp only [Keeps.mk_iff] | split
theorem moveBytes_keeps {s t : State} {x0 x1 x2 x3 x4 x5 x6 x7} (h : Keeps s t) : Keeps s (moveBytes x0 x1 x2 x3 x4 x5 x6 x7 t) := by
  unfold moveBytes
  repeat' with_reducible first | assumption | apply endXfer_keeps | apply updCmd_keeps | refine Keeps.of_pair (by assumption) (servedRange_keeps ?_) | apply heatPieces_keeps | apply sendRange_keeps | apply act_keeps | apply cvAdd_keeps | apply writePieces_keeps | refine Keeps.ite (fun _ => ?_) (fun _ => ?_) | simp only [Keeps.mk_iff] | split
theorem moveTo_keeps {s t : State} {x0 x1 x2 x3 x4 x5 x6} (h : Keeps s t) : Keeps s (moveTo x0 x1 x2 x3 x4 x5 x6 t) := by
  unfold moveTo
  repeat' with_reducible first | assumption | apply moveBytes_keeps | (refine Keeps.foldl (fun _ _ _ => ?_) _ ?_ <;> try dsimp only) | split
theorem paceXfer_keeps {s t : State} {x0 x1 x2 x3 x4 x5 x6} (h : Keeps s t) : Keeps s (paceXfer x0 x1 x2 x3 x4 x5 x6 t) := by
  unfold paceXfer
  repeat' with_reducible first | assumption | apply actAs_keeps | apply moveTo_keeps | refine Keeps.ite (fun _ => ?_) (fun _ => ?_)
theorem startXfer_keeps {s t : State} {x0} (h : Keeps s t) : Keeps s (startXfer x0 t) := by
  unfold startXfer
  repeat' with_reducible first | assumption | apply takeFrames_keeps
theorem countBytes_keeps {s t : State} {x0 x1} (h : Keeps s t) : Keeps s (countBytes x0 x1 t) := by
  unfold countBytes
  repeat' with_reducible first | assumption | apply advance_keeps | apply updCmd_keeps | refine Keeps.ite (fun _ => ?_) (fun _ => ?_) | split

end Sys2Proof.Machine
end

