-- ==== Sys2Proof/Laws/KeepsBanks.lean ====
section
/-! SUPPORT. The operations of Machine/Banks.lean leave the queue as it is and keep canonical memories canonical. -/

namespace Sys2Proof.Machine
open Sys2Proof Sys2Proof.Safety

theorem setBankByte_keeps {s t : State} {x0 x1} (h : Keeps s t) : Keeps s (setBankByte x0 x1 t) := by
  unfold setBankByte
  repeat' with_reducible first | simp only [Keeps.mk_iff, Keeps.mk_mem_iff] | (refine Keeps.mem (u := t) (by assumption) ?_ ?_ ?_ ?_ <;> first | exact id | exact writeCells_wf _ _ | exact set_wf _ _ | exact filter_wf _ | exact zeroCells_wf _ _ | exact (fun _ => memory_wf_nil))
theorem writeSpace_keeps {s t : State} {x0 x1 x2 x3} (h : Keeps s t) : Keeps s (writeSpace x0 x1 x2 x3 t) := by
  induction x3 generalizing x0 x1 x2 t with
  | nil =>
    unfold writeSpace
    assumption
  | cons _ _ ih =>
    unfold writeSpace
    repeat' with_reducible first | assumption | apply setBankByte_keeps | apply ih
theorem serveSpace_keeps {s t : State} {x0 x1 x2 x3 x4} (h : Keeps s t) : Keeps s (serveSpace x0 x1 x2 x3 x4 t).2 := by
  induction x4 generalizing x0 x1 x2 x3 t with
  | nil =>
    unfold serveSpace
    assumption
  | cons _ _ ih =>
    unfold serveSpace
    repeat' with_reducible first | assumption | refine Keeps.of_pair (by assumption) (sramWord_keeps ?_) | apply ih | simp only [Keeps.mk_iff] | split
theorem spaceRange_keeps {s t : State} {x0 x1 x2 x3 x4 x5} (h : Keeps s t) : Keeps s (spaceRange x0 x1 x2 x3 x4 x5 t).2 := by
  unfold spaceRange
  repeat' with_reducible first | assumption | apply serveSpace_keeps | split

end Sys2Proof.Machine
end

