-- ==== Sys2Proof/Laws/KeepsGather.lean ====
section
/-! SUPPORT. The operations of Machine/Gather.lean leave the queue as it is and keep canonical memories canonical. -/

namespace Sys2Proof.Machine
open Sys2Proof Sys2Proof.Safety

theorem setTable_keeps {s t : State} {x0 x1} (h : Keeps s t) : Keeps s (setTable x0 x1 t) := by
  unfold setTable
  repeat' with_reducible first | assumption | simp only [Keeps.mk_iff]
theorem placeGather_keeps {s t : State} {x0 x1 x2 x3 x4} {p} (h : Keeps s t) (e : placeGather x0 x1 x2 x3 x4 t = some p) : Keeps s p.1 := by
  unfold placeGather at e
  revert e
  repeat' with_reducible first | assumption | (refine fun e => placeWithWalks_keeps (fun _ => ?_) ?_ e <;> try dsimp only) | (refine fun e => runPhase_keeps ?_ e)
theorem raiseFreq_keeps {s t : State} {x0 x1 x2} (h : Keeps s t) : Keeps s (raiseFreq x0 x1 x2 t) := by
  unfold raiseFreq
  repeat' with_reducible first | assumption | simp only [Keeps.mk_iff]
theorem evictFor_keeps {s t : State} {x0 x1 x2} (h : Keeps s t) : Keeps s (evictFor x0 x1 x2 t) := by
  induction x2 generalizing x0 x1 t with
  | zero =>
    unfold evictFor
    assumption
  | succ _ ih =>
    unfold evictFor
    repeat' with_reducible first | assumption | apply ih | refine Keeps.ite (fun _ => ?_) (fun _ => ?_) | simp only [Keeps.mk_iff] | split
theorem rowLines_keeps {s t : State} {x0 x1 x2 x3 x4} (h : Keeps s t) : Keeps s (rowLines x0 x1 x2 x3 x4 t).2 := by
  induction x4 generalizing x0 x1 x2 x3 t with
  | nil =>
    unfold rowLines
    assumption
  | cons _ _ ih =>
    unfold rowLines
    repeat' with_reducible first | assumption | refine Keeps.of_pair (by assumption) (sramWord_keeps ?_) | apply cvAdd_keeps | apply detectRec_keeps | apply ih | split
theorem lookupRow_keeps {s t : State} {x0 x1 x2 x3 x4 x5 x6 x7 x8} (h : Keeps s t) : Keeps s (lookupRow x0 x1 x2 x3 x4 x5 x6 x7 x8 t).2 := by
  unfold lookupRow
  repeat' with_reducible first | assumption | apply raiseFreq_keeps | (refine fun e => Keeps.of_pair e (rowLines_keeps ?_)) | apply cvAdd_keeps | refine Keeps.of_pair (by assumption) (hbmRange_keeps ?_) | apply evictFor_keeps | apply heatSpan_keeps | simp only [Keeps.mk_iff, Keeps.mk_mem_iff] | split | (intro e; cases e) | refine Keeps.of_prod (by assumption) (fun _ _ => ?_)
theorem releaseRows_keeps {s t : State} {x0} (h : Keeps s t) : Keeps s (releaseRows x0 t) := by
  unfold releaseRows
  repeat' with_reducible first | assumption | simp only [Keeps.mk_iff]
theorem setBatch_keeps {s t : State} {x0 x1 x2} (h : Keeps s t) : Keeps s (setBatch x0 x1 x2 t) := by
  unfold setBatch
  repeat' with_reducible first | assumption | simp only [Keeps.mk_iff]
theorem readArray_keeps {s t : State} {x0 x1 x2 x3 x4 x5} (h : Keeps s t) : Keeps s (readArray x0 x1 x2 x3 x4 x5 t).2 := by
  unfold readArray
  repeat' with_reducible first | assumption | refine Keeps.of_pair (by assumption) (servedRange_keeps ?_) | apply heatPieces_keeps | split
theorem heldRow_keeps {s t : State} {x0 x1 x2 x3 x4} (h : Keeps s t) : Keeps s (heldRow x0 x1 x2 x3 x4 t).2 := by
  unfold heldRow
  repeat' with_reducible first | assumption | apply rowLines_keeps | split
theorem lookupKeys_keeps {s t : State} {x0 x1 x2 x3 x4 x5 x6 x7} (h : Keeps s t) : Keeps s (lookupKeys x0 x1 x2 x3 x4 x5 x6 x7 t).2 := by
  induction x6 generalizing x0 x1 x2 x3 x4 x5 x7 t with
  | nil =>
    unfold lookupKeys
    assumption
  | cons _ _ ih =>
    unfold lookupKeys
    repeat' with_reducible first | assumption | refine Keeps.of_pair (by assumption) (heldRow_keeps ?_) | refine Keeps.of_pair (by assumption) (lookupRow_keeps ?_) | apply ih | simp only [Keeps.mk_iff] | split
theorem writeBag_keeps {s t : State} {x0 x1 x2 x3 x4} (h : Keeps s t) : Keeps s (writeBag x0 x1 x2 x3 x4 t).2 := by
  unfold writeBag
  repeat' with_reducible first | assumption | refine Keeps.of_pair (by assumption) (servedRange_keeps ?_) | apply writePieces_keeps | apply writeSpace_keeps | simp only [Keeps.mk_iff] | split
theorem poolBag_keeps {s t : State} {x0 x1 x2 x3 x4 x5 x6 x7 x8 x9} (h : Keeps s t) : Keeps s (poolBag x0 x1 x2 x3 x4 x5 x6 x7 x8 x9 t).2 := by
  unfold poolBag
  repeat' with_reducible first | assumption | apply lookupKeys_keeps | apply useOrders_keeps | apply cvAdd_keeps | simp only [Keeps.mk_iff] | split
theorem takeBag_keeps {s t : State} {x0 x1 x2 x3 x4 x5 x6 x7 x8 x9 x10} (h : Keeps s t) : Keeps s (takeBag x0 x1 x2 x3 x4 x5 x6 x7 x8 x9 x10 t).2 := by
  unfold takeBag
  repeat' with_reducible first | assumption | apply cvAdd_keeps | apply poolBag_keeps | apply useOrders_keeps | simp only [Keeps.mk_iff] | split
theorem doBag_keeps {s t : State} {x0 x1 x2 x3 x4 x5} (h : Keeps s t) : Keeps s (doBag x0 x1 x2 x3 x4 x5 t).2 := by
  unfold doBag
  repeat' with_reducible first | assumption | refine Keeps.of_pair (by assumption) (readArray_keeps ?_) | (refine fun e => Keeps.of_pair e (readArray_keeps ?_)) | apply takeBag_keeps | simp only [Keeps.mk_iff] | split | refine Keeps.of_prod (by assumption) (fun _ _ => ?_) | (intro e; cases e)
theorem takeBags_keeps {s : State} {t : GatherRun × State} {x0 x1 x2 x3 x4 x5 x6} (h : Keeps s t.2) : Keeps s (takeBags x0 x1 x2 x3 x4 x5 x6 t).2 := by
  induction x6 generalizing x0 x1 x2 x3 x4 x5 t with
  | zero =>
    unfold takeBags
    assumption
  | succ _ ih =>
    unfold takeBags
    repeat' with_reducible first | assumption | apply doBag_keeps | apply ih | split
theorem writeBags_keeps {s : State} {t : GatherRun × State} {x0 x1 x2 x3 x4 x5 x6} (h : Keeps s t.2) : Keeps s (writeBags x0 x1 x2 x3 x4 x5 x6 t).2 := by
  unfold writeBags
  repeat' with_reducible first | assumption | refine Keeps.of_pair (by assumption) (writeBag_keeps ?_) | apply updCmd_keeps | (refine Keeps.foldl_third (fun _ _ _ => ?_) _ ?_ <;> try dsimp only) | split
theorem chargeBags_keeps {s : State} {t : GatherRun × State} {x0 x1 x2 x3 x4} (h : Keeps s t.2) : Keeps s (chargeBags x0 x1 x2 x3 x4 t).2 := by
  unfold chargeBags
  repeat' with_reducible first | assumption | apply act_keeps
theorem startGather_keeps {s t : State} {x0 x1} (h : Keeps s t) : Keeps s (startGather x0 x1 t) := by
  unfold startGather
  repeat' with_reducible first | assumption | apply setBatch_keeps
theorem paceGather_keeps {s t : State} {x0 x1 x2 x3 x4 x5} (h : Keeps s t) : Keeps s (paceGather x0 x1 x2 x3 x4 x5 t) := by
  unfold paceGather
  repeat' with_reducible first | assumption | apply chargeBags_keeps | apply writeBags_keeps | apply takeBags_keeps | apply updReq_keeps | apply updCmd_keeps | apply releaseRows_keeps | apply setBatch_keeps | refine Keeps.ite (fun _ => ?_) (fun _ => ?_) | simp only [Keeps.mk_iff] | split
theorem switchTable_keeps {s t : State} {x0 x1 x2 x3} (h : Keeps s t) : Keeps s (switchTable x0 x1 x2 x3 t) := by
  unfold switchTable
  repeat' with_reducible first | assumption | apply setTable_keeps
theorem applySetSwitch_keeps {s t : State} {x0 x1} (h : Keeps s t) : Keeps s (applySetSwitch x0 x1 t).2 := by
  unfold applySetSwitch
  repeat' with_reducible first | assumption | apply switchTable_keeps | (refine Keeps.foldl (fun _ _ _ => ?_) _ ?_ <;> try dsimp only)
theorem markSet_keeps {s t : State} {x0 x1} (h : Keeps s t) : Keeps s (markSet x0 x1 t) := by
  unfold markSet
  repeat' with_reducible first | assumption | simp only [Keeps.mk_iff]

end Sys2Proof.Machine
end

