-- ==== Sys2Proof/Laws/KeepsSearch.lean ====
section
/-! SUPPORT. The operations of Machine/Search.lean leave the queue as it is and keep canonical memories canonical. -/

namespace Sys2Proof.Machine
open Sys2Proof Sys2Proof.Safety

theorem setColl_keeps {s t : State} {x0 x1} (h : Keeps s t) : Keeps s (setColl x0 x1 t) := by
  unfold setColl
  repeat' with_reducible first | assumption | simp only [Keeps.mk_iff]
theorem Run.ok_keeps {s t : State} {α : Type} {a : α} (h : Keeps s t) : Keeps s (Run.ok a t).2 := h
theorem Run.stop_keeps {s t : State} {α : Type} {a : PartEnd} (h : Keeps s t) : Keeps s ((Run.stop a : Run α) t).2 := h
theorem Run.andThen_keeps {s : State} {α β : Type} {x : Run α} {f : α → Run β} (hx : ∀ {t}, Keeps s t → Keeps s (x t).2)
    (hf : ∀ {a t}, Keeps s t → Keeps s (f a t).2) {t} (h : Keeps s t) : Keeps s (Run.andThen x f t).2 := by
  have k := hx h
  unfold Run.andThen
  split <;> rename_i e <;> rw [e] at k
  · exact hf k
  · exact k
theorem Run.forEach_keeps {s : State} {α β : Type} {l : List α} {b : β} {f : β → α → Run β}
    (hf : ∀ {b a t}, Keeps s t → Keeps s (f b a t).2) {t} (h : Keeps s t) : Keeps s (Run.forEach l b f t).2 := by
  suffices ∀ (l : List α) (r : Run β), (∀ {t}, Keeps s t → Keeps s (r t).2) → ∀ {t}, Keeps s t →
      Keeps s (l.foldl (fun acc x => Run.andThen acc (fun b => f b x)) r t).2 from this l _ (fun k => k) h
  intro l
  induction l with
  | nil => intro r hr t k; exact hr k
  | cons a l ih => intro r hr t k; exact ih _ (fun k => Run.andThen_keeps hr hf k) k
theorem rd_keeps {s t : State} {x0 x1 x2 x3 x4} (h : Keeps s t) : Keeps s (rd x0 x1 x2 x3 x4 t).2 := by
  unfold rd
  repeat' with_reducible first | assumption | refine Keeps.of_pair (by assumption) (hbmRange_keeps ?_) | apply heatSpan_keeps | apply act_keeps | split
theorem rdArray_keeps {s t : State} {x0 x1 x2 x3 x4 x5} (h : Keeps s t) : Keeps s (rdArray x0 x1 x2 x3 x4 x5 t).2 := by
  unfold rdArray
  repeat' with_reducible first | assumption | apply rd_keeps | refine Keeps.of_pair (by assumption) (servedRange_keeps ?_) | apply heatPieces_keeps | apply act_keeps | split
theorem rdVec_keeps {s t : State} {x0 x1 x2 x3 x4} (h : Keeps s t) : Keeps s (rdVec x0 x1 x2 x3 x4 t).2 := by
  unfold rdVec
  repeat' with_reducible first | assumption | (refine Run.andThen_keeps (fun _ => ?_) (fun _ => ?_) ?_ <;> try dsimp only) | apply rd_keeps | apply Run.ok_keeps
theorem rdDir_keeps {s t : State} {x0 x1 x2 x3 x4 x5} (h : Keeps s t) : Keeps s (rdDir x0 x1 x2 x3 x4 x5 t).2 := by
  unfold rdDir
  repeat' with_reducible first | assumption | (refine Run.andThen_keeps (fun _ => ?_) (fun _ => ?_) ?_ <;> try dsimp only) | apply rd_keeps | split
theorem rdResolve_keeps {s t : State} {x0 x1 x2 x3 x4 x5} (h : Keeps s t) : Keeps s (rdResolve x0 x1 x2 x3 x4 x5 t).2 := by
  unfold rdResolve
  repeat' with_reducible first | assumption | (refine Run.andThen_keeps (fun _ => ?_) (fun _ => ?_) ?_ <;> try dsimp only) | apply rdDir_keeps | apply Run.ok_keeps | split
theorem write_keeps {s t : State} {x0 x1} (h : Keeps s t) : Keeps s (write x0 x1 t).2 := by
  unfold write
  repeat' with_reducible first | assumption | apply listWrite_keeps
theorem centroidHit_keeps {s t : State} {x0 x1 x2 x3 x4 x5} (h : Keeps s t) : Keeps s (centroidHit x0 x1 x2 x3 x4 x5 t).2 := by
  unfold centroidHit
  repeat' with_reducible first | assumption | (refine Run.andThen_keeps (fun _ => ?_) (fun _ => ?_) ?_ <;> try dsimp only) | apply rdVec_keeps | apply Run.ok_keeps
theorem expand_keeps {s t : State} {x0 x1 x2 x3 x4 x5 x6 x7} (h : Keeps s t) : Keeps s (expand x0 x1 x2 x3 x4 x5 x6 x7 t).2 := by
  unfold expand
  repeat' with_reducible first | assumption | (refine Run.andThen_keeps (fun _ => ?_) (fun _ => ?_) ?_ <;> try dsimp only) | apply rd_keeps | (refine Run.forEach_keeps (fun _ => ?_) ?_ <;> try dsimp only) | apply rdResolve_keeps | apply Run.ok_keeps | apply centroidHit_keeps | simp only [Keeps.mk_iff] | split
theorem iterate_keeps {s : State} {α : Type} {f : α → Run α} (hf : ∀ {a t}, Keeps s t → Keeps s (f a t).2) {n a t} (h : Keeps s t) :
    Keeps s (iterate f n a t).2 := by
  induction n generalizing a t with
  | zero => exact h
  | succ n ih => exact Run.andThen_keeps hf ih h
theorem walkQuery_keeps {s t : State} {x0 x1 x2 x3 x4} (h : Keeps s t) : Keeps s (walkQuery x0 x1 x2 x3 x4 t).2 := by
  unfold walkQuery
  repeat' with_reducible first | assumption | (refine Run.andThen_keeps (fun _ => ?_) (fun _ => ?_) ?_ <;> try dsimp only) | apply rdResolve_keeps | apply centroidHit_keeps | (refine iterate_keeps (fun _ => ?_) ?_ <;> try dsimp only) | apply expand_keeps | apply Run.ok_keeps
theorem placeSearch_keeps {s t : State} {x0 x1 x2} {p} (h : Keeps s t) (e : placeSearch x0 x1 x2 t = some p) : Keeps s p.1 := by
  unfold placeSearch at e
  revert e
  repeat' with_reducible first | assumption | refine runPhase_keeps (p := (_, _, _)) ?_ (by assumption) | simp only [Keeps.mk_iff] | split | (intro e; cases e)
theorem assignQuery_keeps {s t : State} {x0 x1 x2 x3 x4 x5 x6} (h : Keeps s t) : Keeps s (assignQuery x0 x1 x2 x3 x4 x5 x6 t).2 := by
  unfold assignQuery
  repeat' with_reducible first | assumption | (refine Run.andThen_keeps (fun _ => ?_) (fun _ => ?_) ?_ <;> try dsimp only) | (refine Run.forEach_keeps (fun _ => ?_) ?_ <;> try dsimp only) | apply rdResolve_keeps | apply rdDir_keeps | apply Run.ok_keeps | split
theorem loadQuery_keeps {s t : State} {x0 x1 x2 x3 x4} (h : Keeps s t) : Keeps s (loadQuery x0 x1 x2 x3 x4 t).2 := by
  unfold loadQuery
  repeat' with_reducible first | assumption | (refine Run.andThen_keeps (fun _ => ?_) (fun _ => ?_) ?_ <;> try dsimp only) | apply rdVec_keeps | apply Run.ok_keeps | apply rd_keeps | apply write_keeps | split
theorem queryOf_keeps {s t : State} {x0 x1 x2 x3} (h : Keeps s t) : Keeps s (queryOf x0 x1 x2 x3 t).2 := by
  unfold queryOf
  repeat' with_reducible first | assumption | refine Keeps.of_pair (by assumption) (hbmRange_keeps ?_) | simp only [Keeps.mk_iff] | split
theorem flashPage_keeps {s t : State} {x0 x1 x2 x3 x4} (h : Keeps s t) : Keeps s (flashPage x0 x1 x2 x3 x4 t).2 := by
  unfold flashPage
  repeat' with_reducible first | assumption | apply inject_keeps | apply act_keeps | apply errRec_keeps | apply cvAdd_keeps | apply detect_keeps | refine Keeps.ite (fun _ => ?_) (fun _ => ?_) | simp only [Keeps.mk_iff] | split
theorem ldpcFail_keeps {s t : State} {x0 x1 x2} (h : Keeps s t) : Keeps s (ldpcFail x0 x1 x2 t) := by
  unfold ldpcFail
  repeat' with_reducible first | assumption | apply cvAdd_keeps | apply detectRec_keeps
theorem listItems_keeps {s t : State} {x0 x1 x2 x3 x4 x5 x6 x7} (h : Keeps s t) : Keeps s (listItems x0 x1 x2 x3 x4 x5 x6 x7 t).2 := by
  unfold listItems
  repeat' with_reducible first | assumption | refine Keeps.of_pair (by assumption) (flashPage_keeps ?_) | apply ldpcFail_keeps | simp only [Keeps.mk_iff] | split
theorem wr_keeps {s t : State} {x0 x1 x2 x3} (h : Keeps s t) : Keeps s (wr x0 x1 x2 x3 t).2 := by
  unfold wr
  repeat' with_reducible first | assumption | apply listWrite_keeps | apply act_keeps
theorem walkOne_keeps {s t : State} {x0 x1 x2 x3 x4} (h : Keeps s t) : Keeps s (walkOne x0 x1 x2 x3 x4 t).2 := by
  unfold walkOne
  repeat' with_reducible first | assumption | (refine Run.andThen_keeps (fun _ => ?_) (fun _ => ?_) ?_ <;> try dsimp only) | apply loadQuery_keeps | apply rd_keeps | apply Run.ok_keeps | apply walkQuery_keeps | split
theorem assignAll_keeps {s t : State} {x0 x1 x2 x3 x4} (h : Keeps s t) : Keeps s (assignAll x0 x1 x2 x3 x4 t).2 := by
  unfold assignAll
  repeat' with_reducible first | assumption | (refine Run.andThen_keeps (fun _ => ?_) (fun _ => ?_) ?_ <;> try dsimp only) | (refine Run.forEach_keeps (fun _ => ?_) ?_ <;> try dsimp only) | apply assignQuery_keeps | apply cvAdd_keeps | apply act_keeps
theorem sideOne_keeps {s t : State} {x0 x1 x2 x3 x4 x5} (h : Keeps s t) : Keeps s (sideOne x0 x1 x2 x3 x4 x5 t).2 := by
  unfold sideOne
  repeat' with_reducible first | assumption | (refine Run.andThen_keeps (fun _ => ?_) (fun _ => ?_) ?_ <;> try dsimp only) | apply queryOf_keeps | apply wr_keeps | apply Run.ok_keeps | apply act_keeps
theorem scanOne_keeps {s t : State} {x0 x1 x2 x3 x4 x5} (h : Keeps s t) : Keeps s (scanOne x0 x1 x2 x3 x4 x5 t).2 := by
  unfold scanOne
  repeat' with_reducible first | assumption | (refine Run.andThen_keeps (fun _ => ?_) (fun _ => ?_) ?_ <;> try dsimp only) | apply listItems_keeps | (refine Run.forEach_keeps (fun _ => ?_) ?_ <;> try dsimp only) | apply queryOf_keeps | apply wr_keeps | apply Run.ok_keeps | apply cvAdd_keeps
theorem mergeOne_keeps {s t : State} {x0 x1 x2 x3 x4 x5} (h : Keeps s t) : Keeps s (mergeOne x0 x1 x2 x3 x4 x5 t).2 := by
  unfold mergeOne
  repeat' with_reducible first | assumption | (refine Run.andThen_keeps (fun _ => ?_) (fun _ => ?_) ?_ <;> try dsimp only) | (refine Run.forEach_keeps (fun _ => ?_) ?_ <;> try dsimp only) | apply rd_keeps | apply Run.ok_keeps | apply wr_keeps | split
theorem setSearch_keeps {s t : State} {x0 x1 x2} (h : Keeps s t) : Keeps s (setSearch x0 x1 x2 t) := by
  unfold setSearch
  repeat' with_reducible first | assumption | simp only [Keeps.mk_iff]
theorem startSearch_keeps {s t : State} {x0 x1} (h : Keeps s t) : Keeps s (startSearch x0 x1 t) := by
  unfold startSearch
  repeat' with_reducible first | assumption | apply setSearch_keeps
theorem stepSearch_keeps {s t : State} {x0 x1 x2 x3 x4 x5 x6} (h : Keeps s t) : Keeps s (stepSearch x0 x1 x2 x3 x4 x5 x6 t).2 := by
  unfold stepSearch
  repeat' with_reducible first | assumption | (refine Run.forEach_keeps (fun _ => ?_) ?_ <;> try dsimp only) | (refine Run.andThen_keeps (fun _ => ?_) (fun _ => ?_) ?_ <;> try dsimp only) | apply walkOne_keeps | apply Run.ok_keeps | apply assignAll_keeps | apply sideOne_keeps | apply scanOne_keeps | apply mergeOne_keeps | split
theorem paceSearch_keeps {s t : State} {x0 x1 x2 x3 x4 x5} (h : Keeps s t) : Keeps s (paceSearch x0 x1 x2 x3 x4 x5 t) := by
  unfold paceSearch
  repeat' with_reducible first | assumption | refine Keeps.of_pair (by assumption) (stepSearch_keeps ?_) | apply updCmd_keeps | apply setSearch_keeps | apply updReq_keeps | simp only [Keeps.mk_iff] | split
theorem placeSide_keeps {s t : State} {x0 x1 x2 x3 x4 x5 x6 x7 x8} {p} (h : Keeps s t) (e : placeSide x0 x1 x2 x3 x4 x5 x6 x7 x8 t = some p) : Keeps s p.1 := by
  unfold placeSide at e
  revert e
  repeat' with_reducible first | assumption | (refine fun e => placeWithWalks_keeps (fun _ => ?_) ?_ e <;> try dsimp only) | (refine fun e => runPhase_keeps ?_ e)
theorem takeBlock_keeps {s t : State} {x0} (h : Keeps s t) : Keeps s (takeBlock x0 t).2 := by
  unfold takeBlock
  repeat' with_reducible first | assumption | apply setColl_keeps | simp only [Keeps.mk_iff] | split
theorem appendRec_keeps {s t : State} {x0 x1 x2 x3 x4 x5} (h : Keeps s t) : Keeps s (appendRec x0 x1 x2 x3 x4 x5 t) := by
  unfold appendRec
  repeat' with_reducible first | assumption | apply takeBlock_keeps | apply listWrite_keeps | apply setColl_keeps | refine Keeps.ite (fun _ => ?_) (fun _ => ?_) | split
theorem voidSeq_keeps {s t : State} {x0 x1} (h : Keeps s t) : Keeps s (voidSeq x0 x1 t) := by
  unfold voidSeq
  repeat' with_reducible first | assumption | apply listWrite_keeps | (refine Keeps.foldl (fun _ _ _ => ?_) _ ?_ <;> try dsimp only) | refine Keeps.ite (fun _ => ?_) (fun _ => ?_)
theorem sideElement_keeps {s t : State} {x0 x1 x2 x3 x4 x5 x6 x7 x8} (h : Keeps s t) : Keeps s (sideElement x0 x1 x2 x3 x4 x5 x6 x7 x8 t).2 := by
  unfold sideElement
  repeat' with_reducible first | assumption | (refine Run.andThen_keeps (fun _ => ?_) (fun _ => ?_) ?_ <;> try dsimp only) | apply rdArray_keeps | apply appendRec_keeps | apply act_keeps | (refine Keeps.foldl (fun _ _ _ => ?_) _ ?_ <;> try dsimp only) | split
theorem paceSide_keeps {s t : State} {x0 x1 x2 x3 x4 x5 x6 x7 x8 x9 x10} (h : Keeps s t) : Keeps s (paceSide x0 x1 x2 x3 x4 x5 x6 x7 x8 x9 x10 t) := by
  unfold paceSide
  repeat' with_reducible first | assumption | (refine fun e => Keeps.of_pair e (Run.forEach_keeps (fun _ => ?_) ?_) <;> try dsimp only) | (refine Run.andThen_keeps (fun _ => ?_) (fun _ => ?_) ?_ <;> try dsimp only) | apply sideElement_keeps | apply Run.ok_keeps | apply updCmd_keeps | apply updReq_keeps | apply voidSeq_keeps | split | refine Keeps.of_prod (by assumption) (fun _ _ => ?_)

end Sys2Proof.Machine
end

