-- ==== Sys2Proof/Laws/KeepsSegment.lean ====
section
/-! SUPPORT. The operations of Machine/Segment.lean leave the queue as it is and keep canonical memories canonical. -/

namespace Sys2Proof.Machine
open Sys2Proof Sys2Proof.Safety

theorem placeSpan_keeps {s t : State} {x0 x2} (h : Keeps s t) : Keeps s (placeSpan x0 t x2) := by
  unfold placeSpan
  repeat' with_reducible first | assumption | apply addBook_keeps | (refine Keeps.foldl (fun _ _ _ => ?_) _ ?_ <;> try dsimp only) | simp only [Keeps.mk_iff] | split
theorem pitchPlaced_keeps {s t : State} {x0} (h : Keeps s t) : Keeps s (pitchPlaced x0 t) := by
  unfold pitchPlaced
  repeat' with_reducible first | assumption | apply placeSpan_keeps | (refine Keeps.foldl (fun _ _ _ => ?_) _ ?_ <;> try dsimp only)
theorem placePitch_keeps {s t : State} {x0} (h : Keeps s t) : Keeps s (placePitch x0 t) := by
  unfold placePitch
  repeat' with_reducible first | assumption | apply retimeRound_keeps | apply pitchPlaced_keeps | (refine Keeps.foldl (fun _ _ _ => ?_) _ ?_ <;> try dsimp only)
theorem bookSegRound_keeps {s t : State} {x0 x1 x2 x3 x4 x5} {p} (h : Keeps s t) (e : bookSegRound x0 x1 x2 x3 x4 x5 t = some p) : Keeps s p.1 := by
  unfold bookSegRound at e
  revert e
  repeat' with_reducible first | assumption | apply addBook_keeps | apply bookN_keeps | apply addEnergy_keeps | (refine Keeps.foldl (fun _ _ _ => ?_) _ ?_ <;> try dsimp only) | simp only [Keeps.mk_iff] | split | (intro e; cases e)
theorem placeSegRounds_keeps {s : State} {book d maxR s0} (hb : ∀ j r t p, Keeps s t → book j r t = some p → Keeps s p.1) (h0 : Keeps s s0)
    {n r j first last t p} (h : Keeps s t) (e : placeSegRounds book d maxR s0 n r j first last t = some p) : Keeps s p.1 := by
  induction n generalizing r j first last t with
  | zero => unfold placeSegRounds at e; cases e
  | succ n ih =>
    unfold placeSegRounds at e
    split at e
    · cases e; exact h
    · split at e
      · cases e
      · split at e
        · next e1 => exact ih (hb _ _ _ _ h e1) e
        · split at e
          · exact ih h0 e
          · exact ih h e
theorem bookTiles_keeps {s t : State} {x0 x1 x2 x3 x4} {p} (h : Keeps s t) (e : bookTiles x0 x1 x2 x3 x4 t = some p) : Keeps s p := by
  induction x4 generalizing x0 x1 x2 x3 t p with
  | nil =>
    unfold bookTiles at e
    revert e
    repeat' with_reducible first | assumption | (intro e; cases e)
  | cons _ _ ih =>
    unfold bookTiles at e
    revert e
    repeat' with_reducible first | assumption | refine bookWalkList_keeps (p := _) ?_ (by assumption) | (refine fun e => ih ?_ e) | simp only [Keeps.mk_iff] | split | (intro e; cases e)
theorem bookTileFills_keeps {s t : State} {x0 x1 x2 x3} {p} (h : Keeps s t) (e : bookTileFills x0 x1 x2 x3 t = some p) : Keeps s p.1 := by
  induction x3 generalizing x0 x1 x2 t p with
  | nil =>
    unfold bookTileFills at e
    revert e
    repeat' with_reducible first | assumption | (intro e; cases e)
  | cons _ _ ih =>
    unfold bookTileFills at e
    revert e
    repeat' with_reducible first | assumption | refine bookFills_keeps (p := (_, _)) ?_ (by assumption) | (refine fun e => ih ?_ e) | simp only [Keeps.mk_iff] | split | (intro e; cases e)
theorem placeSegment_keeps {s t : State} {x0 x1 x2 x3 x4 x5} {p} (h : Keeps s t) (e : placeSegment x0 x1 x2 x3 x4 x5 t = some p) : Keeps s p.1 := by
  induction x5 generalizing x0 x1 x2 x3 x4 t p with
  | zero =>
    unfold placeSegment at e
    revert e
    repeat' with_reducible first | (intro e; cases e)
  | succ _ ih =>
    unfold placeSegment at e
    revert e
    repeat' with_reducible first | assumption | refine bookVictims_keeps (p := (_, _)) ?_ (by assumption) | (refine fun e => placeSegRounds_keeps (fun _ _ _ _ g y => bookSegRound_keeps g y) ?_ ?_ e) | refine bookTileFills_keeps (p := (_, _)) ?_ (by assumption) | refine bookTiles_keeps (p := _) ?_ (by assumption) | (refine fun e => ih ?_ e) | simp only [Keeps.mk_iff] | split | (intro e; cases e) | refine Keeps.of_some (by assumption) (fun _ _ => ?_)

end Sys2Proof.Machine
end

