-- ==== Sys2Proof/Laws/KeepsLoader.lean ====
section
/-! SUPPORT. The operations of Machine/Loader.lean leave the queue as it is and keep canonical memories canonical. -/

namespace Sys2Proof.Machine
open Sys2Proof Sys2Proof.Safety

theorem endCmd_keeps {s t : State} {x0 x1 x2 x3 x4} (h : Keeps s t) : Keeps s (endCmd x0 x1 x2 x3 x4 t) := by
  unfold endCmd
  repeat' with_reducible first | assumption | apply updReq_keeps | apply updCmd_keeps | refine Keeps.ite (fun _ => ?_) (fun _ => ?_) | split
theorem noteChains_keeps {s t : State} (h : Keeps s t) : Keeps s (noteChains t) := by
  unfold noteChains
  repeat' with_reducible first | assumption | refine Keeps.ite (fun _ => ?_) (fun _ => ?_) | simp only [Keeps.mk_iff]
theorem sramEnd_keeps {s t : State} {x0 x1 x2 x3 x4 x5} (h : Keeps s t) : Keeps s (sramEnd x0 x1 x2 x3 x4 x5 t) := by
  unfold sramEnd
  repeat' with_reducible first | assumption | apply cvAdd_keeps | apply detectRec_keeps | apply endCmd_keeps | refine Keeps.ite (fun _ => ?_) (fun _ => ?_)
theorem loadPorters_keeps {s t : State} {x0 x1 x2} (h : Keeps s t) : Keeps s (loadPorters x0 x1 x2 t) := by
  unfold loadPorters
  repeat' with_reducible first | assumption | apply setBankByte_keeps | (refine Keeps.foldl (fun _ _ _ => ?_) _ ?_ <;> try dsimp only) | refine Keeps.ite (fun _ => ?_) (fun _ => ?_)
theorem refuseLoad_keeps {s t : State} {x0 x1 x2 x3 x4} (h : Keeps s t) : Keeps s (refuseLoad x0 x1 x2 x3 x4 t) := by
  unfold refuseLoad
  repeat' with_reducible first | assumption | apply endCmd_keeps | apply cvAdd_keeps | apply errRec_keeps
theorem loadPart_keeps {s : State} {r old q ci d} {x : State × Taken} (h : Keeps s x.1) : Keeps s (loadPart r old q ci d x).1 := by
  rw [loadPart]
  repeat' with_reducible first | assumption | apply refuseLoad_keeps | refine Keeps.of_pair (by assumption) (hbmRange_keeps ?_) | apply updReq_keeps | apply xlateFault_keeps | apply loadPorters_keeps | apply cvAdd_keeps | apply act_keeps | refine Keeps.ite (fun _ => ?_) (fun _ => ?_) | simp only [Keeps.mk_iff] | split
theorem loadOne_keeps {s : State} {r old} {x : State × Taken} {y} (h : Keeps s x.1) : Keeps s (loadOne r old x y).1 := by
  rw [loadOne]
  exact loadPart_keeps h
theorem loadAll_keeps {s t : State} {r old} (h : Keeps s t) : Keeps s (loadAll r old t) := by
  rw [loadAll]
  apply Keeps.foldl_fst
  · intro x a k
    exact loadOne_keeps k
  · exact h
theorem loadNext_keeps {s t : State} (h : Keeps s t) : Keeps s (loadNext t) := by
  rw [loadNext]
  split
  · exact h
  · exact loadAll_keeps (Keeps.mk_iff.mpr h)

end Sys2Proof.Machine
end

