-- ==== Sys2Proof/Laws/KeepsStreamOps.lean ====
section
/-! SUPPORT. The operations of Machine/StreamOps.lean leave the queue as it is and keep canonical memories canonical. -/

namespace Sys2Proof.Machine
open Sys2Proof Sys2Proof.Safety

theorem setCol_keeps {s t : State} {x0 x1} (h : Keeps s t) : Keeps s (setCol x0 x1 t) := by
  unfold setCol
  repeat' with_reducible first | assumption | simp only [Keeps.mk_iff]
theorem endCluster_keeps {s t : State} {x0 x1} (h : Keeps s t) : Keeps s (endCluster x0 x1 t) := by
  unfold endCluster
  repeat' with_reducible first | assumption | apply cvAdd_keeps | apply endCmd_keeps | (refine Keeps.foldl (fun _ _ _ => ?_) _ ?_ <;> try dsimp only)
theorem checkField_keeps {s t : State} {x0 x1 x2} (h : Keeps s t) : Keeps s (checkField x0 x1 x2 t).2 := by
  unfold checkField
  repeat' with_reducible first | assumption | apply endCluster_keeps | apply detectRec_keeps | apply inject_keeps | apply errRec_keeps | apply detect_keeps | apply cvAdd_keeps | apply endCmd_keeps | refine Keeps.ite (fun _ => ?_) (fun _ => ?_) | simp only [Keeps.mk_iff] | split
theorem spanStart_keeps {s t : State} {x0} (h : Keeps s t) : Keeps s (spanStart x0 t) := by
  unfold spanStart
  repeat' with_reducible first | assumption | apply setCol_keeps | refine Keeps.ite (fun _ => ?_) (fun _ => ?_) | simp only [Keeps.mk_iff] | split
theorem subfield_keeps {s : State} {col fits} {body : Span → Nat → Nat → State → State} (hb : ∀ {p w r t}, Keeps s t → Keeps s (body p w r t)) {t}
    (h : Keeps s t) : Keeps s (subfield col fits body t) := by
  unfold subfield
  split
  · exact h
  · dsimp only
    split
    · exact h
    · have k := checkField_keeps (x0 := col / 8) (x1 := (colSt t col).pos) (x2 := ‹Span›) h
      apply setCol_keeps
      split
      · exact hb k
      · split
        · exact cvAdd_keeps k
        · exact k
theorem opEnd_keeps {s t : State} {x0} (h : Keeps s t) : Keeps s (opEnd x0 t) := by
  unfold opEnd
  repeat' with_reducible first | assumption | apply checkField_keeps | apply setCol_keeps | apply cvAdd_keeps | refine Keeps.ite (fun _ => ?_) (fun _ => ?_) | simp only [Keeps.mk_iff] | split
theorem opNop_keeps {s t : State} {x0} (h : Keeps s t) : Keeps s (opNop x0 t) := by
  unfold opNop
  repeat' with_reducible first | assumption | (refine subfield_keeps (fun _ => ?_) ?_ <;> try dsimp only) | apply act_keeps
theorem loadRow_keeps {s t : State} {x0 x1 x2 x3 x4 x5 x6} (h : Keeps s t) : Keeps s (loadRow x0 x1 x2 x3 x4 x5 x6 t) := by
  unfold loadRow
  repeat' with_reducible first | assumption | simp only [Keeps.mk_iff]
theorem swapPlane_keeps {s t : State} {x0} (h : Keeps s t) : Keeps s (swapPlane x0 t) := by
  unfold swapPlane
  repeat' with_reducible first | assumption | simp only [Keeps.mk_iff]
theorem readBank_keeps {s t : State} {x0 x1 x2 x3 x4 x5} (h : Keeps s t) : Keeps s (readBank x0 x1 x2 x3 x4 x5 t).2 := by
  unfold readBank
  repeat' with_reducible first | assumption | refine Keeps.of_pair (by assumption) (spaceRange_keeps ?_) | apply sramEnd_keeps | apply endCmd_keeps | simp only [Keeps.mk_iff] | split
theorem loadStored_keeps {s t : State} {x0 x1 x2 x3 x4 x5} (h : Keeps s t) : Keeps s (loadStored x0 x1 x2 x3 x4 x5 t) := by
  unfold loadStored
  repeat' with_reducible first | assumption | refine Keeps.of_pair (by assumption) (readBank_keeps ?_) | (refine fun e => Keeps.of_pair e (readBank_keeps ?_)) | (refine fun e => Keeps.of_pair e (fresh_keeps ?_)) | apply loadRow_keeps | apply swapPlane_keeps | refine Keeps.ite (fun _ => ?_) (fun _ => ?_) | simp only [Keeps.mk_iff] | split | (intro e; cases e) | refine Keeps.of_prod (by assumption) (fun _ _ => ?_)
theorem opLoadw_keeps {s t : State} {x0} (h : Keeps s t) : Keeps s (opLoadw x0 t) := by
  unfold opLoadw
  repeat' with_reducible first | assumption | (refine subfield_keeps (fun _ => ?_) ?_ <;> try dsimp only) | apply act_keeps | apply loadStored_keeps | (refine Keeps.foldl (fun _ _ _ => ?_) _ ?_ <;> try dsimp only) | refine Keeps.ite (fun _ => ?_) (fun _ => ?_)
theorem macRow_keeps {s t : State} {col e r i bytes scales} (h : Keeps s t) : Keeps s (macRow col e r i bytes scales t).2 := by
  rw [macRow]
  exact Keeps.mk_iff.mpr h
theorem macBeside_keeps {s : State} {p col e r i} {m : Bool × State} (h : Keeps s m.2) : Keeps s (macBeside p col e r i m) := by
  rw [macBeside]
  split
  · apply loadStored_keeps
    split
    · exact cvAdd_keeps h
    · exact act_keeps h
  · split
    · exact cvAdd_keeps h
    · exact act_keeps h
theorem macRepeat_keeps {s t : State} {p col e r i} (h : Keeps s t) : Keeps s (macRepeat p col e r i t) := by
  rw [macRepeat]
  split
  · exact h
  · dsimp only
    split
    · next e1 => exact Keeps.of_pair e1 (readBank_keeps h)
    · next e1 =>
      have h1 := Keeps.of_pair e1 (readBank_keeps h)
      split
      · next e2 =>
        split at e2
        · exact Keeps.of_pair e2 (readBank_keeps h1)
        · cases e2
      · next e2 =>
        rename_i t2
        have h2 : Keeps s t2 := by
          split at e2
          · exact Keeps.of_pair e2 (readBank_keeps h1)
          · cases e2; exact h1
        exact macBeside_keeps (macRow_keeps h2)
theorem opMac_keeps {s t : State} {x0} (h : Keeps s t) : Keeps s (opMac x0 t) := by
  unfold opMac
  repeat' with_reducible first | assumption | (refine subfield_keeps (fun _ => ?_) ?_ <;> try dsimp only) | apply macRepeat_keeps | (refine Keeps.foldl (fun _ _ _ => ?_) _ ?_ <;> try dsimp only)
theorem putBank_keeps {s t : State} {x0 x1 x2 x3 x4} (h : Keeps s t) : Keeps s (putBank x0 x1 x2 x3 x4 t) := by
  unfold putBank
  repeat' with_reducible first | assumption | apply writeSpace_keeps | apply endCmd_keeps | refine Keeps.ite (fun _ => ?_) (fun _ => ?_)
theorem drainRow_keeps {s t : State} {x0 x1 x2 x3 x4} (h : Keeps s t) : Keeps s (drainRow x0 x1 x2 x3 x4 t) := by
  unfold drainRow
  repeat' with_reducible first | assumption | apply putBank_keeps | apply useOrders_keeps | refine Keeps.ite (fun _ => ?_) (fun _ => ?_)
theorem drainSat_keeps {s t : State} {x0 x1 x2 x3} (h : Keeps s t) : Keeps s (drainSat x0 x1 x2 x3 t) := by
  unfold drainSat
  repeat' with_reducible first | assumption | apply cvAdd_keeps | refine Keeps.ite (fun _ => ?_) (fun _ => ?_) | simp only [Keeps.mk_iff]
theorem drainRows_keeps {s t : State} {x0 x1 x2 x3 x4} (h : Keeps s t) : Keeps s (drainRows x0 x1 x2 x3 x4 t) := by
  unfold drainRows
  repeat' with_reducible first | assumption | apply drainSat_keeps | apply drainRow_keeps | (refine Keeps.foldl (fun _ _ _ => ?_) _ ?_ <;> try dsimp only) | refine Keeps.ite (fun _ => ?_) (fun _ => ?_)
theorem opDrain_keeps {s t : State} {x0} (h : Keeps s t) : Keeps s (opDrain x0 t) := by
  unfold opDrain
  repeat' with_reducible first | assumption | (refine subfield_keeps (fun _ => ?_) ?_ <;> try dsimp only) | apply act_keeps | apply drainRows_keeps
theorem setPorter_keeps {s t : State} {x0 x1} (h : Keeps s t) : Keeps s (setPorter x0 x1 t) := by
  unfold setPorter
  repeat' with_reducible first | assumption | simp only [Keeps.mk_iff]
theorem setMov_keeps {s t : State} {x0 x1} (h : Keeps s t) : Keeps s (setMov x0 x1 t) := by
  unfold setMov
  repeat' with_reducible first | assumption | simp only [Keeps.mk_iff]
theorem moveBurst_keeps {s t : State} {x0 x1 x2 x3 x4 x5} (h : Keeps s t) : Keeps s (moveBurst x0 x1 x2 x3 x4 x5 t) := by
  unfold moveBurst
  repeat' with_reducible first | assumption | refine Keeps.of_pair (by assumption) (readBank_keeps ?_) | apply putBank_keeps | apply endCmd_keeps | apply xlateFault_keeps | apply act_keeps | refine Keeps.of_pair (by assumption) (servedRange_keeps ?_) | apply heatPieces_keeps | apply writePieces_keeps | refine Keeps.ite (fun _ => ?_) (fun _ => ?_) | simp only [Keeps.mk_iff] | split
theorem moveField_keeps {s t : State} {x0 x1} (h : Keeps s t) : Keeps s (moveField x0 x1 t) := by
  unfold moveField
  repeat' with_reducible first | assumption | apply setMov_keeps | apply checkField_keeps | apply moveBurst_keeps | (refine Keeps.foldl (fun _ _ _ => ?_) _ ?_ <;> try dsimp only) | refine Keeps.ite (fun _ => ?_) (fun _ => ?_) | simp only [Keeps.mk_iff] | split
theorem overrun_keeps {s t : State} {x0 x1 x2 x3 x4} (h : Keeps s t) : Keeps s (overrun x0 x1 x2 x3 x4 t) := by
  unfold overrun
  repeat' with_reducible first | assumption | apply errRec_keeps | apply detectRec_keeps | apply endCmd_keeps | refine Keeps.ite (fun _ => ?_) (fun _ => ?_) | simp only [Keeps.mk_iff] | split
theorem spanOverrun_keeps {s t : State} {x0} (h : Keeps s t) : Keeps s (spanOverrun x0 t) := by
  unfold spanOverrun
  repeat' with_reducible first | assumption | apply setCol_keeps | apply setPorter_keeps | apply overrun_keeps | (refine Keeps.foldl (fun _ _ _ => ?_) _ ?_ <;> try dsimp only) | refine Keeps.ite (fun _ => ?_) (fun _ => ?_) | simp only [Keeps.mk_iff] | split
theorem bankReady_keeps {s t : State} {x0 x1} (h : Keeps s t) : Keeps s (bankReady x0 x1 t) := by
  unfold bankReady
  repeat' with_reducible first | assumption | refine Keeps.ite (fun _ => ?_) (fun _ => ?_) | simp only [Keeps.mk_iff]

end Sys2Proof.Machine
end

