-- ==== Sys2Proof/Laws/KeepsExtents.lean ====
section
/-! SUPPORT. The operations of Machine/Extents.lean leave the queue as it is and keep canonical memories canonical. -/

namespace Sys2Proof.Machine
open Sys2Proof Sys2Proof.Safety

theorem touchExt_keeps {s t : State} {x0 x1} (h : Keeps s t) : Keeps s (touchExt x0 x1 t) := by
  unfold touchExt
  repeat' with_reducible first | assumption | apply setExt_keeps
theorem extentGrant_keeps {s t : State} {x0} (h : Keeps s t) : Keeps s (extentGrant x0 t).2 := by
  unfold extentGrant
  repeat' with_reducible first | assumption | apply touchExt_keeps | simp only [Keeps.mk_iff] | split
theorem bookSweepFrom_keeps {s t : State} {x0 x1 x2 x3 x4 x5 x6 x7} {p} (h : Keeps s t) (e : bookSweepFrom x0 x1 x2 x3 x4 x5 x6 x7 t = some p) : Keeps s p.2 := by
  induction x5 generalizing x0 x1 x2 x3 x4 x6 x7 t p with
  | zero =>
    unfold bookSweepFrom at e
    revert e
    repeat' with_reducible first | (intro e; cases e)
  | succ _ ih =>
    unfold bookSweepFrom at e
    revert e
    repeat' with_reducible first | assumption | apply addEnergy_keeps | apply bookN_keeps | (refine fun e => ih ?_ e) | (refine Keeps.foldl (fun _ _ _ => ?_) _ ?_ <;> try dsimp only) | simp only [Keeps.mk_iff] | split | (intro e; cases e)
theorem bookSweep_keeps {s t : State} {x0 x1 x2} {p} (h : Keeps s t) (e : bookSweep x0 x1 x2 t = some p) : Keeps s p.2 := by
  unfold bookSweep at e
  revert e
  repeat' with_reducible first | assumption | (refine fun e => bookSweepFrom_keeps ?_ e)
theorem drawStall0_keeps {s t : State} {x0} (h : Keeps s t) : Keeps s (drawStall0 x0 t) := by
  unfold drawStall0
  repeat' with_reducible first | assumption | apply draw_keeps
theorem withdrawWbs_keeps {s t : State} {x0} (h : Keeps s t) : Keeps s (withdrawWbs x0 t) := by
  unfold withdrawWbs
  repeat' with_reducible first | assumption | apply refundBookings_keeps | (refine Keeps.foldl (fun _ _ _ => ?_) _ ?_ <;> try dsimp only) | simp only [Keeps.mk_iff]
theorem withdrawRestocks_keeps {s t : State} {x0} (h : Keeps s t) : Keeps s (withdrawRestocks x0 t) := by
  unfold withdrawRestocks
  repeat' with_reducible first | assumption | apply setColl_keeps | apply refundBookings_keeps | (refine Keeps.foldl (fun _ _ _ => ?_) _ ?_ <;> try dsimp only)
theorem invalidateExtent_keeps {s t : State} {x0} (h : Keeps s t) : Keeps s (invalidateExtent x0 t) := by
  unfold invalidateExtent
  repeat' with_reducible first | assumption | apply unitInvalidate_keeps | (refine Keeps.foldl (fun _ _ _ => ?_) _ ?_ <;> try dsimp only) | refine Keeps.ite (fun _ => ?_) (fun _ => ?_)
theorem nameExtent_keeps {s t : State} {x0 x1} (h : Keeps s t) : Keeps s (nameExtent x0 x1 t) := by
  unfold nameExtent
  repeat' with_reducible first | assumption | apply updCmd_keeps | refine Keeps.ite (fun _ => ?_) (fun _ => ?_)
theorem closeExtent_keeps {s t : State} {x0 x1} {p} (h : Keeps s t) (e : closeExtent x0 x1 t = some p) : Keeps s p.2 := by
  unfold closeExtent at e
  revert e
  repeat' with_reducible first | assumption | apply invalidateExtent_keeps | refine bookSweep_keeps (p := (_, _)) ?_ (by assumption) | apply drawStall0_keeps | apply nameExtent_keeps | apply withdrawRestocks_keeps | apply withdrawWbs_keeps | apply touchExt_keeps | (refine Keeps.foldl (fun _ _ _ => ?_) _ ?_ <;> try dsimp only) | simp only [Keeps.mk_iff] | split | (intro e; cases e)
theorem extentRevoke_keeps {s t : State} {x0} (h : Keeps s t) : Keeps s (extentRevoke x0 t).2 := by
  unfold extentRevoke
  repeat' with_reducible first | assumption | refine closeExtent_keeps (p := (_, _)) ?_ (by assumption) | simp only [Keeps.mk_iff] | split
theorem drainZero_keeps {s t : State} {x0} (h : Keeps s t) : Keeps s (drainZero x0 t) := by
  unfold drainZero
  repeat' with_reducible first | assumption | apply setExt_keeps | refine bookSweep_keeps (p := (_, _)) ?_ (by assumption) | apply dropBookings_keeps | apply drawStall0_keeps | apply refund_keeps | refine Keeps.ite (fun _ => ?_) (fun _ => ?_) | simp only [Keeps.mk_iff] | split
theorem sweepStart_keeps {s t : State} {x0} (h : Keeps s t) : Keeps s (sweepStart x0 t) := by
  unfold sweepStart
  repeat' with_reducible first | assumption | apply touchExt_keeps | refine Keeps.ite (fun _ => ?_) (fun _ => ?_)
theorem sweepBytes_keeps {s t : State} {x0} (h : Keeps s t) : Keeps s (sweepBytes x0 t) := by
  unfold sweepBytes
  repeat' with_reducible first | assumption | apply releasePhys_keeps | apply emptyFrames_keeps | (refine Keeps.foldl (fun _ _ _ => ?_) _ ?_ <;> try dsimp only) | simp only [Keeps.mk_iff, Keeps.mk_mem_iff] | (apply Keeps.mem <;> first | assumption | exact id | exact writeCells_wf _ _ | exact set_wf _ _ | exact filter_wf _ | exact zeroCells_wf _ _ | exact (fun _ => memory_wf_nil) | skip)
theorem sweepEnd_keeps {s t : State} {x0} (h : Keeps s t) : Keeps s (sweepEnd x0 t) := by
  unfold sweepEnd
  repeat' with_reducible first | assumption | apply sweepBytes_keeps | apply setExt_keeps | apply advance_keeps | refine Keeps.ite (fun _ => ?_) (fun _ => ?_)
theorem publish_keeps {s t : State} {x0 x1 x2 x3 x4 x5} (h : Keeps s t) : Keeps s (publish x0 x1 x2 x3 x4 x5 t) := by
  unfold publish
  repeat' with_reducible first | assumption | apply advance_keeps | simp only [Keeps.mk_iff]
theorem regionOwner_keeps {s t : State} {x0 x1} (h : Keeps s t) : Keeps s (regionOwner x0 x1 t).2 := by
  unfold regionOwner
  repeat' with_reducible first | assumption | apply cvClear_keeps | apply cvSet_keeps | simp only [Keeps.mk_iff] | split

end Sys2Proof.Machine
end

