-- ==== Sys2Proof/Laws/KeepsStalls.lean ====
section
/-! SUPPORT. The operations of Machine/Stalls.lean leave the queue as it is and keep canonical memories canonical. -/

namespace Sys2Proof.Machine
open Sys2Proof Sys2Proof.Safety

theorem dropVals_keeps {s t : State} {x0} (h : Keeps s t) : Keeps s (dropVals x0 t) := by
  unfold dropVals
  repeat' with_reducible first | assumption | simp only [Keeps.mk_iff]
theorem dropInst_keeps {s t : State} {x0 x1} (h : Keeps s t) : Keeps s (dropInst x0 x1 t) := by
  unfold dropInst
  repeat' with_reducible first | assumption | apply dropVals_keeps
theorem setPact_keeps {s t : State} {x0 x1} (h : Keeps s t) : Keeps s (setPact x0 x1 t) := by
  unfold setPact
  repeat' with_reducible first | assumption | apply cvSet_keeps | apply errRec_keeps | refine Keeps.ite (fun _ => ?_) (fun _ => ?_) | simp only [Keeps.mk_iff]
theorem pactInForce_keeps {s t : State} {x0} (h : Keeps s t) : Keeps s (pactInForce x0 t) := by
  unfold pactInForce
  repeat' with_reducible first | assumption | apply setPact_keeps | refine Keeps.ite (fun _ => ?_) (fun _ => ?_)
theorem endPact_keeps {s t : State} {x0} (h : Keeps s t) : Keeps s (endPact x0 t) := by
  unfold endPact
  repeat' with_reducible first | assumption | apply setPact_keeps | refine Keeps.ite (fun _ => ?_) (fun _ => ?_) | simp only [Keeps.mk_iff]
theorem pactLeaveForce_keeps {s t : State} {x0} (h : Keeps s t) : Keeps s (pactLeaveForce x0 t) := by
  unfold pactLeaveForce
  repeat' with_reducible first | assumption | refine Keeps.ite (fun _ => ?_) (fun _ => ?_) | simp only [Keeps.mk_iff]
theorem pactEmpty_keeps {s t : State} {x0} (h : Keeps s t) : Keeps s (pactEmpty x0 t) := by
  unfold pactEmpty
  repeat' with_reducible first | assumption | apply setPact_keeps | refine Keeps.ite (fun _ => ?_) (fun _ => ?_) | simp only [Keeps.mk_iff]
theorem consent_keeps {s t : State} {x0 x1 x2} (h : Keeps s t) : Keeps s (consent x0 x1 x2 t).2 := by
  unfold consent
  repeat' with_reducible first | assumption | apply cvSet_keeps | apply endPact_keeps | refine Keeps.ite (fun _ => ?_) (fun _ => ?_) | simp only [Keeps.mk_iff] | split
theorem zeroBank_keeps {s t : State} {x0 x1} (h : Keeps s t) : Keeps s (zeroBank x0 x1 t) := by
  unfold zeroBank
  repeat' with_reducible first | simp only [Keeps.mk_iff, Keeps.mk_mem_iff] | (refine Keeps.mem (u := t) (by assumption) ?_ ?_ ?_ ?_ <;> first | exact id | exact writeCells_wf _ _ | exact set_wf _ _ | exact filter_wf _ | exact zeroCells_wf _ _ | exact (fun _ => memory_wf_nil))
theorem zeroPage_keeps {s t : State} {x0 x1 x2} (h : Keeps s t) : Keeps s (zeroPage x0 x1 x2 t) := by
  unfold zeroPage
  repeat' with_reducible first | assumption | (refine Keeps.foldl (fun _ _ _ => ?_) _ ?_ <;> try dsimp only) | (apply Keeps.mem <;> first | assumption | exact id | exact writeCells_wf _ _ | exact set_wf _ _ | exact filter_wf _ | exact zeroCells_wf _ _ | exact (fun _ => memory_wf_nil) | skip)
theorem zeroGroup_keeps {s t : State} {x0 x1} (h : Keeps s t) : Keeps s (zeroGroup x0 x1 t) := by
  unfold zeroGroup
  repeat' with_reducible first | assumption | simp only [Keeps.mk_iff]
theorem clearTally_keeps {s t : State} {x0} (h : Keeps s t) : Keeps s (clearTally x0 t) := by
  unfold clearTally
  repeat' with_reducible first | assumption | apply setTally_keeps
theorem clearMover_keeps {s t : State} {x0} (h : Keeps s t) : Keeps s (clearMover x0 t) := by
  unfold clearMover
  repeat' with_reducible first | assumption | simp only [Keeps.mk_iff]
theorem dropLines_keeps {s t : State} {x0 x1} (h : Keeps s t) : Keeps s (dropLines x0 x1 t) := by
  unfold dropLines
  repeat' with_reducible first | assumption | apply storeWrite_keeps | (refine Keeps.foldl (fun _ _ _ => ?_) _ ?_ <;> try dsimp only) | simp only [Keeps.mk_iff]
theorem sweepUnit_keeps {s t : State} {x0 x1} (h : Keeps s t) : Keeps s (sweepUnit x0 x1 t) := by
  unfold sweepUnit
  repeat' with_reducible first | assumption | apply zeroBank_keeps | apply zeroPage_keeps | apply clearTally_keeps | apply clearMover_keeps | apply zeroGroup_keeps | split
theorem mapSweep_keeps {s t : State} (h : Keeps s t) : Keeps s (mapSweep t) := by
  unfold mapSweep
  repeat' with_reducible first | assumption | apply sweepUnit_keeps | (refine Keeps.foldl (fun _ _ _ => ?_) _ ?_ <;> try dsimp only) | simp only [Keeps.mk_iff]
theorem stallCreate_keeps {s t : State} {x0} (h : Keeps s t) : Keeps s (stallCreate x0 t).2 := by
  unfold stallCreate
  repeat' with_reducible first | assumption | apply cvSet_keeps | apply cvClear_keeps | (refine Keeps.foldl (fun _ _ _ => ?_) _ ?_ <;> try dsimp only) | simp only [Keeps.mk_iff] | split
theorem closeAll_keeps {s t : State} {x0} (h : Keeps s t) : Keeps s (closeAll x0 t) := by
  unfold closeAll
  repeat' with_reducible first | assumption | refine closeExtent_keeps (p := (_, _)) ?_ (by assumption) | (refine Keeps.foldl (fun _ _ _ => ?_) _ ?_ <;> try dsimp only) | refine Keeps.ite (fun _ => ?_) (fun _ => ?_) | split
theorem stallRemove_keeps {s t : State} {x0} (h : Keeps s t) : Keeps s (stallRemove x0 t).2 := by
  unfold stallRemove
  repeat' with_reducible first | assumption | apply cvSet_keeps | apply cvClear_keeps | apply closeAll_keeps | apply endPact_keeps | (refine Keeps.foldl (fun _ _ _ => ?_) _ ?_ <;> try dsimp only) | simp only [Keeps.mk_iff] | split
theorem stallSweepStart_keeps {s t : State} {x0} (h : Keeps s t) : Keeps s (stallSweepStart x0 t) := by
  unfold stallSweepStart
  repeat' with_reducible first | assumption | apply cvSet_keeps | refine Keeps.ite (fun _ => ?_) (fun _ => ?_) | simp only [Keeps.mk_iff]
theorem sweepStall_keeps {s t : State} {x0} (h : Keeps s t) : Keeps s (sweepStall x0 t) := by
  unfold sweepStall
  repeat' with_reducible first | assumption | apply emptyFrames_keeps | apply zeroBank_keeps | apply dropLines_keeps | apply zeroPage_keeps | apply zeroGroup_keeps | apply clearTally_keeps | apply clearMover_keeps | (refine Keeps.foldl (fun _ _ _ => ?_) _ ?_ <;> try dsimp only) | simp only [Keeps.mk_iff]
theorem resetTable_keeps {s t : State} {x0 x1} (h : Keeps s t) : Keeps s (resetTable x0 x1 t) := by
  unfold resetTable
  repeat' with_reducible first | assumption | apply cvClear_keeps | apply cvSet_keeps | apply setTable_keeps
theorem resetColl_keeps {s t : State} {x0 x1} (h : Keeps s t) : Keeps s (resetColl x0 x1 t) := by
  unfold resetColl
  repeat' with_reducible first | assumption | apply cvSet_keeps | apply dropInst_keeps | simp only [Keeps.mk_iff]
theorem dropObjects_keeps {s t : State} {x0} (h : Keeps s t) : Keeps s (dropObjects x0 t) := by
  unfold dropObjects
  repeat' with_reducible first | assumption | apply dropInst_keeps | apply resetTable_keeps | apply resetColl_keeps | apply cvClear_keeps | (refine Keeps.foldl (fun _ _ _ => ?_) _ ?_ <;> try dsimp only) | simp only [Keeps.mk_iff]
theorem dropArms_keeps {s t : State} {x0} (h : Keeps s t) : Keeps s (dropArms x0 t) := by
  unfold dropArms
  repeat' with_reducible first | assumption | apply dropVals_keeps | simp only [Keeps.mk_iff]
theorem stallUnused_keeps {s t : State} {x0} (h : Keeps s t) : Keeps s (stallUnused x0 t) := by
  unfold stallUnused
  repeat' with_reducible first | assumption | apply dropArms_keeps | apply dropObjects_keeps | apply sweepStall_keeps | apply dropInst_keeps | apply cvAdd_keeps | (refine Keeps.foldl (fun _ _ _ => ?_) _ ?_ <;> try dsimp only) | refine Keeps.ite (fun _ => ?_) (fun _ => ?_) | simp only [Keeps.mk_iff]

end Sys2Proof.Machine
end

