-- ==== Sys2Proof/Laws/KeepsRecords.lean ====
section
/-! SUPPORT. The operations of Machine/Records.lean leave the queue as it is and keep canonical memories canonical. -/

namespace Sys2Proof.Machine
open Sys2Proof Sys2Proof.Safety

theorem setCtx_keeps {s t : State} {x0 x1} (h : Keeps s t) : Keeps s (setCtx x0 x1 t) := by
  unfold setCtx
  repeat' with_reducible first | assumption | simp only [Keeps.mk_iff]
theorem reserveSlot_keeps {s t : State} {x0} (h : Keeps s t) : Keeps s (reserveSlot x0 t) := by
  unfold reserveSlot
  repeat' with_reducible first | assumption | apply setCtx_keeps
theorem releaseSlot_keeps {s t : State} {x0} (h : Keeps s t) : Keeps s (releaseSlot x0 t) := by
  unfold releaseSlot
  repeat' with_reducible first | assumption | apply setCtx_keeps
theorem hostWrite_keeps {s t : State} {x0 x1} (h : Keeps s t) : Keeps s (hostWrite x0 x1 t) := by
  unfold hostWrite
  repeat' with_reducible first | simp only [Keeps.mk_iff, Keeps.mk_mem_iff] | (refine Keeps.mem (u := t) (by assumption) ?_ ?_ ?_ ?_ <;> first | exact id | exact writeCells_wf _ _ | exact set_wf _ _ | exact filter_wf _ | exact zeroCells_wf _ _ | exact (fun _ => memory_wf_nil))
theorem ringWrite_keeps {s t : State} {x0 x1 x2 x3} (h : Keeps s t) : Keeps s (ringWrite x0 x1 x2 x3 t) := by
  unfold ringWrite
  repeat' with_reducible first | assumption | apply hostWrite_keeps | apply deviceWrite_keeps | refine Keeps.ite (fun _ => ?_) (fun _ => ?_)
theorem writeRecord_keeps {s t : State} {x0 x1 x2} (h : Keeps s t) : Keeps s (writeRecord x0 x1 x2 t) := by
  unfold writeRecord
  repeat' with_reducible first | assumption | apply releaseSlot_keeps | apply ringWrite_keeps | apply setCtx_keeps | apply advance_keeps | apply cvAdd_keeps | refine Keeps.ite (fun _ => ?_) (fun _ => ?_)
theorem setMover_keeps {s t : State} {x0 x1} (h : Keeps s t) : Keeps s (setMover x0 x1 t) := by
  unfold setMover
  repeat' with_reducible first | assumption | simp only [Keeps.mk_iff]
theorem channelDone_keeps {s t : State} {x0 x1 x2 x3 x4} (h : Keeps s t) : Keeps s (channelDone x0 x1 x2 x3 x4 t) := by
  unfold channelDone
  repeat' with_reducible first | assumption | apply setMover_keeps
theorem channelState_keeps {s t : State} {x0 x1 x2} (h : Keeps s t) : Keeps s (channelState x0 x1 x2 t) := by
  unfold channelState
  repeat' with_reducible first | assumption | apply setMover_keeps
theorem countRefusal_keeps {s t : State} {x0 x1} (h : Keeps s t) : Keeps s (countRefusal x0 x1 t) := by
  unfold countRefusal
  repeat' with_reducible first | assumption | apply cvAdd_keeps | refine Keeps.ite (fun _ => ?_) (fun _ => ?_)
theorem noteDecision_keeps {s t : State} {x0 x1} (h : Keeps s t) : Keeps s (noteDecision x0 x1 t) := by
  unfold noteDecision
  repeat' with_reducible first | assumption | simp only [Keeps.mk_iff]
theorem refuse_keeps {s t : State} {x0 x1 x2 x3} (h : Keeps s t) : Keeps s (refuse x0 x1 x2 x3 t) := by
  unfold refuse
  repeat' with_reducible first | assumption | apply writeRecord_keeps | apply countRefusal_keeps | apply channelDone_keeps | simp only [Keeps.mk_iff] | split
theorem arrive_keeps {s t : State} {x0} (h : Keeps s t) : Keeps s (arrive x0 t) := by
  unfold arrive
  repeat' with_reducible first | assumption | apply reserveSlot_keeps | apply refuse_keeps | refine Keeps.ite (fun _ => ?_) (fun _ => ?_) | simp only [Keeps.mk_iff]

end Sys2Proof.Machine
end

