-- ==== Sys2Proof/Laws/KeepsWindows.lean ====
section
/-! SUPPORT. The operations of Machine/Windows.lean leave the queue as it is and keep canonical memories canonical. -/

namespace Sys2Proof.Machine
open Sys2Proof Sys2Proof.Safety

theorem protectionRec_keeps {s t : State} {x0 x1 x2} (h : Keeps s t) : Keeps s (protectionRec x0 x1 x2 t) := by
  unfold protectionRec
  repeat' with_reducible first | assumption | apply errRec_keeps
theorem doorbell_keeps {s t : State} {x0 x1} (h : Keeps s t) : Keeps s (doorbell x0 x1 t) := by
  unfold doorbell
  repeat' with_reducible first | assumption | apply setCtx_keeps | apply errRec_keeps | apply cvAdd_keeps | refine Keeps.ite (fun _ => ?_) (fun _ => ?_)
theorem writeCtrl_keeps {s t : State} {x0 x1 x2} (h : Keeps s t) : Keeps s (writeCtrl x0 x1 x2 t) := by
  unfold writeCtrl
  repeat' with_reducible first | assumption | apply setMover_keeps | apply channelDone_keeps | apply countRefusal_keeps | apply arrive_keeps | apply channelState_keeps | refine Keeps.ite (fun _ => ?_) (fun _ => ?_) | simp only [Keeps.mk_iff] | split
theorem moverWrite_keeps {s t : State} {x0 x1 x2 x3 x4} (h : Keeps s t) : Keeps s (moverWrite x0 x1 x2 x3 x4 t) := by
  unfold moverWrite
  repeat' with_reducible first | assumption | apply errRec_keeps | apply writeCtrl_keeps | refine Keeps.ite (fun _ => ?_) (fun _ => ?_) | simp only [Keeps.mk_iff] | split
theorem tallyAddSoft_keeps {s t : State} {x0 x1 x2} (h : Keeps s t) : Keeps s (tallyAddSoft x0 x1 x2 t) := by
  unfold tallyAddSoft
  repeat' with_reducible first | assumption | apply advance_keeps | apply setTally_keeps | refine Keeps.ite (fun _ => ?_) (fun _ => ?_)
theorem tallyWrite_keeps {s t : State} {x0 x1 x2 x3 x4} (h : Keeps s t) : Keeps s (tallyWrite x0 x1 x2 x3 x4 t) := by
  unfold tallyWrite
  repeat' with_reducible first | assumption | apply tallySet_keeps | apply tallyAddSoft_keeps | split
theorem winWritePart_keeps {s t : State} {x0 x1 x2 x3} (h : Keeps s t) : Keeps s (winWritePart x0 x1 x2 x3 t) := by
  unfold winWritePart
  repeat' with_reducible first | assumption | apply doorbell_keeps | apply tallyWrite_keeps | apply moverWrite_keeps | simp only [Keeps.mk_iff] | split
theorem winWrite_keeps {s t : State} {x0 x1 x2 x3} (h : Keeps s t) : Keeps s (winWrite x0 x1 x2 x3 t) := by
  unfold winWrite
  repeat' with_reducible first | assumption | apply protectionRec_keeps | apply winWritePart_keeps | (refine Keeps.foldl (fun _ _ _ => ?_) _ ?_ <;> try dsimp only) | refine Keeps.ite (fun _ => ?_) (fun _ => ?_)
theorem doorbellWrite_keeps {s t : State} {x0 x1 x2 x3} (h : Keeps s t) : Keeps s (doorbellWrite x0 x1 x2 x3 t) := by
  unfold doorbellWrite
  repeat' with_reducible first | assumption | apply winWrite_keeps | refine Keeps.ite (fun _ => ?_) (fun _ => ?_)
theorem moverGo_keeps {s t : State} {x0 x1 x2} (h : Keeps s t) : Keeps s (moverGo x0 x1 x2 t) := by
  unfold moverGo
  repeat' with_reducible first | assumption | apply winWrite_keeps | refine Keeps.ite (fun _ => ?_) (fun _ => ?_)
theorem registerWrite_keeps {s t : State} {x0 x1 x2 x3} (h : Keeps s t) : Keeps s (registerWrite x0 x1 x2 x3 t) := by
  unfold registerWrite
  repeat' with_reducible first | assumption | apply winWrite_keeps | refine Keeps.ite (fun _ => ?_) (fun _ => ?_)
theorem tallyAddWrite_keeps {s t : State} {x0 x1 x2} (h : Keeps s t) : Keeps s (tallyAddWrite x0 x1 x2 t) := by
  unfold tallyAddWrite
  repeat' with_reducible first | assumption | apply winWrite_keeps | refine Keeps.ite (fun _ => ?_) (fun _ => ?_)
theorem tallyValueWrite_keeps {s t : State} {x0 x1 x2} (h : Keeps s t) : Keeps s (tallyValueWrite x0 x1 x2 t) := by
  unfold tallyValueWrite
  repeat' with_reducible first | assumption | apply winWrite_keeps | refine Keeps.ite (fun _ => ?_) (fun _ => ?_)

end Sys2Proof.Machine
end

