-- ==== Sys2Proof/Laws/KeepsCoherence.lean ====
section
/-! SUPPORT. The operations of Machine/Coherence.lean leave the queue as it is and keep canonical memories canonical. -/

namespace Sys2Proof.Machine
open Sys2Proof Sys2Proof.Safety

theorem updCxl_keeps {s t : State} {x0 x1} (h : Keeps s t) : Keeps s (updCxl x0 x1 t) := by
  unfold updCxl
  repeat' with_reducible first | assumption | simp only [Keeps.mk_iff]
theorem dropCxl_keeps {s t : State} {x0} (h : Keeps s t) : Keeps s (dropCxl x0 t) := by
  unfold dropCxl
  repeat' with_reducible first | assumption | simp only [Keeps.mk_iff]
theorem useLines_keeps {s t : State} {x0 x1} (h : Keeps s t) : Keeps s (useLines x0 x1 t) := by
  unfold useLines
  repeat' with_reducible first | assumption | simp only [Keeps.mk_iff]
theorem sendTo_keeps {s t : State} {x0 x1} (h : Keeps s t) : Keeps s (sendTo x0 x1 t) := by
  unfold sendTo
  repeat' with_reducible first | assumption | apply send_keeps | refine Keeps.ite (fun _ => ?_) (fun _ => ?_)
theorem ndr_keeps {s t : State} {x0 x1 x2} (h : Keeps s t) : Keeps s (ndr x0 x1 x2 t) := by
  unfold ndr
  repeat' with_reducible first | assumption | apply sendTo_keeps
theorem answerVoid_keeps {s t : State} {x0 x1 x2} (h : Keeps s t) : Keeps s (answerVoid x0 x1 x2 t) := by
  unfold answerVoid
  repeat' with_reducible first | assumption | apply sendTo_keeps | apply ndr_keeps | refine Keeps.ite (fun _ => ?_) (fun _ => ?_)
theorem answerRead_keeps {s t : State} {x0 x1} (h : Keeps s t) : Keeps s (answerRead x0 x1 t) := by
  unfold answerRead
  repeat' with_reducible first | assumption | apply hbmRange_keeps | apply act_keeps | apply heat_keeps | apply sendTo_keeps
theorem writeLine_keeps {s t : State} {x0} (h : Keeps s t) : Keeps s (writeLine x0 t) := by
  unfold writeLine
  repeat' with_reducible first | assumption | apply hbmRange_keeps | apply act_keeps | apply heat_keeps | apply storeWrite_keeps | refine Keeps.ite (fun _ => ?_) (fun _ => ?_) | simp only [Keeps.mk_iff, Keeps.mk_mem_iff]
theorem enterOwnerOrdered_keeps {s t : State} {x0} (h : Keeps s t) : Keeps s (enterOwnerOrdered x0 t) := by
  unfold enterOwnerOrdered
  repeat' with_reducible first | assumption | apply cvSet_keeps | apply cvAdd_keeps | (refine Keeps.foldl (fun _ _ _ => ?_) _ ?_ <;> try dsimp only) | refine Keeps.ite (fun _ => ?_) (fun _ => ?_) | simp only [Keeps.mk_iff]
theorem dirInconsistent_keeps {s t : State} {x0 x1 x2} (h : Keeps s t) : Keeps s (dirInconsistent x0 x1 x2 t) := by
  unfold dirInconsistent
  repeat' with_reducible first | assumption | apply enterOwnerOrdered_keeps | apply detectRec_keeps
theorem lookupInjected_keeps {s t : State} {x0 x1} (h : Keeps s t) : Keeps s (lookupInjected x0 x1 t) := by
  unfold lookupInjected
  repeat' with_reducible first | assumption | apply inject_keeps | apply errRec_keeps | apply enterOwnerOrdered_keeps | apply detect_keeps | refine Keeps.ite (fun _ => ?_) (fun _ => ?_) | simp only [Keeps.mk_iff] | split
theorem sectorFault_keeps {s t : State} {x0 x1 x2} (h : Keeps s t) : Keeps s (sectorFault x0 x1 x2 t) := by
  unfold sectorFault
  repeat' with_reducible first | assumption | apply dirInconsistent_keeps | apply detectRec_keeps | apply cvAdd_keeps
theorem sectorError_keeps {s t : State} {x0} (h : Keeps s t) : Keeps s (sectorError x0 t) := by
  unfold sectorError
  repeat' with_reducible first | assumption | apply sectorFault_keeps | apply updCxl_keeps | refine Keeps.ite (fun _ => ?_) (fun _ => ?_)
theorem noteSnps_keeps {s t : State} (h : Keeps s t) : Keeps s (noteSnps t) := by
  unfold noteSnps
  repeat' with_reducible first | assumption | apply inject_keeps | apply errRec_keeps | apply cvAdd_keeps | apply detect_keeps | (refine Keeps.foldl (fun _ _ _ => ?_) _ ?_ <;> try dsimp only) | refine Keeps.ite (fun _ => ?_) (fun _ => ?_) | simp only [Keeps.mk_iff] | split
theorem leaveLine_keeps {s t : State} {x0 x1 x2 x3} (h : Keeps s t) : Keeps s (leaveLine x0 x1 x2 x3 t) := by
  unfold leaveLine
  repeat' with_reducible first | assumption | apply setWay_keeps | simp only [Keeps.mk_iff] | split
theorem answered_keeps {s t : State} {x0} (h : Keeps s t) : Keeps s (answered x0 t) := by
  unfold answered
  repeat' with_reducible first | assumption | apply dropCxl_keeps | apply updCxl_keeps | refine Keeps.ite (fun _ => ?_) (fun _ => ?_)
theorem granted_keeps {s t : State} {x0 x1} (h : Keeps s t) : Keeps s (granted x0 x1 t) := by
  unfold granted
  repeat' with_reducible first | assumption | simp only [Keeps.mk_iff]
theorem serveStateless_keeps {s t : State} {x0} (h : Keeps s t) : Keeps s (serveStateless x0 t) := by
  unfold serveStateless
  repeat' with_reducible first | assumption | apply answered_keeps | apply answerRead_keeps | apply ndr_keeps | apply writeLine_keeps | refine Keeps.ite (fun _ => ?_) (fun _ => ?_)
theorem finishHome_keeps {s t : State} {x0} (h : Keeps s t) : Keeps s (finishHome x0 t) := by
  unfold finishHome
  repeat' with_reducible first | assumption | apply setWay_keeps | apply updCxl_keeps | apply writeLine_keeps | apply granted_keeps | apply answered_keeps | apply answerRead_keeps | apply ndr_keeps | apply cvAdd_keeps | apply recallLine_keeps | apply sendSnp_keeps | apply useLines_keeps | (refine Keeps.foldl (fun _ _ _ => ?_) _ ?_ <;> try dsimp only) | refine Keeps.ite (fun _ => ?_) (fun _ => ?_) | simp only [Keeps.mk_iff] | split
theorem beginHome_keeps {s t : State} {x0} (h : Keeps s t) : Keeps s (beginHome x0 t) := by
  unfold beginHome
  repeat' with_reducible first | assumption | apply recallLine_keeps | apply setWay_keeps | apply sendSnp_keeps | apply useLines_keeps | apply updCxl_keeps | (refine Keeps.foldl (fun _ _ _ => ?_) _ ?_ <;> try dsimp only) | refine Keeps.ite (fun _ => ?_) (fun _ => ?_) | split
theorem beginOwner_keeps {s t : State} {x0} (h : Keeps s t) : Keeps s (beginOwner x0 t) := by
  unfold beginOwner
  repeat' with_reducible first | assumption | apply sendSnp_keeps | apply useLines_keeps | apply recallLine_keeps | apply updCxl_keeps | (refine Keeps.foldl (fun _ _ _ => ?_) _ ?_ <;> try dsimp only) | refine Keeps.ite (fun _ => ?_) (fun _ => ?_)
theorem serveBypass_keeps {s t : State} {x0} (h : Keeps s t) : Keeps s (serveBypass x0 t) := by
  unfold serveBypass
  repeat' with_reducible first | assumption | apply writeLine_keeps | apply leaveLine_keeps | apply dropCxl_keeps | apply ndr_keeps | refine Keeps.ite (fun _ => ?_) (fun _ => ?_)
theorem serveWindow_keeps {s t : State} {x0} (h : Keeps s t) : Keeps s (serveWindow x0 t) := by
  unfold serveWindow
  repeat' with_reducible first | assumption | apply act_keeps | apply dropCxl_keeps | apply answerVoid_keeps | apply protectionRec_keeps | apply sendTo_keeps | apply ndr_keeps | apply winWrite_keeps | refine Keeps.ite (fun _ => ?_) (fun _ => ?_)
theorem stepReq_keeps {s t : State} {x0} (h : Keeps s t) : Keeps s (stepReq x0 t) := by
  unfold stepReq
  split
  · exact h
  · dsimp only
    repeat' with_reducible first | assumption | refine Keeps.ite (fun _ => ?_) (fun _ => ?_) | apply serveWindow_keeps | apply dropCxl_keeps | apply ndr_keeps | apply serveBypass_keeps | apply answerVoid_keeps | apply sectorError_keeps | apply answered_keeps | apply lookupInjected_keeps | apply beginOwner_keeps | apply dirInconsistent_keeps | apply serveStateless_keeps | apply beginHome_keeps | apply finishHome_keeps
theorem stepWrite_keeps {s t : State} {x1} (h : Keeps s t) : Keeps s (stepWrite t x1) := by
  unfold stepWrite
  repeat' with_reducible first | assumption | apply lineWrite_keeps | (refine owned_keeps ?_ <;> try dsimp only) | apply beginWrite_keeps | apply updReq_keeps | refine Keeps.ite (fun _ => ?_) (fun _ => ?_) | simp only [Keeps.mk_iff] | split
theorem stepWrites_keeps {s t : State} (h : Keeps s t) : Keeps s (stepWrites t) := by
  unfold stepWrites
  repeat' with_reducible first | assumption | apply stepWrite_keeps | (refine Keeps.foldl (fun _ _ _ => ?_) _ ?_ <;> try dsimp only)
theorem pump_keeps {s t : State} (h : Keeps s t) : Keeps s (pump t) := by
  unfold pump
  repeat' with_reducible first | assumption | apply stepWrites_keeps | apply stepReq_keeps | (refine Keeps.foldl (fun _ _ _ => ?_) _ ?_ <;> try dsimp only)
theorem noStanding_keeps {s t : State} {x0 x1} (h : Keeps s t) : Keeps s (noStanding x0 x1 t) := by
  unfold noStanding
  repeat' with_reducible first | assumption | simp only [Keeps.mk_iff]
theorem cxlArrive_keeps {s t : State} {x0 x1 x2 x3 x4} (h : Keeps s t) : Keeps s (cxlArrive x0 x1 x2 x3 x4 t) := by
  unfold cxlArrive
  repeat' with_reducible first | assumption | apply answerVoid_keeps | apply protectionRec_keeps | apply noStanding_keeps | refine Keeps.ite (fun _ => ?_) (fun _ => ?_) | simp only [Keeps.mk_iff] | split
theorem missFrame_keeps {s t : State} {x0 x1} {p} (h : Keeps s t) (e : missFrame x0 x1 t = some p) : Keeps s p := by
  unfold missFrame at e
  split at e
  · cases e; exact cacheFrame_keeps h
  · obtain ⟨x, -, e1⟩ := List.exists_of_findSome?_eq_some e
    dsimp only at e1
    split at e1
    · cases e1; exact setFrame_keeps (setFrame_keeps (recallFrame_keeps h))
    · cases e1
theorem useMiss_keeps {s t : State} {x0} (h : Keeps s t) : Keeps s (useMiss x0 t) := by
  unfold useMiss
  repeat' with_reducible first | assumption | simp only [Keeps.mk_iff]
theorem putAdmitted_keeps {s t : State} {x0} (h : Keeps s t) : Keeps s (putAdmitted x0 t) := by
  unfold putAdmitted
  repeat' with_reducible first | assumption | simp only [Keeps.mk_iff]
theorem holdFrame_keeps {s t : State} {x0 x1} {p} (h : Keeps s t) (e : holdFrame x0 x1 t = some p) : Keeps s p := by
  unfold holdFrame at e
  revert e
  repeat' with_reducible first | assumption | (refine fun e => missFrame_keeps ?_ e) | split | (intro e; cases e)
theorem cxlAdmit_keeps {s t : State} {x0 x1} (h : Keeps s t) : Keeps s (cxlAdmit x0 x1 t) := by
  unfold cxlAdmit
  repeat' with_reducible first | assumption | apply noStanding_keeps | apply dropCxl_keeps | apply answerVoid_keeps | apply useLines_keeps | apply pump_keeps | apply noteSnps_keeps | apply putAdmitted_keeps | apply useMiss_keeps | refine holdFrame_keeps (p := _) ?_ (by assumption) | apply errRec_keeps | apply fillFrame_keeps | apply act_keeps | apply setFrame_keeps | refine Keeps.ite (fun _ => ?_) (fun _ => ?_) | simp only [Keeps.mk_iff] | split
theorem closeSnp_keeps {s t : State} {x0} (h : Keeps s t) : Keeps s (closeSnp x0 t) := by
  unfold closeSnp
  repeat' with_reducible first | assumption | apply updReq_keeps | apply drainDown_keeps | refine Keeps.ite (fun _ => ?_) (fun _ => ?_) | simp only [Keeps.mk_iff] | split
theorem biRsp_keeps {s t : State} {x0 x1 x2 x3} (h : Keeps s t) : Keeps s (biRsp x0 x1 x2 x3 t) := by
  unfold biRsp
  repeat' with_reducible first | assumption | apply noteSnps_keeps | apply dirInconsistent_keeps | apply closeSnp_keeps | apply updCxl_keeps | apply leaveLine_keeps | apply setWay_keeps | apply pump_keeps | refine Keeps.ite (fun _ => ?_) (fun _ => ?_) | simp only [Keeps.mk_iff] | split
theorem biTimeout_keeps {s t : State} {x0 x1} (h : Keeps s t) : Keeps s (biTimeout x0 x1 t) := by
  unfold biTimeout
  repeat' with_reducible first | assumption | apply noteSnps_keeps | apply updCxl_keeps | apply closeSnp_keeps | apply leaveLine_keeps | apply detectRec_keeps | apply cvAdd_keeps | apply pump_keeps | refine Keeps.ite (fun _ => ?_) (fun _ => ?_) | simp only [Keeps.mk_iff, Keeps.mk_mem_iff] | split
theorem biConflict_keeps {s t : State} {x0 x1} (h : Keeps s t) : Keeps s (biConflict x0 x1 t) := by
  unfold biConflict
  repeat' with_reducible first | assumption | apply ndr_keeps
theorem flitAck_keeps {s t : State} {x0} (h : Keeps s t) : Keeps s (flitAck x0 t) := by
  unfold flitAck
  repeat' with_reducible first | assumption | apply noteSnps_keeps | apply pump_keeps | apply dropCxl_keeps | split
theorem loadBound_keeps {s t : State} {x0} (h : Keeps s t) : Keeps s (loadBound x0 t) := by
  unfold loadBound
  repeat' with_reducible first | assumption | apply pump_keeps | apply dropCxl_keeps | apply answerVoid_keeps | apply noStanding_keeps | refine Keeps.ite (fun _ => ?_) (fun _ => ?_) | simp only [Keeps.mk_iff] | split
theorem homeOrderedEntry_keeps {s t : State} {x0} (h : Keeps s t) : Keeps s (homeOrderedEntry x0 t) := by
  unfold homeOrderedEntry
  repeat' with_reducible first | assumption | apply recallLine_keeps | apply cvAdd_keeps | apply cvSet_keeps | (refine Keeps.foldl (fun _ _ _ => ?_) _ ?_ <;> try dsimp only) | refine Keeps.ite (fun _ => ?_) (fun _ => ?_) | simp only [Keeps.mk_iff]
theorem coherenceTest_keeps {s t : State} {x0 x1} (h : Keeps s t) : Keeps s (coherenceTest x0 x1 t).2 := by
  unfold coherenceTest
  repeat' with_reducible first | assumption | apply enterOwnerOrdered_keeps | apply cvSet_keeps | refine Keeps.ite (fun _ => ?_) (fun _ => ?_) | simp only [Keeps.mk_iff] | split
theorem agentClean_keeps {s t : State} {x0 x1} (h : Keeps s t) : Keeps s (agentClean x0 x1 t).2 := by
  unfold agentClean
  repeat' with_reducible first | assumption | apply cvSet_keeps | refine Keeps.ite (fun _ => ?_) (fun _ => ?_) | simp only [Keeps.mk_iff] | split
theorem bindAgent_keeps {s t : State} {x0 x1} (h : Keeps s t) : Keeps s (bindAgent x0 x1 t).2 := by
  unfold bindAgent
  repeat' with_reducible first | assumption | apply cvSet_keeps | refine Keeps.ite (fun _ => ?_) (fun _ => ?_) | split

end Sys2Proof.Machine
end

