-- ==== Sys2Proof/Laws/KeepsFlash.lean ====
section
/-! SUPPORT. The operations of Machine/Flash.lean leave the queue as it is and keep canonical memories canonical. -/

namespace Sys2Proof.Machine
open Sys2Proof Sys2Proof.Safety

theorem putSlot_keeps {s t : State} {x0 x1 x2 x3 x4 x5 x6} (h : Keeps s t) : Keeps s (putSlot x0 x1 x2 x3 x4 x5 x6 t) := by
  rw [putSlot]
  exact Keeps.mem h id id id (fun k => foldl_wf (fun _ _ g => set_wf _ _ g) _ (zeroCells_wf _ _ k))
theorem setMap_keeps {s t : State} {x0 x1} (h : Keeps s t) : Keeps s (setMap x0 x1 t) := by
  unfold setMap
  repeat' with_reducible first | assumption | simp only [Keeps.mk_iff]
theorem setChanState_keeps {s t : State} {x0 x1} (h : Keeps s t) : Keeps s (setChanState x0 x1 t) := by
  unfold setChanState
  repeat' with_reducible first | assumption | apply errRec_keeps | apply cvSet_keeps | refine Keeps.ite (fun _ => ?_) (fun _ => ?_)
theorem bookPages_keeps {s t : State} {x0 x1 x2 x3 x4} {p} (h : Keeps s t) (e : bookPages x0 x1 x2 x3 x4 t = some p) : Keeps s p.1 := by
  unfold bookPages at e
  revert e
  repeat' with_reducible first | assumption | refine runPhase_keeps (p := (_, _, _)) ?_ (by assumption) | apply pageActs_keeps | simp only [Keeps.mk_iff] | split | (intro e; cases e)
theorem drawOwn_keeps {s t old : State} {rid floor p} (h : Keeps s t) (e : drawOwn rid floor old t = some p) : Keeps s p := by
  unfold drawOwn at e
  dsimp only at e
  split at e
  · cases e
  · cases e; exact draw_keeps h
theorem bookLog_keeps {s t : State} {x0 x1 x2 x3 x4} {p} (h : Keeps s t) (e : bookLog x0 x1 x2 x3 x4 t = some p) : Keeps s p.1 := by
  unfold bookLog at e
  revert e
  repeat' with_reducible first | assumption | refine bookPages_keeps (p := (_, _)) ?_ (by assumption) | (refine fun e => drawOwn_keeps ?_ e) | (refine fun e => Keeps.of_map e (fun _ => ?_) <;> try dsimp only) | simp only [Keeps.mk_iff] | split | (intro e; cases e)
theorem setRelocs_keeps {s t : State} {x0} (h : Keeps s t) : Keeps s (setRelocs x0 t) := by
  unfold setRelocs
  repeat' with_reducible first | assumption | simp only [Keeps.mk_iff]
theorem addReloc_keeps {s t : State} {x0} (h : Keeps s t) : Keeps s (addReloc x0 t) := by
  unfold addReloc
  repeat' with_reducible first | assumption | apply setRelocs_keeps | refine Keeps.ite (fun _ => ?_) (fun _ => ?_)
theorem bookReloc_keeps {s t : State} {x0} (h : Keeps s t) : Keeps s (bookReloc x0 t) := by
  unfold bookReloc
  repeat' with_reducible first | assumption | refine bookLog_keeps (p := (_, _)) ?_ (by assumption) | refine allocSlot_keeps (p := (_, _, _)) ?_ (by assumption) | apply setRelocs_keeps | refine Keeps.ite (fun _ => ?_) (fun _ => ?_) | split
theorem bookRelocs_keeps {s t : State} (h : Keeps s t) : Keeps s (bookRelocs t) := by
  unfold bookRelocs
  repeat' with_reducible first | assumption | apply bookReloc_keeps | (refine Keeps.foldl (fun _ _ _ => ?_) _ ?_ <;> try dsimp only)
theorem commitReloc_keeps {s t : State} {x0} (h : Keeps s t) : Keeps s (commitReloc x0 t) := by
  unfold commitReloc
  repeat' with_reducible first | assumption | apply setRelocs_keeps | apply putSlot_keeps | apply cvAdd_keeps | apply setMap_keeps | refine Keeps.ite (fun _ => ?_) (fun _ => ?_)
theorem commitRelocs_keeps {s t : State} (h : Keeps s t) : Keeps s (commitRelocs t) := by
  unfold commitRelocs
  repeat' with_reducible first | assumption | apply commitReloc_keeps | (refine Keeps.foldl (fun _ _ _ => ?_) _ ?_ <;> try dsimp only)
theorem relocateBlock_keeps {s t : State} {x0 x1} (h : Keeps s t) : Keeps s (relocateBlock x0 x1 t) := by
  unfold relocateBlock
  repeat' with_reducible first | assumption | apply bookRelocs_keeps | apply addReloc_keeps | (refine Keeps.foldl (fun _ _ _ => ?_) _ ?_ <;> try dsimp only)
theorem retireBlock_keeps {s t : State} {x0 x1} (h : Keeps s t) : Keeps s (retireBlock x0 x1 t) := by
  unfold retireBlock
  repeat' with_reducible first | assumption | apply setBlock_keeps | apply setChan_keeps | apply setRelocs_keeps | apply cvSet_keeps | apply cvAdd_keeps | apply errRec_keeps | apply relocateBlock_keeps | refine Keeps.ite (fun _ => ?_) (fun _ => ?_)
theorem clearLost_keeps {s t : State} {x0} (h : Keeps s t) : Keeps s (clearLost x0 t) := by
  unfold clearLost
  repeat' with_reducible first | assumption | simp only [Keeps.mk_iff, Keeps.mk_mem_iff]
theorem commitWb_keeps {s t : State} {x0} (h : Keeps s t) : Keeps s (commitWb x0 t) := by
  unfold commitWb
  repeat' with_reducible first | assumption | apply putSlot_keeps | apply setMap_keeps | apply addReloc_keeps | apply clearLost_keeps | apply setFrame_keeps | refine Keeps.ite (fun _ => ?_) (fun _ => ?_) | simp only [Keeps.mk_iff] | split
theorem failWbRequest_keeps {s t : State} {x0 x1} (h : Keeps s t) : Keeps s (failWbRequest x0 x1 t) := by
  unfold failWbRequest
  repeat' with_reducible first | assumption | apply updReq_keeps | apply updCmd_keeps | simp only [Keeps.mk_iff] | split
theorem loseWb_keeps {s t : State} {x0} (h : Keeps s t) : Keeps s (loseWb x0 t) := by
  unfold loseWb
  repeat' with_reducible first | assumption | apply cvAdd_keeps | apply setFrame_keeps | apply loseFrame_keeps | apply failWbRequest_keeps | apply emptyFrame_keeps | refine Keeps.ite (fun _ => ?_) (fun _ => ?_) | split
theorem drawWb_keeps {s t old : State} {w p} (h : Keeps s t) (e : drawWb w old t = some p) : Keeps s p := by
  unfold drawWb at e
  dsimp only at e
  split at e
  · cases e
  · cases e; exact draw_keeps h
theorem rebookOne_keeps {s t : State} {x0} (h : Keeps s t) : Keeps s (rebookOne x0 t) := by
  unfold rebookOne
  repeat' with_reducible first | assumption | refine runPhase_keeps (p := (_, _, _)) ?_ (by assumption) | apply loseWb_keeps | refine allocSlot_keeps (p := (_, _, _)) ?_ (by assumption) | apply draw_keeps | apply pageActs_keeps | apply setFrame_keeps | simp only [Keeps.mk_iff] | split
theorem retireWhole_keeps {s t : State} {x0 x1} (h : Keeps s t) : Keeps s (retireWhole x0 x1 t) := by
  unfold retireWhole
  repeat' with_reducible first | assumption | apply retireBlock_keeps | apply rebookOne_keeps | (refine Keeps.foldl (fun _ _ _ => ?_) _ ?_ <;> try dsimp only)
theorem rebookWb_keeps {s t : State} {x0 x1} (h : Keeps s t) : Keeps s (rebookWb x0 x1 t) := by
  unfold rebookWb
  repeat' with_reducible first | assumption | apply retireWhole_keeps | apply rebookOne_keeps | refine Keeps.ite (fun _ => ?_) (fun _ => ?_)
theorem programInjected_keeps {s t : State} {x0} (h : Keeps s t) : Keeps s (programInjected x0 t).1 := by
  unfold programInjected
  repeat' with_reducible first | assumption | apply inject_keeps | apply errRec_keeps | apply rebookWb_keeps | apply detect_keeps | apply failWbRequest_keeps | (refine Keeps.foldl_fst (fun _ _ _ => ?_) _ ?_ <;> try dsimp only) | refine Keeps.ite (fun _ => ?_) (fun _ => ?_) | split
theorem writebackCommit_keeps {s t : State} {x0 x1} (h : Keeps s t) : Keeps s (writebackCommit x0 x1 t) := by
  unfold writebackCommit
  repeat' with_reducible first | assumption | apply programInjected_keeps | apply commitWb_keeps | refine Keeps.ite (fun _ => ?_) (fun _ => ?_) | simp only [Keeps.mk_iff] | split
theorem flashProgram_keeps {s t : State} {x0 x1 x2 x3 x4} (h : Keeps s t) : Keeps s (flashProgram x0 x1 x2 x3 x4 t) := by
  unfold flashProgram
  repeat' with_reducible first | assumption | apply retireWhole_keeps | apply detectRec_keeps | apply rebookWb_keeps | refine Keeps.ite (fun _ => ?_) (fun _ => ?_) | split
theorem frameFree_keeps {s t : State} {x0 x1} (h : Keeps s t) : Keeps s (frameFree x0 x1 t) := by
  unfold frameFree
  repeat' with_reducible first | assumption | apply commitWb_keeps | apply emptyFrame_keeps | refine Keeps.ite (fun _ => ?_) (fun _ => ?_) | simp only [Keeps.mk_iff] | split
theorem flashArrayRead_keeps {s t : State} {x0 x1 x2} (h : Keeps s t) : Keeps s (flashArrayRead x0 x1 x2 t) := by
  unfold flashArrayRead
  repeat' with_reducible first | assumption | apply send_keeps | apply setChan_keeps | refine Keeps.ite (fun _ => ?_) (fun _ => ?_)
theorem programResume_keeps {s t : State} {x0 x1} (h : Keeps s t) : Keeps s (programResume x0 x1 t) := by
  unfold programResume
  repeat' with_reducible first | assumption | apply send_keeps | apply setChan_keeps | refine Keeps.ite (fun _ => ?_) (fun _ => ?_)
theorem compaction_keeps {s t : State} {x0} (h : Keeps s t) : Keeps s (compaction x0 t) := by
  unfold compaction
  repeat' with_reducible first | assumption | apply setChanState_keeps | apply relocateBlock_keeps | apply setBlock_keeps | refine Keeps.ite (fun _ => ?_) (fun _ => ?_) | simp only [Keeps.mk_iff] | split
theorem bookErase_keeps {s t : State} {x0 x1 x2} {p} (h : Keeps s t) (e : bookErase x0 x1 x2 t = some p) : Keeps s p.1 := by
  induction x1 generalizing x0 x2 t p with
  | zero =>
    unfold bookErase at e
    revert e
    repeat' with_reducible first | (intro e; cases e)
  | succ _ ih =>
    unfold bookErase at e
    revert e
    repeat' with_reducible first | assumption | apply addEnergy_keeps | (refine fun e => drawOwn_keeps ?_ e) | (refine fun e => ih ?_ e) | (refine fun e => Keeps.of_map e (fun _ => ?_) <;> try dsimp only) | simp only [Keeps.mk_iff] | split
theorem eraseCleared_keeps {s t : State} (h : Keeps s t) : Keeps s (eraseCleared t) := by
  rw [eraseCleared]
  refine Keeps.foldl (fun e t h => ?_) _ h
  refine Keeps.ite (fun _ => ?_) (fun _ => h)
  split
  · next u r e => exact setBlock_keeps (bookErase_keeps (p := (u, r)) h e)
  · exact h
theorem eraseInjected_keeps {s t : State} {x0 x1} (h : Keeps s t) : Keeps s (eraseInjected x0 x1 t) := by
  unfold eraseInjected
  repeat' with_reducible first | assumption | apply inject_keeps | apply errRec_keeps | apply retireWhole_keeps | apply detect_keeps | refine Keeps.ite (fun _ => ?_) (fun _ => ?_) | simp only [Keeps.mk_iff] | split
theorem eraseCells_keeps {s t : State} {x0 x1} (h : Keeps s t) : Keeps s (eraseCells x0 x1 t) := by
  unfold eraseCells
  repeat' with_reducible first | simp only [Keeps.mk_iff, Keeps.mk_mem_iff] | (refine Keeps.mem (u := t) (by assumption) ?_ ?_ ?_ ?_ <;> first | exact id | exact writeCells_wf _ _ | exact set_wf _ _ | exact filter_wf _ | exact zeroCells_wf _ _ | exact (fun _ => memory_wf_nil))
theorem blockErase_keeps {s t : State} {x0 x1} (h : Keeps s t) : Keeps s (blockErase x0 x1 t) := by
  unfold blockErase
  repeat' with_reducible first | assumption | apply eraseInjected_keeps | apply setBlock_keeps | apply eraseCells_keeps | apply cvSet_keeps | apply retireWhole_keeps | apply setChanState_keeps | refine Keeps.ite (fun _ => ?_) (fun _ => ?_)
theorem channelFailed_keeps {s t : State} {x0} (h : Keeps s t) : Keeps s (channelFailed x0 t) := by
  unfold channelFailed
  repeat' with_reducible first | assumption | apply setChanState_keeps | apply errRec_keeps | apply markLost_keeps | (refine Keeps.foldl (fun _ _ _ => ?_) _ ?_ <;> try dsimp only) | refine Keeps.ite (fun _ => ?_) (fun _ => ?_)
theorem ldpcRecovery_keeps {s t : State} {x0 x1 x2} (h : Keeps s t) : Keeps s (ldpcRecovery x0 x1 x2 t) := by
  unfold ldpcRecovery
  repeat' with_reducible first | assumption | refine bookLog_keeps (p := (_, _)) ?_ (by assumption) | apply errRec_keeps | apply retireWhole_keeps | apply setMap_keeps | apply loseFrame_keeps | apply bookRelocs_keeps | apply addReloc_keeps | refine Keeps.ite (fun _ => ?_) (fun _ => ?_) | simp only [Keeps.mk_iff] | split
theorem checkpointPeriod_keeps {s t : State} {x0} (h : Keeps s t) : Keeps s (checkpointPeriod x0 t) := by
  unfold checkpointPeriod
  repeat' with_reducible first | assumption | apply setChan_keeps | refine Keeps.ite (fun _ => ?_) (fun _ => ?_) | simp only [Keeps.mk_iff]
theorem bookCheckpoint_keeps {s t : State} {x0} (h : Keeps s t) : Keeps s (bookCheckpoint x0 t) := by
  unfold bookCheckpoint
  repeat' with_reducible first | assumption | refine bookLog_keeps (p := (_, _)) ?_ (by assumption) | apply setChan_keeps | refine Keeps.ite (fun _ => ?_) (fun _ => ?_) | simp only [Keeps.mk_iff] | split
theorem checkpointValid_keeps {s t : State} {x0} (h : Keeps s t) : Keeps s (checkpointValid x0 t) := by
  unfold checkpointValid
  repeat' with_reducible first | assumption | apply setChan_keeps | refine Keeps.ite (fun _ => ?_) (fun _ => ?_) | simp only [Keeps.mk_iff] | split
theorem bookRecord_keeps {s t : State} {x0} (h : Keeps s t) : Keeps s (bookRecord x0 t) := by
  unfold bookRecord
  refine Keeps.ite (fun _ => h) (fun _ => ?_)
  split
  · next e => exact Keeps.mk_iff.mpr (Keeps.foldl_bind (f := fun ch y => (bookLog (chanRid ch) ch 0 1 0 y.1).map (fun z => (z.1, max y.2 z.2)))
      (fun k e => Keeps.of_map e (fun x e2 => show Keeps s x.1 from bookLog_keeps k e2)) _ (i := (t, 0)) h e)
  · exact h
theorem bookRecords_keeps {s t : State} (h : Keeps s t) : Keeps s (bookRecords t) := by
  unfold bookRecords
  repeat' with_reducible first | assumption | apply bookRecord_keeps | (refine Keeps.foldl (fun _ _ _ => ?_) _ ?_ <;> try dsimp only)
theorem extentRecordWrite_keeps {s t : State} {x0} (h : Keeps s t) : Keeps s (extentRecordWrite x0 t) := by
  unfold extentRecordWrite
  repeat' with_reducible first | assumption | apply setExt_keeps | refine Keeps.ite (fun _ => ?_) (fun _ => ?_) | simp only [Keeps.mk_iff]
theorem logBoundary_keeps {s t : State} (h : Keeps s t) : Keeps s (logBoundary t) := by
  unfold logBoundary
  repeat' with_reducible first | assumption | apply commitRelocs_keeps | apply bookCheckpoint_keeps | apply bookRecords_keeps | apply eraseCleared_keeps | apply bookRelocs_keeps | (refine Keeps.foldl (fun _ _ _ => ?_) _ ?_ <;> try dsimp only) | refine Keeps.ite (fun _ => ?_) (fun _ => ?_)
theorem replaySlot_keeps {s t : State} {x0} (h : Keeps s t) : Keeps s (replaySlot x0 t) := by
  unfold replaySlot
  repeat' with_reducible first | assumption | apply markLost_keeps | apply clearLost_keeps | apply setMap_keeps | refine Keeps.ite (fun _ => ?_) (fun _ => ?_)
theorem loadCheckpoint_keeps {s t : State} {x0} (h : Keeps s t) : Keeps s (loadCheckpoint x0 t) := by
  unfold loadCheckpoint
  repeat' with_reducible first | assumption | apply markLost_keeps | apply setMap_keeps | (refine Keeps.foldl (fun _ _ _ => ?_) _ ?_ <;> try dsimp only) | refine Keeps.ite (fun _ => ?_) (fun _ => ?_) | simp only [Keeps.mk_iff]
theorem replayLog_keeps {s t : State} {x0} (h : Keeps s t) : Keeps s (replayLog x0 t) := by
  unfold replayLog
  repeat' with_reducible first | assumption | apply replaySlot_keeps | (refine Keeps.foldl (fun _ _ _ => ?_) _ ?_ <;> try dsimp only)
theorem mapRebuild_keeps {s t : State} {x0} (h : Keeps s t) : Keeps s (mapRebuild x0 t) := by
  unfold mapRebuild
  refine Keeps.ite (fun _ => h) (fun _ => ?_)
  split
  · next e => exact Keeps.mk_iff.mpr (Keeps.foldl_bind1 (f := fun ch t => (bookLog (chanRid ch) ch 1 0 0 t).map (·.1))
      (fun k e => Keeps.of_map1 e (fun x e2 => show Keeps s x.1 from bookLog_keeps k e2)) _ h e)
  · exact h

end Sys2Proof.Machine
end

