-- ==== Sys2Proof/Laws/KeepsRestock.lean ====
section
/-! SUPPORT. The operations of Machine/Restock.lean leave the queue as it is and keep canonical memories canonical. -/

namespace Sys2Proof.Machine
open Sys2Proof Sys2Proof.Safety

theorem collActivate_keeps {s t : State} {x0} (h : Keeps s t) : Keeps s (collActivate x0 t).2 := by
  unfold collActivate
  repeat' with_reducible first | assumption | apply setColl_keeps | apply cvSet_keeps | simp only [Keeps.mk_iff] | split
theorem collDeactivate_keeps {s t : State} {x0} (h : Keeps s t) : Keeps s (collDeactivate x0 t).2 := by
  unfold collDeactivate
  repeat' with_reducible first | assumption | apply cvSet_keeps | split
theorem retireRequest_keeps {s t : State} {x0 x1} (h : Keeps s t) : Keeps s (retireRequest x0 x1 t).2 := by
  unfold retireRequest
  repeat' with_reducible first | assumption | apply setColl_keeps | simp only [Keeps.mk_iff] | split
theorem restockNow_keeps {s t : State} {x0 x1} (h : Keeps s t) : Keeps s (restockNow x0 x1 t).2 := by
  unfold restockNow
  repeat' with_reducible first | assumption | apply setColl_keeps | refine Keeps.ite (fun _ => ?_) (fun _ => ?_) | simp only [Keeps.mk_iff] | split
theorem sideCommit_keeps {s t : State} {x0 x1} (h : Keeps s t) : Keeps s (sideCommit x0 x1 t) := by
  unfold sideCommit
  repeat' with_reducible first | assumption | apply cvSet_keeps | apply voidSeq_keeps | apply cvAdd_keeps | apply countBytes_keeps | apply updCmd_keeps | refine Keeps.ite (fun _ => ?_) (fun _ => ?_) | simp only [Keeps.mk_iff] | split
theorem takeVoids_keeps {s t : State} (h : Keeps s t) : Keeps s (takeVoids t) := by
  unfold takeVoids
  repeat' with_reducible first | assumption | apply setColl_keeps | apply cvSet_keeps | (refine Keeps.foldl (fun _ _ _ => ?_) _ ?_ <;> try dsimp only) | refine Keeps.ite (fun _ => ?_) (fun _ => ?_)
theorem flashItems_keeps {s t : State} {x0 x1 x2 x3 x4 x5 x6} (h : Keeps s t) : Keeps s (flashItems x0 x1 x2 x3 x4 x5 x6 t).2 := by
  unfold flashItems
  repeat' with_reducible first | assumption | refine Keeps.of_pair (by assumption) (listItems_keeps ?_) | (refine Keeps.foldl_snd (fun _ _ _ => ?_) _ ?_ <;> try dsimp only) | split
theorem mergedItems_keeps {s t : State} {x0 x1 x2 x3 x4 x5} (h : Keeps s t) : Keeps s (mergedItems x0 x1 x2 x3 x4 x5 t).2 := by
  unfold mergedItems
  repeat' with_reducible first | assumption | refine Keeps.of_pair (by assumption) (flashItems_keeps ?_) | (refine Keeps.foldl_snd (fun _ _ _ => ?_) _ ?_ <;> try dsimp only) | split
theorem planList_keeps {s : State} {rid st u m retire} {x : List NewList × List (Nat × Nat) × State} {c} (h : Keeps s x.2.2) :
    Keeps s (planList rid st u m retire x c).2.2 := by
  unfold planList
  dsimp only
  split
  · exact h
  · split
    · next e => exact Keeps.of_pair e (mergedItems_keeps h)
    · next e =>
      have k := Keeps.of_pair e (mergedItems_keeps h)
      split
      · exact k
      · split
        · exact k
        · split <;> exact k
theorem planRestock_keeps {s t : State} {x0 x1 x2} (h : Keeps s t) : Keeps s (planRestock x0 x1 x2 t).2 := by
  rw [planRestock]
  exact Keeps.foldl_third (fun _ _ k => planList_keeps k) _ h
theorem bookRestock_keeps {s t : State} {x0 x1 x2} {p} (h : Keeps s t) (e : bookRestock x0 x1 x2 t = some p) : Keeps s p.1 := by
  rw [bookRestock] at e
  obtain ⟨y, e1, e2⟩ := Option.bind_eq_some_iff.mp e
  refine Keeps.foldl_opt ?_ _ ?_ _ e2
  · intro x a k q e3
    obtain ⟨z, e4, e5⟩ := Option.bind_eq_some_iff.mp e3
    dsimp only at e5
    split at e5
    · cases e5; exact k _ e4
    · obtain ⟨r, e6, e7⟩ := Option.map_eq_some_iff.mp e5
      rw [← e7]; exact runPhase_keeps (k _ e4) e6
  · intro q e3
    simp only [Option.some.injEq] at e3
    rw [← e3]
    show Keeps s y.1
    refine Keeps.foldl_opt (s := s) ?_ _ ?_ y e1
    · intro x a k q e3
      obtain ⟨z, e4, e5⟩ := Option.bind_eq_some_iff.mp e3
      dsimp only at e5
      split at e5
      · cases e5; exact k _ e4
      · obtain ⟨r, e6, e7⟩ := Option.map_eq_some_iff.mp e5
        rw [← e7]; exact runPhase_keeps (k _ e4) e6
    · intro q e3; cases e3; exact h
theorem restockStart_keeps {s t : State} {x0} (h : Keeps s t) : Keeps s (restockStart x0 t) := by
  unfold restockStart
  repeat' with_reducible first | assumption | apply cvAdd_keeps | refine bookRestock_keeps (p := (_, _)) ?_ (by assumption) | apply setColl_keeps | apply draw_keeps | refine Keeps.ite (fun _ => ?_) (fun _ => ?_) | simp only [Keeps.mk_iff] | split
theorem programFrames_keeps {s t : State} {x0 x1 x2} (h : Keeps s t) : Keeps s (programFrames x0 x1 x2 t) := by
  unfold programFrames
  repeat' with_reducible first | assumption | refine allocSlot_keeps (p := (_, _, _)) ?_ (by assumption) | apply setMap_keeps | apply putSlot_keeps | (refine Keeps.foldl (fun _ _ _ => ?_) _ ?_ <;> try dsimp only) | split
theorem restockSwitch_keeps {s t : State} {x0} (h : Keeps s t) : Keeps s (restockSwitch x0 t) := by
  unfold restockSwitch
  repeat' with_reducible first | assumption | apply planRestock_keeps | apply errRec_keeps | apply cvAdd_keeps | apply programFrames_keeps | apply listWrite_keeps | apply setColl_keeps | (refine Keeps.foldl (fun _ _ _ => ?_) _ ?_ <;> try dsimp only) | refine Keeps.ite (fun _ => ?_) (fun _ => ?_)
theorem drainChain_keeps {s t : State} {x0 x1} (h : Keeps s t) : Keeps s (drainChain x0 x1 t) := by
  unfold drainChain
  repeat' with_reducible first | assumption | apply listWrite_keeps | apply setColl_keeps | (refine Keeps.foldl (fun _ _ _ => ?_) _ ?_ <;> try dsimp only) | refine Keeps.ite (fun _ => ?_) (fun _ => ?_)
theorem restockDrain_keeps {s t : State} {x0} (h : Keeps s t) : Keeps s (restockDrain x0 t) := by
  unfold restockDrain
  repeat' with_reducible first | assumption | apply drainChain_keeps | apply cvAdd_keeps | apply setColl_keeps | (refine Keeps.foldl (fun _ _ _ => ?_) _ ?_ <;> try dsimp only) | refine Keeps.ite (fun _ => ?_) (fun _ => ?_)

end Sys2Proof.Machine
end

