-- ==== Sys2Proof/Laws/KeepsPower.lean ====
section
/-! SUPPORT. The operations of Machine/Power.lean leave the queue as it is and keep canonical memories canonical. -/

namespace Sys2Proof.Machine
open Sys2Proof Sys2Proof.Safety

theorem avsTarget_keeps {s t : State} {x0} (h : Keeps s t) : Keeps s (avsTarget x0 t) := by
  unfold avsTarget
  repeat' with_reducible first | assumption | apply send_keeps | refine Keeps.ite (fun _ => ?_) (fun _ => ?_) | simp only [Keeps.mk_iff]
theorem voltageRaise_keeps {s t : State} (h : Keeps s t) : Keeps s (voltageRaise t) := by
  unfold voltageRaise
  repeat' with_reducible first | assumption | apply avsTarget_keeps | refine Keeps.ite (fun _ => ?_) (fun _ => ?_) | split
theorem frequencySwitch_keeps {s t : State} {x0} (h : Keeps s t) : Keeps s (frequencySwitch x0 t) := by
  unfold frequencySwitch
  repeat' with_reducible first | assumption | apply cvSet_keeps | apply avsTarget_keeps | refine Keeps.ite (fun _ => ?_) (fun _ => ?_) | simp only [Keeps.mk_iff] | split
theorem forceThrottle_keeps {s t : State} (h : Keeps s t) : Keeps s (forceThrottle t) := by
  unfold forceThrottle
  repeat' with_reducible first | assumption | apply cvAdd_keeps | simp only [Keeps.mk_iff]
theorem throttleEntry_keeps {s t : State} {x0} (h : Keeps s t) : Keeps s (throttleEntry x0 t) := by
  unfold throttleEntry
  repeat' with_reducible first | assumption | apply detectRec_keeps | apply forceThrottle_keeps | refine Keeps.ite (fun _ => ?_) (fun _ => ?_) | simp only [Keeps.mk_iff]
theorem throttleRelease_keeps {s t : State} {x0} (h : Keeps s t) : Keeps s (throttleRelease x0 t) := by
  unfold throttleRelease
  repeat' with_reducible first | assumption | apply errRec_keeps | refine Keeps.ite (fun _ => ?_) (fun _ => ?_) | simp only [Keeps.mk_iff]
theorem voltageLimit_keeps {s t : State} {x0} (h : Keeps s t) : Keeps s (voltageLimit x0 t) := by
  unfold voltageLimit
  repeat' with_reducible first | assumption | apply detectRec_keeps | apply cvAdd_keeps | apply cvSet_keeps | refine Keeps.ite (fun _ => ?_) (fun _ => ?_)
theorem limitBoundary_keeps {s t : State} {x0} (h : Keeps s t) : Keeps s (limitBoundary x0 t) := by
  unfold limitBoundary
  repeat' with_reducible first | assumption | apply voltageLimit_keeps | apply inject_keeps | apply errRec_keeps | apply detect_keeps | apply forceThrottle_keeps | apply avsTarget_keeps | apply cvSet_keeps | refine Keeps.ite (fun _ => ?_) (fun _ => ?_) | simp only [Keeps.mk_iff] | split
theorem telemetry_keeps {s t : State} {x0} (h : Keeps s t) : Keeps s (telemetry x0 t) := by
  unfold telemetry
  repeat' with_reducible first | assumption | apply cvSet_keeps | simp only [Keeps.mk_iff]
theorem putVr_keeps {s t : State} {x0 x1} (h : Keeps s t) : Keeps s (putVr x0 x1 t) := by
  unfold putVr
  repeat' with_reducible first | assumption | apply cvSet_keeps | split
theorem calibrate_keeps {s t : State} {x0} (h : Keeps s t) : Keeps s (calibrate x0 t) := by
  unfold calibrate
  repeat' with_reducible first | assumption | apply putVr_keeps | apply cvSet_keeps | apply inject_keeps | apply errRec_keeps | apply detect_keeps | apply detectRec_keeps | apply cvAdd_keeps | refine Keeps.ite (fun _ => ?_) (fun _ => ?_) | simp only [Keeps.mk_iff] | split

end Sys2Proof.Machine
end

