-- ==== Sys2Proof/Laws/KeepsReset.lean ====
section
/-! SUPPORT. The operations of Machine/Reset.lean leave the queue as it is and keep canonical memories canonical. -/

namespace Sys2Proof.Machine
open Sys2Proof Sys2Proof.Safety

theorem resetBlocks_keeps {s t : State} {x0 x1} (h : Keeps s t) : Keeps s (resetBlocks x0 x1 t) := by
  unfold resetBlocks
  dsimp only
  refine Keeps.mem h ?_ id ?_ id
  · intro k; split
    · rfl
    · exact k
  · exact fun _ => rfl
theorem deviceResetNow_keeps {s t : State} {x0} (h : Keeps s t) : Keeps s (deviceResetNow x0 t) := by
  unfold deviceResetNow
  repeat' with_reducible first | assumption | apply resetBlocks_keeps | apply emptyFrames_keeps | apply cvAdd_keeps | refine Keeps.ite (fun _ => ?_) (fun _ => ?_)
theorem rstN_keeps {s t : State} {x0} (h : Keeps s t) : Keeps s (rstN x0 t) := by
  unfold rstN
  repeat' with_reducible first | assumption | apply deviceResetNow_keeps | refine Keeps.ite (fun _ => ?_) (fun _ => ?_)
theorem powerOnReset_keeps {s t : State} (h : Keeps s t) : Keeps s (powerOnReset t) := by
  unfold powerOnReset
  repeat' with_reducible first | assumption | apply resetBlocks_keeps | simp only [Keeps.mk_iff]
theorem powerRemoval_keeps {s t : State} (h : Keeps s t) : Keeps s (powerRemoval t) := by
  unfold powerRemoval
  repeat' with_reducible first | assumption | apply resetBlocks_keeps | simp only [Keeps.mk_iff]
theorem thermtrip_keeps {s t : State} (h : Keeps s t) : Keeps s (thermtrip t) := by
  unfold thermtrip
  repeat' with_reducible first | assumption | apply resetBlocks_keeps | apply cvAdd_keeps | refine Keeps.ite (fun _ => ?_) (fun _ => ?_) | simp only [Keeps.mk_iff]
theorem deviceResetWrite_keeps {s t : State} (h : Keeps s t) : Keeps s (deviceResetWrite t).2 := by
  unfold deviceResetWrite
  repeat' with_reducible first | assumption | simp only [Keeps.mk_iff]
theorem internalResetEnd_keeps {s t : State} {x0 x1} (h : Keeps s t) : Keeps s (internalResetEnd x0 x1 t) := by
  unfold internalResetEnd
  repeat' with_reducible first | assumption | refine Keeps.ite (fun _ => ?_) (fun _ => ?_) | simp only [Keeps.mk_iff]
theorem setPhase_keeps {s t : State} {x0} (h : Keeps s t) : Keeps s (setPhase x0 t) := by
  unfold setPhase
  repeat' with_reducible first | assumption | apply cvSet_keeps
theorem secStart_keeps {s t : State} (h : Keeps s t) : Keeps s (secStart t) := by
  unfold secStart
  repeat' with_reducible first | assumption | apply cvSet_keeps | apply setPhase_keeps | refine Keeps.ite (fun _ => ?_) (fun _ => ?_) | simp only [Keeps.mk_iff]
theorem hbmTrainingDone_keeps {s t : State} {x0} (h : Keeps s t) : Keeps s (hbmTrainingDone x0 t) := by
  unfold hbmTrainingDone
  repeat' with_reducible first | assumption | apply cvSet_keeps | apply setPhase_keeps | (refine Keeps.foldl (fun _ _ _ => ?_) _ ?_ <;> try dsimp only) | refine Keeps.ite (fun _ => ?_) (fun _ => ?_) | simp only [Keeps.mk_iff]
theorem endStore_keeps {s t : State} (h : Keeps s t) : Keeps s (endStore t) := by
  unfold endStore
  repeat' with_reducible first | assumption | apply cvSet_keeps | refine Keeps.ite (fun _ => ?_) (fun _ => ?_) | simp only [Keeps.mk_iff]
theorem zeroFillDone_keeps {s t : State} (h : Keeps s t) : Keeps s (zeroFillDone t) := by
  unfold zeroFillDone
  repeat' with_reducible first | assumption | apply endStore_keeps | apply cvSet_keeps | refine Keeps.ite (fun _ => ?_) (fun _ => ?_) | simp only [Keeps.mk_iff, Keeps.mk_mem_iff] | (refine Keeps.mem (u := t) (by assumption) ?_ ?_ ?_ ?_ <;> first | exact id | exact writeCells_wf _ _ | exact set_wf _ _ | exact filter_wf _ | exact zeroCells_wf _ _ | exact (fun _ => memory_wf_nil))
theorem targetTimeout_keeps {s t : State} {x0 x1} (h : Keeps s t) : Keeps s (targetTimeout x0 x1 t) := by
  unfold targetTimeout
  repeat' with_reducible first | assumption | refine Keeps.ite (fun _ => ?_) (fun _ => ?_) | simp only [Keeps.mk_iff]
theorem foundChannel_keeps {s t : State} {x1} (h : Keeps s t) : Keeps s (foundChannel t x1) := by
  unfold foundChannel
  repeat' with_reducible first | assumption | apply cvSet_keeps | apply setChan_keeps
theorem discoveryDone_keeps {s t : State} {x0} (h : Keeps s t) : Keeps s (discoveryDone x0 t) := by
  unfold discoveryDone
  repeat' with_reducible first | assumption | apply foundChannel_keeps | apply endStore_keeps | apply cvSet_keeps | (refine Keeps.foldl (fun _ _ _ => ?_) _ ?_ <;> try dsimp only) | refine Keeps.ite (fun _ => ?_) (fun _ => ?_) | simp only [Keeps.mk_iff]
theorem checkpointLoaded_keeps {s t : State} {x0} (h : Keeps s t) : Keeps s (checkpointLoaded x0 t) := by
  unfold checkpointLoaded
  repeat' with_reducible first | assumption | apply loadCheckpoint_keeps | apply setChan_keeps | refine Keeps.ite (fun _ => ?_) (fun _ => ?_)
theorem replayDone_keeps {s t : State} {x0} (h : Keeps s t) : Keeps s (replayDone x0 t) := by
  unfold replayDone
  repeat' with_reducible first | assumption | apply replayLog_keeps | apply endStore_keeps | apply setChan_keeps | refine Keeps.ite (fun _ => ?_) (fun _ => ?_)
theorem gateOpen_keeps {s t : State} (h : Keeps s t) : Keeps s (gateOpen t) := by
  unfold gateOpen
  repeat' with_reducible first | assumption | apply cvSet_keeps | apply setPhase_keeps | refine bookSweep_keeps (p := (_, _)) ?_ (by assumption) | apply setExt_keeps | apply drawStall0_keeps | (refine Keeps.foldl (fun _ _ _ => ?_) _ ?_ <;> try dsimp only) | refine Keeps.ite (fun _ => ?_) (fun _ => ?_) | simp only [Keeps.mk_iff] | split
theorem setPort_keeps {s t : State} {x0 x1} (h : Keeps s t) : Keeps s (setPort x0 x1 t) := by
  unfold setPort
  repeat' with_reducible first | assumption | apply errRec_keeps | apply cvSet_keeps | refine Keeps.ite (fun _ => ?_) (fun _ => ?_)
theorem portTrained_keeps {s t : State} {x0 x1 x2} (h : Keeps s t) : Keeps s (portTrained x0 x1 x2 t) := by
  unfold portTrained
  repeat' with_reducible first | assumption | apply cvSet_keeps | apply setPort_keeps | refine Keeps.ite (fun _ => ?_) (fun _ => ?_) | simp only [Keeps.mk_iff]
theorem portLost_keeps {s t : State} {x0 x1} (h : Keeps s t) : Keeps s (portLost x0 x1 t) := by
  unfold portLost
  repeat' with_reducible first | assumption | apply cvSet_keeps | apply setPort_keeps | simp only [Keeps.mk_iff]
theorem portDown_keeps {s t : State} {x0} (h : Keeps s t) : Keeps s (portDown x0 t) := by
  unfold portDown
  repeat' with_reducible first | assumption | apply portLost_keeps | refine Keeps.ite (fun _ => ?_) (fun _ => ?_)
theorem linkReset_keeps {s t : State} {x0} (h : Keeps s t) : Keeps s (linkReset x0 t) := by
  unfold linkReset
  repeat' with_reducible first | assumption | apply setPort_keeps | apply portLost_keeps | refine Keeps.ite (fun _ => ?_) (fun _ => ?_)

end Sys2Proof.Machine
end

