-- ==== Sys2Proof/Laws/KeepsFirmware.lean ====
section
/-! SUPPORT. The operations of Machine/Firmware.lean leave the queue as it is and keep canonical memories canonical. -/

namespace Sys2Proof.Machine
open Sys2Proof Sys2Proof.Safety

theorem setComp_keeps {s t : State} {x0 x1} (h : Keeps s t) : Keeps s (setComp x0 x1 t) := by
  unfold setComp
  repeat' with_reducible first | assumption | simp only [Keeps.mk_iff]
theorem setFwState_keeps {s t : State} {x0} (h : Keeps s t) : Keeps s (setFwState x0 t) := by
  unfold setFwState
  repeat' with_reducible first | assumption | apply cvSet_keeps
theorem fwReject_keeps {s t : State} {x0} (h : Keeps s t) : Keeps s (fwReject x0 t) := by
  unfold fwReject
  repeat' with_reducible first | assumption | apply setFwState_keeps | apply cvSet_keeps
theorem setRole_keeps {s t : State} {x0 x1} (h : Keeps s t) : Keeps s (setRole x0 x1 t) := by
  unfold setRole
  repeat' with_reducible first | assumption | simp only [Keeps.mk_iff]
theorem fwStageImage_keeps {s t : State} {x0} (h : Keeps s t) : Keeps s (fwStageImage x0 t).2 := by
  unfold fwStageImage
  repeat' with_reducible first | assumption | apply setFwState_keeps | simp only [Keeps.mk_iff] | split
theorem fwVerify_keeps {s t : State} (h : Keeps s t) : Keeps s (fwVerify t).2 := by
  unfold fwVerify
  repeat' with_reducible first | assumption | apply setFwState_keeps | simp only [Keeps.mk_iff] | split
theorem fwClear_keeps {s t : State} (h : Keeps s t) : Keeps s (fwClear t).2 := by
  unfold fwClear
  repeat' with_reducible first | assumption | apply setFwState_keeps | simp only [Keeps.mk_iff] | split
theorem fwHandoff_keeps {s t : State} (h : Keeps s t) : Keeps s (fwHandoff t).2 := by
  unfold fwHandoff
  repeat' with_reducible first | assumption | apply deviceResetNow_keeps | apply setFwState_keeps | simp only [Keeps.mk_iff] | split
theorem fwUpdate_keeps {s t : State} {x0} (h : Keeps s t) : Keeps s (fwUpdate x0 t).2 := by
  unfold fwUpdate
  repeat' with_reducible first | assumption | apply fwVerify_keeps | apply fwHandoff_keeps | apply fwClear_keeps | split
theorem verifyDone_keeps {s t : State} (h : Keeps s t) : Keeps s (verifyDone t) := by
  unfold verifyDone
  repeat' with_reducible first | assumption | apply cvSet_keeps | apply setFwState_keeps | apply fwReject_keeps | refine Keeps.ite (fun _ => ?_) (fun _ => ?_) | simp only [Keeps.mk_iff]
theorem prepareEnd_keeps {s t : State} (h : Keeps s t) : Keeps s (prepareEnd t) := by
  unfold prepareEnd
  repeat' with_reducible first | assumption | refine Keeps.ite (fun _ => ?_) (fun _ => ?_) | simp only [Keeps.mk_iff]
theorem prepareTimeout_keeps {s t : State} (h : Keeps s t) : Keeps s (prepareTimeout t) := by
  unfold prepareTimeout
  repeat' with_reducible first | assumption | apply fwReject_keeps | refine Keeps.ite (fun _ => ?_) (fun _ => ?_) | simp only [id_eq] | simp only [Keeps.mk_iff] | split
theorem pauseStart_keeps {s t : State} (h : Keeps s t) : Keeps s (pauseStart t) := by
  unfold pauseStart
  repeat' with_reducible first | assumption | apply cvSet_keeps | refine Keeps.ite (fun _ => ?_) (fun _ => ?_) | simp only [Keeps.mk_iff]
theorem lowerPause_keeps {s t : State} (h : Keeps s t) : Keeps s (lowerPause t) := by
  unfold lowerPause
  repeat' with_reducible first | assumption | apply cvSet_keeps | refine Keeps.ite (fun _ => ?_) (fun _ => ?_)
theorem moveCore_keeps {s t : State} {x0} (h : Keeps s t) : Keeps s (moveCore x0 t) := by
  unfold moveCore
  repeat' with_reducible first | assumption | apply setRole_keeps | refine Keeps.ite (fun _ => ?_) (fun _ => ?_)
theorem componentMove_keeps {s t : State} (h : Keeps s t) : Keeps s (componentMove t) := by
  unfold componentMove
  repeat' with_reducible first | assumption | apply lowerPause_keeps | apply setComp_keeps | apply moveCore_keeps | apply setRole_keeps | refine Keeps.ite (fun _ => ?_) (fun _ => ?_) | simp only [Keeps.mk_iff] | split
theorem secRestart_keeps {s t : State} (h : Keeps s t) : Keeps s (secRestart t) := by
  unfold secRestart
  repeat' with_reducible first | assumption | apply setRole_keeps | apply setComp_keeps | apply lowerPause_keeps | refine Keeps.ite (fun _ => ?_) (fun _ => ?_) | simp only [Keeps.mk_iff]
theorem endPause_keeps {s t : State} (h : Keeps s t) : Keeps s (endPause t) := by
  unfold endPause
  repeat' with_reducible first | assumption | apply cvSet_keeps | simp only [Keeps.mk_iff]
theorem reopen_keeps {s t : State} (h : Keeps s t) : Keeps s (reopen t) := by
  unfold reopen
  repeat' with_reducible first | assumption | apply endPause_keeps | apply cvAdd_keeps | apply cvSet_keeps | apply setFwState_keeps | apply fwReject_keeps | refine Keeps.ite (fun _ => ?_) (fun _ => ?_) | simp only [id_eq] | simp only [Keeps.mk_iff] | split
theorem rollback_keeps {s t : State} (h : Keeps s t) : Keeps s (rollback t) := by
  unfold rollback
  repeat' with_reducible first | assumption | apply setRole_keeps | apply setComp_keeps | refine Keeps.ite (fun _ => ?_) (fun _ => ?_) | simp only [Keeps.mk_iff] | split
theorem bootFlashWrite_keeps {s t : State} {x0 x1} (h : Keeps s t) : Keeps s (bootFlashWrite x0 x1 t).2 := by
  unfold bootFlashWrite
  repeat' with_reducible first | assumption | apply inject_keeps | apply errRec_keeps | apply detect_keeps | refine Keeps.ite (fun _ => ?_) (fun _ => ?_) | simp only [Keeps.mk_iff] | split
theorem bootSteps_keeps {s t : State} (h : Keeps s t) : Keeps s (bootSteps t) := by
  unfold bootSteps
  repeat' with_reducible first | assumption | apply bootFlashWrite_keeps | refine Keeps.ite (fun _ => ?_) (fun _ => ?_) | simp only [Keeps.mk_iff]
theorem compFault_keeps {s t : State} {x0} (h : Keeps s t) : Keeps s (compFault x0 t) := by
  unfold compFault
  repeat' with_reducible first | assumption | apply setRole_keeps | apply setComp_keeps | apply setPhase_keeps | apply cvAdd_keeps | apply fwReject_keeps | refine Keeps.ite (fun _ => ?_) (fun _ => ?_) | simp only [Keeps.mk_iff]
theorem compMissed_keeps {s t : State} {x0} (h : Keeps s t) : Keeps s (compMissed x0 t) := by
  unfold compMissed
  repeat' with_reducible first | assumption | apply compFault_keeps | apply cvAdd_keeps | apply setComp_keeps
theorem watchdog_keeps {s t : State} {x0} (h : Keeps s t) : Keeps s (watchdog x0 t) := by
  unfold watchdog
  repeat' with_reducible first | assumption | apply compMissed_keeps | apply detectRec_keeps | refine Keeps.ite (fun _ => ?_) (fun _ => ?_)
theorem fwProtection_keeps {s t : State} {x0 x1} (h : Keeps s t) : Keeps s (fwProtection x0 x1 t) := by
  unfold fwProtection
  repeat' with_reducible first | assumption | apply compFault_keeps | apply detectRec_keeps | refine Keeps.ite (fun _ => ?_) (fun _ => ?_)

end Sys2Proof.Machine
end

