-- ==== Sys2Proof/Laws/KeepsCatWrite.lean ====
section
/-! SUPPORT. The operations of Machine/CatWrite.lean leave the queue as it is and keep canonical memories canonical. -/

namespace Sys2Proof.Machine
open Sys2Proof Sys2Proof.Safety

theorem stageWrite_keeps {s t : State} {x0 x1 x2 x3 x4} (h : Keeps s t) : Keeps s (stageWrite x0 x1 x2 x3 x4 t) := by
  unfold stageWrite
  repeat' with_reducible first | assumption | apply cvSet_keeps | simp only [Keeps.mk_iff]
theorem deferWrite_keeps {s t : State} {x0 x1 x2 x3} (h : Keeps s t) : Keeps s (deferWrite x0 x1 x2 x3 t) := by
  unfold deferWrite
  repeat' with_reducible first | assumption | simp only [Keeps.mk_iff]
theorem applyWrite_keeps {s t : State} {x0 x1 x2 x3} (h : Keeps s t) : Keeps s (applyWrite x0 x1 x2 x3 t) := by
  unfold applyWrite
  repeat' with_reducible first | assumption | apply deferWrite_keeps | apply stageWrite_keeps | apply cvSet_keeps | split
theorem loadWrite_keeps {s t : State} {x0 x1 x2} (h : Keeps s t) : Keeps s (loadWrite x0 x1 x2 t).2 := by
  unfold loadWrite
  repeat' with_reducible first | assumption | apply deferWrite_keeps | simp only [Keeps.mk_iff] | split
theorem quotaWrite_keeps {s t : State} {x0 x1} (h : Keeps s t) : Keeps s (quotaWrite x0 x1 t).2 := by
  unfold quotaWrite
  repeat' with_reducible first | assumption | apply cvSet_keeps | split
theorem bankPowerWrite_keeps {s t : State} {x0 x1} (h : Keeps s t) : Keeps s (bankPowerWrite x0 x1 t).2 := by
  unfold bankPowerWrite
  repeat' with_reducible first | assumption | apply deferWrite_keeps | split
theorem transitWrite_keeps {s t : State} {x0 x1} (h : Keeps s t) : Keeps s (transitWrite x0 x1 t).2 := by
  unfold transitWrite
  repeat' with_reducible first | assumption | apply cvSet_keeps | split
theorem contextStall_keeps {s t : State} {x0 x1} (h : Keeps s t) : Keeps s (contextStall x0 x1 t).2 := by
  unfold contextStall
  repeat' with_reducible first | assumption | apply cvSet_keeps | split
theorem pactWrite_keeps {s t : State} {x0 x1 x2} (h : Keeps s t) : Keeps s (pactWrite x0 x1 x2 t).2 := by
  unfold pactWrite
  repeat' with_reducible first | assumption | apply cvSet_keeps | apply dropInst_keeps | apply setPact_keeps | apply cvClear_keeps | refine Keeps.ite (fun _ => ?_) (fun _ => ?_) | simp only [Keeps.mk_iff] | split
theorem tableOwner_keeps {s t : State} {x0 x1} (h : Keeps s t) : Keeps s (tableOwner x0 x1 t).2 := by
  unfold tableOwner
  repeat' with_reducible first | assumption | apply resetTable_keeps
theorem tableSetWrite_keeps {s t : State} {x0 x1} (h : Keeps s t) : Keeps s (tableSetWrite x0 x1 t).2 := by
  unfold tableSetWrite
  repeat' with_reducible first | assumption | apply cvSet_keeps | simp only [Keeps.mk_iff] | split
theorem collOwner_keeps {s t : State} {x0 x1} (h : Keeps s t) : Keeps s (collOwner x0 x1 t).2 := by
  unfold collOwner
  repeat' with_reducible first | assumption | apply resetColl_keeps
theorem contextEnable_keeps {s t : State} {x0} (h : Keeps s t) : Keeps s (contextEnable x0 t).2 := by
  unfold contextEnable
  repeat' with_reducible first | assumption | apply setCtx_keeps | simp only [Keeps.mk_iff] | split
theorem contextDisable_keeps {s t : State} {x0} (h : Keeps s t) : Keeps s (contextDisable x0 t).2 := by
  unfold contextDisable
  repeat' with_reducible first | assumption | apply setCtx_keeps | refine Keeps.ite (fun _ => ?_) (fun _ => ?_) | simp only [Keeps.mk_iff] | split
theorem injectArm_keeps {s t : State} {x0 x1 x2} (h : Keeps s t) : Keeps s (injectArm x0 x1 x2 t).2 := by
  unfold injectArm
  repeat' with_reducible first | assumption | apply cvSet_keeps | simp only [Keeps.mk_iff] | split
theorem injectionAllowed_keeps {s t : State} {x0} (h : Keeps s t) : Keeps s (injectionAllowed x0 t).2 := by
  unfold injectionAllowed
  repeat' with_reducible first | assumption | apply cvSet_keeps | refine Keeps.ite (fun _ => ?_) (fun _ => ?_) | simp only [Keeps.mk_iff]
theorem oppCeilingWrite_keeps {s t : State} {x0} (h : Keeps s t) : Keeps s (oppCeilingWrite x0 t).2 := by
  unfold oppCeilingWrite
  repeat' with_reducible first | assumption | apply deferWrite_keeps | split
theorem commitWrite_keeps {s t : State} {x0} (h : Keeps s t) : Keeps s (commitWrite x0 t).2 := by
  unfold commitWrite
  repeat' with_reducible first | assumption | simp only [Keeps.mk_iff] | split
theorem discardWrite_keeps {s t : State} {x0} (h : Keeps s t) : Keeps s (discardWrite x0 t).2 := by
  unfold discardWrite
  repeat' with_reducible first | assumption | apply cvSet_keeps | simp only [Keeps.mk_iff] | split
theorem writeValue_keeps {s t : State} {x0 x1 x2 x3 x4} (h : Keeps s t) : Keeps s (writeValue x0 x1 x2 x3 x4 t).2 := by
  unfold writeValue
  repeat' with_reducible first | assumption | apply quotaWrite_keeps | apply transitWrite_keeps | apply loadWrite_keeps | apply oppCeilingWrite_keeps | apply stallCreate_keeps | apply stallRemove_keeps | apply contextStall_keeps | apply consent_keeps | apply pactWrite_keeps | apply extentGrant_keeps | apply extentRevoke_keeps | apply regionOwner_keeps | apply coherenceTest_keeps | apply bindAgent_keeps | apply agentClean_keeps | apply bankPowerWrite_keeps | apply tableOwner_keeps | apply tableSetWrite_keeps | apply collOwner_keeps | apply collActivate_keeps | apply collDeactivate_keeps | apply restockNow_keeps | apply retireRequest_keeps | apply contextEnable_keeps | apply contextDisable_keeps | apply fwStageImage_keeps | apply fwUpdate_keeps | apply injectionAllowed_keeps | apply deviceResetWrite_keeps | apply commitWrite_keeps | apply discardWrite_keeps | apply injectArm_keeps | apply applyWrite_keeps | split
theorem writeWhole_keeps {s t : State} {x0 x1 x2 x3} (h : Keeps s t) : Keeps s (writeWhole x0 x1 x2 x3 t).2 := by
  unfold writeWhole
  repeat' with_reducible first | assumption | apply writeValue_keeps | simp only [Keeps.mk_iff] | split
theorem noteRefusal_keeps {s t : State} {x0 x1} (h : Keeps s t) : Keeps s (noteRefusal x0 x1 t) := by
  unfold noteRefusal
  repeat' with_reducible first | assumption | apply cvSet_keeps | apply cvAdd_keeps
theorem dropAsm_keeps {s t : State} {x0} (h : Keeps s t) : Keeps s (dropAsm x0 t) := by
  unfold dropAsm
  repeat' with_reducible first | assumption | simp only [Keeps.mk_iff]
theorem writeEntry_keeps {s t : State} {x0 x1 x2} (h : Keeps s t) : Keeps s (writeEntry x0 x1 x2 t).2 := by
  unfold writeEntry
  repeat' with_reducible first | assumption | apply noteRefusal_keeps | apply dropAsm_keeps | apply writeWhole_keeps | refine Keeps.ite (fun _ => ?_) (fun _ => ?_) | simp only [Keeps.mk_iff] | split

end Sys2Proof.Machine
end

