-- ==== Sys2Proof/Laws/KeepsCatalogue.lean ====
section
/-! SUPPORT. The operations of Machine/Catalogue.lean leave the queue as it is and keep canonical memories canonical. -/

namespace Sys2Proof.Machine
open Sys2Proof Sys2Proof.Safety

theorem setCommit_keeps {s t : State} {x0 x1 x2 x3} (h : Keeps s t) : Keeps s (setCommit x0 x1 x2 x3 t) := by
  unfold setCommit
  repeat' with_reducible first | assumption | apply cvSet_keeps
theorem commitValidation_keeps {s t : State} {x0} (h : Keeps s t) : Keeps s (commitValidation x0 t) := by
  unfold commitValidation
  repeat' with_reducible first | assumption | apply setCommit_keeps | refine Keeps.ite (fun _ => ?_) (fun _ => ?_) | simp only [Keeps.mk_iff] | split
theorem remapWays_keeps {s t old new : State} {st} (h : Keeps s t) : Keeps s (remapWays old new st t) := by
  unfold remapWays
  repeat' with_reducible first | assumption | refine Keeps.ite (fun _ => ?_) (fun _ => ?_) | simp only [Keeps.mk_iff]
theorem rehashDir_keeps {s t : State} {x0} (h : Keeps s t) : Keeps s (rehashDir x0 t) := by
  unfold rehashDir
  repeat' with_reducible first | assumption | apply setWay_keeps | apply recallLine_keeps | apply sendSnp_keeps | apply cvAdd_keeps | (refine Keeps.foldl (fun _ _ _ => ?_) _ ?_ <;> try dsimp only) | refine Keeps.ite (fun _ => ?_) (fun _ => ?_) | split
theorem trimTlb_keeps {s t : State} {x0} (h : Keeps s t) : Keeps s (trimTlb x0 t) := by
  unfold trimTlb
  repeat' with_reducible first | assumption | simp only [Keeps.mk_iff]
theorem lineWaysChange_keeps {s t old new : State} {st} (h : Keeps s t) : Keeps s (lineWaysChange old new st t) := by
  unfold lineWaysChange
  repeat' with_reducible first | assumption | apply dropLines_keeps | (refine Keeps.foldl (fun _ _ _ => ?_) _ ?_ <;> try dsimp only) | refine Keeps.ite (fun _ => ?_) (fun _ => ?_) | simp only [Keeps.mk_iff]
theorem applyMaps_keeps {s t old : State} (h : Keeps s t) : Keeps s (applyMaps old t) := by
  unfold applyMaps
  repeat' with_reducible first | assumption | apply cvSet_keeps | apply lineWaysChange_keeps | apply remapWays_keeps | apply rehashDir_keeps | apply trimTlb_keeps | (refine Keeps.foldl (fun _ _ _ => ?_) _ ?_ <;> try dsimp only) | refine Keeps.ite (fun _ => ?_) (fun _ => ?_) | simp only [Keeps.mk_iff]
theorem commitApply_keeps {s t : State} {x0} (h : Keeps s t) : Keeps s (commitApply x0 t) := by
  unfold commitApply
  repeat' with_reducible first | assumption | apply setCommit_keeps | apply cvSet_keeps | apply applyMaps_keeps | refine Keeps.ite (fun _ => ?_) (fun _ => ?_) | simp only [Keeps.mk_iff] | split
theorem readEntry_keeps {s t : State} {x0 x1} (h : Keeps s t) : Keeps s (readEntry x0 x1 t).2.2 := by
  unfold readEntry
  repeat' with_reducible first | assumption | simp only [Keeps.mk_iff] | split
theorem answer_keeps {s t : State} {x0 x1 x2 x3} (h : Keeps s t) : Keeps s (answer x0 x1 x2 x3 t) := by
  unfold answer
  repeat' with_reducible first | assumption | apply send_keeps | split
theorem mctpRead_keeps {s t : State} {x0 x1} (h : Keeps s t) : Keeps s (mctpRead x0 x1 t) := by
  unfold mctpRead
  repeat' with_reducible first | assumption | apply answer_keeps | apply readEntry_keeps | simp only [Keeps.mk_iff] | split
theorem mctpWrite_keeps {s t : State} {x0 x1 x2} (h : Keeps s t) : Keeps s (mctpWrite x0 x1 x2 t) := by
  unfold mctpWrite
  repeat' with_reducible first | assumption | apply answer_keeps | apply writeEntry_keeps | simp only [Keeps.mk_iff] | split
theorem mctpInfo_keeps {s t : State} {x0 x1} (h : Keeps s t) : Keeps s (mctpInfo x0 x1 t) := by
  unfold mctpInfo
  repeat' with_reducible first | assumption | apply answer_keeps | simp only [Keeps.mk_iff] | split
theorem assemblyExpiry_keeps {s t : State} {x0} (h : Keeps s t) : Keeps s (assemblyExpiry x0 t) := by
  unfold assemblyExpiry
  repeat' with_reducible first | assumption | simp only [Keeps.mk_iff]
theorem snapshotRelease_keeps {s t : State} {x0} (h : Keeps s t) : Keeps s (snapshotRelease x0 t) := by
  unfold snapshotRelease
  repeat' with_reducible first | assumption | simp only [Keeps.mk_iff]

end Sys2Proof.Machine
end

