-- ==== Sys2Proof/Laws/KeepsAttest.lean ====
section
/-! SUPPORT. The operations of Machine/Attest.lean leave the queue as it is and keep canonical memories canonical. -/

namespace Sys2Proof.Machine
open Sys2Proof Sys2Proof.Safety

theorem attest_keeps {s t : State} {rq tag f} (hf : Keeps s (f t).2.2) (h : Keeps s t) : Keeps s (attest rq tag f t) := by
  unfold attest
  split
  · exact h
  · exact answer_keeps h
  · exact answer_keeps hf
theorem identityRead_keeps {s t : State} {x0 x1} (h : Keeps s t) : Keeps s (identityRead x0 x1 t).2.2 := by
  unfold identityRead
  repeat' with_reducible first | assumption | split
theorem writeReserve_keeps {s t : State} (h : Keeps s t) : Keeps s (writeReserve t).2 := by
  unfold writeReserve
  repeat' with_reducible first | assumption | refine Keeps.of_pair (by assumption) (bootFlashWrite_keeps ?_) | simp only [Keeps.mk_iff] | split
theorem reportRequest_keeps {s t : State} {x0 x1} (h : Keeps s t) : Keeps s (reportRequest x0 x1 t).2.2 := by
  unfold reportRequest
  repeat' with_reducible first | assumption | apply writeReserve_keeps | simp only [Keeps.mk_iff] | split
theorem reportRead_keeps {s t : State} {x0 x1 x2} (h : Keeps s t) : Keeps s (reportRead x0 x1 x2 t).2.2 := by
  unfold reportRead
  repeat' with_reducible first | assumption | split
theorem reportSigned_keeps {s t : State} (h : Keeps s t) : Keeps s (reportSigned t) := by
  unfold reportSigned
  repeat' with_reducible first | assumption | apply cvAdd_keeps | refine Keeps.ite (fun _ => ?_) (fun _ => ?_) | simp only [Keeps.mk_iff] | split
theorem reportDiscard_keeps {s t : State} {x0} (h : Keeps s t) : Keeps s (reportDiscard x0 t) := by
  unfold reportDiscard
  repeat' with_reducible first | assumption | simp only [Keeps.mk_iff]
theorem bottomTreeBuild_keeps {s t : State} (h : Keeps s t) : Keeps s (bottomTreeBuild t) := by
  unfold bottomTreeBuild
  repeat' with_reducible first | assumption | refine Keeps.ite (fun _ => ?_) (fun _ => ?_) | simp only [Keeps.mk_iff]
theorem debugChallenge_keeps {s t : State} (h : Keeps s t) : Keeps s (debugChallenge t).2.2 := by
  unfold debugChallenge
  repeat' with_reducible first | assumption | apply fresh_keeps | simp only [Keeps.mk_iff]
theorem debugToken_keeps {s t : State} {x0} (h : Keeps s t) : Keeps s (debugToken x0 t).2.2 := by
  unfold debugToken
  repeat' with_reducible first | assumption | simp only [Keeps.mk_iff] | split

end Sys2Proof.Machine
end

