-- ==== Sys2Proof/Laws/KeepsPorts.lean ====
section
/-! SUPPORT. The operations of Machine/Ports.lean leave the queue as it is and keep canonical memories canonical. -/

namespace Sys2Proof.Machine
open Sys2Proof Sys2Proof.Safety

theorem mailbox_keeps {s t : State} {x0 x1 x2 x3} (h : Keeps s t) : Keeps s (mailbox x0 x1 x2 x3 t) := by
  unfold mailbox
  repeat' with_reducible first | assumption | apply send_keeps | refine Keeps.ite (fun _ => ?_) (fun _ => ?_) | simp only [Keeps.mk_iff]
theorem assignDyn_keeps {s t : State} {x0} (h : Keeps s t) : Keeps s (assignDyn x0 t) := by
  unfold assignDyn
  repeat' with_reducible first | assumption | refine Keeps.ite (fun _ => ?_) (fun _ => ?_) | simp only [Keeps.mk_iff]
theorem setDasa_keeps {s t : State} {x0 x1} (h : Keeps s t) : Keeps s (setDasa x0 x1 t) := by
  unfold setDasa
  repeat' with_reducible first | assumption | apply assignDyn_keeps | refine Keeps.ite (fun _ => ?_) (fun _ => ?_)
theorem rstDaa_keeps {s t : State} (h : Keeps s t) : Keeps s (rstDaa t) := by
  unfold rstDaa
  repeat' with_reducible first | assumption | simp only [Keeps.mk_iff]
theorem setMwl_keeps {s t : State} {x0} (h : Keeps s t) : Keeps s (setMwl x0 t) := by
  unfold setMwl
  repeat' with_reducible first | assumption | refine Keeps.ite (fun _ => ?_) (fun _ => ?_) | simp only [Keeps.mk_iff]
theorem setMrl_keeps {s t : State} {x0} (h : Keeps s t) : Keeps s (setMrl x0 t) := by
  unfold setMrl
  repeat' with_reducible first | assumption | refine Keeps.ite (fun _ => ?_) (fun _ => ?_) | simp only [Keeps.mk_iff]
theorem setEid_keeps {s t : State} {x0} (h : Keeps s t) : Keeps s (setEid x0 t) := by
  unfold setEid
  repeat' with_reducible first | assumption | refine Keeps.ite (fun _ => ?_) (fun _ => ?_) | simp only [Keeps.mk_iff]

end Sys2Proof.Machine
end

