-- ==== Sys2Proof/Laws/KeepsLinks.lean ====
section
/-! SUPPORT. The operations of Machine/Links.lean leave the queue as it is and keep canonical memories canonical. -/

namespace Sys2Proof.Machine
open Sys2Proof Sys2Proof.Safety

theorem endPart_keeps {s t : State} {x0 x1 x2 x3 x4} (h : Keeps s t) : Keeps s (endPart x0 x1 x2 x3 x4 t) := by
  unfold endPart
  repeat' with_reducible first | assumption | apply endXfer_keeps | apply endCmd_keeps | refine Keeps.ite (fun _ => ?_) (fun _ => ?_) | simp only [Keeps.mk_iff] | split
theorem endLinkParts_keeps {s t : State} {x0 x1 x2} (h : Keeps s t) : Keeps s (endLinkParts x0 x1 x2 t) := by
  unfold endLinkParts
  repeat' with_reducible first | assumption | apply endPart_keeps | (refine Keeps.foldl (fun _ _ _ => ?_) _ ?_ <;> try dsimp only)
theorem setNextSeq_keeps {s t : State} {x0 x1 x2} (h : Keeps s t) : Keeps s (setNextSeq x0 x1 x2 t) := by
  unfold setNextSeq
  repeat' with_reducible first | assumption | simp only [Keeps.mk_iff]
theorem applyTrain_keeps {s t : State} {x0} (h : Keeps s t) : Keeps s (applyTrain x0 t) := by
  unfold applyTrain
  repeat' with_reducible first | assumption | apply inject_keeps | apply endPart_keeps | apply errRec_keeps | apply cvAdd_keeps | apply detect_keeps | refine Keeps.of_pair (by assumption) (hbmRange_keeps ?_) | apply actAs_keeps | (refine owned_keeps ?_ <;> try dsimp only) | apply unitWrite_keeps | apply updCmd_keeps | refine Keeps.ite (fun _ => ?_) (fun _ => ?_) | simp only [Keeps.mk_iff] | split
theorem applyHeld_keeps {s t : State} {x0 x1 x2} (h : Keeps s t) : Keeps s (applyHeld x0 x1 x2 t) := by
  induction x2 generalizing x0 x1 t with
  | zero =>
    unfold applyHeld
    assumption
  | succ _ ih =>
    unfold applyHeld
    repeat' with_reducible first | assumption | apply applyTrain_keeps | apply setNextSeq_keeps | apply ih | simp only [Keeps.mk_iff] | split
theorem arriveTrain_keeps {s t : State} {x0} (h : Keeps s t) : Keeps s (arriveTrain x0 t) := by
  unfold arriveTrain
  repeat' with_reducible first | assumption | apply setNextSeq_keeps | apply applyTrain_keeps | apply applyHeld_keeps | refine Keeps.ite (fun _ => ?_) (fun _ => ?_) | simp only [Keeps.mk_iff]
theorem skipNotice_keeps {s t : State} {x0 x1 x2} (h : Keeps s t) : Keeps s (skipNotice x0 x1 x2 t) := by
  unfold skipNotice
  repeat' with_reducible first | assumption | apply setNextSeq_keeps | apply applyHeld_keeps | refine Keeps.ite (fun _ => ?_) (fun _ => ?_) | simp only [Keeps.mk_iff]
theorem gapsFail_keeps {s t : State} {x0} (h : Keeps s t) : Keeps s (gapsFail x0 t) := by
  unfold gapsFail
  repeat' with_reducible first | assumption | apply endPart_keeps | apply detectRec_keeps | apply cvAdd_keeps | (refine Keeps.foldl (fun _ _ _ => ?_) _ ?_ <;> try dsimp only) | simp only [Keeps.mk_iff] | split
theorem linkFailed_keeps {s t : State} {x0 x1 x2} (h : Keeps s t) : Keeps s (linkFailed x0 x1 x2 t) := by
  unfold linkFailed
  repeat' with_reducible first | assumption | apply cvAdd_keeps | apply cvSet_keeps | apply detectRec_keeps | apply gapsFail_keeps | apply endLinkParts_keeps | apply send_keeps | apply setLink_keeps | (refine Keeps.foldl (fun _ _ _ => ?_) _ ?_ <;> try dsimp only) | refine Keeps.ite (fun _ => ?_) (fun _ => ?_) | split
theorem linkEvent_keeps {s t : State} {x0 x1} (h : Keeps s t) : Keeps s (linkEvent x0 x1 t) := by
  unfold linkEvent
  repeat' with_reducible first | assumption | apply linkFailed_keeps | refine Keeps.ite (fun _ => ?_) (fun _ => ?_)
theorem linkDead_keeps {s t : State} {x0} (h : Keeps s t) : Keeps s (linkDead x0 t) := by
  unfold linkDead
  repeat' with_reducible first | assumption | apply linkEvent_keeps | refine Keeps.ite (fun _ => ?_) (fun _ => ?_)
theorem linkUseTick_keeps {s t : State} {x0 x1} (h : Keeps s t) : Keeps s (linkUseTick x0 x1 t) := by
  unfold linkUseTick
  repeat' with_reducible first | assumption | refine Keeps.of_pair (by assumption) (inject_keeps ?_) | apply endLinkParts_keeps | apply errRec_keeps | apply linkFailed_keeps | apply detect_keeps | refine Keeps.ite (fun _ => ?_) (fun _ => ?_) | simp only [Keeps.mk_iff] | split
theorem restartSeq_keeps {s t : State} {x0} (h : Keeps s t) : Keeps s (restartSeq x0 t) := by
  unfold restartSeq
  repeat' with_reducible first | assumption | simp only [Keeps.mk_iff]
theorem linkTrained_keeps {s t : State} {x0 x1 x2 x3} (h : Keeps s t) : Keeps s (linkTrained x0 x1 x2 x3 t) := by
  unfold linkTrained
  repeat' with_reducible first | assumption | apply cvSet_keeps | apply restartSeq_keeps | apply setLink_keeps | refine Keeps.ite (fun _ => ?_) (fun _ => ?_)
theorem trainTimeout_keeps {s t : State} {x0} (h : Keeps s t) : Keeps s (trainTimeout x0 t) := by
  unfold trainTimeout
  repeat' with_reducible first | assumption | apply cvSet_keeps | refine Keeps.ite (fun _ => ?_) (fun _ => ?_)
theorem linkRetrain_keeps {s t : State} {x0} (h : Keeps s t) : Keeps s (linkRetrain x0 t) := by
  unfold linkRetrain
  repeat' with_reducible first | assumption | apply cvSet_keeps | refine Keeps.ite (fun _ => ?_) (fun _ => ?_) | split
theorem flitFails_keeps {s t : State} {x0 x1 x2 x3} (h : Keeps s t) : Keeps s (flitFails x0 x1 x2 x3 t) := by
  unfold flitFails
  repeat' with_reducible first | assumption | apply send_keeps | apply cvAdd_keeps | apply setLink_keeps | apply linkFailed_keeps | refine Keeps.ite (fun _ => ?_) (fun _ => ?_)
theorem flitInject_keeps {s t : State} {x0 x1 x2 x3 x4 x5} (h : Keeps s t) : Keeps s (flitInject x0 x1 x2 x3 x4 x5 t).2 := by
  unfold flitInject
  repeat' with_reducible first | assumption | refine Keeps.of_pair (by assumption) (inject_keeps ?_) | apply errRec_keeps | apply endPart_keeps | apply cvAdd_keeps | apply detect_keeps | simp only [Keeps.mk_iff] | split
theorem flitTaken_keeps {s t : State} {x0 x1 x2 x3 x4 x5} (h : Keeps s t) : Keeps s (flitTaken x0 x1 x2 x3 x4 x5 t).2 := by
  unfold flitTaken
  repeat' with_reducible first | assumption | apply cvAdd_keeps | apply detect_keeps | apply flitInject_keeps | apply flitFails_keeps | apply setLink_keeps | simp only [Keeps.mk_iff] | split
theorem trainDone_keeps {s t : State} {x0 x1 x2} (h : Keeps s t) : Keeps s (trainDone x0 x1 x2 t) := by
  unfold trainDone
  repeat' with_reducible first | assumption | apply arriveTrain_keeps | apply putTrain_keeps | apply act_keeps | apply actAs_keeps | apply updCmd_keeps | refine Keeps.ite (fun _ => ?_) (fun _ => ?_) | simp only [Keeps.mk_iff] | split
theorem headerReceive_keeps {s t : State} {x0 x1 x2} (h : Keeps s t) : Keeps s (headerReceive x0 x1 x2 t) := by
  unfold headerReceive
  repeat' with_reducible first | assumption | apply setLink_keeps | refine Keeps.of_pair (by assumption) (flitTaken_keeps ?_) | refine Keeps.ite (fun _ => ?_) (fun _ => ?_) | simp only [Keeps.mk_iff] | split
theorem flitNext_keeps {s t : State} {x0 x1 x2 x3} (h : Keeps s t) : Keeps s (flitNext x0 x1 x2 x3 t) := by
  unfold flitNext
  repeat' with_reducible first | assumption | apply setLink_keeps | apply trainDone_keeps | refine Keeps.ite (fun _ => ?_) (fun _ => ?_)
theorem flitStep_keeps {s : State} {l h k f} {x : Bool × State} (e : Keeps s x.2) : Keeps s (flitStep l h k f x) := by
  rw [flitStep]
  split
  · exact flitNext_keeps e
  · exact e
theorem flitGiven_keeps {s t : State} {x0 x1 x2 x3 x4} (h : Keeps s t) : Keeps s (flitGiven x0 x1 x2 x3 x4 t) := by
  rw [flitGiven]
  exact flitStep_keeps (flitTaken_keeps h)
theorem dataReceive_keeps {s t : State} {x0 x1 x2} (h : Keeps s t) : Keeps s (dataReceive x0 x1 x2 t) := by
  unfold dataReceive
  repeat' with_reducible first | assumption | apply setLink_keeps | apply flitGiven_keeps | refine Keeps.ite (fun _ => ?_) (fun _ => ?_) | simp only [Keeps.mk_iff] | split
theorem retryRequest_keeps {s t : State} {x0 x1 x2} (h : Keeps s t) : Keeps s (retryRequest x0 x1 x2 t) := by
  unfold retryRequest
  repeat' with_reducible first | assumption | apply send_keeps | apply setLink_keeps | (refine Keeps.foldl (fun _ _ _ => ?_) _ ?_ <;> try dsimp only) | refine Keeps.ite (fun _ => ?_) (fun _ => ?_)
theorem credit_keeps {s t : State} {x0 x1 x2} (h : Keeps s t) : Keeps s (credit x0 x1 x2 t) := by
  unfold credit
  repeat' with_reducible first | assumption | apply setLink_keeps | refine Keeps.ite (fun _ => ?_) (fun _ => ?_)
theorem controlFlit_keeps {s t : State} {x0} (h : Keeps s t) : Keeps s (controlFlit x0 t) := by
  unfold controlFlit
  repeat' with_reducible first | assumption | apply send_keeps | apply setLink_keeps | refine Keeps.ite (fun _ => ?_) (fun _ => ?_)

end Sys2Proof.Machine
end

