-- ==== Sys2Proof/Laws/KeepsXlate.lean ====
section
/-! SUPPORT. The operations of Machine/Xlate.lean leave the queue as it is and keep canonical memories canonical. -/

namespace Sys2Proof.Machine
open Sys2Proof Sys2Proof.Safety

theorem walkFault_keeps {s t : State} {x0 x1 x2} (h : Keeps s t) : Keeps s (walkFault x0 x1 x2 t) := by
  unfold walkFault
  repeat' with_reducible first | assumption | apply xlateFault_keeps | apply endPart_keeps
theorem installTlb_keeps {s t : State} {x0} (h : Keeps s t) : Keeps s (installTlb x0 t) := by
  unfold installTlb
  repeat' with_reducible first | assumption | simp only [Keeps.mk_iff]
theorem walkDone_keeps {s t : State} {x0} (h : Keeps s t) : Keeps s (walkDone x0 t) := by
  unfold walkDone
  repeat' with_reducible first | assumption | simp only [Keeps.mk_iff]
theorem landIn_keeps {s t : State} {x0 x1 x2} (h : Keeps s t) : Keeps s (landIn x0 x1 x2 t) := by
  unfold landIn
  repeat' with_reducible first | assumption | apply updCmd_keeps
theorem walkFound_keeps {s t : State} {x0 x1 x2 x3 x4 x5 x6} (h : Keeps s t) : Keeps s (walkFound x0 x1 x2 x3 x4 x5 x6 t) := by
  unfold walkFound
  repeat' with_reducible first | assumption | apply walkFault_keeps | apply endPart_keeps | apply installTlb_keeps | apply landIn_keeps | (refine Keeps.foldl (fun _ _ _ => ?_) _ ?_ <;> try dsimp only) | refine Keeps.ite (fun _ => ?_) (fun _ => ?_)
theorem walkInject_keeps {s t : State} {x0 x1} (h : Keeps s t) : Keeps s (walkInject x0 x1 t).2 := by
  induction x1 generalizing x0 t with
  | nil =>
    unfold walkInject
    assumption
  | cons _ _ ih =>
    unfold walkInject
    repeat' with_reducible first | assumption | refine Keeps.of_pair (by assumption) (inject_keeps ?_) | apply errRec_keeps | refine Keeps.of_pair (by assumption) (hbmRange_keeps ?_) | apply ih | simp only [Keeps.mk_iff] | split
theorem walkErrorRec_keeps {s t : State} {x0 x1} (h : Keeps s t) : Keeps s (walkErrorRec x0 x1 t) := by
  unfold walkErrorRec
  repeat' with_reducible first | assumption | apply detectRec_keeps | split
theorem preWalk_keeps {s t : State} {x0 x1} (h : Keeps s t) : Keeps s (preWalk x0 x1 t) := by
  unfold preWalk
  repeat' with_reducible first | assumption | apply walkDone_keeps | apply send_keeps | apply cvAdd_keeps | apply act_keeps | refine Keeps.of_pair (by assumption) (walkInject_keeps ?_) | apply walkFault_keeps | apply walkFound_keeps | apply walkErrorRec_keeps | refine Keeps.ite (fun _ => ?_) (fun _ => ?_) | simp only [Keeps.mk_iff] | split
theorem dropAts_keeps {s t : State} {x0} (h : Keeps s t) : Keeps s (dropAts x0 t) := by
  unfold dropAts
  repeat' with_reducible first | assumption | simp only [Keeps.mk_iff]
theorem atsCompletion_keeps {s t : State} {x0 x1 x2 x3 x4} (h : Keeps s t) : Keeps s (atsCompletion x0 x1 x2 x3 x4 t) := by
  unfold atsCompletion
  repeat' with_reducible first | assumption | apply cvAdd_keeps | apply walkDone_keeps | apply dropAts_keeps | apply walkFault_keeps | apply walkFound_keeps | refine Keeps.ite (fun _ => ?_) (fun _ => ?_) | simp only [Keeps.mk_iff] | split
theorem atsBound_keeps {s t : State} {x0} (h : Keeps s t) : Keeps s (atsBound x0 t) := by
  unfold atsBound
  repeat' with_reducible first | assumption | apply walkFault_keeps | apply walkDone_keeps | apply dropAts_keeps | refine Keeps.ite (fun _ => ?_) (fun _ => ?_) | split
theorem atsInvalidate_keeps {s t : State} {x0 x1 x2} (h : Keeps s t) : Keeps s (atsInvalidate x0 x1 x2 t) := by
  unfold atsInvalidate
  repeat' with_reducible first | assumption | simp only [Keeps.mk_iff]
theorem takeEntry_keeps {s t : State} {x0 x1} (h : Keeps s t) : Keeps s (takeEntry x0 x1 t) := by
  unfold takeEntry
  repeat' with_reducible first | assumption | apply errRec_keeps | refine Keeps.ite (fun _ => ?_) (fun _ => ?_) | simp only [Keeps.mk_iff]
theorem takeQueue_keeps {s t : State} {x0} (h : Keeps s t) : Keeps s (takeQueue x0 t) := by
  unfold takeQueue
  repeat' with_reducible first | assumption | apply errRec_keeps | apply takeEntry_keeps | (refine Keeps.foldl (fun _ _ _ => ?_) _ ?_ <;> try dsimp only) | refine Keeps.ite (fun _ => ?_) (fun _ => ?_) | simp only [Keeps.mk_iff]
theorem takeQueues_keeps {s t : State} (h : Keeps s t) : Keeps s (takeQueues t) := by
  unfold takeQueues
  repeat' with_reducible first | assumption | apply takeQueue_keeps | (refine Keeps.foldl (fun _ _ _ => ?_) _ ?_ <;> try dsimp only)
theorem iqApplyOne_keeps {s t : State} {x0} (h : Keeps s t) : Keeps s (iqApplyOne x0 t) := by
  unfold iqApplyOne
  repeat' with_reducible first | assumption | apply cvAdd_keeps | apply advance_keeps | apply endCmd_keeps | apply send_keeps | refine Keeps.ite (fun _ => ?_) (fun _ => ?_) | simp only [Keeps.mk_iff] | split
theorem iqApply_keeps {s t : State} {x0 x1} (h : Keeps s t) : Keeps s (iqApply x0 x1 t) := by
  induction x1 generalizing x0 t with
  | zero =>
    unfold iqApply
    assumption
  | succ _ ih =>
    unfold iqApply
    repeat' with_reducible first | assumption | apply iqApplyOne_keeps | apply ih | refine Keeps.ite (fun _ => ?_) (fun _ => ?_) | split
theorem heatPeriod_keeps {s t : State} {x0} (h : Keeps s t) : Keeps s (heatPeriod x0 t) := by
  unfold heatPeriod
  repeat' with_reducible first | assumption | apply xrAppend_keeps | (refine Keeps.foldl (fun _ _ _ => ?_) _ ?_ <;> try dsimp only) | refine Keeps.ite (fun _ => ?_) (fun _ => ?_) | simp only [Keeps.mk_iff]
theorem decayPeriod_keeps {s t : State} {x0} (h : Keeps s t) : Keeps s (decayPeriod x0 t) := by
  unfold decayPeriod
  repeat' with_reducible first | assumption | refine Keeps.ite (fun _ => ?_) (fun _ => ?_) | simp only [Keeps.mk_iff]

end Sys2Proof.Machine
end

