-- ==== Sys2Proof/Laws/KeepsPorterMem.lean ====
section
/-! SUPPORT. The operations of Machine/PorterMem.lean leave the queue as it is and keep canonical memories canonical. -/

namespace Sys2Proof.Machine
open Sys2Proof Sys2Proof.Safety

theorem porterTrap_keeps {s t : State} {x0 x1} (h : Keeps s t) : Keeps s (porterTrap x0 x1 t) := by
  unfold porterTrap
  repeat' with_reducible first | assumption | apply fresh_keeps | apply pump_keeps | apply setPorter_keeps | apply errRec_keeps | apply cvAdd_keeps | apply endCmd_keeps | simp only [id_eq] | split
theorem placeOf_keeps {s t : State} {x0 x1 x2} (h : Keeps s t) : Keeps s (placeOf x0 x1 x2 t).2 := by
  unfold placeOf
  repeat' with_reducible first | assumption | apply xlateFault_keeps | simp only [Keeps.mk_iff] | split
theorem setLc_keeps {s t : State} {x0} (h : Keeps s t) : Keeps s (setLc x0 t) := by
  unfold setLc
  repeat' with_reducible first | assumption | simp only [Keeps.mk_iff]
theorem lcAlloc_keeps {s t : State} {x0} (h : Keeps s t) : Keeps s (lcAlloc x0 t) := by
  unfold lcAlloc
  repeat' with_reducible first | assumption | apply setLc_keeps | apply useOrders_keeps | apply storeWrite_keeps | refine Keeps.ite (fun _ => ?_) (fun _ => ?_) | simp only [Keeps.mk_iff] | split
theorem lineLoad_keeps {s t : State} {x0 x1 x2 x3} (h : Keeps s t) : Keeps s (lineLoad x0 x1 x2 x3 t).2 := by
  unfold lineLoad
  repeat' with_reducible first | assumption | refine Keeps.of_pair (by assumption) (hbmRange_keeps ?_) | apply heat_keeps | apply act_keeps | apply lcAlloc_keeps | refine Keeps.ite (fun _ => ?_) (fun _ => ?_) | simp only [Keeps.mk_iff] | split
theorem writeEntryHome_keeps {s t : State} {x0 x1 x2} (h : Keeps s t) : Keeps s (writeEntryHome x0 x1 x2 t) := by
  unfold writeEntryHome
  repeat' with_reducible first | assumption | apply setLc_keeps | apply heat_keeps | apply act_keeps | apply hbmRange_keeps | apply endCmd_keeps | (refine owned_keeps ?_ <;> try dsimp only) | apply homeWrite_keeps | refine Keeps.ite (fun _ => ?_) (fun _ => ?_) | simp only [Keeps.mk_iff] | split
theorem drainOne_keeps {s t : State} {x0} (h : Keeps s t) : Keeps s (drainOne x0 t) := by
  unfold drainOne
  repeat' with_reducible first | assumption | apply writeEntryHome_keeps | apply setPorter_keeps | simp only [Keeps.mk_iff] | split
theorem drainN_keeps {s t : State} {x0 x1} (h : Keeps s t) : Keeps s (drainN x0 x1 t) := by
  induction x1 generalizing x0 t with
  | zero =>
    unfold drainN
    assumption
  | succ _ ih =>
    unfold drainN
    repeat' with_reducible first | assumption | apply drainOne_keeps | apply ih
theorem drainAll_keeps {s t : State} {x0} (h : Keeps s t) : Keeps s (drainAll x0 t) := by
  unfold drainAll
  repeat' with_reducible first | assumption | apply drainN_keeps
theorem lineStore_keeps {s t : State} {x0 x1 x2 x3} (h : Keeps s t) : Keeps s (lineStore x0 x1 x2 x3 t).2 := by
  unfold lineStore
  repeat' with_reducible first | assumption | apply drainOne_keeps | apply setLc_keeps | apply setPorter_keeps | simp only [Keeps.mk_iff] | split
theorem writeTcm_keeps {s t : State} {x0 x1 x2} (h : Keeps s t) : Keeps s (writeTcm x0 x1 x2 t) := by
  induction x2 generalizing x0 x1 t with
  | nil =>
    unfold writeTcm
    assumption
  | cons _ _ ih =>
    unfold writeTcm
    repeat' with_reducible first | assumption | apply setBankByte_keeps | apply ih
theorem porterLoad_keeps {s t : State} {x0 x1 x2} (h : Keeps s t) : Keeps s (porterLoad x0 x1 x2 t).2 := by
  unfold porterLoad
  repeat' with_reducible first | assumption | refine Keeps.of_pair (by assumption) (spaceRange_keeps ?_) | apply sramEnd_keeps | refine Keeps.of_pair (by assumption) (placeOf_keeps ?_) | refine Keeps.of_pair (by assumption) (sramWord_keeps ?_) | apply lineLoad_keeps | apply protectionRec_keeps | simp only [Keeps.mk_iff] | split
theorem porterStore_keeps {s t : State} {x0 x1 x2 x3} (h : Keeps s t) : Keeps s (porterStore x0 x1 x2 x3 t).2 := by
  unfold porterStore
  repeat' with_reducible first | assumption | apply writeSpace_keeps | refine Keeps.of_pair (by assumption) (placeOf_keeps ?_) | apply writeTcm_keeps | apply lineStore_keeps | apply winWrite_keeps | simp only [Keeps.mk_iff] | split
theorem rangeLines_keeps {s t : State} {x0 x1 x2} (h : Keeps s t) : Keeps s (rangeLines x0 x1 x2 t).2 := by
  induction x2 generalizing x0 x1 t with
  | zero =>
    unfold rangeLines
    assumption
  | succ _ ih =>
    unfold rangeLines
    repeat' with_reducible first | assumption | refine Keeps.of_pair (by assumption) (placeOf_keeps ?_) | apply ih | refine Keeps.of_pair (by assumption) (ih ?_) | split
theorem acquire_keeps {s t : State} {x0 x1} (h : Keeps s t) : Keeps s (acquire x0 x1 t).2 := by
  unfold acquire
  repeat' with_reducible first | assumption | apply setLc_keeps
theorem release_keeps {s t : State} {x0 x1} (h : Keeps s t) : Keeps s (release x0 x1 t).2 := by
  unfold release
  repeat' with_reducible first | assumption | apply drainAll_keeps | apply storeWrite_keeps | (refine Keeps.foldl (fun _ _ _ => ?_) _ ?_ <;> try dsimp only) | simp only [Keeps.mk_iff] | split
theorem withScope_keeps {s t : State} {p op range} (hop : ∀ ls u, Keeps s u → Keeps s (op p ls u).2) (h : Keeps s t) :
    Keeps s (withScope p op range t).2 := by
  unfold withScope
  split
  · exact hop _ _ h
  · split
    · exact h
    · split
      · next e => exact hop _ _ (Keeps.of_pair e (rangeLines_keeps h))
      · next e => exact Keeps.of_pair e (rangeLines_keeps h)
theorem twaitBegin_keeps {s t : State} {x0 x1 x2 x3} (h : Keeps s t) : Keeps s (twaitBegin x0 x1 x2 x3 t).2 := by
  unfold twaitBegin
  repeat' with_reducible first | assumption | apply setPorter_keeps | simp only [Keeps.mk_iff] | split
theorem porterTadd_keeps {s t : State} {x0 x1 x2} (h : Keeps s t) : Keeps s (porterTadd x0 x1 x2 t).2 := by
  unfold porterTadd
  repeat' with_reducible first | assumption | apply advance_keeps | simp only [Keeps.mk_iff] | split
theorem predMove_keeps {s t : State} {x0 x1 x2} (h : Keeps s t) : Keeps s (predMove x0 x1 x2 t) := by
  unfold predMove
  repeat' with_reducible first | assumption | refine Keeps.ite (fun _ => ?_) (fun _ => ?_) | simp only [Keeps.mk_iff]
theorem ownLine_keeps {s t : State} {x0 x1 x2 x3} (h : Keeps s t) : Keeps s (ownLine x0 x1 x2 x3 t) := by
  unfold ownLine
  repeat' with_reducible first | assumption | apply setWay_keeps | apply sendSnp_keeps | apply recallLine_keeps | (refine Keeps.foldl (fun _ _ _ => ?_) _ ?_ <;> try dsimp only) | refine Keeps.ite (fun _ => ?_) (fun _ => ?_) | simp only [Keeps.mk_iff] | split
theorem takeLine_keeps {s t : State} {x0 x1 x2} (h : Keeps s t) : Keeps s (takeLine x0 x1 x2 t).2 := by
  unfold takeLine
  repeat' with_reducible first | assumption | apply ownLine_keeps | apply cvAdd_keeps | apply recallLine_keeps | apply setWay_keeps | apply sendSnp_keeps | (refine Keeps.foldl (fun _ _ _ => ?_) _ ?_ <;> try dsimp only) | simp only [Keeps.mk_iff] | split
theorem amoMark_keeps {s t : State} {x0 x1 x2} (h : Keeps s t) : Keeps s (amoMark x0 x1 x2 t) := by
  unfold amoMark
  repeat' with_reducible first | assumption | apply setPorter_keeps
theorem amoServe_keeps {s t : State} {x0 x1 x2 x3 x4 x5 x6 x7} (h : Keeps s t) : Keeps s (amoServe x0 x1 x2 x3 x4 x5 x6 x7 t).2 := by
  unfold amoServe
  repeat' with_reducible first | assumption | apply pump_keeps | apply cvAdd_keeps | apply predMove_keeps | apply setPorter_keeps | apply setLc_keeps | refine Keeps.of_pair (by assumption) (hbmRange_keeps ?_) | apply heat_keeps | apply act_keeps | apply storeWrite_keeps | simp only [Keeps.mk_iff] | split
theorem amoClaim_keeps {s t : State} {x0 x1 x2 x3 x4} (h : Keeps s t) : Keeps s (amoClaim x0 x1 x2 x3 x4 t).2 := by
  unfold amoClaim
  repeat' with_reducible first | assumption | apply unitInvalidate_keeps | apply takeLine_keeps | apply setLc_keeps | refine Keeps.ite (fun _ => ?_) (fun _ => ?_) | simp only [Keeps.mk_iff] | split
theorem amoFill_keeps {s t : State} {x0 x1 x2} (h : Keeps s t) : Keeps s (amoFill x0 x1 x2 t) := by
  unfold amoFill
  repeat' with_reducible first | assumption | apply lcAlloc_keeps | apply setLc_keeps
theorem amoRun_keeps {s t : State} {x0 x1 x2 x3 x4 x5 x6 x7} (h : Keeps s t) : Keeps s (amoRun x0 x1 x2 x3 x4 x5 x6 x7 t).2 := by
  unfold amoRun
  repeat' with_reducible first | assumption | apply amoServe_keeps | refine Keeps.of_pair (by assumption) (hbmRange_keeps ?_) | apply act_keeps | apply amoFill_keeps | simp only [Keeps.mk_iff] | split
theorem porterAmo_keeps {s t : State} {x0 x1 x2 x3 x4 x5} (h : Keeps s t) : Keeps s (porterAmo x0 x1 x2 x3 x4 x5 t).2 := by
  unfold porterAmo
  repeat' with_reducible first | assumption | refine Keeps.of_pair (by assumption) (placeOf_keeps ?_) | apply drainAll_keeps | apply setPorter_keeps | apply amoMark_keeps | apply amoClaim_keeps | apply amoRun_keeps | simp only [Keeps.mk_iff] | split

end Sys2Proof.Machine
end

