-- ==== Sys2Proof/Laws/KeepsPorter.lean ====
section
/-! SUPPORT. The operations of Machine/Porter.lean leave the queue as it is and keep canonical memories canonical. -/

namespace Sys2Proof.Machine
open Sys2Proof Sys2Proof.Safety

theorem setPred_keeps {s t : State} {x0 x1 x2} (h : Keeps s t) : Keeps s (setPred x0 x1 x2 t) := by
  unfold setPred
  repeat' with_reducible first | assumption | simp only [Keeps.mk_iff]
theorem csrWrite_keeps {s t : State} {x0 x1 x2} (h : Keeps s t) : Keeps s (csrWrite x0 x1 x2 t).2 := by
  unfold csrWrite
  repeat' with_reducible first | assumption | apply setPorter_keeps | apply setPred_keeps | simp only [Keeps.mk_iff] | split
theorem retire_keeps {s t : State} {x0 x1 x2 x3 x4} (h : Keeps s t) : Keeps s (retire x0 x1 x2 x3 x4 t) := by
  unfold retire
  repeat' with_reducible first | assumption | apply setPorter_keeps
theorem finish_keeps {s : State} {p len cycles put} {r : PRes × State} (h : Keeps s r.2) : Keeps s (finish p len cycles put r) := by
  unfold finish
  split
  · exact porterTrap_keeps h
  · exact h
  · exact setPorter_keeps h
theorem loadOp_keeps {s t : State} {x0 x1 x2 x3 x4 x5} (h : Keeps s t) : Keeps s (loadOp x0 x1 x2 x3 x4 x5 t) := by
  unfold loadOp
  repeat' with_reducible first | assumption | apply finish_keeps | dsimp only | apply porterLoad_keeps | apply porterTrap_keeps | split
theorem storeOp_keeps {s t : State} {x0 x1 x2 x3 x4 x5} (h : Keeps s t) : Keeps s (storeOp x0 x1 x2 x3 x4 x5 t) := by
  unfold storeOp
  repeat' with_reducible first | assumption | apply finish_keeps | dsimp only | apply porterStore_keeps | apply porterTrap_keeps | split
theorem csrOp_keeps {s t : State} {x0 x1 x2 x3 x4 x5 x6} (h : Keeps s t) : Keeps s (csrOp x0 x1 x2 x3 x4 x5 x6 t) := by
  unfold csrOp
  repeat' with_reducible first | assumption | apply porterTrap_keeps | apply finish_keeps | dsimp only | refine Keeps.of_pair (by assumption) (csrWrite_keeps ?_) | refine Keeps.ite (fun _ => ?_) (fun _ => ?_) | split
theorem tcAcq_keeps {s t : State} {x0 x1 x2} (h : Keeps s t) : Keeps s (tcAcq x0 x1 x2 t) := by
  unfold tcAcq
  repeat' with_reducible first | assumption | apply finish_keeps | (refine withScope_keeps (fun _ _ _ => ?_) ?_) | apply acquire_keeps
theorem tcRel_keeps {s t : State} {x0 x1 x2} (h : Keeps s t) : Keeps s (tcRel x0 x1 x2 t) := by
  unfold tcRel
  repeat' with_reducible first | assumption | apply finish_keeps | (refine withScope_keeps (fun _ _ _ => ?_) ?_) | apply release_keeps
theorem tcWait_keeps {s t : State} {x0 x1 x2 x3 x4 x5} (h : Keeps s t) : Keeps s (tcWait x0 x1 x2 x3 x4 x5 t) := by
  unfold tcWait
  repeat' with_reducible first | assumption | apply porterTrap_keeps | apply finish_keeps | apply twaitBegin_keeps | refine Keeps.ite (fun _ => ?_) (fun _ => ?_)
theorem tcAdd_keeps {s t : State} {x0 x1 x2 x3} (h : Keeps s t) : Keeps s (tcAdd x0 x1 x2 x3 t) := by
  unfold tcAdd
  repeat' with_reducible first | assumption | apply finish_keeps | apply porterTadd_keeps
theorem tcAmo_keeps {s t : State} {x0 x1 x2 x3 x4 x5 x6 x7} (h : Keeps s t) : Keeps s (tcAmo x0 x1 x2 x3 x4 x5 x6 x7 t) := by
  unfold tcAmo
  repeat' with_reducible first | assumption | apply porterTrap_keeps | apply finish_keeps | dsimp only | apply porterAmo_keeps | refine Keeps.ite (fun _ => ?_) (fun _ => ?_)
theorem tileOp_keeps {s t : State} {x0 x1 x2} (h : Keeps s t) : Keeps s (tileOp x0 x1 x2 t) := by
  unfold tileOp
  repeat' with_reducible first | assumption | apply tcAcq_keeps | apply porterTrap_keeps | apply tcRel_keeps | apply tcWait_keeps | apply tcAdd_keeps | apply tcAmo_keeps | refine Keeps.ite (fun _ => ?_) (fun _ => ?_) | simp only [Keeps.mk_iff] | split
theorem systemOp_keeps {s t : State} {x0 x1 x2} (h : Keeps s t) : Keeps s (systemOp x0 x1 x2 t) := by
  unfold systemOp
  repeat' with_reducible first | assumption | apply porterTrap_keeps | apply retire_keeps | apply setPorter_keeps | refine Keeps.ite (fun _ => ?_) (fun _ => ?_)
theorem loadUse_keeps {s t : State} {x0 x1} (h : Keeps s t) : Keeps s (loadUse x0 x1 t) := by
  unfold loadUse
  repeat' with_reducible first | assumption | apply setPorter_keeps | refine Keeps.ite (fun _ => ?_) (fun _ => ?_)
theorem op32_keeps {s t : State} {x0 x1 x2} (h : Keeps s t) : Keeps s (op32 x0 x1 x2 t) := by
  unfold op32
  repeat' with_reducible first | assumption | apply retire_keeps | apply porterTrap_keeps | apply loadOp_keeps | apply storeOp_keeps | apply systemOp_keeps | apply csrOp_keeps | apply tileOp_keeps | refine Keeps.ite (fun _ => ?_) (fun _ => ?_) | simp only [Keeps.mk_iff] | split
theorem fetchHalf_keeps {s t : State} {x0 x1} (h : Keeps s t) : Keeps s (fetchHalf x0 x1 t).2 := by
  unfold fetchHalf
  repeat' with_reducible first | assumption | apply porterLoad_keeps | refine Keeps.of_pair (by assumption) (porterLoad_keeps ?_) | split
theorem porterStep_keeps {s t : State} {x0} (h : Keeps s t) : Keeps s (porterStep x0 t) := by
  unfold porterStep
  repeat' with_reducible first | assumption | refine Keeps.of_pair (by assumption) (fetchHalf_keeps ?_) | apply porterTrap_keeps | apply op32_keeps | apply loadUse_keeps | refine Keeps.ite (fun _ => ?_) (fun _ => ?_) | simp only [Keeps.mk_iff] | split
theorem porterDoes_keeps {s t : State} {p w} {f : State → State} (g : Keeps s (f (loadUse p w t))) (h : Keeps s t) : Keeps s (porterDoes p w f t) := by
  unfold porterDoes
  split
  · exact g
  · exact h
theorem predCsr_keeps {s t : State} {x0 x1 x2} (h : Keeps s t) : Keeps s (predCsr x0 x1 x2 t) := by
  unfold predCsr
  repeat' with_reducible first | assumption | apply finish_keeps | dsimp only | apply csrWrite_keeps | apply porterTrap_keeps | refine Keeps.ite (fun _ => ?_) (fun _ => ?_)
theorem twaitDone_keeps {s t : State} {x0} (h : Keeps s t) : Keeps s (twaitDone x0 t) := by
  unfold twaitDone
  repeat' with_reducible first | assumption | apply setPorter_keeps | refine Keeps.ite (fun _ => ?_) (fun _ => ?_) | simp only [Keeps.mk_iff] | split
theorem twaitBound_keeps {s t : State} {x0} (h : Keeps s t) : Keeps s (twaitBound x0 t) := by
  unfold twaitBound
  repeat' with_reducible first | assumption | apply setPorter_keeps | refine Keeps.ite (fun _ => ?_) (fun _ => ?_) | simp only [Keeps.mk_iff] | split
theorem amoRow_keeps {s t : State} {x0 x1 x2 x3 x4 x5} (h : Keeps s t) : Keeps s (amoRow x0 x1 x2 x3 x4 x5 t) := by
  unfold amoRow
  repeat' with_reducible first | assumption | (refine porterDoes_keeps ?_ ?_ <;> try dsimp only) | apply loadUse_keeps | apply tcAmo_keeps

end Sys2Proof.Machine
end

