-- ==== Sys2Proof/Laws/KeepsSpans.lean ====
section
/-! SUPPORT. The operations of Machine/Spans.lean leave the queue as it is and keep canonical memories canonical. -/

namespace Sys2Proof.Machine
open Sys2Proof Sys2Proof.Safety

theorem opPstart_keeps {s t : State} {x0} (h : Keeps s t) : Keeps s (opPstart x0 t) := by
  unfold opPstart
  repeat' with_reducible first | assumption | (refine subfield_keeps (fun _ => ?_) ?_ <;> try dsimp only) | apply drainAll_keeps | apply setPorter_keeps | (refine Keeps.foldl (fun _ _ _ => ?_) _ ?_ <;> try dsimp only)
theorem drainPart_keeps {s t : State} {x0 x1} (h : Keeps s t) : Keeps s (drainPart x0 x1 t) := by
  unfold drainPart
  repeat' with_reducible first | assumption | apply drainAll_keeps | (refine Keeps.foldl (fun _ _ _ => ?_) _ ?_ <;> try dsimp only)
theorem spanEnds_keeps {s t : State} {x0} (h : Keeps s t) : Keeps s (spanEnds x0 t) := by
  unfold spanEnds
  repeat' with_reducible first | assumption | apply drainPart_keeps | apply countBytes_keeps | apply updCmd_keeps | apply endCmd_keeps | (refine Keeps.foldl (fun _ _ _ => ?_) _ ?_ <;> try dsimp only) | refine Keeps.ite (fun _ => ?_) (fun _ => ?_) | split

end Sys2Proof.Machine
end

