-- ==== Sys2Proof/Laws/KeepsGate.lean ====
section
/-! SUPPORT. The operations of Machine/Gate.lean leave the queue as it is and keep canonical memories canonical. -/

namespace Sys2Proof.Machine
open Sys2Proof Sys2Proof.Safety

theorem orElse_keeps {s t : State} {l} {k : Chk × State} (h : Keeps s t) (g : Keeps s k.2) : Keeps s (orElse l t k).2 := by
  unfold orElse
  split
  · exact h
  · exact g
theorem ownPublish_keeps {s t : State} {x0 x1 x2 x3} (h : Keeps s t) : Keeps s (ownPublish x0 x1 x2 x3 t).2 := by
  unfold ownPublish
  repeat' with_reducible first | assumption | apply orElse_keeps | apply publish_keeps | split
theorem ownTableSwitch_keeps {s t : State} {x0 x1 x2} (h : Keeps s t) : Keeps s (ownTableSwitch x0 x1 x2 t).2 := by
  unfold ownTableSwitch
  repeat' with_reducible first | assumption | apply cvAdd_keeps | apply switchTable_keeps | split
theorem ownSetSwitch_keeps {s t : State} {x0 x1} (h : Keeps s t) : Keeps s (ownSetSwitch x0 x1 t).2 := by
  unfold ownSetSwitch
  repeat' with_reducible first | assumption | apply applySetSwitch_keeps | apply cvAdd_keeps | simp only [Keeps.mk_iff] | split
theorem ownTallyAdd_keeps {s t : State} {x0 x1 x2} (h : Keeps s t) : Keeps s (ownTallyAdd x0 x1 x2 t).2 := by
  unfold ownTallyAdd
  repeat' with_reducible first | assumption | apply orElse_keeps | apply advance_keeps | split
theorem ownFence_keeps {s t : State} {x0 x1} (h : Keeps s t) : Keeps s (ownFence x0 x1 t).2 := by
  unfold ownFence
  assumption
theorem ownInvalidate_keeps {s t : State} {x0 x1} (h : Keeps s t) : Keeps s (ownInvalidate x0 x1 t).2 := by
  unfold ownInvalidate
  repeat' with_reducible first | assumption | apply orElse_keeps
theorem ownExtentClose_keeps {s t : State} {x0 x1 x2} (h : Keeps s t) : Keeps s (ownExtentClose x0 x1 x2 t).2 := by
  unfold ownExtentClose
  repeat' with_reducible first | assumption | apply orElse_keeps | refine closeExtent_keeps (p := (_, _)) ?_ (by assumption) | split
theorem ownCatalogue_keeps {s t : State} {x0 x1 x2} (h : Keeps s t) : Keeps s (ownCatalogue x0 x1 x2 t).2 := by
  unfold ownCatalogue
  repeat' with_reducible first | assumption | apply orElse_keeps | apply readEntry_keeps | apply writeEntry_keeps | simp only [Keeps.mk_iff] | split
theorem ownChecks_keeps {s t : State} {x0 x1 x2 x3 x4} (h : Keeps s t) : Keeps s (ownChecks x0 x1 x2 x3 x4 t).2 := by
  unfold ownChecks
  repeat' with_reducible first | assumption | apply ownPublish_keeps | apply ownTableSwitch_keeps | apply ownSetSwitch_keeps | apply ownTallyAdd_keeps | apply ownFence_keeps | apply ownInvalidate_keeps | apply ownExtentClose_keeps | apply ownCatalogue_keeps | split
/-- What a command's checks answer leaves the queue and canonical memories. -/
def Item.Fine (it : Item) : Prop := ∀ first done s t, Keeps s t → Keeps s (it.check first done t).2
theorem entryItem_fine (st ctx cls e) : (entryItem st ctx cls e).Fine := fun _ _ _ _ h => orElse_keeps h (ownChecks_keeps h)
theorem descItem_fine (st ctx cls prio w) : (descItem st ctx cls prio w).Fine := fun _ _ _ _ h => orElse_keeps h h
theorem askOf_fine {s a cls items} (e : askOf s a = .inl (cls, items)) : ∀ it ∈ items, it.Fine := by
  unfold askOf at e
  split at e
  · dsimp only at e
    split at e
    · cases e
    · split at e
      · cases e
        intro it k
        obtain ⟨w, _, rfl⟩ := List.mem_map.mp k
        exact descItem_fine _ _ _ _ _
      · cases e
  · dsimp only at e
    split at e
    · cases e
    · cases e
      intro it k
      obtain ⟨w, _, rfl⟩ := List.mem_map.mp k
      exact entryItem_fine _ _ _ _
theorem checkItems_keeps {s t : State} {items first done cmds u} (g : ∀ it ∈ items, it.Fine) (h : Keeps s t)
    (e : checkItems items first done t = .inl (cmds, u)) : Keeps s u := by
  induction items generalizing first done t with
  | nil => unfold checkItems at e; cases e; exact dropHolds_keeps h
  | cons it rest ih =>
    unfold checkItems at e
    split at e
    · cases e
    · next c v e1 =>
      refine ih (fun i k => g i (List.mem_cons_of_mem _ k)) ?_ e
      have k : Keeps s v := Keeps.of_pair e1 (g it (List.mem_cons_self ..) _ _ _ _ h)
      refine claimFrames_keeps (Keeps.foldl (fun _ _ y => pin_keeps y) _ ?_)
      split
      · exact setColl_keeps k
      · exact k
theorem checkItems_item {s items first done x d it} (e : checkItems items first done s = .inr (x, d, it)) : it ∈ items := by
  induction items generalizing first done s with
  | nil => unfold checkItems at e; cases e
  | cons i rest ih =>
    unfold checkItems at e
    split at e
    · cases e; exact List.mem_cons_self ..
    · exact List.mem_cons_of_mem _ (ih e)
theorem screen_keeps {s t : State} {a cls cmds u} (h : Keeps s t) (e : screen a t = .inl (cls, cmds, u)) : Keeps s u := by
  unfold screen at e
  split at e
  · cases e
  · next e1 =>
    split at e
    · cases e
    · next e2 =>
      split at e
      · cases e
      · cases e; exact checkItems_keeps (askOf_fine e1) h e2
theorem screen_refused {s t : State} {a x d u} (h : Keeps s t) (e : screen a t = .inr (x, d, u)) : Keeps s u := by
  unfold screen at e
  split at e
  · cases e; exact h
  · next e1 =>
    split at e
    · next e2 =>
      cases e
      split
      · have k := askOf_fine e1 _ (checkItems_item e2) true [] s t h
        split
        · next e3 => exact Keeps.of_pair e3 k
        · exact h
      · exact h
    · split at e
      · cases e; exact h
      · cases e
theorem placeWork_keeps {s t : State} {x0 x1 x2 x3 x4 x5} {p} (h : Keeps s t) (e : placeWork x0 x1 x2 x3 x4 x5 t = some p) : Keeps s p.1 := by
  unfold placeWork at e
  revert e
  repeat' with_reducible first | assumption | refine bookWritebacks_keeps (p := (_, _)) ?_ (by assumption) | apply addEnergy_keeps | apply bookN_keeps | (refine fun e => placeGather_keeps ?_ e) | (refine fun e => placeSearch_keeps ?_ e) | (refine fun e => placeSide_keeps ?_ e) | (refine fun e => placeSegment_keeps ?_ e) | (refine fun e => placeXfer_keeps ?_ e) | (refine Keeps.foldl (fun _ _ _ => ?_) _ ?_ <;> try dsimp only) | simp only [Keeps.mk_iff] | split | (intro e; cases e)
theorem freeVictims_keeps {s t old : State} {r} (h : Keeps s t) : Keeps s (freeVictims old r t) := by
  unfold freeVictims
  repeat' with_reducible first | assumption | apply setFrame_keeps | (refine Keeps.foldl (fun _ _ _ => ?_) _ ?_ <;> try dsimp only) | refine Keeps.ite (fun _ => ?_) (fun _ => ?_) | split
theorem bookTracked_keeps {s t : State} {x0 x1 x2 x3} {p} (h : Keeps s t) (e : bookTracked x0 x1 x2 x3 t = some p) : Keeps s p := by
  rw [bookTracked] at e
  refine Keeps.foldl_opt1 (s := s) ?_ _ ?_ p e
  · intro x a k q e3
    obtain ⟨z, e4, e5⟩ := Option.bind_eq_some_iff.mp e3
    dsimp only at e5
    split at e5
    · cases e5; exact Keeps.foldl (fun _ _ g => bookN_keeps g) _ (k _ e4)
    · cases e5
  · intro q e3; cases e3; exact h
theorem placeTracked_keeps {s t : State} {x0 x1 x2 x3 x4 x5 x6} {p} (h : Keeps s t) (e : placeTracked x0 x1 x2 x3 x4 x5 x6 t = some p) : Keeps s p.1 := by
  induction x5 generalizing x0 x1 x2 x3 x4 x6 t p with
  | zero =>
    unfold placeTracked at e
    revert e
    repeat' with_reducible first | (intro e; cases e)
  | succ _ ih =>
    unfold placeTracked at e
    revert e
    repeat' with_reducible first | assumption | refine placeWork_keeps (p := (_, _, _)) ?_ (by assumption) | refine bookTracked_keeps (p := _) ?_ (by assumption) | (refine fun e => ih ?_ e) | simp only [Keeps.mk_iff] | split | (intro e; cases e)
theorem placeCmds_keeps {s t : State} {x0 x1 x2 x3 x4 x5} {p} (h : Keeps s t) (e : placeCmds x0 x1 x2 x3 x4 x5 t = some p) : Keeps s p.1 := by
  induction x4 generalizing x0 x1 x2 x3 x5 t p with
  | nil =>
    unfold placeCmds at e
    revert e
    repeat' with_reducible first | assumption | (intro e; cases e)
  | cons _ _ ih =>
    unfold placeCmds at e
    revert e
    repeat' with_reducible first | assumption | apply updReq_keeps | refine placeTracked_keeps (p := (_, _, _)) ?_ (by assumption) | apply claimFrames_keeps | apply freeVictims_keeps | (refine fun e => ih ?_ e) | simp only [Keeps.mk_iff] | split | (intro e; cases e)
theorem attempt_keeps {s t : State} {x0 x1 x2} {p} (h : Keeps s t) (e : attempt x0 x1 x2 t = some p) : Keeps s p.1 := by
  unfold attempt at e
  revert e
  repeat' with_reducible first | assumption | refine placeCmds_keeps (p := (_, _)) ?_ (by assumption) | apply updReq_keeps | (refine fun e => placeRecord_keeps ?_ e) | simp only [Keeps.mk_iff] | split | (intro e; cases e) | refine Keeps.of_some (by assumption) (fun _ _ => ?_)
theorem emptyShares_keeps {s t : State} {x0} (h : Keeps s t) : Keeps s (emptyShares x0 t) := by
  unfold emptyShares
  repeat' with_reducible first | assumption | simp only [Keeps.mk_iff]
theorem promised_keeps {s t : State} {x0 x1} (h : Keeps s t) : Keeps s (promised x0 x1 t) := by
  unfold promised
  repeat' with_reducible first | assumption | simp only [Keeps.mk_iff]
theorem book_keeps {s t : State} {x dt p} (h : Keeps s t) (e : book x dt t = .inr p) : Keeps s p.1 := by
  unfold book at e
  dsimp only at e
  split at e
  · cases e
  · next e1 =>
    split at e
    · cases e
    · split at e
      · cases e
      · cases e; exact addHolds_keeps (draw_keeps (attempt_keeps h e1))
theorem writeTicket_keeps {s t : State} {x0 x1 x2} (h : Keeps s t) : Keeps s (writeTicket x0 x1 x2 t) := by
  unfold writeTicket
  repeat' with_reducible first | assumption | apply deviceWrite_keeps | refine Keeps.ite (fun _ => ?_) (fun _ => ?_) | split
theorem conclude_keeps {s t v : State} {a cls cmds} (h : Keeps s t) (g : Keeps s v) : Keeps s (conclude a cls cmds t v) := by
  unfold conclude
  dsimp only
  split
  · exact refuse_keeps g
  · next e =>
    have k := book_keeps h e
    split
    · refine channelState_keeps (Keeps.foldl (fun _ _ y => writeTicket_keeps (send_keeps y)) _ (cvAdd_keeps ?_))
      exact Keeps.mk_iff.mpr k
    · refine Keeps.foldl (fun _ _ y => writeTicket_keeps (send_keeps y)) _ (cvAdd_keeps ?_)
      exact Keeps.mk_iff.mpr k
theorem postQueries_keeps {s t : State} {x0 x1 x2} (h : Keeps s t) : Keeps s (postQueries x0 x1 x2 t) := by
  unfold postQueries
  repeat' with_reducible first | assumption | apply cvAdd_keeps | apply send_keeps | (refine Keeps.foldl (fun _ _ _ => ?_) _ ?_ <;> try dsimp only) | refine Keeps.ite (fun _ => ?_) (fun _ => ?_) | simp only [Keeps.mk_iff] | split
theorem gateDecide_keeps {s t : State} {x0} (h : Keeps s t) : Keeps s (gateDecide x0 t) := by
  unfold gateDecide
  split
  · next e => exact refuse_keeps (screen_refused h e)
  · next e =>
    split
    · exact postQueries_keeps h
    · exact conclude_keeps (screen_keeps h e) h
theorem gateRow_keeps {s t : State} {x0 x1} (h : Keeps s t) : Keeps s (gateRow x0 x1 t) := by
  unfold gateRow
  repeat' with_reducible first | assumption | apply gateDecide_keeps | refine Keeps.ite (fun _ => ?_) (fun _ => ?_) | split
theorem haltCtx_keeps {s t : State} {x0 x1} (h : Keeps s t) : Keeps s (haltCtx x0 x1 t) := by
  unfold haltCtx
  repeat' with_reducible first | assumption | apply setCtx_keeps | apply detectRec_keeps
theorem readEntryOnce_keeps {s t : State} {x0 x1} (h : Keeps s t) : Keeps s (readEntryOnce x0 x1 t).2 := by
  unfold readEntryOnce
  repeat' with_reducible first | assumption | apply haltCtx_keeps | apply inject_keeps | apply errRec_keeps | apply setCtx_keeps | apply detect_keeps | refine Keeps.ite (fun _ => ?_) (fun _ => ?_) | simp only [Keeps.mk_iff] | split
theorem readAll_keeps {s t : State} {x0 x1} (h : Keeps s t) : Keeps s (readAll x0 x1 t).2 := by
  induction x1 generalizing x0 t with
  | nil =>
    unfold readAll
    assumption
  | cons _ _ ih =>
    unfold readAll
    repeat' with_reducible first | assumption | refine Keeps.of_pair (by assumption) (readEntryOnce_keeps ?_) | apply ih | split
theorem entryFetch_keeps {s t : State} {x0} (h : Keeps s t) : Keeps s (entryFetch x0 t) := by
  unfold entryFetch
  repeat' with_reducible first | assumption | refine Keeps.of_pair (by assumption) (readAll_keeps ?_) | apply cvAdd_keeps | apply setCtx_keeps | apply arrive_keeps | apply refuse_keeps | refine Keeps.ite (fun _ => ?_) (fun _ => ?_) | simp only [Keeps.mk_iff] | split
theorem queueFetch_keeps {s t : State} {x0} (h : Keeps s t) : Keeps s (queueFetch x0 t) := by
  unfold queueFetch
  repeat' with_reducible first | assumption | apply haltCtx_keeps | refine Keeps.ite (fun _ => ?_) (fun _ => ?_)

end Sys2Proof.Machine
end

