-- ==== Sys2Proof/Laws/KeepsParts.lean ====
section
/-! SUPPORT. The operations of Machine/Parts.lean leave the queue as it is and keep canonical memories canonical. -/

namespace Sys2Proof.Machine
open Sys2Proof Sys2Proof.Safety

theorem writeBuffer_keeps {s t : State} {x0 x1 x2 x3 x4 x5} (h : Keeps s t) : Keeps s (writeBuffer x0 x1 x2 x3 x4 x5 t) := by
  unfold writeBuffer
  repeat' with_reducible first | assumption | refine Keeps.of_pair (by assumption) (servedRange_keeps ?_) | apply endCmd_keeps | (refine owned_keeps ?_ <;> try dsimp only) | apply writePieces_keeps | apply act_keeps | split
theorem startWork_keeps {s t : State} {x0 x1 x2} (h : Keeps s t) : Keeps s (startWork x0 x1 x2 t) := by
  unfold startWork
  repeat' with_reducible first | assumption | apply startGather_keeps | apply startSearch_keeps | apply takeFrames_keeps | apply startXfer_keeps | apply endCmd_keeps | apply writeBuffer_keeps | simp only [Keeps.mk_iff] | split
theorem markStarted_keeps {s t : State} {x0 x1} (h : Keeps s t) : Keeps s (markStarted x0 x1 t) := by
  unfold markStarted
  repeat' with_reducible first | assumption | apply updCmd_keeps | apply channelState_keeps | simp only [Keeps.mk_iff] | split
theorem partStart_keeps {s t : State} {x0 x1} (h : Keeps s t) : Keeps s (partStart x0 x1 t) := by
  unfold partStart
  repeat' with_reducible first | assumption | apply markStarted_keeps | apply startWork_keeps | apply endCmd_keeps | refine Keeps.ite (fun _ => ?_) (fun _ => ?_) | simp only [Keeps.mk_iff] | split
theorem setSwitchWindow_keeps {s t : State} {x0} (h : Keeps s t) : Keeps s (setSwitchWindow x0 t) := by
  unfold setSwitchWindow
  repeat' with_reducible first | assumption | apply markStarted_keeps | apply markSet_keeps | apply endCmd_keeps | (refine Keeps.foldl (fun _ _ _ => ?_) _ ?_ <;> try dsimp only) | refine Keeps.ite (fun _ => ?_) (fun _ => ?_) | simp only [Keeps.mk_iff] | split
theorem deferredWork_keeps {s t : State} {x0 x1 x2} (h : Keeps s t) : Keeps s (deferredWork x0 x1 x2 t) := by
  unfold deferredWork
  repeat' with_reducible first | assumption | apply endCmd_keeps | apply publish_keeps | apply cvAdd_keeps | apply switchTable_keeps | apply advance_keeps | refine closeExtent_keeps (p := (_, _)) ?_ (by assumption) | simp only [Keeps.mk_iff] | split
theorem deferredCheck_keeps {s t : State} {x0 x1} (h : Keeps s t) : Keeps s (deferredCheck x0 x1 t) := by
  unfold deferredCheck
  repeat' with_reducible first | assumption | apply markStarted_keeps | apply deferredWork_keeps | apply endCmd_keeps | refine Keeps.ite (fun _ => ?_) (fun _ => ?_) | simp only [Keeps.mk_iff] | split
theorem paceWork_keeps {s t : State} {x0 x1 x2} (h : Keeps s t) : Keeps s (paceWork x0 x1 x2 t) := by
  unfold paceWork
  repeat' with_reducible first | assumption | apply paceGather_keeps | apply paceSearch_keeps | apply paceSide_keeps | apply paceXfer_keeps | refine Keeps.ite (fun _ => ?_) (fun _ => ?_) | split
theorem paceCmd_keeps {s t : State} {x0 x1} (h : Keeps s t) : Keeps s (paceCmd x0 x1 t) := by
  unfold paceCmd
  repeat' with_reducible first | assumption | (refine owned_keeps ?_ <;> try dsimp only) | apply paceWork_keeps | apply countBytes_keeps | apply updCmd_keeps | refine Keeps.ite (fun _ => ?_) (fun _ => ?_) | simp only [Keeps.mk_iff] | split
theorem paceAll_keeps {s t : State} (h : Keeps s t) : Keeps s (paceAll t) := by
  unfold paceAll
  repeat' with_reducible first | assumption | apply paceCmd_keeps | (refine Keeps.foldl (fun _ _ _ => ?_) _ ?_ <;> try dsimp only) | refine Keeps.ite (fun _ => ?_) (fun _ => ?_) | simp only [Keeps.mk_iff]
theorem settleReq_keeps {s t : State} {x0} (h : Keeps s t) : Keeps s (settleReq x0 t) := by
  unfold settleReq
  repeat' with_reducible first | assumption | apply endCmd_keeps | (refine Keeps.foldl (fun _ _ _ => ?_) _ ?_ <;> try dsimp only) | refine Keeps.ite (fun _ => ?_) (fun _ => ?_) | simp only [Keeps.mk_iff] | split
theorem finishXfer_keeps {s t : State} {x0 x1 x2} (h : Keeps s t) : Keeps s (finishXfer x0 x1 x2 t) := by
  unfold finishXfer
  repeat' with_reducible first | assumption | apply advance_keeps | apply cvAdd_keeps | apply endCmd_keeps | refine Keeps.ite (fun _ => ?_) (fun _ => ?_) | simp only [Keeps.mk_iff] | split
theorem partComplete_keeps {s t : State} {x0 x1 x2} (h : Keeps s t) : Keeps s (partComplete x0 x1 x2 t) := by
  unfold partComplete
  repeat' with_reducible first | assumption | apply finishXfer_keeps | apply updCmd_keeps | refine Keeps.of_pair (by assumption) (hbmRange_keeps ?_) | apply endXfer_keeps | apply endCmd_keeps | refine Keeps.ite (fun _ => ?_) (fun _ => ?_) | simp only [Keeps.mk_iff] | split
theorem endAt_keeps {s t : State} {x0 x1 x2 x3 x4 x5} (h : Keeps s t) : Keeps s (endAt x0 x1 x2 x3 x4 x5 t) := by
  unfold endAt
  repeat' with_reducible first | assumption | apply endXfer_keeps | apply endCmd_keeps | refine Keeps.ite (fun _ => ?_) (fun _ => ?_) | split
theorem partFault_keeps {s t : State} {x0 x1 x2 x3} (h : Keeps s t) : Keeps s (partFault x0 x1 x2 x3 t) := by
  unfold partFault
  repeat' with_reducible first | assumption | apply detectRec_keeps | apply cvAdd_keeps | apply hbmUe_keeps | apply endAt_keeps | apply hbmCe_keeps | apply pump_keeps | apply sectorFault_keeps | apply detect_keeps | apply xlateFault_keeps | apply linkFailed_keeps | apply endCluster_keeps | refine Keeps.ite (fun _ => ?_) (fun _ => ?_) | simp only [Keeps.mk_iff] | split
theorem calOverrun_keeps {s t : State} {x0 x1} (h : Keeps s t) : Keeps s (calOverrun x0 x1 t) := by
  unfold calOverrun
  repeat' with_reducible first | assumption | apply overrun_keeps | refine Keeps.of_pair (by assumption) (inject_keeps ?_) | apply detect_keeps | refine Keeps.ite (fun _ => ?_) (fun _ => ?_) | split
theorem refundLater_keeps {s t : State} {x0} (h : Keeps s t) : Keeps s (refundLater x0 t) := by
  unfold refundLater
  repeat' with_reducible first | assumption | apply refund_keeps | simp only [Keeps.mk_iff]
theorem leaveNumber_keeps {s t : State} {x0} (h : Keeps s t) : Keeps s (leaveNumber x0 t) := by
  unfold leaveNumber
  repeat' with_reducible first | assumption | apply voidSeq_keeps | apply setColl_keeps | refine Keeps.ite (fun _ => ?_) (fun _ => ?_) | simp only [Keeps.mk_iff] | split
theorem releaseReq_keeps {s t : State} {x0} (h : Keeps s t) : Keeps s (releaseReq x0 t) := by
  unfold releaseReq
  repeat' with_reducible first | assumption | apply leaveNumber_keeps | apply unpin_keeps | apply drainDown_keeps | apply releaseRows_keeps | apply dropWalks_keeps | (refine Keeps.foldl (fun _ _ _ => ?_) _ ?_ <;> try dsimp only) | simp only [Keeps.mk_iff]
theorem tellOrigin_keeps {s t : State} {x0} (h : Keeps s t) : Keeps s (tellOrigin x0 t) := by
  unfold tellOrigin
  repeat' with_reducible first | assumption | apply cvAdd_keeps | apply send_keeps | refine Keeps.ite (fun _ => ?_) (fun _ => ?_) | simp only [Keeps.mk_iff] | split
theorem completionRecord_keeps {s t : State} {x0} (h : Keeps s t) : Keeps s (completionRecord x0 t) := by
  unfold completionRecord
  repeat' with_reducible first | assumption | apply settleReq_keeps | apply countBytes_keeps | apply tellOrigin_keeps | apply releaseReq_keeps | apply cvAdd_keeps | apply refundLater_keeps | apply writeRecord_keeps | apply channelDone_keeps | (refine Keeps.foldl (fun _ _ _ => ?_) _ ?_ <;> try dsimp only) | refine Keeps.ite (fun _ => ?_) (fun _ => ?_) | simp only [Keeps.mk_iff] | split

end Sys2Proof.Machine
end

