-- ==== Sys2Proof/Laws/KeepsJoint.lean ====
section
/-! SUPPORT. The operations of Machine/Joint.lean leave the queue as it is and keep canonical memories canonical. -/

namespace Sys2Proof.Machine
open Sys2Proof Sys2Proof.Safety

theorem replyTo_keeps {s t : State} {x0 x1 x2 x3} (h : Keeps s t) : Keeps s (replyTo x0 x1 x2 x3 t) := by
  unfold replyTo
  repeat' with_reducible first | assumption | apply send_keeps
theorem replyRefused_keeps {s t : State} {x0 x1 x2 x3 x4} (h : Keeps s t) : Keeps s (replyRefused x0 x1 x2 x3 x4 t) := by
  unfold replyRefused
  repeat' with_reducible first | assumption | apply noteDecision_keeps | apply replyTo_keeps
theorem placeHeld_keeps {s t : State} {w link early c data q least p} (hd : ∀ t' p, Keeps s t' → data t' = some p → Keeps s p.1) (h : Keeps s t)
    (e : placeHeld w link early c data q least t = some p) : Keeps s p.1 := by
  unfold placeHeld at e
  split at e
  · cases e
  · next u f l e1 =>
    have k := hd _ (u, f, l) (Keeps.mk_iff.mpr h) e1
    dsimp only at e
    split at e
    · cases e
    · next e2 =>
      cases e
      exact updReq_keeps (freeVictims_keeps (placeRecord_keeps (p := (_, _)) k e2))
theorem bookHeld_keeps {s t : State} {w link dt a c q least data p} (hd : ∀ v n t' p, Keeps s t' → data v n t' = some p → Keeps s p.1) (h : Keeps s t)
    (e : bookHeld w link dt a c q least data t = .inr p) : Keeps s p.1 := by
  unfold bookHeld at e
  dsimp only at e
  split at e
  · cases e
  · next e1 =>
    split at e
    · cases e
    · cases e
      exact addHolds_keeps (draw_keeps (placeHeld_keeps (hd _ _) h e1))
theorem placePeer_keeps {s t : State} {x0 x1 x2} {p} (h : Keeps s t) (e : placePeer x0 x1 x2 t = some p) : Keeps s p.1 := by
  unfold placePeer at e
  dsimp only at e
  split at e
  · exact placeXfer_keeps h e
  · split at e
    · cases e
    · next e1 =>
      have k := placeWithFrames_keeps (p := (_, _, _)) (fun g y => runPhase_keeps (preemptFor_keeps g) y) h e1
      split at e
      · cases e; exact k
      · obtain ⟨u, e2, e3⟩ := Option.map_eq_some_iff.mp e
        cases e3
        exact bookTracked_keeps k e2
theorem holdPart_keeps {s t : State} {x0 x1 x2 x3} (h : Keeps s t) : Keeps s (holdPart x0 x1 x2 x3 t) := by
  unfold holdPart
  repeat' with_reducible first | assumption | apply send_keeps | apply noteDecision_keeps | simp only [Keeps.mk_iff]
theorem peerQuery_keeps {s t : State} {x0 x1} (h : Keeps s t) : Keeps s (peerQuery x0 x1 t) := by
  unfold peerQuery
  dsimp only
  split
  · exact replyRefused_keeps h
  · split
    · exact replyRefused_keeps h
    · next e => exact holdPart_keeps (bookHeld_keeps (fun _ _ _ _ g y => placePeer_keeps g y) h e)
theorem relayQuery_keeps {s t : State} {x0 x1} (h : Keeps s t) : Keeps s (relayQuery x0 x1 t) := by
  unfold relayQuery
  repeat' with_reducible first | assumption | apply replyRefused_keeps | apply send_keeps | refine Keeps.ite (fun _ => ?_) (fun _ => ?_) | simp only [Keeps.mk_iff] | split
theorem bookingQuery_keeps {s t : State} {x0 x1} (h : Keeps s t) : Keeps s (bookingQuery x0 x1 t) := by
  unfold bookingQuery
  repeat' with_reducible first | assumption | apply peerQuery_keeps | apply relayQuery_keeps | refine Keeps.ite (fun _ => ?_) (fun _ => ?_)
theorem dropJoints_keeps {s t : State} {x0} (h : Keeps s t) : Keeps s (dropJoints x0 t) := by
  unfold dropJoints
  repeat' with_reducible first | assumption | simp only [Keeps.mk_iff]
theorem setJoint_keeps {s t : State} {x0 x1 x2} (h : Keeps s t) : Keeps s (setJoint x0 x1 x2 t) := by
  unfold setJoint
  repeat' with_reducible first | assumption | simp only [Keeps.mk_iff]
theorem relayReply_keeps {s t : State} {x0 x1} (h : Keeps s t) : Keeps s (relayReply x0 x1 t) := by
  unfold relayReply
  dsimp only
  split
  · exact replyRefused_keeps (dropJoints_keeps h)
  · next e =>
    have k := bookHeld_keeps (fun _ _ _ _ g y => runPhase_keeps g y) h e
    exact send_keeps (noteDecision_keeps (Keeps.mk_iff.mpr (setJoint_keeps (setJoint_keeps k))))
theorem replied_keeps {s t : State} {x0} (h : Keeps s t) : Keeps s (replied x0 t) := by
  unfold replied
  split
  · split
    · next e => exact refuse_keeps (screen_refused h e)
    · next e => exact conclude_keeps (screen_keeps h e) h
  · exact h
theorem bookingReply_keeps {s t : State} {x0 x1 x2 x3} (h : Keeps s t) : Keeps s (bookingReply x0 x1 x2 x3 t) := by
  unfold bookingReply
  repeat' with_reducible first | assumption | apply setJoint_keeps | apply relayReply_keeps | apply replyTo_keeps | apply dropJoints_keeps | apply replied_keeps | apply refuse_keeps | refine Keeps.ite (fun _ => ?_) (fun _ => ?_) | simp only [Keeps.mk_iff] | split
theorem replyTimeout_keeps {s t : State} {x0} (h : Keeps s t) : Keeps s (replyTimeout x0 t) := by
  unfold replyTimeout
  repeat' with_reducible first | assumption | apply replyTo_keeps | apply dropJoints_keeps | apply refuse_keeps | refine Keeps.ite (fun _ => ?_) (fun _ => ?_) | split
theorem bookingConfirmation_keeps {s t : State} {x0 x1} (h : Keeps s t) : Keeps s (bookingConfirmation x0 x1 t) := by
  unfold bookingConfirmation
  repeat' with_reducible first | assumption | apply setJoint_keeps | apply send_keeps | refine Keeps.ite (fun _ => ?_) (fun _ => ?_) | simp only [Keeps.mk_iff] | split
theorem withdraw_keeps {s t : State} {x0} (h : Keeps s t) : Keeps s (withdraw x0 t) := by
  unfold withdraw
  repeat' with_reducible first | assumption | apply setFrame_keeps | apply releaseReq_keeps | apply refundBookings_keeps | (refine Keeps.foldl (fun _ _ _ => ?_) _ ?_ <;> try dsimp only) | simp only [Keeps.mk_iff] | split
theorem confirmHoldExpiry_keeps {s t : State} {x0 x1} (h : Keeps s t) : Keeps s (confirmHoldExpiry x0 x1 t) := by
  unfold confirmHoldExpiry
  repeat' with_reducible first | assumption | apply dropJoints_keeps | apply withdraw_keeps | refine Keeps.ite (fun _ => ?_) (fun _ => ?_) | split
theorem endFromPeer_keeps {s t : State} {x0 x1 x2 x3 x4 x5} (h : Keeps s t) : Keeps s (endFromPeer x0 x1 x2 x3 x4 x5 t) := by
  unfold endFromPeer
  repeat' with_reducible first | assumption | apply updCmd_keeps | apply finishXfer_keeps | apply endXfer_keeps | refine Keeps.ite (fun _ => ?_) (fun _ => ?_)
theorem partCompletionMessage_keeps {s t : State} {x0 x1 x2 x3} (h : Keeps s t) : Keeps s (partCompletionMessage x0 x1 x2 x3 t) := by
  unfold partCompletionMessage
  repeat' with_reducible first | assumption | apply setJoint_keeps | apply endFromPeer_keeps | apply finishXfer_keeps | apply endPart_keeps | refine Keeps.ite (fun _ => ?_) (fun _ => ?_) | simp only [Keeps.mk_iff] | split
theorem jointBoundExpiry_keeps {s t : State} {x0} (h : Keeps s t) : Keeps s (jointBoundExpiry x0 t) := by
  unfold jointBoundExpiry
  repeat' with_reducible first | assumption | apply setJoint_keeps | apply endCmd_keeps | apply updCmd_keeps | refine Keeps.ite (fun _ => ?_) (fun _ => ?_) | simp only [Keeps.mk_iff] | split

end Sys2Proof.Machine
end

