-- ==== Sys2Proof/Laws/KeepsDeadlines.lean ====
section
/-! SUPPORT. The operations of Machine/Deadlines.lean leave the queue as it is and keep canonical memories canonical. -/

namespace Sys2Proof.Machine
open Sys2Proof Sys2Proof.Safety

theorem finishCmd_keeps {s t : State} {x0 x1} (h : Keeps s t) : Keeps s (finishCmd x0 x1 t) := by
  unfold finishCmd
  repeat' with_reducible first | assumption | apply deferredCheck_keeps | apply partComplete_keeps | apply overrun_keeps | apply endCmd_keeps | apply updCmd_keeps | apply setJoint_keeps | (refine Keeps.foldl (fun _ _ _ => ?_) _ ?_ <;> try dsimp only) | refine Keeps.ite (fun _ => ?_) (fun _ => ?_) | simp only [Keeps.mk_iff] | split
theorem recordAtBound_keeps {s t : State} {x0} (h : Keeps s t) : Keeps s (recordAtBound x0 t) := by
  unfold recordAtBound
  repeat' with_reducible first | assumption | apply updReq_keeps | apply settleReq_keeps | apply completionRecord_keeps | apply finishCmd_keeps | (refine Keeps.foldl (fun _ _ _ => ?_) _ ?_ <;> try dsimp only) | refine Keeps.ite (fun _ => ?_) (fun _ => ?_)
theorem recordsDue_keeps {s t : State} (h : Keeps s t) : Keeps s (recordsDue t) := by
  unfold recordsDue
  repeat' with_reducible first | assumption | apply recordAtBound_keeps | (refine Keeps.foldl (fun _ _ _ => ?_) _ ?_ <;> try dsimp only)
theorem decisionsDue_keeps {s t : State} (h : Keeps s t) : Keeps s (decisionsDue t) := by
  unfold decisionsDue
  repeat' with_reducible first | assumption | apply replyTimeout_keeps | apply gateDecide_keeps | (refine Keeps.foldl (fun _ _ _ => ?_) _ ?_ <;> try dsimp only) | refine Keeps.ite (fun _ => ?_) (fun _ => ?_) | split
theorem dueNow_keeps {s t : State} (h : Keeps s t) : Keeps s (dueNow t) := by
  unfold dueNow
  repeat' with_reducible first | assumption | apply decisionsDue_keeps | apply recordsDue_keeps | refine Keeps.ite (fun _ => ?_) (fun _ => ?_)

end Sys2Proof.Machine
end

