-- ==== Sys2Proof/Laws/KeepsBoundary.lean ====
section
/-! SUPPORT. The operations of Machine/Boundary.lean leave the queue as it is and keep canonical memories canonical. -/

namespace Sys2Proof.Machine
open Sys2Proof Sys2Proof.Safety

theorem noteOverrun_keeps {s t : State} {x0 x1} (h : Keeps s t) : Keeps s (noteOverrun x0 x1 t) := by
  unfold noteOverrun
  repeat' with_reducible first | assumption | simp only [Keeps.mk_iff]
theorem chargeUj_keeps {s t : State} {x0 x1} (h : Keeps s t) : Keeps s (chargeUj x0 x1 t) := by
  unfold chargeUj
  repeat' with_reducible first | assumption | apply cvAdd_keeps | simp only [Keeps.mk_iff]
theorem overrunInjected_keeps {s t : State} {x0 x1 x2} (h : Keeps s t) : Keeps s (overrunInjected x0 x1 x2 t) := by
  unfold overrunInjected
  repeat' with_reducible first | assumption | apply inject_keeps | apply errRec_keeps | apply noteOverrun_keeps | apply detect_keeps | refine Keeps.ite (fun _ => ?_) (fun _ => ?_) | simp only [Keeps.mk_iff] | split
theorem overrunOf_keeps {s t : State} {x0 x1 x2} (h : Keeps s t) : Keeps s (overrunOf x0 x1 x2 t) := by
  unfold overrunOf
  repeat' with_reducible first | assumption | apply detectRec_keeps | apply noteOverrun_keeps
theorem settleChit_keeps {s t : State} {x0 x1 x2} (h : Keeps s t) : Keeps s (settleChit x0 x1 x2 t) := by
  unfold settleChit
  repeat' with_reducible first | assumption | apply overrunInjected_keeps | apply chargeUj_keeps | apply overrunOf_keeps | apply refund_keeps | refine Keeps.ite (fun _ => ?_) (fun _ => ?_)
theorem settleFloat_keeps {s t : State} {x0 x1 x2} (h : Keeps s t) : Keeps s (settleFloat x0 x1 x2 t) := by
  unfold settleFloat
  repeat' with_reducible first | assumption | apply chargeUj_keeps | apply overrunOf_keeps | refine Keeps.ite (fun _ => ?_) (fun _ => ?_)
theorem sweepActs_keeps {s t : State} {x0} (h : Keeps s t) : Keeps s (sweepActs x0 t) := by
  unfold sweepActs
  repeat' with_reducible first | assumption | simp only [Keeps.mk_iff]
theorem settleRound_keeps {s t : State} {x0} (h : Keeps s t) : Keeps s (settleRound x0 t) := by
  unfold settleRound
  repeat' with_reducible first | assumption | apply sweepActs_keeps | apply settleFloat_keeps | apply settleChit_keeps | (refine Keeps.foldl (fun _ _ _ => ?_) _ ?_ <;> try dsimp only)
theorem settleBalances_keeps {s t : State} (h : Keeps s t) : Keeps s (settleBalances t) := by
  unfold settleBalances
  repeat' with_reducible first | assumption | apply cvAdd_keeps | (refine Keeps.foldl (fun _ _ _ => ?_) _ ?_ <;> try dsimp only) | simp only [Keeps.mk_iff]
theorem meterStall_keeps {s t : State} {x0 x1} (h : Keeps s t) : Keeps s (meterStall x0 x1 t) := by
  unfold meterStall
  repeat' with_reducible first | assumption | apply cvAdd_keeps
theorem beginWb_keeps {s t : State} {x0 x1} (h : Keeps s t) : Keeps s (beginWb x0 x1 t) := by
  unfold beginWb
  repeat' with_reducible first | assumption | apply fillFrame_keeps | apply setFrame_keeps | refine Keeps.ite (fun _ => ?_) (fun _ => ?_) | simp only [Keeps.mk_iff] | split
theorem beginPages_keeps {s t : State} {x0} (h : Keeps s t) : Keeps s (beginPages x0 t) := by
  unfold beginPages
  repeat' with_reducible first | assumption | apply beginWb_keeps | (refine Keeps.foldl (fun _ _ _ => ?_) _ ?_ <;> try dsimp only) | refine Keeps.ite (fun _ => ?_) (fun _ => ?_)
theorem backgroundWbs_keeps {s t : State} {x0} (h : Keeps s t) : Keeps s (backgroundWbs x0 t) := by
  unfold backgroundWbs
  repeat' with_reducible first | assumption | apply cvAdd_keeps | refine bookWriteback_keeps (p := (_, _)) ?_ (by assumption) | apply draw_keeps | (refine Keeps.foldl (fun _ _ _ => ?_) _ ?_ <;> try dsimp only) | refine Keeps.ite (fun _ => ?_) (fun _ => ?_) | split
theorem swapBanks_keeps {s t : State} (h : Keeps s t) : Keeps s (swapBanks t) := by
  unfold swapBanks
  repeat' with_reducible first | assumption | apply cvAdd_keeps | apply endCmd_keeps | (refine Keeps.foldl (fun _ _ _ => ?_) _ ?_ <;> try dsimp only) | simp only [Keeps.mk_iff]
theorem linkUses_keeps {s t : State} (h : Keeps s t) : Keeps s (linkUses t) := by
  unfold linkUses
  repeat' with_reducible first | assumption | apply linkUseTick_keeps | (refine Keeps.foldl (fun _ _ _ => ?_) _ ?_ <;> try dsimp only) | refine Keeps.ite (fun _ => ?_) (fun _ => ?_)
theorem tickOnce_keeps {s t : State} (h : Keeps s t) : Keeps s (tickOnce t) := by
  unfold tickOnce
  repeat' with_reducible first | assumption | apply linkUses_keeps | apply noteChains_keeps | apply noteSnps_keeps | apply takeQueues_keeps | apply dueNow_keeps | apply bootSteps_keeps | apply takeVoids_keeps | apply spanEnds_keeps | apply paceAll_keeps | apply deviceResetNow_keeps | refine Keeps.ite (fun _ => ?_) (fun _ => ?_) | simp only [Keeps.mk_iff] | split
theorem standingBoundary_keeps {s t : State} (h : Keeps s t) : Keeps s (standingBoundary t) := by
  unfold standingBoundary
  repeat' with_reducible first | assumption | apply errRec_keeps | (refine Keeps.foldl (fun _ _ _ => ?_) _ ?_ <;> try dsimp only) | simp only [Keeps.mk_iff]
theorem standingStart_keeps {s t : State} (h : Keeps s t) : Keeps s (standingStart t) := by
  unfold standingStart
  repeat' with_reducible first | assumption | simp only [Keeps.mk_iff]
theorem powerBanks_keeps {s t : State} {x0 x1} (h : Keeps s t) : Keeps s (powerBanks x0 x1 t) := by
  unfold powerBanks
  repeat' with_reducible first | assumption | apply zeroBank_keeps | apply cvSet_keeps | (refine Keeps.foldl (fun _ _ _ => ?_) _ ?_ <;> try dsimp only) | refine Keeps.ite (fun _ => ?_) (fun _ => ?_) | simp only [Keeps.mk_iff]
theorem classB_keeps {s t : State} (h : Keeps s t) : Keeps s (classB t) := by
  unfold classB
  repeat' with_reducible first | assumption | apply powerBanks_keeps | apply cvSet_keeps | (refine Keeps.foldl (fun _ _ _ => ?_) _ ?_ <;> try dsimp only) | refine Keeps.ite (fun _ => ?_) (fun _ => ?_) | simp only [Keeps.mk_iff] | split
theorem compInject_keeps {s t : State} {x0 x1 x2} (h : Keeps s t) : Keeps s (compInject x0 x1 x2 t) := by
  unfold compInject
  repeat' with_reducible first | assumption | refine Keeps.of_pair (by assumption) (inject_keeps ?_) | apply errRec_keeps | apply compMissed_keeps | apply detect_keeps | apply compFault_keeps | refine Keeps.ite (fun _ => ?_) (fun _ => ?_) | simp only [Keeps.mk_iff] | split
theorem checkIns_keeps {s t : State} (h : Keeps s t) : Keeps s (checkIns t) := by
  unfold checkIns
  repeat' with_reducible first | assumption | apply compInject_keeps | apply fresh_keeps | (refine Keeps.foldl (fun _ _ _ => ?_) _ ?_ <;> try dsimp only) | refine Keeps.ite (fun _ => ?_) (fun _ => ?_)
theorem boundaryWith_keeps {s t : State} {x0} (h : Keeps s t) : Keeps s (boundaryWith x0 t) := by
  unfold boundaryWith
  repeat' with_reducible first | assumption | apply meterStall_keeps | apply settleBalances_keeps | apply settleRound_keeps | apply placePitch_keeps | apply placeCounts_keeps | apply pruneBooks_keeps | apply swapBanks_keeps | apply standingStart_keeps | apply classB_keeps | apply standingBoundary_keeps | apply beginPages_keeps | apply logBoundary_keeps | apply backgroundWbs_keeps | apply closeAll_keeps | apply checkIns_keeps | apply limitBoundary_keeps | apply telemetry_keeps | (refine Keeps.foldl (fun _ _ _ => ?_) _ ?_ <;> try dsimp only) | refine Keeps.ite (fun _ => ?_) (fun _ => ?_) | simp only [Keeps.mk_iff]
theorem idleTick_keeps {s t : State} (h : Keeps s t) : Keeps s (idleTick t) := by
  unfold idleTick
  repeat' with_reducible first | assumption | apply tickOnce_keeps | apply boundaryWith_keeps | refine Keeps.ite (fun _ => ?_) (fun _ => ?_)
theorem toBoundary_keeps {s t : State} {x0} (h : Keeps s t) : Keeps s (toBoundary x0 t) := by
  induction x0 generalizing t with
  | zero =>
    unfold toBoundary
    assumption
  | succ _ ih =>
    unfold toBoundary
    repeat' with_reducible first | assumption | apply tickOnce_keeps | apply ih | refine Keeps.ite (fun _ => ?_) (fun _ => ?_)
theorem roundBoundary_keeps {s t : State} {x0} (h : Keeps s t) : Keeps s (roundBoundary x0 t) := by
  unfold roundBoundary
  repeat' with_reducible first | assumption | apply toBoundary_keeps | apply boundaryWith_keeps | refine Keeps.ite (fun _ => ?_) (fun _ => ?_)
theorem snapshotPeriod_keeps {s t : State} (h : Keeps s t) : Keeps s (snapshotPeriod t) := by
  unfold snapshotPeriod
  repeat' with_reducible first | assumption | (refine Keeps.foldl (fun _ _ _ => ?_) _ ?_ <;> try dsimp only) | refine Keeps.ite (fun _ => ?_) (fun _ => ?_) | simp only [Keeps.mk_iff]

end Sys2Proof.Machine
end

