-- ==== Sys2Proof/Laws/KeepsWrites.lean ====
section
/-! SUPPORT. The operations of Machine/Writes.lean leave the queue as it is and keep canonical memories canonical. -/

namespace Sys2Proof.Machine
open Sys2Proof Sys2Proof.Safety

theorem writeAs_keeps {s t : State} {x0 x1 x2 x3 x4 x5 x6} (h : Keeps s t) : Keeps s (writeAs x0 x1 x2 x3 x4 x5 x6 t) := by
  unfold writeAs
  repeat' with_reducible first | assumption | apply gateRow_keeps | apply answer_keeps | apply writeEntry_keeps | simp only [Keeps.mk_iff] | split
theorem catWriteAs_keeps {s t : State} {x0 x1 x2 x3 x4} (h : Keeps s t) : Keeps s (catWriteAs x0 x1 x2 x3 x4 t) := by
  unfold catWriteAs
  repeat' with_reducible first | assumption | apply answer_keeps | apply writeAs_keeps | refine Keeps.ite (fun _ => ?_) (fun _ => ?_)
theorem fwStageWrite_keeps {s t : State} {x0 x1 x2} (h : Keeps s t) : Keeps s (fwStageWrite x0 x1 x2 t) := by
  unfold fwStageWrite
  repeat' with_reducible first | assumption | apply writeAs_keeps

end Sys2Proof.Machine
end

