-- ==== Sys2Proof/Laws/KeepsArms.lean ====
section
/-! SUPPORT. Every command's meaning leaves the queue as it is and keeps canonical memories canonical. -/

set_option linter.unusedSimpArgs false
namespace Sys2Proof.Machine
open Sys2Proof Sys2Proof.Safety

theorem execPowerOnReset_keeps { s t} (h : execPowerOnReset  s = .next t) : Keeps s t := by
  unfold execPowerOnReset at h
  cases h
  have h := Keeps.refl s
  repeat' with_reducible first | assumption | apply powerOnReset_keeps
theorem execRstN_keeps {x0 s t} (h : execRstN x0 s = .next t) : Keeps s t := by
  unfold execRstN at h
  cases h
  have h := Keeps.refl s
  repeat' with_reducible first | assumption | apply rstN_keeps
theorem execDeviceReset_keeps {x0 x1 s t} (h : execDeviceReset x0 x1 s = .next t) : Keeps s t := by
  unfold execDeviceReset at h
  cases h
  have h := Keeps.refl s
  repeat' with_reducible first | assumption | apply catWriteAs_keeps
theorem execLinkReset_keeps {x0 s t} (h : execLinkReset x0 s = .next t) : Keeps s t := by
  unfold execLinkReset at h
  cases h
  have h := Keeps.refl s
  repeat' with_reducible first | assumption | apply linkReset_keeps
theorem execInternalResetEnd_keeps {x0 x1 s t} (h : execInternalResetEnd x0 x1 s = .next t) : Keeps s t := by
  unfold execInternalResetEnd at h
  cases h
  have h := Keeps.refl s
  repeat' with_reducible first | assumption | apply internalResetEnd_keeps
theorem execSecStart_keeps { s t} (h : execSecStart  s = .next t) : Keeps s t := by
  unfold execSecStart at h
  cases h
  have h := Keeps.refl s
  repeat' with_reducible first | assumption | apply secStart_keeps
theorem execHbmTrainingDone_keeps {x0 s t} (h : execHbmTrainingDone x0 s = .next t) : Keeps s t := by
  unfold execHbmTrainingDone at h
  cases h
  have h := Keeps.refl s
  repeat' with_reducible first | assumption | apply hbmTrainingDone_keeps
theorem execZeroFillDone_keeps { s t} (h : execZeroFillDone  s = .next t) : Keeps s t := by
  unfold execZeroFillDone at h
  cases h
  have h := Keeps.refl s
  repeat' with_reducible first | assumption | apply zeroFillDone_keeps
theorem execTargetResetTimeout_keeps {x0 x1 s t} (h : execTargetResetTimeout x0 x1 s = .next t) : Keeps s t := by
  unfold execTargetResetTimeout at h
  cases h
  have h := Keeps.refl s
  repeat' with_reducible first | assumption | apply targetTimeout_keeps
theorem execFlashDiscoveryDone_keeps {x0 s t} (h : execFlashDiscoveryDone x0 s = .next t) : Keeps s t := by
  unfold execFlashDiscoveryDone at h
  cases h
  have h := Keeps.refl s
  repeat' with_reducible first | assumption | apply discoveryDone_keeps
theorem execCheckpointLoaded_keeps {x0 s t} (h : execCheckpointLoaded x0 s = .next t) : Keeps s t := by
  unfold execCheckpointLoaded at h
  cases h
  have h := Keeps.refl s
  repeat' with_reducible first | assumption | apply checkpointLoaded_keeps
theorem execReplayDone_keeps {x0 s t} (h : execReplayDone x0 s = .next t) : Keeps s t := by
  unfold execReplayDone at h
  cases h
  have h := Keeps.refl s
  repeat' with_reducible first | assumption | apply replayDone_keeps
theorem execGateOpen_keeps { s t} (h : execGateOpen  s = .next t) : Keeps s t := by
  unfold execGateOpen at h
  cases h
  have h := Keeps.refl s
  repeat' with_reducible first | assumption | apply gateOpen_keeps
theorem execPortTrained_keeps {x0 x1 x2 s t} (h : execPortTrained x0 x1 x2 s = .next t) : Keeps s t := by
  unfold execPortTrained at h
  cases h
  have h := Keeps.refl s
  repeat' with_reducible first | assumption | apply portTrained_keeps
theorem execPortDown_keeps {x0 s t} (h : execPortDown x0 s = .next t) : Keeps s t := by
  unfold execPortDown at h
  cases h
  have h := Keeps.refl s
  repeat' with_reducible first | assumption | apply portDown_keeps
theorem execLinkUp_keeps {x0 x1 x2 x3 s t} (h : execLinkUp x0 x1 x2 x3 s = .next t) : Keeps s t := by
  unfold execLinkUp at h
  cases h
  have h := Keeps.refl s
  repeat' with_reducible first | assumption | apply linkTrained_keeps
theorem execTwineTrainTimeout_keeps {x0 s t} (h : execTwineTrainTimeout x0 s = .next t) : Keeps s t := by
  unfold execTwineTrainTimeout at h
  cases h
  have h := Keeps.refl s
  repeat' with_reducible first | assumption | apply trainTimeout_keeps
theorem execThermtrip_keeps { s t} (h : execThermtrip  s = .next t) : Keeps s t := by
  unfold execThermtrip at h
  cases h
  have h := Keeps.refl s
  repeat' with_reducible first | assumption | apply thermtrip_keeps
theorem execThrottleEntry_keeps {x0 s t} (h : execThrottleEntry x0 s = .next t) : Keeps s t := by
  unfold execThrottleEntry at h
  cases h
  have h := Keeps.refl s
  repeat' with_reducible first | assumption | apply throttleEntry_keeps
theorem execThrottleRelease_keeps {x0 s t} (h : execThrottleRelease x0 s = .next t) : Keeps s t := by
  unfold execThrottleRelease at h
  cases h
  have h := Keeps.refl s
  repeat' with_reducible first | assumption | apply throttleRelease_keeps
theorem execRoundBoundary_keeps {x0 s t} (h : execRoundBoundary x0 s = .next t) : Keeps s t := by
  unfold execRoundBoundary at h
  cases h
  have h := Keeps.refl s
  repeat' with_reducible first | assumption | apply roundBoundary_keeps
theorem execLoaderLoad_keeps { s t} (h : execLoaderLoad  s = .next t) : Keeps s t := by
  unfold execLoaderLoad at h
  cases h
  have h := Keeps.refl s
  repeat' with_reducible first | assumption | apply loadNext_keeps
theorem execSnapshotPeriod_keeps { s t} (h : execSnapshotPeriod  s = .next t) : Keeps s t := by
  unfold execSnapshotPeriod at h
  cases h
  have h := Keeps.refl s
  repeat' with_reducible first | assumption | apply snapshotPeriod_keeps
theorem execCalibrationPeriod_keeps {x0 s t} (h : execCalibrationPeriod x0 s = .next t) : Keeps s t := by
  unfold execCalibrationPeriod at h
  cases h
  have h := Keeps.refl s
  repeat' with_reducible first | assumption | apply calibrate_keeps
theorem execHeatPeriod_keeps {x0 s t} (h : execHeatPeriod x0 s = .next t) : Keeps s t := by
  unfold execHeatPeriod at h
  cases h
  have h := Keeps.refl s
  repeat' with_reducible first | assumption | apply heatPeriod_keeps
theorem execDecayPeriod_keeps {x0 s t} (h : execDecayPeriod x0 s = .next t) : Keeps s t := by
  unfold execDecayPeriod at h
  cases h
  have h := Keeps.refl s
  repeat' with_reducible first | assumption | apply decayPeriod_keeps
theorem execCheckpointPeriod_keeps {x0 s t} (h : execCheckpointPeriod x0 s = .next t) : Keeps s t := by
  unfold execCheckpointPeriod at h
  cases h
  have h := Keeps.refl s
  repeat' with_reducible first | assumption | apply checkpointPeriod_keeps
theorem execAssemblyExpiry_keeps {x0 s t} (h : execAssemblyExpiry x0 s = .next t) : Keeps s t := by
  unfold execAssemblyExpiry at h
  cases h
  have h := Keeps.refl s
  repeat' with_reducible first | assumption | apply assemblyExpiry_keeps
theorem execSnapshotRelease_keeps {x0 s t} (h : execSnapshotRelease x0 s = .next t) : Keeps s t := by
  unfold execSnapshotRelease at h
  cases h
  have h := Keeps.refl s
  repeat' with_reducible first | assumption | apply snapshotRelease_keeps
theorem execEntryFetch_keeps {x0 s t} (h : execEntryFetch x0 s = .next t) : Keeps s t := by
  unfold execEntryFetch at h
  cases h
  have h := Keeps.refl s
  repeat' with_reducible first | assumption | apply entryFetch_keeps
theorem execQueueFetch_keeps {x0 s t} (h : execQueueFetch x0 s = .next t) : Keeps s t := by
  unfold execQueueFetch at h
  cases h
  have h := Keeps.refl s
  repeat' with_reducible first | assumption | apply queueFetch_keeps
theorem execChain_keeps {x0 s t} (h : execChain x0 s = .next t) : Keeps s t := by
  unfold execChain at h
  cases h
  have h := Keeps.refl s
  repeat' with_reducible first | assumption | apply gateRow_keeps
theorem execGatherBags_keeps {x0 s t} (h : execGatherBags x0 s = .next t) : Keeps s t := by
  unfold execGatherBags at h
  cases h
  have h := Keeps.refl s
  repeat' with_reducible first | assumption | apply gateRow_keeps
theorem execSearch_keeps {x0 s t} (h : execSearch x0 s = .next t) : Keeps s t := by
  unfold execSearch at h
  cases h
  have h := Keeps.refl s
  repeat' with_reducible first | assumption | apply gateRow_keeps
theorem execInsertVectors_keeps {x0 s t} (h : execInsertVectors x0 s = .next t) : Keeps s t := by
  unfold execInsertVectors at h
  cases h
  have h := Keeps.refl s
  repeat' with_reducible first | assumption | apply gateRow_keeps
theorem execDeleteVectors_keeps {x0 s t} (h : execDeleteVectors x0 s = .next t) : Keeps s t := by
  unfold execDeleteVectors at h
  cases h
  have h := Keeps.refl s
  repeat' with_reducible first | assumption | apply gateRow_keeps
theorem execRunSegment_keeps {x0 s t} (h : execRunSegment x0 s = .next t) : Keeps s t := by
  unfold execRunSegment at h
  cases h
  have h := Keeps.refl s
  repeat' with_reducible first | assumption | apply gateRow_keeps
theorem execCopy_keeps {x0 s t} (h : execCopy x0 s = .next t) : Keeps s t := by
  unfold execCopy at h
  cases h
  have h := Keeps.refl s
  repeat' with_reducible first | assumption | apply gateRow_keeps
theorem execBarrow_keeps {x0 s t} (h : execBarrow x0 s = .next t) : Keeps s t := by
  unfold execBarrow at h
  cases h
  have h := Keeps.refl s
  repeat' with_reducible first | assumption | apply gateRow_keeps
theorem execPublish_keeps {x0 s t} (h : execPublish x0 s = .next t) : Keeps s t := by
  unfold execPublish at h
  cases h
  have h := Keeps.refl s
  repeat' with_reducible first | assumption | apply gateRow_keeps
theorem execTableSwitch_keeps {x0 s t} (h : execTableSwitch x0 s = .next t) : Keeps s t := by
  unfold execTableSwitch at h
  cases h
  have h := Keeps.refl s
  repeat' with_reducible first | assumption | apply gateRow_keeps
theorem execSetSwitch_keeps {x0 s t} (h : execSetSwitch x0 s = .next t) : Keeps s t := by
  unfold execSetSwitch at h
  cases h
  have h := Keeps.refl s
  repeat' with_reducible first | assumption | apply gateRow_keeps
theorem execTallyWait_keeps {x0 s t} (h : execTallyWait x0 s = .next t) : Keeps s t := by
  unfold execTallyWait at h
  cases h
  have h := Keeps.refl s
  repeat' with_reducible first | assumption | apply gateRow_keeps
theorem execTallyAdd_keeps {x0 s t} (h : execTallyAdd x0 s = .next t) : Keeps s t := by
  unfold execTallyAdd at h
  cases h
  have h := Keeps.refl s
  repeat' with_reducible first | assumption | apply gateRow_keeps
theorem execFence_keeps {x0 s t} (h : execFence x0 s = .next t) : Keeps s t := by
  unfold execFence at h
  cases h
  have h := Keeps.refl s
  repeat' with_reducible first | assumption | apply gateRow_keeps
theorem execInvalidateXlate_keeps {x0 s t} (h : execInvalidateXlate x0 s = .next t) : Keeps s t := by
  unfold execInvalidateXlate at h
  cases h
  have h := Keeps.refl s
  repeat' with_reducible first | assumption | apply gateRow_keeps
theorem execExtentClose_keeps {x0 s t} (h : execExtentClose x0 s = .next t) : Keeps s t := by
  unfold execExtentClose at h
  cases h
  have h := Keeps.refl s
  repeat' with_reducible first | assumption | apply gateRow_keeps
theorem execCatRead_keeps {x0 s t} (h : execCatRead x0 s = .next t) : Keeps s t := by
  unfold execCatRead at h
  cases h
  have h := Keeps.refl s
  repeat' with_reducible first | assumption | apply gateRow_keeps
theorem execCatWrite_keeps {x0 s t} (h : execCatWrite x0 s = .next t) : Keeps s t := by
  unfold execCatWrite at h
  cases h
  have h := Keeps.refl s
  repeat' with_reducible first | assumption | apply gateRow_keeps
theorem execCatInfo_keeps {x0 s t} (h : execCatInfo x0 s = .next t) : Keeps s t := by
  unfold execCatInfo at h
  cases h
  have h := Keeps.refl s
  repeat' with_reducible first | assumption | apply gateRow_keeps
theorem execDeferredAdmissionCheck_keeps {x0 x1 s t} (h : execDeferredAdmissionCheck x0 x1 s = .next t) : Keeps s t := by
  unfold execDeferredAdmissionCheck at h
  cases h
  have h := Keeps.refl s
  repeat' with_reducible first | assumption | apply deferredCheck_keeps
theorem execPartStart_keeps {x0 x1 s t} (h : execPartStart x0 x1 s = .next t) : Keeps s t := by
  unfold execPartStart at h
  cases h
  have h := Keeps.refl s
  repeat' with_reducible first | assumption | apply partStart_keeps
theorem execPartComplete_keeps {x0 x1 x2 s t} (h : execPartComplete x0 x1 x2 s = .next t) : Keeps s t := by
  unfold execPartComplete at h
  cases h
  have h := Keeps.refl s
  repeat' with_reducible first | assumption | apply partComplete_keeps
theorem execCompletionRecord_keeps {x0 s t} (h : execCompletionRecord x0 s = .next t) : Keeps s t := by
  unfold execCompletionRecord at h
  cases h
  have h := Keeps.refl s
  repeat' with_reducible first | assumption | apply completionRecord_keeps
theorem execCalOverrun_keeps {x0 x1 s t} (h : execCalOverrun x0 x1 s = .next t) : Keeps s t := by
  unfold execCalOverrun at h
  cases h
  have h := Keeps.refl s
  repeat' with_reducible first | assumption | apply calOverrun_keeps
theorem execPartFault_keeps {x0 x1 x2 x3 s t} (h : execPartFault x0 x1 x2 x3 s = .next t) : Keeps s t := by
  unfold execPartFault at h
  cases h
  have h := Keeps.refl s
  repeat' with_reducible first | assumption | apply partFault_keeps
theorem execBookingQuery_keeps {x0 x1 s t} (h : execBookingQuery x0 x1 s = .next t) : Keeps s t := by
  unfold execBookingQuery at h
  cases h
  have h := Keeps.refl s
  repeat' with_reducible first | assumption | apply bookingQuery_keeps
theorem execBookingReply_keeps {x0 x1 x2 s t} (h : execBookingReply x0 x1 x2 s = .next t) : Keeps s t := by
  unfold execBookingReply at h
  cases h
  have h := Keeps.refl s
  repeat' with_reducible first | assumption | apply bookingReply_keeps
theorem execBookingConfirmation_keeps {x0 x1 s t} (h : execBookingConfirmation x0 x1 s = .next t) : Keeps s t := by
  unfold execBookingConfirmation at h
  cases h
  have h := Keeps.refl s
  repeat' with_reducible first | assumption | apply bookingConfirmation_keeps
theorem execConfirmHoldExpiry_keeps {x0 x1 s t} (h : execConfirmHoldExpiry x0 x1 s = .next t) : Keeps s t := by
  unfold execConfirmHoldExpiry at h
  cases h
  have h := Keeps.refl s
  repeat' with_reducible first | assumption | apply confirmHoldExpiry_keeps
theorem execReplyTimeout_keeps {x0 s t} (h : execReplyTimeout x0 s = .next t) : Keeps s t := by
  unfold execReplyTimeout at h
  cases h
  have h := Keeps.refl s
  repeat' with_reducible first | assumption | apply replyTimeout_keeps
theorem execPartCompletionMessage_keeps {x0 x1 x2 x3 s t} (h : execPartCompletionMessage x0 x1 x2 x3 s = .next t) : Keeps s t := by
  unfold execPartCompletionMessage at h
  cases h
  have h := Keeps.refl s
  repeat' with_reducible first | assumption | apply partCompletionMessage_keeps
theorem execJointBoundExpiry_keeps {x0 s t} (h : execJointBoundExpiry x0 s = .next t) : Keeps s t := by
  unfold execJointBoundExpiry at h
  cases h
  have h := Keeps.refl s
  repeat' with_reducible first | assumption | apply jointBoundExpiry_keeps
theorem execSkipNotice_keeps {x0 x1 x2 x3 s t} (h : execSkipNotice x0 x1 x2 x3 s = .next t) : Keeps s t := by
  unfold execSkipNotice at h
  cases h
  have h := Keeps.refl s
  repeat' with_reducible first | assumption | apply skipNotice_keeps | apply setLink_keeps | refine Keeps.ite (fun _ => ?_) (fun _ => ?_)
theorem execCreditMessage_keeps {x0 x1 x2 s t} (h : execCreditMessage x0 x1 x2 s = .next t) : Keeps s t := by
  unfold execCreditMessage at h
  cases h
  have h := Keeps.refl s
  repeat' with_reducible first | assumption | apply credit_keeps
theorem execRetryRequest_keeps {x0 x1 x2 s t} (h : execRetryRequest x0 x1 x2 s = .next t) : Keeps s t := by
  unfold execRetryRequest at h
  cases h
  have h := Keeps.refl s
  repeat' with_reducible first | assumption | apply retryRequest_keeps
theorem execTrainHeaderReceive_keeps {x0 x1 x2 s t} (h : execTrainHeaderReceive x0 x1 x2 s = .next t) : Keeps s t := by
  unfold execTrainHeaderReceive at h
  cases h
  have h := Keeps.refl s
  repeat' with_reducible first | assumption | apply headerReceive_keeps
theorem execDataFlitReceive_keeps {x0 x1 x2 s t} (h : execDataFlitReceive x0 x1 x2 s = .next t) : Keeps s t := by
  unfold execDataFlitReceive at h
  cases h
  have h := Keeps.refl s
  repeat' with_reducible first | assumption | apply dataReceive_keeps
theorem execControlFlitSend_keeps {x0 s t} (h : execControlFlitSend x0 s = .next t) : Keeps s t := by
  unfold execControlFlitSend at h
  cases h
  have h := Keeps.refl s
  repeat' with_reducible first | assumption | apply controlFlit_keeps
theorem execLinkDeadTicksExpiry_keeps {x0 s t} (h : execLinkDeadTicksExpiry x0 s = .next t) : Keeps s t := by
  unfold execLinkDeadTicksExpiry at h
  cases h
  have h := Keeps.refl s
  repeat' with_reducible first | assumption | apply linkDead_keeps
theorem execLaneLockLoss_keeps {x0 x1 s t} (h : execLaneLockLoss x0 x1 s = .next t) : Keeps s t := by
  unfold execLaneLockLoss at h
  cases h
  have h := Keeps.refl s
  repeat' with_reducible first | assumption | apply linkEvent_keeps
theorem execPeerTrainingSeen_keeps {x0 s t} (h : execPeerTrainingSeen x0 s = .next t) : Keeps s t := by
  unfold execPeerTrainingSeen at h
  cases h
  have h := Keeps.refl s
  repeat' with_reducible first | assumption | apply linkEvent_keeps
theorem execLinkRetrain_keeps {x0 s t} (h : execLinkRetrain x0 s = .next t) : Keeps s t := by
  unfold execLinkRetrain at h
  cases h
  have h := Keeps.refl s
  repeat' with_reducible first | assumption | apply linkRetrain_keeps
theorem execMemRd_keeps {x0 x1 x2 s t} (h : execMemRd x0 x1 x2 s = .next t) : Keeps s t := by
  unfold execMemRd at h
  cases h
  have h := Keeps.refl s
  repeat' with_reducible first | assumption | apply cxlArrive_keeps
theorem execMemRdData_keeps {x0 x1 s t} (h : execMemRdData x0 x1 s = .next t) : Keeps s t := by
  unfold execMemRdData at h
  cases h
  have h := Keeps.refl s
  repeat' with_reducible first | assumption | apply cxlArrive_keeps
theorem execMemInv_keeps {x0 x1 s t} (h : execMemInv x0 x1 s = .next t) : Keeps s t := by
  unfold execMemInv at h
  cases h
  have h := Keeps.refl s
  repeat' with_reducible first | assumption | apply cxlArrive_keeps
theorem execMemInvNt_keeps {x0 x1 s t} (h : execMemInvNt x0 x1 s = .next t) : Keeps s t := by
  unfold execMemInvNt at h
  cases h
  have h := Keeps.refl s
  repeat' with_reducible first | assumption | apply cxlArrive_keeps
theorem execMemClnEvct_keeps {x0 x1 s t} (h : execMemClnEvct x0 x1 s = .next t) : Keeps s t := by
  unfold execMemClnEvct at h
  cases h
  have h := Keeps.refl s
  repeat' with_reducible first | assumption | apply cxlArrive_keeps
theorem execMemSpecRd_keeps {x0 x1 s t} (h : execMemSpecRd x0 x1 s = .next t) : Keeps s t := by
  unfold execMemSpecRd at h
  cases h
  have h := Keeps.refl s
  assumption
theorem execMemWr_keeps {x0 x1 x2 x3 s t} (h : execMemWr x0 x1 x2 x3 s = .next t) : Keeps s t := by
  unfold execMemWr at h
  cases h
  have h := Keeps.refl s
  repeat' with_reducible first | assumption | apply cxlArrive_keeps
theorem execMemWrPtl_keeps {x0 x1 x2 x3 x4 s t} (h : execMemWrPtl x0 x1 x2 x3 x4 s = .next t) : Keeps s t := by
  unfold execMemWrPtl at h
  cases h
  have h := Keeps.refl s
  repeat' with_reducible first | assumption | apply cxlArrive_keeps
theorem execBiConflict_keeps {x0 x1 s t} (h : execBiConflict x0 x1 s = .next t) : Keeps s t := by
  unfold execBiConflict at h
  cases h
  have h := Keeps.refl s
  repeat' with_reducible first | assumption | apply biConflict_keeps
theorem execBiRspI_keeps {x0 x1 s t} (h : execBiRspI x0 x1 s = .next t) : Keeps s t := by
  unfold execBiRspI at h
  cases h
  have h := Keeps.refl s
  repeat' with_reducible first | assumption | apply biRsp_keeps
theorem execBiRspS_keeps {x0 x1 s t} (h : execBiRspS x0 x1 s = .next t) : Keeps s t := by
  unfold execBiRspS at h
  cases h
  have h := Keeps.refl s
  repeat' with_reducible first | assumption | apply biRsp_keeps
theorem execBiRspE_keeps {x0 x1 s t} (h : execBiRspE x0 x1 s = .next t) : Keeps s t := by
  unfold execBiRspE at h
  cases h
  have h := Keeps.refl s
  repeat' with_reducible first | assumption | apply biRsp_keeps
theorem execCxlMemAdmit_keeps {x0 s t} (h : execCxlMemAdmit x0 s = .next t) : Keeps s t := by
  unfold execCxlMemAdmit at h
  cases h
  have h := Keeps.refl s
  repeat' with_reducible first | assumption | apply cxlAdmit_keeps
theorem execLoadBoundExpiry_keeps {x0 s t} (h : execLoadBoundExpiry x0 s = .next t) : Keeps s t := by
  unfold execLoadBoundExpiry at h
  cases h
  have h := Keeps.refl s
  repeat' with_reducible first | assumption | apply loadBound_keeps
theorem execBiTimeout_keeps {x0 x1 s t} (h : execBiTimeout x0 x1 s = .next t) : Keeps s t := by
  unfold execBiTimeout at h
  cases h
  have h := Keeps.refl s
  repeat' with_reducible first | assumption | apply biTimeout_keeps
theorem execCxlFlitAck_keeps {x0 s t} (h : execCxlFlitAck x0 s = .next t) : Keeps s t := by
  unfold execCxlFlitAck at h
  cases h
  have h := Keeps.refl s
  repeat' with_reducible first | assumption | apply flitAck_keeps
theorem execHomeOrderedEntry_keeps {x0 s t} (h : execHomeOrderedEntry x0 s = .next t) : Keeps s t := by
  unfold execHomeOrderedEntry at h
  cases h
  have h := Keeps.refl s
  repeat' with_reducible first | assumption | apply homeOrderedEntry_keeps
theorem execIdentifyMemoryDevice_keeps {x0 x1 s t} (h : execIdentifyMemoryDevice x0 x1 s = .next t) : Keeps s t := by
  unfold execIdentifyMemoryDevice at h
  cases h
  have h := Keeps.refl s
  repeat' with_reducible first | assumption | apply mailbox_keeps
theorem execGetSupportedLogs_keeps {x0 x1 s t} (h : execGetSupportedLogs x0 x1 s = .next t) : Keeps s t := by
  unfold execGetSupportedLogs at h
  cases h
  have h := Keeps.refl s
  repeat' with_reducible first | assumption | apply mailbox_keeps
theorem execGetLog_keeps {x0 x1 x2 x3 s t} (h : execGetLog x0 x1 x2 x3 s = .next t) : Keeps s t := by
  unfold execGetLog at h
  cases h
  have h := Keeps.refl s
  repeat' with_reducible first | assumption | apply mailbox_keeps
theorem execGetHealthInfo_keeps {x0 x1 s t} (h : execGetHealthInfo x0 x1 s = .next t) : Keeps s t := by
  unfold execGetHealthInfo at h
  cases h
  have h := Keeps.refl s
  repeat' with_reducible first | assumption | apply mailbox_keeps
theorem execGetPoisonList_keeps {x0 x1 x2 x3 s t} (h : execGetPoisonList x0 x1 x2 x3 s = .next t) : Keeps s t := by
  unfold execGetPoisonList at h
  cases h
  have h := Keeps.refl s
  repeat' with_reducible first | assumption | apply mailbox_keeps
theorem execCdatRead_keeps {x0 x1 s t} (h : execCdatRead x0 x1 s = .next t) : Keeps s t := by
  unfold execCdatRead at h
  cases h
  have h := Keeps.refl s
  repeat' with_reducible first | assumption | apply mailbox_keeps
theorem execEntdaa_keeps {x0 s t} (h : execEntdaa x0 s = .next t) : Keeps s t := by
  unfold execEntdaa at h
  cases h
  have h := Keeps.refl s
  repeat' with_reducible first | assumption | apply assignDyn_keeps
theorem execSetdasa_keeps {x0 x1 s t} (h : execSetdasa x0 x1 s = .next t) : Keeps s t := by
  unfold execSetdasa at h
  cases h
  have h := Keeps.refl s
  repeat' with_reducible first | assumption | apply setDasa_keeps
theorem execRstdaa_keeps { s t} (h : execRstdaa  s = .next t) : Keeps s t := by
  unfold execRstdaa at h
  cases h
  have h := Keeps.refl s
  repeat' with_reducible first | assumption | apply rstDaa_keeps
theorem execEnec_keeps {x0 s t} (h : execEnec x0 s = .next t) : Keeps s t := by
  unfold execEnec at h
  cases h
  have h := Keeps.refl s
  assumption
theorem execDisec_keeps {x0 s t} (h : execDisec x0 s = .next t) : Keeps s t := by
  unfold execDisec at h
  cases h
  have h := Keeps.refl s
  assumption
theorem execSetmwl_keeps {x0 s t} (h : execSetmwl x0 s = .next t) : Keeps s t := by
  unfold execSetmwl at h
  cases h
  have h := Keeps.refl s
  repeat' with_reducible first | assumption | apply setMwl_keeps
theorem execSetmrl_keeps {x0 s t} (h : execSetmrl x0 s = .next t) : Keeps s t := by
  unfold execSetmrl at h
  cases h
  have h := Keeps.refl s
  repeat' with_reducible first | assumption | apply setMrl_keeps
theorem execSetEndpointId_keeps {x0 s t} (h : execSetEndpointId x0 s = .next t) : Keeps s t := by
  unfold execSetEndpointId at h
  cases h
  have h := Keeps.refl s
  repeat' with_reducible first | assumption | apply setEid_keeps
theorem execMctpRead_keeps {x0 x1 x2 x3 x4 x5 x6 x7 s t} (h : execMctpRead x0 x1 x2 x3 x4 x5 x6 x7 s = .next t) : Keeps s t := by
  unfold execMctpRead at h
  cases h
  have h := Keeps.refl s
  repeat' with_reducible first | assumption | apply mctpRead_keeps | refine Keeps.ite (fun _ => ?_) (fun _ => ?_)
theorem execMctpWrite_keeps {x0 x1 x2 x3 x4 x5 x6 x7 s t} (h : execMctpWrite x0 x1 x2 x3 x4 x5 x6 x7 s = .next t) : Keeps s t := by
  unfold execMctpWrite at h
  cases h
  have h := Keeps.refl s
  repeat' with_reducible first | assumption | apply mctpWrite_keeps | refine Keeps.ite (fun _ => ?_) (fun _ => ?_)
theorem execMctpInfo_keeps {x0 x1 x2 x3 x4 s t} (h : execMctpInfo x0 x1 x2 x3 x4 s = .next t) : Keeps s t := by
  unfold execMctpInfo at h
  cases h
  have h := Keeps.refl s
  repeat' with_reducible first | assumption | apply mctpInfo_keeps | refine Keeps.ite (fun _ => ?_) (fun _ => ?_)
theorem execIdentityRead_keeps {x0 x1 x2 x3 s t} (h : execIdentityRead x0 x1 x2 x3 s = .next t) : Keeps s t := by
  unfold execIdentityRead at h
  cases h
  have h := Keeps.refl s
  repeat' with_reducible first | assumption | apply attest_keeps | apply identityRead_keeps
theorem execReportRequest_keeps {x0 x1 x2 s t} (h : execReportRequest x0 x1 x2 s = .next t) : Keeps s t := by
  unfold execReportRequest at h
  cases h
  have h := Keeps.refl s
  repeat' with_reducible first | assumption | apply attest_keeps | apply reportRequest_keeps
theorem execReportRead_keeps {x0 x1 x2 x3 s t} (h : execReportRead x0 x1 x2 x3 s = .next t) : Keeps s t := by
  unfold execReportRead at h
  cases h
  have h := Keeps.refl s
  repeat' with_reducible first | assumption | apply attest_keeps | apply reportRead_keeps
theorem execDebugChallenge_keeps {x0 x1 s t} (h : execDebugChallenge x0 x1 s = .next t) : Keeps s t := by
  unfold execDebugChallenge at h
  cases h
  have h := Keeps.refl s
  repeat' with_reducible first | assumption | apply attest_keeps | apply debugChallenge_keeps
theorem execDebugToken_keeps {x0 x1 x2 s t} (h : execDebugToken x0 x1 x2 s = .next t) : Keeps s t := by
  unfold execDebugToken at h
  cases h
  have h := Keeps.refl s
  repeat' with_reducible first | assumption | apply attest_keeps | apply debugToken_keeps
theorem execReportSigned_keeps { s t} (h : execReportSigned  s = .next t) : Keeps s t := by
  unfold execReportSigned at h
  cases h
  have h := Keeps.refl s
  repeat' with_reducible first | assumption | apply reportSigned_keeps
theorem execReportDiscard_keeps {x0 s t} (h : execReportDiscard x0 s = .next t) : Keeps s t := by
  unfold execReportDiscard at h
  cases h
  have h := Keeps.refl s
  repeat' with_reducible first | assumption | apply reportDiscard_keeps
theorem execBottomTreeBuild_keeps { s t} (h : execBottomTreeBuild  s = .next t) : Keeps s t := by
  unfold execBottomTreeBuild at h
  cases h
  have h := Keeps.refl s
  repeat' with_reducible first | assumption | apply bottomTreeBuild_keeps
theorem execDoorbellWrite_keeps {x0 x1 x2 x3 s t} (h : execDoorbellWrite x0 x1 x2 x3 s = .next t) : Keeps s t := by
  unfold execDoorbellWrite at h
  cases h
  have h := Keeps.refl s
  repeat' with_reducible first | assumption | apply doorbellWrite_keeps
theorem execMoverGo_keeps {x0 x1 x2 s t} (h : execMoverGo x0 x1 x2 s = .next t) : Keeps s t := by
  unfold execMoverGo at h
  cases h
  have h := Keeps.refl s
  repeat' with_reducible first | assumption | apply moverGo_keeps
theorem execRegisterWrite_keeps {x0 x1 x2 x3 s t} (h : execRegisterWrite x0 x1 x2 x3 s = .next t) : Keeps s t := by
  unfold execRegisterWrite at h
  cases h
  have h := Keeps.refl s
  repeat' with_reducible first | assumption | apply registerWrite_keeps
theorem execTallyAddWrite_keeps {x0 x1 x2 s t} (h : execTallyAddWrite x0 x1 x2 s = .next t) : Keeps s t := by
  unfold execTallyAddWrite at h
  cases h
  have h := Keeps.refl s
  repeat' with_reducible first | assumption | apply tallyAddWrite_keeps
theorem execTallyValueWrite_keeps {x0 x1 x2 s t} (h : execTallyValueWrite x0 x1 x2 s = .next t) : Keeps s t := by
  unfold execTallyValueWrite at h
  cases h
  have h := Keeps.refl s
  repeat' with_reducible first | assumption | apply tallyValueWrite_keeps
theorem execPorterInstruction_keeps {x0 s t} (h : execPorterInstruction x0 s = .next t) : Keeps s t := by
  unfold execPorterInstruction at h
  cases h
  have h := Keeps.refl s
  repeat' with_reducible first | assumption | apply porterStep_keeps
theorem execPredCsrWrite_keeps {x0 x1 x2 s t} (h : execPredCsrWrite x0 x1 x2 s = .next t) : Keeps s t := by
  unfold execPredCsrWrite at h
  cases h
  have h := Keeps.refl s
  repeat' with_reducible first | assumption | (refine porterDoes_keeps ?_ ?_ <;> try dsimp only) | apply loadUse_keeps | apply predCsr_keeps
theorem execTcAcqAll_keeps {x0 s t} (h : execTcAcqAll x0 s = .next t) : Keeps s t := by
  unfold execTcAcqAll at h
  cases h
  have h := Keeps.refl s
  repeat' with_reducible first | assumption | (refine porterDoes_keeps ?_ ?_ <;> try dsimp only) | apply loadUse_keeps | apply tcAcq_keeps
theorem execTcAcqRange_keeps {x0 x1 x2 s t} (h : execTcAcqRange x0 x1 x2 s = .next t) : Keeps s t := by
  unfold execTcAcqRange at h
  cases h
  have h := Keeps.refl s
  repeat' with_reducible first | assumption | (refine porterDoes_keeps ?_ ?_ <;> try dsimp only) | apply loadUse_keeps | apply tcAcq_keeps
theorem execTcRelAll_keeps {x0 s t} (h : execTcRelAll x0 s = .next t) : Keeps s t := by
  unfold execTcRelAll at h
  cases h
  have h := Keeps.refl s
  repeat' with_reducible first | assumption | (refine porterDoes_keeps ?_ ?_ <;> try dsimp only) | apply loadUse_keeps | apply tcRel_keeps
theorem execTcRelRange_keeps {x0 x1 x2 s t} (h : execTcRelRange x0 x1 x2 s = .next t) : Keeps s t := by
  unfold execTcRelRange at h
  cases h
  have h := Keeps.refl s
  repeat' with_reducible first | assumption | (refine porterDoes_keeps ?_ ?_ <;> try dsimp only) | apply loadUse_keeps | apply tcRel_keeps
theorem execTcTwait_keeps {x0 x1 x2 x3 s t} (h : execTcTwait x0 x1 x2 x3 s = .next t) : Keeps s t := by
  unfold execTcTwait at h
  cases h
  have h := Keeps.refl s
  repeat' with_reducible first | assumption | (refine porterDoes_keeps ?_ ?_ <;> try dsimp only) | apply loadUse_keeps | apply tcWait_keeps
theorem execTwaitSatisfied_keeps {x0 s t} (h : execTwaitSatisfied x0 s = .next t) : Keeps s t := by
  unfold execTwaitSatisfied at h
  cases h
  have h := Keeps.refl s
  repeat' with_reducible first | assumption | apply twaitDone_keeps
theorem execTwaitBoundExpiry_keeps {x0 s t} (h : execTwaitBoundExpiry x0 s = .next t) : Keeps s t := by
  unfold execTwaitBoundExpiry at h
  cases h
  have h := Keeps.refl s
  repeat' with_reducible first | assumption | apply twaitBound_keeps
theorem execTcTadd_keeps {x0 x1 x2 s t} (h : execTcTadd x0 x1 x2 s = .next t) : Keeps s t := by
  unfold execTcTadd at h
  cases h
  have h := Keeps.refl s
  repeat' with_reducible first | assumption | (refine porterDoes_keeps ?_ ?_ <;> try dsimp only) | apply loadUse_keeps | apply tcAdd_keeps
theorem execTcAmoAdd_keeps {x0 x1 x2 x3 x4 s t} (h : execTcAmoAdd x0 x1 x2 x3 x4 s = .next t) : Keeps s t := by
  unfold execTcAmoAdd at h
  cases h
  have h := Keeps.refl s
  repeat' with_reducible first | assumption | apply amoRow_keeps
theorem execTcAmoSwap_keeps {x0 x1 x2 x3 x4 s t} (h : execTcAmoSwap x0 x1 x2 x3 x4 s = .next t) : Keeps s t := by
  unfold execTcAmoSwap at h
  cases h
  have h := Keeps.refl s
  repeat' with_reducible first | assumption | apply amoRow_keeps
theorem execTcAmoCas_keeps {x0 x1 x2 x3 x4 s t} (h : execTcAmoCas x0 x1 x2 x3 x4 s = .next t) : Keeps s t := by
  unfold execTcAmoCas at h
  cases h
  have h := Keeps.refl s
  repeat' with_reducible first | assumption | apply amoRow_keeps
theorem execTcAmoMin_keeps {x0 x1 x2 x3 x4 s t} (h : execTcAmoMin x0 x1 x2 x3 x4 s = .next t) : Keeps s t := by
  unfold execTcAmoMin at h
  cases h
  have h := Keeps.refl s
  repeat' with_reducible first | assumption | apply amoRow_keeps
theorem execTcAmoMax_keeps {x0 x1 x2 x3 x4 s t} (h : execTcAmoMax x0 x1 x2 x3 x4 s = .next t) : Keeps s t := by
  unfold execTcAmoMax at h
  cases h
  have h := Keeps.refl s
  repeat' with_reducible first | assumption | apply amoRow_keeps
theorem execTcAmoMinu_keeps {x0 x1 x2 x3 x4 s t} (h : execTcAmoMinu x0 x1 x2 x3 x4 s = .next t) : Keeps s t := by
  unfold execTcAmoMinu at h
  cases h
  have h := Keeps.refl s
  repeat' with_reducible first | assumption | apply amoRow_keeps
theorem execTcAmoMaxu_keeps {x0 x1 x2 x3 x4 s t} (h : execTcAmoMaxu x0 x1 x2 x3 x4 s = .next t) : Keeps s t := by
  unfold execTcAmoMaxu at h
  cases h
  have h := Keeps.refl s
  repeat' with_reducible first | assumption | apply amoRow_keeps
theorem execTcAmoFadd_keeps {x0 x1 x2 x3 s t} (h : execTcAmoFadd x0 x1 x2 x3 s = .next t) : Keeps s t := by
  unfold execTcAmoFadd at h
  cases h
  have h := Keeps.refl s
  repeat' with_reducible first | assumption | apply amoRow_keeps
theorem execStoreBufferDrain_keeps {x0 s t} (h : execStoreBufferDrain x0 s = .next t) : Keeps s t := by
  unfold execStoreBufferDrain at h
  cases h
  have h := Keeps.refl s
  repeat' with_reducible first | assumption | apply drainOne_keeps
theorem execSpanStart_keeps {x0 s t} (h : execSpanStart x0 s = .next t) : Keeps s t := by
  unfold execSpanStart at h
  cases h
  have h := Keeps.refl s
  repeat' with_reducible first | assumption | apply spanStart_keeps
theorem execOpLoadw_keeps {x0 s t} (h : execOpLoadw x0 s = .next t) : Keeps s t := by
  unfold execOpLoadw at h
  cases h
  have h := Keeps.refl s
  repeat' with_reducible first | assumption | apply opLoadw_keeps
theorem execOpMac_keeps {x0 s t} (h : execOpMac x0 s = .next t) : Keeps s t := by
  unfold execOpMac at h
  cases h
  have h := Keeps.refl s
  repeat' with_reducible first | assumption | apply opMac_keeps
theorem execOpDrain_keeps {x0 s t} (h : execOpDrain x0 s = .next t) : Keeps s t := by
  unfold execOpDrain at h
  cases h
  have h := Keeps.refl s
  repeat' with_reducible first | assumption | apply opDrain_keeps
theorem execOpPstart_keeps {x0 s t} (h : execOpPstart x0 s = .next t) : Keeps s t := by
  unfold execOpPstart at h
  cases h
  have h := Keeps.refl s
  repeat' with_reducible first | assumption | apply opPstart_keeps
theorem execOpNop_keeps {x0 s t} (h : execOpNop x0 s = .next t) : Keeps s t := by
  unfold execOpNop at h
  cases h
  have h := Keeps.refl s
  repeat' with_reducible first | assumption | apply opNop_keeps
theorem execOpEnd_keeps {x0 s t} (h : execOpEnd x0 s = .next t) : Keeps s t := by
  unfold execOpEnd at h
  cases h
  have h := Keeps.refl s
  repeat' with_reducible first | assumption | apply opEnd_keeps
theorem execMoveHbmToBank_keeps {x0 s t} (h : execMoveHbmToBank x0 s = .next t) : Keeps s t := by
  unfold execMoveHbmToBank at h
  cases h
  have h := Keeps.refl s
  repeat' with_reducible first | assumption | apply moveField_keeps
theorem execMoveBankToHbm_keeps {x0 s t} (h : execMoveBankToHbm x0 s = .next t) : Keeps s t := by
  unfold execMoveBankToHbm at h
  cases h
  have h := Keeps.refl s
  repeat' with_reducible first | assumption | apply moveField_keeps
theorem execMoveBankToBank_keeps {x0 s t} (h : execMoveBankToBank x0 s = .next t) : Keeps s t := by
  unfold execMoveBankToBank at h
  cases h
  have h := Keeps.refl s
  repeat' with_reducible first | assumption | apply moveField_keeps
theorem execSpanOverrun_keeps {x0 s t} (h : execSpanOverrun x0 s = .next t) : Keeps s t := by
  unfold execSpanOverrun at h
  cases h
  have h := Keeps.refl s
  repeat' with_reducible first | assumption | apply spanOverrun_keeps
theorem execBankReady_keeps {x0 x1 s t} (h : execBankReady x0 x1 s = .next t) : Keeps s t := by
  unfold execBankReady at h
  cases h
  have h := Keeps.refl s
  repeat' with_reducible first | assumption | apply bankReady_keeps
theorem execOppCeiling_keeps {x0 x1 s t} (h : execOppCeiling x0 x1 s = .next t) : Keeps s t := by
  unfold execOppCeiling at h
  cases h
  have h := Keeps.refl s
  repeat' with_reducible first | assumption | apply catWriteAs_keeps
theorem execOppVoltageRaise_keeps { s t} (h : execOppVoltageRaise  s = .next t) : Keeps s t := by
  unfold execOppVoltageRaise at h
  cases h
  have h := Keeps.refl s
  repeat' with_reducible first | assumption | apply voltageRaise_keeps
theorem execFrequencySwitch_keeps {x0 s t} (h : execFrequencySwitch x0 s = .next t) : Keeps s t := by
  unfold execFrequencySwitch at h
  cases h
  have h := Keeps.refl s
  repeat' with_reducible first | assumption | apply frequencySwitch_keeps
theorem execFlashArrayRead_keeps {x0 x1 x2 s t} (h : execFlashArrayRead x0 x1 x2 s = .next t) : Keeps s t := by
  unfold execFlashArrayRead at h
  cases h
  have h := Keeps.refl s
  repeat' with_reducible first | assumption | apply flashArrayRead_keeps
theorem execProgramResume_keeps {x0 x1 s t} (h : execProgramResume x0 x1 s = .next t) : Keeps s t := by
  unfold execProgramResume at h
  cases h
  have h := Keeps.refl s
  repeat' with_reducible first | assumption | apply programResume_keeps
theorem execWritebackCommit_keeps {x0 x1 s t} (h : execWritebackCommit x0 x1 s = .next t) : Keeps s t := by
  unfold execWritebackCommit at h
  cases h
  have h := Keeps.refl s
  repeat' with_reducible first | assumption | apply writebackCommit_keeps
theorem execFlashProgram_keeps {x0 x1 x2 x3 x4 s t} (h : execFlashProgram x0 x1 x2 x3 x4 s = .next t) : Keeps s t := by
  unfold execFlashProgram at h
  cases h
  have h := Keeps.refl s
  repeat' with_reducible first | assumption | apply flashProgram_keeps
theorem execFrameFree_keeps {x0 x1 s t} (h : execFrameFree x0 x1 s = .next t) : Keeps s t := by
  unfold execFrameFree at h
  cases h
  have h := Keeps.refl s
  repeat' with_reducible first | assumption | apply frameFree_keeps
theorem execCompaction_keeps {x0 s t} (h : execCompaction x0 s = .next t) : Keeps s t := by
  unfold execCompaction at h
  cases h
  have h := Keeps.refl s
  repeat' with_reducible first | assumption | apply compaction_keeps
theorem execChannelFailed_keeps {x0 s t} (h : execChannelFailed x0 s = .next t) : Keeps s t := by
  unfold execChannelFailed at h
  cases h
  have h := Keeps.refl s
  repeat' with_reducible first | assumption | apply channelFailed_keeps
theorem execLdpcRecovery_keeps {x0 x1 x2 s t} (h : execLdpcRecovery x0 x1 x2 s = .next t) : Keeps s t := by
  unfold execLdpcRecovery at h
  cases h
  have h := Keeps.refl s
  repeat' with_reducible first | assumption | apply ldpcRecovery_keeps
theorem execMapRebuild_keeps {x0 s t} (h : execMapRebuild x0 s = .next t) : Keeps s t := by
  unfold execMapRebuild at h
  cases h
  have h := Keeps.refl s
  repeat' with_reducible first | assumption | apply mapRebuild_keeps
theorem execExtentRecordWrite_keeps {x0 s t} (h : execExtentRecordWrite x0 s = .next t) : Keeps s t := by
  unfold execExtentRecordWrite at h
  cases h
  have h := Keeps.refl s
  repeat' with_reducible first | assumption | apply extentRecordWrite_keeps
theorem execExtentGrant_keeps {x0 x1 s t} (h : execExtentGrant x0 x1 s = .next t) : Keeps s t := by
  unfold execExtentGrant at h
  cases h
  have h := Keeps.refl s
  repeat' with_reducible first | assumption | apply catWriteAs_keeps
theorem execExtentRevoke_keeps {x0 x1 s t} (h : execExtentRevoke x0 x1 s = .next t) : Keeps s t := by
  unfold execExtentRevoke at h
  cases h
  have h := Keeps.refl s
  repeat' with_reducible first | assumption | apply catWriteAs_keeps
theorem execDrainZero_keeps {x0 s t} (h : execDrainZero x0 s = .next t) : Keeps s t := by
  unfold execDrainZero at h
  cases h
  have h := Keeps.refl s
  repeat' with_reducible first | assumption | apply drainZero_keeps
theorem execSweepStart_keeps {x0 s t} (h : execSweepStart x0 s = .next t) : Keeps s t := by
  unfold execSweepStart at h
  cases h
  have h := Keeps.refl s
  repeat' with_reducible first | assumption | apply sweepStart_keeps
theorem execSweepEnd_keeps {x0 s t} (h : execSweepEnd x0 s = .next t) : Keeps s t := by
  unfold execSweepEnd at h
  cases h
  have h := Keeps.refl s
  repeat' with_reducible first | assumption | apply sweepEnd_keeps
theorem execStallCreate_keeps {x0 x1 s t} (h : execStallCreate x0 x1 s = .next t) : Keeps s t := by
  unfold execStallCreate at h
  cases h
  have h := Keeps.refl s
  repeat' with_reducible first | assumption | apply catWriteAs_keeps
theorem execStallRemove_keeps {x0 x1 s t} (h : execStallRemove x0 x1 s = .next t) : Keeps s t := by
  unfold execStallRemove at h
  cases h
  have h := Keeps.refl s
  repeat' with_reducible first | assumption | apply catWriteAs_keeps
theorem execStallSweepStart_keeps {x0 s t} (h : execStallSweepStart x0 s = .next t) : Keeps s t := by
  unfold execStallSweepStart at h
  cases h
  have h := Keeps.refl s
  repeat' with_reducible first | assumption | apply stallSweepStart_keeps
theorem execStallUnused_keeps {x0 s t} (h : execStallUnused x0 s = .next t) : Keeps s t := by
  unfold execStallUnused at h
  cases h
  have h := Keeps.refl s
  repeat' with_reducible first | assumption | apply stallUnused_keeps
theorem execConsentA_keeps {x0 x1 x2 s t} (h : execConsentA x0 x1 x2 s = .next t) : Keeps s t := by
  unfold execConsentA at h
  cases h
  have h := Keeps.refl s
  repeat' with_reducible first | assumption | apply catWriteAs_keeps
theorem execConsentB_keeps {x0 x1 x2 s t} (h : execConsentB x0 x1 x2 s = .next t) : Keeps s t := by
  unfold execConsentB at h
  cases h
  have h := Keeps.refl s
  repeat' with_reducible first | assumption | apply catWriteAs_keeps
theorem execPactInForce_keeps {x0 s t} (h : execPactInForce x0 s = .next t) : Keeps s t := by
  unfold execPactInForce at h
  cases h
  have h := Keeps.refl s
  repeat' with_reducible first | assumption | apply pactInForce_keeps
theorem execPactLeaveForce_keeps {x0 s t} (h : execPactLeaveForce x0 s = .next t) : Keeps s t := by
  unfold execPactLeaveForce at h
  cases h
  have h := Keeps.refl s
  repeat' with_reducible first | assumption | apply pactLeaveForce_keeps
theorem execPactEmpty_keeps {x0 s t} (h : execPactEmpty x0 s = .next t) : Keeps s t := by
  unfold execPactEmpty at h
  cases h
  have h := Keeps.refl s
  repeat' with_reducible first | assumption | apply pactEmpty_keeps
theorem execMapSweep_keeps { s t} (h : execMapSweep  s = .next t) : Keeps s t := by
  unfold execMapSweep at h
  cases h
  have h := Keeps.refl s
  repeat' with_reducible first | assumption | apply mapSweep_keeps
theorem execCommit_keeps {x0 x1 s t} (h : execCommit x0 x1 s = .next t) : Keeps s t := by
  unfold execCommit at h
  cases h
  have h := Keeps.refl s
  repeat' with_reducible first | assumption | apply catWriteAs_keeps
theorem execCommitValidation_keeps {x0 s t} (h : execCommitValidation x0 s = .next t) : Keeps s t := by
  unfold execCommitValidation at h
  cases h
  have h := Keeps.refl s
  repeat' with_reducible first | assumption | apply commitValidation_keeps
theorem execCommitApply_keeps {x0 s t} (h : execCommitApply x0 s = .next t) : Keeps s t := by
  unfold execCommitApply at h
  cases h
  have h := Keeps.refl s
  repeat' with_reducible first | assumption | apply commitApply_keeps
theorem execDiscard_keeps {x0 x1 s t} (h : execDiscard x0 x1 s = .next t) : Keeps s t := by
  unfold execDiscard at h
  cases h
  have h := Keeps.refl s
  repeat' with_reducible first | assumption | apply catWriteAs_keeps
theorem execRegionOwner_keeps {x0 x1 x2 s t} (h : execRegionOwner x0 x1 x2 s = .next t) : Keeps s t := by
  unfold execRegionOwner at h
  cases h
  have h := Keeps.refl s
  repeat' with_reducible first | assumption | apply catWriteAs_keeps
theorem execTableOwner_keeps {x0 x1 x2 s t} (h : execTableOwner x0 x1 x2 s = .next t) : Keeps s t := by
  unfold execTableOwner at h
  cases h
  have h := Keeps.refl s
  repeat' with_reducible first | assumption | apply catWriteAs_keeps
theorem execCollOwner_keeps {x0 x1 x2 s t} (h : execCollOwner x0 x1 x2 s = .next t) : Keeps s t := by
  unfold execCollOwner at h
  cases h
  have h := Keeps.refl s
  repeat' with_reducible first | assumption | apply catWriteAs_keeps
theorem execCollActivate_keeps {x0 x1 s t} (h : execCollActivate x0 x1 s = .next t) : Keeps s t := by
  unfold execCollActivate at h
  cases h
  have h := Keeps.refl s
  repeat' with_reducible first | assumption | apply catWriteAs_keeps
theorem execCollDeactivate_keeps {x0 x1 s t} (h : execCollDeactivate x0 x1 s = .next t) : Keeps s t := by
  unfold execCollDeactivate at h
  cases h
  have h := Keeps.refl s
  repeat' with_reducible first | assumption | apply catWriteAs_keeps
theorem execRetireRequest_keeps {x0 x1 x2 s t} (h : execRetireRequest x0 x1 x2 s = .next t) : Keeps s t := by
  unfold execRetireRequest at h
  cases h
  have h := Keeps.refl s
  repeat' with_reducible first | assumption | apply catWriteAs_keeps
theorem execRestockNow_keeps {x0 x1 x2 s t} (h : execRestockNow x0 x1 x2 s = .next t) : Keeps s t := by
  unfold execRestockNow at h
  cases h
  have h := Keeps.refl s
  repeat' with_reducible first | assumption | apply catWriteAs_keeps
theorem execSideCommit_keeps {x0 x1 s t} (h : execSideCommit x0 x1 s = .next t) : Keeps s t := by
  unfold execSideCommit at h
  cases h
  have h := Keeps.refl s
  repeat' with_reducible first | assumption | apply sideCommit_keeps
theorem execRestockStart_keeps {x0 s t} (h : execRestockStart x0 s = .next t) : Keeps s t := by
  unfold execRestockStart at h
  cases h
  have h := Keeps.refl s
  repeat' with_reducible first | assumption | apply restockStart_keeps
theorem execRestockSwitch_keeps {x0 s t} (h : execRestockSwitch x0 s = .next t) : Keeps s t := by
  unfold execRestockSwitch at h
  cases h
  have h := Keeps.refl s
  repeat' with_reducible first | assumption | apply restockSwitch_keeps
theorem execRestockDrain_keeps {x0 s t} (h : execRestockDrain x0 s = .next t) : Keeps s t := by
  unfold execRestockDrain at h
  cases h
  have h := Keeps.refl s
  repeat' with_reducible first | assumption | apply restockDrain_keeps
theorem execAgentStall_keeps {x0 x1 x2 s t} (h : execAgentStall x0 x1 x2 s = .next t) : Keeps s t := by
  unfold execAgentStall at h
  cases h
  have h := Keeps.refl s
  repeat' with_reducible first | assumption | apply catWriteAs_keeps
theorem execAgentClean_keeps {x0 x1 x2 s t} (h : execAgentClean x0 x1 x2 s = .next t) : Keeps s t := by
  unfold execAgentClean at h
  cases h
  have h := Keeps.refl s
  repeat' with_reducible first | assumption | apply catWriteAs_keeps
theorem execCoherenceTest_keeps {x0 x1 x2 s t} (h : execCoherenceTest x0 x1 x2 s = .next t) : Keeps s t := by
  unfold execCoherenceTest at h
  cases h
  have h := Keeps.refl s
  repeat' with_reducible first | assumption | apply catWriteAs_keeps
theorem execContextEnable_keeps {x0 x1 s t} (h : execContextEnable x0 x1 s = .next t) : Keeps s t := by
  unfold execContextEnable at h
  cases h
  have h := Keeps.refl s
  repeat' with_reducible first | assumption | apply catWriteAs_keeps
theorem execContextDisable_keeps {x0 x1 s t} (h : execContextDisable x0 x1 s = .next t) : Keeps s t := by
  unfold execContextDisable at h
  cases h
  have h := Keeps.refl s
  repeat' with_reducible first | assumption | apply catWriteAs_keeps
theorem execAdmitHold_keeps {x0 x1 x2 s t} (h : execAdmitHold x0 x1 x2 s = .next t) : Keeps s t := by
  unfold execAdmitHold at h
  cases h
  have h := Keeps.refl s
  repeat' with_reducible first | assumption | apply catWriteAs_keeps
theorem execInjectArm_keeps {x0 x1 x2 x3 s t} (h : execInjectArm x0 x1 x2 x3 s = .next t) : Keeps s t := by
  unfold execInjectArm at h
  cases h
  have h := Keeps.refl s
  repeat' with_reducible first | assumption | apply catWriteAs_keeps
theorem execInjectionAllowed_keeps {x0 x1 s t} (h : execInjectionAllowed x0 x1 s = .next t) : Keeps s t := by
  unfold execInjectionAllowed at h
  cases h
  have h := Keeps.refl s
  repeat' with_reducible first | assumption | apply catWriteAs_keeps
theorem execFwStage_keeps {x0 x1 x2 s t} (h : execFwStage x0 x1 x2 s = .next t) : Keeps s t := by
  unfold execFwStage at h
  cases h
  have h := Keeps.refl s
  repeat' with_reducible first | assumption | apply fwStageWrite_keeps
theorem execFwUpdateVerify_keeps {x0 s t} (h : execFwUpdateVerify x0 s = .next t) : Keeps s t := by
  unfold execFwUpdateVerify at h
  cases h
  have h := Keeps.refl s
  repeat' with_reducible first | assumption | apply catWriteAs_keeps
theorem execFwUpdateHandoff_keeps {x0 s t} (h : execFwUpdateHandoff x0 s = .next t) : Keeps s t := by
  unfold execFwUpdateHandoff at h
  cases h
  have h := Keeps.refl s
  repeat' with_reducible first | assumption | apply catWriteAs_keeps
theorem execFwUpdateClear_keeps {x0 s t} (h : execFwUpdateClear x0 s = .next t) : Keeps s t := by
  unfold execFwUpdateClear at h
  cases h
  have h := Keeps.refl s
  repeat' with_reducible first | assumption | apply catWriteAs_keeps
theorem execVerifyDone_keeps { s t} (h : execVerifyDone  s = .next t) : Keeps s t := by
  unfold execVerifyDone at h
  cases h
  have h := Keeps.refl s
  repeat' with_reducible first | assumption | apply verifyDone_keeps
theorem execPrepareEnd_keeps { s t} (h : execPrepareEnd  s = .next t) : Keeps s t := by
  unfold execPrepareEnd at h
  cases h
  have h := Keeps.refl s
  repeat' with_reducible first | assumption | apply prepareEnd_keeps
theorem execPrepareTimeout_keeps { s t} (h : execPrepareTimeout  s = .next t) : Keeps s t := by
  unfold execPrepareTimeout at h
  cases h
  have h := Keeps.refl s
  repeat' with_reducible first | assumption | apply prepareTimeout_keeps
theorem execAdmissionPauseStart_keeps { s t} (h : execAdmissionPauseStart  s = .next t) : Keeps s t := by
  unfold execAdmissionPauseStart at h
  cases h
  have h := Keeps.refl s
  repeat' with_reducible first | assumption | apply pauseStart_keeps
theorem execComponentMove_keeps { s t} (h : execComponentMove  s = .next t) : Keeps s t := by
  unfold execComponentMove at h
  cases h
  have h := Keeps.refl s
  repeat' with_reducible first | assumption | apply componentMove_keeps
theorem execSecRestart_keeps { s t} (h : execSecRestart  s = .next t) : Keeps s t := by
  unfold execSecRestart at h
  cases h
  have h := Keeps.refl s
  repeat' with_reducible first | assumption | apply secRestart_keeps
theorem execAdmissionsReopen_keeps { s t} (h : execAdmissionsReopen  s = .next t) : Keeps s t := by
  unfold execAdmissionsReopen at h
  cases h
  have h := Keeps.refl s
  repeat' with_reducible first | assumption | apply reopen_keeps
theorem execHandoffRollback_keeps { s t} (h : execHandoffRollback  s = .next t) : Keeps s t := by
  unfold execHandoffRollback at h
  cases h
  have h := Keeps.refl s
  repeat' with_reducible first | assumption | apply rollback_keeps
theorem execWatchdog_keeps {x0 s t} (h : execWatchdog x0 s = .next t) : Keeps s t := by
  unfold execWatchdog at h
  cases h
  have h := Keeps.refl s
  repeat' with_reducible first | assumption | apply watchdog_keeps
theorem execFwProtection_keeps {x0 x1 s t} (h : execFwProtection x0 x1 s = .next t) : Keeps s t := by
  unfold execFwProtection at h
  cases h
  have h := Keeps.refl s
  repeat' with_reducible first | assumption | apply fwProtection_keeps
theorem execSetSwitchWindow_keeps {x0 s t} (h : execSetSwitchWindow x0 s = .next t) : Keeps s t := by
  unfold execSetSwitchWindow at h
  cases h
  have h := Keeps.refl s
  repeat' with_reducible first | assumption | apply setSwitchWindow_keeps
theorem execPreWalk_keeps {x0 x1 s t} (h : execPreWalk x0 x1 s = .next t) : Keeps s t := by
  unfold execPreWalk at h
  cases h
  have h := Keeps.refl s
  repeat' with_reducible first | assumption | apply preWalk_keeps
theorem execAtsCompletion_keeps {x0 x1 x2 x3 s t} (h : execAtsCompletion x0 x1 x2 x3 s = .next t) : Keeps s t := by
  unfold execAtsCompletion at h
  cases h
  have h := Keeps.refl s
  repeat' with_reducible first | assumption | apply atsCompletion_keeps
theorem execAtsBoundExpiry_keeps {x0 s t} (h : execAtsBoundExpiry x0 s = .next t) : Keeps s t := by
  unfold execAtsBoundExpiry at h
  cases h
  have h := Keeps.refl s
  repeat' with_reducible first | assumption | apply atsBound_keeps
theorem execAtsInvalidateRequest_keeps {x0 x1 x2 s t} (h : execAtsInvalidateRequest x0 x1 x2 s = .next t) : Keeps s t := by
  unfold execAtsInvalidateRequest at h
  cases h
  have h := Keeps.refl s
  repeat' with_reducible first | assumption | apply atsInvalidate_keeps
theorem execIqApply_keeps {x0 s t} (h : execIqApply x0 s = .next t) : Keeps s t := by
  unfold execIqApply at h
  cases h
  have h := Keeps.refl s
  repeat' with_reducible first | assumption | apply iqApply_keeps | refine Keeps.ite (fun _ => ?_) (fun _ => ?_)
theorem execPowerRemoval_keeps { s t} (h : execPowerRemoval  s = .next t) : Keeps s t := by
  unfold execPowerRemoval at h
  cases h
  have h := Keeps.refl s
  repeat' with_reducible first | assumption | apply powerRemoval_keeps
theorem execBlockErase_keeps {x0 x1 s t} (h : execBlockErase x0 x1 s = .next t) : Keeps s t := by
  unfold execBlockErase at h
  cases h
  have h := Keeps.refl s
  repeat' with_reducible first | assumption | apply blockErase_keeps
theorem execCheckpointValid_keeps {x0 s t} (h : execCheckpointValid x0 s = .next t) : Keeps s t := by
  unfold execCheckpointValid at h
  cases h
  have h := Keeps.refl s
  repeat' with_reducible first | assumption | apply checkpointValid_keeps

end Sys2Proof.Machine
end

