-- ==== Sys2Proof/Laws/Quiet.lean ====
section
/-! SUPPORT. `Quiet`: what writing an error record, an injection or a device's own write never touches. -/

set_option linter.unusedSimpArgs false
namespace Sys2Proof.Machine
open Sys2Proof

/-- `t` differs from `s` only in memories, tallies, frames, coherence, line caches, logs, messages, the activity counted and catalogue
values from index 0x5002 on. -/
def Quiet (s t : State) : Prop :=
  t = { s with cat := t.cat, mem := t.mem, tally := t.tally, store := t.store, coh := t.coh, fab := t.fab, err := t.err, sent := t.sent, gate := t.gate }
  ∧ t.gate = { s.gate with acts := t.gate.acts } ∧ ∀ k, k < 0x5002 * 2 ^ 24 → AMap.get none t.cat.vals k = AMap.get none s.cat.vals k

namespace Quiet
variable {s t u : State}

theorem refl (s : State) : Quiet s s := ⟨rfl, rfl, fun _ _ => rfl⟩
theorem foldl {α : Type} {f : State → α → State} (hf : ∀ x a, Quiet s x → Quiet s (f x a)) : ∀ (l : List α) {t : State}, Quiet s t → Quiet s (l.foldl f t)
  | [], _, h => h
  | a :: l, t, h => foldl hf l (hf t a h)
/-- An update of groups that are free to change. -/
theorem mk_iff {mem tally store coh fab err sent} :
    Quiet s ⟨u.pending, u.clk, u.cat, u.ext, mem, tally, u.ctxs, u.gate, store, coh, u.xl, fab, u.emb, u.colls, u.movers, u.twine, u.port, u.fw, u.sec, err, sent, u.freeCtr, u.orders⟩
      ↔ Quiet s u := by
  constructor
  · intro h
    refine ⟨?_, h.2⟩
    have := h.1
    simp only [State.mk.injEq] at this ⊢
    cases u
    simp_all
  · intro h
    refine ⟨?_, h.2⟩
    have := h.1
    cases u
    simp_all
theorem ite {c : Prop} [Decidable c] (h : c → Quiet s t) (g : ¬c → Quiet s u) : Quiet s (if c then t else u) := by
  by_cases k : c
  · rw [if_pos k]; exact h k
  · rw [if_neg k]; exact g k
theorem of_pair {α : Type} {x : α} {p : α × State} (h : p = (x, u)) (k : Quiet s p.2) : Quiet s u := by rw [h] at k; exact k
theorem clk (h : Quiet s t) : t.clk = s.clk := by rw [h.1]
theorem gate (h : Quiet s t) : t.gate = { s.gate with acts := t.gate.acts } := h.2.1
theorem twine (h : Quiet s t) : t.twine = s.twine := by rw [h.1]
theorem port (h : Quiet s t) : t.port = s.port := by rw [h.1]
theorem fw (h : Quiet s t) : t.fw = s.fw := by rw [h.1]
theorem ext (h : Quiet s t) : t.ext = s.ext := by rw [h.1]
/-- A value below index 0x5002 reads as before. -/
theorem cv (h : Quiet s t) {i j k : Nat} (hi : i < 0x5002) (hj : j < 256) (hk : k < 65536) : Machine.cv t i j k = Machine.cv s i j k := by
  simp only [Machine.cv, dfltOf, h.clk, h.2.2 (catKey i j k) (by unfold catKey; omega)]
end Quiet

theorem send_quiet {s t : State} {x0} (h : Quiet s t) : Quiet s (send x0 t) := by
  unfold send
  repeat' with_reducible first | assumption | simp only [Quiet.mk_iff]
theorem cvSet_quiet {s t : State} {i j k v : Nat} (hi : 0x5002 ≤ i) (h : Quiet s t) : Quiet s (cvSet i j k v t) := by
  refine ⟨?_, h.2.1, fun x hx => ?_⟩
  · have := h.1
    simp only [cvSet]
    cases t
    simp_all
  · simp only [cvSet]
    rw [AMap.get_set_ne none _ _ (by unfold catKey; omega)]
    exact h.2.2 x hx
theorem cvAdd_quiet {s t : State} {i j k v : Nat} (hi : 0x5002 ≤ i) (h : Quiet s t) : Quiet s (cvAdd i j k v t) := cvSet_quiet hi h
theorem setHbm_quiet {s t : State} {x0} (h : Quiet s t) : Quiet s (setHbm x0 t) := by
  unfold setHbm
  repeat' with_reducible first | assumption | simp only [Quiet.mk_iff]
theorem setFrame_quiet {s t : State} {x0 x1} (h : Quiet s t) : Quiet s (setFrame x0 x1 t) := by
  unfold setFrame
  repeat' with_reducible first | assumption | simp only [Quiet.mk_iff]
theorem fillFrame_quiet {s t : State} {x0 x1} (h : Quiet s t) : Quiet s (fillFrame x0 x1 t) := by
  unfold fillFrame
  repeat' with_reducible first | assumption | apply setFrame_quiet | apply setHbm_quiet | refine Quiet.ite (fun _ => ?_) (fun _ => ?_) | simp only [Quiet.mk_iff] | split
theorem storeWrite_quiet {s t : State} {x0 x1} (h : Quiet s t) : Quiet s (storeWrite x0 x1 t) := by
  unfold storeWrite
  repeat' with_reducible first | assumption | apply fillFrame_quiet | apply setFrame_quiet | (refine Quiet.foldl (fun _ _ _ => ?_) _ ?_ <;> try dsimp only) | refine Quiet.ite (fun _ => ?_) (fun _ => ?_) | simp only [Quiet.mk_iff] | split
theorem setTally_quiet {s t : State} {x0 x1} (h : Quiet s t) : Quiet s (setTally x0 x1 t) := by
  unfold setTally
  repeat' with_reducible first | assumption | simp only [Quiet.mk_iff]
theorem setWay_quiet {s t : State} {x0 x1} (h : Quiet s t) : Quiet s (setWay x0 x1 t) := by
  unfold setWay
  repeat' with_reducible first | assumption | simp only [Quiet.mk_iff]
theorem sendSnp_quiet {s t : State} {x0 x1 x2 x3 x4 x5 x6} (h : Quiet s t) : Quiet s (sendSnp x0 x1 x2 x3 x4 x5 x6 t) := by
  unfold sendSnp
  repeat' with_reducible first | assumption | refine cvAdd_quiet (by omega) ?_ | apply send_quiet | simp only [Quiet.mk_iff]
theorem recallLine_quiet {s t : State} {x0} (h : Quiet s t) : Quiet s (recallLine x0 t) := by
  unfold recallLine
  repeat' with_reducible first | assumption | apply storeWrite_quiet | (refine Quiet.foldl (fun _ _ _ => ?_) _ ?_ <;> try dsimp only) | simp only [Quiet.mk_iff]
theorem unitInvalidate_quiet {s t : State} {x0 x1 x2} (h : Quiet s t) : Quiet s (unitInvalidate x0 x1 x2 t) := by
  unfold unitInvalidate
  repeat' with_reducible first | assumption | apply setWay_quiet | apply sendSnp_quiet | apply recallLine_quiet | (refine Quiet.foldl (fun _ _ _ => ?_) _ ?_ <;> try dsimp only) | refine Quiet.ite (fun _ => ?_) (fun _ => ?_) | simp only [Quiet.mk_iff] | split
theorem lineWrite_quiet {s t : State} {x0} (h : Quiet s t) : Quiet s (lineWrite x0 t) := by
  unfold lineWrite
  repeat' with_reducible first | assumption | apply storeWrite_quiet | refine Quiet.ite (fun _ => ?_) (fun _ => ?_) | simp only [Quiet.mk_iff]
theorem addWait_quiet {s t : State} {x0} (h : Quiet s t) : Quiet s (addWait x0 t) := by
  unfold addWait
  repeat' with_reducible first | assumption | simp only [Quiet.mk_iff]
theorem beginWrite_quiet {s t : State} {x0} (h : Quiet s t) : Quiet s (beginWrite x0 t) := by
  unfold beginWrite
  repeat' with_reducible first | assumption | apply unitInvalidate_quiet | apply lineWrite_quiet | apply addWait_quiet | refine Quiet.ite (fun _ => ?_) (fun _ => ?_)
theorem homeWrite_quiet {s t : State} {x0} (h : Quiet s t) : Quiet s (homeWrite x0 t) := by
  unfold homeWrite
  repeat' with_reducible first | assumption | apply addWait_quiet | apply beginWrite_quiet | refine Quiet.ite (fun _ => ?_) (fun _ => ?_)
theorem deviceWrite_quiet {s t : State} {x0 x1} (h : Quiet s t) : Quiet s (deviceWrite x0 x1 t) := by
  unfold deviceWrite
  repeat' with_reducible first | assumption | apply storeWrite_quiet | apply homeWrite_quiet | (refine Quiet.foldl (fun _ _ _ => ?_) _ ?_ <;> try dsimp only) | refine Quiet.ite (fun _ => ?_) (fun _ => ?_)
theorem ringLine_quiet {s t : State} {st} (h : Quiet s t) : Quiet s (ringLine st t) := by
  obtain ⟨h1, h2, h3⟩ := h
  refine ⟨?_, ?_, h3⟩
  · unfold ringLine
    cases t
    cases s
    simp only [State.mk.injEq, true_and, and_true] at h1 ⊢
    exact h1
  · exact congrArg (fun g : GateSt => { g with acts := (ringLine st t).gate.acts }) h2
theorem tallyBump_quiet {s t : State} {x0 x1} (h : Quiet s t) : Quiet s (tallyBump x0 x1 t) := by
  unfold tallyBump
  repeat' with_reducible first | assumption | apply setTally_quiet
theorem ringStore_quiet {s t : State} {x0 x1} (h : Quiet s t) : Quiet s (ringStore x0 x1 t).2 := by
  unfold ringStore
  repeat' with_reducible first | assumption | apply ringLine_quiet | apply deviceWrite_quiet | refine cvAdd_quiet (by omega) ?_ | simp only [Quiet.mk_iff] | split
theorem logStore_quiet {s t : State} {x0} (h : Quiet s t) : Quiet s (logStore x0 t) := by
  unfold logStore
  repeat' with_reducible first | assumption | simp only [Quiet.mk_iff]
theorem detect_quiet {s t : State} {x0} (h : Quiet s t) : Quiet s (detect x0 t) := by
  unfold detect
  repeat' with_reducible first | assumption | simp only [Quiet.mk_iff]
theorem ringAppend_quiet {s t : State} {x0 x1} (h : Quiet s t) : Quiet s (ringAppend x0 x1 t) := by
  unfold ringAppend
  repeat' with_reducible first | assumption | apply ringStore_quiet | apply tallyBump_quiet | apply logStore_quiet | apply detect_quiet | refine cvAdd_quiet (by omega) ?_ | refine Quiet.ite (fun _ => ?_) (fun _ => ?_)
theorem errRec_quiet {s t : State} {x0 x1 x2 x3 x4 x5 x6 x7} (h : Quiet s t) : Quiet s (errRec x0 x1 x2 x3 x4 x5 x6 x7 t) := by
  unfold errRec
  repeat' with_reducible first | assumption | apply logStore_quiet | apply ringAppend_quiet | (refine Quiet.foldl (fun _ _ _ => ?_) _ ?_ <;> try dsimp only) | refine Quiet.ite (fun _ => ?_) (fun _ => ?_)
theorem detectRec_quiet {s t : State} {x0 x1 x2 x3 x4 x5 x6} (h : Quiet s t) : Quiet s (detectRec x0 x1 x2 x3 x4 x5 x6 t) := by
  unfold detectRec
  repeat' with_reducible first | assumption | apply errRec_quiet | apply detect_quiet
theorem armStep_quiet {s t : State} {x0 x1} (h : Quiet s t) : Quiet s (armStep x0 x1 t).2 := by
  unfold armStep
  repeat' with_reducible first | assumption | refine cvAdd_quiet (by omega) ?_ | refine cvSet_quiet (by omega) ?_ | refine Quiet.ite (fun _ => ?_) (fun _ => ?_) | simp only [Quiet.mk_iff] | split
theorem inject_quiet {s t : State} {x0 x1 x2 x3} (h : Quiet s t) : Quiet s (inject x0 x1 x2 x3 t).2 := by
  unfold inject
  repeat' with_reducible first | assumption | apply armStep_quiet | simp only [Quiet.mk_iff] | split
theorem protectionRec_quiet {s t : State} {x0 x1 x2} (h : Quiet s t) : Quiet s (protectionRec x0 x1 x2 t) := by
  unfold protectionRec
  repeat' with_reducible first | assumption | apply errRec_quiet
theorem sendTo_quiet {s t : State} {x0 x1} (h : Quiet s t) : Quiet s (sendTo x0 x1 t) := by
  unfold sendTo
  repeat' with_reducible first | assumption | apply send_quiet | refine Quiet.ite (fun _ => ?_) (fun _ => ?_)

end Sys2Proof.Machine
end

