-- ==== Sys2Proof/WellFormed.lean ====
section
/-! DEFINITION. Which commands the hardware can meet: every unit number names a unit that exists, every field fits. -/

namespace Sys2Proof

/-- Unit counts of the part (R11, R12, R41, R114, R169, R209, R376, R414): eight CXL ports and the host port, 128 agents, 256
stalls, 16,384 contexts, 64 flash channels, 32 Twine links, 256 porters, 128 columns. -/
def Requester.wf : Requester → Bool
  | .i3c e => decide (e < 256)
  | .vdm e => decide (e < 256)
  | .ctx c => decide (c < 16384)
  | .fw k => decide (k < 19)

def Accessor.wf : Accessor → Bool
  | .agent a => decide (a < 128)
  | .host (some p) => decide (p < 2 ^ 20)
  | .host none => true
  | .porter p => decide (p < 256)

/-- A doorbell field: 4 or 8 bytes inside the block, at a multiple of its length (R21). -/
def fieldWf (off len size : Nat) : Bool := (len == 4 || len == 8) && off % len == 0 && decide (off + len ≤ size)

/-- The well-formedness of a command. -/
def Instr.wf : Instr → Bool
  | .deviceReset rq _ | .assemblyExpiry rq | .snapshotRelease rq | .oppCeiling rq _ | .extentGrant rq _
  | .commit rq _ | .injectionAllowed rq _ | .fwUpdateVerify rq | .fwUpdateHandoff rq | .fwUpdateClear rq
  | .reportDiscard rq => rq.wf
  | .mctpRead rq tag flags idx sub inst _ _ => rq.wf && decide (tag < 2 ^ 16) && decide (flags < 256) && decide (idx < 2 ^ 16)
      && decide (sub < 256) && decide (inst < 2 ^ 16)
  | .mctpWrite rq tag flags idx sub inst _ _ => rq.wf && decide (tag < 2 ^ 16) && decide (flags < 256) && decide (idx < 2 ^ 16)
      && decide (sub < 256) && decide (inst < 2 ^ 16)
  | .mctpInfo rq tag idx sub inst => rq.wf && decide (tag < 2 ^ 16) && decide (idx < 2 ^ 16) && decide (sub < 256) && decide (inst < 2 ^ 16)
  | .identityRead rq tag _ _ | .reportRead rq tag _ _ | .debugChallenge rq tag | .debugToken rq tag _ => rq.wf && decide (tag < 2 ^ 16)
  | .reportRequest rq tag nonce => rq.wf && decide (tag < 2 ^ 16) && nonce.length == 32
  | .fwStage rq _ _ => rq.wf
  | .extentRevoke rq e => rq.wf && decide (e < 2 ^ 20)
  | .stallCreate rq st | .stallRemove rq st => rq.wf && decide (st < 256)
  | .consentA rq p _ | .consentB rq p _ => rq.wf && decide (p < 256)
  | .discard rq g => rq.wf && decide (g < 6)
  | .regionOwner rq r _ => rq.wf && decide (r < 65536)
  | .tableOwner rq t _ => rq.wf && decide (t < 65536)
  | .collOwner rq c _ => rq.wf && decide (c < 4096)
  | .collActivate rq c | .collDeactivate rq c => rq.wf && decide (c < 4096)
  | .retireRequest rq c _ | .restockNow rq c _ => rq.wf && decide (c < 4096)
  | .agentStall rq a _ | .agentClean rq a _ => rq.wf && decide (a < 128)
  | .coherenceTest rq st _ | .admitHold rq st _ => rq.wf && decide (st < 256)
  | .contextEnable rq c | .contextDisable rq c => rq.wf && decide (c < 16384)
  | .injectArm rq d i _ => rq.wf && decide (d < 24) && decide (i < 256)
  | .linkReset p | .portDown p => decide (p < 9)
  | .portTrained p _ _ => decide (p < 9)
  | .internalResetEnd b _ => decide (b < 16)
  | .hbmTrainingDone f => decide (f < 256)
  | .targetResetTimeout ch t => decide (ch < 64) && decide (t < 16)
  | .flashDiscoveryDone l => l.all (fun f => decide (f.chan < 64))
  | .checkpointLoaded ch | .replayDone ch | .checkpointPeriod ch | .compaction ch | .channelFailed ch
  | .checkpointValid ch => decide (ch < 64)
  | .linkUp l n p _ => decide (l < 32) && decide (n < 2 ^ 14) && decide (p < 16)
  | .twineTrainTimeout l | .controlFlitSend l | .linkDeadTicksExpiry l | .peerTrainingSeen l | .linkRetrain l => decide (l < 32)
  | .laneLockLoss l n => decide (l < 32) && decide (n < 4)
  | .bookingQuery l q => decide (l < 32) && decide (q.origin < 2 ^ 14) && decide (q.stall < 256) && decide (q.cls < 3)
  | .skipNotice l src st _ => decide (l < 32) && decide (src < 2 ^ 14) && decide (st < 256)
  | .creditMessage l st _ | .retryRequest l st _ => decide (l < 32) && decide (st < 256)
  | .trainHeaderReceive l _ _ | .dataFlitReceive l _ _ => decide (l < 32)
  | .heatPeriod st | .decayPeriod st | .entryFetch st | .homeOrderedEntry st | .stallSweepStart st | .stallUnused st
  | .iqApply st => decide (st < 256)
  | .queueFetch c | .chain c | .gatherBags c | .search c | .insertVectors c | .deleteVectors c | .runSegment c | .copy c
  | .barrow c | .publish c | .tableSwitch c | .setSwitch c | .tallyWait c | .tallyAdd c | .fence c | .invalidateXlate c
  | .extentClose c | .catRead c | .catWrite c | .catInfo c => decide (c < 16384)
  | .deferredAdmissionCheck _ c | .partStart _ c | .calOverrun _ c | .sideCommit _ c => decide (c < 16)
  | .partComplete _ c p => decide (c < 16) && decide (p < 16)
  | .partFault _ c p _ => decide (c < 16) && decide (p < 16)
  | .memRd a ad _ | .memWr a ad _ _ | .memWrPtl a ad _ _ _ => decide (a < 128) && decide (ad < 2 ^ 64) && ad % 64 == 0
  | .memRdData a ad | .memInv a ad | .memInvNt a ad | .memClnEvct a ad | .memSpecRd a ad | .biConflict a ad
  | .biTimeout a ad => decide (a < 128) && decide (ad < 2 ^ 64) && ad % 64 == 0
  | .biRspI a x | .biRspS a x | .biRspE a x => decide (a < 128) && decide (x.addr < 2 ^ 64) && x.addr % 64 == 0
  | .cxlMemAdmit x => decide (x.agent < 128)
  | .cxlFlitAck ad => decide (ad < 2 ^ 64)
  | .identifyMemoryDevice p ld | .getSupportedLogs p ld | .getHealthInfo p ld => decide (p < 8) && decide (ld < 16)
  | .getLog p ld _ _ | .getPoisonList p ld _ _ => decide (p < 8) && decide (ld < 16)
  | .cdatRead p _ => decide (p < 8)
  | .entdaa a => decide (a < 128)
  | .setdasa st dy => decide (st < 128) && decide (dy < 128)
  | .enec m | .disec m => decide (m < 256)
  | .setmwl n | .setmrl n => decide (n < 2 ^ 16)
  | .setEndpointId e => decide (e < 256)
  | .doorbellWrite src c off data => src.wf && decide (c < 16384) && fieldWf off data.length 64
  | .moverGo src ch _ => src.wf && decide (ch < 256)
  | .registerWrite src ch off _ => src.wf && decide (ch < 256) && fieldWf off 8 64
  | .tallyAddWrite src t _ | .tallyValueWrite src t _ => src.wf && decide (t < 16384)
  | .porterInstruction p | .tcAcqAll p | .tcRelAll p | .twaitSatisfied p | .twaitBoundExpiry p | .storeBufferDrain p => decide (p < 256)
  | .predCsrWrite p c _ => decide (p < 256) && decide (c < 128)
  | .tcAcqRange p r1 r2 | .tcRelRange p r1 r2 | .tcTadd p r1 r2 => decide (p < 256) && decide (r1 < 32) && decide (r2 < 32)
  | .tcTwait p rd r1 r2 | .tcAmoFadd p rd r1 r2 => decide (p < 256) && decide (rd < 32) && decide (r1 < 32) && decide (r2 < 32)
  | .tcAmoAdd p _ rd r1 r2 | .tcAmoSwap p _ rd r1 r2 | .tcAmoCas p _ rd r1 r2 | .tcAmoMin p _ rd r1 r2
  | .tcAmoMax p _ rd r1 r2 | .tcAmoMinu p _ rd r1 r2 | .tcAmoMaxu p _ rd r1 r2 =>
      decide (p < 256) && decide (rd < 32) && decide (r1 < 32) && decide (r2 < 32)
  | .spanStart c | .opLoadw c | .opMac c | .opDrain c | .opPstart c | .opNop c | .opEnd c | .spanOverrun c => decide (c < 128)
  | .moveHbmToBank k | .moveBankToHbm k | .moveBankToBank k => decide (k < 16)
  | .bankReady k b => decide (k < 16) && decide (b < 384)
  | .flashArrayRead ch slot pg => decide (ch < 64) && decide (slot < 2 ^ 26) && decide (pg < 4)
  | .programResume ch l => decide (ch < 64) && decide (l < 256)
  | .writebackCommit st f | .frameFree st f => decide (st < 256) && decide (f < 2 ^ 34)
  | .flashProgram ch b _ st f => decide (ch < 64) && decide (b < 2 ^ 26) && decide (st < 256) && decide (f < 2 ^ 34)
  | .ldpcRecovery ch slot _ => decide (ch < 64) && decide (slot < 2 ^ 26)
  | .mapRebuild r => decide (r < 2 ^ 24)
  | .extentRecordWrite e | .drainZero e | .sweepStart e | .sweepEnd e => decide (e < 2 ^ 20)
  | .pactInForce p | .pactLeaveForce p | .pactEmpty p => decide (p < 256)
  | .commitValidation g | .commitApply g => decide (g < 6)
  | .restockStart c | .restockSwitch c | .restockDrain c => decide (c < 4096)
  | .watchdog c => decide (c < 19)
  | .fwProtection c ad => decide (c < 19) && decide (ad < 2 ^ 64)
  | .atsInvalidateRequest p va _ => decide (p < 2 ^ 20) && decide (va < 2 ^ 64)
  | .blockErase ch b => decide (ch < 64) && decide (b < 2 ^ 26)
  | .powerOnReset | .rstN _ | .secStart | .zeroFillDone | .gateOpen | .thermtrip | .throttleEntry _ | .throttleRelease _
  | .roundBoundary _ | .loaderLoad | .snapshotPeriod | .calibrationPeriod _ | .completionRecord _ | .bookingReply _ _ _
  | .bookingConfirmation _ _ | .confirmHoldExpiry _ _ | .replyTimeout _ | .partCompletionMessage _ _ _ _ | .jointBoundExpiry _
  | .loadBoundExpiry _ | .rstdaa | .reportSigned | .bottomTreeBuild | .oppVoltageRaise | .frequencySwitch _ | .mapSweep
  | .verifyDone | .prepareEnd | .prepareTimeout | .admissionPauseStart | .componentMove | .secRestart | .admissionsReopen
  | .handoffRollback | .setSwitchWindow _ | .preWalk _ _ | .atsCompletion _ _ _ _ | .atsBoundExpiry _ | .powerRemoval => true

end Sys2Proof
end

