-- ==== Sys2Proof/Tests/Slice0.lean ====
section
/-! SUPPORT. Tests: the checks of well-formedness, small one-step tests, and for each statement with hypotheses a state and
operands that meet them (`witness_<statement>`), clause by clause, at the boundary values of the clauses' ranges. -/

namespace Sys2Proof.Tests
open Sys2Proof Sys2Proof.Machine Sys2Proof.Safety

set_option maxRecDepth 100000
set_option Elab.async false

/-! ## Helpers -/

/-- A served device with its Gate open, at tick `tick`. -/
def up (tick : Nat) : State :=
  let s := cvSet 0xC030 1 0 3 State.reset
  { s with clk := { s.clk with powered := true, inReset := false, memActive := true, calTick := tick } }

/-- The conditions of `WriteReaches` as a check. -/
def reaches (s : State) (rq : Requester) (idx sub inst v : Nat) : Bool :=
  match (match rq with | .ctx _ => none | _ => entryOf idx sub inst) with
  | none => false
  | some r => !isBlob r && decide (r.len ≤ 4096) && decide (v < 256 ^ r.len) && decide (served s rq idx true = some none)
    && holds s rq r.priv r.inst idx inst && writerOk rq idx sub && decide (r.acc ≠ 0) && expertOk s r idx inst
    && rangeOk s r idx inst v && (decide (r.app ≠ 2) || quiesced s idx sub inst v) && (decide (r.app ≠ 3) || !pendingGroup s r.grp)

theorem reaches_sound {s : State} {rq : Requester} {idx sub inst v : Nat} (h : reaches s rq idx sub inst v = true) :
    WriteReaches s rq idx sub inst v := by
  unfold reaches at h
  split at h
  · cases h
  · rename_i r hr
    simp only [Bool.and_eq_true, Bool.or_eq_true, Bool.not_eq_true', decide_eq_true_eq] at h
    obtain ⟨⟨⟨⟨⟨⟨⟨⟨⟨⟨h1, h2⟩, h3⟩, h4⟩, h5⟩, h6⟩, h7⟩, h8⟩, h9⟩, h10⟩, h11⟩ := h
    refine ⟨fun c hc => ?_, r, ?_, h1, h2, h3, h4, h5, h6, h7, h8, h9, fun a => h10.resolve_left (absurd a), fun a => h11.resolve_left (absurd a)⟩
    · subst hc; simp at hr
    · cases rq <;> simp_all

/-! ## Well-formedness: each check refuses an ill-formed command -/

theorem test_wf_requesters : ([.deviceReset (.i3c 256) 0, .oppCeiling (.vdm 256) 0, .extentGrant (.ctx 16384) 0, .commit (.fw 19) 0] : List Instr).all
    (fun i => !i.wf) = true := by decide
theorem test_wf_catalogue : ([.mctpRead (.i3c 8) 65536 0 0 0 0 0 0, .mctpRead (.i3c 8) 0 256 0 0 0 0 0, .mctpRead (.i3c 8) 0 0 65536 0 0 0 0,
    .mctpRead (.i3c 8) 0 0 0 256 0 0 0, .mctpRead (.i3c 8) 0 0 0 0 65536 0 0, .mctpWrite (.i3c 8) 0 256 0 0 0 0 [], .mctpInfo (.i3c 8) 0 0 256 0,
    .reportRequest (.i3c 8) 0 [0], .identityRead (.i3c 8) 65536 0 0, .extentRevoke (.fw 1) (2 ^ 20), .stallCreate (.fw 1) 256, .consentA (.fw 1) 256 1,
    .discard (.fw 1) 6, .regionOwner (.fw 1) 65536 0, .tableOwner (.fw 1) 65536 0, .collOwner (.fw 1) 4096 0, .collActivate (.fw 1) 4096,
    .retireRequest (.fw 1) 4096 0, .agentStall (.fw 1) 128 0, .coherenceTest (.fw 1) 256 1, .contextEnable (.fw 1) 16384,
    .injectArm (.fw 1) 24 0 0, .injectArm (.fw 1) 0 256 0, .fwStage (.fw 19) 0 []] : List Instr).all (fun i => !i.wf) = true := by decide
theorem test_wf_start : ([.linkReset 9, .portDown 9, .portTrained 9 1 1, .internalResetEnd 16 false, .hbmTrainingDone 256, .targetResetTimeout 64 0,
    .targetResetTimeout 0 16, .flashDiscoveryDone [{ chan := 64, targets := 1, luns := 1, blocks := 1 }], .checkpointLoaded 64, .replayDone 64] : List Instr).all
    (fun i => !i.wf) = true := by decide
theorem test_wf_links : ([.linkUp 32 0 0 0, .linkUp 0 16384 0 0, .linkUp 0 0 16 0, .twineTrainTimeout 32, .laneLockLoss 0 4, .skipNotice 0 16384 0 0,
    .skipNotice 0 0 256 0, .creditMessage 32 0 1, .retryRequest 0 256 0, .trainHeaderReceive 32 0 true, .dataFlitReceive 32 0 true,
    .bookingQuery 0 ⟨0, 0, 0, 3, 0, 0, 0, 0, 0, false, 0⟩] : List Instr).all (fun i => !i.wf) = true := by decide
theorem test_wf_gate : ([.entryFetch 256, .queueFetch 16384, .chain 16384, .copy 16384, .partStart 1 16, .partComplete 1 0 16, .partFault 1 16 0 (.sramUe 0),
    .calOverrun 1 16, .sideCommit 1 16, .heatPeriod 256, .homeOrderedEntry 256] : List Instr).all (fun i => !i.wf) = true := by decide
theorem test_wf_coherence : ([.memRd 128 0 .noOp, .memRd 0 32 .noOp, .memWr 0 (2 ^ 64) .any 0, .memWrPtl 0 1 .any 0 0, .biRspI 128 ⟨0, 0⟩, .biTimeout 0 63,
    .cxlMemAdmit ⟨128, false⟩] : List Instr).all (fun i => !i.wf) = true := by decide
theorem test_wf_windows : ([.doorbellWrite (.agent 128) 0 0 [0, 0, 0, 0], .doorbellWrite (.host none) 16384 0 [0, 0, 0, 0], .doorbellWrite (.host none) 0 2 [0, 0, 0, 0],
    .doorbellWrite (.host none) 0 60 [0, 0, 0, 0, 0, 0, 0, 0], .doorbellWrite (.host none) 0 0 [0], .moverGo (.porter 256) 0 0, .moverGo (.host (some (2 ^ 20))) 0 0,
    .registerWrite (.agent 0) 256 0 0, .registerWrite (.agent 0) 0 4 0, .tallyAddWrite (.agent 0) 16384 1] : List Instr).all (fun i => !i.wf) = true := by decide
theorem test_wf_porters_and_streams : ([.porterInstruction 256, .tcTwait 0 32 0 0, .tcAmoAdd 0 true 0 32 0, .tcAmoFadd 0 0 0 32, .predCsrWrite 0 128 0,
    .tcAcqRange 0 32 0, .spanStart 128, .opMac 128, .moveHbmToBank 16, .bankReady 0 384] : List Instr).all (fun i => !i.wf) = true := by decide
theorem test_wf_store : ([.flashArrayRead 64 0 0, .flashArrayRead 0 0 4, .programResume 0 256, .writebackCommit 256 0, .ldpcRecovery 0 (2 ^ 26) true,
    .blockErase 64 0, .extentRecordWrite (2 ^ 20), .sweepEnd (2 ^ 20), .pactEmpty 256, .commitApply 6, .restockStart 4096, .watchdog 19, .fwProtection 0 (2 ^ 64),
    .atsInvalidateRequest (2 ^ 20) 0 0, .iqApply 256] : List Instr).all (fun i => !i.wf) = true := by decide
theorem test_wf_ports : ([.identifyMemoryDevice 8 0, .getLog 0 16 0 0, .cdatRead 8 0, .entdaa 128, .setdasa 128 0, .setmwl 65536, .enec 256,
    .setEndpointId 256] : List Instr).all (fun i => !i.wf) = true := by decide
theorem test_wf_accepts : ([.extentRevoke (.fw 1) (2 ^ 20 - 1), .linkUp 31 16383 15 0, .partComplete 1 15 15, .memRd 127 (2 ^ 64 - 64) .inv,
    .doorbellWrite (.agent 127) 16383 56 [0, 0, 0, 0, 0, 0, 0, 0], .tcAmoFadd 255 31 31 31, .flashArrayRead 63 (2 ^ 26 - 1) 3] : List Instr).all (·.wf) = true := by decide

/-! ## Witnesses: resets and the start sequence -/

/-- R513: 100 ticks of RST_N low reset the device, on a running one. -/
theorem witness_DeviceResetClearsTheGate : (up 5).clk.powered = true ∧ (up 5).clk.thermtrip = false ∧ (up 5).clk.inReset = false ∧ 100 ≤ 100 := by decide

theorem witness_StepWithoutCommands : (up 5).pending = [] ∧ State.reset.pending = [] ∧ running { up 5 with clk := { (up 5).clk with inReset := true } } = false := by decide
theorem witness_CommandsLeaveTheQueue : ∃ t, exec .rstdaa (up 5) = .next t := ⟨_, rfl⟩
theorem witness_StepKeepsMemoryCanonical : MemInv State.reset ∧ ∃ t, step { State.reset with pending := [.rstdaa] } = .next t :=
  ⟨by unfold MemInv; decide, _, rfl⟩
theorem witness_CatalogueValuesReadBack : 255 < 256 ∧ 65535 < 65536 ∧ ((0x4010, 255, 65535) : Nat × Nat × Nat) ≠ (0x4010, 255, 65534)
    ∧ cv (cvSet 0x4010 255 65535 7 State.reset) 0x4010 255 65535 = 7 := by decide

/-- A device that the internal reset still holds, and RST_N low for 99 ticks, one fewer than resets it. -/
theorem witness_SupplyAndResetEvents : (let s := { up 5 with clk := { (up 5).clk with inReset := true } }
    s.clk.powered = true ∧ s.clk.inReset = true ∧ s.clk.thermtrip = false) ∧ 99 < 100 := by decide

/-- A device in `phase` of the start sequence. -/
def starting (phase : Nat) : State := cvSet 0xC030 1 0 phase (up 0)

/-- The images: the one the part ships with verifies, an empty slot does not. -/
theorem witness_SecStartBoots : running (starting 0) = true ∧ startPhase (starting 0) = 0 ∧ bootRecord (starting 0) = none
    ∧ verifySlot (starting 0) .factory 0 = 1 ∧ verifySlot (starting 0) .empty 0 ≠ 1
    ∧ (starting 0).sec.slotA = .factory := by decide
theorem witness_SecStartBoots_other : (let s := { starting 0 with sec := { (starting 0).sec with slotA := .empty, slotB := .factory } }
    running s = true ∧ startPhase s = 0 ∧ verifySlot s s.sec.slotA 0 ≠ 1 ∧ verifySlot s s.sec.slotB 0 = 1)
    ∧ (let s := { starting 0 with sec := { (starting 0).sec with slotA := .empty, slotB := .empty } }
    running s = true ∧ startPhase s = 0 ∧ verifySlot s s.sec.slotA 0 ≠ 1 ∧ verifySlot s s.sec.slotB 0 ≠ 1) := by decide

theorem witness_StoreStartsAndRebuilds_training : running (starting 1) = true ∧ startPhase (starting 1) = 1 ∧ (starting 1).clk.hbmTrained = false
    ∧ cv (starting 1) 0xC030 6 = 0
    ∧ startPhase (starting 2) = 2 ∧ (starting 2).clk.zeroFillDone = false ∧ (starting 2).clk.discoveryDone = false ∧ 63 < 64 ∧ 3 < 4 := by decide
/-- STORE done at a boundary with every component running; with no extent to sweep, and with one left in SWEEPING. -/
theorem witness_StoreStartsAndRebuilds_gate : (let s := { starting 2 with clk := { (starting 2).clk with storeDone := true } }
    running s = true ∧ startPhase s = 2 ∧ s.clk.storeDone = true ∧ atBoundary s = true ∧ (∀ c ∈ s.fw.comps, c.2.halted = false) ∧ (∀ e ∈ s.ext.recs, e.2.state ≠ 3)
    ∧ (setExt 7 { state := 3 } s).ext.recs = [(7, { state := 3 })])
    ∧ (let s := { starting 2 with clk := { (starting 2).clk with storeDone := true, calTick := 1279 } }
    running s = true ∧ atBoundary s = false) := by decide
/-- A channel whose parts conform, and one with a part that suspends no program. -/
theorem witness_StoreStartsAndRebuilds_found : chanConforms (starting 2) { chan := 63, targets := 4, luns := 8, blocks := 4 } = true
    ∧ chanConforms (starting 2) { chan := 63, targets := 4, luns := 8, blocks := 4, suspends := false } = false := by decide
theorem witness_StoreStartsAndRebuilds_channels : (let s := setChan 63 { chanOf (starting 2) 63 with blocks := 4 } { starting 2 with clk := { (starting 2).clk with discoveryDone := true } }
    let t := setChanState 63 1 s
    rebuilding 63 t = true ∧ (chanOf t 63).loaded = false ∧ (chanOf (setChan 63 { loaded := true } t) 63).loaded = true ∧ (chanOf (setChan 63 { loaded := true } t) 63).rebuilt = false) := by decide

theorem witness_PortsComeAndGo : running (up 5) = true ∧ 8 < 9 ∧ cv (up 5) 0x9010 1 8 ≠ 2 ∧ cv (cvSet 0x9010 1 8 2 (up 5)) 0x9010 1 8 ≠ 0 := by decide

/-! ## Witnesses: Twine links -/

/-- Link 31 in state `st`. -/
def linkIn (st : Nat) (tick : Nat) : State := cvSet 0x8110 1 31 st (up tick)

theorem witness_LinksTrainAndFail_training : running (linkIn 1 5) = true ∧ 31 < 32 ∧ cv (linkIn 1 5) 0x8110 1 31 = 1
    ∧ expectedPos (linkIn 1 5) 31 ≠ expectedPos (linkIn 1 5) 31 + 1 := by decide
/-- The retraining tick and the one a link goes dead at, each at its first value and one before it. -/
theorem witness_LinksTrainAndFail_ticks : (let s := setLink 31 { failTick := some 5 } (linkIn 3 1285)
    cv s 0x8110 1 31 = 3 ∧ (linkOf s 31).failTick = some 5 ∧ 5 + 1280 ≤ now s)
    ∧ (let s := linkIn 2 (cv (up 0) 0x8100 6)
    running s = true ∧ linkUp s 31 = true ∧ (linkOf s 31).lastFlit + cv s 0x8100 6 ≤ now s)
    ∧ (let s := setLink 31 { lastFlit := 1 } (linkIn 2 (cv (up 0) 0x8100 6))
    linkUp s 31 = true ∧ now s < (linkOf s 31).lastFlit + cv s 0x8100 6) := by decide
theorem witness_LinkMessagesAndNotices : running (linkIn 2 0) = true ∧ linkUp (linkIn 2 0) 31 = true ∧ now (linkIn 2 0) % cv (linkIn 2 0) 0x8100 4 = 0
    ∧ seqAhead (2 ^ 23 - 1) (nextSeqOf (linkIn 2 0) 9 1) < 2 ^ 23 ∧ (∀ x ∈ (linkIn 2 0).twine.held, ¬(x.src = 9 ∧ x.stall = 1))
    ∧ 2 ^ 23 ≤ seqAhead (2 ^ 23) (nextSeqOf (linkIn 2 0) 9 1) := by decide

/-- A flit of the bytes `b` and zeros. -/
def flitOf (b : List Byte) : BitVec 2048 := BitVec.ofNat 2048 (leNat b)
/-- A header flit of one data flit of zeros, for stall 1, with its CRCs (R397, R398). -/
def headerBytes : List Byte :=
  let b := [1, 2, 1, 0] ++ List.replicate 24 0 ++ leBytes 4 (crc32 (List.replicate 256 0)) ++ List.replicate 220 0
  b ++ leBytes 4 (crc32 b)
theorem test_crc32 : crc32 ("123456789".toList.map (fun c => BitVec.ofNat 8 c.toNat)) = 0xCBF43926 := by decide +kernel
theorem witness_FlitsAreTaken_header : (let h := flitBytes (flitOf headerBytes)
    running (linkIn 2 1) = true ∧ linkUp (linkIn 2 1) 31 = true ∧ 0 < now (linkIn 2 1) ∧ hByte h 252 4 = crc32 (slice h 0 252) ∧ headerFormOk h = true
    ∧ armed (linkIn 2 1) 6 (hByte h 2 1) = false ∧ armed (linkIn 2 1) 7 (hByte h 2 1) = false) := by decide +kernel
/-- A data flit of zeros, the first of two that the header announces. -/
theorem witness_FlitsAreTaken_data : (let hf := flitOf (([1, 3, 1, 0] : List Byte) ++ List.replicate 24 0 ++ leBytes 4 (crc32 (List.replicate 256 0)))
    let s := setLink 31 { header := some hf } (linkIn 2 1)
    let h := flitBytes hf
    (linkOf s 31).header = some hf ∧ running s = true ∧ linkUp s 31 = true ∧ crc32 (flitBytes (flitOf [])) = hByte h (28 + 4 * (linkOf s 31).got.length) 4
    ∧ (linkOf s 31).got.length + 1 < hByte h 1 1 ∧ armed s 6 (hByte h 2 1) = false ∧ armed s 7 (hByte h 2 1) = false) := by decide +kernel

/-! ## Witnesses: rounds, periods and the operating point -/

/-- R110's limits: 105 °C and 901 A trigger, 104 °C and 900 A do not; 99 °C and 899 A release after 64 rounds. -/
theorem witness_Throttling : overLimits ⟨105, 800, 0⟩ = true ∧ overLimits ⟨0, 800, 901⟩ = true ∧ overLimits ⟨104, 800, 900⟩ = false
    ∧ (up 5).clk.throttled = false ∧ (up 5).clk.throttlePending = false ∧ belowLimits ⟨99, 800, 899⟩ = true
    ∧ (let s := { up 5 with clk := { (up 5).clk with throttled := true, coolRounds := 64 } }
    s.clk.throttled = true ∧ 64 ≤ s.clk.coolRounds) := by decide
theorem witness_RoundsAdvance : running (up 1279) = true ∧ running (toBoundary 1280 (up 1279)) = true ∧ gateOpened (up 1279) = true ∧ AMap.wf 0 (up 1279).gate.balance = true
    ∧ segmentsIn (up 1279) (curRound (up 1279) + 1) = [] ∧ (up 1279).fab.nextRound ≠ curRound (up 1279) + 1
    ∧ (let s := { up 5 with fab := { (up 5).fab with nextRound := 1 } }
    s.fab.nextRound = curRound s + 1)
    ∧ running { up 5 with clk := { (up 5).clk with inReset := true } } = false := by decide +kernel

theorem witness_PeriodsAtBoundaries : running (up 0) = true ∧ atBoundary (up 0) = true ∧ cv (up 0) 0x3051 1 ≠ 0 ∧ curRound (up 0) % cv (up 0) 0x3051 1 = 0
    ∧ (let s := cvSet 0x7200 2 255 64 (up 0)
    cv s 0x7200 2 255 ≠ 0 ∧ curRound s % cv s 0x7200 2 255 = 0)
    ∧ gateOpened (up 0) = true ∧ cv (up 0) 0x5840 3 255 ≠ 1
    ∧ (let s := cvSet 0x5840 3 255 1 (up 0)
    cv s 0x5840 3 255 = 1 ∧ curRound s % cv s 0x5840 1 255 = 0) := by decide +kernel
/-- A region of an extent of the stall with one access fewer than the threshold. -/
theorem witness_PeriodsAtBoundaries_heat : (let s := cvSet 0x5840 3 1 1 <| cvSet 0x5840 2 1 8 (setExt 0 { state := 1, stall := 1 } (up 0))
    let t := { s with xl := { s.xl with heatUnits := [(0, 7)] } }
    (extRec t 0).state ≠ 0 ∧ (extRec t 0).stall = 1 ∧ AMap.get 0 t.xl.heatUnits 0 + AMap.get 0 t.xl.heatAgents 0 < cv t 0x5840 2 1) := by decide
/-- Flash channel 63 NORMAL, with four blocks of one LUN. -/
def normal (tick : Nat) : State := cvSet 0x4041 5 63 1 (setChan 63 { luns := 1, blocks := 4 } (up tick))
set_option exponentiation.threshold 600
theorem witness_PeriodsAtBoundaries_checkpoint : (let s := normal 0
    63 < 64 ∧ chanState s 63 = 1 ∧ atBoundary s = true ∧ curRound s % max 1 (cv s 0x4040 6) = 0 ∧ (chanOf s 63).ckptArea = none ∧ devicePaused s = false) := by decide +kernel

theorem witness_CalibrationAndOperatingPoint_calibration : atBoundary (up 0) = true ∧ curRound (up 0) % max 1 (cv (up 0) 0x2040 1) = 0 ∧ pwrDown (up 0) = false
    ∧ armed (up 0) 0x14 0 = false ∧ (⟨some 100, some 800, some 1, some 40, some 0, 0⟩ : VrRead).eout = some 100
    ∧ eoutDiff (up 0).clk.eout 100 0 = some (100 : Nat) :=
  ⟨by decide, by decide, by decide, by decide, rfl, by simp [eoutDiff, show (up 0).clk.eout = none from rfl]⟩
/-- Point 3 in force and 4 asked for: the voltage raise at the last tick it may come, and the switch within 10 mV; then the same downwards. -/
theorem witness_CalibrationAndOperatingPoint_points : (let s := cvSet 0x2030 2 0 4 (cvSet 0x2030 4 0 3 (up 640))
    oppTarget s = some 4 ∧ 4 < 5 ∧ pwrDown s = false ∧ now s % 1280 ≤ 640 ∧ cv s 0x2030 4 < 4 ∧ s.clk.vddTarget ≠ oppMv 4)
    ∧ (let s := cvSet 0x2030 2 0 4 (cvSet 0x2030 4 0 3 (up 1280))
    let t := { s with clk := { s.clk with vddTarget := 850, vddTick := 640 } }
    t.clk.vddTick + 640 ≤ now t ∧ oppTarget t = some 4 ∧ atBoundary t = true ∧ cv t 0x2030 4 < 4 ∧ t.clk.vddTarget = oppMv 4 ∧ 860 ≤ oppMv 4 + 10 ∧ oppMv 4 ≤ 840 + 10)
    ∧ (let s := cvSet 0x2030 2 0 0 (cvSet 0x2030 4 0 3 (up 1280))
    oppTarget s = some 0 ∧ atBoundary s = true ∧ 0 < cv s 0x2030 4) := by decide +kernel

/-! ## Witnesses: CXL.mem, the component commands and the I3C target -/

/-- Port 7 UP with credits, agent 127 bound to stall 1, which is ACTIVE with a standing booking of lines, and extent 0 its own. -/
def cxl (tick : Nat) : State :=
  cvSet 0x9010 1 7 2 <| cvSet 0x5010 1 127 1 <| cvSet 0x3000 1 1 1 <| cvSet 0x1040 3 1 4 <| cvSet 0x1040 4 1 4 <| cvSet 0x9010 4 7 16 <| setExt 0 { state := 1, stall := 1 } (up tick)
/-- A line of extent 0. -/
def lineA : Nat := nodeNumber (up 0) * 2 ^ 50 + 2 ^ 30 - 64
def winA : Nat := nodeNumber (up 0) * 2 ^ 50 + windowBase
theorem witness_CxlRequestsArrive : (let s := cxl 5
    127 < 128 ∧ portUp s (127 / 16) = true ∧ gateOpened s = true ∧ nodeOf lineA = nodeNumber s ∧ agentFor s 127 (offOf lineA) = some 1
    ∧ ((extRec s (extOf (offOf lineA))).state ≠ 0 ∧ (extRec s (extOf (offOf lineA))).stall = 1) ∧ isWindow (offOf winA) = true ∧ nodeOf winA = nodeNumber s
    ∧ cv s 0x1040 3 1 ≠ 0 ∧ heldCredits s 127 false < cv s 0x9010 5 7 ∧ heldCredits s 127 true < cv s 0x9010 5 7)
    ∧ nodeOf (2 ^ 63 + lineA) ≠ nodeNumber (cxl 5) ∧ agentFor (cxl 5) 126 (offOf lineA) = none
    ∧ gateOpened { cxl 5 with clk := { (cxl 5).clk with memActive := false } } = false ∧ cv (cvSet 0x1040 3 1 0 (cxl 5)) 0x1040 3 1 = 0 := by decide

/-- A request of agent 127 for the line of `lineA`. -/
def rq1 : CxlReq := { id := 1, agent := 127, addr := lineA, op := .rdData, stall := 1, arrival := 0 }
def cxlWaiting (r : CxlReq) (tick : Nat) : State := 
  { cxl tick with coh := { (cxl tick).coh with reqs := [r], nextId := 2 }, gate := { (cxl tick).gate with standing := [(1, 2 ^ 7)] } }
theorem witness_CxlRequestsAreServed_admission : (let s := cxlWaiting rq1 5
    s.coh.reqs.find? (fun r => r.agent == 127 && r.phase == 0) = some rq1 ∧ bit (AMap.get 0 s.gate.standing 1) 7 = true ∧ AMap.get 0 s.gate.lineUse 1 < cv s 0x1040 3 1 ∧ needsFill s rq1 = false)
    ∧ (let s := cxlWaiting rq1 5
    let t := { s with gate := { s.gate with lineUse := [(1, 4)] } }
    0 < cv t 0x1040 3 1 ∧ cv t 0x1040 3 1 ≤ AMap.get 0 t.gate.lineUse 1 ∧ bit (AMap.get 0 (cxl 5).gate.standing 1) 7 = false)
    ∧ cv (cvSet 0x1040 3 1 0 (cxlWaiting rq1 5)) 0x1040 3 1 = 0
    ∧ (cxl 5).coh.reqs.find? (fun r => r.agent == 127 && r.phase == 0) = none := by decide
/-- A backed extent: the line's frame is filled while a miss is left in the round, and the request waits while none is. -/
theorem witness_CxlRequestsAreServed_fill : (let s := setExt 0 { state := 1, stall := 1, backed := true } (cvSet 0x4030 1 1 16 (cxlWaiting rq1 5))
    let f := offOf lineA / 65536
    needsFill s rq1 = true ∧ (∀ c, cframe s f = some c → c.state ≠ 3) ∧ AMap.get 0 s.gate.missUse 1 < cv s 0x1040 4 1
    ∧ (holdFrame (extRec s (extOf (offOf lineA))).stall f (useMiss 1 (useLines 1 1 s))).isSome = true
    ∧ (holdFrame 1 f (useMiss 1 (useLines 1 1 (cvSet 0x4030 1 1 0 s)))).isNone = true
    ∧ cv s 0x1040 4 1 ≤ AMap.get 0 { s with gate := { s.gate with missUse := [(1, 4)] } }.gate.missUse 1) := by
  refine ⟨?_, ?_, ?_, ?_, ?_, ?_⟩
  · decide +kernel
  · intro c hc
    have hn : cframe (setExt 0 { state := 1, stall := 1, backed := true } (cvSet 0x4030 1 1 16 (cxlWaiting rq1 5))) (offOf lineA / 65536) = none := by decide +kernel
    exact absurd (hn.symm.trans hc) (by simp)
  · decide +kernel
  · decide +kernel
  · decide +kernel
  · decide +kernel
theorem witness_CxlRequestsAreServed_ends : (let s := cxlWaiting { rq1 with phase := 3 } 5
    s.coh.reqs.find? (fun r => r.phase == 3 && lineOf r == offOf lineA / 64) = some { rq1 with phase := 3 })
    ∧ (let r := { rq1 with phase := 1, admitted := 1 }
    let b := cv (up 0) 0x1040 1 1
    cxlReq (cxlWaiting r (1 + b)) 1 = some r ∧ r.admitted + cv (cxlWaiting r (1 + b)) 0x1040 (if r.flash then 2 else 1) r.stall ≤ now (cxlWaiting r (1 + b))
    ∧ (let s := cvSet 0x1040 3 1 0 (cxlWaiting rq1 b)
      cxlReq s 1 = some rq1 ∧ rq1.phase = 0 ∧ cv s 0x1040 3 rq1.stall = 0 ∧ rq1.arrival + cv s 0x1040 1 rq1.stall ≤ now s)
    ∧ cv (cxlWaiting rq1 b) 0x1040 3 rq1.stall ≠ 0
    ∧ (0 < b → now (cxlWaiting r b) < r.admitted + cv (cxlWaiting r b) 0x1040 (if r.flash then 2 else 1) r.stall)) := by decide

theorem witness_CoherenceMessages_answers : (let x : BiSnp := { agent := 127, line := offOf lineA / 64, kind := 2, tick := 0, req := 0, seen := true }
    let s : State := { cxl 5 with coh := { (cxl 5).coh with snps := [x] } }
    portUp s (127 / 16) = true ∧ (∀ y ∈ s.coh.snps, y.seen = true) ∧ (s.coh.snps.filter (fun x => x.agent == 127 && x.line == offOf lineA / 64 && !x.deaf))[0]? = some x
    ∧ s.coh.snps.find? (fun x => x.agent == 127 && x.line == offOf lineA / 64) = some x ∧ x.owner = 0 ∧ x.close = none ∧ x.block = false ∧ ({ x with block := true } : BiSnp).block = true ∧ now s < x.tick + biBound s)
    ∧ (∀ y ∈ (cxl 5).coh.snps, y.seen = true ∧ ¬(y.agent = 127 ∧ y.line = offOf lineA / 64)) ∧ (127, offOf lineA / 64) ∉ (cxl 5).coh.dropped
    ∧ (127, 3) ∈ ({ (cxl 5).coh with dropped := [(127, 3)] } : CohSt).dropped := by decide
/-- The bound of a snoop, at its first tick. -/
theorem witness_CoherenceMessages_bound : (let x : BiSnp := { agent := 127, line := offOf lineA / 64, kind := 2, tick := 0, req := 0, seen := true }
    let s : State := { cxl (biBound (up 0)) with coh := { (cxl 0).coh with snps := [x] } }
    s.coh.snps = [x] ∧ x.seen = true ∧ x.agent = 127 ∧ x.deaf = false ∧ x.tick + biBound s ≤ now s ∧ s.coh.reqs = [] ∧ s.coh.waits = [] ∧ x.block = false
    ∧ x.close = none ∧ cv s 0x9200 2 (homeStall s (offOf lineA / 64)) = 0) := by decide
/-- An entry that tracks the line in the stall's directory. -/
theorem witness_CoherenceMessages_blocked : (let s := cvSet 0x3015 1 1 16 (cxl 5)
    let w := (sectorOf s 1 (64 * (offOf lineA / 64))).getD 0 * 2
    let t := setWay w (some { line := offOf lineA / 64, stall := 1, owned := true, agents := [127] }) s
    homeStall t (offOf lineA / 64) = 1 ∧ lookupWay t 1 (64 * (offOf lineA / 64)) = some w ∧ (lookupEnt t 1 (64 * (offOf lineA / 64))).isSome = true) := by decide
theorem witness_CoherenceMessages_mode : (let s := cvSet 0x5010 3 127 1 (cxl 0)
    homeOrdered s 1 = false ∧ 1 < 256 ∧ atBoundary s = true ∧ stallLive s 1 = true ∧ cv s 0x5000 2 1 = 0 ∧ (∀ a ∈ agentsOf s 1, cv s 0x5010 3 a = 1)
    ∧ (∀ x ∈ s.coh.snps, homeStall s x.line ≠ 1))
    ∧ (127 ∈ agentsOf (cxl 0) 1 ∧ cv (cxl 0) 0x5010 3 127 ≠ 1) := by decide +kernel
theorem witness_ComponentCommandsAreAnswered : running (cxl 5) = true ∧ 7 < 8 ∧ portUp (cxl 5) 7 = true ∧ 15 < cv (cxl 5) 0x9010 4 7 ∧ portUp (cxl 5) 0 = false := by decide
theorem witness_I3cTarget : running (up 5) = true ∧ (up 5).port.i3cDyn = 0 ∧ 0 < 127 ∧ 127 < 128 ∧ 0 ≠ cv (up 5) 0x9020 2
    ∧ ({ up 5 with port := { (up 5).port with i3cDyn := 9 } } : State).port.i3cDyn ≠ 0
    ∧ 69 ≤ 69 ∧ 255 ≤ 255 ∧ (68 < 69 ∨ 255 < 68) ∧ (256 < 69 ∨ 255 < 256) ∧ 8 ≤ 8 ∧ 254 ≤ 254 := by decide

/-! ## Witnesses: the catalogue -/

/-- Stall 1 ACTIVE with a quota of one extent. -/
def st1 (tick : Nat) : State := cvSet 0x3000 1 1 1 (cvSet 0x4011 3 1 1 (up tick))
theorem witness_ExtentGrant_pinned : WriteReaches (st1 5) (.fw 1) 0x4010 1 0 (3 + 2 ^ 24) ∧ bits (3 + 2 ^ 24) 19 0 < extLimit ∧ stallState (st1 5) (bits (3 + 2 ^ 24) 31 24) = 1
    ∧ (extRec (st1 5) 3).state = 0 ∧ extCount (st1 5) 1 < cv (st1 5) 0x4011 3 1 ∧ 1 ≤ pinnedAvailable (st1 5) :=
  ⟨reaches_sound (by decide +kernel), by decide, by decide, by decide, by decide, by decide +kernel⟩
/-- A backed extent over 64 NORMAL channels of one extent each; and an extent that is not FREE. -/
theorem witness_ExtentGrant_backed : (let s := (List.range 64).foldl (fun t f => cvSet 0x4041 1 f (2 ^ 25) (cvSet 0x4041 5 f 1 t)) (st1 5)
    let v := 3 + 2 ^ 22 + 2 ^ 24
    WriteReaches s (.fw 1) 0x4010 1 0 v ∧ bit v 22 = true ∧ backedGranted s < backedCapacity s)
    ∧ WriteReaches (setExt 3 { state := 1, stall := 1 } (st1 5)) (.fw 1) 0x4010 1 0 (3 + 2 ^ 24)
    ∧ (extRec (setExt 3 { state := 1, stall := 1 } (st1 5)) 3).state ≠ 0 :=
  ⟨⟨reaches_sound (by decide +kernel), by decide, by decide +kernel⟩, reaches_sound (by decide +kernel), by decide⟩

theorem witness_ExtentRevoke_refusals : WriteReaches (st1 5) (.fw 1) 0x4010 2 0 3 ∧ (extRec (st1 5) 3).state ≠ 1
    ∧ (let s := { st1 5 with ext := { (st1 5).ext with recs := (List.range 1024).map (fun e => (e, { state := 2 })) } }
    WriteReaches s (.fw 1) 0x4010 2 0 3 ∧ drainsActive s = 1024) :=
  ⟨reaches_sound (by decide +kernel), by decide, reaches_sound (by decide +kernel), by decide +kernel⟩

theorem witness_StallsAndConsents_stalls : (255 < 256 ∧ WriteReaches (up 5) (.fw 1) 0x3000 2 0 255 ∧ 0 < 255 ∧ stallState (up 5) 255 = 0)
    ∧ (WriteReaches (st1 5) (.fw 1) 0x3000 3 0 1 ∧ stallState (st1 5) 1 = 1)
    ∧ WriteReaches (up 5) (.fw 1) 0x3000 2 0 0 ∧ WriteReaches (up 5) (.fw 1) 0x3000 3 0 0 :=
  ⟨⟨by decide, reaches_sound (by decide +kernel), by decide, by decide⟩, ⟨reaches_sound (by decide +kernel), by decide⟩, reaches_sound (by decide +kernel),
    reaches_sound (by decide +kernel)⟩
theorem witness_OwnersAndCollections_owners : WriteReaches (st1 5) (.fw 1) 0x4020 1 65535 1 ∧ (∀ x ∈ (regionOf (st1 5) 65535).slots, x.2.2 = 0)
    ∧ WriteReaches (st1 5) (.fw 1) 0x7100 1 65535 1 ∧ WriteReaches (st1 5) (.fw 1) 0x7900 1 4095 1 :=
  ⟨reaches_sound (by decide +kernel), by decide, reaches_sound (by decide +kernel), reaches_sound (by decide +kernel)⟩
/-- A collection of stall 1 with two centroids: its metadata and side areas in pinned extent 0, its lists in backed extent 1. -/
def coll (active : Nat) : State :=
  let base := nodeNumber (up 0) * 2 ^ 50
  setExt 0 { state := 1, stall := 1 } <| setExt 1 { state := 1, stall := 1, backed := true } <| cvSet 0x7900 1 4095 1 <| cvSet 0x7900 2 4095 active <|
  cvSet 0x7900 3 4095 1 <| cvSet 0x7900 4 4095 1 <| cvSet 0x7900 5 4095 0 <| cvSet 0x7900 7 4095 2 <| cvSet 0x7900 8 4095 4 <| cvSet 0x7900 9 4095 1 <|
  cvSet 0x7900 0x0A 4095 base <| cvSet 0x7900 0x0B 4095 (base + 2 ^ 29) <| cvSet 0x7900 0x0C 4095 1 <| cvSet 0x7900 0x0D 4095 (base + 2 ^ 30) <|
  cvSet 0x7900 0x0E 4095 1 <| cvSet 0xF010 1 1 1 <| st1 0
theorem witness_OwnersAndCollections_requests : WriteReaches (coll 1) (.fw 1) 0x7900 26 4095 1
    ∧ (WriteReaches (coll 1) (.fw 1) 0x7900 28 4095 (1 + 0 * 2 ^ 32) ∧ 1 < cN (coll 1) 4095 ∧ (dirRow (coll 1) 4095 (collOf (coll 1) 4095).cur 1).state ≠ 1
    ∧ (dirRow (coll 1) 4095 (collOf (coll 1) 4095).cur 0).state ≠ 1 ∧ (collOf (coll 1) 4095).retireQ = [])
    ∧ (WriteReaches (coll 1) (.fw 1) 0x7900 2 4095 0 ∧ (∀ x ∈ (collOf (coll 1) 4095).slots, x.2.1 = 0) ∧ collNamed (coll 1) 4095 = false
    ∧ (collOf (coll 1) 4095).restock = 0) :=
  ⟨reaches_sound (by decide +kernel), ⟨reaches_sound (by decide +kernel), by decide, by decide +kernel, by decide +kernel, by decide⟩,
    reaches_sound (by decide +kernel), by decide, by decide, by decide⟩
theorem witness_OwnersAndCollections_start : WriteReaches (coll 0) (.fw 1) 0x7900 2 4095 1 ∧ cActive (coll 0) 4095 = false ∧ collInRange (coll 0) 4095 = true
    ∧ areasFit (coll 0) 4095 = true := ⟨reaches_sound (by decide +kernel), by decide, by decide +kernel, by decide +kernel⟩

theorem witness_AgentsAndCoherence_agents : WriteReaches (cxl 5) (.fw 1) 0x5010 1 127 1 ∧ agentLines (cxl 5) 127 = 0 ∧ (∀ r ∈ (cxl 5).coh.reqs, r.agent = 127 → r.phase = 3)
    ∧ (standingPorts (cxl 5) 1).contains (127 / 16) = true ∧ WriteReaches (cxl 5) (.fw 1) 0x5010 3 127 1 :=
  ⟨reaches_sound (by decide +kernel), by decide, by decide, by decide +kernel, reaches_sound (by decide +kernel)⟩
theorem witness_AgentsAndCoherence_test : (let s := cvSet 0xF010 1 1 1 (cxl 5)
    WriteReaches s (.fw 1) 0x5000 2 1 1 ∧ WriteReaches s (.fw 1) 0x5000 2 1 0) := ⟨reaches_sound (by decide +kernel), reaches_sound (by decide +kernel)⟩

/-- Context 16383 of stall 1 on port 0, with rings of 16 entries in pinned extent 0. -/
def readyCtx (x : Ctx) : State :=
  let base := nodeNumber (up 0) * 2 ^ 50
  setCtx 16383 x <| setExt 0 { state := 1, stall := 1 } <| cvSet 0x3030 1 16383 1 <| cvSet 0x9100 1 16383 0 <| cvSet 0x9100 2 16383 base <| cvSet 0x9100 3 16383 16 <|
  cvSet 0x9100 4 16383 (base + 4096) <| cvSet 0x9100 5 16383 16 <| st1 5
theorem witness_ContextsAreEnabledAndDisabled_enable : (let s := readyCtx {}
    WriteReaches s (.fw 1) 0x9100 10 16383 1 ∧ (ctxOf s 16383).state = 0 ∧ ctxStall s 16383 < 256 ∧ ctxPort s 16383 < 128 ∧ 0 < cv s 0x9100 3 16383
    ∧ 0 < cv s 0x9100 5 16383 ∧ cv s 0x9100 2 16383 % (64 * cv s 0x9100 3 16383) = 0 ∧ cv s 0x9100 4 16383 % (32 * cv s 0x9100 5 16383) = 0
    ∧ pinnedRange s 1 (cv s 0x9100 2 16383) (64 * cv s 0x9100 3 16383) = true ∧ pinnedRange s 1 (cv s 0x9100 4 16383) (32 * cv s 0x9100 5 16383) = true) :=
  ⟨reaches_sound (by decide +kernel), by decide +kernel⟩
/-- A context on the die-to-die link: its rings lie in client memory, and no other enabled context there has its PASID. -/
theorem witness_ContextsAreEnabledAndDisabled_host : (let s := cvSet 0x9100 1 16383 128 (cvSet 0x5810 6 16383 9 (readyCtx {}))
    WriteReaches s (.fw 1) 0x9100 10 16383 1 ∧ (ctxOf s 16383).state = 0 ∧ ctxPort s 16383 = 128
    ∧ ∀ e ∈ s.ctxs, e.1 ≠ 16383 → e.2.state ≠ 0 → ctxPort s e.1 = 128 → cv s 0x5810 6 e.1 ≠ cv s 0x5810 6 16383) :=
  ⟨reaches_sound (by decide +kernel), by decide +kernel⟩
theorem witness_ContextsAreEnabledAndDisabled_disable : (let s := readyCtx { state := 1 }
    WriteReaches s (.fw 1) 0x9100 10 16383 0 ∧ (ctxOf s 16383).state ≠ 0 ∧ ctxIdle s 16383 = true ∧ (ctxOf s 16383).reserved = 0) :=
  ⟨reaches_sound (by decide +kernel), by decide +kernel⟩
/-- A request of a context, with the commands `l`. -/
def reqWith (ctx : Nat) (l : List Cmd) : Req :=
  { rid := 1, ctx := ctx, stall := 1, cls := 1, arrival := 0, decided := 0, promise := 2560, recRound := 1, entryPos := 0, tag := 7, opcode := 0x0C, cmds := l }
def withReq (q : Req) (s : State) : State := { s with gate := { s.gate with reqs := [q], nextRid := 2 } }
theorem witness_ContextsAreEnabledAndDisabled_busy : (let s := withReq (reqWith 16383 []) (readyCtx { state := 1 })
    WriteReaches s (.fw 1) 0x9100 10 16383 0 ∧ ctxIdle s 16383 = false) :=
  ⟨reaches_sound (by decide +kernel), by decide +kernel⟩

theorem witness_DeviceWrites : WriteReaches (up 5) (.fw 1) 0x1010 5 255 1
    ∧ (0x17 < 0x18 ∧ WriteReaches (up 5) (.fw 1) (0xB100 + 0x17) 1 0 (1 + 2 ^ 96) ∧ cv (up 5) 0xB020 1 = 1)
    ∧ (WriteReaches (cvSet 0xB020 1 0 0 (up 5)) (.fw 1) 0xB100 1 0 (1 + 2 ^ 96) ∧ cv (cvSet 0xB020 1 0 0 (up 5)) 0xB020 1 = 0 ∧ armMode (1 + 2 ^ 96) ≠ 0)
    ∧ WriteReaches (up 5) (.i3c 8) 0xB020 1 0 1
    ∧ (WriteReaches (up 5) (.fw 1) 0x2030 2 0 4 ∧ ceilingBusy (up 5) 4 = false)
    ∧ WriteReaches (up 5) (.fw 1) 0xC010 1 0 1 :=
  ⟨reaches_sound (by decide +kernel), ⟨by decide, reaches_sound (by decide +kernel), by decide⟩, ⟨reaches_sound (by decide +kernel), by decide, by decide⟩,
    reaches_sound (by decide +kernel), ⟨reaches_sound (by decide +kernel), by decide +kernel⟩, reaches_sound (by decide +kernel)⟩

theorem witness_Discard : (WriteReaches (up 5) (.fw 1) 0xF003 1 0 3 ∧ pendingGroup (up 5) 3 = false)
    ∧ (let s : State := { up 5 with cat := { (up 5).cat with pendCommit := [(3, some 9)] } }
    WriteReaches s (.fw 1) 0xF003 1 0 3 ∧ pendingGroup s 3 = true) :=
  ⟨⟨reaches_sound (by decide +kernel), by decide⟩, reaches_sound (by decide +kernel), by decide⟩
theorem witness_CommitsTakeEffect_accept : (let s := cvSet 0xF004 1 2 (2 ^ 24 - 1) (up 5)
    2 < 256 ∧ 2 ^ 24 - 1 < 2 ^ 24 ∧ 2 ^ 24 - 1 = cv s 0xF004 1 2 % 2 ^ 24 ∧ WriteReaches s (.fw 1) 0xF001 1 0 (2 + 256 * (2 ^ 24 - 1)) ∧ pendingGroup s 2 = false
    ∧ AMap.get none s.cat.accepted 2 = none) :=
  ⟨by decide, by decide, by decide, reaches_sound (by decide +kernel), by decide, by decide⟩
theorem witness_CommitsTakeEffect_validation : (let s : State := { up 5 with cat := { (up 5).cat with accepted := [(2, some 5), (3, some 5)] } }
    (AMap.get none s.cat.accepted 2).isSome ∧ lowestFailure (failures2 s) = none ∧ (AMap.get none s.cat.accepted 3).isSome) := by decide +kernel
/-- A purse rate over what may be assigned fails the validation. -/
theorem witness_CommitsTakeEffect_failure : (let s : State := { up 5 with cat := { (up 5).cat with accepted := [(2, some 5)], shadow := [(catKey 0x2010 1 1, some (2 ^ 31))] } }
    (AMap.get none s.cat.accepted 2).isSome = true ∧ (lowestFailure (failures2 s)).isSome = true) := by decide +kernel
/-- Group 2 applies at the boundary of round 1, and not one tick before. -/
theorem witness_CommitsTakeEffect_apply : (let s : State := { up 1280 with cat := { (up 5).cat with pendCommit := [(2, some 1)], shadow := [(catKey 0x2010 1 1, some 9)] } }
    AMap.get none s.cat.pendCommit 2 = some 1 ∧ atBoundary s = true ∧ 1 ≤ curRound s ∧ catKey 0x2010 1 1 ∉ [catKey 0xF002 1 2, catKey 0xF002 2 2]
    ∧ AMap.get none s.cat.shadow (catKey 0x2010 1 1) = some 9 ∧ inGroup 2 (catKey 0x2010 1 1) = true ∧ AMap.wf none s.cat.shadow = true)
    ∧ (let s : State := { up 1279 with cat := { (up 5).cat with pendCommit := [(2, some 1)] } }
    AMap.get none s.cat.pendCommit 2 = some 1 ∧ (atBoundary s = false ∨ curRound s < 1))
    ∧ (let s : State := { up 1280 with cat := { (up 5).cat with sweepDue := [(1, 0, 0)] } }
    s.cat.sweepDue = [(1, 0, 0)] ∧ 0 ≠ 9 ∧ 1 ≤ curRound s)
    ∧ (∀ x ∈ ({ up 1279 with cat := { (up 5).cat with sweepDue := [(1, 0, 0)] } } : State).cat.sweepDue, x.2.1 ≠ 9 → curRound (up 1279) < x.1) := by decide

/-! ## Witnesses: catalogue messages, attestation and firmware -/

theorem witness_CatalogueMessages : isMctp (.i3c 8) = true ∧ served (up 5) (.i3c 8) 0x1010 false = some none ∧ served (up 5) (.i3c 8) 0x1010 true = some none
    ∧ (entryOf 0x1010 5 255).any (fun r => holds (up 5) (.i3c 8) r.priv r.inst 0x1010 255 && r.acc != 2 && r.acc != 0 && !isBlob r && decide (r.len ≤ 1024)
        && decide (r.len = [(1 : Byte)].length) && writerOk (.i3c 8) 0x1010 5 && expertOk (up 5) r 0x1010 255
        && decide ((writeWhole r 0x1010 255 [1] (up 5)).1 = OK)) = true := by decide +kernel
/-- No entry at an unassigned subindex, at an instance past the last, at an unassigned index (R7); an endpoint of the host port holds
no ADMIN. -/
theorem witness_CatalogueMessages_refusals : entryOf 0x1010 255 0 = none ∧ entryOf 0x1010 5 256 = none ∧ entryOf 0x0FFF 1 0 = none
    ∧ (entryOf 0x1010 5 255).any (fun r => !holds (cvSet 0xF011 1 0 0 (up 5)) (.vdm 8) r.priv r.inst 0x1010 255) = true ∧ served (cvSet 0xF011 1 0 0 (up 5)) (.vdm 8) 0x1010 false = some none := by decide +kernel

theorem witness_Attestation : isMctp (.i3c 8) = true ∧ attestServed (up 5) (.i3c 8) = some none ∧ 1024 ≤ 1024 ∧ (List.replicate 32 (0 : Byte)).length = 32
    ∧ (let s : State := { up 5 with sec := { (up 5).sec with reserveR := 1024, sigNext := 1048575 } }
    (∀ r ∈ s.sec.reports, r.bytes ≠ none) ∧ s.sec.lastReport = none ∧ debugIsOpen s = false ∧ s.sec.lifecycle ≠ 2 ∧ s.sec.sigNext < 1048576 ∧ s.sec.sigNext ≠ s.sec.reserveR)
    ∧ (up 5).sec.challenge ≠ some [] := by decide
theorem witness_Attestation_reports : (let r : Report := { rq := .i3c 8, body := [], q := 1023, bytes := none, round := 0 }
    let s : State := { up 5 with sec := { (up 5).sec with reports := [r], tree := 1 } }
    (∀ r ∈ s.sec.reports, r.rq = .i3c 8 → r.bytes = none) ∧ s.sec.reports.find? (fun r => r.bytes.isNone) = some r ∧ debugIsOpen s = false ∧ r.q / 1024 < s.sec.tree)
    ∧ (let r : Report := { rq := .i3c 8, body := [], q := 0, bytes := some [0], round := 0 }
    let s : State := { up 5 with sec := { (up 5).sec with reports := [r] } }
    s.sec.reports.find? (fun r => r.rq == .i3c 8 && decide (curRound s < r.round + 78125)) = some r ∧ r.bytes = some [0])
    ∧ debugIsOpen { up 5 with sec := { (up 5).sec with debugOpen := true } } = true := by decide
/-- The bottom trees: the next one is built, and the one after it from leaf index 512. -/
theorem witness_Attestation_trees : (debugIsOpen (up 5) = false ∧ (up 5).sec.tree < 1024 ∧ (up 5).sec.tree ≤ (up 5).sec.sigNext / 1024)
    ∧ (let s : State := { up 5 with sec := { (up 5).sec with tree := 1, sigNext := 512 } }
    s.sec.tree < 1024 ∧ (s.sec.tree = s.sec.sigNext / 1024 + 1 ∧ 512 ≤ s.sec.sigNext % 1024)) := by decide

theorem witness_FirmwareWrites : (served (up 5) (.i3c 8) 0xA010 true = some none ∧ 0 < [(7 : Byte)].length ∧ 0 + [(7 : Byte)].length ≤ 1048576 ∧ holds (up 5) (.i3c 8) 2 0 0xA010 0 = true
    ∧ fwState (up 5) ≠ 2 ∧ fwState (up 5) ≠ 5 ∧ asmOf (up 5) { rq := .i3c 8, idx := 0xA010, sub := 1, inst := 0, off := 0, len := 1, flags := 2 } = [])
    ∧ (let s := cvSet 0xA010 3 0 1 (up 5)
    WriteReaches s (.i3c 8) 0xA010 2 0 1 ∧ fwState s = 1 ∧ halted s 0 = false ∧ WriteReaches s (.i3c 8) 0xA010 2 0 3 ∧ fwState s ∈ [1, 3, 4, 6])
    ∧ (let s := cvSet 0xA010 3 0 3 (up 5)
    WriteReaches s (.i3c 8) 0xA010 2 0 2 ∧ fwState s = 3 ∧ startPhase s ≠ 4 ∧ devicePaused s = false ∧ (∀ g, g < 6 → pendingGroup s g = false) ∧ (∀ c, c < 19 → halted s c = false)
    ∧ s.fw.phase = 0) :=
  ⟨by decide +kernel, ⟨reaches_sound (by decide +kernel), by decide, by decide, reaches_sound (by decide +kernel), by decide⟩,
    reaches_sound (by decide +kernel), by decide, by decide, by decide, by decide, by decide, by decide⟩

/-- A handoff in `phase`. -/
def handoff (phase tick : Nat) : State := cvSet 0xA010 3 0 5 { up tick with fw := { (up tick).fw with phase := phase } }
/-- The prepare bound of 64 rounds, at its last round and one on. -/
theorem witness_HandoffsMoveComponents_stages : (fwState (cvSet 0xA010 3 0 2 (up 5)) = 2 ∧ verifyImage (cvSet 0xA010 3 0 2 (up 5)) [] 0 = 2)
    ∧ (let s := handoff 1 (1280 * 64 - 1)
    s.fw.phase = 1 ∧ curRound s < s.fw.accepted + 64)
    ∧ (let s := handoff 1 (1280 * 64)
    s.fw.phase = 1 ∧ s.fw.accepted + 64 ≤ curRound s ∧ fwState s = 5)
    ∧ ((handoff 2 1280).fw.phase = 2 ∧ atBoundary (handoff 2 1280) = true) ∧ ((handoff 3 5).fw.phase = 3 ∧ (handoff 3 5).fw.secDone = false) := by decide +kernel
theorem witness_HandoffsMoveComponents_moves : (let s := handoff 3 1280
    atBoundary s = true ∧ fwState s = 5 ∧ s.fw.phase = 3
    ∧ moveOrder.zipIdx.filter (fun x => decide (moveRound s x.2 ≤ curRound s) && !(comp s x.1).moved) = (3, 0) :: [])
    ∧ (let s := handoff 3 (1280 * 312)
    let t : State := { s with fw := { s.fw with secDone := true, comps := (List.range 18).map (fun c => (c + 1, { moved := true })) } }
    atBoundary t = true ∧ fwState t = 5 ∧ t.fw.phase = 3 ∧ allMoved t = true ∧ t.fw.secDone = true ∧ t.fw.p0 + 19 ≤ curRound t ∧ cv t 0x1020 2 ≤ now t)
    ∧ (let s := handoff 4 1280
    let t : State := { s with fw := { s.fw with comps := [(3, { moved := true }), (4, { moved := true })] } }
    t.fw.phase = 4 ∧ t.fw.accepted ≠ curRound t ∧ (moveOrder.filter (fun c => (comp t c).moved)).getLast? = some 4)
    ∧ ((handoff 4 0).fw.phase = 4 ∧ atBoundary (handoff 4 0) = true ∧ fwState (handoff 4 0) = 5 ∧ (handoff 4 0).fw.accepted = curRound (handoff 4 0)) := by decide +kernel
theorem witness_ComponentFaults : running (up 5) = true ∧ 18 < 19 ∧ halted (up 5) 18 = false ∧ (comp (up 5) 18).restart = none ∧ fwState (up 5) ≠ 5 ∧ (up 5).fw.phase = 0
    ∧ 19 ≤ 19 ∧ (let s : State := { up (1280 * 64) with fw := { (up 0).fw with comps := [(18, { restart := some 0 })] } }
    running s = true ∧ halted s 18 = false ∧ (comp s 18).restart = some 0 ∧ curRound s ≤ 0 + 64) := by decide

/-! ## Witnesses: the Gate -/

/-- An entry's bytes: opcode, class, awaited tally, OPA, OPB and ARGS. -/
def entry (op cls wait opa opb args : Nat) : BitVec 512 :=
  BitVec.ofNat 512 (op + cls * 2 ^ 9 + 7 * 2 ^ 16 + wait * 2 ^ 32 + opa * 2 ^ 128 + opb * 2 ^ 192 + args * 2 ^ 256)
def none16 : Nat := 0xFFFF
/-- A share of 8 slots of port 0, of each HBM stack, of column 0 of cluster 0, and of the gather and search calendars. -/
def shares : Nat := 2 ^ (128 * 72) + 2 ^ (128 * 232) + 2 ^ (128 * 241) + 2 ^ (128 * 242) + (List.range 8).foldl (fun n k => n + 2 ^ (128 * k)) 0
def base0 : Nat := nodeNumber (up 0) * 2 ^ 50
/-- The nonzero bytes of `l` from an offset. -/
def cells (off : Nat) (l : List Byte) : List Host.Cell := (l.zipIdx.filter (fun x => x.1 != 0)).map (fun x => (off + x.2, x.1))
/-- Stall 1 with room for 16 commands, tallies 0 to 3, shares, a purse, extents 0 (pinned) and 1 (backed), and context 5, enabled, on
port 0, which is UP; `l` stored in HBM. -/
def assets (l : List Host.Cell) : State :=
  let t := setCtx 5 { state := 1, reserved := 1 } <| cvSet 0x3030 1 5 1 <| cvSet 0x9100 1 5 0 <| cvSet 0x9100 3 5 16 <| cvSet 0x9100 5 5 16 <| cvSet 0x3000 1 1 1 <|
    cvSet 0x1010 1 1 16 <| cvSet 0x1010 4 1 100 <| cvSet 0x9010 1 0 2 <| cvSet 0x3010 1 1 shares <| cvSet 0x3013 2 1 4 <| cvSet 0x2010 1 1 1000 <| cvSet 0x2010 3 1 1000 <|
    setExt 0 { state := 1, stall := 1 } <| setExt 1 { state := 1, stall := 1, backed := true } <| up 1285
  { t with mem := { t.mem with hbm := l }, port := { t.port with upRound := [(0, some 0)] } , gate := { t.gate with balance := [(1, 100000)] } }
/-- The entries `es` arrive from context 5. -/
def asks (es : List (BitVec 512)) (s : State) : State :=
  { s with gate := { s.gate with intake := [{ ctx := 5, stall := 1, tick := now s, pos := 0, entries := es }] } }
/-- The arrival is decided and accepted. -/
def accepts (fits : Arrival → Bool) (s : State) : Bool :=
  match oldest s 5 with
  | none => false
  | some a => running s && gateOpened s && fits a && mayDecide s a.stall && decide (a.chan = none) && decide (jointsOf s a = []) &&
    match screen a s with
    | .inr _ => false
    | .inl (cls, cmds, t) => cmds.all (fun x => !remoteCmd s x) && (match book (localTry a cls cmds s) (decTick s a.stall) t with | .inr _ => true | .inl _ => false)
theorem accepts_sound {fits : Arrival → Bool} {s : State} (h : accepts fits s = true) : ∃ a u q, GateAccepts fits 5 s a u q := by
  unfold accepts at h
  split at h
  · cases h
  · rename_i a ha
    simp only [Bool.and_eq_true, decide_eq_true_eq] at h
    obtain ⟨⟨⟨⟨⟨⟨h1, h2⟩, h3⟩, h0⟩, h4⟩, h5⟩, h6⟩ := h
    split at h6
    · cases h6
    · rename_i cls cmds t hs
      simp only [Bool.and_eq_true, List.all_eq_true] at h6
      obtain ⟨h7, h8⟩ := h6
      split at h8
      · rename_i x hx
        exact ⟨a, x.1, x.2, ha, h1, h2, h3, h0, h4, h5, cls, cmds, t, hs, fun c hc => by simpa using h7 c hc, hx⟩
      · cases h8
/-- Table 0 of stall 1: rows of 8 bytes of format 0x02 at a stride of 64. -/
def table0 (s : State) : State := cvSet 0x7100 1 0 1 <| cvSet 0x7100 2 0 8 <| cvSet 0x7100 3 0 2 <| cvSet 0x7100 4 0 64 <| cvSet 0x3011 1 1 1 s
/-- A batch of one bag with one index over table 0, its arrays in extent 0. -/
def batch : Nat := ((List.range 15).foldl (fun n j => n + 0xFFFF * 2 ^ (784 + 16 * j)) 0) + (base0 + 65536) * 2 ^ 704 + (base0 + 16384) * 2 ^ 576
  + (base0 + 20480) * 2 ^ 512 + 2 ^ 480 + 2 ^ 448 + 64 * 2 ^ 384 + 2 ^ 368 + 0xFFFF * 2 ^ 352
def gatherState : State :=
  let s := table0 (assets (cells 0 (leBytes 128 batch)))
  { s with emb := { s.emb with tables := [(0, { valid := true, slots := [(base0 + 8192, 16, 0, 0), (0, 0, 0, 0), (0, 0, 0, 0), (0, 0, 0, 0)] })] } }
/-- Collection 0 of stall 1: two centroids of one dimension. -/
def coll0 (s : State) : State := cvSet 0x7900 1 0 1 <| cvSet 0x7900 2 0 1 <| cvSet 0x7900 3 0 1 <| cvSet 0x7900 4 0 1 <| cvSet 0x7900 5 0 0 <| cvSet 0x7900 7 0 2 <|
  cvSet 0x7900 8 0 4 <| cvSet 0x7900 9 0 1 <| cvSet 0x7900 0x0A 0 (base0 + 2 ^ 20) <| cvSet 0x7900 0x0B 0 (base0 + 2 ^ 29) <| cvSet 0x7900 0x0C 0 2 <|
  cvSet 0x7900 0x0D 0 (base0 + 2 ^ 30) <| cvSet 0x7900 0x0E 0 1 <| s
/-- One query with one probe given. -/
def query1 : Nat := (base0 + 2 ^ 16) * 2 ^ 960 + (base0 + 2 ^ 17) * 2 ^ 896 + (base0 + 2 ^ 18) * 2 ^ 832 + (base0 + 2 ^ 19) * 2 ^ 704 + 2 ^ 672 + 2 ^ 656 + 2 ^ 640
  + 2 ^ 624 + 0xFFFF * 2 ^ 592 + 2 ^ 567
/-- A segment of one column for one round. -/
def segment1 : Nat := 1 + 2 ^ 16 + 2 ^ 24 + 2 ^ 32 + 2 ^ 48 + 2 ^ 64 + 100 * 2 ^ 96 + 2 ^ 128 + 4096 * 2 ^ 192 + 64 * 2 ^ 256 + 60000 * 2 ^ 448 + 60000 * 2 ^ 464
def barrow1 : Nat := base0 * 2 ^ 448 + (base0 + 4096) * 2 ^ 384 + 64 * 2 ^ 320 + 0xFFFF * 2 ^ 304 + 2 ^ 296 + 2 ^ 294

theorem witness_GateAccepts_chain : ∃ a u q, GateAccepts isChain 5 (asks [entry 0x0C 1 none16 0 0 (3 + 5 * 2 ^ 64) ||| 256#512, entry 0x0D 1 none16 0 0 0] (assets [])) a u q :=
  accepts_sound (by decide +kernel)
theorem witness_GateAccepts_gatherBags : ∃ a u q, GateAccepts (isOp 0x01) 5 (asks [entry 0x01 2 none16 base0 0 0] gatherState) a u q := accepts_sound (by decide +kernel)
theorem witness_GateAccepts_search : ∃ a u q, GateAccepts (isOp 0x02) 5 (asks [entry 0x02 2 none16 base0 0 0] (coll0 (assets (cells 0 (leBytes 128 query1))))) a u q :=
  accepts_sound (by decide +kernel)
theorem witness_GateAccepts_insertVectors : ∃ a u q, GateAccepts (isOp 0x03) 5 (asks [entry 0x03 2 none16 base0 0 (0xFFFF * 2 ^ 16 + 2 ^ 32)] (coll0 (assets []))) a u q :=
  accepts_sound (by decide +kernel)
theorem witness_GateAccepts_deleteVectors : ∃ a u q, GateAccepts (isOp 0x04) 5 (asks [entry 0x04 2 none16 base0 0 (0xFFFF * 2 ^ 16 + 2 ^ 32)] (coll0 (assets []))) a u q :=
  accepts_sound (by decide +kernel)
theorem witness_GateAccepts_runSegment : ∃ a u q, GateAccepts (isOp 0x05) 5 (asks [entry 0x05 2 none16 base0 0 0xFFFF] (assets (cells 0 (leBytes 64 segment1)))) a u q :=
  accepts_sound (by decide +kernel)
theorem witness_GateAccepts_copy : ∃ a u q, GateAccepts (isOp 0x06) 5 (asks [entry 0x06 1 none16 base0 (base0 + 4096) (64 + 0xFFFF * 2 ^ 64)] (assets [])) a u q :=
  accepts_sound (by decide +kernel)
theorem witness_GateAccepts_barrow : ∃ a u q, GateAccepts (isOp 0x07) 5 (asks [entry 0x07 1 none16 base0 0 0] (assets (cells 0 (leBytes 64 barrow1)))) a u q :=
  accepts_sound (by decide +kernel)
theorem witness_GateAccepts_publish : ∃ a u q, GateAccepts (isOp 0x08) 5 (asks [entry 0x08 1 none16 base0 0 (0xFFFF * 2 ^ 16)]
    (cvSet 0x4020 1 0 1 (cvSet 0x4020 2 0 4096 (assets [])))) a u q := accepts_sound (by decide +kernel)
theorem witness_GateAccepts_tableSwitch : ∃ a u q, GateAccepts (isOp 0x09) 5 (asks [entry 0x09 1 none16 base0 0 (0xFFFF * 2 ^ 32 + 1 * 2 ^ 64)] (table0 (assets []))) a u q :=
  accepts_sound (by decide +kernel)
theorem witness_GateAccepts_setSwitch : ∃ a u q, GateAccepts (isOp 0x0A) 5 (asks [entry 0x0A 1 none16 base0 0 (1 + 2 ^ 16 + 0xFFFF * 2 ^ 32)]
    (cvSet 0x1010 6 1 2000 (cvSet 0x7100 5 0 1 (table0 (assets (cells 0 (leBytes 24 (2 ^ 128 + base0 * 2 ^ 64)))))))) a u q := accepts_sound (by decide +kernel)
theorem witness_GateAccepts_tallyWait : ∃ a u q, GateAccepts (isOp 0x0B) 5 (asks [entry 0x0B 1 0x10000 0 0 0] (assets [])) a u q := accepts_sound (by decide +kernel)
theorem witness_GateAccepts_tallyAdd : ∃ a u q, GateAccepts (isOp 0x0C) 5 (asks [entry 0x0C 1 none16 0 0 (3 + 5 * 2 ^ 64)] (assets [])) a u q := accepts_sound (by decide +kernel)
theorem witness_GateAccepts_fence : ∃ a u q, GateAccepts (isOp 0x0D) 5 (asks [entry 0x0D 2 none16 0 0 0] (assets [])) a u q := accepts_sound (by decide +kernel)
theorem witness_GateAccepts_invalidateXlate : ∃ a u q, GateAccepts (isOp 0x0E) 5 (asks [entry 0x0E 2 none16 0 0 (5 * 2 ^ 128)] (assets [])) a u q :=
  accepts_sound (by decide +kernel)
theorem witness_GateAccepts_extentClose : ∃ a u q, GateAccepts (isOp 0x0F) 5 (asks [entry 0x0F 2 none16 0 0 (1 + 0xFFFF * 2 ^ 32)] (assets [])) a u q :=
  accepts_sound (by decide +kernel)
/-- A catalogue request of HEAT_ENABLE of stall 1. -/
def catAsk (op args : Nat) : State := asks [entry op 1 none16 base0 0 (0x5840 + 3 * 2 ^ 16 + 2 ^ 32 + args)] (assets [])
theorem witness_GateAccepts_catalogue : (∃ a u q, GateAccepts (isCat (catAsk 0x80 (2 ^ 96)) 0x80) 5 (catAsk 0x80 (2 ^ 96)) a u q)
    ∧ (∃ a u q, GateAccepts (isCat (catAsk 0x81 (2 ^ 96 + 2 * 2 ^ 128)) 0x81) 5 (catAsk 0x81 (2 ^ 96 + 2 * 2 ^ 128)) a u q)
    ∧ (∃ a u q, GateAccepts (isCat (catAsk 0x82 0) 0x82) 5 (catAsk 0x82 0) a u q) :=
  ⟨accepts_sound (by decide +kernel), accepts_sound (by decide +kernel), accepts_sound (by decide +kernel)⟩

/-- Pact 255 between stalls 1 and 2 in a state, with expert access. -/
def pactOn (state : Nat) (s : State) : State :=
  cvSet 0xF010 1 1 1 <| cvSet 0xF010 1 2 1 <| cvSet 0x3000 1 1 1 <| cvSet 0x3000 1 2 1 <| cvSet 0x3040 2 255 1 <| cvSet 0x3040 3 255 2 <| cvSet 0x3040 8 255 state s
def pact (state : Nat) : State := pactOn state (up 0)
/-- Context 5 of stall 1 writes CONSENT_A of the pact, the value from HBM. -/
def consentAsk (state given : Nat) (v : Byte) : State :=
  asks [entry 0x81 1 none16 base0 0 (0x3040 + 6 * 2 ^ 16 + 255 * 2 ^ 32 + 2 ^ 96 + 2 * 2 ^ 128)] (cvSet 0x3040 6 255 given (pactOn state (assets (cells 0 [v]))))
theorem witness_StallsAndConsents_consents :
    (∃ a u q, GateAccepts (carries (consentAsk 1 0 1) 0x3040 6 255 0 (leBytes 1 1)) 5 (consentAsk 1 0 1) a u q)
    ∧ (∃ a u q, GateAccepts (carries (consentAsk 2 1 0) 0x3040 6 255 0 (leBytes 1 0)) 5 (consentAsk 2 1 0) a u q)
    ∧ (cv (consentAsk 2 1 0) 0x3040 6 255 = 1 ∧ cv (consentAsk 2 1 0) 0x3040 8 255 = 2 ∧ cv (consentAsk 1 0 1) 0x3040 6 255 = 0) :=
  ⟨accepts_sound (by decide +kernel), accepts_sound (by decide +kernel), by decide⟩
/-- The context's oldest request is the write that the row names, or another one. -/
theorem witness_StallsAndConsents_rows : (entryOf 0x3040 6 255).any (fun r => r.len == 1) = true
    ∧ (oldest (consentAsk 1 0 1) 5).any (fun a => carries (consentAsk 1 0 1) 0x3040 6 255 0 (leBytes 1 1) a && !carries (consentAsk 1 0 1) 0x3040 7 255 0 (leBytes 1 1) a) = true := by
  decide +kernel

/-- Two entries ready in the queue of context 5, in extent 0: a FENCE and a TALLY_ADD. -/
def queued (es : List (BitVec 512)) : State :=
  setCtx 5 { state := 1, cqTail := 2 } (cvSet 0x9100 2 5 base0 (assets (es.zipIdx.flatMap (fun x => cells (64 * x.2) (leBytes 64 x.1.toNat)))))
def fence1 : BitVec 512 := entry 0x0D 1 none16 0 0 0
theorem witness_EntriesAreFetched : (let s := queued [fence1, fence1]
    running s = true ∧ gateOpened s = true ∧ nextCtx s 1 = some 5 ∧ AMap.get none s.gate.lastFetch 1 = none ∧ (readAll 5 [0] s).1 = false ∧ (requestOf s 5).length = 1
    ∧ (undecided (readAll 5 [0] s).2 1).length < 16 ∧ nextCtx s 2 = none ∧ (ctxOf s 5).state = 1 ∧ (ctxOf s 5).cqTail ≠ (ctxOf s 5).cqTaken)
    ∧ (∀ e ∈ requestOf (queued [fence1, fence1]) 5, knownOp (Entry.opcode e) = true) := by
  refine ⟨by decide +kernel, fun e he => ?_⟩
  have h : (requestOf (queued [fence1, fence1]) 5).all (fun e => Entry.opcode e == 0x0D) = true := by decide +kernel
  have h' : Entry.opcode e = 0x0D := by simpa using List.all_eq_true.mp h e he
  rw [h']; decide
/-- A chain of two, `k` ticks after the last read. -/
def queuedAfter (k : Nat) : State :=
  let s := queued [fence1 ||| 256#512, fence1]
  { s with gate := { s.gate with lastFetch := [(1, some (1285 - k))] } }
theorem witness_EntriesAreFetched_chain : (requestOf (queuedAfter 8) 5).length = 2 ∧ nextCtx (queuedAfter 8) 1 = some 5 ∧ 1285 - 8 + 4 * 2 ≤ now (queuedAfter 8)
    ∧ nextCtx (queuedAfter 7) 1 = some 5 ∧ 1285 - 7 ≤ now (queuedAfter 7) ∧ now (queuedAfter 7) < 1285 - 7 + 4 * 2
    ∧ (readAll 5 [0, 1] (queuedAfter 8)).1 = false := by decide +kernel

/-- Refused: a TALLY_ADD of a tally of another stall, PROTECTION; the same arrival is no FENCE. -/
theorem witness_GateRefusesRequests : (let s := asks [entry 0x0C 1 none16 0 0 (4 + 5 * 2 ^ 64)] (assets [])
    (oldest s 5).isSome = true ∧ running s = true ∧ gateOpened s = true ∧ mayDecide s 1 = true
    ∧ mayDecide { s with gate := { s.gate with lastDecision := [(1, some (now s - 3))] } } 1 = false
    ∧ (∀ a ∈ (oldest s 5).toList, isOp 0x0C a = true ∧ isOp 0x0D a = false ∧ (match screen a s with | .inr (x, d, _) => x == PROTECTION && d == 0 | .inl _ => false) = true)) := by decide +kernel
/-- A COPY to node 1, where a link towards it is UP. -/
def toNode1 : State :=
  let s := (List.range 32).foldl (fun t l => cvSet 0x8110 1 l 2 t) (assets [])
  asks [entry 0x06 1 none16 base0 ((nodeNumber s + 1) * 2 ^ 50) (64 + 0xFFFF * 2 ^ 64)] (cvSet 0x8120 1 0 0 s)
theorem witness_GateRefusesRequests_remote : (∀ a ∈ (oldest toNode1 5).toList, isOp 0x06 a = true
    ∧ (match screen a toNode1 with | .inl (_, cmds, _) => cmds.any (remoteCmd toNode1) | .inr _ => false) = true) ∧ (oldest toNode1 5).isSome = true := by decide +kernel

/-! ## Witnesses: parts, completion records and joint bookings -/

/-- One accepted command, in slot 0 of round 0. -/
def cmd1 (w : Work) : Cmd := { opcode := 0x0C, work := w }
def oneReq (c : Cmd) (s : State) : State := withReq (reqWith 5 [c]) s
/-- A command of slot 0 of round 1, at the first tick of that round and one tick sooner; its wait met and not met. -/
theorem witness_PartsStart : (let c := { cmd1 .tallyWait with startSlot := 1024 }
    let s := oneReq c (up 1280)
    reqOf s 1 = some (reqWith 5 [c]) ∧ cmdOf s 1 0 = some c ∧ mayStart s (reqWith 5 [c]) c = true ∧ c.deferred = false ∧ waitMet s c = true
    ∧ mayStart (oneReq c (up 1279)) (reqWith 5 [c]) c = false ∧ waitMet s { c with waitTally := 0, waitTarget := 1 } = false)
    ∧ (let c := { cmd1 (.tallyAdd 0 5) with deferred := true }
    let s := oneReq c (up 1280)
    cmdOf s 1 0 = some c ∧ mayStart s (reqWith 5 [c]) c = true ∧ c.deferred = true ∧ waitMet s c = true ∧ c.work = .tallyAdd 0 5) := by decide
theorem witness_PartsStart_publish : (let c := { cmd1 (.publish 0 none16 0 base0) with deferred := true }
    let s := oneReq c (cvSet 0x4020 1 0 1 (cvSet 0x4020 2 0 4096 (assets [])))
    cmdOf s 1 0 = some c ∧ mayStart s (reqWith 5 [c]) c = true ∧ waitMet s c = true ∧ firstFail (publishChecks (markStarted (reqWith 5 [c]) 0 s) 1 0 0 base0) = none)
    ∧ (let c := cmd1 (.setSwitch 1 1 none16 0 base0)
    let s := oneReq c (up 5)
    (reqWith 5 [c]).cmds = [c] ∧ mayStart s (reqWith 5 [c]) c = true ∧ waitMet s c = true) := by decide +kernel

theorem witness_PartsEnd_done : (let c := { cmd1 (.fence false 0) with started := true }
    let s := oneReq c (up 1285)
    reqOf s 1 = some (reqWith 5 [c]) ∧ cmdOf s 1 0 = some c ∧ workDone s (reqWith 5 [c]) 0 c = true)
    ∧ workDone (oneReq (cmd1 (.fence false 0)) (up 1285)) (reqWith 5 [cmd1 (.fence false 0)]) 0 (cmd1 (.fence false 0)) = false
    ∧ (∀ x, ({ cmd1 (.fence false 0) with started := true } : Cmd).work ≠ .xfer x) :=
  ⟨by decide +kernel, by decide +kernel, fun _ h => by simp [cmd1] at h⟩
def copy64 : Xfer := { src := base0, dst := base0 + 4096, count := 64, tally := none16, packet := false, vSrc := false, vDst := false, prio := 0 }
theorem witness_PartsEnd_transfer : (let c := { cmd1 (.xfer copy64) with started := true, delivered := 64, endSlot := 9999 }
    let s := oneReq c (assets [])
    cmdOf s 1 0 = some c ∧ c.status = none ∧ 0 < partCount copy64.count ∧ bit c.parts 0 = false ∧ remoteDst s copy64 = false
    ∧ min ((0 + 1) * partSize copy64.count) copy64.count ≤ c.delivered ∧ (∀ p ∈ partPieces s 5 copy64 0, snpsOpen s (offOf p.1) p.2 = false)
    ∧ (hbmRange 1 5 ((offOf ((partPieces s 5 copy64 0).getLastD (copy64.dst, 1)).1 + ((partPieces s 5 copy64 0).getLastD (copy64.dst, 1)).2 - 1) / 64 * 64) 64 true s).1 = none)
    ∧ (63 : Nat) < min ((0 + 1) * partSize copy64.count) copy64.count := by
  decide +kernel
/-- A side command's last slot, at the tick it ends; a part's, at that tick and one sooner. -/
theorem witness_PartsEnd_slots : (let c := { cmd1 (.side false 4095 0xFFFF 1 base0 1 false) with started := true, endSlot := 3 }
    let s := oneReq c (up 5)
    cmdOf s 1 0 = some c ∧ 4095 < 65536 ∧ 1 < 65536 ∧ c.status = none ∧ slotEndTick c.endSlot ≤ now s ∧ cSeq s 4095 < 1 ∧ now (up 4) < slotEndTick c.endSlot
    ∧ ({ c with status := some FAULT_MEMORY } : Cmd).status ≠ none)
    ∧ (let c := { cmd1 (.xfer copy64) with endSlot := 3 }
    c.status = none ∧ c.deferred = false ∧ slotEndTick c.endSlot ≤ now (up 5) ∧ servedAll (up 5) (reqWith 5 [c]) 0 c = false
    ∧ servedAll (up 5) (reqWith 5 [c]) 0 { c with started := true, delivered := 64 } = true ∧ (inject 0x0B 1 1 (!armed (up 5) 0x0B 1) (up 5)).1 = none ∧ now (up 4) < slotEndTick c.endSlot ∧ c.started = false)
    ∧ ({ cmd1 (.xfer copy64) with started := true } : Cmd).started = true ∧ 2 ^ 64 - 1 < 2 ^ 64 := by decide +kernel

/-- A request whose command ended OK in its booked round, and one round sooner; one that failed. -/
theorem witness_CompletionRecords : (let q := reqWith 5 [{ cmd1 .tallyWait with started := true, status := some OK }]
    let u := settleReq 1 (withReq q (up 1280))
    reqOf u 1 = some q ∧ q.peerTicket = none ∧ q.chan = none ∧ chainFailed q = false ∧ allOver q = true ∧ reqStatus q = OK ∧ mayRecord u q = true
    ∧ (let v := settleReq 1 (withReq q (up 1279))
    reqOf v 1 = some q ∧ mayRecord v q = false))
    ∧ (let q := { reqWith 5 [{ cmd1 .tallyWait with started := true, status := some OK }] with peerTicket := some 9 }
    let u := settleReq 1 (withReq q (up 1280))
    reqOf u 1 = some q ∧ mayRecord u q = true ∧ q.peerTicket = some 9)
    ∧ (let q := reqWith 5 [{ cmd1 .tallyWait with started := true, status := some BUSY }, cmd1 .tallyWait]
    let u := settleReq 1 (withReq q (up 1280))
    reqOf u 1 = some q ∧ chainFailed q = true ∧ allOver (abandon (fun _ => true) q) = true ∧ reqStatus (abandon (fun _ => true) q) ≠ OK ∧ mayRecord u (abandon (fun _ => true) q) = true) := by decide +kernel

/-- A query for 64 bytes of this node's extent 0, for stall 1, from node `n`. -/
def query (n : Nat) : QueryMsg :=
  { origin := n, ticket := 9, stall := 1, cls := 1, prio := 0, src := n * 2 ^ 50, dst := base0, length := 64, tally := 0, packet := false, limit := 200000 }
def linked : State :=
  let s := (List.range 32).foldl (fun t l => cvSet 0x8110 1 l 2 t) (assets [])
  let t := cvSet 0x3010 1 1 (shares + (List.range 32).foldl (fun n l => n + 2 ^ (128 * (200 + l))) 0) (cvSet 0x8120 1 0 0 s)
  { t with twine := { t.twine with links := (List.range 32).map (fun l => (l, { upRound := some 0 })) } }
theorem witness_BookingQueriesAndReplies_refused : (let s := linked
    running s = true ∧ gateOpened s = true ∧ linkUp s 0 = true ∧ jointAt s 9 false = none ∧ nodeOf (query 1).dst = nodeNumber s ∧ mayDecide s (query 1).stall = true
    ∧ (nodeOf ({ query 1 with dst := 2 ^ 51 } : QueryMsg).src ≠ nodeNumber s ∧ nodeOf ({ query 1 with dst := 2 ^ 51 } : QueryMsg).dst ≠ nodeNumber s ∧ cv s 0x8120 2 ≠ 1)
    ∧ (match heldChecks s { query 1 with stall := 2 } with | .bad x _ => x == PROTECTION | .good _ => false) = true) := by decide +kernel
/-- The query is decided and booked. -/
def held (s : State) (m : QueryMsg) : Bool :=
  let dt := decTick s m.stall
  let a := (dt + confirmHold s) / 1280
  match heldChecks s m with
  | .bad _ _ => false
  | .good c => match bookHeld { rid := s.gate.nextRid, cmd := 0, stall := m.stall, bulk := m.cls == 2, maxR := heldLast s m a } 0 dt a c (heldReq m dt c s) (a + 1) (placePeer m) s with
    | .inr _ => true
    | .inl _ => false
theorem witness_BookingQueriesAndReplies_held : linkUp linked 0 = true ∧ jointAt linked 9 false = none ∧ nodeOf (query 1).dst = nodeNumber linked ∧ held linked (query 1) = true := by
  decide +kernel
/-- Context 5's arrival with a query for it sent at tick 1285. -/
def joint1 : Joint := { ticket := 9, node := 1, origin := true, ctx := 5, link := 0, sent := 1285, q := query 1 }
def posted (tick : Nat) : State :=
  let s := up tick
  { s with gate := { s.gate with intake := [{ ctx := 5, stall := 1, tick := 1285, pos := 0, entries := [], posted := true }], joints := [joint1] } }
theorem witness_BookingQueriesAndReplies_replies : (let s := posted 1285
    let j' := { joint1 with replied := true, replyTick := now s, status := BUSY, d := 0, rate := 0 }
    running s = true ∧ gateOpened s = true ∧ now s ≤ joint1.sent + 2 * jointTb s joint1 + 150 ∧ mayDecide s joint1.q.stall = true ∧ jointAt s 9 true = some joint1 ∧ joint1.rid = 0 ∧ joint1.replied = false ∧ jointAt s 9 false = none ∧ BUSY ≠ OK ∧ (arrivalOf (setJoint 9 true (fun _ => j') s) j').isSome = true)
    ∧ (let other := { joint1 with ticket := 10, cmd := 1 }
    let s : State := { posted 1285 with gate := { (posted 1285).gate with joints := [joint1, other] } }
    let j' := { joint1 with replied := true, replyTick := now s, status := OK, d := 3000, rate := 0 }
    let s1 := setJoint 9 true (fun _ => j') s
    jointAt s 9 true = some joint1 ∧ ∀ b ∈ (arrivalOf s1 j').toList, other ∈ jointsOf s1 b ∧ other.replied = false)
    ∧ (let b := joint1.sent + 2 * jointTb (posted 0) joint1 + 150
    b < now (posted (b + 1)) ∧ (arrivalOf (posted (b + 1)) joint1).isSome = true ∧ now (posted b) ≤ b) := by decide +kernel

/-- A part held for node 1, replied to at tick 1285: the last tick of its hold and the first after it. -/
def joint2 : Joint := { joint1 with origin := false, rid := 1, replied := true, replyTick := 1285 }
def peer (j : Joint) (tick : Nat) : State :=
  let s := withReq { reqWith 0xFFFF [] with peerTicket := some 9 } (up tick)
  { s with gate := { s.gate with joints := [j] } }
theorem witness_ConfirmHoldExpiry : (let s := peer joint2 (1285 + confirmHold (up 0) + 1)
    jointAt s 9 false = some joint2 ∧ joint2.replied = true ∧ joint2.confirmed = false ∧ joint2.replyTick + confirmHold s < now s ∧ (reqOf s joint2.rid).isSome = true)
    ∧ (let s := peer joint2 (1285 + confirmHold (up 0))
    jointAt s 9 false = some joint2 ∧ now s ≤ joint2.replyTick + confirmHold s)
    ∧ jointAt (peer { joint2 with confirmed := true } 5) 9 false = some { joint2 with confirmed := true } := by decide +kernel
theorem witness_JointPartsEnd : (let s := peer joint2 (1285 + confirmHold (up 0))
    jointAt s 9 false = some joint2 ∧ joint2.rid ≠ 0 ∧ joint2.confirmed = false ∧ now s ≤ joint2.replyTick + confirmHold s ∧ jointAt s 9 true = none)
    ∧ (let j := { joint1 with rid := 1, bound := 2000 }
    let c := cmd1 (.xfer { copy64 with dst := 2 ^ 50 })
    let s : State := { oneReq c (up 2000) with gate := { (oneReq c (up 2000)).gate with joints := [j] } }
    let s1 := setJoint 9 true (fun j => { j with done := true }) s
    jointAt s 9 true = some j ∧ j.rid ≠ 0 ∧ j.done = false ∧ (reqOf s1 j.rid).isSome = true ∧ cmdOf s1 j.rid j.cmd = some c ∧ c.status = none ∧ remoteDst s { copy64 with dst := 2 ^ 50 } = true
    ∧ remoteDst s copy64 = false ∧ j.bound ≤ now s ∧ now s ≤ j.bound ∧ j.bound < now (up 2001) ∧ now (up 1999) < j.bound) := by decide +kernel

/-! ## Witnesses: the windows -/

/-- Agent 0 and context 16383 of stall 1, with mover channel 255 and tally 16383. -/
def windows : State :=
  cvSet 0x5010 1 0 1 <| cvSet 0x9100 1 16383 0 <| cvSet 0x3030 1 16383 1 <| cvSet 0x9100 3 16383 16 <| cvSet 0x3000 1 1 1 <| cvSet 0x3014 1 1 (2 ^ 255) <|
  cvSet 0x3013 1 1 16383 <| cvSet 0x3013 2 1 1 <| setCtx 16383 { state := 1, crWritten := 2 } <| up 5
theorem witness_WindowAccesses : gateOpened windows = true ∧ 16383 < 16384 ∧ ownsPage windows (.agent 0) 16383 = true
    ∧ (let x := ctxOf windows 16383
    let v : Word64 := 16 + 2 * 2 ^ 32
    x.state = 1 ∧ ((BitVec.ofNat 32 v.toNat : Word32) - x.cqTaken).toNat ≤ cv windows 0x9100 3 16383
    ∧ (x.crWritten - (BitVec.ofNat 32 (v.toNat / 2 ^ 32) : Word32)).toNat ≤ (x.crWritten - x.crHead).toNat)
    ∧ 255 < 256 ∧ accStall windows (.agent 0) = some 1 ∧ ownsChan windows 1 255 = true ∧ ¬(1 ≤ moverState (moverOf windows 255) ∧ moverState (moverOf windows 255) ≤ 3)
    ∧ (1 ≤ moverState { status := 0x300 } ∧ moverState { status := 0x300 } ≤ 3) ∧ reachesTally windows 1 16383 = true ∧ tickSum windows 16383 = 0 := by decide +kernel
theorem witness_WindowAccesses_refused : ownsPage windows (.agent 1) 16383 = false ∧ reachesTally windows 1 16382 = false
    ∧ gateOpened { windows with clk := { windows.clk with memActive := false } } = false := by decide +kernel

/-! ## Witnesses: porters -/

/-- Porter 255 running for the command of request 1, with its stall's pages of memory, and the bytes `code` at its pc. -/
def porter1 (code : List Byte) (x : Porter) : State :=
  let s := oneReq { cmd1 .tallyWait with started := true } (cvSet 0x3012 1 1 (0xFFFF * 2 ^ (640 * 15 + 416 + 16 * 7)) (assets []))
  let t := setPorter 255 { x with run := 1, stall := 1, rid := 1, ctx := 5 } s
  { t with mem := { t.mem with bank := cells (tcmBase 255) code } }
/-- ADDI x1, x1, 5 and LUI x1, 5: their halves, and 0x0001, a compressed NOP; 0x0000 is no instruction. -/
theorem witness_PorterInstructions : porterLive (porter1 [] {}) 255 = true ∧ porterLive (up 5) 255 = false
    ∧ (let s := porter1 [0x93, 0x80, 0x50, 0x00] {}
    (fetchHalf 255 0 s).1 = .val 0x8093 ∧ 0x8093 % 4 = 3 ∧ (fetchHalf 255 2 (fetchHalf 255 0 s).2).1 = .val 0x0050 ∧ 0x508093 % 128 = 0x13 ∧ bits 0x508093 14 12 = 0)
    ∧ (let s := porter1 [0x93, 0x80, 0x50, 0x00] {}
    tcmOk s 255 0 = true ∧ tcmOk s 255 2 = true ∧ s.mem.ueWords.contains (tcmBase 255 / 8) = false ∧ armed s 0x02 (porterOf s 255).stall = false ∧ armed s 0x03 0 = false
    ∧ leNat (readTcm s 255 0 2) % 4 = 3 ∧ leNat (readTcm s 255 0 2) + leNat (readTcm s 255 2 2) * 2 ^ 16 = 0x508093)
    ∧ (fetchHalf 255 0 (porter1 [0xB7, 0x50, 0x00, 0x00] {})).1 = .val 0x50B7 ∧ 0x50B7 % 128 = 0x37
    ∧ ((fetchHalf 255 0 (porter1 [1, 0] {})).1 = .val 1 ∧ 1 % 4 ≠ 3 ∧ (expandC 1).isSome = true)
    ∧ ((fetchHalf 255 0 (porter1 [] {})).1 = .val 0 ∧ expandC 0 = none)
    ∧ (match (fetchHalf 255 (0x10000 : Nat) (porter1 [] {})).1 with | .trap _ => true | _ => false) = true := by decide +kernel
/-- x1 = 0xFFFC0000 over window 3, which aperture 3 maps to extent 0; x2 = 1. -/
def porter2 (a : Nat) : State := porter1 [] { regs := [(1, BitVec.ofNat 32 a), (2, 1)], csrs := [(0x806, 1)] }
theorem witness_TileControlAndTallyWaits_lines : (let s := porter2 0xE0000040
    let x := porterOf s 255
    loadUse 255 (tileWord 1 2 1 0 0) s = s ∧ rget x 2 = 1 ∧ (∃ ga byp, placeOf 255 (rget x 1 / 64 * 64 + 64 * 0) false s = (.line ga byp, s) ∧ offOf ga / 64 = 1)
    ∧ porterSnps (drainAll 255 s) 255 = false ∧ x.sb = []) :=
  ⟨rfl, by decide +kernel, ⟨nodeNumber (up 0) * 2 ^ 50 + 64, false, by decide +kernel, by decide +kernel⟩, by decide +kernel, by decide +kernel⟩
theorem witness_TileControlAndTallyWaits : (let s := porter2 0xE0000040
    let x := porterOf s 255
    porterLive s 255 = true ∧ reachesTally s x.stall (rget x 2) = true ∧ reachesTally s x.stall (rget x 1) = false ∧ 2 % 2 = 0 ∧ 3 % 2 = 1)
    ∧ (let t : State := { porter2 0xE0000040 with coh := { snps := [{ agent := 127, line := 3, kind := 2, tick := 0, req := 0, porter := 256 }] } }
    porterLive t 255 = true ∧ porterSnps (drainAll 255 t) 255 = true)
    ∧ (let s := porter2 0
    let t : State := { s with fab := { s.fab with runB := { s.fab.runB with spans := [{ col := 127, start := 0, last := 0, first := 0, stall := 1, rid := 1, cmd := 0 }] } } }
    porterLive t 255 = true ∧ 7 < 8 ∧ (partColumns t 255).contains 7 = true ∧ (partColumns t 255).contains 6 = false)
    ∧ (porterOf (porter1 [] { sb := [{ line := 1, mask := 1, data := 5 }] }) 255).sb = [{ line := 1, mask := 1, data := 5 }] := by decide +kernel
/-- TC.TWAIT at its bound's first tick, and one sooner. -/
def waits (tick value : Nat) : State :=
  setTally 1 { value := BitVec.ofNat 64 value } (setPorter 255 { run := 3, tw := some (3, 1, 7, 0), csrs := [(0x808, BitVec.ofNat 32 (cyclesPerTick (up 0) * 10))] } (up tick))
theorem witness_TallyWaits : (porterOf (waits 10 6) 255).tw = some (3, 1, 7, 0) ∧ (porterOf (waits 10 6) 255).run = 3 ∧ reached (waits 10 7) 1 7 = true
    ∧ (now (waits 10 7) - 0) * cyclesPerTick (waits 10 7) ≤ (AMap.get 0 (porterOf (waits 10 7) 255).csrs 0x808).toNat
    ∧ (AMap.get 0 (porterOf (waits 11 7) 255).csrs 0x808).toNat < (now (waits 11 7) - 0) * cyclesPerTick (waits 11 7) ∧ reached (waits 10 6) 1 7 = false
    ∧ (AMap.get 0 (porterOf (waits 10 6) 255).csrs 0x808).toNat ≤ (now (waits 10 6) - 0) * cyclesPerTick (waits 10 6)
    ∧ (now (waits 9 6) - 0) * cyclesPerTick (waits 9 6) < (AMap.get 0 (porterOf (waits 9 6) 255).csrs 0x808).toNat := by decide +kernel
/-- Atomics on 4 and 8 bytes that complete: every operation, on a line of extent 0, near or far as the predictor says; and far, with
nothing of the line held. -/
theorem witness_PorterAtomics : (let s := porter2 0xE0000040
    let x := porterOf s 255
    porterLive s 255 = true ∧ (∀ op, op < 8 → (porterAmo 255 op 4 (rget x 1) (rget x 2) (rget x 2) s).1 = .val 0) ∧ 2 % 2 = 0
    ∧ (∀ op, op < 7 → (porterAmo 255 op 8 (rget x 1) (pget x 2) (pget x 2) s).1 = .val 0) ∧ 3 % 2 = 1) := by decide +kernel
theorem witness_PorterAtomics_far : (let s := cvSet 0x5000 1 1 1 (porter2 0xE0000040)
    let x := porterOf s 255
    let off := 64
    loadUse 255 (tileWord 0 2 1 4 2) s = s ∧ rget x 1 % 8 = 0 ∧ placeOf 255 (rget x 1) true s = (.line (nodeNumber s * 2 ^ 50 + off) false, s) ∧ off % 64 + 8 ≤ 64
    ∧ x.amo = 0 ∧ x.amoAt = none ∧ x.sb.all (fun e => e.line != off / 64) = true ∧ s.coh.snps = [] ∧ s.coh.reqs = [] ∧ s.coh.waits = []
    ∧ s.fab.porters.all (fun y => y.1 == 255 || y.2.amoAt.isNone) = true ∧ homeOrdered s x.stall = true ∧ (extRec s (extOf off)).stall = x.stall
    ∧ (extRec s (extOf off)).backed = false ∧ lookupEnt s x.stall off = none ∧ amoFar (porterCluster 255) x.stall off s = true ∧ rangeBad s (64 * (off / 64)) 64 = false
    ∧ armed s 0x00 x.stall = false ∧ armed s 0x01 0 = false) := ⟨rfl, by decide +kernel⟩

/-! ## Witnesses: cluster streams -/

/-- Column 120, column 0 of cluster 15, in a span of slots 0 to 9 of round 1, at field `f` with operation row `r`. -/
def span1 : Span := { col := 120, start := 0, last := 9, first := 0, stall := 1, rid := 1, cmd := 0 }
def streams (st : Nat) (f : Nat) (r : Nat) (tick : Nat) : State :=
  let s := oneReq { cmd1 .tallyWait with started := true } (up tick)
  { s with fab := { s.fab with runB := { fields := [(120 * 2 ^ 14, BitVec.ofNat 28 f)], opRows := [(120 * 256 + 1, BitVec.ofNat 256 r)], spans := [span1] },
                               cols := if st = 0 then [] else [(120, { active := st == 1, span := some span1 })], ready := [(15 * 1024 + 3, 7)] } }
/-- The span's first tick; its last slot's end and one tick sooner; a bank at the tick it is ready and one sooner. -/
theorem witness_SpansStartAndOverrun : (let s := streams 0 0 0 1280
    nextSpan s 120 = some span1 ∧ (colSt s 120).active = false ∧ slotBegun s (curRound s * 1024 + span1.start) = true ∧ spanOver s span1 = false ∧ nextSpan s 0 = none)
    ∧ (let s := streams 1 0 0 (slotEndTick (1024 + 9))
    (colSt s 120).span = some span1 ∧ spanOver s span1 = true ∧ (colSt s 120).active = true ∧ spanDead s span1 = false)
    ∧ (let s := streams 2 0 0 (slotEndTick (1024 + 9))
    let t := setPorter 241 { run := 3, rid := 1, stall := 1 } s
    (colSt t 120).span = some span1 ∧ spanOver t span1 = true ∧ (colSt t 120).active = false ∧ porterRuns t span1 120 = true ∧ spanDead t span1 = false
    ∧ porterRuns s span1 120 = false)
    ∧ spanOver (streams 1 0 0 (slotEndTick (1024 + 9) - 1)) span1 = false
    ∧ (bankReadyAt (streams 1 0 0 7) 15 3 ≠ 0 ∧ bankReadyAt (streams 1 0 0 7) 15 3 ≤ now (streams 1 0 0 7) ∧ now (streams 1 0 0 6) < bankReadyAt (streams 1 0 0 6) 15 3) := by
  decide +kernel
/-- A field of operation 1 on every engine under predicate `p`. -/
def field1 (op p : Nat) : Nat := op * 2 ^ 20 + 15 * 2 ^ 16 + p * 2 ^ 12
theorem witness_ColumnsRunTheirFields : (∀ cls, cls < 4 →
      (let s := streams 1 (field1 1 0) ((cls + 1) * 2 ^ 252) 1280
      curField s 120 = some (span1, field1 1 0) ∧ (checkField 15 0 span1 s).1 = true ∧ spanDead s span1 = false ∧ predBit s 120 0 = true ∧ fOp (field1 1 0) ≠ 0 ∧ fOp (field1 1 0) ≠ 0xFE
      ∧ oClass (opRowOf s 120 (fOp (field1 1 0))) = cls + 1))
    ∧ (curField (streams 1 (field1 0 0) 0 1280) 120 = some (span1, field1 0 0) ∧ fOp (field1 0 0) = 0)
    ∧ (curField (streams 1 (field1 1 3) (2 ^ 253) 1280) 120 = some (span1, field1 1 3) ∧ predBit (streams 1 (field1 1 3) (2 ^ 253) 1280) 120 3 = false)
    ∧ (curField (streams 1 (field1 0xFE 0) 0 1280) 120 = some (span1, field1 0xFE 0) ∧ fOp (field1 0xFE 0) = 0xFE) := by decide +kernel
/-- The mover of cluster 15 at a field of row `r`. -/
def mover1 (op r : Nat) : State :=
  let s := oneReq { cmd1 (.segment (segOf base0 none16 false segment1)) with started := true } (up 1280)
  { s with fab := { s.fab with runB := { movers := [(15 * 2 ^ 14, BitVec.ofNat 16 (op * 256))], moveRows := [(15 * 256 + op, BitVec.ofNat 256 r)], spans := [span1] },
                               cols := [(120, { active := true, span := some span1 })], movs := [(15, { rep := 1 })] } }
theorem witness_MoversRunTheirFields : (∀ d, d < 3 →
      (let s := mover1 1 ((d + 1) * 2 ^ 252)
      movSpan s 15 = some span1 ∧ skipNops s 1 15 16384 (movSt s 15).pos = 0 ∧ mOp 256 ≠ 0xFE ∧ mDir ((d + 1) * 2 ^ 252) = d + 1 ∧ (checkField 15 0 span1 s).1 = true
      ∧ (let t := setMov 15 { pos := nextPos (checkField 15 0 span1 s).2 1 120 0, rep := 1 } (checkField 15 0 span1 s).2
      cmdOf t 1 0 = some { cmd1 (.segment (segOf base0 none16 false segment1)) with started := true } ∧ spanDead t span1 = false ∧ predBit t 120 0 = true)))
    ∧ (let s := mover1 0xFE 0
    movSpan s 15 = some span1 ∧ skipNops s 1 15 16384 (movSt s 15).pos = 0 ∧ mOp (0xFE * 256) = 0xFE) := by decide +kernel

/-! ## Witnesses: flash -/

def frameF : Nat := (List.range 64).find? (fun f => flashChannel (up 0) (65536 * f) == 63) |>.getD 0
/-- A write-back of frame `f` to slot 256 on channel 63, with `k` programs begun. -/
def wb1 (f k : Nat) : Wb := { frame := f, stall := 1, chan := 63, slot := 256, begins := [], lastRound := 0, begun := k }
def flash1 (w : List Wb) (fr : AMap (Option CFrame)) (b : AMap Block) : State :=
  let s := normal 1280
  { s with store := { s.store with wbs := w, frames := fr, blocks := b } }
/-- A page transfer of channel 63 booked for round `n`. -/
def transfer63 (n : Nat) (s : State) : State := { s with gate := { s.gate with books := [{ rid := 9, stall := 1, cal := calFlash 63, round := n, slots := [0] }] } }
/-- Stall 0 with a balance. -/
def paid (s : State) : State := { s with gate := { s.gate with balance := [(0, 10 ^ 6)] } }
theorem witness_FlashReadsAndWritebacks : (let s := transfer63 3 (flash1 [] [] [])
    63 < 64 ∧ 3 < 4 ∧ arrayDue s 63 257 = true ∧ lunBusy s 63 (lunOf s 63 1) = false)
    ∧ (let s := transfer63 3 (flash1 [wb1 7 1] [] [])
    arrayDue s 63 257 = true ∧ lunBusy s 63 (lunOf s 63 1) = true ∧ lunOf s 63 1 ∉ (chanOf s 63).suspended)
    ∧ arrayDue (transfer63 4 (flash1 [] [] [])) 63 257 = false
    ∧ (let s := flash1 [wb1 7 1] [] []
    findWb s 1 7 = some (wb1 7 1) ∧ (wb1 7 1).begun < 4 ∧ (wb1 7 1).begun ≠ 0 ∧ (wb1 7 1).chan = 63)
    ∧ (0 ∈ (chanOf (setChan 63 { suspended := [0] } (up 5)) 63).suspended ∧ 1 ∉ (chanOf (setChan 63 { suspended := [0] } (up 5)) 63).suspended)
    ∧ (let s := flash1 [wb1 7 4] [] []
    findWb s 1 7 = some (wb1 7 4) ∧ 4 ≤ (wb1 7 4).begun ∧ (programInjected (wb1 7 4) s).2 = false)
    ∧ (blockOf (flash1 [] [] [(63 * 2 ^ 26 + 1, { state := 3 })]) 63 1).state = 3
    ∧ (let s := flash1 [] [(7, some { stall := 1, state := 3, freeRound := 1 })] []
    cframe s 7 = some { stall := 1, state := 3, freeRound := 1 } ∧ 1 ≤ curRound s ∧ findWb s 1 7 = none ∧ AMap.get 0 s.store.ceCount 0 < cv s 0x4050 9)
    ∧ (cframe (flash1 [] [(7, some { stall := 1, state := 3, freeRound := 2 })] []) 7 = some { stall := 1, state := 3, freeRound := 2 } ∧ curRound (flash1 [] [] []) < 2) := by
  decide +kernel
set_option exponentiation.threshold 600
theorem witness_FlashLogWork : (let s := setChan 63 { rebuilt := true, open_ := 9 } (flash1 [] [] [(63 * 2 ^ 26 + 1, { state := 1 })])
    63 < 64 ∧ chanState s 63 = 1 ∧ cv s 0x4041 3 63 < 64 ∧ devicePaused s = false ∧ (chanOf s 63).rebuilt = true ∧ (∀ e ∈ s.store.blocks, e.1 / 2 ^ 26 = 63 → e.2.state ≠ 4)
    ∧ leastFull ((usedBlocks s 63).filter (fun x => !blockKept s 63 x.1)) = some (1, 0) ∧ 0 < 256)
    ∧ (let s := setChan 63 { rebuilt := true } (flash1 [] [] [])
    chanState s 63 = 1 ∧ (∀ x ∈ usedBlocks s 63, 256 ≤ x.2))
    ∧ 64 ≤ cv (cvSet 0x4041 3 63 64 (up 5)) 0x4041 3 63
    ∧ (let s := flash1 [] [] [(63 * 2 ^ 26 + 1, { state := 3, erase := 1 })]
    (blockOf s 63 1).state = 3 ∧ (blockOf s 63 1).erase ≤ curRound s ∧ (blockOf s 63 1).erases + 1 < cv s 0x4040 5 ∧ chanState s 63 = 1 ∧ armed s 0x05 0 = false
    ∧ (∀ e ∈ s.ext.recs, e.2.backed = false))
    ∧ (blockOf (flash1 [] [] []) 63 1).state ≠ 3
    ∧ (let s := flash1 [] [] [(63 * 2 ^ 26 + 1, { state := 3, erase := 2 })]
    curRound s < (blockOf s 63 1).erase)
    ∧ (let s := { paid (flash1 [] [] []) with store := { (flash1 [] [] []).store with mapping := [(frameF, 2 ^ 31 + 5)], mapBad := [0] } }
    frameAt s 63 5 = some frameF ∧ frameAt s 63 6 = none)
    ∧ (let a := setChan 63 { ckptArea := some 1, ckptEnd := 0 } (up 1280)
    (chanOf a 63).ckptArea = some 1 ∧ (chanOf a 63).ckptLeft = 0 ∧ (chanOf a 63).ckptEnd < curRound a)
    ∧ (let a := setChan 63 { ckptArea := some 1, ckptEnd := 1 } (up 1280)
    curRound a ≤ (chanOf a 63).ckptEnd ∧ (chanOf (up 5) 63).ckptArea = none)
    ∧ (let s : State := { up 5 with store := { (up 5).store with mapBad := [1] } }
    0 ∉ s.store.mapBad ∧ 1 ∈ s.store.mapBad ∧ (∀ f, f < 64 → chanState s f ≠ 1 ∧ chanState s f ≠ 2)) := by decide +kernel
/-- The reads of a recovery can be booked. -/
theorem witness_FlashLogWork_recovery : (let s := { paid (flash1 [] [] []) with store := { (flash1 [] [] []).store with mapping := [(frameF, 2 ^ 31 + 5)] } }
    frameAt s 63 5 = some frameF ∧ (bookLog (chanRid 63) 63 7 0 0 s).isSome = true) := by decide +kernel
/-- One channel answers, and a page read of it can be booked. -/
theorem witness_FlashLogWork_rebuild : (let s := paid (cvSet 0x4041 5 63 1 (up 5))
    let t : State := { s with store := { s.store with mapBad := [1] } }
    1 ∈ t.store.mapBad ∧ (∀ f, f < 64 → ((chanState t f = 1 ∨ chanState t f = 2) ↔ f = 63)) ∧ (bookLog (chanRid 63) 63 1 0 0 t).isSome = true) := by decide +kernel

/-! ## Witnesses: extents, stalls and pacts that go -/

/-- EXTENT_REVOKE of a backed extent, its sweep booked: the one clause that runs the calendar search. -/
theorem witness_ExtentRevoke_closes : (let s := setExt 3 { state := 1, stall := 1, backed := true } (st1 5)
    WriteReaches s (.fw 1) 0x4010 2 0 3 ∧ (extRec s 3).state = 1 ∧ drainsActive s < 1024 ∧ (closeExtent 3 0xFFFF s).isSome = true) :=
  ⟨reaches_sound (by decide +kernel), by decide, by decide, by decide +kernel⟩
/-- An accepted command that touches the extent promised more than 65,536 rounds on: no sweep can be booked. -/
theorem witness_ExtentRevoke_unbooked : (let s := withReq { reqWith 5 [{ cmd1 .tallyWait with exts := [3] }] with promise := 2 ^ 40 } (setExt 3 { state := 1, stall := 1, backed := true } (st1 5))
    WriteReaches s (.fw 1) 0x4010 2 0 3 ∧ closeExtent 3 0xFFFF s = none) :=
  ⟨reaches_sound (by decide +kernel), by decide +kernel⟩
/-- A closing extent whose drain is over, its sweep booked for a late round and bookable earlier. -/
theorem witness_ExtentsAndStallsAreSwept_drain : ∀ n, n = 9999 ∨ n = 1 → (let r : ExtRec := { state := 2, backed := true, stall := 1, sweep := [n] }
    let s := setExt 3 r (up 5)
    (extRec s 3).state = 2 ∧ (extRec s 3).drain = 0 ∧ (extRec s 3).rebooked = false ∧ (extRec s 3).sweep ≠ [] ∧ (∀ x ∈ (extRec s 3).sweep, curRound s < x)
    ∧ (match bookSweep 3 true (curRound s + 1) (dropBookings (sweepRid 3) s) with
      | some (l, _) => decide (n = 9999 ∧ maxOf l ≤ maxOf r.sweep ∨ n = 1 ∧ maxOf r.sweep < maxOf l) | none => false) = true) := by
  intro n h
  rcases h with rfl | rfl <;> decide +kernel
/-- A sweep's first round; the round after its last; a stall that drains at a boundary. -/
theorem witness_ExtentsAndStallsAreSwept_sweep : (let s := setExt 3 { state := 2, sweep := [1, 4] } (up 1280)
    (extRec s 3).state = 2 ∧ (extRec s 3).drain = 0 ∧ (extRec s 3).sweep = 1 :: [4] ∧ 1 ≤ curRound s)
    ∧ (extRec (setExt 3 { state := 2, rebooked := true } (up 5)) 3).rebooked = true
    ∧ (extRec (setExt 3 { state := 2, drain := 1 } (up 5)) 3).drain ≠ 0
    ∧ (let s := setExt 3 { state := 3, sweep := [1, 4], dirty := true } (up (1280 * 5))
    let t : State := { s with store := { s.store with recWrites := [(3, 5), (4, 6)] } }
    (extRec s 3).state = 3 ∧ (extRec s 3).sweep ≠ [] ∧ (∀ x ∈ (extRec s 3).sweep, x < curRound s) ∧ (extRec s 3).closeTally = 0xFFFF ∧ (extRec (up 5) 3).sweep = []
    ∧ AMap.get 0 t.store.recWrites 3 ≠ 0 ∧ AMap.get 0 t.store.recWrites 3 ≤ curRound t ∧ curRound t < AMap.get 0 t.store.recWrites 4)
    ∧ (let s := cvSet 0x3000 1 255 2 (up 1280)
    255 < 256 ∧ stallState s 255 = 2 ∧ atBoundary s = true ∧ trackInUse s 255 = 0 ∧ extCount s 255 = 0 ∧ AMap.get 0 s.gate.lastPromise 255 ≤ now s ∧ (∀ b ∈ s.gate.books, b.stall = 255 → b.round < curRound s))
    ∧ (let s := cvSet 0x3000 1 255 3 (up 1280)
    let t : State := { s with cat := { s.cat with sweepDue := [(1, 9, 255)] } }
    0 < 255 ∧ stallState t 255 = 3 ∧ atBoundary t = true ∧ (1, 9, 255) ∈ t.cat.sweepDue ∧ 1 ≤ curRound t) := by decide +kernel

theorem witness_PactsComeAndGo : (let s := cvSet 0x3040 6 255 1 <| cvSet 0x3040 7 255 1 <| cvSet 0x3040 1 255 4 <| cvSet 0x3013 2 1 4 <| pact 1
    255 < 65536 ∧ cv s 0x3040 8 255 = 1 ∧ atBoundary s = true ∧ cv s 0x3040 6 255 = 1 ∧ cv s 0x3040 7 255 = 1 ∧ pactObjectOk s 255 = true ∧ stallState s (cv s 0x3040 2 255) = 1
    ∧ stallState s (cv s 0x3040 3 255) = 1)
    ∧ (cv (pact 1) 0x3040 6 255 ≠ 1 ∨ cv (pact 1) 0x3040 7 255 ≠ 1)
    ∧ (cv (pact 3) 0x3040 8 255 = 3 ∧ atBoundary (pact 3) = true ∧ AMap.get [] (pact 3).err.pactEnd 255 = [])
    ∧ (let s : State := { pact 3 with err := { (pact 3).err with pactEnd := [(255, [0])] } }
    cv s 0x3040 8 255 = 3 ∧ AMap.get [] s.err.pactEnd 255 ≠ [] ∧ (∀ r ∈ AMap.get [] s.err.pactEnd 255, reqOf s r = none))
    ∧ (let s := withReq (reqWith 5 []) (pact 3)
    let t : State := { s with err := { s.err with pactEnd := [(255, [0, 1])] } }
    1 ∈ AMap.get [] t.err.pactEnd 255 ∧ reqOf t 1 ≠ none) := by decide +kernel

/-! ## Witnesses: restocks and translation -/

/-- An empty collection told to restock at a boundary: nothing to program. -/
theorem witness_Restocks_start : (let s := setColl 4095 { nowFlag := true } (coll 1)
    let c := collOf s 4095
    atBoundary s = true ∧ cActive s 4095 = true ∧ c.restock = 0 ∧ (cv s 0x7900 0x19 4095 ≤ sideRecords s 4095 ∨ c.nowFlag = true) ∧ devicePaused s = false
    ∧ (match bookRestock 4095 c.retireQ (planRestock 4095 (cSeq s 4095) c.retireQ s).1 s with
      | some (t, _) => decide ((chitSum t (restockRid 4095) : Int) ≤ balanceOf s (cOwner s 4095)) | none => false) = true) := by decide +kernel
/-- The switch at the round the lists are built by, and one sooner; the drain with the old slot not pinned, and pinned. -/
theorem witness_Restocks_stages : (let c : Coll := { restock := 1, builtBy := 1 }
    atBoundary (up 1280) = true ∧ (collOf (setColl 4095 c (up 1280)) 4095).restock = 1 ∧ c.builtBy ≤ curRound (up 1280) ∧ curRound (up 0) < c.builtBy ∧ c.restock ≠ 0)
    ∧ (let c : Coll := { restock := 2, cur := 1 }
    c.restock = 2 ∧ (c.slots.getD (1 - c.cur) (0, 0, 0)).2.1 = 0) ∧ (({ slots := [(0, 1, 0), (1, 0, 0)], cur := 1 } : Coll).slots.getD (1 - 1) (0, 0, 0)).2.1 ≠ 0 := by decide +kernel

def walk1 : PreWalk := { rid := 1, cmd := 0, index := 0, ctx := 5, stall := 1, va := 0, round := 1, write := false }
/-- A pre-walk of context 5 due in round 1; a table at 4,096 with a 1 GiB leaf under the root of profile 0, in extent 0. -/
def xlating (mode : Nat) : State :=
  let s := oneReq { cmd1 .tallyWait with started := true } (cvSet 0x5810 1 5 mode <| cvSet 0x5810 2 5 0 <| cvSet 0x5810 3 5 base0 <| cvSet 0x5810 5 5 0 <| assets (cells 0 (leBytes 8 0x401) ++ cells 4096 (leBytes 8 0x53)))
  { s with xl := { s.xl with walks := [walk1] } }
theorem witness_Translation_walks : (let s := xlating 2
    s.xl.walks.find? (fun w => w.rid == 1 && w.index == 0) = some walk1 ∧ walk1.done = false ∧ gateOpened s = true ∧ walk1.round ≤ curRound s ∧ (∀ a ∈ s.xl.ats, a.walk ≠ walk1)
    ∧ cmdOf s 1 walk1.cmd = some { cmd1 .tallyWait with started := true } ∧ (∃ k ∈ walkTargets walk1, tlbFind s walk1.ctx k walk1.va = none) ∧ cv s 0x5810 1 walk1.ctx = 2)
    ∧ cv (xlating 1) 0x5810 1 walk1.ctx ≠ 2 := by decide +kernel
/-- What the walk finds: no leaf, or one. -/
theorem witness_Translation_reads : (let s := xlating 1
    let p := cv s 0x5810 2 walk1.ctx
    let reads := if canonical p walk1.va then walkReads s walk1.stall walk1.ctx walk1.va (if p = 0 then 3 else 4) (cv s 0x5810 3 walk1.ctx) else []
    let r := walkInject walk1 reads (cvAdd 0x5841 2 walk1.stall 1 (act 1 walk1.stall 0 reads.length (walkDone walk1 s)))
    r.1 = false ∧ (match walkLeaf r.2 walk1.stall walk1.ctx walk1.va walk1.write with | .leaf _ _ _ _ _ => true | _ => false) = true) := by decide +kernel
/-- The bound of an ATS request, at its first tick, its last tick, and one before. -/
theorem witness_Translation_ats : (let b := cv (up 0) 0x5800 6
    let at_ := fun (tick : Nat) => { cvSet 0x5810 5 5 0 (up tick) with xl := { (up 0).xl with ats := [{ id := 1, walk := walk1, issued := 3 }] } }
    atsOf (at_ (3 + b)) 1 = some { id := 1, walk := walk1, issued := 3 } ∧ now (at_ (3 + b)) ≤ 3 + cv (at_ (3 + b)) 0x5800 6 ∧ 3 + cv (at_ (3 + b)) 0x5800 6 ≤ now (at_ (3 + b))
    ∧ now (at_ (2 + b)) < 3 + cv (at_ (2 + b)) 0x5800 6 ∧ (nodeMapped (at_ (3 + b)) 5 0).isSome = true) := by decide +kernel
theorem witness_Translation_invalidations : (let e : IqEnt := { stall := 1, va := 0, len := 4096, ctx := 5, drain := false, taken := 1279, queue := false }
    let s : State := { up 1280 with xl := { (up 0).xl with iq := [e] } }
    let t : State := { up 1280 with xl := { (up 0).xl with iq := [{ e with taken := 1280 }] } }
    atBoundary s = true ∧ s.xl.iq = [e] ∧ iqReady s e = true ∧ iqReady t { e with taken := 1280 } = false) := by decide +kernel

/-! ## One-step tests. The expected values are read from the rules, the RISC-V and FIPS documents named. -/

/-- The state a command answers, or the one it was given. -/
def after (i : Instr) (s : State) : State := match exec i s with | .next t => t | _ => s

/-- R29: bits 19 to 0 name the extent, 31 to 24 the stall. -/
theorem test_extentGrant_opens : (let t := after (.extentGrant (.fw 1) (3 + 2 ^ 24)) (st1 5)
    (extRec t 3).state = 1 ∧ (extRec t 3).stall = 1 ∧ (extRec t 3).backed = false ∧ (extRec t 2).state = 0) := by decide +kernel
/-- R29, check 3: a second extent is past a quota of one. -/
theorem test_extentGrant_quota : (let t := after (.extentGrant (.fw 1) (4 + 2 ^ 24)) (setExt 3 { state := 1, stall := 1 } (st1 5))
    (extRec t 4).state = 0) := by decide +kernel
/-- R213: a saturating ADD leaves the largest value and sets OVERFLOW; TALLY_OVERFLOWS rises by one. -/
theorem test_tallyAdd_saturates : (let s := setTally 16383 { value := BitVec.allOnes 64 - 2 } windows
    let t := after (.tallyAddWrite (.agent 0) 16383 3) s
    (tallyOf t 16383).value = BitVec.allOnes 64 ∧ (tallyOf t 16383).overflow = true ∧ cv t 0x5100 3 1 = 1) := by decide +kernel
/-- R209: a write of VALUE sets it and clears OVERFLOW. -/
theorem test_tallyValue_clears : (let t := after (.tallyValueWrite (.agent 0) 16383 9) (setTally 16383 { value := 1, overflow := true } windows)
    (tallyOf t 16383).value = 9 ∧ (tallyOf t 16383).overflow = false) := by decide +kernel
/-- R416: bits 31 to 0 are CQ_TAIL, 63 to 32 CR_HEAD. -/
theorem test_doorbell_fields : (let t := after (.doorbellWrite (.agent 0) 16383 0 [16, 0, 0, 0, 2, 0, 0, 0]) windows
    (ctxOf t 16383).cqTail = 16 ∧ (ctxOf t 16383).crHead = 2) := by decide +kernel
/-- RV32I: ADDI x1, x1, 5 with x1 = 0xFFFFFFFF wraps to 4 and moves the pc by 4. -/
theorem test_porter_addi : (let t := after (.porterInstruction 255) (porter1 [0x93, 0x80, 0x50, 0x00] { regs := [(1, 0xFFFFFFFF)] })
    AMap.get 0 (porterOf t 255).regs 1 = 4 ∧ (porterOf t 255).pc = 4) := by decide +kernel
/-- RV32I: LUI x1, 5. -/
theorem test_porter_lui : AMap.get 0 (porterOf (after (.porterInstruction 255) (porter1 [0xB7, 0x50, 0x00, 0x00] {})) 255).regs 1 = 0x5000 := by decide +kernel
/-- RV32C: C.ADDI x8, -1 (0x147D) with x8 = 0 gives 0xFFFFFFFF and moves the pc by 2. -/
theorem test_porter_c_addi : (let t := after (.porterInstruction 255) (porter1 [0x7D, 0x14] {})
    AMap.get 0 (porterOf t 255).regs 8 = 0xFFFFFFFF ∧ (porterOf t 255).pc = 2) := by decide +kernel
/-- RV32M: MULHU x3, x1, x2 of 2^31 and 6 gives 3. -/
theorem test_porter_mulhu : (let w := 0x33 + 3 * 2 ^ 7 + 3 * 2 ^ 12 + 2 ^ 15 + 2 * 2 ^ 20 + 2 ^ 25
    AMap.get 0 (porterOf (after (.porterInstruction 255) (porter1 (leBytes 4 w) { regs := [(1, 0x80000000), (2, 6)] })) 255).regs 3 = 3) := by decide +kernel
/-- An instruction that is none halts the porter with mcause 2 (RISC-V: illegal instruction). -/
theorem test_porter_illegal : (let t := after (.porterInstruction 255) (porter1 [] {})
    (porterOf t 255).run = 4 ∧ AMap.get 0 (porterOf t 255).csrs 0x342 = 2) := by decide +kernel
/-- FIPS 180-4: the digest of the empty message. -/
theorem test_sha256_empty : leNat (sha256 []).reverse = 0xe3b0c44298fc1c149afbf4c8996fb92427ae41e4649b934ca495991b7852b855 := by decide +kernel
/-- R110: a throttle's round is the next one. -/
theorem test_throttle_round : (after (.throttleEntry ⟨105, 800, 0⟩) (up 1279)).clk.throttleRound = 1 := by decide +kernel
/-- R512: DEVICE_RESET begins 2,560 ticks after the write. -/
theorem test_deviceReset_due : (after (.deviceReset (.fw 1) 1) (up 5)).clk.resetDue = some 2565 := by decide +kernel
/-- R114: STALL_REMOVE takes an ACTIVE stall to DRAINING. -/
theorem test_stallRemove : stallState (after (.stallRemove (.fw 1) 1) (st1 5)) 1 = 2 := by decide +kernel
/-- A step runs the command in front and leaves the rest. -/
theorem test_step_front : (match step { up 5 with pending := [.rstdaa, .enec 0] } with | .next t => t.pending == [.enec 0] | _ => false) = true := by decide +kernel
/-- A TALLY_ADD decided: the tally has advanced and one acceptance is counted. -/
theorem test_tallyAdd_request : (let t := after (.tallyAdd 5) (asks [entry 0x0C 1 none16 0 0 (3 + 5 * 2 ^ 64)] (assets []))
    (tallyOf t 3).value = 5 ∧ cv t 0x1011 1 1 = 1 ∧ t.gate.intake = []) := by decide +kernel

end Sys2Proof.Tests
end

namespace Sys2Proof.Machine
open Sys2Proof Sys2Proof.Safety

/-! ## A catalogue write that reaches check 7 -/

@[simp] theorem length_leBytes : ∀ n v : Nat, (leBytes n v).length = n
  | 0, _ => rfl
  | n + 1, v => congrArg (· + 1) (length_leBytes n (v / 256))

theorem catRow?_sub {idx sub : Nat} {r : CatRow} (h : catRow? idx sub = some r) : r.sub = sub := by
  simp only [catRow?] at h
  generalize catTable.find? _ = o at h
  cases o with
  | none => cases h
  | some e => simpa using List.find?_some h

/-- The row at an address carries that address's subindex. -/
theorem entryOf_sub {idx sub inst : Nat} {r : CatRow} (h : entryOf idx sub inst = some r) : r.sub = sub := by
  unfold entryOf at h
  by_cases hs : sub = 0
  · rw [if_pos hs] at h
    split at h
    · split at h
      · cases h; exact hs.symm
      · cases h
    · cases h
  · rw [if_neg hs] at h
    split at h
    case h_1 row hrow =>
      split at h
      · cases h; exact catRow?_sub hrow
      · cases h
    case h_2 => cases h

/-- The request of a FINAL write of the whole value of an entry of `len` bytes (R435). -/
def wholeReq (rq : Requester) (idx sub inst len : Nat) : CatReq :=
  { rq := rq, idx := idx, sub := sub, inst := inst, off := 0, len := len, flags := 2 }

/-- What a write decided as `x` leaves: its effect where it is OK, the state it found with the refusal counted elsewhere (R441, R456). -/
def decided (q : CatReq) (x : Nat × State) (s : State) : State := if x.1 = OK then x.2 else noteRefusal q x.1 s

variable {s : State} {rq : Requester} {idx sub inst v : Nat}

/-- Checks 5 and 6 pass, so check 7 decides. -/
theorem writeWhole_eq_writeValue {r : CatRow} (hv : v < 256 ^ r.len) (hrange : rangeOk s r idx inst v = true)
    (hquiet : r.app = 2 → quiesced s idx r.sub inst v = true) (hfree : r.app = 3 → pendingGroup s r.grp = false) :
    writeWhole r idx inst (leBytes r.len v) s = writeValue r idx inst v (leBytes r.len v) s := by
  have hq : ¬ (r.app = 2 ∧ (!quiesced s idx r.sub inst v) = true) := fun ⟨ha, hn⟩ => by simp [hquiet ha] at hn
  have hp : ¬ (r.app = 3 ∧ pendingGroup s r.grp = true) := fun ⟨ha, hn⟩ => by simp [hfree ha] at hn
  simp only [writeWhole, leNat_leBytes _ _ hv, hrange, Bool.not_true, Bool.false_eq_true, if_false, if_neg hq, if_neg hp]

/-- A whole write of no context is decided at once where the device serves it, and the decision answered. -/
theorem writeAs_of_served {data : List Byte} (hctx : ∀ c, rq ≠ .ctx c) (hserved : served s rq idx true = some none) :
    writeAs rq idx sub inst 0 data 4096 s = answer rq 0 (writeEntry (wholeReq rq idx sub inst data.length) data 4096 s).1 []
      (writeEntry (wholeReq rq idx sub inst data.length) data 4096 s).2 := by
  cases rq with
  | ctx c => exact absurd rfl (hctx c)
  | i3c _ | vdm _ | fw _ => simp only [writeAs, hserved, wholeReq]

/-- A write that passes checks 1 to 6 of R441 answers and leaves what the entry's own check 7 decides. -/
theorem catWriteAs_of_reaches (h : WriteReaches s rq idx sub inst v) :
    ∃ r, r.sub = sub ∧ let x := writeValue r idx inst v (leBytes r.len v) s
      catWriteAs rq idx sub inst v s = answer rq 0 x.1 [] (decided (wholeReq rq idx sub inst r.len) x s) := by
  obtain ⟨hctx, r, hr, hblob, hlen, hv, hserved, hholds, hwriter, hacc, hexp, hrange, hquiet, hfree⟩ := h
  have hsub : r.sub = sub := entryOf_sub hr
  have hcheck : writeCheck s (wholeReq rq idx sub inst r.len) 4096 = .inl r := by
    simp [writeCheck, wholeReq, hr, hholds, hwriter, hacc, hexp, hblob, Nat.not_lt.mpr hlen]
  have hvalue := writeWhole_eq_writeValue hv hrange (hsub ▸ hquiet) hfree
  have hentry : writeEntry (wholeReq rq idx sub inst r.len) (leBytes r.len v) 4096 s
      = ((writeValue r idx inst v (leBytes r.len v) s).1,
         decided (wholeReq rq idx sub inst r.len) (writeValue r idx inst v (leBytes r.len v) s) s) := by
    simp only [writeEntry, hcheck, hblob, Bool.false_and, Bool.false_eq_true, if_false]
    simp only [wholeReq, decided, hvalue]
  refine ⟨r, hsub, ?_⟩
  simp only [catWriteAs, hr, if_neg (Nat.not_le.mpr hv)]
  rw [writeAs_of_served hctx hserved, length_leBytes, hentry]

/-! ## EXTENT_REVOKE (R35) -/

/-- A record that is not all defaults reads back as set. -/
theorem extRec_setExt_same {e : Nat} {r : ExtRec} (h : r ≠ {}) (s : State) : extRec (setExt e r s) e = r :=
  AMap.get_set_same h ..

/-- An extent closed is CLOSING with the tally its close names. -/
theorem extRec_of_closeExtent {e tally b : Nat} {u : State} (h : closeExtent e tally s = some (b, u)) :
    (extRec u e).state = 2 ∧ (extRec u e).closeTally = tally := by
  unfold closeExtent at h
  dsimp only at h
  split at h
  case h_1 => cases h
  case h_2 =>
    cases h
    rw [touchExt, extRec_setExt_same (fun hd => by simpa using congrArg ExtRec.state hd)]
    exact ⟨rfl, rfl⟩

theorem extentRevoke_closes {e b : Nat} {u : State} (hopen : (extRec s e).state = 1) (hroom : drainsActive s < 1024)
    (hclose : closeExtent e 0xFFFF s = some (b, u)) : extentRevoke e s = (OK, u) := by
  have hno : ¬ ((extRec s e).state ≠ 1 ∨ 1024 ≤ drainsActive s) := by omega
  simp only [extentRevoke, if_neg hno, hclose]

theorem extentRevoke_busy {e : Nat}
    (h : (extRec s e).state ≠ 1 ∨ 1024 ≤ drainsActive s ∨ closeExtent e 0xFFFF s = none) : extentRevoke e s = (BUSY, s) := by
  by_cases hno : (extRec s e).state ≠ 1 ∨ 1024 ≤ drainsActive s
  · simp only [extentRevoke, if_pos hno]
  · have hnone : closeExtent e 0xFFFF s = none := (or_assoc.mpr h).resolve_left hno
    simp only [extentRevoke, if_neg hno, hnone]

theorem exec_extentRevoke_of_reaches {e : Nat} (h : WriteReaches s rq 0x4010 2 0 e) :
    ∃ q, exec (.extentRevoke rq e) s = .next (answer rq 0 (extentRevoke e s).1 [] (decided q (extentRevoke e s) s)) := by
  obtain ⟨r, hsub, hwrite⟩ := catWriteAs_of_reaches h
  have hvalue : writeValue r 0x4010 0 e (leBytes r.len e) s = extentRevoke e s := by simp only [writeValue, hsub]
  rw [hvalue] at hwrite
  exact ⟨_, congrArg Host.Outcome.next hwrite⟩

theorem exec_extentRevoke_busy {e : Nat} (h : WriteReaches s rq 0x4010 2 0 e)
    (hbusy : (extRec s e).state ≠ 1 ∨ 1024 ≤ drainsActive s ∨ closeExtent e 0xFFFF s = none) :
    ∃ t, exec (.extentRevoke rq e) s = .next t ∧ ∃ q, t = answer rq 0 BUSY [] (noteRefusal q BUSY s) := by
  obtain ⟨q, hexec⟩ := exec_extentRevoke_of_reaches h
  rw [extentRevoke_busy hbusy] at hexec
  exact ⟨_, hexec, q, rfl⟩

end Sys2Proof.Machine

namespace Sys2Proof.Proofs
open Sys2Proof Sys2Proof.Machine Sys2Proof.Safety

/-- Settles O26: the write reaches EXTENT_REVOKE's own check, which closes the extent or answers BUSY (R35). -/
theorem extentRevoke : Obligations.ExtentRevoke := by
  unfold Obligations.ExtentRevoke
  intro s rq e h
  refine ⟨fun b u hopen hroom hclose => ⟨?_, extRec_of_closeExtent hclose⟩, fun hstate => ?_, fun hfull => ?_, fun hnone => ?_⟩
  · obtain ⟨q, hexec⟩ := exec_extentRevoke_of_reaches h
    rw [extentRevoke_closes hopen hroom hclose] at hexec
    exact hexec
  · exact exec_extentRevoke_busy h (.inl hstate)
  · exact exec_extentRevoke_busy h (.inr (.inl (Nat.le_of_eq hfull.symm)))
  · exact exec_extentRevoke_busy h (.inr (.inr hnone))

end Sys2Proof.Proofs

namespace Sys2Proof.Machine
open Sys2Proof

/-! ## The bookings while a request is released

A request's end writes the store, moves pins and tallies and drops its walks; none of it books or frees a slot. -/

theorem foldl_books {α : Type} {f : State → α → State} (hf : ∀ t a, (f t a).gate.books = t.gate.books) (l : List α) (s : State) :
    (l.foldl f s).gate.books = s.gate.books :=
  List.foldlRecOn l f (motive := fun t => t.gate.books = s.gate.books) rfl fun t ht a _ => (hf t a).trans ht

@[simp] theorem setColl_books (u : Nat) (c : Coll) (s : State) : (setColl u c s).gate.books = s.gate.books := rfl
@[simp] theorem dropWalks_books (rid : Nat) (s : State) : (dropWalks rid s).gate.books = s.gate.books := rfl
@[simp] theorem releaseRows_books (rid : Nat) (s : State) : (releaseRows rid s).gate.books = s.gate.books := rfl

theorem Quiet.books {s t : State} (h : Quiet s t) : t.gate.books = s.gate.books := by rw [h.gate]

@[simp] theorem storeWrite_books (off : Nat) (data : List Byte) (s : State) : (storeWrite off data s).gate.books = s.gate.books :=
  (storeWrite_quiet (.refl s)).books
@[simp] theorem deviceWrite_books (off : Nat) (data : List Byte) (s : State) : (deviceWrite off data s).gate.books = s.gate.books :=
  (deviceWrite_quiet (.refl s)).books

@[simp] theorem heat_books (agents : Bool) (off n : Nat) (s : State) : (heat agents off n s).gate.books = s.gate.books := by
  unfold heat
  dsimp only
  repeat' split
  all_goals rfl

@[simp] theorem heatSpan_books (off n : Nat) (s : State) : (heatSpan off n s).gate.books = s.gate.books := by
  unfold heatSpan
  split
  · rfl
  · exact foldl_books (fun t _ => heat_books _ _ _ t) _ s

@[simp] theorem unitWrite_books (off : Nat) (data : List Byte) (s : State) : (unitWrite off data s).gate.books = s.gate.books := by
  unfold unitWrite
  split <;> simp

@[simp] theorem listWrite_books (off : Nat) (data : List Byte) (s : State) : (listWrite off data s).gate.books = s.gate.books := by
  unfold listWrite
  repeat' split
  all_goals simp

@[simp] theorem voidSeq_books (u seq : Nat) (s : State) : (voidSeq u seq s).gate.books = s.gate.books := by
  unfold voidSeq
  refine foldl_books (fun t _ => foldl_books (fun v r => ?_) _ t) _ s
  split
  · exact listWrite_books _ _ v
  · rfl

@[simp] theorem leaveNumber_books (c : Cmd) (s : State) : (leaveNumber c s).gate.books = s.gate.books := by
  unfold leaveNumber
  dsimp only
  repeat' split
  all_goals simp

@[simp] theorem unpin_books (p : Pin) (s : State) : (unpin p s).gate.books = s.gate.books := by
  unfold unpin pinBy
  split <;> rfl

@[simp] theorem drainDown_books (e n : Nat) (s : State) : (drainDown e n s).gate.books = s.gate.books := by
  unfold drainDown
  dsimp only
  split <;> rfl

@[simp] theorem releaseReq_books (q : Req) (s : State) : (releaseReq q s).gate.books = s.gate.books := by
  unfold releaseReq
  dsimp only
  rw [foldl_books (fun t e => drainDown_books e 1 t), releaseRows_books, dropWalks_books,
    foldl_books (fun t p => unpin_books p t), foldl_books (fun t c => leaveNumber_books c t)]

/-! ## What a withdrawal takes away (R81) -/

theorem rid_ne_of_mem_releaseReq_reqs {q r : Req} {s : State} (h : r ∈ (releaseReq q s).gate.reqs) : r.rid ≠ q.rid :=
  bne_iff_ne.mp (List.mem_filter.mp h).2

theorem rid_ne_of_mem_refundBookings_books {rid st : Nat} {s : State} {b : Booking} (h : b ∈ (refundBookings rid st s).gate.books) :
    b.rid ≠ rid :=
  bne_iff_ne.mp (List.mem_filter.mp h).2

theorem ticket_ne_of_mem_dropJoints {ticket : Nat} {s : State} {k : Joint} (h : k ∈ (dropJoints ticket s).gate.joints) : k.ticket ≠ ticket :=
  bne_iff_ne.mp (List.mem_filter.mp h).2

theorem rid_ne_of_mem_withdraw_books {q : Req} {s : State} {b : Booking} (h : b ∈ (withdraw q s).gate.books) : b.rid ≠ q.rid := by
  unfold withdraw at h
  dsimp only at h
  rw [releaseReq_books] at h
  exact rid_ne_of_mem_refundBookings_books h

theorem rid_ne_of_mem_withdraw_reqs {q r : Req} {s : State} (h : r ∈ (withdraw q s).gate.reqs) : r.rid ≠ q.rid :=
  rid_ne_of_mem_releaseReq_reqs h

/-! ## CONFIRM_HOLD_EXPIRY (R81) -/

theorem exec_confirmHoldExpiry (origin ticket : Nat) (s : State) :
    exec (.confirmHoldExpiry origin ticket) s = .next (confirmHoldExpiry origin ticket s) := rfl

variable {s : State} {ticket : Nat} {j : Joint}

theorem confirmHoldExpiry_eq_self (hj : jointAt s ticket false = some j) (h : j.confirmed = true ∨ now s ≤ j.replyTick + confirmHold s)
    (origin : Nat) : confirmHoldExpiry origin ticket s = s := by
  simp only [confirmHoldExpiry, hj]
  exact if_pos (.inr (.inr h))

theorem confirmHoldExpiry_eq_withdraw {q : Req} (hj : jointAt s ticket false = some j) (hreplied : j.replied = true)
    (hopen : j.confirmed = false) (hlate : j.replyTick + confirmHold s < now s) (hq : reqOf s j.rid = some q) :
    confirmHoldExpiry j.q.origin ticket s = dropJoints ticket (withdraw q s) := by
  have hnow : ¬ now s ≤ j.replyTick + confirmHold s := Nat.not_le.mpr hlate
  simp [confirmHoldExpiry, hj, hreplied, hopen, hnow, hq]

end Sys2Proof.Machine

namespace Sys2Proof.Proofs
open Sys2Proof Sys2Proof.Machine

/-- Settles O46: past the hold the part is withdrawn, which drops its bookings, its request and its joint (R81); up to the hold's last
tick, and once confirmed, the expiry does nothing. -/
theorem confirmHoldExpiry : Obligations.ConfirmHoldExpiry := by
  unfold Obligations.ConfirmHoldExpiry
  intro s ticket j hj
  simp only [exec_confirmHoldExpiry]
  refine ⟨fun q hreplied hopen hlate hq => ?_, fun hearly => ?_, fun hconfirmed => ?_⟩
  · rw [confirmHoldExpiry_eq_withdraw hj hreplied hopen hlate hq]
    exact ⟨_, rfl, fun b hb => rid_ne_of_mem_withdraw_books hb, fun r hr => rid_ne_of_mem_withdraw_reqs hr,
      fun k hk => ticket_ne_of_mem_dropJoints hk⟩
  · rw [confirmHoldExpiry_eq_self hj (.inr hearly)]
  · rw [confirmHoldExpiry_eq_self hj (.inl hconfirmed)]

end Sys2Proof.Proofs

namespace Sys2Proof
variable {α : Type}

/-- A key that no kept entry has reads as the default. -/
theorem AMap.get_keep_of_dropped {d : α} {p : Nat → α → Bool} {k : Nat} (hp : ∀ v, p k v = false) (m : AMap α) :
    AMap.get d (AMap.keep p m) k = d := by
  induction m with
  | nil => rfl
  | cons e r ih =>
    obtain ⟨a, v⟩ := e
    by_cases ha : a = k
    · simpa [AMap.keep, ha, hp] using ih
    · cases hv : p a v
      · simpa [AMap.keep, hv] using ih
      · simpa [AMap.keep, AMap.get, hv, ha] using ih

end Sys2Proof

namespace Sys2Proof.Machine
open Sys2Proof Sys2Proof.Safety

/-! ## Addresses and their keys -/

section
variable {idx sub inst : Nat}

theorem keyIdx_catKey (hs : sub < 256) (hi : inst < 65536) : keyIdx (catKey idx sub inst) = idx := by
  unfold keyIdx catKey
  omega

theorem keySub_catKey (hs : sub < 256) (hi : inst < 65536) : keySub (catKey idx sub inst) = sub := by
  unfold keySub catKey
  omega

/-- The keys of a group's entries are the group's. -/
theorem inGroup_catKey {r : CatRow} {g : Nat} (hs : sub < 256) (hi : inst < 65536) (hr : catRow? idx sub = some r) (happ : r.app = 3)
    (hgrp : r.grp = g) : inGroup g (catKey idx sub inst) = true := by
  rw [inGroup, keyIdx_catKey hs hi, keySub_catKey hs hi, hr]
  simp [happ, hgrp]

/-- STAGE_SERIAL is not itself staged (R456). -/
theorem app_stageSerial : (catRow? 0xF004 1).map CatRow.app = some 0 := by decide +kernel

/-- No staged entry has the key of a serial. -/
theorem catKey_ne_stageSerial {r : CatRow} {g : Nat} (hs : sub < 256) (hi : inst < 65536) (hg : g < 65536)
    (hr : catRow? idx sub = some r) (happ : r.app = 3) : catKey idx sub inst ≠ catKey 0xF004 1 g := by
  intro hkey
  have hidx : idx = 0xF004 := by rw [← keyIdx_catKey (idx := idx) hs hi, hkey, keyIdx_catKey (by decide) hg]
  have hsub : sub = 1 := by rw [← keySub_catKey (idx := idx) hs hi, hkey, keySub_catKey (by decide) hg]
  have hzero := app_stageSerial
  rw [← hidx, ← hsub, hr, Option.map_some, happ] at hzero
  cases hzero

end

/-! ## DISCARD (R450) -/

variable {s : State} {rq : Requester} {g : Nat}

theorem discardWrite_of_pending (h : pendingGroup s g = true) : discardWrite g s = (BUSY, s) := if_pos h

theorem discardWrite_status_of_free (h : pendingGroup s g = false) : (discardWrite g s).1 = OK := by
  simp [discardWrite, h]

/-- A DISCARD changes no value in effect but the group's serial. -/
theorem cv_discardWrite_of_ne {idx sub inst : Nat} (hne : catKey idx sub inst ≠ catKey 0xF004 1 g) :
    cv (discardWrite g s).2 idx sub inst = cv s idx sub inst := by
  unfold discardWrite
  split
  · rfl
  · exact cv_cvSet_ne hne ..

theorem cv_discardWrite_stageSerial (h : pendingGroup s g = false) :
    cv (discardWrite g s).2 0xF004 1 g = (cv s 0xF004 1 g + 1) % 2 ^ 32 := by
  simp [discardWrite, h]

/-- After a DISCARD every shadow of the group is its value in effect. -/
theorem cvShadow_discardWrite {idx sub inst : Nat} (h : pendingGroup s g = false) (hin : inGroup g (catKey idx sub inst) = true) :
    cvShadow (discardWrite g s).2 idx sub inst = cv (discardWrite g s).2 idx sub inst := by
  have hshadow : (discardWrite g s).2.cat.shadow = AMap.keep (fun k _ => !inGroup g k) s.cat.shadow := by
    simp [discardWrite, h, cvSet]
  have hnone : AMap.get none (discardWrite g s).2.cat.shadow (catKey idx sub inst) = none := by
    rw [hshadow]
    exact AMap.get_keep_of_dropped (fun _ => by simp [hin]) _
  simp only [cvShadow, hnone]

/-- A write that reaches check 7 has a value in its entry's range (check 5). -/
theorem rangeOk_of_reaches {idx sub inst v : Nat} (h : WriteReaches s rq idx sub inst v) :
    ∃ r, r.sub = sub ∧ rangeOk s r idx inst v = true := by
  obtain ⟨-, r, hr, -, -, -, -, -, -, -, -, hrange, -⟩ := h
  exact ⟨r, entryOf_sub hr, hrange⟩

/-- DISCARD takes the number of a staged group, 2 or 3. -/
theorem group_of_discard_reaches (h : WriteReaches s rq 0xF003 1 0 g) : g = 2 ∨ g = 3 := by
  obtain ⟨r, hsub, hrange⟩ := rangeOk_of_reaches h
  unfold rangeOk at hrange
  rw [hsub, Bool.and_eq_true] at hrange
  have hgroup : (g == 2 || g == 3) = true := hrange.2
  simpa using hgroup

theorem exec_discard_of_reaches (h : WriteReaches s rq 0xF003 1 0 g) :
    ∃ q, exec (.discard rq g) s = .next (answer rq 0 (discardWrite g s).1 [] (decided q (discardWrite g s) s)) := by
  obtain ⟨r, hsub, hwrite⟩ := catWriteAs_of_reaches h
  have hvalue : writeValue r 0xF003 0 g (leBytes r.len g) s = discardWrite g s := by simp only [writeValue, hsub]
  rw [hvalue] at hwrite
  exact ⟨_, congrArg Host.Outcome.next hwrite⟩

theorem exec_discard_of_free (h : WriteReaches s rq 0xF003 1 0 g) (hfree : pendingGroup s g = false) :
    exec (.discard rq g) s = .next (answer rq 0 OK [] (discardWrite g s).2) := by
  obtain ⟨q, hexec⟩ := exec_discard_of_reaches h
  have hok := discardWrite_status_of_free hfree
  rwa [decided, if_pos hok, hok] at hexec

theorem exec_discard_of_pending (h : WriteReaches s rq 0xF003 1 0 g) (hpending : pendingGroup s g = true) :
    ∃ q, exec (.discard rq g) s = .next (answer rq 0 BUSY [] (noteRefusal q BUSY s)) := by
  obtain ⟨q, hexec⟩ := exec_discard_of_reaches h
  rw [discardWrite_of_pending hpending] at hexec
  exact ⟨q, hexec⟩

end Sys2Proof.Machine

namespace Sys2Proof.Proofs
open Sys2Proof Sys2Proof.Machine Sys2Proof.Safety

/-- Settles O32: the write reaches DISCARD's own check, which is BUSY for a PENDING group; else the group's shadows are dropped, so each
reads as its value in effect, and the serial, which no staged entry shares a key with, rises by one (R450). -/
theorem discard : Obligations.Discard := by
  unfold Obligations.Discard
  intro s rq g h
  refine ⟨fun hfree => ?_, exec_discard_of_pending h⟩
  refine ⟨(discardWrite g s).2, exec_discard_of_free h hfree, ?_, cv_discardWrite_stageSerial hfree⟩
  intro idx sub inst r _ hsub hinst hr happ hgrp
  have hg : g < 65536 := by have := group_of_discard_reaches h; omega
  exact ⟨cvShadow_discardWrite hfree (inGroup_catKey hsub hinst hr happ hgrp),
    cv_discardWrite_of_ne (catKey_ne_stageSerial hsub hinst hg hr happ)⟩

end Sys2Proof.Proofs

namespace Sys2Proof.Machine
open Sys2Proof Sys2Proof.Safety

/-! ## Every command keeps the queue and the memories' canonical form -/

theorem exec_keeps : ∀ {i : Instr} {s t : State}, exec i s = .next t → Keeps s t
  | .powerOnReset, _, _, h => execPowerOnReset_keeps h
  | .rstN _, _, _, h => execRstN_keeps h
  | .deviceReset _ _, _, _, h => execDeviceReset_keeps h
  | .linkReset _, _, _, h => execLinkReset_keeps h
  | .internalResetEnd _ _, _, _, h => execInternalResetEnd_keeps h
  | .secStart, _, _, h => execSecStart_keeps h
  | .hbmTrainingDone _, _, _, h => execHbmTrainingDone_keeps h
  | .zeroFillDone, _, _, h => execZeroFillDone_keeps h
  | .targetResetTimeout _ _, _, _, h => execTargetResetTimeout_keeps h
  | .flashDiscoveryDone _, _, _, h => execFlashDiscoveryDone_keeps h
  | .checkpointLoaded _, _, _, h => execCheckpointLoaded_keeps h
  | .replayDone _, _, _, h => execReplayDone_keeps h
  | .gateOpen, _, _, h => execGateOpen_keeps h
  | .portTrained _ _ _, _, _, h => execPortTrained_keeps h
  | .portDown _, _, _, h => execPortDown_keeps h
  | .linkUp _ _ _ _, _, _, h => execLinkUp_keeps h
  | .twineTrainTimeout _, _, _, h => execTwineTrainTimeout_keeps h
  | .thermtrip, _, _, h => execThermtrip_keeps h
  | .throttleEntry _, _, _, h => execThrottleEntry_keeps h
  | .throttleRelease _, _, _, h => execThrottleRelease_keeps h
  | .roundBoundary _, _, _, h => execRoundBoundary_keeps h
  | .loaderLoad, _, _, h => execLoaderLoad_keeps h
  | .snapshotPeriod, _, _, h => execSnapshotPeriod_keeps h
  | .calibrationPeriod _, _, _, h => execCalibrationPeriod_keeps h
  | .heatPeriod _, _, _, h => execHeatPeriod_keeps h
  | .decayPeriod _, _, _, h => execDecayPeriod_keeps h
  | .checkpointPeriod _, _, _, h => execCheckpointPeriod_keeps h
  | .assemblyExpiry _, _, _, h => execAssemblyExpiry_keeps h
  | .snapshotRelease _, _, _, h => execSnapshotRelease_keeps h
  | .entryFetch _, _, _, h => execEntryFetch_keeps h
  | .queueFetch _, _, _, h => execQueueFetch_keeps h
  | .chain _, _, _, h => execChain_keeps h
  | .gatherBags _, _, _, h => execGatherBags_keeps h
  | .search _, _, _, h => execSearch_keeps h
  | .insertVectors _, _, _, h => execInsertVectors_keeps h
  | .deleteVectors _, _, _, h => execDeleteVectors_keeps h
  | .runSegment _, _, _, h => execRunSegment_keeps h
  | .copy _, _, _, h => execCopy_keeps h
  | .barrow _, _, _, h => execBarrow_keeps h
  | .publish _, _, _, h => execPublish_keeps h
  | .tableSwitch _, _, _, h => execTableSwitch_keeps h
  | .setSwitch _, _, _, h => execSetSwitch_keeps h
  | .tallyWait _, _, _, h => execTallyWait_keeps h
  | .tallyAdd _, _, _, h => execTallyAdd_keeps h
  | .fence _, _, _, h => execFence_keeps h
  | .invalidateXlate _, _, _, h => execInvalidateXlate_keeps h
  | .extentClose _, _, _, h => execExtentClose_keeps h
  | .catRead _, _, _, h => execCatRead_keeps h
  | .catWrite _, _, _, h => execCatWrite_keeps h
  | .catInfo _, _, _, h => execCatInfo_keeps h
  | .deferredAdmissionCheck _ _, _, _, h => execDeferredAdmissionCheck_keeps h
  | .partStart _ _, _, _, h => execPartStart_keeps h
  | .partComplete _ _ _, _, _, h => execPartComplete_keeps h
  | .completionRecord _, _, _, h => execCompletionRecord_keeps h
  | .calOverrun _ _, _, _, h => execCalOverrun_keeps h
  | .partFault _ _ _ _, _, _, h => execPartFault_keeps h
  | .bookingQuery _ _, _, _, h => execBookingQuery_keeps h
  | .bookingReply _ _ _, _, _, h => execBookingReply_keeps h
  | .bookingConfirmation _ _, _, _, h => execBookingConfirmation_keeps h
  | .confirmHoldExpiry _ _, _, _, h => execConfirmHoldExpiry_keeps h
  | .replyTimeout _, _, _, h => execReplyTimeout_keeps h
  | .partCompletionMessage _ _ _ _, _, _, h => execPartCompletionMessage_keeps h
  | .jointBoundExpiry _, _, _, h => execJointBoundExpiry_keeps h
  | .skipNotice _ _ _ _, _, _, h => execSkipNotice_keeps h
  | .creditMessage _ _ _, _, _, h => execCreditMessage_keeps h
  | .retryRequest _ _ _, _, _, h => execRetryRequest_keeps h
  | .trainHeaderReceive _ _ _, _, _, h => execTrainHeaderReceive_keeps h
  | .dataFlitReceive _ _ _, _, _, h => execDataFlitReceive_keeps h
  | .controlFlitSend _, _, _, h => execControlFlitSend_keeps h
  | .linkDeadTicksExpiry _, _, _, h => execLinkDeadTicksExpiry_keeps h
  | .laneLockLoss _ n, _, _, h => execLaneLockLoss_keeps (x1 := n) h
  | .peerTrainingSeen _, _, _, h => execPeerTrainingSeen_keeps h
  | .linkRetrain _, _, _, h => execLinkRetrain_keeps h
  | .memRd _ _ _, _, _, h => execMemRd_keeps h
  | .memRdData _ _, _, _, h => execMemRdData_keeps h
  | .memInv _ _, _, _, h => execMemInv_keeps h
  | .memInvNt _ _, _, _, h => execMemInvNt_keeps h
  | .memClnEvct _ _, _, _, h => execMemClnEvct_keeps h
  | .memSpecRd a x, _, _, h => execMemSpecRd_keeps (x0 := a) (x1 := x) h
  | .memWr _ _ _ _, _, _, h => execMemWr_keeps h
  | .memWrPtl _ _ _ _ _, _, _, h => execMemWrPtl_keeps h
  | .biConflict _ _, _, _, h => execBiConflict_keeps h
  | .biRspI _ _, _, _, h => execBiRspI_keeps h
  | .biRspS _ _, _, _, h => execBiRspS_keeps h
  | .biRspE _ _, _, _, h => execBiRspE_keeps h
  | .cxlMemAdmit _, _, _, h => execCxlMemAdmit_keeps h
  | .loadBoundExpiry _, _, _, h => execLoadBoundExpiry_keeps h
  | .biTimeout _ _, _, _, h => execBiTimeout_keeps h
  | .cxlFlitAck _, _, _, h => execCxlFlitAck_keeps h
  | .homeOrderedEntry _, _, _, h => execHomeOrderedEntry_keeps h
  | .identifyMemoryDevice _ _, _, _, h => execIdentifyMemoryDevice_keeps h
  | .getSupportedLogs _ _, _, _, h => execGetSupportedLogs_keeps h
  | .getLog _ _ _ _, _, _, h => execGetLog_keeps h
  | .getHealthInfo _ _, _, _, h => execGetHealthInfo_keeps h
  | .getPoisonList _ _ _ _, _, _, h => execGetPoisonList_keeps h
  | .cdatRead _ _, _, _, h => execCdatRead_keeps h
  | .entdaa _, _, _, h => execEntdaa_keeps h
  | .setdasa _ _, _, _, h => execSetdasa_keeps h
  | .rstdaa, _, _, h => execRstdaa_keeps h
  | .enec m, _, _, h => execEnec_keeps (x0 := m) h
  | .disec m, _, _, h => execDisec_keeps (x0 := m) h
  | .setmwl _, _, _, h => execSetmwl_keeps h
  | .setmrl _, _, _, h => execSetmrl_keeps h
  | .setEndpointId _, _, _, h => execSetEndpointId_keeps h
  | .mctpRead _ _ _ _ _ _ _ _, _, _, h => execMctpRead_keeps h
  | .mctpWrite _ _ _ _ _ _ _ _, _, _, h => execMctpWrite_keeps h
  | .mctpInfo _ _ _ _ _, _, _, h => execMctpInfo_keeps h
  | .identityRead _ _ _ _, _, _, h => execIdentityRead_keeps h
  | .reportRequest _ _ _, _, _, h => execReportRequest_keeps h
  | .reportRead _ _ _ _, _, _, h => execReportRead_keeps h
  | .debugChallenge _ _, _, _, h => execDebugChallenge_keeps h
  | .debugToken _ _ _, _, _, h => execDebugToken_keeps h
  | .reportSigned, _, _, h => execReportSigned_keeps h
  | .reportDiscard _, _, _, h => execReportDiscard_keeps h
  | .bottomTreeBuild, _, _, h => execBottomTreeBuild_keeps h
  | .doorbellWrite _ _ _ _, _, _, h => execDoorbellWrite_keeps h
  | .moverGo _ _ _, _, _, h => execMoverGo_keeps h
  | .registerWrite _ _ _ _, _, _, h => execRegisterWrite_keeps h
  | .tallyAddWrite _ _ _, _, _, h => execTallyAddWrite_keeps h
  | .tallyValueWrite _ _ _, _, _, h => execTallyValueWrite_keeps h
  | .porterInstruction _, _, _, h => execPorterInstruction_keeps h
  | .predCsrWrite _ _ _, _, _, h => execPredCsrWrite_keeps h
  | .tcAcqAll _, _, _, h => execTcAcqAll_keeps h
  | .tcAcqRange _ _ _, _, _, h => execTcAcqRange_keeps h
  | .tcRelAll _, _, _, h => execTcRelAll_keeps h
  | .tcRelRange _ _ _, _, _, h => execTcRelRange_keeps h
  | .tcTwait _ _ _ _, _, _, h => execTcTwait_keeps h
  | .twaitSatisfied _, _, _, h => execTwaitSatisfied_keeps h
  | .twaitBoundExpiry _, _, _, h => execTwaitBoundExpiry_keeps h
  | .tcTadd _ _ _, _, _, h => execTcTadd_keeps h
  | .tcAmoAdd _ _ _ _ _, _, _, h => execTcAmoAdd_keeps h
  | .tcAmoSwap _ _ _ _ _, _, _, h => execTcAmoSwap_keeps h
  | .tcAmoCas _ _ _ _ _, _, _, h => execTcAmoCas_keeps h
  | .tcAmoMin _ _ _ _ _, _, _, h => execTcAmoMin_keeps h
  | .tcAmoMax _ _ _ _ _, _, _, h => execTcAmoMax_keeps h
  | .tcAmoMinu _ _ _ _ _, _, _, h => execTcAmoMinu_keeps h
  | .tcAmoMaxu _ _ _ _ _, _, _, h => execTcAmoMaxu_keeps h
  | .tcAmoFadd _ _ _ _, _, _, h => execTcAmoFadd_keeps h
  | .storeBufferDrain _, _, _, h => execStoreBufferDrain_keeps h
  | .spanStart _, _, _, h => execSpanStart_keeps h
  | .opLoadw _, _, _, h => execOpLoadw_keeps h
  | .opMac _, _, _, h => execOpMac_keeps h
  | .opDrain _, _, _, h => execOpDrain_keeps h
  | .opPstart _, _, _, h => execOpPstart_keeps h
  | .opNop _, _, _, h => execOpNop_keeps h
  | .opEnd _, _, _, h => execOpEnd_keeps h
  | .moveHbmToBank _, _, _, h => execMoveHbmToBank_keeps h
  | .moveBankToHbm _, _, _, h => execMoveBankToHbm_keeps h
  | .moveBankToBank _, _, _, h => execMoveBankToBank_keeps h
  | .spanOverrun _, _, _, h => execSpanOverrun_keeps h
  | .bankReady _ _, _, _, h => execBankReady_keeps h
  | .oppCeiling _ _, _, _, h => execOppCeiling_keeps h
  | .oppVoltageRaise, _, _, h => execOppVoltageRaise_keeps h
  | .frequencySwitch _, _, _, h => execFrequencySwitch_keeps h
  | .flashArrayRead _ _ _, _, _, h => execFlashArrayRead_keeps h
  | .programResume _ _, _, _, h => execProgramResume_keeps h
  | .writebackCommit _ _, _, _, h => execWritebackCommit_keeps h
  | .flashProgram _ _ _ _ _, _, _, h => execFlashProgram_keeps h
  | .frameFree _ _, _, _, h => execFrameFree_keeps h
  | .compaction _, _, _, h => execCompaction_keeps h
  | .channelFailed _, _, _, h => execChannelFailed_keeps h
  | .ldpcRecovery _ _ _, _, _, h => execLdpcRecovery_keeps h
  | .mapRebuild _, _, _, h => execMapRebuild_keeps h
  | .extentRecordWrite _, _, _, h => execExtentRecordWrite_keeps h
  | .extentGrant _ _, _, _, h => execExtentGrant_keeps h
  | .extentRevoke _ _, _, _, h => execExtentRevoke_keeps h
  | .drainZero _, _, _, h => execDrainZero_keeps h
  | .sweepStart _, _, _, h => execSweepStart_keeps h
  | .sweepEnd _, _, _, h => execSweepEnd_keeps h
  | .stallCreate _ _, _, _, h => execStallCreate_keeps h
  | .stallRemove _ _, _, _, h => execStallRemove_keeps h
  | .stallSweepStart _, _, _, h => execStallSweepStart_keeps h
  | .stallUnused _, _, _, h => execStallUnused_keeps h
  | .consentA _ _ _, _, _, h => execConsentA_keeps h
  | .consentB _ _ _, _, _, h => execConsentB_keeps h
  | .pactInForce _, _, _, h => execPactInForce_keeps h
  | .pactLeaveForce _, _, _, h => execPactLeaveForce_keeps h
  | .pactEmpty _, _, _, h => execPactEmpty_keeps h
  | .mapSweep, _, _, h => execMapSweep_keeps h
  | .commit _ _, _, _, h => execCommit_keeps h
  | .commitValidation _, _, _, h => execCommitValidation_keeps h
  | .commitApply _, _, _, h => execCommitApply_keeps h
  | .discard _ _, _, _, h => execDiscard_keeps h
  | .regionOwner _ _ _, _, _, h => execRegionOwner_keeps h
  | .tableOwner _ _ _, _, _, h => execTableOwner_keeps h
  | .collOwner _ _ _, _, _, h => execCollOwner_keeps h
  | .collActivate _ _, _, _, h => execCollActivate_keeps h
  | .collDeactivate _ _, _, _, h => execCollDeactivate_keeps h
  | .retireRequest _ _ _, _, _, h => execRetireRequest_keeps h
  | .restockNow _ _ _, _, _, h => execRestockNow_keeps h
  | .sideCommit _ _, _, _, h => execSideCommit_keeps h
  | .restockStart _, _, _, h => execRestockStart_keeps h
  | .restockSwitch _, _, _, h => execRestockSwitch_keeps h
  | .restockDrain _, _, _, h => execRestockDrain_keeps h
  | .agentStall _ _ _, _, _, h => execAgentStall_keeps h
  | .agentClean _ _ _, _, _, h => execAgentClean_keeps h
  | .coherenceTest _ _ _, _, _, h => execCoherenceTest_keeps h
  | .contextEnable _ _, _, _, h => execContextEnable_keeps h
  | .contextDisable _ _, _, _, h => execContextDisable_keeps h
  | .admitHold _ _ _, _, _, h => execAdmitHold_keeps h
  | .injectArm _ _ _ _, _, _, h => execInjectArm_keeps h
  | .injectionAllowed _ _, _, _, h => execInjectionAllowed_keeps h
  | .fwStage _ _ _, _, _, h => execFwStage_keeps h
  | .fwUpdateVerify _, _, _, h => execFwUpdateVerify_keeps h
  | .fwUpdateHandoff _, _, _, h => execFwUpdateHandoff_keeps h
  | .fwUpdateClear _, _, _, h => execFwUpdateClear_keeps h
  | .verifyDone, _, _, h => execVerifyDone_keeps h
  | .prepareEnd, _, _, h => execPrepareEnd_keeps h
  | .prepareTimeout, _, _, h => execPrepareTimeout_keeps h
  | .admissionPauseStart, _, _, h => execAdmissionPauseStart_keeps h
  | .componentMove, _, _, h => execComponentMove_keeps h
  | .secRestart, _, _, h => execSecRestart_keeps h
  | .admissionsReopen, _, _, h => execAdmissionsReopen_keeps h
  | .handoffRollback, _, _, h => execHandoffRollback_keeps h
  | .watchdog _, _, _, h => execWatchdog_keeps h
  | .fwProtection _ _, _, _, h => execFwProtection_keeps h
  | .setSwitchWindow _, _, _, h => execSetSwitchWindow_keeps h
  | .preWalk _ _, _, _, h => execPreWalk_keeps h
  | .atsCompletion _ _ _ _, _, _, h => execAtsCompletion_keeps h
  | .atsBoundExpiry _, _, _, h => execAtsBoundExpiry_keeps h
  | .atsInvalidateRequest _ _ _, _, _, h => execAtsInvalidateRequest_keeps h
  | .iqApply _, _, _, h => execIqApply_keeps h
  | .powerRemoval, _, _, h => execPowerRemoval_keeps h
  | .blockErase _ _, _, _, h => execBlockErase_keeps h
  | .checkpointValid _, _, _, h => execCheckpointValid_keeps h
/-- The queue's rest is not among the memories. -/
theorem memInv_pending {s : State} (h : MemInv s) (rest : List Instr) : MemInv { s with pending := rest } := h

theorem step_nil {s : State} (h : s.pending = []) : step s = .next (idleTick s) := by
  simp only [step, h]

theorem step_cons {s : State} {c : Instr} {rest : List Instr} (h : s.pending = c :: rest) : step s = exec c { s with pending := rest } := by
  simp only [step, h]

theorem idleTick_of_stopped {s : State} (h : running s = false) : idleTick s = s := by
  simp [idleTick, h]

theorem step_keeps_memInv {s t : State} (hs : MemInv s) (h : step s = .next t) : MemInv t := by
  cases hq : s.pending with
  | nil =>
    rw [step_nil hq] at h
    cases h
    exact (idleTick_keeps (.refl s)).2 hs
  | cons c rest =>
    rw [step_cons hq] at h
    exact (exec_keeps h).2 (memInv_pending hs rest)

theorem memInv_reset : MemInv State.reset := ⟨rfl, rfl, rfl, rfl⟩

/-! ## Catalogue keys -/

/-- Addresses of the widths the catalogue has are told apart by their keys. -/
theorem catKey_injective {i j k i' j' k' : Nat} (hj : j < 256) (hk : k < 65536) (hj' : j' < 256) (hk' : k' < 65536)
    (h : catKey i' j' k' = catKey i j k) : (i', j', k') = (i, j, k) := by
  have hi := congrArg keyIdx h
  have hs := congrArg keySub h
  rw [keyIdx_catKey hj' hk', keyIdx_catKey hj hk] at hi
  rw [keySub_catKey hj' hk', keySub_catKey hj hk] at hs
  subst hi hs
  unfold catKey at h
  simp only [Prod.mk.injEq, true_and]
  omega

/-- At reset stall 0 is ACTIVE and no other stall is in use. -/
theorem stallState_reset (st : Nat) : stallState State.reset st = if st = 0 then 1 else 0 := rfl

end Sys2Proof.Machine

namespace Sys2Proof.Proofs
open Sys2Proof Sys2Proof.Machine Sys2Proof.Safety

/-- Settles O4: an idle tick and every command keep the memories canonical. -/
theorem stepKeepsMemoryCanonical : Obligations.StepKeepsMemoryCanonical :=
  fun _ _ hs h => step_keeps_memInv hs h

/-- Settles O3: every command's meaning leaves the queue. -/
theorem commandsLeaveTheQueue : Obligations.CommandsLeaveTheQueue :=
  fun _ _ _ h => (exec_keeps h).1

/-- Settles O5. -/
theorem resetMemoryCanonical : Obligations.ResetMemoryCanonical := memInv_reset

/-- Settles O1. -/
theorem stepRunsTheFrontCommand : Obligations.StepRunsTheFrontCommand :=
  fun _ _ _ => step_cons rfl

/-- Settles O2: an idle tick, which a block in reset does not count; no word spells a command. -/
theorem stepWithoutCommands : Obligations.StepWithoutCommands := by
  refine ⟨fun s hq => ⟨step_nil hq, fun hstopped => ?_⟩, fun _ _ _ => ⟨rfl, rfl⟩⟩
  rw [step_nil hq, idleTick_of_stopped hstopped]

/-- Settles O6. -/
theorem resetState : Obligations.ResetState := by
  refine ⟨rfl, rfl, rfl, rfl, stallState_reset 0, fun st hst _ => ?_, rfl, rfl, rfl⟩
  rw [stallState_reset, if_neg (by omega)]

/-- Settles O7: the value is set under its address's key, which no other address has. -/
theorem catalogueValuesReadBack : Obligations.CatalogueValuesReadBack := by
  intro i j k v s hj hk
  refine ⟨cv_cvSet_same .., fun i' j' k' hj' hk' hne => cv_cvSet_ne (fun hkey => hne ?_) v s⟩
  exact catKey_injective hj hk hj' hk' hkey

end Sys2Proof.Proofs

namespace Sys2Proof.Machine
open Sys2Proof

/-! ## Resets (R512, R513) -/

@[simp] theorem resetBlocks_gate (power : Bool) (cause : Nat) (s : State) : (resetBlocks power cause s).gate = {} := rfl
@[simp] theorem resetBlocks_hbm (power : Bool) (cause : Nat) (s : State) :
    (resetBlocks power cause s).mem.hbm = if power then [] else s.mem.hbm := rfl
@[simp] theorem resetBlocks_flash (power : Bool) (cause : Nat) (s : State) : (resetBlocks power cause s).mem.flash = s.mem.flash := rfl
@[simp] theorem resetBlocks_inReset (power : Bool) (cause : Nat) (s : State) : (resetBlocks power cause s).clk.inReset = true := rfl
@[simp] theorem resetBlocks_log (cause : Nat) (s : State) : (resetBlocks false cause s).err.log = s.err.log := rfl

/-- THERMTRIP of a powered block: every block but AON in device reset, with the pin noted (R536). -/
theorem thermtrip_of_powered {s : State} (h : s.clk.powered = true) :
    (thermtrip s).clk.thermtrip = true ∧ (thermtrip s).clk.inReset = true ∧ (thermtrip s).gate = {}
      ∧ (thermtrip s).mem.hbm = s.mem.hbm ∧ (thermtrip s).err.log = s.err.log ∧ (thermtrip s).mem.flash = s.mem.flash := by
  simp only [thermtrip, h]
  cases hr : s.clk.inReset <;> exact ⟨rfl, rfl, rfl, rfl, rfl, rfl⟩

theorem rstN_of_short {s : State} {low : Nat} (h : low < 100) : rstN low s = s := if_neg (Nat.not_le.mpr h)

theorem internalResetEnd_of_reset {s : State} (hp : s.clk.powered = true) (hr : s.clk.inReset = true) (ht : s.clk.thermtrip = false)
    (brd : Nat) (pooled : Bool) : internalResetEnd brd pooled s
      = { s with clk := { s.clk with inReset := false, calTick := 0, brdPos := brd % 16, cfgPooled := pooled } } := by
  simp [internalResetEnd, hp, hr, ht]

/-- A device reset writes to HBM where a cache frame's physical frame has reached RETIRE_CE_THRESHOLD: the frame becomes EMPTY, its
physical frame is retired, and the record of that goes to the ring of stall 0, which here is one entry at offset 0. -/
def frameRetiredAtReset : State :=
  { cat := { vals := [(catKey 0x9200 2 0, some 1), (catKey 0x9200 4 0, some 1)] }
    ext := { recs := [(0, { state := 1 })] }
    store := { frames := [(0, some { stall := 0, state := 1, phys := 5 })], ceCount := [(5, 16)] } }

theorem hbm_of_frameRetiredAtReset : (deviceResetNow 1 frameRetiredAtReset).mem.hbm ≠ frameRetiredAtReset.mem.hbm := by decide +kernel

/-! ## SEC_START (R482, R483) -/

section
variable {s : State}

/-- The configuration a part boots for. -/
def bootConfig (s : State) : Nat := if s.clk.cfgPooled then 1 else 0
/-- The slot the boot record names, A where there is none (R478). -/
def bootActive (s : State) : Nat := match bootRecord s with | some (_, _, a) => a % 2 | none => 0
/-- The image in slot A (0) or B. -/
def bootImage (s : State) (k : Nat) : Slot := if k = 0 then s.sec.slotA else s.sec.slotB

@[simp] theorem startPhase_setPhase (p : Nat) (s : State) : startPhase (setPhase p s) = p := cv_cvSet_same ..

/-- SEC_INIT with the image of slot `k` in effect. -/
def booted (s : State) (res k : Nat) : State :=
  cvSet 0xA000 3 0 (bootConfig s) (setPhase 1
    { s with sec := { s.sec with bootResult := res, sigNext := s.sec.reserveR, bootSlot := k }
             fw := { s.fw with inEffect := bootImage s k, roles := rolesOf s.clk.cfgPooled } })

/-- Recovery with no image in effect. -/
def unbooted (s : State) (res : Nat) : State :=
  setPhase 4 { s with sec := { s.sec with bootResult := res, sigNext := s.sec.reserveR }
                      fw := { s.fw with inEffect := .empty, roles := 0x01 :: List.replicate 19 0x00 } }

/-- The phase and the configuration have keys of their own. -/
theorem startPhase_booted (res k : Nat) : startPhase (booted s res k) = 1 :=
  (cv_cvSet_ne (by decide) ..).trans (startPhase_setPhase ..)

/-- The check of slot `k`'s image. -/
def bootCheck (s : State) (k : Nat) : Nat := verifySlot s (bootImage s k) (bootConfig s)

/-- The active slot is checked first, the other where it fails. -/
theorem secStart_eq (hrun : running s = true) (hphase : startPhase s = 0) :
    let k := bootActive s
    let r1 := bootCheck s k
    let r2 := if r1 = 1 then 0 else bootCheck s (1 - k)
    let res := if k = 0 then r1 + 16 * r2 else r2 + 16 * r1
    secStart s = if r1 = 1 ∨ r2 = 1 then booted s res (if r1 = 1 then k else 1 - k) else unbooted s res := by
  have hgo : ¬ ((!running s || startPhase s != 0) = true) := by simp [hrun, hphase]
  dsimp only
  rw [secStart, if_neg hgo]
  rfl

variable (hrun : running s = true) (hphase : startPhase s = 0)
include hrun hphase

theorem secStart_of_active (h : bootCheck s (bootActive s) = 1) : ∃ res, secStart s = booted s res (bootActive s) := by
  rw [secStart_eq hrun hphase, if_pos (.inl h), if_pos h, if_pos h]
  exact ⟨_, rfl⟩

theorem secStart_of_other (h : bootCheck s (bootActive s) ≠ 1) (h' : bootCheck s (1 - bootActive s) = 1) :
    ∃ res, secStart s = booted s res (1 - bootActive s) := by
  rw [secStart_eq hrun hphase, if_neg h, if_pos (.inr h'), if_neg h]
  exact ⟨_, rfl⟩

theorem secStart_of_none (h : bootCheck s (bootActive s) ≠ 1) (h' : bootCheck s (1 - bootActive s) ≠ 1) :
    ∃ res, secStart s = unbooted s res := by
  rw [secStart_eq hrun hphase, if_neg h, if_neg (not_or.mpr ⟨h, h'⟩)]
  exact ⟨_, rfl⟩

end

end Sys2Proof.Machine

namespace Sys2Proof.Proofs
open Sys2Proof Sys2Proof.Machine

/-- Refutes O8: a reset empties the cache frames, and one whose physical frame is then retired for its corrected errors (R161) has a
record written to an error ring in HBM (R428). -/
theorem not_deviceResetClearsTheGate : ¬ Obligations.DeviceResetClearsTheGate := by
  unfold Obligations.DeviceResetClearsTheGate
  intro h
  obtain ⟨⟨-, -, hhbm, -, -⟩, -⟩ := h frameRetiredAtReset 1 100 rfl rfl rfl (by decide)
  exact hbm_of_frameRetiredAtReset hhbm

/-- Settles O9: each event's meaning read off its reset. -/
theorem supplyAndResetEvents : Obligations.SupplyAndResetEvents := by
  refine ⟨fun s => ⟨⟨powerOnReset s, rfl, rfl, rfl, rfl, Bool.and_false _, rfl, rfl, rfl, rfl⟩,
      ⟨powerRemoval s, rfl, rfl, rfl, rfl, rfl, rfl, rfl⟩, fun hp => ⟨thermtrip s, rfl, thermtrip_of_powered hp⟩⟩,
    fun s low hlow => ?_, fun s brd pooled hp hr ht => ?_⟩
  · exact congrArg Host.Outcome.next (rstN_of_short hlow)
  · exact congrArg Host.Outcome.next (internalResetEnd_of_reset hp hr ht brd pooled)

/-- Settles O10: the active slot, else the other, boots; with neither the device recovers (R482, R483). -/
theorem secStartBoots : Obligations.SecStartBoots := by
  intro s hrun hphase
  refine ⟨fun h => ?_, fun h h' => ?_, fun h h' => ?_⟩
  · obtain ⟨res, heq⟩ := secStart_of_active hrun hphase h
    exact ⟨_, congrArg Host.Outcome.next heq, startPhase_booted .., rfl, rfl, cv_cvSet_same .., rfl, rfl⟩
  · obtain ⟨res, heq⟩ := secStart_of_other hrun hphase h h'
    exact ⟨_, congrArg Host.Outcome.next heq, startPhase_booted .., rfl, rfl, rfl, rfl⟩
  · obtain ⟨res, heq⟩ := secStart_of_none hrun hphase h h'
    exact ⟨_, congrArg Host.Outcome.next heq, startPhase_setPhase .., rfl, rfl, rfl⟩

end Sys2Proof.Proofs

namespace Sys2Proof.Machine
open Sys2Proof Sys2Proof.Safety

/-! ## Commands of one catalogue write -/

section
variable {s u : State} {rq : Requester} {idx sub inst v x : Nat}

/-- A write that passes checks 1 to 6 of R441 is decided by check 7 for the row at its address. -/
theorem catWriteAs_of_entry (h : WriteReaches s rq idx sub inst v) :
    ∃ r, entryOf idx sub inst = some r ∧ r.sub = sub ∧ rangeOk s r idx inst v = true ∧
      let x := writeValue r idx inst v (leBytes r.len v) s
      catWriteAs rq idx sub inst v s = answer rq 0 x.1 [] (decided (wholeReq rq idx sub inst r.len) x s) := by
  obtain ⟨hctx, r, hr, hblob, hlen, hv, hserved, hholds, hwriter, hacc, hexp, hrange, hquiet, hfree⟩ := h
  have hsub : r.sub = sub := entryOf_sub hr
  have hcheck : writeCheck s (wholeReq rq idx sub inst r.len) 4096 = .inl r := by
    simp [writeCheck, wholeReq, hr, hholds, hwriter, hacc, hexp, hblob, Nat.not_lt.mpr hlen]
  have hvalue := writeWhole_eq_writeValue hv hrange (hsub ▸ hquiet) hfree
  have hentry : writeEntry (wholeReq rq idx sub inst r.len) (leBytes r.len v) 4096 s
      = ((writeValue r idx inst v (leBytes r.len v) s).1,
         decided (wholeReq rq idx sub inst r.len) (writeValue r idx inst v (leBytes r.len v) s) s) := by
    simp only [writeEntry, hcheck, hblob, Bool.false_and, Bool.false_eq_true, if_false]
    simp only [wholeReq, decided, hvalue]
  refine ⟨r, hr, hsub, hrange, ?_⟩
  simp only [catWriteAs, hr, if_neg (Nat.not_le.mpr hv)]
  rw [writeAs_of_served hctx hserved, length_leBytes, hentry]

/-- Check 7 passes: the write answers OK with its effect. -/
theorem catWriteAs_ok (h : WriteReaches s rq idx sub inst v)
    (hval : ∀ r bytes, entryOf idx sub inst = some r → r.sub = sub → rangeOk s r idx inst v = true →
      writeValue r idx inst v bytes s = (OK, u)) :
    catWriteAs rq idx sub inst v s = answer rq 0 OK [] u := by
  obtain ⟨r, hr, hsub, hrange, hwrite⟩ := catWriteAs_of_entry h
  rw [hwrite, hval r _ hr hsub hrange]
  rfl

/-- Check 7 fails: the write answers its status and is counted as refused. -/
theorem catWriteAs_refused (h : WriteReaches s rq idx sub inst v) (hx : x ≠ OK)
    (hval : ∀ r bytes, r.sub = sub → writeValue r idx inst v bytes s = (x, s)) :
    ∃ q, catWriteAs rq idx sub inst v s = answer rq 0 x [] (noteRefusal q x s) := by
  obtain ⟨r, -, hsub, -, hwrite⟩ := catWriteAs_of_entry h
  rw [hwrite, hval r _ hsub, decided, if_neg hx]
  exact ⟨_, rfl⟩

end

/-! ## Values under the other keys -/

theorem cv_cvClear_ne {i j k i' j' k' : Nat} (h : catKey i' j' k' ≠ catKey i j k) (s : State) :
    cv (cvClear i j k s) i' j' k' = cv s i' j' k' := by
  simp only [cv, cvClear]
  rw [AMap.get_set_ne none _ _ h]
  rfl

/-- An update leaves a value where each of its parts does. -/
theorem cv_foldl {α : Type} {f : State → α → State} {i j k : Nat} (l : List α)
    (hf : ∀ a ∈ l, ∀ t, cv (f t a) i j k = cv t i j k) (s : State) : cv (l.foldl f s) i j k = cv s i j k :=
  List.foldlRecOn l f (motive := fun t => cv t i j k = cv s i j k) rfl fun t ht a ha => (hf a ha t).trans ht

/-- Instances stored under an address fit 16 bits. -/
theorem inst_lt_of_mem_storedInsts {s : State} {idx sub : Nat} {e : Nat × Nat} (h : e ∈ storedInsts s idx sub) : e.1 < 65536 := by
  obtain ⟨x, -, hx⟩ := List.mem_filterMap.mp h
  split at hx
  · obtain ⟨v, -, rfl⟩ := Option.map_eq_some_iff.mp hx
    exact Nat.mod_lt _ (by decide)
  · cases hx

theorem lt_of_mem_agentsOf {s : State} {st a : Nat} (h : a ∈ agentsOf s st) : a < 65536 := by
  obtain ⟨e, he, rfl⟩ := List.mem_map.mp h
  exact inst_lt_of_mem_storedInsts (List.mem_filter.mp he).1

/-- Updates of the catalogue alone leave a state that differs in nothing else. -/
theorem eq_with_cat_foldl {α : Type} {f : State → α → State} (hf : ∀ t a, f t a = { t with cat := (f t a).cat }) (l : List α) (s : State) :
    l.foldl f s = { s with cat := (l.foldl f s).cat } :=
  List.foldlRecOn l f (motive := fun t => t = { s with cat := t.cat }) rfl fun t ht a _ => by
    rw [hf t a, ht]

theorem cv_foldl_cvSet_of_mem {i j v k : Nat} (l : List Nat) (hk : k ∈ l) (s : State) :
    cv (l.foldl (fun t a => cvSet i j a v t) s) i j k = v := by
  induction l generalizing s with
  | nil => cases hk
  | cons a l ih =>
    by_cases hl : k ∈ l
    · exact ih hl _
    · obtain rfl : k = a := (List.mem_cons.mp hk).resolve_right hl
      rw [List.foldl_cons, cv_foldl l (fun b hb t => cv_cvSet_ne ?_ v t), cv_cvSet_same]
      intro hkey
      have hbk : b = k := by unfold catKey at hkey; omega
      exact hl (hbk ▸ hb)

end Sys2Proof.Machine

namespace Sys2Proof.Machine
open Sys2Proof Sys2Proof.Safety

/-! ## EXTENT_GRANT (R29) -/

section
variable {s : State} {v : Nat}

/-- The range of EXTENT_GRANT leaves its reserved bits clear. -/
theorem reserved_of_grant_range {r : CatRow} (hsub : r.sub = 1) (h : rangeOk s r 0x4010 0 v = true) :
    bits v 21 20 = 0 ∧ bit v 23 = false ∧ bits v 63 32 = 0 := by
  unfold rangeOk at h
  rw [hsub, Bool.and_eq_true] at h
  have hbits : (bits v 21 20 == 0 && !bit v 23 && bits v 63 32 == 0) = true := h.2
  simpa [and_assoc] using hbits

variable (he : bits v 19 0 < extLimit) (hst : stallState s (bits v 31 24) = 1)
  (hres : bits v 21 20 = 0 ∧ bit v 23 = false ∧ bits v 63 32 = 0)
include he hst hres

theorem extentGrant_of_free (hfree : (extRec s (bits v 19 0)).state = 0) (hquota : extCount s (bits v 31 24) < cv s 0x4011 3 (bits v 31 24))
    (hroom : if bit v 22 then backedGranted s < backedCapacity s else 1 ≤ pinnedAvailable s) :
    extentGrant v s = (OK, touchExt (bits v 19 0)
      { state := 1, backed := bit v 22, stall := bits v 31 24, grant := s.ext.grants, frames := grantFrames s (bit v 22) }
      { s with ext := { s.ext with grants := s.ext.grants + 1 } }) := by
  obtain ⟨h1, h2, h3⟩ := hres
  have hcap : (if bit v 22 then decide (backedGranted s < backedCapacity s) else decide (1 ≤ pinnedAvailable s)) = true := by
    split <;> simp_all
  simp only [extentGrant, firstFail, he, hst, h1, h2, h3, hfree, hquota, hcap, decide_true, BEq.rfl, Bool.and_self, if_true]

theorem extentGrant_of_taken (htaken : (extRec s (bits v 19 0)).state ≠ 0) : extentGrant v s = (BUSY, s) := by
  obtain ⟨h1, h2, h3⟩ := hres
  have hno : ((extRec s (bits v 19 0)).state == 0) = false := beq_eq_false_iff_ne.mpr htaken
  simp only [extentGrant, firstFail, he, hst, h1, h2, h3, hno, decide_true, BEq.rfl, Bool.and_self, if_true, Bool.false_eq_true, if_false]

end

/-! ## Agents and modes (R190, R191, R195) -/

section
variable {s : State} {k st : Nat}

theorem bindAgent_of_quiet (hst : st < 256) (hlines : agentLines s k = 0) (hreqs : ∀ r ∈ s.coh.reqs, r.agent = k → r.phase = 3)
    (hport : (standingPorts s st).contains (k / 16) = true ∨ standingFits s st (k / 16) = true) :
    bindAgent k st s = (OK, cvSet 0x5010 1 k st (if agentStall s k = st then s else cvSet 0x5010 3 k 0 s)) := by
  have hany : ¬ (s.coh.reqs.any (fun r => r.agent == k && r.phase != 3) = true) := by
    simpa using hreqs
  have hcal : ¬ ((decide (st < 256) && !(standingPorts s st).contains (k / 16) && !standingFits s st (k / 16)) = true) := by
    rcases hport with h | h <;> simp_all
  simp only [bindAgent, hst, decide_true, Bool.or_true, Bool.not_true, Bool.false_eq_true, if_false, hlines, ne_eq, not_true_eq_false,
    false_or, if_neg hany]
  rw [if_neg (by simpa [hst] using hcal)]

/-- Entering OWNER_ORDERED changes MODE, its count, AGENT_CLEAN and the lines dropped, no other value. -/
theorem cv_enterOwnerOrdered {i j n : Nat} (hi : i < 0x5000 ∨ 0x5000 < i ∧ i < 0x5010 ∨ i = 0x5000 ∧ j = 2)
    (hj : j < 256) (hn : n < 65536) (hk : k < 256) : cv (enterOwnerOrdered k s) i j n = cv s i j n := by
  unfold enterOwnerOrdered
  split
  · rfl
  · refine (cv_foldl _ (fun a ha t => cv_cvSet_ne ?_ _ t) _).trans ?_
    · have := lt_of_mem_agentsOf ha
      unfold catKey; omega
    · exact (cv_cvAdd_ne (by unfold catKey; omega) ..).trans (cv_cvSet_ne (by unfold catKey; omega) ..)

theorem homeOrdered_enterOwnerOrdered (hk : k < 256) : homeOrdered (enterOwnerOrdered k s) k = false := by
  unfold enterOwnerOrdered
  split
  case isTrue h => simpa using h
  case isFalse =>
    have hmode : cv ((agentsOf s k).foldl (fun t a => cvSet 0x5010 3 a 0 t) (cvAdd 0x5000 3 k 1 (cvSet 0x5000 1 k 0 s))) 0x5000 1 k = 0 := by
      refine (cv_foldl _ (fun a ha t => cv_cvSet_ne ?_ _ t) _).trans ?_
      · have := lt_of_mem_agentsOf ha
        unfold catKey; omega
      · exact (cv_cvAdd_ne (by unfold catKey; omega) ..).trans (cv_cvSet_same ..)
    exact beq_eq_false_iff_ne.mpr fun hone => absurd (hmode.symm.trans hone) (by decide)

theorem coherenceTest_one (k : Nat) (s : State) : coherenceTest k 1 s = (OK, enterOwnerOrdered k (cvSet 0x5000 2 k 1 s)) := rfl

/-- Of the coherence state only the lines dropped change. -/
theorem coh_enterOwnerOrdered : (enterOwnerOrdered k s).coh = { s.coh with dropped := (enterOwnerOrdered k s).coh.dropped } := by
  have hfold := eq_with_cat_foldl (f := fun t a => cvSet 0x5010 3 a 0 t) (fun _ _ => rfl) (agentsOf s k)
    (cvAdd 0x5000 3 k 1 (cvSet 0x5000 1 k 0 s))
  unfold enterOwnerOrdered
  split
  · rfl
  · dsimp only
    rw [hfold]
    rfl

end

/-! ## Client contexts (R415) -/

section
variable {s : State} {c : Nat}

theorem contextEnable_of_fit (hoff : (ctxOf s c).state = 0) (hst : ctxStall s c < 256) (hn : 0 < cv s 0x9100 3 c) (hm : 0 < cv s 0x9100 5 c)
    (ha : cv s 0x9100 2 c % (64 * cv s 0x9100 3 c) = 0) (hb : cv s 0x9100 4 c % (32 * cv s 0x9100 5 c) = 0)
    (hport : ctxPort s c < 128 ∧ pinnedRange s (ctxStall s c) (cv s 0x9100 2 c) (64 * cv s 0x9100 3 c) = true
        ∧ pinnedRange s (ctxStall s c) (cv s 0x9100 4 c) (32 * cv s 0x9100 5 c) = true
      ∨ ctxPort s c = 128 ∧ ∀ e ∈ s.ctxs, e.1 ≠ c → e.2.state ≠ 0 → ctxPort s e.1 = 128 → cv s 0x5810 6 e.1 ≠ cv s 0x5810 6 c) :
    contextEnable c s = (OK, setCtx c { state := 1 } s) := by
  have hpasid : ctxPort s c = 128 →
      s.ctxs.any (fun e => e.1 != c && e.2.state != 0 && ctxPort s e.1 == 128 && cv s 0x5810 6 e.1 == cv s 0x5810 6 c) = false := by
    intro h128
    have hall := (hport.resolve_left (by omega)).2
    simp only [List.any_eq_false, Bool.and_eq_true, bne_iff_ne, beq_iff_eq, not_and, and_imp]
    exact hall
  have hfit : ¬ (255 < ctxStall s c ∨ ctxPort s c = 255 ∨ cv s 0x9100 3 c = 0 ∨ cv s 0x9100 5 c = 0
      ∨ cv s 0x9100 2 c % (64 * cv s 0x9100 3 c) ≠ 0 ∨ cv s 0x9100 4 c % (32 * cv s 0x9100 5 c) ≠ 0
      ∨ (ctxPort s c < 128 ∧ (!(pinnedRange s (ctxStall s c) (cv s 0x9100 2 c) (64 * cv s 0x9100 3 c)
          && pinnedRange s (ctxStall s c) (cv s 0x9100 4 c) (32 * cv s 0x9100 5 c))) = true)
      ∨ (ctxPort s c = 128 ∧
          s.ctxs.any (fun e => e.1 != c && e.2.state != 0 && ctxPort s e.1 == 128 && cv s 0x5810 6 e.1 == cv s 0x5810 6 c) = true)) := by
    rintro (h | h | h | h | h | h | ⟨h, hpin⟩ | ⟨h, hshared⟩)
    case inr.inr.inr.inr.inr.inr.inl =>
      obtain ⟨-, hp, hq⟩ := hport.resolve_right (by omega)
      simp [hp, hq] at hpin
    case inr.inr.inr.inr.inr.inr.inr => simp [hpasid h] at hshared
    all_goals omega
  simp only [contextEnable, hoff, ne_eq, not_true_eq_false, if_false]
  exact if_neg hfit

theorem contextDisable_of_idle (hon : (ctxOf s c).state ≠ 0) (hidle : ctxIdle s c = true) (hres : (ctxOf s c).reserved = 0) :
    contextDisable c s = (OK, setCtx c { ctxOf s c with state := 0 } s) := by
  simp [contextDisable, hon, hidle, hres]

theorem contextDisable_of_tracked (hbusy : ctxIdle s c = false) : contextDisable c s = (BUSY, s) := by
  simp [contextDisable, hbusy]

end

/-! ## The device's own writes (R499, R505) -/

section
variable {s : State} {r : CatRow} {d k v : Nat}

/-- A write of an injection point's arm: the rows of other indices are none of it. -/
theorem writeValue_injectArm (hd : d < 0x18) (hsub : r.sub = 1) (bytes : List Byte) :
    writeValue r (0xB100 + d) k v bytes s = injectArm d k v s := by
  have hin : 0xB100 ≤ 0xB100 + d ∧ 0xB100 + d ≤ 0xB117 := by omega
  unfold writeValue
  rw [hsub]
  split <;> try omega
  · rw [if_pos hin, Nat.add_sub_cancel_left]
  · exact absurd rfl ‹1 = 1 → False›

theorem injectArm_of_allowed (h : cv s 0xB020 1 = 1) : injectArm d k v s
    = (OK, cvSet (0xB100 + d) 1 k v { s with err := { s.err with armCount := AMap.set 0 s.err.armCount (d * 256 + k) 0 } }) := by
  simp [injectArm, h]

theorem injectArm_of_forbidden (h : cv s 0xB020 1 = 0) (hm : armMode v ≠ 0) : injectArm d k v s = (PROTECTION, s) := by
  simp [injectArm, h, hm]

/-- ADMIT_HOLD takes effect at once. -/
theorem app_admitHold : (catRow? 0x1010 5).map CatRow.app = some 0 := by decide +kernel

theorem app_of_entryOf {idx sub inst a : Nat} (hsub : sub ≠ 0) (happ : (catRow? idx sub).map CatRow.app = some a)
    (h : entryOf idx sub inst = some r) : r.app = a := by
  unfold entryOf at h
  rw [if_neg hsub] at h
  split at h
  case h_1 row hrow =>
    rw [hrow, Option.map_some] at happ
    split at h
    · cases h; exact Option.some.inj happ
    · cases h
  case h_2 => cases h

end

/-! ## Firmware updates (R467, R469) -/

section
variable {s : State}

theorem fwVerify_of_staged (h : fwState s = 1) (hsec : halted s 0 = false) :
    fwVerify s = (OK, setFwState 2 { s with fw := { s.fw with verifyStart := some (now s) } }) := by
  simp [fwVerify, h, hsec]

theorem fwHandoff_of_verified (h : fwState s = 3) (hphase : startPhase s ≠ 4) (hpause : devicePaused s = false)
    (hgroup : ∀ g, g < 6 → pendingGroup s g = false) (hcomp : ∀ c, c < 19 → halted s c = false) (hfw : s.fw.phase = 0) :
    fwHandoff s = (OK, setFwState 5 { s with fw := { s.fw with phase := 1, accepted := curRound s } }) := by
  have hg : (List.range 6).any (pendingGroup s) = false := by simpa using hgroup
  have hc : (List.range 19).any (halted s) = false := by simpa using hcomp
  simp [fwHandoff, h, hphase, hpause, hg, hc, hfw]

theorem fwClear_of_idle (h : fwState s ∈ [1, 3, 4, 6]) (hsec : halted s 0 = false) :
    fwClear s = (OK, setFwState 0 { s with fw := { s.fw with stage := [] } }) := by
  have hc : [1, 3, 4, 6].contains (fwState s) = true := List.contains_iff_mem.mpr h
  simp only [fwClear, hc, hsec, Bool.not_false, Bool.and_self, if_true]

theorem fwStageImage_of_fit {img : List Byte} (h2 : fwState s ≠ 2) (h5 : fwState s ≠ 5) (hlen : img.length ≤ 1048576) :
    fwStageImage img s = (OK, setFwState 1 { s with fw := { s.fw with stage := img } }) := by
  simp only [fwStageImage, h2, h5, or_self, if_false, if_neg (Nat.not_lt.mpr hlen)]

/-- FW_STAGE's row: a value of any length, quiesced (R467). -/
def fwStageRow : CatRow := ⟨1, "FW_STAGE", 0, 11, 1, 2, 0, 0, 2, 0, 0, 0, 0⟩

theorem entryOf_fwStage : entryOf 0xA010 1 0 = some fwStageRow := by decide +kernel

theorem maxOf_singleton (n : Nat) : maxOf [n] = n := Nat.zero_max n

/-- A whole image in one FINAL segment is the value. -/
theorem assembled_whole {r : CatRow} {q : CatReq} {data : List Byte} (hlen : r.len = 0) (happ : r.app ≠ 3) :
    assembled s r q [(0, data)] = data := by
  simp [assembled, overlay, hlen, happ, maxOf_singleton]

/-- The write of a whole image (R435, R467). -/
theorem fwStageWrite_whole {rq : Requester} {data : List Byte} (hctx : ∀ c, rq ≠ .ctx c) (hserved : served s rq 0xA010 true = some none)
    (hlen : data.length ≤ 1048576) (hadmin : holds s rq 2 0 0xA010 0 = true) (h2 : fwState s ≠ 2) (h5 : fwState s ≠ 5)
    (hasm : asmOf s { rq := rq, idx := 0xA010, sub := 1, inst := 0, off := 0, len := data.length, flags := 2 } = []) :
    fwStageWrite rq 0 data s
      = answer rq 0 OK [] (setFwState 1 { dropAsm rq s with fw := { s.fw with stage := data } }) := by
  have hcheck : writeCheck s { rq := rq, idx := 0xA010, sub := 1, inst := 0, off := 0, len := data.length, flags := 2 } 1048576 = .inl fwStageRow := by
    simp [writeCheck, entryOf_fwStage, fwStageRow, hadmin, writerOk, expertOk, isBlob, hlen, Nat.not_lt.mpr hlen]
  have hquiet : quiesced (dropAsm rq s) 0xA010 1 0 (leNat data) = true := by
    show (fwState s != 2 && fwState s != 5) = true
    simp [h2, h5]
  have hwhole : writeWhole fwStageRow 0xA010 0 data (dropAsm rq s)
      = (OK, setFwState 1 { dropAsm rq s with fw := { s.fw with stage := data } }) := by
    have hval : writeValue fwStageRow 0xA010 0 (leNat data) data (dropAsm rq s) = fwStageImage data (dropAsm rq s) := rfl
    have hrange : rangeOk (dropAsm rq s) fwStageRow 0xA010 0 (leNat data) = true := rfl
    have hq : quiesced (dropAsm rq s) 0xA010 fwStageRow.sub 0 (leNat data) = true := hquiet
    simp only [writeWhole, hrange, hq, hval]
    exact fwStageImage_of_fit h2 h5 hlen
  have hentry : writeEntry { rq := rq, idx := 0xA010, sub := 1, inst := 0, off := 0, len := data.length, flags := 2 } data 1048576 s
      = (OK, setFwState 1 { dropAsm rq s with fw := { s.fw with stage := data } }) := by
    have hblob : isBlob fwStageRow = true := rfl
    have hfinal : ({ rq := rq, idx := 0xA010, sub := 1, inst := 0, off := 0, len := data.length, flags := 2 } : CatReq).final = true := by
      simp [CatReq.final, bit]
    have hbytes : assembled s fwStageRow { rq := rq, idx := 0xA010, sub := 1, inst := 0, off := 0, len := data.length, flags := 2 }
      ([] ++ [(0, data)]) = data := assembled_whole rfl (by decide)
    simp only [writeEntry, hcheck, hblob, hfinal, Bool.not_true, Bool.and_false, Bool.false_eq_true, if_false, if_true, hasm, hbytes, hwhole]
  cases rq with
  | ctx c => exact absurd rfl (hctx c)
  | i3c _ | vdm _ | fw _ => simp only [fwStageWrite, writeAs, hserved, hentry]

end

end Sys2Proof.Machine

namespace Sys2Proof.Proofs
open Sys2Proof Sys2Proof.Machine Sys2Proof.Safety

/-- Settles O25: the write's reserved bits are clear, so EXTENT_GRANT's own checks decide (R29). -/
theorem extentGrant : Obligations.ExtentGrant := by
  intro s rq v h
  dsimp only
  intro he hst
  refine ⟨fun hfree hquota hroom => ?_, fun htaken => ?_⟩
  · refine congrArg Host.Outcome.next (catWriteAs_ok h fun r bytes _ hsub hrange => ?_)
    simp only [writeValue, hsub]
    exact extentGrant_of_free he hst (reserved_of_grant_range hsub hrange) hfree hquota hroom
  · obtain ⟨r, -, hsub, hrange, -⟩ := catWriteAs_of_entry h
    obtain ⟨q, hq⟩ := catWriteAs_refused h (x := BUSY) (by decide) fun r' bytes hsub' => by
      simp only [writeValue, hsub']
      exact extentGrant_of_taken he hst (reserved_of_grant_range hsub hrange) htaken
    exact ⟨q, congrArg Host.Outcome.next hq⟩

/-- Settles O29. -/
theorem agentsAndCoherence : Obligations.AgentsAndCoherence := by
  intro s rq k st
  refine ⟨fun h hst hlines hreqs hport => ?_, fun h => ?_, fun h hk => ?_, fun h => ?_⟩
  · have hok := catWriteAs_ok h fun r bytes _ hsub _ =>
      (show _ = bindAgent k st s by simp only [writeValue, hsub]).trans (bindAgent_of_quiet hst hlines hreqs hport)
    refine ⟨_, congrArg Host.Outcome.next hok, cv_cvSet_same .., fun hne => ?_, ?_⟩
    · rw [if_neg hne, cv_cvSet_ne (by unfold catKey; omega), cv_cvSet_same]
    · split <;> rfl
  · have hok := catWriteAs_ok h fun r bytes _ hsub _ => show _ = agentClean k 1 s by simp only [writeValue, hsub]
    exact ⟨_, congrArg Host.Outcome.next hok, cv_cvSet_same .., fun x hx => bne_iff_ne.mp (List.mem_filter.mp hx).2, rfl⟩
  · have hok := catWriteAs_ok h fun r bytes _ hsub _ => (show _ = coherenceTest k 1 s by simp only [writeValue, hsub]).trans (coherenceTest_one k s)
    refine ⟨_, congrArg Host.Outcome.next hok, ?_, homeOrdered_enterOwnerOrdered hk, ?_, ?_⟩
    · exact (cv_enterOwnerOrdered (.inr (.inr ⟨rfl, rfl⟩)) (by decide) (by omega) hk).trans (cv_cvSet_same ..)
    · rw [coh_enterOwnerOrdered]; rfl
    · rw [coh_enterOwnerOrdered]; rfl
  · refine congrArg Host.Outcome.next (catWriteAs_ok h fun r bytes _ hsub _ => ?_)
    simp only [writeValue, hsub]
    rfl

/-- Settles O30. -/
theorem contextsAreEnabledAndDisabled : Obligations.ContextsAreEnabledAndDisabled := by
  intro s rq c
  refine ⟨fun h hoff hst hn hm ha hb hport => ?_, fun h hon hidle hres => ?_, fun h hbusy => ?_⟩
  · refine congrArg Host.Outcome.next (catWriteAs_ok h fun r bytes _ hsub _ => ?_)
    simp only [writeValue, hsub]
    exact contextEnable_of_fit hoff hst hn hm ha hb hport
  · refine congrArg Host.Outcome.next (catWriteAs_ok h fun r bytes _ hsub _ => ?_)
    simp only [writeValue, hsub]
    exact contextDisable_of_idle hon hidle hres
  · obtain ⟨q, hq⟩ := catWriteAs_refused h (x := BUSY) (by decide) fun r bytes hsub => by
      simp only [writeValue, hsub]
      exact contextDisable_of_tracked hbusy
    exact ⟨q, congrArg Host.Outcome.next hq⟩

/-- Settles O31: each write reaches its own check; ADMIT_HOLD's row takes effect at once. -/
theorem deviceWrites : Obligations.DeviceWrites := by
  intro s rq k v
  refine ⟨fun h => ?_, fun d hd h hallow => ?_, fun d hd h hforbid hm => ?_, fun h => ?_, fun h hfree => ?_, fun h => ?_⟩
  · refine congrArg Host.Outcome.next (catWriteAs_ok h fun r bytes hr hsub _ => ?_)
    simp only [writeValue, hsub, applyWrite, app_of_entryOf (by decide) app_admitHold hr]
  · have hok := catWriteAs_ok h fun r bytes _ hsub _ => (writeValue_injectArm hd hsub bytes).trans (injectArm_of_allowed hallow)
    exact ⟨_, congrArg Host.Outcome.next hok, cv_cvSet_same .., rfl⟩
  · obtain ⟨q, hq⟩ := catWriteAs_refused h (x := PROTECTION) (by decide) fun r bytes hsub =>
      (writeValue_injectArm hd hsub bytes).trans (injectArm_of_forbidden hforbid hm)
    exact ⟨q, congrArg Host.Outcome.next hq⟩
  · refine congrArg Host.Outcome.next (catWriteAs_ok h fun r bytes _ hsub _ => ?_)
    simp only [writeValue, hsub]
    rfl
  · refine congrArg Host.Outcome.next (catWriteAs_ok h fun r bytes _ hsub _ => ?_)
    simp only [writeValue, hsub, oppCeilingWrite, hfree]
    rfl
  · refine congrArg Host.Outcome.next (catWriteAs_ok h fun r bytes _ hsub _ => ?_)
    simp only [writeValue, hsub]
    rfl

/-- Settles O36: each write reaches its own check; a FINAL segment at offset 0 of an empty assembly is the whole image. -/
theorem firmwareWrites : Obligations.FirmwareWrites := by
  intro s rq
  refine ⟨fun off data hctx hserved _ hlen hadmin h2 h5 hasm hoff => ?_, fun h hfw hsec => ?_,
    fun h hfw hphase hpause hgroup hcomp hhand => ?_, fun h hfw hsec => ?_⟩
  · subst hoff
    rw [Nat.zero_add] at hlen
    exact ⟨_, congrArg Host.Outcome.next (fwStageWrite_whole hctx hserved hlen hadmin h2 h5 hasm), cv_cvSet_same .., rfl⟩
  · refine congrArg Host.Outcome.next (catWriteAs_ok h fun r bytes _ hsub _ => ?_)
    simp only [writeValue, hsub]
    exact fwVerify_of_staged hfw hsec
  · refine congrArg Host.Outcome.next (catWriteAs_ok h fun r bytes _ hsub _ => ?_)
    simp only [writeValue, hsub]
    exact fwHandoff_of_verified hfw hphase hpause hgroup hcomp hhand
  · refine congrArg Host.Outcome.next (catWriteAs_ok h fun r bytes _ hsub _ => ?_)
    simp only [writeValue, hsub]
    exact fwClear_of_idle hfw hsec

end Sys2Proof.Proofs

namespace Sys2Proof.Machine
open Sys2Proof

/-! ## Reading a value through an update -/

section
variable {s : State}

/-- Any value after one is set. -/
theorem cv_cvSet (i j k v i' j' k' : Nat) (s : State) :
    cv (cvSet i j k v s) i' j' k' = if catKey i' j' k' = catKey i j k then v else cv s i' j' k' := by
  split
  case isTrue h => simp only [cv, cvSet, h, AMap.get_set_same (Option.some_ne_none v)]
  case isFalse h => exact cv_cvSet_ne h v s

theorem cv_cvAdd (i j k n i' j' k' : Nat) (s : State) :
    cv (cvAdd i j k n s) i' j' k' = if catKey i' j' k' = catKey i j k then cv s i j k + n else cv s i' j' k' := cv_cvSet ..

/-- An update of groups other than the catalogue and the clocks. -/
@[simp] theorem cv_mk {i j k : Nat} {pending ext mem tally ctxs gate store coh xl fab emb colls movers twine port fw sec err sent freeCtr orders} :
    cv ⟨pending, s.clk, s.cat, ext, mem, tally, ctxs, gate, store, coh, xl, fab, emb, colls, movers, twine, port, fw, sec, err, sent, freeCtr, orders⟩ i j k
      = cv s i j k := rfl

end

/-! ## Handoffs (R467-R474) -/

section
variable {s : State}

@[simp] theorem fwState_mk {pending ext mem tally ctxs gate store coh xl fab emb colls movers twine port fw sec err sent freeCtr orders} :
    fwState ⟨pending, s.clk, s.cat, ext, mem, tally, ctxs, gate, store, coh, xl, fab, emb, colls, movers, twine, port, fw, sec, err, sent, freeCtr, orders⟩
      = fwState s := rfl

@[simp] theorem fwState_setFwState (v : Nat) (s : State) : fwState (setFwState v s) = v := cv_cvSet_same ..

theorem fwState_cvSet_of_ne {i j k : Nat} (h : catKey 0xA010 3 0 ≠ catKey i j k) (v : Nat) (s : State) : fwState (cvSet i j k v s) = fwState s :=
  cv_cvSet_ne h v s

/-- The state once the staged image has verified. -/
theorem verifyDone_of_ok (h : fwState s = 2) (hok : verifyImage s s.fw.stage (cv s 0xA000 4) = 1) :
    verifyDone s = cvSet 0xA010 6 0 (leNat (sha256 s.fw.stage)) (cvSet 0xA010 5 0 (slotVersion (.image s.fw.stage))
      (setFwState 3 (cvSet 0xA010 4 0 1 { s with fw := { s.fw with verifyStart := none } }))) := by
  simp only [verifyDone, h, hok, ne_eq, not_true_eq_false, if_false, if_true]

theorem verifyDone_of_bad (h : fwState s = 2) (hbad : verifyImage s s.fw.stage (cv s 0xA000 4) ≠ 1) :
    verifyDone s = fwReject (verifyImage s s.fw.stage (cv s 0xA000 4)) { s with fw := { s.fw with verifyStart := none } } := by
  simp only [verifyDone, h, hbad, ne_eq, not_true_eq_false, if_false]

theorem fwState_fwReject (x : Nat) (s : State) : fwState (fwReject x s) = 4 := fwState_setFwState ..
theorem result_fwReject (x : Nat) (s : State) : cv (fwReject x s) 0xA010 4 = x :=
  (cv_cvSet_ne (by decide) ..).trans (cv_cvSet_same ..)
theorem devicePaused_fwReject (x : Nat) (s : State) : devicePaused (fwReject x s) = devicePaused s := by
  simp only [devicePaused, fwReject, setFwState]
  rw [cv_cvSet_ne (by decide), cv_cvSet_ne (by decide)]

theorem prepareEnd_of_early (h : s.fw.phase = 1) (hr : curRound s < s.fw.accepted + 64) : prepareEnd s = { s with fw := { s.fw with phase := 2 } } :=
  if_pos ⟨h, hr⟩
theorem prepareEnd_of_late (hr : s.fw.accepted + 64 ≤ curRound s) : prepareEnd s = s :=
  if_neg fun h => Nat.not_lt.mpr hr h.2
theorem prepareTimeout_of_late (h : s.fw.phase = 1) (hr : s.fw.accepted + 64 ≤ curRound s) (h5 : fwState s = 5) :
    prepareTimeout s = fwReject 7 { s with fw := { s.fw with phase := 0 } } := by
  simp only [prepareTimeout, h, hr, h5, and_self, if_true]

theorem pauseStart_of_ready (h : s.fw.phase = 2) (hb : atBoundary s = true) : pauseStart s
    = cvSet 0x1020 2 0 (now s + 399360) (cvSet 0x1020 1 0 1
        { s with fw := { s.fw with phase := 3, p0 := curRound s, secDone := fwState s != 5 && !s.fw.recovering.contains 0 } }) :=
  if_pos ⟨h, hb⟩

/-- Lowering the pause's end is a catalogue value alone. -/
@[simp] theorem lowerPause_fw (s : State) : (lowerPause s).fw = s.fw := by
  unfold lowerPause
  split <;> rfl
@[simp] theorem comp_lowerPause (s : State) (d : Nat) : comp (lowerPause s) d = comp s d := by
  simp only [comp, lowerPause_fw]

@[simp] theorem halted_lowerPause (s : State) (d : Nat) : halted (lowerPause s) d = halted s d := by
  simp only [halted, comp_lowerPause]
@[simp] theorem comp_setRole (core r : Nat) (s : State) (d : Nat) : comp (setRole core r s) d = comp s d := rfl

theorem comp_setComp_same {c : Nat} {x : Comp} (h : x ≠ {}) (s : State) : comp (setComp c x s) c = x := AMap.get_set_same h ..
theorem comp_setComp_ne {c d : Nat} (h : d ≠ c) (x : Comp) (s : State) : comp (setComp c x s) d = comp s d := AMap.get_set_ne _ _ _ h

/-- Moving a component's core changes the roles of cores alone. -/
@[simp] theorem moveCore_comps (c : Nat) (s : State) : (moveCore c s).fw.comps = s.fw.comps := by
  unfold moveCore
  split <;> rfl

theorem secRestart_of_waiting (h : s.fw.phase = 3) (hsec : s.fw.secDone = false) :
    (secRestart s).fw.secDone = true ∧ halted (secRestart s) 0 = false := by
  unfold secRestart
  rw [if_pos ⟨h, by simp [hsec]⟩]
  dsimp only
  rw [halted_lowerPause, lowerPause_fw]
  split
  case isTrue =>
    refine ⟨rfl, ?_⟩
    rw [halted, comp_setRole, comp_setComp_same (fun h => by cases congrArg Comp.restart h)]
  case isFalse hno => exact ⟨rfl, Bool.eq_false_iff.mpr hno⟩

/-- The component due first moves. -/
theorem componentMove_of_due {c i : Nat} {rest : List (Nat × Nat)} (hb : atBoundary s = true) (h5 : fwState s = 5) (h : s.fw.phase = 3)
    (hdue : moveOrder.zipIdx.filter (fun x => decide (moveRound s x.2 ≤ curRound s) && !(comp s x.1).moved) = (c, i) :: rest) :
    componentMove s = lowerPause (setComp c { comp s c with moved := true } (moveCore c s)) := by
  simp [componentMove, h, hb, h5, hdue]

/-- The pause ends on the new image. -/
theorem reopen_of_moved (hb : atBoundary s = true) (h5 : fwState s = 5) (h : s.fw.phase = 3) (hall : allMoved s = true)
    (hsec : s.fw.secDone = true) (hp0 : s.fw.p0 + 19 ≤ curRound s) (hend : cv s 0x1020 2 ≤ now s) :
    reopen s = endPause (cvAdd 0xA000 5 0 1 (cvSet 0xA000 3 0 (cv s 0xA000 4) (setFwState 6
      { s with fw := { s.fw with inEffect := .image s.fw.stage,
                                 roles := if cv s 0xA000 4 = cv s 0xA000 3 then s.fw.roles else rolesOf (cv s 0xA000 4 == 1) },
               sec := { s.sec with bootPending := true } }))) := by
  simp [reopen, hb, h5, h, hall, hsec, hp0, Nat.not_lt.mpr hend]

theorem cv_endPause (i j k : Nat) (s : State) : cv (endPause s) i j k
    = if catKey i j k = catKey 0xA010 8 0 then now s - s.fw.p0 * 1280 else if catKey i j k = catKey 0x1020 1 0 then 0 else cv s i j k := by
  simp only [endPause, cv_mk, cv_cvSet]

/-- The last component moved returns to a core, which changes the roles of cores alone. -/
theorem rollback_of_moved {c : Nat} (hb : atBoundary s = true) (h5 : fwState s = 5) (h : s.fw.phase = 4) (hacc : s.fw.accepted ≠ curRound s)
    (hlast : (moveOrder.filter (fun c => (comp s c).moved)).getLast? = some c) :
    ∃ roles, let v := { s with fw := { s.fw with roles := roles } }
      rollback s = setComp c { comp v c with moved := false, halted := false, missed := false }
        { v with fw := { v.fw with recovering := v.fw.recovering.filter (· != c), accepted := curRound v } } := by
  have hlate : ¬ (s.fw.phase = 3 ∧ s.fw.p0 + 280 ≤ curRound s ∧ (!(comp s 2).moved) = true) := by omega
  have hgo : ¬ (s.fw.phase ≠ 4 ∨ s.fw.accepted = curRound s) := by omega
  have hrun : ¬ ((!atBoundary s || fwState s != 5) = true) := by simp [hb, h5]
  cases hp : pooled s with
  | true =>
    refine ⟨s.fw.roles, ?_⟩
    simp only [rollback, if_neg hrun, if_neg hlate, if_neg hgo, hlast, hp, if_true]
  | false =>
    let cur := if (comp s c).halted then coreOf s 0xFF else compCore s c
    refine ⟨(setRole (coreOf s 0x00) (roleCode c) (setRole cur 0x00 s)).fw.roles, ?_⟩
    simp only [rollback, if_neg hrun, if_neg hlate, if_neg hgo, hlast, hp, Bool.false_eq_true, if_false]
    rfl

theorem rollback_of_returned (hb : atBoundary s = true) (h5 : fwState s = 5) (h : s.fw.phase = 4) (hacc : s.fw.accepted = curRound s) :
    rollback s = s := by
  simp [rollback, hb, h5, h, hacc]

end

end Sys2Proof.Machine

namespace Sys2Proof.Proofs
open Sys2Proof Sys2Proof.Machine

/-- Settles O37, stage by stage. -/
theorem handoffsMoveComponents : Obligations.HandoffsMoveComponents := by
  refine ⟨fun s => ⟨fun r h hr => ?_, fun h hr => ?_, fun _ hr => ?_, fun h hr h5 => ?_, fun h hb => ?_, fun h hsec => ?_⟩,
    fun s hb h5 => ⟨fun c i rest h hdue => ?_, fun h hall hsec hp0 hend => ?_, fun c h hacc hlast => ?_, fun h hacc => ?_⟩⟩
  · by_cases hok : r = 1
    · rw [hok] at hr
      refine ⟨_, congrArg Host.Outcome.next (verifyDone_of_ok h hr), ?_, ?_, rfl, fun _ => ⟨?_, ?_⟩⟩
      all_goals simp [hok, fwState, setFwState, cv_cvSet, catKey]
    · subst hr
      refine ⟨_, congrArg Host.Outcome.next (verifyDone_of_bad h hok), ?_, result_fwReject .., rfl, fun h1 => absurd h1 hok⟩
      rw [fwState_fwReject, if_neg hok]
  · exact congrArg Host.Outcome.next (prepareEnd_of_early h hr)
  · exact congrArg Host.Outcome.next (prepareEnd_of_late hr)
  · refine ⟨_, congrArg Host.Outcome.next (prepareTimeout_of_late h hr h5), fwState_fwReject .., result_fwReject .., rfl, ?_⟩
    exact devicePaused_fwReject ..
  · refine ⟨_, congrArg Host.Outcome.next (pauseStart_of_ready h hb), ?_, cv_cvSet_same .., rfl, rfl⟩
    simp [devicePaused, cv_cvSet, catKey]
  · exact ⟨_, rfl, secRestart_of_waiting h hsec⟩
  · refine ⟨_, congrArg Host.Outcome.next (componentMove_of_due hb h5 h hdue), ?_, fun d hd => ?_⟩
    · rw [comp_lowerPause, comp_setComp_same (fun h => by cases congrArg Comp.moved h)]
    · rw [comp_lowerPause, comp_setComp_ne hd, comp, moveCore_comps, comp]
  · refine ⟨_, congrArg Host.Outcome.next (reopen_of_moved hb h5 h hall hsec hp0 hend), ?_, ?_, rfl, rfl, ?_, ?_⟩
    all_goals simp [fwState, devicePaused, setFwState, cv_endPause, cv_cvAdd, cv_cvSet, catKey]
  · obtain ⟨roles, heq⟩ := rollback_of_moved hb h5 h hacc hlast
    exact ⟨_, congrArg Host.Outcome.next heq, rfl, rfl⟩
  · exact congrArg Host.Outcome.next (rollback_of_returned hb h5 h hacc)

end Sys2Proof.Proofs

namespace Sys2Proof.Machine
open Sys2Proof

/-! ## Pacts (R130-R133) -/

section
variable {s : State} {p : Nat}

/-- A record of stall `x` on a pact changes nothing but what records change. -/
theorem pactNote_quiet {t : State} (x st : Nat) (h : Quiet s t) :
    Quiet s (if x < 256 then errRec 0x81 p st 0xFFFF x 0 false false t else t) :=
  Quiet.ite (fun _ => errRec_quiet h) (fun _ => h)

/-- A pact's new state is set, then noted in the log and in records. -/
theorem setPact_quiet (st : Nat) (s : State) : ∃ log, Quiet { cvSet 0x3040 8 p st s with err := { s.err with pactLog := log } } (setPact p st s) := by
  unfold setPact
  exact ⟨_, pactNote_quiet _ _ (pactNote_quiet _ _ (Quiet.refl _))⟩

theorem pactState_setPact (hp : p < 65536) (st : Nat) (s : State) : cv (setPact p st s) 0x3040 8 p = st := by
  obtain ⟨log, hq⟩ := setPact_quiet st s
  exact (hq.cv (by decide) (by decide) hp).trans (cv_cvSet_same ..)

theorem pactInForce_of_agreed (h1 : cv s 0x3040 8 p = 1) (hb : atBoundary s = true) (ha : cv s 0x3040 6 p = 1) (hc : cv s 0x3040 7 p = 1)
    (ho : pactObjectOk s p = true) : pactInForce p s = setPact p 2 s := by
  simp [pactInForce, h1, hb, ha, hc, ho]

theorem pactInForce_of_open (h : cv s 0x3040 6 p ≠ 1 ∨ cv s 0x3040 7 p ≠ 1) : pactInForce p s = s := by
  refine if_neg fun hall => ?_
  simp only [Bool.and_eq_true, beq_iff_eq, decide_eq_true_eq] at hall
  obtain ⟨⟨⟨-, ha⟩, hc⟩, -⟩ := hall
  exact h.elim (absurd ha) (absurd hc)

theorem pactLeaveForce_of_ending (h3 : cv s 0x3040 8 p = 3) (hb : atBoundary s = true) (hl : AMap.get [] s.err.pactEnd p = []) :
    pactLeaveForce p s = { s with err := { s.err with pactEnd := AMap.set [] s.err.pactEnd p (0 :: pactReqs s p) } } := by
  simp [pactLeaveForce, h3, hb, hl]

theorem pactEmpty_of_complete (h3 : cv s 0x3040 8 p = 3) (hl : AMap.get [] s.err.pactEnd p ≠ [])
    (hall : ∀ r ∈ AMap.get [] s.err.pactEnd p, reqOf s r = none) :
    pactEmpty p s = setPact p 0 { s with err := { s.err with pactEnd := AMap.set [] s.err.pactEnd p [] } } := by
  refine if_pos ?_
  simpa [h3, hl] using hall

theorem pactEmpty_of_running {r : Nat} (hr : r ∈ AMap.get [] s.err.pactEnd p) (hrun : reqOf s r ≠ none) : pactEmpty p s = s := by
  refine if_neg fun hall => hrun ?_
  simp only [Bool.and_eq_true, List.all_eq_true, Option.isNone_iff_eq_none] at hall
  exact hall.2 r hr

end

/-! ## The limit block (R110, R111) -/

section
variable {x : Sensors} {s : State}

theorem throttleEntry_of_over (hx : overLimits x = true) (ht : s.clk.throttled = false) (hp : s.clk.throttlePending = false) :
    throttleEntry x s = detectRec 0x12 (curRound s + 1) 0 0xFFFF 0 0 false (forceThrottle s) := by
  simp [throttleEntry, hx, ht, hp]

theorem throttleEntry_of_within (hx : overLimits x = false) : throttleEntry x s = s := by
  simp [throttleEntry, hx]

theorem throttleRelease_of_cool (ht : s.clk.throttled = true) (hx : belowLimits x = true) (hc : 64 ≤ s.clk.coolRounds) :
    throttleRelease x s = errRec 0x12 s.clk.throttleRound (curRound s - s.clk.throttleRound) 0xFFFF 0 0 true false
      { s with clk := { s.clk with throttled := false, coolRounds := 0 } } := by
  simp [throttleRelease, ht, hx, hc]

/-- Forcing a throttle counts it. -/
theorem events_forceThrottle (s : State) : cv (forceThrottle s) 0x2050 6 0 = cv s 0x2050 6 0 + 1 := cv_cvAdd_same ..

end

end Sys2Proof.Machine

namespace Sys2Proof.Proofs
open Sys2Proof Sys2Proof.Machine

/-- Settles O58, row by row. -/
theorem pactsComeAndGo : Obligations.PactsComeAndGo := by
  refine fun s p hp => ⟨fun h1 hb ha hc ho => ?_, fun h => ?_, fun h3 hb hl => ?_, fun h3 hl hall => ?_, fun r hr hrun => ?_⟩
  · exact ⟨_, congrArg Host.Outcome.next (pactInForce_of_agreed h1 hb ha hc ho), rfl, pactState_setPact hp ..⟩
  · exact congrArg Host.Outcome.next (pactInForce_of_open h)
  · exact congrArg Host.Outcome.next (pactLeaveForce_of_ending h3 hb hl)
  · exact ⟨_, congrArg Host.Outcome.next (pactEmpty_of_complete h3 hl hall), pactState_setPact hp ..⟩
  · exact congrArg Host.Outcome.next (pactEmpty_of_running hr hrun)

/-- Settles O16: what a record of the detector leaves as it was (`Quiet`). -/
theorem throttling : Obligations.Throttling := by
  refine ⟨fun x s => ⟨fun hx ht hp => ?_, fun hx => ?_⟩, fun x s ht hx hc => ?_⟩
  · have hq : Quiet (forceThrottle s) (detectRec 0x12 (curRound s + 1) 0 0xFFFF 0 0 false (forceThrottle s)) := detectRec_quiet (Quiet.refl _)
    refine ⟨_, congrArg Host.Outcome.next (throttleEntry_of_over hx ht hp), ?_, ?_, ?_, hq.gate, hq.ext⟩
    · rw [hq.clk]; rfl
    · rw [hq.clk]; rfl
    · rw [hq.cv (by decide) (by decide) (by decide), events_forceThrottle]
  · exact congrArg Host.Outcome.next (throttleEntry_of_within hx)
  · refine ⟨_, congrArg Host.Outcome.next (throttleRelease_of_cool ht hx hc), ?_⟩
    have hq := errRec_quiet (x0 := 0x12) (x1 := s.clk.throttleRound) (x2 := curRound s - s.clk.throttleRound) (x3 := 0xFFFF) (x4 := 0) (x5 := 0)
      (x6 := true) (x7 := false) (Quiet.refl { s with clk := { s.clk with throttled := false, coolRounds := 0 } })
    rw [hq.clk]
    exact ⟨rfl, rfl, rfl, hq.gate, hq.ext⟩

end Sys2Proof.Proofs

namespace Sys2Proof.Machine
open Sys2Proof

/-! ## Rounds (R90, R302) -/

section
variable {x : Sensors} {s : State}

/-- Setting the keys of a list, each to the value a function gives it. -/
theorem AMap.get_foldl_set {α : Type} [DecidableEq α] {d : α} (g : Nat → α) (l : List Nat) {m : AMap α} (h : AMap.wf d m = true) (k : Nat) :
    AMap.get d (l.foldl (fun m a => AMap.set d m a (g a)) m) k = if k ∈ l then g k else AMap.get d m k := by
  induction l generalizing m with
  | nil => rfl
  | cons a l ih =>
    rw [List.foldl_cons, ih (AMap.wf_set a _ h), AMap.get_set _ h]
    by_cases hl : k ∈ l
    · rw [if_pos hl, if_pos (List.mem_cons_of_mem _ hl)]
    · by_cases hk : k = a
      · subst hk
        rw [if_neg hl, if_pos rfl, if_pos List.mem_cons_self]
      · rw [if_neg hl, if_neg hk, if_neg (by simp [hk, hl])]

/-- Adding to catalogue values changes nothing but the catalogue. -/
theorem gate_foldl_cvAdd {α : Type} (i j : Nat) (k n : α → Nat) (l : List α) (s : State) :
    (l.foldl (fun t e => cvAdd i j (k e) (n e) t) s).gate = s.gate :=
  List.foldlRecOn l _ (motive := fun (t : State) => t.gate = s.gate) rfl fun _ ht _ _ => ht

/-- R90: a balance restarts from its rate, refunds and overruns, at most the purse's depth. A stall with nothing to settle has
no balance, and keeps none. -/
theorem balanceOf_settleBalances (st : Nat) (hst : st < 256) (ho : gateOpened s = true) (hwf : AMap.wf 0 s.gate.balance = true) :
    balanceOf (settleBalances s) st = balanceStep (cv s 0x2010 1 st) (AMap.get 0 s.gate.refunds st) (AMap.get 0 s.gate.overruns st)
      (purseDepth s st) (balanceOf s st) := by
  simp only [balanceOf, settleBalances, gate_foldl_cvAdd _ _ Prod.fst Prod.snd, ho, if_true]
  rw [AMap.get_foldl_set _ _ hwf]
  split
  case isTrue => rfl
  case isFalse hno =>
    have hnone : cv s 0x2010 1 st = 0 ∧ AMap.get 0 s.gate.refunds st = 0 ∧ AMap.get 0 s.gate.overruns st = 0 ∧ AMap.get 0 s.gate.balance st = 0 := by
      simpa [List.mem_filter, List.mem_range, hst, and_assoc, balanceOf] using hno
    obtain ⟨hr, hf, hv, hb⟩ := hnone
    simp only [balanceStep, hr, hf, hv, hb]
    omega

theorem roundBoundary_of_running (h : running s = true) : roundBoundary x s
    = if running (toBoundary 1280 s) then boundaryWith x (toBoundary 1280 s) else toBoundary 1280 s := by
  simp [roundBoundary, h]

theorem roundBoundary_of_stopped (h : running s = false) : roundBoundary x s = s := by
  simp [roundBoundary, h]

theorem loadNext_of_new (h : s.fab.nextRound ≠ curRound s + 1) : loadNext s
    = loadAll (curRound s + 1) s.fab.nextB { s with fab := { s.fab with nextB := {}, nextRound := curRound s + 1 } } := if_neg h

theorem loadNext_of_loaded (h : s.fab.nextRound = curRound s + 1) : loadNext s = s := if_pos h

/-- Which segments a round has does not depend on the streams. -/
theorem loadAll_of_none {r : Nat} {old : Stream} (fab : FabSt) (h : segmentsIn s r = []) : loadAll r old { s with fab := fab } = { s with fab := fab } := by
  have hno : segmentsIn { s with fab := fab } r = [] := h
  simp only [loadAll, hno, List.foldl_nil]

end

/-! ## Periods (R135, R157, R250, R329) -/

section
variable {s : State}

/-- The snapshot of one stall joins its stall's latest 64. -/
def takeSnapshot (t : State) (st : Nat) : State :=
  let m := snapshotBits (curRound t) (cv t 0x1000 3) (cv t 0x3020 1 st) ((List.range 7).map (fun i => cv t 0x3050 (i + 1) st))
  let l := AMap.get [] t.err.meterSnaps st ++ [m]
  { t with err := { t.err with meterSnaps := AMap.set [] t.err.meterSnaps st (l.drop (l.length - 64)) } }

theorem snapshotPeriod_of_due (hrun : running s = true) (hb : atBoundary s = true) (hp : cv s 0x3051 1 ≠ 0) (hr : curRound s % cv s 0x3051 1 = 0) :
    snapshotPeriod s = (liveStalls s).foldl takeSnapshot s := by
  simp only [snapshotPeriod, hrun, hb, hr, Bool.not_true, Bool.false_or, bne_self_eq_false, Bool.or_false, beq_iff_eq, hp, if_false]
  rfl

/-- The snapshot a stall takes of the state `s`. -/
def snapshotOf (s : State) (st : Nat) : Nat :=
  snapshotBits (curRound s) (cv s 0x1000 3) (cv s 0x3020 1 st) ((List.range 7).map (fun i => cv s 0x3050 (i + 1) st))

theorem drop_concat_64 {α : Type} (l : List α) (m : α) : ∃ k, (l ++ [m]).drop ((l ++ [m]).length - 64) = k ++ [m] :=
  ⟨l.drop ((l ++ [m]).length - 64), List.drop_append_of_le_length (by rw [List.length_append, List.length_singleton]; omega)⟩

/-- A snapshot changes the snapshots alone, and ends its stall's list. -/
theorem takeSnapshot_eq (t : State) (st : Nat) : takeSnapshot t st = { t with err := { t.err with meterSnaps := (takeSnapshot t st).err.meterSnaps } } := rfl

theorem takeSnapshot_same (t : State) (st : Nat) : ∃ l, AMap.get [] (takeSnapshot t st).err.meterSnaps st = l ++ [snapshotOf t st] := by
  obtain ⟨k, hk⟩ := drop_concat_64 (AMap.get [] t.err.meterSnaps st) (snapshotOf t st)
  refine ⟨k, .trans (AMap.get_set_same ?_ ..) hk⟩
  exact hk ▸ List.append_ne_nil_of_right_ne_nil _ (List.cons_ne_nil _ _)

theorem takeSnapshot_ne (t : State) {st st' : Nat} (h : st' ≠ st) : AMap.get [] (takeSnapshot t st).err.meterSnaps st' = AMap.get [] t.err.meterSnaps st' :=
  AMap.get_set_ne _ _ _ h

theorem foldl_takeSnapshot_eq (l : List Nat) (s : State) :
    l.foldl takeSnapshot s = { s with err := { s.err with meterSnaps := (l.foldl takeSnapshot s).err.meterSnaps } } :=
  List.foldlRecOn l takeSnapshot (motive := fun t => t = { s with err := { s.err with meterSnaps := t.err.meterSnaps } }) rfl
    fun t ht st _ => by rw [takeSnapshot_eq, ht]

theorem foldl_takeSnapshot_of_notMem (l : List Nat) {st : Nat} (h : st ∉ l) (s : State) :
    AMap.get [] (l.foldl takeSnapshot s).err.meterSnaps st = AMap.get [] s.err.meterSnaps st :=
  List.foldlRecOn l takeSnapshot (motive := fun t => AMap.get [] t.err.meterSnaps st = AMap.get [] s.err.meterSnaps st) rfl
    fun t ht a ha => (takeSnapshot_ne t fun hst : st = a => h (hst ▸ ha)).trans ht

/-- Once taken, a stall's snapshot stays the last of its list. -/
theorem foldl_takeSnapshot_of_mem (l : List Nat) {st : Nat} (h : st ∈ l) (s : State) :
    ∃ k, AMap.get [] (l.foldl takeSnapshot s).err.meterSnaps st = k ++ [snapshotOf s st] := by
  induction l generalizing s with
  | nil => cases h
  | cons a l ih =>
    rw [List.foldl_cons]
    by_cases hl : st ∈ l
    · exact ih hl (takeSnapshot s a)
    · obtain rfl : st = a := (List.mem_cons.mp h).resolve_right hl
      rw [foldl_takeSnapshot_of_notMem l hl]
      exact takeSnapshot_same s st

theorem decayPeriod_of_due {st : Nat} (hb : atBoundary s = true) (hp : cv s 0x7200 2 st ≠ 0) (hr : curRound s % cv s 0x7200 2 st = 0) :
    decayPeriod st s = { s with emb := { s.emb with freq := s.emb.freq.filterMap (fun e =>
      if e.1 / 2 ^ 32 = st then (if e.2 / 2 = 0 then none else some (e.1, e.2 / 2)) else some e) } } := by
  simp [decayPeriod, hb, hp, hr]

theorem heatPeriod_of_disabled {st : Nat} (h : cv s 0x5840 3 st ≠ 1) : heatPeriod st s = s := by
  simp [heatPeriod, h]

/-- A region's counters halve. -/
def halveHeat (t : State) (k : Nat) : State :=
  { t with xl := { t.xl with heatUnits := AMap.upd 0 t.xl.heatUnits k (· / 2), heatAgents := AMap.upd 0 t.xl.heatAgents k (· / 2) } }

theorem foldl_halveHeat_eq (l : List Nat) (s : State) : l.foldl halveHeat s
    = { s with xl := { s.xl with heatUnits := (l.foldl halveHeat s).xl.heatUnits, heatAgents := (l.foldl halveHeat s).xl.heatAgents } } :=
  List.foldlRecOn l halveHeat
    (motive := fun t => t = { s with xl := { s.xl with heatUnits := t.xl.heatUnits, heatAgents := t.xl.heatAgents } }) rfl
    fun t ht k _ => by rw [ht]; rfl

/-- With no region at the threshold there is no record, and the counters halve. -/
theorem heatPeriod_of_cool {st : Nat} (hb : atBoundary s = true) (ho : gateOpened s = true) (he : cv s 0x5840 3 st = 1)
    (hr : curRound s % cv s 0x5840 1 st = 0)
    (hcool : ∀ k, (extRec s (k / 512)).state ≠ 0 → (extRec s (k / 512)).stall = st →
      AMap.get 0 s.xl.heatUnits k + AMap.get 0 s.xl.heatAgents k < cv s 0x5840 2 st) :
    ∃ keys : List Nat, heatPeriod st s = keys.foldl halveHeat s := by
  have hnone (l : List Nat) :
      (l.filter (fun k => (extRec s (k / 512)).state != 0 && (extRec s (k / 512)).stall == st)).filter
        (fun k => decide (cv s 0x5840 2 st ≤ AMap.get 0 s.xl.heatUnits k + AMap.get 0 s.xl.heatAgents k)) = [] := by
    simp only [List.filter_eq_nil_iff, List.mem_filter, Bool.and_eq_true, bne_iff_ne, beq_iff_eq, decide_eq_true_eq, Nat.not_le]
    exact fun k hk => hcool k hk.2.1 hk.2.2
  simp only [heatPeriod, hb, ho, he, hr, hnone]
  exact ⟨_, rfl⟩

/-- The channel whose checkpoint begins. -/
def checkpointBegun (s : State) (ch : Nat) : Chan :=
  { chanOf s ch with ckptArea := some (if (chanOf s ch).ckptValid = 0 then 1 else 0), ckptNext := (chanOf s ch).sequence,
                     ckptLeft := cdiv (cv s 0x4050 3 / 64) 16384 + (if (recordChannels s).contains ch then 512 else 0), ckptEnd := 0, fill := 256 }

theorem checkpointPeriod_of_due {ch : Nat} (hch : ch < 64) (hst : chanState s ch = 1 ∨ chanState s ch = 2) (hb : atBoundary s = true)
    (hr : curRound s % max 1 (cv s 0x4040 6) = 0) (ha : (chanOf s ch).ckptArea = none) (hp : devicePaused s = false) :
    ∃ draft, checkpointPeriod ch s = setChan ch (checkpointBegun s ch) { s with store := { s.store with ckptDraft := draft } } := by
  refine ⟨_, if_neg ?_⟩
  have hstate : (chanState s ch == 1 || chanState s ch == 2) = true := by simpa using hst
  simp [hch, hstate, hb, hr, ha, hp]

theorem chanOf_setChan_same {f : Nat} {c : Chan} (h : c ≠ {}) (s : State) : chanOf (setChan f c s) f = c := AMap.get_set_same h ..
theorem chanOf_setChan_ne {f g : Nat} (h : g ≠ f) (c : Chan) (s : State) : chanOf (setChan f c s) g = chanOf s g := AMap.get_set_ne _ _ _ h

end

end Sys2Proof.Machine

namespace Sys2Proof.Proofs
open Sys2Proof Sys2Proof.Machine

/-- Settles O17. -/
theorem roundsAdvance : Obligations.RoundsAdvance := by
  refine fun x s => ⟨fun h => ?_, fun st hst ho hwf => balanceOf_settleBalances st hst ho hwf, fun h => ?_, fun h => ?_, fun h => ?_⟩
  · exact congrArg Host.Outcome.next (roundBoundary_of_running h)
  · have hload := loadNext_of_new h
    exact ⟨congrArg Host.Outcome.next hload, fun hno => congrArg Host.Outcome.next (hload.trans (loadAll_of_none _ hno))⟩
  · exact congrArg Host.Outcome.next (roundBoundary_of_stopped h)
  · exact congrArg Host.Outcome.next (loadNext_of_loaded h)

/-- Settles O18, period by period. -/
theorem periodsAtBoundaries : Obligations.PeriodsAtBoundaries := by
  refine ⟨fun s => ⟨fun hrun hb hp hr => ?_, fun st hb hp hr => ?_, fun rq => ?_, fun rq => ?_⟩,
    fun s st hb ho => ⟨fun he => ?_, fun he hr hcool => ?_⟩, fun s ch hch hst hb hr ha hp => ?_⟩
  · exact ⟨_, congrArg Host.Outcome.next (snapshotPeriod_of_due hrun hb hp hr), foldl_takeSnapshot_eq .., fun st hst => foldl_takeSnapshot_of_mem _ hst _⟩
  · exact congrArg Host.Outcome.next (decayPeriod_of_due hb hp hr)
  · exact ⟨_, rfl, rfl, fun b => by simp [assemblyExpiry]⟩
  · exact ⟨_, rfl, rfl, fun b => by simp [snapshotRelease]⟩
  · exact congrArg Host.Outcome.next (heatPeriod_of_disabled he)
  · obtain ⟨keys, heq⟩ := heatPeriod_of_cool hb ho he hr hcool
    exact ⟨_, congrArg Host.Outcome.next heq, foldl_halveHeat_eq ..⟩
  · obtain ⟨draft, heq⟩ := checkpointPeriod_of_due hch hst hb hr ha hp
    refine ⟨_, congrArg Host.Outcome.next heq, ?_, ?_, ?_, ?_, fun c hc => chanOf_setChan_ne hc .., rfl, rfl⟩
    all_goals rw [chanOf_setChan_same (fun h => by cases congrArg Chan.ckptArea h), checkpointBegun]

end Sys2Proof.Proofs

namespace Sys2Proof.Machine
open Sys2Proof

/-! ## Calibration (R103-R105) -/

section
variable {s t u : State}

/-- An unarmed point injects nothing. -/
theorem inject_of_unarmed {d : Nat} (h : armed s d 0 = false) (obj : Nat) (real : Bool) : inject d obj 0 real s = (none, s) := by
  have hmode : armMode (armOf s d 0) = 0 := by simpa [armed] using h
  have hno (a : Nat) (ha : armMode a = 0) : armMatches a obj = false := by simp [armMatches, ha]
  cases real
  · simp [inject, hno _ hmode, hno 0 (by decide)]
  · rfl

/-- What a record leaves as it was, LEDGER_OVER apart. -/
def QuietButLedger (s t : State) : Prop := Quiet s t ∨ ∃ u, Quiet s u ∧ t = cvAdd 0x2040 5 0 1 u

theorem QuietButLedger.clk (h : QuietButLedger s t) : t.clk = s.clk := by
  obtain h | ⟨u, h, rfl⟩ := h
  · exact h.clk
  · exact h.clk
theorem QuietButLedger.charged (h : QuietButLedger s t) : t.gate.charged = s.gate.charged := by
  obtain h | ⟨u, h, rfl⟩ := h
  · rw [h.gate]
  · rw [show (cvAdd 0x2040 5 0 1 u).gate = u.gate from rfl, h.gate]
theorem QuietButLedger.cv (h : QuietButLedger s t) {i j : Nat} (hi : i < 0x5002) (hj : j < 256) (hne : catKey i j 0 ≠ catKey 0x2040 5 0) :
    Machine.cv t i j 0 = Machine.cv s i j 0 := by
  obtain h | ⟨u, h, rfl⟩ := h
  · exact h.cv hi hj (by decide)
  · rw [cv_cvAdd_ne hne, h.cv hi hj (by decide)]

/-- The regulator's readings and the estimate, with the booked energy of the period at zero again. -/
def calibrationRead (vr : VrRead) (s : State) : State :=
  putVr 2 vr.status (putVr 3 vr.vout (putVr 4 vr.iout (putVr 5 vr.temp (cvSet 0x2040 4 0 (s.gate.charged + cv s 0x2000 3 * cv s 0x2040 1)
    { s with gate := { s.gate with charged := 0 }
             clk := { s.clk with eout := (vr.eout.map (fun m => (m, vr.wraps))).or s.clk.eout } }))))

theorem cv_putVr_ne {i j sub : Nat} (h : catKey i j 0 ≠ catKey 0x2060 sub 0) (v : Option Nat) (s : State) : cv (putVr sub v s) i j = cv s i j := by
  cases v with
  | none => rfl
  | some x => exact cv_cvSet_ne h ..
theorem cv_putVr (sub j : Nat) (v : Option Nat) (s : State) :
    cv (putVr sub v s) 0x2060 j = if j = sub then (match v with | some x => x % 65536 | none => cv s 0x2060 sub) else cv s 0x2060 j := by
  split
  case isTrue h =>
    subst h
    cases v with
    | none => rfl
    | some x => exact cv_cvSet_same ..
  case isFalse h => exact cv_putVr_ne (by unfold catKey; omega) ..
@[simp] theorem clk_putVr (sub : Nat) (v : Option Nat) (s : State) : (putVr sub v s).clk = s.clk := by cases v <;> rfl
@[simp] theorem gate_putVr (sub : Nat) (v : Option Nat) (s : State) : (putVr sub v s).gate = s.gate := by cases v <;> rfl

@[simp] theorem charged_calibrationRead (vr : VrRead) (s : State) : (calibrationRead vr s).gate.charged = 0 := by
  simp only [calibrationRead, gate_putVr]
  rfl
@[simp] theorem clk_calibrationRead (vr : VrRead) (s : State) :
    (calibrationRead vr s).clk = { s.clk with eout := (vr.eout.map (fun m => (m, vr.wraps))).or s.clk.eout } := by
  simp only [calibrationRead, clk_putVr]
  rfl

/-- Any value but the four readings and the estimate is as it was. -/
theorem cv_calibrationRead_ne {i j : Nat} (h4 : catKey i j 0 ≠ catKey 0x2040 4 0) (hne : ∀ sub, 2 ≤ sub → sub ≤ 5 → catKey i j 0 ≠ catKey 0x2060 sub 0)
    (vr : VrRead) (s : State) : cv (calibrationRead vr s) i j = cv s i j := by
  unfold calibrationRead
  rw [cv_putVr_ne (hne 2 (by decide) (by decide)), cv_putVr_ne (hne 3 (by decide) (by decide)), cv_putVr_ne (hne 4 (by decide) (by decide)),
    cv_putVr_ne (hne 5 (by decide) (by decide)), cv_cvSet_ne h4]
  rfl

variable {vr : VrRead}

theorem armed_calibrationRead (vr : VrRead) (s : State) : armed (calibrationRead vr s) 0x14 0 = armed s 0x14 0 := by
  have hne (sub : Nat) (h2 : 2 ≤ sub) (h5 : sub ≤ 5) : catKey (0xB100 + 0x14) 1 0 ≠ catKey 0x2060 sub 0 := by unfold catKey; omega
  simp only [armed, armOf, cv_calibrationRead_ne (by decide) hne]

/-- The check of the measured energy against the budget (R105), and the injections it gives an opportunity to. -/
def ledgerCheck (m period : Nat) (excess : Bool) (s : State) : State :=
  let led := inject 0x13 m 0 excess s
  if excess then cvAdd 0x2040 5 0 1 (detectRec 0x13 m period 0xFFFF 0 0 false led.2)
  else match led.1 with
    | some (dev, contain) =>
      let t := errRec 0x13 m period 0xFFFF 0 0 dev true led.2
      if contain && dev then cvAdd 0x2040 5 0 1 (detect 0x13 t) else t
    | none => led.2

theorem ledgerCheck_quiet (m period : Nat) (excess : Bool) (s : State) : QuietButLedger s (ledgerCheck m period excess s) := by
  have hinj : Quiet s (inject 0x13 m 0 excess s).2 := inject_quiet (Quiet.refl s)
  unfold ledgerCheck
  dsimp only
  split
  · exact .inr ⟨_, detectRec_quiet hinj, rfl⟩
  · split
    · split
      · exact .inr ⟨_, detect_quiet (errRec_quiet hinj), rfl⟩
      · exact .inl (errRec_quiet hinj)
    · exact .inl hinj

section
variable (hb : atBoundary s = true) (hr : curRound s % max 1 (cv s 0x2040 1) = 0) (hp : pwrDown s = false) (ha : armed s 0x14 0 = false)
include hb hr hp ha

/-- Without the energy of the period, only the detector's record follows the readings. -/
theorem calibrate_of_unmeasured (he : vr.eout.bind (fun m => eoutDiff s.clk.eout m vr.wraps) = none) :
    Quiet (calibrationRead vr s) (calibrate vr s) := by
  have hgo : ¬ ((!atBoundary s || curRound s % max 1 (cv s 0x2040 1) != 0) = true) := by simp [hb, hr]
  have hread : pmbusRead s vr = vr := by simp [pmbusRead, hp]
  unfold calibrate
  rw [if_neg hgo]
  dsimp only
  rw [hread, he, ← calibrationRead, inject_of_unarmed ((armed_calibrationRead vr s).trans ha)]
  exact Quiet.ite (fun _ => detectRec_quiet (Quiet.refl _)) (fun _ => Quiet.refl _)

/-- With it, the measured energy and the factor are set, and the ledger is checked. -/
theorem calibrate_of_measured {m : Nat} (he : vr.eout.bind (fun m => eoutDiff s.clk.eout m vr.wraps) = some m) :
    ∃ u, Quiet (calibrationRead vr s) u ∧
      QuietButLedger (cvSet 0x2040 3 0 m (cvSet 0x2040 2 0 (m * 1000000 / (s.gate.charged + cv s 0x2000 3 * cv s 0x2040 1)) u)) (calibrate vr s) := by
  have hgo : ¬ ((!atBoundary s || curRound s % max 1 (cv s 0x2040 1) != 0) = true) := by simp [hb, hr]
  have hread : pmbusRead s vr = vr := by simp [pmbusRead, hp]
  unfold calibrate
  rw [if_neg hgo]
  dsimp only
  rw [hread, he, ← calibrationRead, inject_of_unarmed ((armed_calibrationRead vr s).trans ha)]
  dsimp only
  rw [if_neg Bool.false_ne_true]
  refine ⟨_, ?_, ledgerCheck_quiet m (cv s 0x2040 1) _ _⟩
  exact Quiet.ite (fun _ => detectRec_quiet (Quiet.refl _)) (fun _ => Quiet.refl _)

end

theorem estimate_calibrationRead (vr : VrRead) (s : State) : cv (calibrationRead vr s) 0x2040 4 = s.gate.charged + cv s 0x2000 3 * cv s 0x2040 1 := by
  have hne (sub : Nat) (h : sub < 256) : catKey 0x2040 4 0 ≠ catKey 0x2060 sub 0 := by unfold catKey; omega
  simp only [calibrationRead]
  rw [cv_putVr_ne (hne 2 (by decide)), cv_putVr_ne (hne 3 (by decide)), cv_putVr_ne (hne 4 (by decide)), cv_putVr_ne (hne 5 (by decide)), cv_cvSet_same]

/-- The readings shown. -/
theorem readings_calibrationRead (vr : VrRead) (s : State) :
    let shown (sub : Nat) (v : Option Nat) := cv (calibrationRead vr s) 0x2060 sub = (match v with | some x => x % 65536 | none => cv s 0x2060 sub)
    shown 2 vr.status ∧ shown 3 vr.vout ∧ shown 4 vr.iout ∧ shown 5 vr.temp := by
  have hest (a : Nat) (ha : a < 256) (v : Nat) (t : State) : cv (cvSet 0x2040 4 0 v t) 0x2060 a = cv t 0x2060 a :=
    cv_cvSet_ne (by unfold catKey; omega) ..
  refine ⟨?_, ?_, ?_, ?_⟩
  all_goals
    unfold calibrationRead
    simp only [cv_putVr, hest, reduceIte, Nat.reduceEqDiff, Nat.reduceLT]
    rfl

end

/-! ## The operating point (R107-R109) -/

section
variable {s : State} {p vdd : Nat}

/-- Every point's voltage is one the limit block sends. -/
theorem avsTarget_oppMv (hp : p < 5) (s : State) :
    avsTarget (oppMv p) s = send (.avs (oppMv p)) { s with clk := { s.clk with vddTarget := oppMv p, vddTick := now s } } := by
  have hrange : ∀ p < 5, 650 ≤ oppMv p ∧ oppMv p ≤ 850 := by decide
  exact if_pos (hrange p hp)

variable (ht : oppTarget s = some p) (hp : p < 5) (hup : pwrDown s = false)
include ht hp hup

theorem voltageRaise_of_due (hn : now s % 1280 ≤ 640) (hlow : cv s 0x2030 4 < p) (hv : s.clk.vddTarget ≠ oppMv p) :
    voltageRaise s = send (.avs (oppMv p)) { s with clk := { s.clk with vddTarget := oppMv p, vddTick := now s } } := by
  simp [voltageRaise, ht, hup, hn, hlow, hv, avsTarget_oppMv hp]

omit hp in
theorem frequencySwitch_of_raise (hb : atBoundary s = true) (hlow : cv s 0x2030 4 < p) (hv : s.clk.vddTarget = oppMv p)
    (hsent : s.clk.vddTick + 640 ≤ now s) (h1 : vdd ≤ oppMv p + 10) (h2 : oppMv p ≤ vdd + 10) : frequencySwitch vdd s = cvSet 0x2030 4 0 p s := by
  simp [frequencySwitch, ht, hup, hb, hlow, Nat.ne_of_gt hlow, hv, hsent, h1, h2]

omit hp hup in
theorem frequencySwitch_of_wait (hlow : cv s 0x2030 4 < p) (hno : s.clk.vddTarget ≠ oppMv p ∨ now s < s.clk.vddTick + 640 ∨ vdd + 10 < oppMv p) :
    frequencySwitch vdd s = s := by
  have hwait : ¬ (s.clk.vddTarget = oppMv p ∧ s.clk.vddTick + 640 ≤ now s ∧ vdd ≤ oppMv p + 10 ∧ oppMv p ≤ vdd + 10) := by
    rintro ⟨h1, h2, -, h4⟩
    omega
  simp only [frequencySwitch, ht, if_pos hlow, if_neg hwait, ite_self]

theorem frequencySwitch_of_lowering (hb : atBoundary s = true) (hhigh : p < cv s 0x2030 4) : frequencySwitch vdd s
    = send (.avs (oppMv p)) { cvSet 0x2030 4 0 p s with clk := { s.clk with vddTarget := oppMv p, vddTick := now s } } := by
  have hgo : ¬ ((!atBoundary s || p == cv s 0x2030 4 || pwrDown s) = true) := by simp [hb, Nat.ne_of_lt hhigh, hup]
  simp only [frequencySwitch, ht, if_neg hgo, if_neg (Nat.lt_asymm hhigh), avsTarget_oppMv hp]
  rfl

end

end Sys2Proof.Machine

namespace Sys2Proof.Proofs
open Sys2Proof Sys2Proof.Machine

/-- What the calibration leaves, where only records follow the readings. -/
theorem calibration_shown {s t : State} {vr : VrRead}
    (hcv : ∀ {i j : Nat}, i < 0x5002 → j < 256 → catKey i j 0 ≠ catKey 0x2040 5 0 → catKey i j 0 ≠ catKey 0x2040 3 0 →
      catKey i j 0 ≠ catKey 0x2040 2 0 → cv t i j = cv (calibrationRead vr s) i j) :
    let shown := fun (sub : Nat) (v : Option Nat) => cv t 0x2060 sub = (match v with | some x => x % 65536 | none => cv s 0x2060 sub)
    cv t 0x2040 4 = s.gate.charged + cv s 0x2000 3 * cv s 0x2040 1 ∧ shown 2 vr.status ∧ shown 3 vr.vout ∧ shown 4 vr.iout ∧ shown 5 vr.temp := by
  obtain ⟨h2, h3, h4, h5⟩ := readings_calibrationRead vr s
  refine ⟨(hcv (by decide) (by decide) (by decide) (by decide) (by decide)).trans (estimate_calibrationRead vr s), ?_, ?_, ?_, ?_⟩
  · exact (hcv (by decide) (by decide) (by decide) (by decide) (by decide)).trans h2
  · exact (hcv (by decide) (by decide) (by decide) (by decide) (by decide)).trans h3
  · exact (hcv (by decide) (by decide) (by decide) (by decide) (by decide)).trans h4
  · exact (hcv (by decide) (by decide) (by decide) (by decide) (by decide)).trans h5

/-- Settles O19: the period with and without the measured energy, then the switches of the operating point. -/
theorem calibrationAndOperatingPoint : Obligations.CalibrationAndOperatingPoint := by
  refine ⟨fun s vr hb hr hp ha => ?_, fun s p ht hp hup => ⟨fun hn hlow hv => ?_, fun vdd hb hlow hv hsent h1 h2 => ?_, fun vdd hlow hno => ?_,
    fun vdd hb hhigh => ?_⟩⟩
  · have hread {i j : Nat} (hi : i = 0x2040) (hj : j = 2 ∨ j = 3) : cv (calibrationRead vr s) i j = cv s i j :=
      cv_calibrationRead_ne (by unfold catKey; omega) (fun sub _ _ => by unfold catKey; omega) vr s
    cases he : vr.eout.bind (fun m => eoutDiff s.clk.eout m vr.wraps) with
    | none =>
      have hq := calibrate_of_unmeasured hb hr hp ha he
      obtain ⟨h1, h2, h3, h4, h5⟩ := calibration_shown fun hi hj _ _ _ => hq.cv hi hj (by decide)
      refine ⟨_, rfl, h1, h2, h3, h4, h5, by rw [hq.gate, ← charged_calibrationRead vr s], fun m e hm hdiff => ?_, fun hno => ⟨?_, ?_, ?_⟩⟩
      · rw [hm, Option.bind_some, hdiff] at he
        cases he
      · rw [hq.cv (by decide) (by decide) (by decide), hread rfl (.inr rfl)]
      · rw [hq.cv (by decide) (by decide) (by decide), hread rfl (.inl rfl)]
      · rw [hq.clk, clk_calibrationRead, hno]
        rfl
    | some e =>
      obtain ⟨u, hu, hq⟩ := calibrate_of_measured hb hr hp ha he
      obtain ⟨h1, h2, h3, h4, h5⟩ := calibration_shown (s := s) (vr := vr) fun hi hj h5 h3 h2 =>
        (hq.cv hi hj h5).trans ((cv_cvSet_ne h3 ..).trans ((cv_cvSet_ne h2 ..).trans (hu.cv hi hj (by decide))))
      refine ⟨_, rfl, h1, h2, h3, h4, h5, ?_, fun m e' hm hdiff => ?_, fun hno => ?_⟩
      · rw [hq.charged, ← charged_calibrationRead vr s, ← congrArg GateSt.charged hu.gate]
        rfl
      · rw [hm, Option.bind_some, hdiff] at he
        cases he
        refine ⟨(hq.cv (by decide) (by decide) (by decide)).trans (cv_cvSet_same ..),
          (hq.cv (by decide) (by decide) (by decide)).trans ((cv_cvSet_ne (by decide) ..).trans (cv_cvSet_same ..)), ?_⟩
        rw [hq.clk]
        exact hu.clk.trans (by rw [clk_calibrationRead, hm]; rfl)
      · rw [hno] at he
        cases he
  · exact congrArg Host.Outcome.next (voltageRaise_of_due ht hp hup hn hlow hv)
  · exact congrArg Host.Outcome.next (frequencySwitch_of_raise ht hup hb hlow hv hsent h1 h2)
  · exact congrArg Host.Outcome.next (frequencySwitch_of_wait ht hlow hno)
  · exact ⟨_, congrArg Host.Outcome.next (frequencySwitch_of_lowering ht hp hup hb hhigh), cv_cvSet_same .., rfl, rfl⟩

end Sys2Proof.Proofs

namespace Sys2Proof.Machine
open Sys2Proof

/-! ## Flits received (R397, R398) -/

section
variable {s : State} {l st : Nat} {f : BitVec 2048}

theorem linkOf_setLink_same {x : Link} (h : x ≠ {}) (s : State) : linkOf (setLink l x s) l = x := AMap.get_set_same h ..

/-- The link as it is once a flit is heard on it. -/
def heardLink (s : State) (l : Nat) : Link := { linkOf s l with lastFlit := now s }

theorem flitInject_of_unarmed {d : Nat} (h : armed s d st = false) (detail ticket : Nat) (real : Bool) :
    flitInject d l st detail ticket real s = (none, s) := by
  simp [flitInject, h]

/-- A good flit at unarmed points is taken. -/
theorem flitTaken_of_good (h6 : armed s 6 st = false) (h7 : armed s 7 st = false) {k : Link} (hk : k ≠ {}) (linkSeq ticket : Nat) :
    flitTaken l st linkSeq ticket true true (setLink l k s) = (true, setLink l { k with fails := 0 } (setLink l k s)) := by
  have h6' : armed (setLink l k s) 6 st = false := h6
  have h7' : armed (setLink l k s) 7 st = false := h7
  simp [flitTaken, flitInject_of_unarmed h6', flitInject_of_unarmed h7', linkOf_setLink_same hk]

variable (hrun : running s = true) (hup : linkUp s l = true)
include hrun hup

/-- A good header flit begins a train. -/
theorem headerReceive_of_good (hnow : 0 < now s) (hcrc : hByte (flitBytes f) 252 4 = crc32 (slice (flitBytes f) 0 252))
    (hform : headerFormOk (flitBytes f) = true)
    (h6 : armed s 6 (hByte (flitBytes f) 2 1) = false) (h7 : armed s 7 (hByte (flitBytes f) 2 1) = false) :
    ∃ twine, headerReceive l f true s = setLink l { heardLink s l with
      header := some f, got := [], linkSeq := (hByte (flitBytes f) 24 4 + 1) % 2 ^ 32, fails := 0 } { s with twine := twine } := by
  have hcrc' : (hByte (flitBytes f) 252 4 == crc32 (slice (flitBytes f) 0 252)) = true := beq_iff_eq.mpr hcrc
  have hheard (k : Link) (hk : k.lastFlit = now s) : k ≠ {} := fun h => Nat.ne_of_gt hnow (hk.symm.trans (congrArg Link.lastFlit h))
  unfold headerReceive
  simp only [hrun, hup, hcrc', hform, Bool.and_self, Bool.not_true, Bool.and_false, Bool.false_eq_true, if_false, if_true]
  rw [flitTaken_of_good h6 h7 (hheard _ rfl)]
  dsimp only
  rw [linkOf_setLink_same (hheard _ rfl)]
  exact ⟨_, rfl⟩

/-- A good data flit before the last joins its train. -/
theorem dataReceive_of_good {hf : BitVec 2048} (hh : (linkOf s l).header = some hf)
    (hcrc : crc32 (flitBytes f) = hByte (flitBytes hf) (28 + 4 * (linkOf s l).got.length) 4)
    (hmore : (linkOf s l).got.length + 1 < hByte (flitBytes hf) 1 1)
    (h6 : armed s 6 (hByte (flitBytes hf) 2 1) = false) (h7 : armed s 7 (hByte (flitBytes hf) 2 1) = false) :
    ∃ twine, dataReceive l f true s = setLink l { heardLink s l with
      got := (linkOf s l).got ++ [f], linkSeq := ((linkOf s l).linkSeq + 1) % 2 ^ 32, fails := 0 } { s with twine := twine } := by
  have hheard (k : Link) (hk : k.header = (linkOf s l).header) : k ≠ {} := by
    rintro rfl
    cases hk.trans hh
  have hcrc' : (crc32 (flitBytes f) == hByte (flitBytes hf) (28 + 4 * (linkOf s l).got.length) 4) = true := beq_iff_eq.mpr hcrc
  unfold dataReceive
  simp only [hrun, hup, Bool.and_self, Bool.not_true, Bool.false_eq_true, if_false]
  have hset : linkOf (setLink l { linkOf s l with lastFlit := now s } s) l = heardLink s l := linkOf_setLink_same (hheard (heardLink s l) rfl) s
  dsimp only at hset
  rw [hset]
  simp only [heardLink, hh, flitGiven, hcrc']
  rw [flitTaken_of_good h6 h7 (hheard _ hh.symm)]
  simp only [flitStep, flitNext, List.length_append, List.length_singleton, if_pos hmore, if_true]
  rw [linkOf_setLink_same (hheard _ hh.symm)]
  exact ⟨_, rfl⟩

end

/-! ## Requests of an agent at their port (R18, R33, R65, R169, R407) -/

section
variable {s : State} {a addr st : Nat} {op : CxlOp} {data : BitVec 512} {mask : BitVec 64}

/-- The state in which a request of an agent waits at its port. -/
def cxlWaits (s : State) (a addr st : Nat) (op : CxlOp) (data : BitVec 512) (mask : BitVec 64) : State :=
  { s with coh := { s.coh with nextId := s.coh.nextId + 1, reqs := s.coh.reqs ++
    [{ id := s.coh.nextId, agent := a, addr := addr, op := op, data := data, mask := mask, stall := st, arrival := now s }] } }

variable (ha : a < 128) (hup : portUp s (a / 16) = true)
include ha hup

theorem cxlArrive_of_closed (ho : gateOpened s = false) : cxlArrive a addr op data mask s = answerVoid a addr op s := by
  simp [cxlArrive, Nat.not_le.mpr ha, hup, ho]

variable (ho : gateOpened s = true)
include ho

/-- A request of another node's address, or of a line that is not its agent's. -/
theorem cxlArrive_of_barred {x : Nat}
    (h : nodeOf addr ≠ nodeNumber s ∧ x = 1 ∨ nodeOf addr = nodeNumber s ∧ agentFor s a (offOf addr) = none ∧ x = 4) :
    cxlArrive a addr op data mask s = answerVoid a addr op (protectionRec (.agent a) addr x s) := by
  obtain ⟨hn, rfl⟩ | ⟨hn, hno, rfl⟩ := h
  · simp [cxlArrive, Nat.not_le.mpr ha, hup, ho, hn]
  · simp [cxlArrive, Nat.not_le.mpr ha, hup, ho, hn, hno]

variable (hn : nodeOf addr = nodeNumber s) (hfor : agentFor s a (offOf addr) = some st)
  (hline : isWindow (offOf addr) = true ∨ ((extRec s (extOf (offOf addr))).state ≠ 0 ∧ (extRec s (extOf (offOf addr))).stall = st))
include hn hfor hline

/-- A request of a line it may reach is answered where the stall has no line booking, and waits where it has one and a credit. -/
theorem cxlArrive_of_reached : cxlArrive a addr op data mask s = if cv s 0x1040 3 st = 0 then noStanding st a (answerVoid a addr op s)
    else if cv s 0x9010 5 (a / 16) ≤ heldCredits s a op.isWrite then s else cxlWaits s a addr st op data mask := by
  have hreach : (if isWindow (offOf addr) = true then some op else reachesLine s st op (offOf addr)) = some op := by
    obtain hw | hext := hline
    · exact if_pos hw
    · rw [reachesLine, if_pos hext, ite_self]
  simp only [cxlArrive, Nat.not_le.mpr ha, hup, ho, hn, hfor, hreach, decide_false, Bool.not_true, Bool.or_self, Bool.false_eq_true, ne_eq,
    not_true_eq_false, if_false]
  rfl

theorem cxlArrive_of_booked (hbook : cv s 0x1040 3 st ≠ 0) (hcredit : heldCredits s a op.isWrite < cv s 0x9010 5 (a / 16)) :
    cxlArrive a addr op data mask s = cxlWaits s a addr st op data mask := by
  rw [cxlArrive_of_reached ha hup ho hn hfor hline, if_neg hbook, if_neg (Nat.not_le.mpr hcredit)]

theorem cxlArrive_of_unbooked (hbook : cv s 0x1040 3 st = 0) : cxlArrive a addr op data mask s = noStanding st a (answerVoid a addr op s) := by
  rw [cxlArrive_of_reached ha hup ho hn hfor hline, if_pos hbook]

end

/-- What an agent is answered without data or effect: poisoned data, or a Cmp. -/
theorem answerVoid_of_read {s : State} {a : Nat} {op : CxlOp} (hup : portUp s (a / 16) = true) (hop : op.isRead = true) (addr : Nat) :
    answerVoid a addr op s = send (.drs a addr 0 0 true (devLoad s a)) s := by
  rw [answerVoid, if_pos hop, sendTo, if_pos hup]
theorem answerVoid_of_other {s : State} {a : Nat} {op : CxlOp} (hup : portUp s (a / 16) = true) (hop : op.isRead = false) (addr : Nat) :
    answerVoid a addr op s = send (.ndr a addr 0 (devLoad s a)) s := by
  rw [answerVoid, hop, if_neg Bool.false_ne_true, ndr, sendTo, if_pos hup]

/-! ## The mailbox and the I3C target (R406, R412, R413) -/

section
variable {s : State}

theorem mailbox_of_up {p ld : Nat} (hrun : running s = true) (hp : p < 8) (hup : portUp s p = true) (hld : ld < cv s 0x9010 4 p) (command operand : Nat) :
    mailbox p ld command operand s
      = { s with freeCtr := s.freeCtr + 1, sent := s.sent ++ [.mailbox p ld command (Config.mailboxData command operand s.freeCtr)] } := by
  simp [mailbox, hrun, hp, hup, hld, send]

theorem mailbox_of_down {p : Nat} (hup : portUp s p = false) (ld command operand : Nat) : mailbox p ld command operand s = s := by
  simp [mailbox, hup]

theorem assignDyn_of_free {d : Nat} (hrun : running s = true) (h0 : s.port.i3cDyn = 0) (hd : 0 < d) (hd' : d < 128) :
    assignDyn d s = { s with port := { s.port with i3cDyn := d } } := by
  simp [assignDyn, hrun, h0, hd, hd']

theorem assignDyn_of_addressed (d : Nat) (h : s.port.i3cDyn ≠ 0) : assignDyn d s = s := by
  simp [assignDyn, h]

end

end Sys2Proof.Machine

namespace Sys2Proof.Proofs
open Sys2Proof Sys2Proof.Machine

/-- Settles O15. -/
theorem flitsAreTaken : Obligations.FlitsAreTaken := by
  refine fun s l f hrun hup => ⟨fun hnow hcrc hform h6 h7 => ?_, fun hf hh hcrc hmore h6 h7 => ?_⟩
  · obtain ⟨twine, heq⟩ := headerReceive_of_good hrun hup hnow hcrc hform h6 h7
    refine ⟨_, congrArg Host.Outcome.next heq, ?_⟩
    rw [linkOf_setLink_same (fun h => by cases congrArg Link.header h)]
    exact ⟨rfl, rfl, rfl, rfl, rfl⟩
  · obtain ⟨twine, heq⟩ := dataReceive_of_good hrun hup hh hcrc hmore h6 h7
    refine ⟨_, congrArg Host.Outcome.next heq, ?_⟩
    have hne : { heardLink s l with got := (linkOf s l).got ++ [f], linkSeq := ((linkOf s l).linkSeq + 1) % 2 ^ 32, fails := 0 } ≠ ({} : Link) :=
      fun h => List.append_ne_nil_of_right_ne_nil _ (List.cons_ne_nil f []) (congrArg Link.got h)
    rw [linkOf_setLink_same hne]
    exact ⟨hh, rfl, rfl, rfl, rfl⟩

/-- Settles O20: the requests that wait, then the ones answered at once. -/
theorem cxlRequestsArrive : Obligations.CxlRequestsArrive := by
  refine ⟨fun s a addr st ha hup ho hn hfor hline hbook => ⟨fun hc => ?_, fun hc m data mask => ?_⟩,
    fun s a addr ha hup => ⟨rfl, fun snp m data ho => ⟨?_, ?_⟩, fun snp m data x ho h => ⟨?_, ?_⟩, fun snp m data st ho hn hfor hline hbook => ⟨?_, ?_, ?_⟩⟩⟩
  · have hwait (op : CxlOp) (hop : op.isWrite = false) :=
      cxlArrive_of_booked (op := op) (data := 0) (mask := BitVec.allOnes 64) ha hup ho hn hfor hline hbook (hop ▸ hc)
    exact ⟨fun snp => congrArg Host.Outcome.next (hwait (.rd snp) rfl), congrArg Host.Outcome.next (hwait .rdData rfl),
      congrArg Host.Outcome.next (hwait .inv rfl), congrArg Host.Outcome.next (hwait .invNt rfl), congrArg Host.Outcome.next (hwait .clnEvct rfl)⟩
  · have hwait (op : CxlOp) (mask : BitVec 64) (hop : op.isWrite = true) :=
      cxlArrive_of_booked (op := op) (data := data) (mask := mask) ha hup ho hn hfor hline hbook (hop ▸ hc)
    exact ⟨congrArg Host.Outcome.next (hwait (.wr m) _ rfl), congrArg Host.Outcome.next (hwait (.wrPtl m) mask rfl)⟩
  · exact congrArg Host.Outcome.next ((cxlArrive_of_closed ha hup ho).trans (answerVoid_of_read hup rfl addr))
  · exact congrArg Host.Outcome.next ((cxlArrive_of_closed ha hup ho).trans (answerVoid_of_other hup rfl addr))
  · exact congrArg Host.Outcome.next (cxlArrive_of_barred ha hup ho h)
  · exact congrArg Host.Outcome.next (cxlArrive_of_barred ha hup ho h)
  · exact congrArg Host.Outcome.next ((cxlArrive_of_unbooked ha hup ho hn hfor hline hbook).trans
      (congrArg (noStanding st a) (answerVoid_of_read hup rfl addr)))
  · exact congrArg Host.Outcome.next ((cxlArrive_of_unbooked ha hup ho hn hfor hline hbook).trans
      (congrArg (noStanding st a) (answerVoid_of_other hup rfl addr)))
  · exact congrArg Host.Outcome.next ((cxlArrive_of_unbooked ha hup ho hn hfor hline hbook).trans
      (congrArg (noStanding st a) (answerVoid_of_other hup rfl addr)))

/-- Settles O23. -/
theorem componentCommandsAreAnswered : Obligations.ComponentCommandsAreAnswered := by
  refine fun s p ld hrun hp => ⟨fun hup hld => ?_, fun hup hld handle => ?_, fun hup handle off len addr => ?_⟩
  · have hsend (command operand : Nat) := congrArg (Host.Outcome.next (φ := Fault) (ρ := Refusal)) (mailbox_of_up hrun hp hup hld command operand)
    exact ⟨hsend .., hsend .., fun off len => hsend .., hsend .., fun addr len => hsend ..⟩
  · exact congrArg Host.Outcome.next (mailbox_of_up hrun hp hup hld 0 handle)
  · have hno (ld command operand : Nat) := congrArg (Host.Outcome.next (φ := Fault) (ρ := Refusal)) (mailbox_of_down hup ld command operand)
    exact ⟨hno .., hno .., hno .., hno .., hno .., hno ..⟩

/-- Settles O24. -/
theorem i3cTarget : Obligations.I3cTarget := by
  refine fun s hrun => ⟨fun d h0 hd hd' => ?_, fun d x h0 => ?_, fun d x hx => ?_, rfl, fun m => ⟨rfl, rfl⟩, fun n hlo hhi => ⟨?_, ?_⟩,
    fun n hout => ⟨?_, ?_⟩, fun n hlo hhi => ?_⟩
  · have hassign := assignDyn_of_free hrun h0 hd hd'
    exact ⟨congrArg Host.Outcome.next hassign, congrArg Host.Outcome.next ((if_pos rfl).trans hassign)⟩
  · have hkeep := assignDyn_of_addressed d h0
    refine ⟨congrArg Host.Outcome.next hkeep, congrArg Host.Outcome.next ?_⟩
    rw [setDasa, hkeep, ite_self]
  · exact congrArg Host.Outcome.next (if_neg hx)
  · exact congrArg Host.Outcome.next (if_pos ⟨hlo, hhi, hrun⟩)
  · exact congrArg Host.Outcome.next (if_pos ⟨hlo, hhi, hrun⟩)
  · exact congrArg Host.Outcome.next (if_neg (by omega))
  · exact congrArg Host.Outcome.next (if_neg (by omega))
  · exact congrArg Host.Outcome.next (if_pos (by simp [hrun, hlo, hhi]))

end Sys2Proof.Proofs

namespace Sys2Proof.Machine
open Sys2Proof

/-! ## CXL.mem admission (R63-R65, R142) -/

section
variable {s u : State} {a : Nat} {ue : Bool} {r : CxlReq}

/-- The admitted form of a request. -/
def admitted (s : State) (ue flash : Bool) (r : CxlReq) : CxlReq := { r with phase := 1, admitted := now s, sectorUe := ue, flash := flash }
/-- Whether the page of a request's line is read from flash. -/
def fillReads (s : State) (r : CxlReq) : Bool := bit (mapOf s (offOf r.addr / 65536)) 31 && !bit (mapOf s (offOf r.addr / 65536)) 30

theorem cxlAdmit_of_none (h : s.coh.reqs.find? (fun r => r.agent == a && r.phase == 0) = none) : cxlAdmit a ue s = s := by
  simp only [cxlAdmit, h]

section
variable (h : s.coh.reqs.find? (fun r => r.agent == a && r.phase == 0) = some r)
include h

theorem cxlAdmit_of_unbooked (h0 : cv s 0x1040 3 r.stall = 0) :
    cxlAdmit a ue s = noStanding r.stall r.agent (dropCxl r.id (answerVoid r.agent r.addr r.op s)) := by
  simp only [cxlAdmit, h, if_pos h0]

theorem cxlAdmit_of_waiting (h0 : 0 < cv s 0x1040 3 r.stall)
    (hw : bit (AMap.get 0 s.gate.standing r.stall) (r.agent / 16) = false ∨ cv s 0x1040 3 r.stall ≤ AMap.get 0 s.gate.lineUse r.stall) :
    cxlAdmit a ue s = s := by
  simp only [cxlAdmit, h, if_neg (Nat.ne_of_gt h0)]
  obtain hw | hw := hw
  · rw [hw, Bool.not_false, if_pos rfl]
  · rw [if_pos hw, ite_self]

variable (hheld : bit (AMap.get 0 s.gate.standing r.stall) (r.agent / 16) = true) (hline : AMap.get 0 s.gate.lineUse r.stall < cv s 0x1040 3 r.stall)
include hheld hline

theorem cxlAdmit_of_present (hfill : needsFill s r = false) :
    cxlAdmit a ue s = pump (noteSnps (putAdmitted (admitted s ue false r) (useLines r.stall 1 s))) := by
  simp only [cxlAdmit, h, if_neg (Nat.ne_of_gt (Nat.zero_lt_of_lt hline)), hheld, if_neg (Nat.not_le.mpr hline), hfill]
  rfl

theorem cxlAdmit_of_held_back (hfill : needsFill s r = true) (hmiss : cv s 0x1040 4 r.stall ≤ AMap.get 0 s.gate.missUse r.stall) : cxlAdmit a ue s = s := by
  simp [cxlAdmit, h, Nat.ne_of_gt (Nat.zero_lt_of_lt hline), hheld, Nat.not_le.mpr hline, hfill, hmiss]

variable (hfill : needsFill s r = true) (hgone : ∀ c, cframe s (offOf r.addr / 65536) = some c → c.state ≠ 3)
  (hmiss : AMap.get 0 s.gate.missUse r.stall < cv s 0x1040 4 r.stall)
include hfill hgone hmiss

/-- A request that needs a fill, with a miss left: the frame of its line is taken and filled, where there is one. -/
theorem cxlAdmit_of_miss : cxlAdmit a ue s =
    match holdFrame (extRec s (extOf (offOf r.addr))).stall (offOf r.addr / 65536) (useMiss r.stall (useLines r.stall 1 s)) with
    | none => putAdmitted { admitted s ue (fillReads s r) r with noFrame := true }
        (errRec 0x80 (gaddr s (65536 * (offOf r.addr / 65536))) 0 0xFFFF r.stall 0 false false (useMiss r.stall (useLines r.stall 1 s)))
    | some u =>
      let t := fillFrame (offOf r.addr / 65536) [offOf r.addr / 16384 % 4] (if fillReads s r then act 0 r.stall 1 1 u else u)
      pump (noteSnps (putAdmitted (admitted s ue (fillReads s r) r)
        (match cframe t (offOf r.addr / 65536) with | some c => setFrame (offOf r.addr / 65536) (some { c with last := curRound t }) t | none => t))) := by
  have hgo := Nat.not_le.mpr hmiss
  cases hc : cframe s (offOf r.addr / 65536) with
  | none =>
    simp only [cxlAdmit, h, if_neg (Nat.ne_of_gt (Nat.zero_lt_of_lt hline)), hheld, if_neg (Nat.not_le.mpr hline), hfill, hc, decide_eq_false hgo]
    rfl
  | some c =>
    simp only [cxlAdmit, h, if_neg (Nat.ne_of_gt (Nat.zero_lt_of_lt hline)), hheld, if_neg (Nat.not_le.mpr hline), hfill, hc, decide_eq_false hgo,
      beq_eq_false_iff_ne.mpr (hgone c hc)]
    rfl

end

/-! ## Acknowledgement and bounds (R64, R179) -/

theorem flitAck_of_some {addr : Nat} (h : s.coh.reqs.find? (fun r => r.phase == 3 && lineOf r == offOf addr / 64) = some r) :
    flitAck addr s = noteSnps (pump (dropCxl r.id s)) := by
  simp only [flitAck, h]
theorem flitAck_of_none {addr : Nat} (h : s.coh.reqs.find? (fun r => r.phase == 3 && lineOf r == offOf addr / 64) = none) : flitAck addr s = s := by
  simp only [flitAck, h]

section
variable {id : Nat} (h : cxlReq s id = some r)
include h

/-- The bound of an admitted request, from flash or not. -/
theorem loadBound_of_admitted (hp : r.phase = 1 ∨ r.phase = 2) :
    loadBound id s = if r.admitted + cv s 0x1040 (if r.flash then 2 else 1) r.stall ≤ now s
      then pump (dropCxl id (answerVoid r.agent r.addr r.op s)) else s := by
  have hphase : (r.phase == 1 || r.phase == 2) = true := by simpa using hp
  have hwait : (r.phase == 0) = false := by simp only [beq_eq_false_iff_ne]; omega
  have hbound : (if r.flash then cv s 0x1040 2 r.stall else cv s 0x1040 1 r.stall) = cv s 0x1040 (if r.flash then 2 else 1) r.stall :=
    (apply_ite (fun sub => cv s 0x1040 sub r.stall) ..).symm
  simp [loadBound, h, hphase, hwait, hbound]

theorem loadBound_of_waiting (hp : r.phase = 0) :
    loadBound id s = if cv s 0x1040 3 r.stall = 0 ∧ r.arrival + cv s 0x1040 1 r.stall ≤ now s
      then noStanding r.stall r.agent (dropCxl id (answerVoid r.agent r.addr r.op s)) else s := by
  simp [loadBound, h, hp]

end

end

end Sys2Proof.Machine

namespace Sys2Proof.Proofs
open Sys2Proof Sys2Proof.Machine

/-- Settles O21: admission, then what ends a request. -/
theorem cxlRequestsAreServed : Obligations.CxlRequestsAreServed := by
  refine ⟨fun s a ue => ⟨fun h => ?_, fun r h => ⟨fun h0 => ?_, fun h0 hw => ?_, fun hheld hline => ⟨fun hfill => ?_, fun hfill hmiss => ?_,
      fun hfill hgone hmiss => ⟨fun u hu => ?_, fun hno => ?_⟩⟩⟩⟩,
    fun s => ⟨fun addr r h => ?_, fun addr h => ?_, fun id r h hp => ⟨fun hb => ?_, fun hb => ?_⟩, fun id r h hp => ⟨fun h0 hb => ?_, fun h0 => ?_⟩⟩⟩
  · exact congrArg Host.Outcome.next (cxlAdmit_of_none h)
  · exact congrArg Host.Outcome.next (cxlAdmit_of_unbooked h h0)
  · exact congrArg Host.Outcome.next (cxlAdmit_of_waiting h h0 hw)
  · exact congrArg Host.Outcome.next (cxlAdmit_of_present h hheld hline hfill)
  · exact congrArg Host.Outcome.next (cxlAdmit_of_held_back h hheld hline hfill hmiss)
  · refine congrArg Host.Outcome.next ((cxlAdmit_of_miss h hheld hline hfill hgone hmiss).trans ?_)
    rw [hu]
    rfl
  · refine congrArg Host.Outcome.next ((cxlAdmit_of_miss h hheld hline hfill hgone hmiss).trans ?_)
    rw [hno]
    rfl
  · exact congrArg Host.Outcome.next (flitAck_of_some h)
  · exact congrArg Host.Outcome.next (flitAck_of_none h)
  · exact congrArg Host.Outcome.next ((loadBound_of_admitted h hp).trans (if_pos hb))
  · exact congrArg Host.Outcome.next ((loadBound_of_admitted h hp).trans (if_neg (Nat.not_le.mpr hb)))
  · exact congrArg Host.Outcome.next ((loadBound_of_waiting h hp).trans (if_pos ⟨h0, hb⟩))
  · exact congrArg Host.Outcome.next ((loadBound_of_waiting h hp).trans (if_neg fun hc => h0 hc.1))

end Sys2Proof.Proofs

namespace Sys2Proof.Machine
open Sys2Proof

/-! ## BISnps and their answers (R179-R182) -/

section
variable {s : State} {a addr nth k : Nat} {x : BiSnp}

/-- With no BISnp newly issued there is no opportunity of injection. -/
theorem noteSnps_of_seen (h : ∀ y ∈ s.coh.snps, y.seen = true) : noteSnps s = s := by
  have hno : s.coh.snps.filter (fun x => !x.seen) = [] := List.filter_eq_nil_iff.mpr fun y hy => by simp [h y hy]
  simp only [noteSnps, hno, List.isEmpty_nil, if_true]

/-- What an answer to a BISnp that blocks its line does to the entry of a line of stall `st`: the agent leaves it (0), it becomes SHARED (1), or it
stays (2). -/
def answerEntry (st a line k : Nat) (x : BiSnp) (s : State) : State :=
  if k = 0 then leaveLine a line (lineBusy s line) (match cxlReq s x.req with | some r => r.gone | none => []) s
  else if k = 1 then
    (match lookupWay s st (64 * line), lookupEnt s st (64 * line) with
     | some w, some e => if e.cluster.isSome then s else setWay w (some { e with owned := false }) s
     | _, _ => s)
  else s
/-- The BISnp is closed; an agent that answers I (0) is gone from its request. -/
def answerSnp (a k : Nat) (x : BiSnp) (s : State) : State :=
  if k = 0 then updCxl x.req (fun r => { r with gone := r.gone ++ [a] }) (closeSnp x s) else closeSnp x s

/-- An answer closes the open BISnp it names. -/
theorem biRsp_of_open (hseen : ∀ y ∈ s.coh.snps, y.seen = true)
    (h : (s.coh.snps.filter (fun x => x.agent == a && x.line == offOf addr / 64 && !x.deaf))[nth]? = some x) :
    biRsp a addr k nth s = pump (if x.block then answerEntry (homeStall s (offOf addr / 64)) a (offOf addr / 64) k x (answerSnp a k x s)
      else answerSnp a k x s) := by
  simp only [biRsp, noteSnps_of_seen hseen, h]
  cases hb : x.block <;> rfl

theorem biRsp_of_none (hno : ∀ y ∈ s.coh.snps, y.seen = true ∧ ¬(y.agent = a ∧ y.line = offOf addr / 64)) :
    biRsp a addr k nth s = if (a, offOf addr / 64) ∈ s.coh.dropped then s else dirInconsistent (homeStall s (offOf addr / 64)) a (offOf addr / 64) s := by
  have hany : s.coh.snps.any (fun x => x.agent == a && x.line == offOf addr / 64) = false :=
    List.any_eq_false.mpr fun y hy => by simpa using (hno y hy).2
  have hfilter : s.coh.snps.filter (fun x => x.agent == a && x.line == offOf addr / 64 && !x.deaf) = [] :=
    List.filter_eq_nil_iff.mpr fun y hy hm => (hno y hy).2 (by simpa [and_assoc] using (Bool.and_eq_true_iff.mp hm).1)
  simp [biRsp, noteSnps_of_seen fun y hy => (hno y hy).1, hany, hfilter]

theorem closeSnp_of_probe (hc : x.close = none) (ho : x.owner = 0) : closeSnp x s = { s with coh := { s.coh with snps := s.coh.snps.erase x } } := by
  simp only [closeSnp, hc, ho, if_true]

/-! ### A BISnp unanswered at its bound (R181) -/

theorem biTimeout_of_early (hseen : ∀ y ∈ s.coh.snps, y.seen = true)
    (h : s.coh.snps.find? (fun x => x.agent == a && x.line == offOf addr / 64) = some x) (hn : now s < x.tick + biBound s) : biTimeout a addr s = s := by
  simp only [biTimeout, noteSnps_of_seen hseen, h, if_pos hn]

/-- The line of a BISnp that carried its data reads poisoned. -/
def poisonLine (line : Nat) (s : State) : State :=
  { s with mem := { s.mem with poison := if s.mem.poison.contains line then s.mem.poison else s.mem.poison ++ [line] } }
/-- The detector's record of a BISnp whose answer is not late by injection. -/
def timeoutRec (st a obj : Nat) (x : BiSnp) (s : State) : State :=
  if x.deaf then s else detectRec 0x0A obj a 0xFFFF st 0 true (cvAdd 0x5002 2 st 1 s)
/-- Late writes of the agent to the line are dropped from now on. -/
def dropLate (a line : Nat) (s : State) : State :=
  { s with coh := { s.coh with dropped := if s.coh.dropped.contains (a, line) then s.coh.dropped else s.coh.dropped ++ [(a, line)] } }

theorem mem_dropped_dropLate (a line : Nat) (s : State) : (a, line) ∈ (dropLate a line s).coh.dropped := by
  unfold dropLate
  dsimp only
  split
  case isTrue h => exact List.contains_iff_mem.mp h
  case isFalse => exact List.mem_append_right _ (List.mem_singleton_self _)

theorem biTimeout_of_late (hseen : ∀ y ∈ s.coh.snps, y.seen = true) (h : s.coh.snps.find? (fun x => x.agent == a && x.line == offOf addr / 64) = some x)
    (hn : x.tick + biBound s ≤ now s) (hb : x.block = false) : biTimeout a addr s =
      (let t := answerSnp a 0 x s
       pump (dropLate a (offOf addr / 64) (timeoutRec (homeStall s (offOf addr / 64)) a (gaddr s (64 * (offOf addr / 64))) x
         (if x.poison then poisonLine (offOf addr / 64) t else t)))) := by
  simp only [biTimeout, noteSnps_of_seen hseen, h, if_neg (Nat.not_lt.mpr hn), hb]
  rfl

/-- The catalogue log is part of the errors' state. -/
theorem logStore_eq (rec : Nat → Nat) (s : State) : ∃ err, logStore rec s = { s with err := err } := ⟨_, rfl⟩
@[simp] theorem cv_logStore (rec : Nat → Nat) (s : State) (i j k : Nat) : cv (logStore rec s) i j k = cv s i j k := by
  obtain ⟨err, h⟩ := logStore_eq rec s
  rw [h, cv_mk]
@[simp] theorem coh_logStore (rec : Nat → Nat) (s : State) : (logStore rec s).coh = s.coh := by
  obtain ⟨err, h⟩ := logStore_eq rec s
  rw [h]

/-- Where a stall has no ring a record of it is kept in the logs alone. -/
theorem ringStore_of_no_ring {st : Nat} (h : cv s 0x9200 2 st = 0) (rec : Nat → Nat) : (ringStore st rec s).1 = false ∧ (ringStore st rec s).2.coh = s.coh := by
  have hfull (u : State) (base wt ct : Nat) : ringTakes u st base 0 wt ct = false := by simp [ringTakes]
  simp only [ringStore, h, hfull, Bool.false_eq_true, if_false]
  exact ⟨trivial, rfl⟩

theorem coh_errRec_of_no_ring {st kind obj detail ctx status : Nat} {injected : Bool} (h : cv s 0x9200 2 st = 0) :
    (errRec kind obj detail ctx st status false injected s).coh = s.coh := by
  obtain ⟨hno, hcoh⟩ := ringStore_of_no_ring (s := logStore (fun seq => errorBits (now s) obj detail ctx st status false injected kind seq) s)
    ((cv_logStore ..).trans h) (fun seq => errorBits (now s) obj detail ctx st status false injected kind seq)
  simp only [errRec, Bool.false_eq_true, if_false, ringAppend, hno, Bool.not_false, if_true, hcoh, coh_logStore]

theorem coh_timeoutRec {st obj : Nat} (h : cv s 0x9200 2 st = 0) : (timeoutRec st a obj x s).coh = s.coh := by
  unfold timeoutRec
  split
  · rfl
  · refine (coh_errRec_of_no_ring ?_).trans rfl
    exact (cv_cvAdd_ne (by unfold catKey; omega) 1 s).trans h

theorem coh_closeSnp (hc : x.close = none) : (closeSnp x s).coh = { s.coh with snps := s.coh.snps.erase x } := by
  unfold closeSnp
  simp only [hc]
  split <;> rfl

theorem cv_closeSnp (hc : x.close = none) (i j l : Nat) : cv (closeSnp x s) i j l = cv s i j l := by
  unfold closeSnp
  simp only [hc]
  split <;> rfl

theorem cv_answerSnp (hc : x.close = none) (i j l : Nat) : cv (answerSnp a 0 x s) i j l = cv s i j l := cv_closeSnp hc i j l

/-- The last BISnp closed, of no request. -/
theorem coh_answerSnp_of_last (hx : s.coh.snps = [x]) (hr : s.coh.reqs = []) (hc : x.close = none) : (answerSnp a 0 x s).coh = { s.coh with snps := [] } := by
  have hclose := coh_closeSnp (s := s) hc
  rw [hx, List.erase_cons_head] at hclose
  simp only [answerSnp, if_pos, updCxl, hclose, hr, List.map_nil]

/-- With nothing admitted and no write waiting there is nothing to serve. -/
theorem pump_of_idle (hr : s.coh.reqs = []) (hw : s.coh.waits = []) : pump s = s := by
  have hstep : stepWrites s = s := by simp [stepWrites, hw]
  simp [pump, hstep, hr]

/-! ### HOME_ORDERED_ENTRY (R192) -/

/-- What is kept of an array passes the test. -/
theorem AMap.of_get_keep {α : Type} {d v : α} {p : Nat → α → Bool} {k : Nat} {m : AMap α} (h : AMap.get d (AMap.keep p m) k = v) (hv : v ≠ d) :
    p k v = true := by
  induction m with
  | nil => exact absurd h.symm hv
  | cons e r ih =>
    obtain ⟨i, w⟩ := e
    cases hp : p i w
    · exact ih (by simpa [AMap.keep, hp] using h)
    · have hget : (if i = k then w else AMap.get d (AMap.keep p r) k) = v := by simpa [AMap.keep, hp, AMap.get] using h
      split at hget
      case isTrue hi => rw [← hi, ← hget, hp]
      case isFalse => exact ih hget

/-- The state after a stall's directory is emptied and its frames are no longer tracked. -/
def forgetHome (st : Nat) (s0 s : State) : State :=
  { s with coh := { s.coh with dir := AMap.keep (fun _ d => match d with | some d => d.stall != st | none => true) s.coh.dir }
           store := { s.store with tracked := AMap.keep (fun f _ => (extRec s0 (f / 16384)).stall != st) s.store.tracked } }

theorem stall_of_forgetHome {st w : Nat} {s0 : State} {d : DirEnt} (h : AMap.get none (forgetHome st s0 s).coh.dir w = some d) : d.stall ≠ st := by
  simp only [forgetHome] at h
  simpa using AMap.of_get_keep h (Option.some_ne_none d)

theorem tracked_forgetHome {st f : Nat} {s0 : State} (h : (extRec s0 (f / 16384)).stall = st) : AMap.get 0 (forgetHome st s0 s).store.tracked f = 0 := by
  simp only [forgetHome]
  exact AMap.get_keep_of_dropped (fun _ => by simp [h]) _

/-- The owned line-cache lines of a stall, recalled. -/
def recallHome (st : Nat) (s : State) : State :=
  (s.fab.lc.filter (fun l => l.owned && homeStall s l.line == st)).foldl (fun t l => recallLine l.line t) s

theorem recallHome_quiet (st : Nat) (s : State) : Quiet s (recallHome st s) :=
  Quiet.foldl (fun _ _ h => recallLine_quiet h) _ (Quiet.refl s)

theorem homeOrderedEntry_of_clean {st : Nat} (ho : homeOrdered s st = false) (hb : atBoundary s = true) (hl : stallLive s st = true) (ht : cv s 0x5000 2 st = 0)
    (hc : ∀ a ∈ agentsOf s st, cv s 0x5010 3 a = 1) (hp : ∀ x ∈ s.coh.snps, homeStall s x.line ≠ st) :
    homeOrderedEntry st s = cvAdd 0x5000 3 st 1 (cvSet 0x5000 1 st 1 (forgetHome st s (recallHome st s))) := by
  refine if_pos ?_
  simp only [ho, hb, hl, ht, Bool.not_false, Bool.and_self, Bool.true_and, Bool.and_eq_true, List.all_eq_true, beq_iff_eq, bne_iff_ne,
    BEq.rfl]
  exact ⟨hc, hp⟩

theorem homeOrderedEntry_of_dirty {st : Nat} (h : a ∈ agentsOf s st) (hc : cv s 0x5010 3 a ≠ 1) : homeOrderedEntry st s = s := by
  refine if_neg fun hall => hc ?_
  simp only [Bool.and_eq_true, List.all_eq_true, beq_iff_eq] at hall
  exact hall.1.2 a h

end

end Sys2Proof.Machine

namespace Sys2Proof.Proofs
open Sys2Proof Sys2Proof.Machine

/-- Settles O22: BISnps, answered, answered by no one and late, then the entry into HOME_ORDERED. -/
theorem coherenceMessages : Obligations.CoherenceMessages := by
  refine ⟨fun s a addr => ⟨fun hup => ?_, fun x nth hseen h => ⟨fun hc ho => closeSnp_of_probe hc ho, fun hb => ?_, fun hb => ⟨?_, fun w e hw he => ?_, ?_⟩⟩,
      fun nth hno => ⟨fun hd => ?_, fun hd => ?_⟩, fun x hseen h hn => ?_, fun x hx hseen ha hline hn hr hw hb hc hring => ?_⟩,
    fun s st ho hst => ⟨fun hb hl ht hc hp => ?_, fun a ha hc => ?_⟩⟩
  · exact congrArg Host.Outcome.next (if_pos hup)
  · have hrsp (k : Nat) := congrArg (Host.Outcome.next (φ := Fault) (ρ := Refusal)) (biRsp_of_open (k := k) hseen h)
    rw [hb] at hrsp
    exact ⟨hrsp 1, hrsp 2, hrsp 0⟩
  · exact congrArg Host.Outcome.next ((biRsp_of_open hseen h).trans (by rw [hb]; rfl))
  · refine congrArg Host.Outcome.next ((biRsp_of_open hseen h).trans ?_)
    rw [hb, if_pos rfl, answerEntry, if_neg (by decide), if_pos rfl, answerSnp, if_neg (by decide), hw, he]
  · exact congrArg Host.Outcome.next ((biRsp_of_open hseen h).trans (by rw [hb]; rfl))
  · have hrsp (k : Nat) := congrArg (Host.Outcome.next (φ := Fault) (ρ := Refusal)) ((biRsp_of_none (k := k) (nth := nth) hno).trans (if_pos hd))
    exact ⟨hrsp 0, hrsp 1, hrsp 2⟩
  · have hrsp (k : Nat) := congrArg (Host.Outcome.next (φ := Fault) (ρ := Refusal)) ((biRsp_of_none (k := k) (nth := nth) hno).trans (if_neg hd))
    exact ⟨hrsp 0, hrsp 1, hrsp 2⟩
  · exact congrArg Host.Outcome.next (biTimeout_of_early hseen h hn)
  · have hfind : s.coh.snps.find? (fun x => x.agent == a && x.line == offOf addr / 64) = some x := by simp [hx, ha, hline]
    have hall : ∀ y ∈ s.coh.snps, y.seen = true := by simpa [hx] using hseen
    have hlast := coh_answerSnp_of_last (a := a) hx hr hc
    have hpoison (t : State) : (if x.poison then poisonLine (offOf addr / 64) t else t).coh = t.coh := by split <;> rfl
    have hring' : cv (if x.poison then poisonLine (offOf addr / 64) (answerSnp a 0 x s) else answerSnp a 0 x s) 0x9200 2 (homeStall s (offOf addr / 64)) = 0 := by
      refine .trans ?_ ((cv_answerSnp (a := a) hc ..).trans hring)
      split <;> rfl
    have hcoh := (coh_timeoutRec (a := a) (x := x) (obj := gaddr s (64 * (offOf addr / 64))) hring').trans ((hpoison _).trans hlast)
    refine ⟨_, congrArg Host.Outcome.next ((biTimeout_of_late hall hfind hn hb).trans (pump_of_idle ?_ ?_)), ?_, mem_dropped_dropLate ..⟩
    · exact (congrArg CohSt.reqs hcoh).trans hr
    · exact (congrArg CohSt.waits hcoh).trans hw
    · exact congrArg CohSt.snps hcoh
  · refine ⟨_, congrArg Host.Outcome.next (homeOrderedEntry_of_clean ho hb hl ht hc hp), ?_, ?_, fun w d hd => ?_, fun f hf => ?_, fun hno => ?_⟩
    · simp [homeOrdered, cv_cvAdd, catKey]
    · rw [cv_cvAdd_same, cv_cvSet_ne (by unfold catKey; omega)]
      exact congrArg (· + 1) ((recallHome_quiet st s).cv (by decide) (by decide) (by omega))
    · exact stall_of_forgetHome (s0 := s) hd
    · exact tracked_forgetHome hf
    · have hnone : recallHome st s = s := by
        have hnil : s.fab.lc.filter (fun l => l.owned && homeStall s l.line == st) = [] :=
          List.filter_eq_nil_iff.mpr fun l hl => by simpa using hno l hl
        rw [recallHome, hnil, List.foldl_nil]
      rw [hnone]
      rfl
  · exact congrArg Host.Outcome.next (homeOrderedEntry_of_dirty ha hc)

end Sys2Proof.Proofs

namespace Sys2Proof.Machine
open Sys2Proof

/-! ## Extent records (R520) -/

/-- An extent whose record's pages are booked twice in a map that is not canonical: one booking is left once the record is written. -/
def recordBookedTwice : State := { clk := { calTick := 1280 }, store := { recWrites := [(0, 1), (0, 1)] } }

theorem recWrites_of_recordBookedTwice : AMap.get 0 (extentRecordWrite 0 recordBookedTwice).store.recWrites 0 = 1 := by decide +kernel

/-! ## Restocks (R367-R370) -/

section
variable {s t : State} {u last : Nat}

theorem collOf_setColl_same {c : Coll} (h : c ≠ {}) (s : State) : collOf (setColl u c s) u = c := AMap.get_set_same h ..

theorem restockStart_of_due (hb : atBoundary s = true) (ha : cActive s u = true) (hr : (collOf s u).restock = 0)
    (ht : cv s 0x7900 0x19 u ≤ sideRecords s u ∨ (collOf s u).nowFlag = true) (hp : devicePaused s = false)
    (hbook : bookRestock u (collOf s u).retireQ (planRestock u (cSeq s u) (collOf s u).retireQ s).1 s = some (t, last))
    (hchit : (chitSum t (restockRid u) : Int) ≤ balanceOf s (cOwner s u)) :
    restockStart u s = setColl u { collOf t u with restock := 1, nowFlag := false, mergePoint := cSeq s u, retireSet := (collOf s u).retireQ, builtBy := last + 17 }
      (draw (cOwner s u) (chitSum t (restockRid u)) t) := by
  have htrigger : (decide (cv s 0x7900 0x19 u ≤ sideRecords s u) || (collOf s u).nowFlag) = true := by simpa using ht
  have hgo : ¬ ((!(cActive s u && atBoundary s && (collOf s u).restock == 0
      && (decide (cv s 0x7900 0x19 u ≤ sideRecords s u) || (collOf s u).nowFlag))) = true) := by
    rw [ha, hb, hr, htrigger]
    decide
  simp only [restockStart, if_neg hgo, hp, Bool.false_eq_true, if_false, hbook, if_neg (Int.not_lt.mpr hchit)]

theorem restockStart_of_busy (hr : (collOf s u).restock ≠ 0) : restockStart u s = s := by
  simp [restockStart, hr]

/-- The switch ends with the other slot current. -/
theorem restockSwitch_of_built (hb : atBoundary s = true) (hr : (collOf s u).restock = 1) (hbuilt : (collOf s u).builtBy ≤ curRound s) :
    (collOf (restockSwitch u s) u).cur = 1 - (collOf s u).cur ∧ (collOf (restockSwitch u s) u).restock = 2 := by
  have hgo : ¬ ((!(atBoundary s && (collOf s u).restock == 1 && decide ((collOf s u).builtBy ≤ curRound s))) = true) := by simp [hb, hr, hbuilt]
  rw [restockSwitch, if_neg hgo]
  dsimp only
  rw [collOf_setColl_same (fun h => by cases congrArg Coll.restock h)]
  exact ⟨rfl, rfl⟩

theorem restockSwitch_of_early (h : curRound s < (collOf s u).builtBy) : restockSwitch u s = s := by
  simp [restockSwitch, h]

theorem restockDrain_of_unpinned (hb : atBoundary s = true) (hr : (collOf s u).restock = 2)
    (hpin : ((collOf s u).slots.getD (1 - (collOf s u).cur) (0, 0, 0)).2.1 = 0) :
    restockDrain u s = (let v := ((collOf s u).chains.map (·.1)).foldl (fun t n => drainChain u n t) s
      cvAdd 0x7A00 6 (cOwner s u) 1 (setColl u { collOf v u with restock := 0, retireSet := [] } v)) := by
  refine if_neg ?_
  simp only [hb, hr, hpin]
  decide

theorem restockDrain_of_pinned (hpin : ((collOf s u).slots.getD (1 - (collOf s u).cur) (0, 0, 0)).2.1 ≠ 0) : restockDrain u s = s := by
  refine if_pos ?_
  simp only [beq_eq_false_iff_ne.mpr hpin, Bool.and_false, Bool.not_false]

end

/-! ## Translation (R233-R248) -/

section
variable {s t : State} {rid i : Nat} {w : PreWalk} {c : Cmd}

section
variable (hw : s.xl.walks.find? (fun w => w.rid == rid && w.index == i) = some w) (hdone : w.done = false) (ho : gateOpened s = true)
  (hr : w.round ≤ curRound s) (hats : ∀ a ∈ s.xl.ats, a.walk ≠ w) (hc : cmdOf s rid w.cmd = some c) (hrun : c.status = none)
  (hneed : ∃ k ∈ walkTargets w, tlbFind s w.ctx k w.va = none)
include hw hdone ho hr hats hc hrun hneed

/-- A pre-walk that is due and needed, of a table-walking context or of an ATS context. -/
theorem preWalk_of_due : preWalk rid i s =
    if cv s 0x5810 1 w.ctx = 2 then send (.atsRequest s.xl.nextAts (cv s 0x5810 6 w.ctx) w.va)
        { s with xl := { s.xl with nextAts := s.xl.nextAts + 1, ats := s.xl.ats ++ [{ id := s.xl.nextAts, walk := w, issued := now s }] } }
    else
      let p := cv s 0x5810 2 w.ctx
      let reads := if canonical p w.va then walkReads s w.stall w.ctx w.va (if p = 0 then 3 else 4) (cv s 0x5810 3 w.ctx) else []
      match walkInject w reads (cvAdd 0x5841 2 w.stall 1 (act rid w.stall 0 reads.length (walkDone w s))) with
      | (true, t) => walkFault w WALK_ERROR true t
      | (false, t) =>
        match walkLeaf t w.stall w.ctx w.va w.write with
        | .leaf g n r wr dirty => walkFound w g n r wr dirty (1280 * w.round) t
        | .cause c => walkFault w c false (if c = WALK_ERROR then walkErrorRec w reads t else t) := by
  have hno : s.xl.ats.any (fun a => a.walk == w) = false := List.any_eq_false.mpr fun a ha => by simpa using hats a ha
  have hwait : ¬ ((w.done || !gateOpened s || decide (curRound s < w.round) || s.xl.ats.any (fun a => a.walk == w)) = true) := by
    simp [hdone, ho, Nat.not_lt.mpr hr, hno]
  have hmiss : ¬ ((walkTargets w).all (fun k => (tlbFind s w.ctx k w.va).isSome) = true) := by
    obtain ⟨k, hk, hnone⟩ := hneed
    exact fun hall => by simpa [hnone] using List.all_eq_true.mp hall k hk
  simp only [preWalk, hw, if_neg hwait, hc, hrun, Option.isSome_none, Bool.false_eq_true, if_false, if_neg hmiss] <;> rfl

end

theorem atsBound_of_late {id : Nat} {a : AtsReq} (ha : atsOf s id = some a) :
    atsBound id s = if a.issued + cv s 0x5800 6 ≤ now s then walkFault a.walk ATS_FAIL false (walkDone a.walk (dropAts id s)) else s := by
  simp only [atsBound, ha]

/-- The state from which a completion goes on: the pre-walk has run, its request is gone and counted. -/
def atsAnswered (id : Nat) (a : AtsReq) (s : State) : State := cvAdd 0x5841 2 a.walk.stall 1 (walkDone a.walk (dropAts id s))

theorem atsCompletion_of_failed {id : Nat} {a : AtsReq} (ha : atsOf s id = some a) (size : Nat) (wr rd : Bool) :
    atsCompletion id none size wr rd s = walkFault a.walk ATS_FAIL false (atsAnswered id a s) := by
  simp only [atsCompletion, ha, atsAnswered]

theorem atsCompletion_of_timely {id p size g : Nat} {a : AtsReq} {wr rd : Bool} (ha : atsOf s id = some a) (hn : now s ≤ a.issued + cv s 0x5800 6)
    (hg : nodeMapped (atsAnswered id a s) a.walk.ctx (p / size * size) = some g) :
    atsCompletion id (some p) size wr rd s = walkFound a.walk g size rd wr true a.issued (atsAnswered id a s) := by
  rw [atsAnswered] at hg ⊢
  simp only [atsCompletion, ha, if_neg (Nat.not_lt.mpr hn), hg]

/-- The entries an Invalidate Request queues: one for each context of its PASID, or one that applies to nothing. -/
theorem atsInvalidate_eq (pasid va len : Nat) (s : State) :
    let mine := (storedInsts s 0x5810 1).filter (fun e => e.2 == 2 && cv s 0x5810 6 e.1 == pasid)
    let entry := fun (st c : Nat) =>
      ({ stall := st, va := va, len := len, ctx := c, drain := false, taken := now s, queue := false, ats := some (s.xl.nextAts, pasid) } : IqEnt)
    atsInvalidate pasid va len s = { s with xl := { s.xl with nextAts := s.xl.nextAts + 1, iq := s.xl.iq ++
      (if mine = [] then [entry 0 0x10000] else mine.map (fun e => entry (ctxStall s e.1) e.1)) } } := by
  dsimp only
  unfold atsInvalidate
  cases (storedInsts s 0x5810 1).filter (fun e => e.2 == 2 && cv s 0x5810 6 e.1 == pasid) with
  | nil => rfl
  | cons e l => simp

theorem iqApply_of_waiting {st : Nat} (h : ∀ e, s.xl.iq.find? (fun e => e.stall == st) = some e → iqReady s e = false) (n : Nat) :
    iqApply st n s = s := by
  cases n with
  | zero => rfl
  | succ n =>
    cases hf : s.xl.iq.find? (fun e => e.stall == st) with
    | none => simp only [iqApply, hf]
    | some e => simp only [iqApply, hf, h e hf, Bool.false_eq_true, if_false]

theorem iqApply_of_ready {st : Nat} {e : IqEnt} (hf : s.xl.iq.find? (fun e => e.stall == st) = some e) (hready : iqReady s e = true) :
    iqApply st 1 s = iqApplyOne e s := by
  simp only [iqApply, hf, if_pos hready]

end

end Sys2Proof.Machine

namespace Sys2Proof.Proofs
open Sys2Proof Sys2Proof.Machine

/-- Refutes O57: the statement asks of every state that a written record has no booking left, and a state's map of bookings need not be
canonical; one that lists an extent twice (`recordBookedTwice`) keeps the second entry. -/
theorem not_extentsAndStallsAreSwept : ¬ Obligations.ExtentsAndStallsAreSwept := by
  unfold Obligations.ExtentsAndStallsAreSwept
  intro h
  obtain ⟨-, -, -, -, -, -, ⟨hwritten, -⟩, -⟩ := h recordBookedTwice 0
  obtain ⟨t, hexec, -, -, hnone, -⟩ := hwritten (by decide) (by decide)
  cases hexec
  exact absurd (recWrites_of_recordBookedTwice.symm.trans hnone) (by decide)

/-- Settles O59: start, switch and drain. -/
theorem restocks : Obligations.Restocks := by
  refine fun s u hb => ⟨fun t last ha hr ht hp hbook hchit => ?_, fun hr => ?_, fun hr hbuilt => ?_, fun hearly => ?_, fun hr hpin => ?_, fun hpin => ?_⟩
  · exact ⟨_, congrArg Host.Outcome.next (restockStart_of_due hb ha hr ht hp hbook hchit),
      collOf_setColl_same (fun h => by cases congrArg Coll.restock h) _, rfl⟩
  · exact congrArg Host.Outcome.next (restockStart_of_busy hr)
  · exact ⟨_, rfl, restockSwitch_of_built hb hr hbuilt⟩
  · exact congrArg Host.Outcome.next (restockSwitch_of_early hearly)
  · exact ⟨_, rfl, restockDrain_of_unpinned hb hr hpin⟩
  · exact congrArg Host.Outcome.next (restockDrain_of_pinned hpin)

/-- Settles O60: pre-walks, ATS, Invalidate Requests, and the invalidations applied. -/
theorem translation : Obligations.Translation := by
  refine fun s => ⟨fun rid i w c t hw hdone ho hr hats hc hrun hneed => ⟨fun hmode => ?_, fun g n r wr dirty hmode hinj hleaf => ?_⟩,
    fun id a ha => ⟨fun p size wr rd g hn hg => ?_, fun size wr rd => ?_, fun hn => ?_, fun hn => ?_⟩, fun pasid va len => ?_,
    fun st e hb hq hst hready => ?_, fun st h => ?_⟩
  · exact congrArg Host.Outcome.next ((preWalk_of_due hw hdone ho hr hats hc hrun hneed).trans (if_pos hmode))
  · refine congrArg Host.Outcome.next ((preWalk_of_due hw hdone ho hr hats hc hrun hneed).trans ((if_neg hmode).trans ?_))
    dsimp only at hinj ⊢
    rw [hinj]
    dsimp only
    rw [hleaf]
  · exact congrArg Host.Outcome.next (atsCompletion_of_timely ha hn hg)
  · exact congrArg Host.Outcome.next (atsCompletion_of_failed ha size wr rd)
  · exact congrArg Host.Outcome.next ((atsBound_of_late ha).trans (if_pos hn))
  · exact congrArg Host.Outcome.next ((atsBound_of_late ha).trans (if_neg (Nat.not_le.mpr hn)))
  · exact congrArg Host.Outcome.next (atsInvalidate_eq pasid va len s)
  · refine congrArg Host.Outcome.next ((if_pos hb).trans ?_)
    rw [show s.xl.iq.length = 1 by rw [hq]; rfl]
    exact iqApply_of_ready (by simp [hq, hst]) hready
  · obtain hb | hwait := h
    · exact congrArg Host.Outcome.next (if_neg (by simp [hb]))
    · exact congrArg Host.Outcome.next (by rw [iqApply_of_waiting hwait, ite_self])

end Sys2Proof.Proofs

namespace Sys2Proof.Machine
open Sys2Proof

/-! ## Identity, attestation and the debug lock (R486-R493) -/

section
variable {s : State} {rq : Requester} {off len : Nat}

theorem answer_of_isMctp (h : isMctp rq = true) (tag result : Nat) (data : List Byte) (s : State) :
    answer rq tag result data s = { s with sent := s.sent ++ [.mctp rq tag result data] } := by
  cases rq with
  | i3c _ => rfl
  | vdm _ => rfl
  | _ => cases h

/-- A request that SEC serves is answered with what its command gives. -/
theorem attest_of_served (hm : isMctp rq = true) (h : attestServed s rq = some none) (tag : Nat) (f : State → Nat × List Byte × State) :
    attest rq tag f s = (let x := f s; { x.2.2 with sent := x.2.2.sent ++ [.mctp rq tag x.1 x.2.1] }) := by
  simp only [attest, h, answer_of_isMctp hm]

theorem identityRead_of_short (h : len ≤ 1024) : identityRead off len s = (OK, slice (Config.hssPublicKey ++ Config.endorsement) off len, s) :=
  if_neg (Nat.not_lt.mpr h)

/-- The report whose signing begins on a nonce. -/
def reportBegun (s : State) (rq : Requester) (nonce : List Byte) : Report :=
  { rq := rq, body := reportBody s nonce s.sec.sigNext, q := s.sec.sigNext, bytes := none, round := curRound s }

/-- Where the reserve in the boot flash covers the next index, a nonce takes it. -/
theorem reportRequest_of_free {nonce : List Byte} (hn : nonce.length = 32) (hidle : ∀ r ∈ s.sec.reports, r.bytes ≠ none) (hlast : s.sec.lastReport = none)
    (ho : debugIsOpen s = false) (hl : s.sec.lifecycle ≠ 2) (hq : s.sec.sigNext < 1048576) (hr : s.sec.sigNext ≠ s.sec.reserveR) :
    reportRequest rq nonce s = (OK, [], { s with sec := { s.sec with
      sigNext := s.sec.sigNext + 1, treeFuses := max s.sec.treeFuses (s.sec.sigNext / 1024 + 1), lastReport := some (curRound s),
      reports := s.sec.reports.filter (fun x => x.rq != rq) ++ [reportBegun s rq nonce] } }) := by
  have hnone : s.sec.reports.any (fun r => r.bytes.isNone) = false :=
    List.any_eq_false.mpr fun r hr => by simpa using hidle r hr
  have hlife : (s.sec.lifecycle == 2) = false := beq_eq_false_iff_ne.mpr hl
  simp only [reportRequest, hn, ne_eq, not_true_eq_false, if_false, hnone, hlast, Bool.or_self, Bool.false_eq_true, ho, hlife,
    if_neg (Nat.not_le.mpr hq), if_neg hr, Bool.not_true]
  rfl

theorem reportRead_of_unsigned (h : len ≤ 1024) (hno : ∀ r ∈ s.sec.reports, r.rq = rq → r.bytes = none) : reportRead rq off len s = (BUSY, [], s) := by
  have hnone : (s.sec.reports.find? (fun r => r.rq == rq && decide (curRound s < r.round + 78125))).bind (·.bytes) = none := by
    refine Option.bind_eq_none_iff.mpr fun r hr => hno r (List.mem_of_find?_eq_some hr) ?_
    have hrq := List.find?_some hr
    exact beq_iff_eq.mp (Bool.and_eq_true_iff.mp hrq).1
  rw [reportRead, if_neg (Nat.not_lt.mpr h), hnone]

theorem reportRead_of_signed {r : Report} {b : List Byte} (h : len ≤ 1024)
    (hr : s.sec.reports.find? (fun r => r.rq == rq && decide (curRound s < r.round + 78125)) = some r) (hb : r.bytes = some b) :
    reportRead rq off len s = (OK, slice b off len, s) := by
  simp only [reportRead, if_neg (Nat.not_lt.mpr h), hr, Option.bind_some, hb]

/-- A token is good for the challenge it answers alone. -/
theorem debugToken_of_other {token : List Byte} (h : s.sec.challenge ≠ some (token.take 48)) :
    debugToken token s = (PROTECTION, [], { s with sec := { s.sec with challenge := none } }) := by
  simp [debugToken, h]

theorem reportSigned_of_built {r : Report} (hr : s.sec.reports.find? (fun r => r.bytes.isNone) = some r) (ho : debugIsOpen s = false)
    (ht : r.q / 1024 < s.sec.tree) : reportSigned s = cvAdd 0xA101 4 0 1 { s with sec := { s.sec with
      reports := s.sec.reports.map (fun x => if x = r then { r with bytes := some (r.body ++ Config.hssSign r.q r.body), round := curRound s } else x) } } := by
  simp only [reportSigned, hr, ho, decide_eq_false (Nat.not_le.mpr ht), Bool.or_self, Bool.false_eq_true, if_false]

theorem reportSigned_of_open (ho : debugIsOpen s = true) : reportSigned s = s := by
  unfold reportSigned
  split
  · rw [if_pos (by simp [ho])]
  · rfl

theorem mem_reportDiscard (r : Report) : r ∈ (reportDiscard rq s).sec.reports
    ↔ r ∈ s.sec.reports ∧ (r.rq ≠ rq ∨ r.bytes = none ∨ curRound s < r.round + 78125) := by
  simp only [reportDiscard, List.mem_filter, Bool.not_eq_true', Bool.and_eq_false_iff, beq_eq_false_iff_ne, decide_eq_false_iff_not, Nat.not_le,
    Option.isSome_eq_false_iff, Option.isNone_iff_eq_none, or_assoc]

theorem bottomTreeBuild_of_due (ho : debugIsOpen s = false) (ht : s.sec.tree < 1024)
    (hdue : s.sec.tree ≤ s.sec.sigNext / 1024 ∨ (s.sec.tree = s.sec.sigNext / 1024 + 1 ∧ 512 ≤ s.sec.sigNext % 1024)) :
    bottomTreeBuild s = { s with sec := { s.sec with tree := s.sec.tree + 1 } } := by
  unfold bottomTreeBuild
  rw [if_neg (by simp [ho, ht]), if_pos (hdue.imp_right .inr)]

theorem bottomTreeBuild_of_open (ho : debugIsOpen s = true) : bottomTreeBuild s = s := by
  simp [bottomTreeBuild, ho]

end

end Sys2Proof.Machine

namespace Sys2Proof.Proofs
open Sys2Proof Sys2Proof.Machine

/-- Settles O35: the requests as SEC serves them, then signing and the trees. -/
theorem attestation : Obligations.Attestation := by
  refine ⟨fun s rq tag hm h => ?_, fun s => ⟨fun r hr ho ht => ?_, fun ho => ?_, fun rq => ?_, fun ho ht hdue => ?_, fun ho => ?_⟩⟩
  · have hserve (f : State → Nat × List Byte × State) := attest_of_served hm h tag f
    refine ⟨fun off len hlen => ?_, fun nonce hn hidle hlast ho hl hq hr => ?_, fun off len hlen hno => ?_, fun off len r b hlen hr hb => ?_,
      ⟨_, _, congrArg Host.Outcome.next (hserve debugChallenge), rfl, ?_, ?_, rfl⟩, fun token => ?_, fun token hc => ?_⟩
    · exact congrArg Host.Outcome.next ((hserve _).trans (by rw [identityRead_of_short hlen]))
    · refine ⟨_, congrArg Host.Outcome.next ((hserve _).trans (by rw [reportRequest_of_free hn hidle hlast ho hl hq hr])), rfl, ?_, rfl, rfl, rfl⟩
      exact Nat.lt_of_succ_le (Nat.le_max_right ..)
    · exact congrArg Host.Outcome.next ((hserve _).trans (by rw [reportRead_of_unsigned hlen hno]))
    · exact congrArg Host.Outcome.next ((hserve _).trans (by rw [reportRead_of_signed hlen hr hb]))
    · exact List.drop_left' (length_leBytes ..)
    · exact (List.length_append ..).trans (congrArg (· + _) (length_leBytes ..))
    · refine congrArg Host.Outcome.next ((hserve _).trans ?_)
      simp only [debugToken]
      split <;> rfl
    · exact congrArg Host.Outcome.next ((hserve _).trans (by rw [debugToken_of_other hc]))
  · refine ⟨_, congrArg Host.Outcome.next (reportSigned_of_built hr ho ht), ?_, cv_cvAdd_same .., rfl⟩
    exact List.mem_map.mpr ⟨r, List.mem_of_find?_eq_some hr, if_pos rfl⟩
  · exact congrArg Host.Outcome.next (reportSigned_of_open ho)
  · exact ⟨_, rfl, rfl, fun r => mem_reportDiscard r⟩
  · exact congrArg Host.Outcome.next (bottomTreeBuild_of_due ho ht hdue)
  · exact congrArg Host.Outcome.next (bottomTreeBuild_of_open ho)

end Sys2Proof.Proofs

namespace Sys2Proof.Machine
open Sys2Proof

/-! ## Reads, programs and write-backs of a flash channel (R125, R146, R153) -/

section
variable {s u : State} {ch slot page lun st f b : Nat} {w : Wb} {c : CFrame}

section
variable (hch : ch < 64) (hpage : page < 4) (hdue : arrayDue s ch slot = true)
include hch hpage hdue

theorem flashArrayRead_of_idle (hbusy : lunBusy s ch (lunOf s ch (slot / 256)) = false) :
    flashArrayRead ch slot page s = { s with sent := s.sent ++ [.arrayRead ch slot page] } := by
  simp [flashArrayRead, Nat.not_le.mpr hch, Nat.not_le.mpr hpage, hdue, hbusy, send]

theorem flashArrayRead_of_busy (hbusy : lunBusy s ch (lunOf s ch (slot / 256)) = true) (hs : lunOf s ch (slot / 256) ∉ (chanOf s ch).suspended) :
    flashArrayRead ch slot page s = { setChan ch { chanOf s ch with suspended := (chanOf s ch).suspended ++ [lunOf s ch (slot / 256)] } s with
      sent := s.sent ++ [.suspend ch (lunOf s ch (slot / 256)), .arrayRead ch slot page] } := by
  simp [flashArrayRead, Nat.not_le.mpr hch, Nat.not_le.mpr hpage, hdue, hbusy, hs, send, setChan]

end

theorem flashArrayRead_of_early (hdue : arrayDue s ch slot = false) : flashArrayRead ch slot page s = s := by
  simp [flashArrayRead, hdue]

theorem programResume_of_suspended (h : lun ∈ (chanOf s ch).suspended) : programResume ch lun s =
    { setChan ch { chanOf s ch with suspended := (chanOf s ch).suspended.filter (· != lun) } s with sent := s.sent ++ [.resume ch lun] } :=
  if_pos (List.contains_iff_mem.mpr h)

theorem programResume_of_running (h : lun ∉ (chanOf s ch).suspended) : programResume ch lun s = s :=
  if_neg fun hc => h (List.contains_iff_mem.mp hc)

theorem writebackCommit_of_programmed (h : findWb s st f = some w) (h4 : 4 ≤ w.begun) (hinj : programInjected w s = (u, false)) :
    writebackCommit st f s = commitWb w u := by
  simp only [writebackCommit, h, if_neg (Nat.not_lt.mpr h4), hinj, Bool.false_eq_true, if_false]

theorem writebackCommit_of_begun (h : findWb s st f = some w) (h4 : w.begun < 4) : writebackCommit st f s = s := by
  simp only [writebackCommit, h, if_pos h4]

/-- Setting a frame, a lost marker or the lost frames leaves the mapping. -/
theorem mapOf_setFrame (f g : Nat) (c : Option CFrame) (s : State) : mapOf (setFrame f c s) g = mapOf s g := rfl
theorem mapOf_addReloc (x : Reloc) (f : Nat) (s : State) : mapOf (addReloc x s) f = mapOf s f := by
  unfold addReloc
  split <;> rfl
theorem mapOf_setMap_same {v : Nat} (h : v ≠ 0) (s : State) : mapOf (setMap f v s) f = v := AMap.get_set_same h ..

/-- The entry of a committed write-back names its slot. -/
theorem mapOf_commitWb (w : Wb) (s : State) : mapOf (commitWb w s) w.frame = mapEntry true w.keepLost w.slot := by
  have hne : mapEntry true w.keepLost w.slot ≠ 0 := by rw [mapEntry, if_pos rfl]; omega
  have hset (t : State) : mapOf (setMap w.frame (mapEntry true w.keepLost w.slot) t) w.frame = mapEntry true w.keepLost w.slot := mapOf_setMap_same hne t
  have hlost (x : Reloc) (t : State) : mapOf (if w.keepLost then addReloc x t else clearLost w.frame t) w.frame = mapOf t w.frame := by
    split
    · exact mapOf_addReloc ..
    · rfl
  simp only [commitWb]
  split
  · split
    · rw [mapOf_setFrame, hlost, hset]
    · rw [hlost, hset]
  · rw [hlost, hset]

theorem flashProgram_of_program (hch : ch < 64) (h : findWb s st f = some w) (hw : w.chan = ch) (hb : w.begun ≠ 0) :
    flashProgram ch (w.slot / 256) false st f s
      = rebookWb w true (detectRec 0x05 (flashLocator ch (w.slot / 256) (w.slot % 256 * 4 + (w.begun - 1))) 0 0xFFFF st 0 false s) := by
  simp [flashProgram, Nat.not_le.mpr hch, h, hw, hb]

theorem flashProgram_of_erase (hch : ch < 64) (h : (blockOf s ch b).state = 3) :
    flashProgram ch b true st f s = retireWhole ch b (detectRec 0x05 (flashLocator ch b 0) 1 0xFFFF st 0 false s) := by
  simp [flashProgram, Nat.not_le.mpr hch, h]

theorem frameFree_of_due (h : cframe s f = some c) (hst : c.stall = st) (h3 : c.state = 3) (hr : c.freeRound ≤ curRound s) (hno : findWb s st f = none) :
    frameFree st f s = emptyFrame f s := by
  simp only [frameFree, h, hst, h3, hr, and_self, if_true, hno]

theorem frameFree_of_early (h : cframe s f = some c) (hr : curRound s < c.freeRound) : frameFree st f s = s := by
  simp only [frameFree, h]
  exact if_neg fun hc => Nat.not_le.mpr hr hc.2.2

/-- A physical frame with too few corrected errors to be retired is free again. -/
theorem emptyFrame_of_kept (h : cframe s f = some c) (hce : AMap.get 0 s.store.ceCount c.phys < cv s 0x4050 9) : emptyFrame f s = setFrame f none s := by
  have hrelease : releasePhys c.phys (setFrame f none s) = setFrame f none s := if_neg (Nat.not_le.mpr hce)
  have hsame : (setFrame f none s).store.retired = s.store.retired := rfl
  simp only [emptyFrame, h, hrelease, hsame, Bool.and_not_self, Bool.false_eq_true, if_false]

end

/-! ## The log's own work (R156-R161) -/

section
variable {s v : State} {ch b n slot f last region : Nat}

/-- The block of the fewest committed slots is one of the list. -/
theorem mem_of_leastFull {l : List (Nat × Nat)} {x : Nat × Nat} (h : leastFull l = some x) : x ∈ l := by
  have hall : ∀ y ∈ leastFull l, y ∈ l := by
    refine List.foldlRecOn l _ (motive := fun (m : Option (Nat × Nat)) => ∀ y ∈ m, y ∈ l) (fun y hy => by cases hy) fun m hm a ha y hy => ?_
    cases m with
    | none => cases hy; exact ha
    | some z =>
      dsimp only at hy
      split at hy
      · cases hy; exact ha
      · exact hm y hy
  exact hall x h

/-- COMPACTION where it may run. -/
theorem compaction_of_short (hst : chanState s ch = 1 ∨ chanState s ch = 2) (hfree : cv s 0x4041 3 ch < 64) (hp : devicePaused s = false)
    (hrb : (chanOf s ch).rebuilt = true) (hno : ∀ e ∈ s.store.blocks, e.1 / 2 ^ 26 = ch → e.2.state ≠ 4) :
    compaction ch s = if (usedBlocks s ch).all (fun x => decide (256 ≤ x.2)) then setChanState ch 2 s else
      match leastFull ((usedBlocks s ch).filter (fun x => !blockKept s ch x.1)) with
      | some (b, n) => if 256 ≤ n then s else relocateBlock ch b (setBlock ch b { blockOf s ch b with state := 4 } s)
      | none => s := by
  have hstate : (chanState s ch == 1 || chanState s ch == 2) = true := by simpa using hst
  have hone : s.store.blocks.any (fun e => e.1 / 2 ^ 26 == ch && e.2.state == 4) = false :=
    List.any_eq_false.mpr fun e he hm => by
      obtain ⟨h1, h2⟩ := Bool.and_eq_true_iff.mp hm
      exact hno e he (beq_iff_eq.mp h1) (beq_iff_eq.mp h2)
  refine (if_neg ?_).trans rfl
  simp only [hstate, hp, hrb, hone, decide_eq_false (Nat.not_le.mpr hfree)]
  decide

theorem compaction_of_free (h : 64 ≤ cv s 0x4041 3 ch) : compaction ch s = s := by
  simp [compaction, h]

theorem blockErase_of_early (h : (blockOf s ch b).state ≠ 3 ∨ curRound s < (blockOf s ch b).erase) : blockErase ch b s = s := if_pos h

theorem blockOf_setBlock_same {x : Block} (h : x ≠ {}) (s : State) : blockOf (setBlock ch b x s) ch b = x := AMap.get_set_same h ..

/-- An unarmed erase that ends below the limit of erases frees the block. -/
theorem blockErase_of_due (hch : ch < 64) (h3 : (blockOf s ch b).state = 3) (hr : (blockOf s ch b).erase ≤ curRound s)
    (hlimit : (blockOf s ch b).erases + 1 < cv s 0x4040 5) (hst : chanState s ch = 1) (ha : armed s 0x05 0 = false) :
    blockErase ch b s = cvSet 0x4041 3 ch (cv s 0x4041 3 ch + 1)
      (setBlock ch b { state := 0, erases := (blockOf s ch b).erases + 1, opened := 0 } (eraseCells ch b s)) := by
  have hgo : ¬ ((blockOf s ch b).state ≠ 3 ∨ curRound s < (blockOf s ch b).erase) := by omega
  have hinj : eraseInjected ch b s = s := by simp only [eraseInjected, inject_of_unarmed ha]
  have hkeep (x : Nat) : cv (cvSet 0x4041 3 ch x (setBlock ch b { state := 0, erases := (blockOf s ch b).erases + 1, opened := 0 } (eraseCells ch b s))) 0x4040 5
      = cv s 0x4040 5 := cv_cvSet_ne (by unfold catKey; omega) ..
  have hstate (x : Nat) : chanState (cvSet 0x4041 3 ch x (setBlock ch b { state := 0, erases := (blockOf s ch b).erases + 1, opened := 0 } (eraseCells ch b s))) ch = 1 :=
    (cv_cvSet_ne (by unfold catKey; omega) ..).trans hst
  have hfailed : (blockOf s ch b).state ≠ 2 := by omega
  simp only [blockErase, if_neg hgo, hinj, if_neg hfailed, hkeep, if_neg (Nat.not_le.mpr hlimit), hstate]
  exact if_neg fun h => by cases h.1

theorem ext_setChanState (ch st : Nat) (s : State) : (setChanState ch st s).ext = s.ext := by
  unfold setChanState
  split
  · rfl
  · exact (errRec_quiet (Quiet.refl (cvSet 0x4041 5 ch st s))).ext

theorem channelFailed_of_pinned (hch : ch < 64) (hst : chanState s ch = 1) (hno : ∀ e ∈ s.ext.recs, e.2.backed = false) :
    channelFailed ch s = setChanState ch 3 s := by
  have hgo : ¬ (64 ≤ ch ∨ chanState s ch = 0 ∨ chanState s ch = 3) := by omega
  have hnone : s.ext.recs.filter (fun e => e.2.state != 0 && e.2.backed) = [] :=
    List.filter_eq_nil_iff.mpr fun e he => by simp [hno e he]
  simp only [channelFailed, if_neg hgo, ext_setChanState, hnone, List.foldl_nil]

/-- The record of a page that LDPC recovery tried, recovered (1) or not (0). -/
def ldpcRec (ch slot f n : Nat) (s v : State) : State :=
  errRec 0x87 (flashLocator ch (slot / 256) (slot % 256 * 4)) n 0xFFFF (extRec s (f / 16384)).stall 0 true false v

theorem ldpcRecovery_of_recovered (hf : frameAt s ch slot = some f) (hbook : bookLog (chanRid ch) ch 7 0 0 s = some (v, last)) :
    ldpcRecovery ch slot true s = retireWhole ch (slot / 256) (ldpcRec ch slot f 1 s v) := by
  simp only [ldpcRecovery, hf, hbook, if_true, ldpcRec]

theorem ldpcRecovery_of_lost (hf : frameAt s ch slot = some f) (hbook : bookLog (chanRid ch) ch 7 0 0 s = some (v, last)) :
    ldpcRecovery ch slot false s = retireWhole ch (slot / 256) (bookRelocs (addReloc { chan := ch, frame := f, src := 0, kind := 2 }
      (setMap f (mapEntry false true 0) (loseFrame f 0x04 false (ldpcRec ch slot f 0 s v))))) := by
  simp only [ldpcRecovery, hf, hbook, Bool.false_eq_true, if_false, ldpcRec]

theorem ldpcRecovery_of_none {r : Bool} (hf : frameAt s ch slot = none) : ldpcRecovery ch slot r s = s := by
  simp only [ldpcRecovery, hf]

theorem checkpointValid_of_written {a : Nat} (ha : (chanOf s ch).ckptArea = some a) (hl : (chanOf s ch).ckptLeft = 0) (he : (chanOf s ch).ckptEnd < curRound s) :
    ∃ ckpt, checkpointValid ch s = setChan ch { chanOf s ch with ckptValid := a, ckptArea := none, ckptSeq := (chanOf s ch).ckptNext }
      { s with store := { s.store with ckpt := ckpt } } := by
  have hgo : ¬ ((chanOf s ch).ckptLeft ≠ 0 ∨ curRound s ≤ (chanOf s ch).ckptEnd) := by omega
  simp only [checkpointValid, ha, if_neg hgo]
  exact ⟨_, rfl⟩

theorem checkpointValid_of_unfinished (h : (chanOf s ch).ckptArea = none ∨ (chanOf s ch).ckptLeft ≠ 0 ∨ curRound s ≤ (chanOf s ch).ckptEnd) :
    checkpointValid ch s = s := by
  unfold checkpointValid
  dsimp only
  split
  · rfl
  · next hsome => exact if_pos (h.resolve_left fun hnone => by cases hnone.symm.trans hsome)

/-- The channels that answer. -/
def liveChans (s : State) : List Nat := (List.range 64).filter (fun f => chanState s f == 1 || chanState s f == 2)

theorem liveChans_of_none (h : ∀ f, f < 64 → chanState s f ≠ 1 ∧ chanState s f ≠ 2) : liveChans s = [] :=
  List.filter_eq_nil_iff.mpr fun f hf => by simpa using h f (List.mem_range.mp hf)

theorem liveChans_of_one (hch : ch < 64) (h : ∀ f, f < 64 → ((chanState s f = 1 ∨ chanState s f = 2) ↔ f = ch)) : liveChans s = [ch] := by
  refine List.perm_singleton.mp ((List.perm_ext_iff_of_nodup (List.nodup_range.filter _) (List.pairwise_singleton _ ch)).mpr fun f => ?_)
  simp only [List.mem_filter, List.mem_range, Bool.or_eq_true, beq_iff_eq, List.mem_singleton]
  exact ⟨fun hf => (h f hf.1).mp hf.2, fun hf => hf ▸ ⟨hch, (h ch hch).mpr rfl⟩⟩

theorem mapRebuild_of_good (h : region ∉ s.store.mapBad) : mapRebuild region s = s := by
  simp [mapRebuild, h]

/-- A bad region is rebuilt once a page of each channel that answers is booked. -/
theorem mapRebuild_of_bad (h : region ∈ s.store.mapBad) (hbook : (liveChans s).foldl
      (fun (x : Option State) ch => x.bind (fun t => (bookLog (chanRid ch) ch 1 0 0 t).map (·.1))) (some s) = some v) :
    mapRebuild region s = { v with store := { v.store with mapBad := v.store.mapBad.filter (· != region) } } := by
  rw [liveChans] at hbook
  simp only [mapRebuild, List.contains_iff_mem.mpr h, Bool.not_true, Bool.false_eq_true, if_false, hbook]

end

end Sys2Proof.Machine

namespace Sys2Proof.Proofs
open Sys2Proof Sys2Proof.Machine

/-- Settles O55. -/
theorem flashReadsAndWritebacks : Obligations.FlashReadsAndWritebacks := by
  refine fun s ch hch => ⟨fun slot page hpage hdue => ⟨fun hbusy => ?_, fun hbusy hs => ?_⟩, fun slot page hdue => ?_, fun lun h => ?_, fun lun h => ?_,
    fun st f w u h h4 hinj => ?_, fun st f w h h4 => ?_, fun st f w h hw hb => ?_, fun b st f h => ?_, fun st f c h hst h3 hr hno => ⟨?_, fun hce => ?_⟩,
    fun st f c h hr => ?_⟩
  · exact congrArg Host.Outcome.next (flashArrayRead_of_idle hch hpage hdue hbusy)
  · exact congrArg Host.Outcome.next (flashArrayRead_of_busy hch hpage hdue hbusy hs)
  · exact congrArg Host.Outcome.next (flashArrayRead_of_early hdue)
  · exact congrArg Host.Outcome.next (programResume_of_suspended h)
  · exact congrArg Host.Outcome.next (programResume_of_running h)
  · exact ⟨_, congrArg Host.Outcome.next (writebackCommit_of_programmed h h4 hinj), rfl, mapOf_commitWb ..⟩
  · exact congrArg Host.Outcome.next (writebackCommit_of_begun h h4)
  · exact congrArg Host.Outcome.next (flashProgram_of_program hch h hw hb)
  · exact congrArg Host.Outcome.next (flashProgram_of_erase hch h)
  · exact congrArg Host.Outcome.next (frameFree_of_due h hst h3 hr hno)
  · exact emptyFrame_of_kept h hce
  · exact congrArg Host.Outcome.next (frameFree_of_early h hr)

/-- Settles O56. -/
theorem flashLogWork : Obligations.FlashLogWork := by
  refine fun s ch hch => ⟨fun hst hfree hp hrb hno => ⟨fun b n hleast hn => ?_, fun hfull => ?_⟩, fun hfree => ?_, fun b h3 hr hlimit hst ha => ?_,
    fun b h => ?_, fun hst hno => ?_, fun slot f v last hf hbook => ⟨?_, ?_⟩, fun slot r hf => ?_, fun a ha hl he => ?_, fun h => ?_, fun region h => ?_,
    fun region h hnone => ?_, fun region v last h hone hbook => ?_⟩
  · refine congrArg Host.Outcome.next ((compaction_of_short hst hfree hp hrb hno).trans ?_)
    have hmem : (b, n) ∈ usedBlocks s ch := (List.mem_filter.mp (mem_of_leastFull hleast)).1
    have hnot : ¬ ((usedBlocks s ch).all (fun x => decide (256 ≤ x.2)) = true) := fun hall =>
      Nat.not_le.mpr hn (of_decide_eq_true (List.all_eq_true.mp hall (b, n) hmem))
    rw [if_neg hnot, hleast]
    exact if_neg (Nat.not_le.mpr hn)
  · refine congrArg Host.Outcome.next ((compaction_of_short hst hfree hp hrb hno).trans (if_pos ?_))
    simpa using hfull
  · exact congrArg Host.Outcome.next (compaction_of_free hfree)
  · refine ⟨_, congrArg Host.Outcome.next (blockErase_of_due hch h3 hr hlimit hst ha), ?_, cv_cvSet_same ..⟩
    exact blockOf_setBlock_same (fun h => by cases congrArg Block.erases h) _
  · exact congrArg Host.Outcome.next (blockErase_of_early h)
  · exact congrArg Host.Outcome.next (channelFailed_of_pinned hch hst hno)
  · exact congrArg Host.Outcome.next (ldpcRecovery_of_recovered hf hbook)
  · exact congrArg Host.Outcome.next (ldpcRecovery_of_lost hf hbook)
  · exact congrArg Host.Outcome.next (ldpcRecovery_of_none hf)
  · obtain ⟨ckpt, heq⟩ := checkpointValid_of_written ha hl he
    exact ⟨_, congrArg Host.Outcome.next heq, rfl, rfl⟩
  · exact congrArg Host.Outcome.next (checkpointValid_of_unfinished h)
  · exact congrArg Host.Outcome.next (mapRebuild_of_good h)
  · exact congrArg Host.Outcome.next (mapRebuild_of_bad h (by rw [liveChans_of_none hnone]; rfl))
  · exact congrArg Host.Outcome.next (mapRebuild_of_bad h (by rw [liveChans_of_one hch hone, List.foldl_cons, Option.bind_some, hbook]; rfl))

end Sys2Proof.Proofs

namespace Sys2Proof.Machine
open Sys2Proof

/-! ## Spans (R268, R286, R288) -/

section
variable {s : State} {col k b : Nat} {p : Span}

theorem colSt_setCol_same {x : ColSt} (h : x ≠ {}) (s : State) : colSt (setCol col x s) col = x := AMap.get_set_same h ..

/-- The column at the first field of its span. -/
def spanBegun (p : Span) : ColSt := { active := true, span := some p, pos := p.first, ran := [] }

theorem spanStart_of_begun (hp : nextSpan s col = some p) (ha : (colSt s col).active = false) (hb : slotBegun s (curRound s * 1024 + p.start) = true)
    (ho : spanOver s p = false) : ∃ movs, spanStart col s = setCol col (spanBegun p)
      { s with fab := { s.fab with pred := AMap.set 0 s.fab.pred col 0, movs := movs } } := by
  have hgo : ¬ (((colSt s col).active || !slotBegun s (curRound s * 1024 + p.start) || spanOver s p) = true) := by simp [ha, hb, ho]
  refine ⟨(spanStart col s).fab.movs, ?_⟩
  simp only [spanStart, hp, if_neg hgo]
  split <;> rfl

theorem spanStart_of_none (hp : nextSpan s col = none) : spanStart col s = s := by
  simp only [spanStart, hp]

/-- A porter that still works for a span is stopped. -/
def stopPorter (p : Span) (col : Nat) (t : State) (i : Nat) : State :=
  let x := porterOf t (2 * col + i)
  if x.rid = p.rid ∧ x.run ≠ 0 then setPorter (2 * col + i) { x with run := 0, tw := none } t else t

theorem stopPorter_eq (p : Span) (col i : Nat) (t : State) :
    stopPorter p col t i = { t with fab := { t.fab with porters := (stopPorter p col t i).fab.porters } } := by
  unfold stopPorter
  dsimp only
  split <;> rfl

theorem spanOverrun_of_late (hp : (colSt s col).span = some p) (ho : spanOver s p = true) (hrun : (colSt s col).active = true ∨ porterRuns s p col = true)
    (hd : spanDead s p = false) : ∃ porters, spanOverrun col s = overrun p.rid p.cmd FAULT_MEMORY false false
      { setCol col { colSt s col with active := false } s with fab := { (setCol col { colSt s col with active := false } s).fab with porters := porters } } := by
  have hstop : (spanOver s p && ((colSt s col).active || porterRuns s p col)) = true := by simpa [ho] using hrun
  have hfold (l : List Nat) (t : State) : l.foldl (stopPorter p col) t = { t with fab := { t.fab with porters := (l.foldl (stopPorter p col) t).fab.porters } } :=
    List.foldlRecOn l (stopPorter p col) (motive := fun (u : State) => u = { t with fab := { t.fab with porters := u.fab.porters } }) rfl
      fun u hu i _ => by rw [stopPorter_eq, hu]
  simp only [spanOverrun, hp, hstop, if_true, hd, Bool.false_eq_true, if_false]
  exact ⟨_, congrArg (overrun p.rid p.cmd FAULT_MEMORY false false) (hfold (List.range 2) (setCol col _ s))⟩

theorem spanOverrun_of_done (hp : (colSt s col).span = some p)
    (h : spanOver s p = false ∨ (colSt s col).active = false ∧ porterRuns s p col = false) : spanOverrun col s = s := by
  have hstop : (spanOver s p && ((colSt s col).active || porterRuns s p col)) = false := by
    obtain h | ⟨ha, hr⟩ := h
    · simp [h]
    · simp [ha, hr]
  simp only [spanOverrun, hp, hstop, Bool.false_eq_true, if_false]

end

/-! ## The fields of a column (R286, R289, R290, R293) -/

section
variable {s u : State} {col w : Nat} {p : Span} {fits : Nat → Nat → Bool} {body : Span → Nat → Nat → State → State}

/-- The column at its next field, its pipelines having run `n` cycles more. -/
def nextField (p : Span) (col macs n : Nat) (v : State) : State :=
  setCol col { colSt v col with pos := nextPos v p.stall col (colSt v col).pos, ran := ranAfter (colSt v col).ran macs n } v

variable (hf : curField s col = some (p, w)) (hck : checkField (col / 8) (colSt s col).pos p s = (true, u)) (hd : spanDead u p = false)
  (hfits : fits (fOp w) (opRowOf s col (fOp w)) = true)
include hf hck hd hfits

theorem subfield_of_set (hpred : predBit u col (fPred w) = true) : subfield col fits body s = nextField p col
    (if oClass (opRowOf s col (fOp w)) == 2 && fOp w != 0 then fEngines w else 0) (fHold w + 1) (body p w (opRowOf s col (fOp w)) u) := by
  simp only [subfield, hf, hfits, Bool.not_true, Bool.false_eq_true, if_false, hck, hd, hpred, Bool.not_false, Bool.true_and, if_true]
  rfl

theorem subfield_of_clear (hpred : predBit u col (fPred w) = false) : subfield col fits body s = nextField p col 0 (fHold w + 1)
    (cvAdd 0x6031 4 p.stall ((fHold w + 1) * popc 4 (fEngines w)) u) := by
  simp only [subfield, hf, hfits, Bool.not_true, Bool.false_eq_true, if_false, hck, hd, hpred, Bool.not_false, Bool.true_and, Bool.and_false,
    Bool.false_and, if_true]
  rfl

omit hd hfits in
theorem opEnd_of_end (hop : fOp w = 0xFE) : opEnd col s = (let v := cvAdd 0x6031 1 p.stall 1 u
    setCol col { colSt v col with active := false, ran := [] } v) := by
  simp only [opEnd, hf, hop, ne_eq, not_true_eq_false, if_false, hck, if_true]
  rfl

end

/-! ## The cluster mover (R291, R292) -/

section
variable {s u : State} {k dir : Nat} {p : Span} {c : Cmd} {d : SegD}

/-- The field a mover stands at: its position, its word, and its row. -/
def movPos (s : State) (k : Nat) (p : Span) : Nat := skipNops s p.stall k 16384 (movSt s k).pos
def movWord (s : State) (k : Nat) (p : Span) : Nat := (AMap.get 0 s.fab.runB.movers (k * 2 ^ 14 + movPos s k p)).toNat
def movRow (s : State) (k : Nat) (p : Span) : Nat := (AMap.get 0 s.fab.runB.moveRows (k * 256 + mOp (movWord s k p))).toNat
/-- The mover at its next field. -/
def movNext (s u : State) (k : Nat) (p : Span) : State := setMov k { pos := nextPos u p.stall (8 * k) (movPos s k p), rep := 1 } u

variable (hp : movSpan s k = some p)
include hp

theorem moveField_of_end (hop : mOp (movWord s k p) = 0xFE) : moveField dir k s = setMov k {} s := by
  rw [movWord, movPos] at hop
  simp only [moveField, hp, hop, if_true]

variable (hop : mOp (movWord s k p) ≠ 0xFE)
include hop

theorem moveField_of_other (hdir : mDir (movRow s k p) ≠ dir) : moveField dir k s = s := by
  rw [movRow, movWord, movPos] at hdir
  rw [movWord, movPos] at hop
  simp only [moveField, hp, if_neg hop, if_pos hdir]

/-- The bursts of a field of the row's direction, in order. -/
theorem moveField_of_row (hdir : mDir (movRow s k p) = dir) (hck : checkField k (movPos s k p) p s = (true, u))
    (hc : cmdOf (movNext s u k p) p.rid p.cmd = some c) (hw : c.work = .segment d) (hd : spanDead (movNext s u k p) p = false)
    (hpred : predBit (movNext s u k p) (8 * k) (mPred (movRow s k p)) = true) :
    moveField dir k s = (List.range (mHold (movWord s k p) + 1)).foldl (fun t' i => moveBurst k p d
      (roundIndex t' p.rid p.cmd d (curRound t')) (movRow s k p) i t') (movNext s u k p) := by
  simp only [movNext, movRow, movWord, movPos] at *
  simp only [moveField, hp, if_neg hop, hdir, ne_eq, not_true_eq_false, if_false, hck, hc, hw, hd, hpred, Bool.not_false, Bool.and_self, if_true]

end

end Sys2Proof.Machine

namespace Sys2Proof.Proofs
open Sys2Proof Sys2Proof.Machine

/-- Settles O52. -/
theorem spansStartAndOverrun : Obligations.SpansStartAndOverrun := by
  refine fun s col => ⟨fun p hp ha hb ho => ?_, fun hp => ?_, fun p hp ho hrun hd => ?_, fun p hp h => ?_, fun k b h0 hn => ?_, fun k b hn => ?_⟩
  · obtain ⟨movs, heq⟩ := spanStart_of_begun hp ha hb ho
    exact ⟨_, congrArg Host.Outcome.next heq, colSt_setCol_same (fun h => by cases congrArg ColSt.active h) _, rfl⟩
  · exact congrArg Host.Outcome.next (spanStart_of_none hp)
  · obtain ⟨porters, heq⟩ := spanOverrun_of_late hp ho hrun hd
    exact ⟨_, _, congrArg Host.Outcome.next heq, rfl, rfl, rfl⟩
  · exact congrArg Host.Outcome.next (spanOverrun_of_done hp h)
  · exact congrArg Host.Outcome.next (if_pos ⟨h0, hn⟩)
  · exact congrArg Host.Outcome.next (if_neg fun h => Nat.not_le.mpr hn h.2)

/-- Settles O53: each class of row is one body of `subfield`. -/
theorem columnsRunTheirFields : Obligations.ColumnsRunTheirFields := by
  refine fun s u col w p hf hck => ⟨fun hd hpred => ⟨fun h0 hE => ⟨fun hr => ?_, fun hr => ?_, fun hr => ?_, fun hr => ?_⟩, fun h0 => ?_⟩,
    fun hd hpred h0 hE hr => ?_, fun hop => ?_⟩
  · exact congrArg Host.Outcome.next ((subfield_of_set hf hck hd (by simp [h0, hE, hr]) hpred).trans (by rw [hr]; rfl))
  · exact congrArg Host.Outcome.next ((subfield_of_set hf hck hd (by simp [h0, hE, hr]) hpred).trans (by rw [hr, bne_iff_ne.mpr h0]; rfl))
  · exact congrArg Host.Outcome.next ((subfield_of_set hf hck hd (by simp [h0, hE, hr]) hpred).trans (by rw [hr]; rfl))
  · exact ⟨_, congrArg Host.Outcome.next (subfield_of_set hf hck hd (by simp [h0, hE, hr]) hpred), by rw [hr]; rfl⟩
  · refine congrArg Host.Outcome.next ((subfield_of_set hf hck hd (by simp [h0]) hpred).trans ?_)
    rw [h0, bne_self_eq_false, Bool.and_false]
    rfl
  · exact congrArg Host.Outcome.next (subfield_of_clear hf hck hd (by simp [h0, hE, hr]) hpred)
  · exact ⟨_, congrArg Host.Outcome.next (opEnd_of_end hf hck hop), rfl⟩

/-- Settles O54: the three rows are one function of their direction. -/
theorem moversRunTheirFields : Obligations.MoversRunTheirFields := by
  intro s k p hp
  have hrow (dir : Nat) (i : Instr) (hi : exec i s = .next (moveField dir k s)) :
      (mOp (movWord s k p) = 0xFE → exec i s = .next (setMov k {} s))
      ∧ (mOp (movWord s k p) ≠ 0xFE → mDir (movRow s k p) ≠ dir → exec i s = .next s)
      ∧ (∀ u c d, mOp (movWord s k p) ≠ 0xFE → mDir (movRow s k p) = dir → checkField k (movPos s k p) p s = (true, u) →
        cmdOf (movNext s u k p) p.rid p.cmd = some c → c.work = .segment d → spanDead (movNext s u k p) p = false →
        predBit (movNext s u k p) (8 * k) (mPred (movRow s k p)) = true →
        exec i s = .next ((List.range (mHold (movWord s k p) + 1)).foldl (fun t' i => moveBurst k p d
          (roundIndex t' p.rid p.cmd d (curRound t')) (movRow s k p) i t') (movNext s u k p))) := by
    refine ⟨fun hop => ?_, fun hop hdir => ?_, fun u c d hop hdir hck hc hw hd hpred => ?_⟩
    · exact hi.trans (congrArg Host.Outcome.next (moveField_of_end hp hop))
    · exact hi.trans (congrArg Host.Outcome.next (moveField_of_other hp hop hdir))
    · exact hi.trans (congrArg Host.Outcome.next (moveField_of_row hp hop hdir hck hc hw hd hpred))
  intro pos w r rows x hx
  obtain rfl | rfl | rfl : x = (1, .moveHbmToBank k) ∨ x = (2, .moveBankToHbm k) ∨ x = (3, .moveBankToBank k) := by simpa [rows] using hx
  · exact hrow 1 _ rfl
  · exact hrow 2 _ rfl
  · exact hrow 3 _ rfl

end Sys2Proof.Proofs

namespace Sys2Proof.Machine
open Sys2Proof Sys2Proof.Safety

/-! ## Fetch and execution of a porter's instruction (R271, R276, R277) -/

section
variable {s u v : State} {p lo hi w : Nat} {e : PTrap}

theorem porterStep_of_dead (h : porterLive s p = false) : porterStep p s = s := by
  simp [porterStep, h]

section
variable (h : porterLive s p = true)
include h

theorem porterStep_of_word (hlo : fetchHalf p (porterOf s p).pc.toNat s = (.val lo, u)) (h3 : lo % 4 = 3)
    (hhi : fetchHalf p (((porterOf s p).pc.toNat + 2) % 2 ^ 32) u = (.val hi, v)) :
    porterStep p s = op32 p 4 (lo + hi * 2 ^ 16) (loadUse p (lo + hi * 2 ^ 16) v) := by
  simp only [porterStep, h, hlo, h3, hhi, Bool.not_true, Bool.false_eq_true, if_false, ne_eq, not_true_eq_false]

theorem porterStep_of_compressed (hlo : fetchHalf p (porterOf s p).pc.toNat s = (.val lo, u)) (h3 : lo % 4 ≠ 3) (hx : expandC lo = some w) :
    porterStep p s = op32 p 2 w (loadUse p w u) := by
  simp [porterStep, h, hlo, h3, hx]

theorem porterStep_of_illegal (hlo : fetchHalf p (porterOf s p).pc.toNat s = (.val lo, u)) (h3 : lo % 4 ≠ 3) (hx : expandC lo = none) :
    porterStep p s = porterTrap p (illegal lo) u := by
  simp [porterStep, h, hlo, h3, hx]

theorem porterStep_of_fetch_trap (hlo : fetchHalf p (porterOf s p).pc.toNat s = (.trap e, u)) : porterStep p s = porterTrap p e u := by
  simp [porterStep, h, hlo]

end

/-- ADDI. -/
theorem op32_addi {len : Nat} (hop : w % 128 = 0x13) (hf3 : bits w 14 12 = 0) : op32 p len w s
    = retire p (bits w 11 7) ((rget (porterOf s p) (bits w 19 15) + sx 12 (bits w 31 20)) % 2 ^ 32) ((porterOf s p).pc.toNat + len) 1 s := by
  simp [op32, hop, hf3, aluOp]

/-- LUI. -/
theorem op32_lui {len : Nat} (hop : w % 128 = 0x37) : op32 p len w s
    = retire p (bits w 11 7) (bits w 31 12 * 4096) ((porterOf s p).pc.toNat + len) 1 s := by
  simp [op32, hop]

/-- A half fetched from the porter's own memory, in its stall's pages, with no bad word and no injection armed. -/
theorem fetchHalf_of_own {a : Nat} (heven : a % 2 = 0) (ha : a < 0x10000) (hok : tcmOk s p a = true)
    (hue : s.mem.ueWords.contains ((tcmBase p + a) / 8) = false) (h2 : armed s 0x02 (porterOf s p).stall = false) (h3 : armed s 0x03 0 = false) :
    fetchHalf p a s = (.val (leNat (readTcm s p a 2)), s) := by
  have hplace : placeOf p a false s = (.tcm a, s) := if_pos ha
  have hword : sramWord (porterOf s p).stall (porterOf s p).ctx (tcmLocator p a) ((tcmBase p + a) / 8) s = (none, s) := by
    rw [sramWord, hue, h2, h3]
    rfl
  simp [fetchHalf, porterLoad, heven, hplace, hok, hword]

end

/-! ## Tile control (R202, R203, R214-R217, R274) -/

section
variable {s t : State} {p c : Nat}

theorem porterDoes_of_live (h : porterLive s p = true) (w : Nat) (f : State → State) : porterDoes p w f s = f (loadUse p w s) := if_pos h

/-- An operation that gives a value and leaves the registers completes. -/
theorem finish_of_val (v : Nat) : finish p 4 c (fun _ x => x) (.val v, t) = retired p c t := rfl
theorem finish_of_trap {e : PTrap} {put : Nat → Porter → Porter} : finish p 4 c put (.trap e, t) = porterTrap p e t := rfl

/-- The lines of a range, each through the aperture, without a failed translation. -/
theorem rangeLines_of_places : ∀ {a : Nat} {ls : List Nat}, (∀ i l, ls[i]? = some l → ∃ ga byp, placeOf p (a + 64 * i) false s = (.line ga byp, s) ∧ offOf ga / 64 = l) →
    rangeLines p a ls.length s = (.inl ls, s)
  | _, [], _ => rfl
  | a, l :: ls, h => by
    obtain ⟨ga, byp, hplace, hline⟩ := h 0 l rfl
    have hrest : rangeLines p (a + 64) ls.length s = (.inl ls, s) := rangeLines_of_places fun i l' hl' => by
      obtain ⟨ga', byp', hplace', hline'⟩ := h (i + 1) l' hl'
      exact ⟨ga', byp', by rw [← hplace', show a + 64 + 64 * i = a + 64 * (i + 1) by omega], hline'⟩
    rw [Nat.mul_zero, Nat.add_zero] at hplace
    simp only [List.length_cons, rangeLines, hplace, hrest, hline]

/-- An operation over 1 to 64 lines. -/
theorem withScope_of_range {a n : Nat} {ls : List Nat} {op : Nat → Option (List Nat) → State → PRes × State} (h1 : 1 ≤ n) (h64 : n ≤ 64) (hn : ls.length = n)
    (h : ∀ i l, ls[i]? = some l → ∃ ga byp, placeOf p (a / 64 * 64 + 64 * i) false s = (.line ga byp, s) ∧ offOf ga / 64 = l) :
    withScope p op (some (a, n)) s = op p (some ls) s := by
  have hrange : ¬ (n < 1 ∨ 64 < n) := by omega
  simp only [withScope, if_neg hrange]
  rw [← hn, rangeLines_of_places h]

theorem release_of_open (scope : Option (List Nat)) (h : porterSnps (drainAll p s) p = true) : release p scope s = (.wait, drainAll p s) := by
  simp only [release, h, if_true]

theorem release_of_closed (scope : Option (List Nat)) (h : porterSnps (drainAll p s) p = false) : release p scope s = (.val 0,
    ((drainAll p s).fab.lc.filter (fun l => l.cluster == porterCluster p && l.stall == (porterOf s p).stall && l.owned
      && (match scope with | none => true | some ls => ls.contains l.line))).foldl
      (fun t l => storeWrite (64 * l.line) (leBytes 64 l.data.toNat) t) (drainAll p s)) := by
  simp only [release, h, Bool.false_eq_true, if_false] <;> rfl

theorem acquire_all : acquire p none s = (.val 0, setLc (s.fab.lc.filter (fun l => !(l.cluster == porterCluster p && l.stall == (porterOf s p).stall && !l.owned))) s) := by
  simp only [acquire, Bool.and_true]

theorem drainAll_of_empty (h : (porterOf s p).sb = []) : drainAll p s = s := by
  rw [drainAll, h]
  rfl

/-- The predicate register of a column of the part is written. -/
theorem csrWrite_pred {col : Nat} (h : col < 8) (v : Nat) : csrWrite p (0x80A + col) v s = (true, setPred (porterCluster p) col v s) := by
  have h1 : ¬ (0x800 ≤ 0x80A + col ∧ 0x80A + col ≤ 0x807) := by omega
  have h2 : ¬ (0x80A + col = 0x808) := by omega
  have h3 : 0x80A ≤ 0x80A + col ∧ 0x80A + col ≤ 0x811 := by omega
  simp only [csrWrite, if_neg h1, if_neg h2, if_pos h3, Nat.add_sub_cancel_left]

theorem cycle_rset (r v : Nat) (x : Porter) : (rset r v x).cycle = x.cycle := by
  unfold rset
  split <;> rfl

section
variable {rd tally target start : Nat} (hw : (porterOf s p).tw = some (rd, tally, target, start)) (hrun : (porterOf s p).run = 3)
include hw hrun

theorem twaitDone_of_waiting : twaitDone p s = if reached s tally target ∧ (now s - start) * cyclesPerTick s ≤ (AMap.get 0 (porterOf s p).csrs 0x808).toNat then
    setPorter p { rset rd 1 (porterOf s p) with run := 1, tw := none } s else s := by
  simp only [twaitDone, hw, hrun, true_and]

theorem twaitBound_of_waiting : twaitBound p s = if (AMap.get 0 (porterOf s p).csrs 0x808).toNat ≤ (now s - start) * cyclesPerTick s then
    setPorter p { rset rd (if (now s - start) * cyclesPerTick s < (AMap.get 0 (porterOf s p).csrs 0x808).toNat + cyclesPerTick s ∧ reached s tally target = true then 1 else 0)
        (porterOf s p) with run := 1, tw := none, cycle := (porterOf s p).cycle + (AMap.get 0 (porterOf s p).csrs 0x808).toNat } s else s := by
  simp only [twaitBound, hw, hrun, true_and, cycle_rset, Bool.and_eq_true, decide_eq_true_eq]

end

end

end Sys2Proof.Machine

namespace Sys2Proof.Proofs
open Sys2Proof Sys2Proof.Machine Sys2Proof.Safety

/-- Settles O49. -/
theorem porterInstructions : Obligations.PorterInstructions := by
  intro s p pc addi lui own
  have haddi (w : Nat) (v : State) (h : exec (.porterInstruction p) s = .next (op32 p 4 w (loadUse p w v))) : addi (.porterInstruction p) w v :=
    fun hop hf3 => h.trans (congrArg Host.Outcome.next (op32_addi hop hf3))
  have hlui (w : Nat) (v : State) (h : exec (.porterInstruction p) s = .next (op32 p 4 w (loadUse p w v))) : lui (.porterInstruction p) w v :=
    fun hop => h.trans (congrArg Host.Outcome.next (op32_lui hop))
  refine ⟨fun h => congrArg Host.Outcome.next (porterStep_of_dead h), fun h => ⟨fun lo hi u v hlo h3 hhi => ?_, fun lo u w hlo h3 hx => ?_,
    fun lo u hlo h3 hx => ?_, fun e u hlo => ?_, fun heven hend hown hown2 ha2 ha3 => ?_⟩⟩
  · have hstep := congrArg (Host.Outcome.next (φ := Fault) (ρ := Refusal)) (porterStep_of_word h hlo h3 hhi)
    exact ⟨hstep, haddi _ _ hstep, hlui _ _ hstep⟩
  · exact congrArg Host.Outcome.next (porterStep_of_compressed h hlo h3 hx)
  · exact congrArg Host.Outcome.next (porterStep_of_illegal h hlo h3 hx)
  · exact congrArg Host.Outcome.next (porterStep_of_fetch_trap h hlo)
  · have hlo := fetchHalf_of_own heven (by omega) hown.1 hown.2 ha2 ha3
    have hhi := fetchHalf_of_own (a := pc + 2) (by omega) (by omega) hown2.1 hown2.2 ha2 ha3
    rw [← Nat.mod_eq_of_lt (show pc + 2 < 2 ^ 32 by omega)] at hhi
    refine ⟨fun h3 => ?_, fun c h3 hx => congrArg Host.Outcome.next (porterStep_of_compressed h hlo h3 hx)⟩
    have hstep := congrArg (Host.Outcome.next (φ := Fault) (ρ := Refusal)) (porterStep_of_word h hlo h3 hhi)
    rw [Nat.mod_eq_of_lt (show pc + 2 < 2 ^ 32 by omega)] at hstep
    exact ⟨hstep, haddi _ _ hstep, hlui _ _ hstep⟩

/-- Settles O50, operation by operation. -/
theorem tileControlAndTallyWaits : Obligations.TileControlAndTallyWaits := by
  refine ⟨fun s p rd rs1 rs2 hlive => ?_, fun s p rd tally target start hw hrun => ?_⟩
  · intro cached lines written
    refine ⟨?_, ?_, ?_, ?_, ?_, ?_, ?_, ?_⟩
    · intro u
      have h : tcAcq p 4 none u = retired p 16 (acquire p none u).2 := rfl
      rw [acquire_all] at h
      exact congrArg Host.Outcome.next ((porterDoes_of_live hlive _ _).trans h)
    · intro u ls hls
      obtain ⟨h1, h64, hlen, hplaces⟩ := hls
      have hscope := withScope_of_range (op := acquire) h1 h64 hlen hplaces
      have h : tcAcq p 4 (some (rs1, rs2)) u = retired p (4 + rget (porterOf u p) rs2) (acquire p (some ls) u).2 :=
        congrArg (finish p 4 _ fun _ x => x) hscope
      rw [← hlen] at h
      exact congrArg Host.Outcome.next ((porterDoes_of_live hlive _ _).trans h)
    · intro u v
      refine ⟨fun hsnps => ?_, fun hsnps => ?_, fun hsb => drainAll_of_empty hsb⟩
      · have h : tcRel p 4 none u = retired p (releaseTicks u * cyclesPerTick u) _ :=
          congrArg (finish p 4 _ fun _ x => x) (release_of_closed none hsnps)
        simp only [Bool.and_true] at h
        exact congrArg Host.Outcome.next ((porterDoes_of_live hlive _ _).trans h)
      · have h : tcRel p 4 none u = v := congrArg (finish p 4 (releaseTicks u * cyclesPerTick u) fun _ x => x) (release_of_open none hsnps)
        exact congrArg Host.Outcome.next ((porterDoes_of_live hlive _ _).trans h)
    · intro u v ls hls hsnps
      obtain ⟨h1, h64, hlen, hplaces⟩ := hls
      have hscope := (withScope_of_range (op := release) h1 h64 hlen hplaces).trans (release_of_closed (some ls) hsnps)
      have h : tcRel p 4 (some (rs1, rs2)) u = retired p (releaseTicks u * cyclesPerTick u) _ :=
        congrArg (finish p 4 _ fun _ x => x) hscope
      exact congrArg Host.Outcome.next ((porterDoes_of_live hlive _ _).trans h)
    · intro u x
      refine ⟨fun heven hreach => ?_, fun heven hreach => ?_, fun hodd => ?_⟩
      all_goals refine congrArg Host.Outcome.next ((porterDoes_of_live hlive _ _).trans ?_)
      · simp only [tcWait, heven, twaitBegin, x, u, hreach, Nat.zero_ne_one, if_false, Bool.not_true, Bool.false_eq_true, finish_of_val]
      · simp only [tcWait, heven, twaitBegin, x, u, hreach, Nat.zero_ne_one, if_false, Bool.not_false, if_true, finish_of_trap]
      · exact if_pos hodd
    · intro u x
      refine ⟨fun hreach => ?_, fun hreach => ?_⟩
      all_goals refine congrArg Host.Outcome.next ((porterDoes_of_live hlive _ _).trans ?_)
      · simp only [tcAdd, porterTadd, x, u, hreach, Bool.not_true, Bool.false_eq_true, if_false, finish_of_val]
      · simp only [tcAdd, porterTadd, x, u, hreach, Bool.not_false, if_true, finish_of_trap]
    · intro col v u
      refine ⟨fun hcol hpart => ?_, fun hbad => ⟨_, congrArg Host.Outcome.next ((porterDoes_of_live hlive _ _).trans (if_neg ?_))⟩⟩
      · refine congrArg Host.Outcome.next ((porterDoes_of_live hlive _ _).trans ((if_pos ⟨hcol, hpart⟩).trans ?_))
        rw [csrWrite_pred hcol, finish_of_val]
      · rintro ⟨hcol, hpart⟩
        rcases hbad with hbad | hbad
        · omega
        · exact Bool.false_ne_true (hbad.symm.trans hpart)
    · intro e rest hsb
      refine congrArg Host.Outcome.next ?_
      simp only [drainOne, hsb]
  · intro bound elapsed ends
    refine ⟨fun hr hle => ?_, fun hno => ?_, fun hle => ?_, fun hlt => ?_⟩
    all_goals refine congrArg Host.Outcome.next ?_
    · exact (twaitDone_of_waiting hw hrun).trans (if_pos ⟨hr, hle⟩)
    · refine (twaitDone_of_waiting hw hrun).trans (if_neg ?_)
      rintro ⟨hr, hle⟩
      rcases hno with hno | hno
      · exact Bool.false_ne_true (hno.symm.trans hr)
      · exact absurd hle (Nat.not_le.mpr hno)
    · exact (twaitBound_of_waiting hw hrun).trans (if_pos hle)
    · exact (twaitBound_of_waiting hw hrun).trans (if_neg (Nat.not_le.mpr hlt))

end Sys2Proof.Proofs

namespace Sys2Proof.Machine
open Sys2Proof Sys2Proof.Safety

/-! ## Records and the Gate's requests -/

section
variable {s t u : State}

theorem advance_quiet {st k n : Nat} (h : Quiet s t) : Quiet s (advance st k n t) := by
  have hbump : Quiet s (tallyBump k n (inject 0x0E k st (decide (2 ^ 64 ≤ tallyVal t k + n)) t).2) := tallyBump_quiet (inject_quiet h)
  unfold advance
  refine Quiet.ite (fun _ => h) fun _ => Quiet.ite (fun _ => ?_) fun _ => h
  dsimp only
  split
  · exact cvAdd_quiet (by omega) (detectRec_quiet hbump)
  · refine errRec_quiet (Quiet.ite (fun _ => cvAdd_quiet (by omega) (detect_quiet ?_)) fun _ => ?_)
    all_goals exact Quiet.ite (fun _ => setTally_quiet hbump) fun _ => hbump
  · exact hbump

/-- A write to a context's ring is Quiet. -/
theorem ringWrite_quiet {st c a : Nat} {l : List Byte} (h : Quiet s t) : Quiet s (ringWrite st c a l t) := by
  unfold ringWrite hostWrite
  exact Quiet.ite (fun _ => Quiet.mk_iff.mpr h) fun _ => Quiet.ite (fun _ => deviceWrite_quiet h) fun _ => h

/-- A completion record leaves the Gate's requests, bookings and decisions as they are. -/
theorem gate_writeRecord (st c : Nat) (rec : Nat → Nat) (s : State) :
    (writeRecord st c rec s).gate = { s.gate with acts := (writeRecord st c rec s).gate.acts } := by
  unfold writeRecord
  dsimp only
  split
  · rfl
  · exact (advance_quiet (cvAdd_quiet (by omega) (ringWrite_quiet (.refl _)))).gate

theorem intake_writeRecord (st c : Nat) (rec : Nat → Nat) (s : State) : (writeRecord st c rec s).gate.intake = s.gate.intake := by rw [gate_writeRecord]
theorem reqs_writeRecord (st c : Nat) (rec : Nat → Nat) (s : State) : (writeRecord st c rec s).gate.reqs = s.gate.reqs := by rw [gate_writeRecord]

theorem gate_countRefusal (st x : Nat) (s : State) : (countRefusal st x s).gate = s.gate := by
  unfold countRefusal
  split <;> rfl

/-- A refused request is no longer undecided. -/
theorem intake_refuse (a : Arrival) (n x d : Nat) (s : State) : (refuse a n x d s).gate.intake = s.gate.intake.filter (· != a) := by
  unfold refuse
  dsimp only
  split
  · rw [channelDone, setMover, intake_writeRecord, gate_countRefusal]
  · rw [intake_writeRecord, gate_countRefusal]

theorem not_mem_filter_ne (a : Arrival) (l : List Arrival) : a ∉ l.filter (· != a) := by simp

end

/-! ## Decisions (R54-R58, R69, R79) -/

section
variable {fits : Arrival → Bool} {c cls : Nat} {s t u : State} {a : Arrival} {q : Req} {cmds : List Cmd}

theorem gateRow_of_none (h : ∀ a, oldest s c = some a → fits a = false) : gateRow fits c s = s := by
  unfold gateRow
  split
  · next a ho => simp [h a ho]
  · rfl

section
variable (ho : oldest s c = some a)
include ho

theorem gateRow_of_waiting (h : fits a = false ∨ mayDecide s a.stall = false) : gateRow fits c s = s := by
  simp only [gateRow, ho]
  rcases h with h | h <;> simp [h]

theorem gateRow_of_decided (hrun : running s = true) (hopen : gateOpened s = true) (hfits : fits a = true) (hmay : mayDecide s a.stall = true) :
    gateRow fits c s = gateDecide a s := by
  simp [gateRow, ho, hrun, hopen, hfits, hmay]

end

theorem gateDecide_of_refused {x d : Nat} (h : screen a s = .inr (x, d, t)) : ∃ n, gateDecide a s = refuse a n x d t :=
  ⟨match askOf s a with | .inl (_, l) => l.length | .inr _ => a.entries.length, by simp only [gateDecide, h] <;> rfl⟩

theorem gateDecide_of_remote (h : screen a s = .inl (cls, cmds, t)) (hr : ∃ k ∈ cmds, remoteCmd s k = true) : gateDecide a s = postQueries a cls cmds s := by
  simp only [gateDecide, h, List.any_eq_true.mpr hr, if_true]

theorem gateDecide_of_local (h : screen a s = .inl (cls, cmds, t)) (hl : ∀ k ∈ cmds, remoteCmd s k = false) : gateDecide a s = conclude a cls cmds t s := by
  have hany : cmds.any (remoteCmd s) = false := List.any_eq_false.mpr fun k hk => by simp [hl k hk]
  simp only [gateDecide, h, hany, Bool.false_eq_true, if_false]

/-- The Gate after an acceptance: the bookings of `u`, the decision noted, the request no longer undecided. -/
def acceptedGate (a : Arrival) (q : Req) (s u : State) : GateSt :=
  { u.gate with intake := u.gate.intake.filter (· != a), nextRid := q.rid + 1, lastDecision := AMap.set none u.gate.lastDecision a.stall (some (decTick s a.stall)),
                joints := u.gate.joints.map (fun j => if ofArrival a j then { j with rid := q.rid, bound := jointBound s j, confirmed := true } else j) }

/-- What the Gate makes of the outcome of a booking, of no channel and no joint. -/
def concluded (a : Arrival) (n : Nat) (s : State) : (Nat × Nat) ⊕ (State × Req) → State
  | .inl (st, d) => refuse a n st d s
  | .inr (u, q) => cvAdd 0x1011 1 a.stall 1 { u with gate := acceptedGate a q s u }

/-- A request that books, of no channel and no joint, is accepted. -/
theorem conclude_of_booked (hchan : a.chan = none) (hj : jointsOf s a = []) (hb : book (localTry a cls cmds s) (decTick s a.stall) t = .inr (u, q)) :
    conclude a cls cmds t s = cvAdd 0x1011 1 a.stall 1 { u with gate := acceptedGate a q s u } := by
  unfold conclude
  rw [hchan, hj]
  exact congrArg (concluded a cmds.length s) hb

/-- What a row of the Gate does with a request that passes and books. -/
theorem gateRow_of_accepts (h : GateAccepts fits c s a u q) : gateRow fits c s = cvAdd 0x1011 1 a.stall 1 { u with gate := acceptedGate a q s u } := by
  obtain ⟨ho, hrun, hopen, hfits, hmay, hchan, hj, cls, cmds, t, hs, hl, hb⟩ := h
  rw [gateRow_of_decided ho hrun hopen hfits hmay, gateDecide_of_local hs hl, conclude_of_booked hchan hj hb]

/-- A row of the Gate accepts such a request. -/
theorem accepts {i : Instr} (hi : exec i s = .next (gateRow fits c s)) (h : GateAccepts fits c s a u q) :
    ∃ v, exec i s = .next v ∧ cv v 0x1011 1 a.stall = cv u 0x1011 1 a.stall + 1 ∧ a ∉ v.gate.intake
      ∧ v = { u with cat := v.cat, gate := { u.gate with intake := u.gate.intake.filter (· != a), nextRid := q.rid + 1, joints := v.gate.joints,
                                                         lastDecision := AMap.set none u.gate.lastDecision a.stall (some (decTick s a.stall)) } } :=
  ⟨_, hi.trans (congrArg Host.Outcome.next (gateRow_of_accepts h)), cv_cvAdd_same .., not_mem_filter_ne _ _, rfl⟩

/-- A row of the Gate refuses a request at the first check it fails, asks a peer for a part on another node, and lets others wait. -/
theorem refuses {i : Instr} (hi : exec i s = .next (gateRow fits c s)) (ho : oldest s c = some a) (hrun : running s = true) (hopen : gateOpened s = true) :
    (fits a = false ∨ mayDecide s a.stall = false → exec i s = .next s)
    ∧ (fits a = true → mayDecide s a.stall = true →
      (∀ x d t, screen a s = .inr (x, d, t) → ∃ n v, exec i s = .next v ∧ v = refuse a n x d t ∧ a ∉ v.gate.intake)
      ∧ (∀ cls cmds t, screen a s = .inl (cls, cmds, t) → (∃ k ∈ cmds, remoteCmd s k = true) → exec i s = .next (postQueries a cls cmds s))) := by
  refine ⟨fun h => hi.trans (congrArg Host.Outcome.next (gateRow_of_waiting ho h)), fun hfits hmay => ?_⟩
  rw [gateRow_of_decided ho hrun hopen hfits hmay] at hi
  refine ⟨fun x d t hs => ?_, fun cls cmds t hs hr => hi.trans (congrArg Host.Outcome.next (gateDecide_of_remote hs hr))⟩
  obtain ⟨n, hn⟩ := gateDecide_of_refused hs
  refine ⟨n, _, hi.trans (congrArg Host.Outcome.next hn), rfl, ?_⟩
  rw [intake_refuse]
  exact not_mem_filter_ne _ _

end

end Sys2Proof.Machine

namespace Sys2Proof.Proofs
open Sys2Proof Sys2Proof.Machine Sys2Proof.Safety

/-- Settles O40. -/
theorem gateAcceptsRequests : Obligations.GateAcceptsRequests := by
  intro s c accepted
  have key {i : Instr} {fits : Arrival → Bool} (hi : exec i s = .next (gateRow fits c s)) : accepted i fits := fun _ _ _ h => accepts hi h
  exact ⟨key rfl, key rfl, key rfl, key rfl, key rfl, key rfl, key rfl, key rfl, key rfl, key rfl, key rfl, key rfl, key rfl, key rfl, key rfl,
    key rfl, key rfl, key rfl, key rfl⟩

/-- Settles O41. -/
theorem gateRefusesRequests : Obligations.GateRefusesRequests := by
  intro s c a ho hrun hopen rows
  have hrow : ∀ p ∈ rows, exec p.1 s = .next (gateRow p.2 c s) := by
    simp only [rows, List.forall_mem_cons, List.not_mem_nil, false_imp_iff, implies_true, and_true]
    exact ⟨rfl, rfl, rfl, rfl, rfl, rfl, rfl, rfl, rfl, rfl, rfl, rfl, rfl, rfl, rfl, rfl, rfl, rfl, rfl⟩
  exact fun p hp => refuses (hrow p hp) ho hrun hopen

end Sys2Proof.Proofs

namespace Sys2Proof.Machine
open Sys2Proof Sys2Proof.Safety

/-! ## What leaves the stalls' own values as they are

STALL_REMOVE sets the state and the hold of a stall, then closes its extents and ends its pacts; those touch values of the catalogue from
index 0x3030 on alone. -/

/-- Every catalogue value below index 0x3030 reads as before. -/
def StallsKept (s t : State) : Prop := ∀ i j k, catKey i j k < 0x3030 * 2 ^ 24 → cv t i j k = cv s i j k

namespace StallsKept
variable {s t u : State}

theorem refl (s : State) : StallsKept s s := fun _ _ _ _ => rfl
theorem trans (h : StallsKept s t) (g : StallsKept t u) : StallsKept s u := fun i j k hk => (g i j k hk).trans (h i j k hk)
theorem of_eq (hc : t.cat = s.cat) (hk : t.clk = s.clk) : StallsKept s t := fun i j k _ => by simp only [cv, dfltOf, hc, hk]
theorem of_quiet (h : Quiet s t) : StallsKept s t := fun i j k hk => by
  simp only [cv, dfltOf, h.clk, h.2.2 (catKey i j k) (by omega)]
theorem foldl {α : Type} {f : State → α → State} (hf : ∀ x a, StallsKept x (f x a)) : ∀ (l : List α) (t : State), StallsKept t (l.foldl f t)
  | [], t => refl t
  | a :: l, t => (hf t a).trans (foldl hf l (f t a))
theorem ite {c : Prop} [Decidable c] (h : c → StallsKept s t) (g : ¬c → StallsKept s u) : StallsKept s (if c then t else u) := by
  by_cases k : c
  · rw [if_pos k]; exact h k
  · rw [if_neg k]; exact g k
theorem cvSet {i j k : Nat} (v : Nat) (hi : 0x3030 ≤ i) : StallsKept s (cvSet i j k v s) := fun i' j' k' hk' =>
  cv_cvSet_ne (fun h => by rw [h] at hk'; unfold catKey at hk'; omega) v s
theorem cvClear {i j k : Nat} (hi : 0x3030 ≤ i) : StallsKept s (cvClear i j k s) := fun i' j' k' hk' =>
  cv_cvClear_ne (fun h => by rw [h] at hk'; unfold catKey at hk'; omega) s

end StallsKept

section
variable {s t : State}

theorem stallsKept_bookN (w : For) (cal dir r from_ n : Nat) (s : State) : StallsKept s (bookN w cal dir r from_ n s) := by
  unfold bookN
  exact StallsKept.ite (fun _ => .refl s) fun _ => .of_eq rfl rfl

theorem stallsKept_addEnergy (rid st r uj : Nat) (chit : Bool) (s : State) : StallsKept s (addEnergy rid st r uj chit s) := by
  unfold addEnergy
  exact StallsKept.ite (fun _ => .refl s) fun _ => .of_eq rfl rfl

theorem stallsKept_bookSweepFrom {e n slots uj last : Nat} : ∀ {fuel r : Nat} {got : List Nat} {s : State} {x : List Nat × State},
    bookSweepFrom e n slots uj last fuel r got s = some x → StallsKept s x.2
  | 0, _, _, _, _, h => by simp [bookSweepFrom] at h
  | fuel + 1, r, got, s, x, h => by
    unfold bookSweepFrom at h
    split at h
    · cases h
      exact .refl s
    · split at h
      · cases h
      · dsimp only at h
        split at h
        · have hslots : StallsKept s ((List.range 8).foldl (fun t k => bookN { rid := sweepRid e, cmd := 0, stall := 0, bulk := true, maxR := last } (calHbm k) 0 r 0 slots t) s) :=
            StallsKept.foldl (fun y k => stallsKept_bookN _ _ _ _ _ _ y) _ s
          exact (hslots.trans (stallsKept_addEnergy _ _ _ _ _ _)).trans (stallsKept_bookSweepFrom h)
        · exact stallsKept_bookSweepFrom h

theorem stallsKept_invalidateExtent (e : Nat) (s : State) : StallsKept s (invalidateExtent e s) := by
  unfold invalidateExtent
  exact StallsKept.ite (fun _ => .foldl (fun x l => .of_quiet (unitInvalidate_quiet (.refl x))) _ s) fun _ => .refl s

theorem stallsKept_withdrawWbs (e : Nat) (s : State) : StallsKept s (withdrawWbs e s) := by
  unfold withdrawWbs
  refine StallsKept.trans (.of_eq rfl rfl) (StallsKept.foldl ?_ _ _)
  exact fun x w => .of_eq rfl rfl

theorem stallsKept_withdrawRestocks (e : Nat) (s : State) : StallsKept s (withdrawRestocks e s) := by
  unfold withdrawRestocks
  refine StallsKept.foldl ?_ _ _
  exact fun x c => .of_eq rfl rfl

theorem stallsKept_nameExtent (e : Nat) (q : Req) (s : State) : StallsKept s (nameExtent e q s) := by
  unfold nameExtent
  exact StallsKept.ite (fun _ => .refl s) fun _ => .of_eq rfl rfl

theorem stallsKept_closeExtent {e tally : Nat} {x : Nat × State} (h : closeExtent e tally s = some x) : StallsKept s x.2 := by
  unfold closeExtent at h
  dsimp only at h
  split at h
  · cases h
  · next rounds s2 hbook =>
    cases h
    have hbooked : StallsKept s s2 := (stallsKept_invalidateExtent e s).trans (stallsKept_bookSweepFrom hbook)
    have hdrawn : StallsKept s (drawStall0 (sweepChit s (extRec s e).backed) s2) := hbooked.trans (.of_eq rfl rfl)
    have hwbs := StallsKept.ite (c := (extRec s e).backed = true) (fun _ => hdrawn.trans (stallsKept_withdrawWbs e _)) fun _ => hdrawn
    exact ((hwbs.trans (stallsKept_withdrawRestocks e _)).trans (StallsKept.foldl (fun y q => stallsKept_nameExtent e q y) _ _)).trans (.of_eq rfl rfl)

theorem stallsKept_closeAll (st : Nat) (s : State) : StallsKept s (closeAll st s) := by
  unfold closeAll
  refine StallsKept.foldl ?_ _ _
  intro x e
  refine StallsKept.ite (fun _ => .refl x) fun _ => ?_
  split
  · next h => exact stallsKept_closeExtent h
  · exact .refl x

theorem stallsKept_setPact (p st : Nat) (s : State) : StallsKept s (setPact p st s) := by
  obtain ⟨log, hq⟩ := setPact_quiet (p := p) st s
  exact ((StallsKept.cvSet st (by decide)).trans (.of_eq rfl rfl)).trans (.of_quiet hq)

theorem stallsKept_endPact (p : Nat) (s : State) : StallsKept s (endPact p s) := by
  unfold endPact
  split
  · exact stallsKept_setPact p 3 s
  · split
    · exact StallsKept.trans (t := { s with err := { s.err with pactEnd := AMap.set [] s.err.pactEnd p [0] } }) (.of_eq rfl rfl) (stallsKept_setPact p 3 _)
    · exact .refl s

/-! ## Stalls made and removed (R115, R116) -/

section
variable {st : Nat} (h0 : 0 < st) (h255 : st < 256)
include h0 h255

theorem stallCreate_of_unused (hst : stallState s st = 0) : ∃ u, stallCreate st s = (OK, u) ∧ stallState u st = 1
    ∧ (∀ a ∈ agentsOf s st, cv u 0x5010 3 a = 0) ∧ u = { s with cat := u.cat } := by
  have hin : ¬ (st = 0 ∨ 255 < st) := by omega
  have hmade : stallCreate st s = (OK, cvSet 0x3000 1 st 1 ((List.range 7).foldl (fun t i => cvClear 0x3050 (i + 1) st t)
      ((agentsOf s st).foldl (fun t a => cvSet 0x5010 3 a 0 t) s))) := by
    simp only [stallCreate, if_neg hin, hst, ne_eq, not_true_eq_false, if_false]
  refine ⟨_, hmade, cv_cvSet_same .., fun a ha => ?_, ?_⟩
  · have hne (i j k : Nat) (hi : i < 0x5010) (hj : j < 256) (hk : k < 256) : catKey 0x5010 3 a ≠ catKey i j k := by
      unfold catKey; omega
    rw [cv_cvSet_ne (hne _ _ _ (by decide) (by decide) h255), cv_foldl _ fun i hi t => cv_cvClear_ne (hne _ _ _ (by decide) (by simp at hi; omega) h255) t]
    exact cv_foldl_cvSet_of_mem (agentsOf s st) ha s
  · have hclear := eq_with_cat_foldl (f := fun t i => cvClear 0x3050 (i + 1) st t) (fun _ _ => rfl) (List.range 7)
    have hclean := eq_with_cat_foldl (f := fun t a => cvSet 0x5010 3 a 0 t) (fun _ _ => rfl) (agentsOf s st) s
    simp only [cvSet] at hclean ⊢
    rw [hclear, hclean]

theorem stallRemove_of_active (hst : stallState s st = 1) : ∃ u, stallRemove st s = (OK, u) ∧ stallState u st = 2 ∧ cv u 0x1010 5 st = 1 := by
  have hin : ¬ (st = 0 ∨ 255 < st) := by omega
  have hout : StallsKept (cvSet 0x1010 5 st 1 (cvSet 0x3000 1 st 2 s)) (stallRemove st s).2 := by
    simp only [stallRemove, if_neg hin, hst, ne_eq, not_true_eq_false, if_false]
    refine StallsKept.trans ?_ (StallsKept.foldl (fun x (e : Nat × Nat) => stallsKept_endPact e.1 x) _ _)
    refine StallsKept.trans ?_ (stallsKept_closeAll st _)
    refine StallsKept.foldl ?_ _ _
    exact fun x e => StallsKept.trans (.of_eq rfl rfl) (.cvClear (by decide))
  refine ⟨(stallRemove st s).2, Prod.ext ?_ rfl, ?_, ?_⟩
  · simp only [stallRemove, if_neg hin, hst, ne_eq, not_true_eq_false, if_false]
  · rw [stallState, hout _ _ _ (by unfold catKey; omega), cv_cvSet_ne (by unfold catKey; omega), cv_cvSet_same]
  · rw [hout _ _ _ (by unfold catKey; omega), cv_cvSet_same]

end

/-! ## A CAT_WRITE that the Gate decides (R441, R454) -/

theorem cv_pin (p : Pin) (s : State) (i j k : Nat) : cv (pin p s) i j k = cv s i j k := by
  unfold pin pinBy
  split <;> rfl

theorem orElse_of_good {l : List (Bool × Nat × Nat)} {k : Chk × State} {c : Cmd} (h : orElse l s k = (.good c, t)) : k = (.good c, t) := by
  unfold orElse at h
  split at h
  · cases h
  · exact h

/-- A CAT_WRITE that passes its checks: its data lie at an address, and the write answers OK. -/
theorem ownCatalogue_of_good {st ctx : Nat} {e : Entry} {c : Cmd} (hop : e.opcode = 0x81) (h : ownCatalogue st ctx e s = (.good c, t)) :
    ∃ b pins, resolve s st e.modeA e.opa (catReqOf ctx e).len = .glob b pins ∧ c.work = .catWrite ∧
      writeEntry (catReqOf ctx e) (storeRead s (offOf b) (catReqOf ctx e).len) 4096 s = (OK, t) := by
  unfold ownCatalogue at h
  dsimp only at h
  split at h
  · cases h
  · cases h
  next b pins hres =>
  refine ⟨b, pins, hres, ?_⟩
  have hk := orElse_of_good h
  simp only [hop, Nat.reduceEqDiff, if_false] at hk
  split at hk
  · cases hk
  · split at hk
    next hok =>
      cases hk
      exact ⟨rfl, Prod.ext hok rfl⟩
    · cases hk

/-- Checks 1 to 3 of one command that is no side command: what its check makes, with the values it leaves. -/
theorem checkItems_of_good {it : Item} {cmds : List Cmd} (h : checkItems [it] true [] s = .inl (cmds, t)) :
    ∃ c u, it.check true [] s = (.good c, u) ∧ (c.work = .catWrite → ∀ i j k, cv t i j k = cv u i j k) := by
  unfold checkItems at h
  split at h
  · cases h
  next c u hcheck =>
  refine ⟨c, u, hcheck, fun hwork i j k => ?_⟩
  simp only [hwork, checkItems] at h
  cases h
  exact cv_foldl c.pins (fun p _ v => cv_pin p v i j k) u

/-- A request of one CAT_WRITE that passes: its data lie at an address, the write answers OK, and the decision holds its values. -/
theorem screen_of_catWrite {a : Arrival} {e : Entry} {cls : Nat} {cmds : List Cmd} (he : a.entries = [e]) (hop : e.opcode = 0x81)
    (h : screen a s = .inl (cls, cmds, t)) : ∃ b pins u, resolve s a.stall e.modeA e.opa (catReqOf a.ctx e).len = .glob b pins ∧
      writeEntry (catReqOf a.ctx e) (storeRead s (offOf b) (catReqOf a.ctx e).len) 4096 s = (OK, u) ∧ ∀ i j k, cv t i j k = cv u i j k := by
  have hask : askOf s a = .inl (e.cls, [entryItem a.stall a.ctx e.cls e]) := by
    cases hc : a.chan <;> simp [askOf, hc, he]
  simp only [screen, hask] at h
  split at h
  · cases h
  next cmds' t' hitems =>
  split at h
  · cases h
  cases h
  obtain ⟨c, u, hcheck, hsame⟩ := checkItems_of_good hitems
  have hown := orElse_of_good hcheck
  simp only [ownChecks, hop] at hown
  obtain ⟨b, pins, hres, hwork, hwrite⟩ := ownCatalogue_of_good hop hown
  exact ⟨b, pins, u, hres, hwrite, hsame hwork⟩

/-- The row of an assigned address but subindex 0. -/
theorem catRow_of_entryOf {idx sub inst : Nat} {r : CatRow} (hsub : sub ≠ 0) (h : entryOf idx sub inst = some r) :
    catRow? idx sub = some r ∧ instOk idx sub r.inst inst = true := by
  unfold entryOf at h
  rw [if_neg hsub] at h
  split at h
  next row hrow =>
    split at h
    next hok =>
      cases h
      exact ⟨hrow, hok⟩
    · cases h
  · cases h

theorem writeCheck_status {q : CatReq} {n x : Nat} {counted : Bool} (h : writeCheck s q n = .inr (x, counted)) : x ≠ OK := by
  unfold writeCheck at h
  split at h
  · cases h
    decide
  · repeat' split at h
    all_goals cases h
    all_goals decide

theorem entryOf_of_writeCheck {q : CatReq} {n : Nat} {r : CatRow} (h : writeCheck s q n = .inl r) : entryOf q.idx q.sub q.inst = some r := by
  unfold writeCheck at h
  split at h
  · cases h
  next r' hr =>
    repeat' split at h
    all_goals cases h
    all_goals exact hr

theorem writeValue_of_writeWhole {r : CatRow} {idx inst : Nat} {data : List Byte} (h : writeWhole r idx inst data s = (OK, t)) :
    writeValue r idx inst (leNat data) data s = (OK, t) := by
  unfold writeWhole at h
  dsimp only at h
  repeat' split at h
  · exact absurd (Prod.mk.inj h).1 (by decide)
  · exact absurd (Prod.mk.inj h).1 (by decide)
  · exact absurd (Prod.mk.inj h).1 (by decide)
  · exact h

/-- A write that answers OK, of an entry that is no blob, has passed check 7 for the row at its address. -/
theorem writeValue_of_writeEntry {q : CatReq} {data : List Byte} (hblob : ∀ r, entryOf q.idx q.sub q.inst = some r → isBlob r = false)
    (h : writeEntry q data 4096 s = (OK, t)) :
    ∃ r, entryOf q.idx q.sub q.inst = some r ∧ writeValue r q.idx q.inst (leNat data) data s = (OK, t) := by
  unfold writeEntry at h
  split at h
  next x counted hcheck => exact absurd (congrArg Prod.fst h) (writeCheck_status hcheck)
  next r hcheck =>
    have hr := entryOf_of_writeCheck hcheck
    simp only [hblob r hr, Bool.false_and, Bool.false_eq_true, if_false] at h
    have hok : (writeWhole r q.idx q.inst data s).1 = OK := congrArg Prod.fst h
    simp only [hok, if_true] at h
    exact ⟨r, hr, writeValue_of_writeWhole (Prod.ext hok (Prod.mk.inj h).2)⟩

/-- An arrival that carries a write is one CAT_WRITE of that address, whose data lie in the store. -/
theorem entry_of_carries {idx sub inst off : Nat} {data : List Byte} {a : Arrival} (h : carries s idx sub inst off data a = true) :
    ∃ e : Entry, ∃ b pins, a.entries = [e] ∧ e.opcode = 0x81 ∧ (catReqOf a.ctx e).idx = idx ∧ (catReqOf a.ctx e).sub = sub ∧ (catReqOf a.ctx e).inst = inst
      ∧ resolve s a.stall e.modeA e.opa (catReqOf a.ctx e).len = .glob b pins ∧ storeRead s (offOf b) (catReqOf a.ctx e).len = data := by
  simp only [carries, isCat, isOp, Bool.and_eq_true, beq_iff_eq] at h
  obtain ⟨⟨⟨⟨⟨⟨⟨⟨hop, -⟩, hidx⟩, hsub⟩, hinst⟩, -⟩, -⟩, -⟩, hdata⟩ := h
  split at hop
  next e he =>
    rw [he] at hidx hsub hinst hdata
    split at hdata
    next b pins hres => exact ⟨e, b, pins, he, beq_iff_eq.mp hop, hidx, hsub, hinst, hres, beq_iff_eq.mp hdata⟩
    · cases hdata
  · cases hop

theorem isCat_of_carries {idx sub inst off : Nat} {data : List Byte} {a : Arrival} (h : carries s idx sub inst off data a = true) : isCat s 0x81 a = true := by
  simp only [carries, Bool.and_eq_true] at h
  exact h.1.1.1.1.1.1.1

/-- A CAT_WRITE that carries a write and passes: the value has passed check 7, and the decision holds it. -/
theorem screen_of_carries {idx sub inst cls : Nat} {data : List Byte} {a : Arrival} {cmds : List Cmd} (hblob : ∀ r, entryOf idx sub inst = some r → isBlob r = false)
    (hc : carries s idx sub inst 0 data a = true) (h : screen a s = .inl (cls, cmds, t)) :
    ∃ r u, entryOf idx sub inst = some r ∧ writeValue r idx inst (leNat data) data s = (OK, u) ∧ ∀ i j k, cv t i j k = cv u i j k := by
  obtain ⟨e, b, pins, he, hop, hidx, hsub, hinst, hres, hdata⟩ := entry_of_carries hc
  obtain ⟨b', pins', u, hres', hwrite, hsame⟩ := screen_of_catWrite he hop h
  obtain ⟨rfl, -⟩ : b = b' ∧ pins = pins' := by simpa using hres.symm.trans hres'
  rw [hdata] at hwrite
  obtain ⟨r, hr, hvalue⟩ := writeValue_of_writeEntry (by rw [hidx, hsub, hinst]; exact hblob) hwrite
  rw [hidx, hsub, hinst] at hr
  rw [hidx, hinst] at hvalue
  exact ⟨r, u, hr, hvalue, hsame⟩

/-! ## Consents (R131, R132) -/

theorem eq_or_eq_of_mem_pair {α : Type} {a b x : α} (h : x ∈ [a, b]) : x = a ∨ x = b := by simpa using h

/-- The consents' rows are no blobs, are of a pact each and one byte long. -/
theorem consent_rows : ∀ sub ∈ [6, 7], (catRow? 0x3040 sub).all (fun r => !isBlob r && r.inst == 7 && r.len == 1) = true := by decide +kernel

theorem consent_row {sub p : Nat} {r : CatRow} (hsub : sub ∈ [6, 7]) (h : entryOf 0x3040 sub p = some r) : isBlob r = false ∧ p < 256 ∧ r.len = 1 := by
  have h0 : sub ≠ 0 := by rintro rfl; simp at hsub
  obtain ⟨hrow, hok⟩ := catRow_of_entryOf h0 h
  have hall := consent_rows sub hsub
  simp only [hrow, Option.all_some, Bool.and_eq_true, Bool.not_eq_true', beq_iff_eq] at hall
  obtain ⟨⟨hblob, hkind⟩, hlen⟩ := hall
  rw [hkind] at hok
  exact ⟨hblob, of_decide_eq_true hok, hlen⟩

theorem writeValue_consent {sub p v : Nat} {r : CatRow} {data : List Byte} (hsub : sub ∈ [6, 7]) (h : r.sub = sub) : writeValue r 0x3040 p v data s = consent sub p v s := by
  rcases eq_or_eq_of_mem_pair hsub with rfl | rfl
  all_goals simp only [writeValue, h]

theorem consent_of_ok {sub p v : Nat} (h : consent sub p v s = (OK, t)) :
    t = if v = 0 ∧ cv s 0x3040 sub p = 1 then endPact p (cvSet 0x3040 sub p v s) else cvSet 0x3040 sub p v s := by
  unfold consent at h
  dsimp only at h
  split at h
  · exact absurd (Prod.mk.inj h).1 (by decide)
  · split at h
    · exact absurd (Prod.mk.inj h).1 (by decide)
    · exact (Prod.mk.inj h).2.symm

theorem endPact_of_pact {p : Nat} (h : cv s 0x3040 8 p = 1 ∨ cv s 0x3040 8 p = 2) : ∃ u, endPact p s = setPact p 3 u := by
  rcases h with h | h
  · exact ⟨{ s with err := { s.err with pactEnd := AMap.set [] s.err.pactEnd p [0] } }, by simp [endPact, h]⟩
  · exact ⟨s, by simp [endPact, h]⟩

/-- The end of a pact changes of a pact its state alone. -/
theorem cv_endPact {i j k p : Nat} (hi : i < 0x5002) (hj : j < 256) (hk : k < 65536) (hne : catKey i j k ≠ catKey 0x3040 8 p) :
    cv (endPact p s) i j k = cv s i j k := by
  have hset (u : State) : cv (setPact p 3 u) i j k = cv u i j k := by
    obtain ⟨log, hq⟩ := setPact_quiet (p := p) 3 u
    exact (hq.cv hi hj hk).trans (cv_cvSet_ne hne 3 u)
  unfold endPact
  split
  · exact hset s
  · split
    · exact hset _
    · rfl

/-- What a consent that passes leaves of its pact (R132). -/
theorem cv_consent {sub p v : Nat} (hsub : sub ∈ [6, 7]) (hp : p < 256) (h : consent sub p v s = (OK, t)) :
    cv t 0x3040 sub p = v
    ∧ (v = 0 → cv s 0x3040 sub p = 1 → (cv s 0x3040 8 p = 1 ∨ cv s 0x3040 8 p = 2) → cv t 0x3040 8 p = 3)
    ∧ ((v = 1 ∨ cv s 0x3040 sub p = 0) → cv t 0x3040 8 p = cv s 0x3040 8 p) := by
  have hsub' : sub < 8 := by rcases eq_or_eq_of_mem_pair hsub with rfl | rfl <;> decide
  have hne : catKey 0x3040 sub p ≠ catKey 0x3040 8 p := by unfold catKey; omega
  have hstate : cv (cvSet 0x3040 sub p v s) 0x3040 8 p = cv s 0x3040 8 p := cv_cvSet_ne hne.symm v s
  rw [consent_of_ok h]
  refine ⟨?_, fun hv hs hpact => ?_, fun hkeep => ?_⟩
  · split
    · exact (cv_endPact (by decide) (by omega) (by omega) hne).trans (cv_cvSet_same ..)
    · exact cv_cvSet_same ..
  · rw [if_pos ⟨hv, hs⟩]
    rw [← hstate] at hpact
    obtain ⟨u, hu⟩ := endPact_of_pact hpact
    rw [hu]
    exact pactState_setPact (by omega) 3 u
  · rw [if_neg (by omega)]
    exact hstate

end

/-! ## One catalogue write of a client context (R454) -/

section
variable {s : State} {c idx sub inst v : Nat} {r : CatRow} {i : Instr}

theorem catWriteAs_of_ctx (hr : entryOf idx sub inst = some r) (hv : v < 256 ^ r.len) :
    catWriteAs (.ctx c) idx sub inst v s = gateRow (carries s idx sub inst 0 (leBytes r.len v)) c s := by
  simp only [catWriteAs, hr, if_neg (Nat.not_le.mpr hv)]
  rfl

/-- The Gate's decision of the request that carries the write is the row's for the CAT_WRITE it is. -/
theorem gateRow_of_carries {data : List Byte} {a : Arrival} (ho : oldest s c = some a) (h : carries s idx sub inst 0 data a = true) :
    gateRow (carries s idx sub inst 0 data) c s = gateRow (isCat s 0x81) c s := by
  simp only [gateRow, ho, h, isCat_of_carries h]

theorem ctxRow (hi : exec i s = .next (catWriteAs (.ctx c) idx sub inst v s)) (hr : entryOf idx sub inst = some r) (hv : v < 256 ^ r.len) :
    (∀ a, oldest s c = some a → carries s idx sub inst 0 (leBytes r.len v) a = true → exec i s = exec (.catWrite c) s)
    ∧ ((∀ a, oldest s c = some a → carries s idx sub inst 0 (leBytes r.len v) a = false) → exec i s = .next s) := by
  rw [catWriteAs_of_ctx hr hv] at hi
  exact ⟨fun a ho h => hi.trans (congrArg Host.Outcome.next (gateRow_of_carries ho h)), fun h => hi.trans (congrArg Host.Outcome.next (gateRow_of_none h))⟩

end

end Sys2Proof.Machine

namespace Sys2Proof.Proofs
open Sys2Proof Sys2Proof.Machine Sys2Proof.Safety

/-- Settles O27. -/
theorem stallsAndConsents : Obligations.StallsAndConsents := by
  refine ⟨fun s rq st hst => ⟨fun h h0 hunused => ?_, fun h h0 hactive => ?_, fun h => ?_, fun h => ?_⟩, fun s c p v hv x hx => ?_, fun s c k v => ?_⟩
  · obtain ⟨u, hmade, hu⟩ := stallCreate_of_unused h0 hst hunused
    refine ⟨u, congrArg Host.Outcome.next (catWriteAs_ok h fun r bytes _ hsub _ => ?_), hu⟩
    simp only [writeValue, hsub, hmade]
  · obtain ⟨u, hgone, hu⟩ := stallRemove_of_active h0 hst hactive
    refine ⟨u, congrArg Host.Outcome.next (catWriteAs_ok h fun r bytes _ hsub _ => ?_), hu⟩
    simp only [writeValue, hsub, hgone]
  · obtain ⟨q, hq⟩ := catWriteAs_refused h (x := INVALID) (by decide) fun r bytes hsub => by
      simp only [writeValue, hsub]
      rfl
    exact ⟨q, congrArg Host.Outcome.next hq⟩
  · obtain ⟨q, hq⟩ := catWriteAs_refused h (x := INVALID) (by decide) fun r bytes hsub => by
      simp only [writeValue, hsub]
      rfl
    exact ⟨q, congrArg Host.Outcome.next hq⟩
  · obtain ⟨hsub, hi⟩ : x.2 ∈ [6, 7] ∧ exec x.1 s = .next (catWriteAs (.ctx c) 0x3040 x.2 p v s) := by
      rcases eq_or_eq_of_mem_pair hx with rfl | rfl
      · exact ⟨by simp, rfl⟩
      · exact ⟨by simp, rfl⟩
    have hblob : ∀ r, entryOf 0x3040 x.2 p = some r → isBlob r = false := fun r hr => (consent_row hsub hr).1
    refine ⟨fun a u q h => ?_, fun a cls cmds t ho hfits hscreen => ?_⟩
    · obtain ⟨-, -, -, hfits, -, -, -, cls, cmds, t, hscreen, -⟩ := id h
      obtain ⟨r, -, hr, -⟩ := screen_of_carries hblob hfits hscreen
      obtain ⟨-, -, hlen⟩ := consent_row hsub hr
      rw [catWriteAs_of_ctx hr (by rw [hlen]; omega), hlen] at hi
      exact accepts hi h
    · obtain ⟨r, u, hr, hvalue, hsame⟩ := screen_of_carries hblob hfits hscreen
      obtain ⟨-, hp, -⟩ := consent_row hsub hr
      rw [writeValue_consent hsub (entryOf_sub hr), leNat_leBytes 1 v (by omega)] at hvalue
      simp only [hsame]
      exact cv_consent hsub hp hvalue
  · intro rq rows x hx r hr hlen
    have hrow : ∀ x ∈ rows, exec x.1 s = .next (catWriteAs rq x.2.1 x.2.2.1 x.2.2.2.1 x.2.2.2.2 s) := by
      simp only [rows, List.forall_mem_cons, List.not_mem_nil, false_imp_iff, implies_true, and_true]
      exact ⟨rfl, rfl, rfl, rfl, rfl, rfl, rfl, rfl, rfl, rfl, rfl, rfl, rfl, rfl, rfl, rfl, rfl, rfl, rfl, rfl, rfl, rfl, rfl, rfl, rfl, rfl, rfl⟩
    exact ctxRow (hrow x hx) hr hlen

end Sys2Proof.Proofs

namespace Sys2Proof.Machine
open Sys2Proof Sys2Proof.Safety

/-! ## Entries read (R415, R418) -/

section
variable {s t : State} {c : Nat} {x : Ctx}

theorem ctxOf_setCtx_same (h : x ≠ {}) (s : State) : ctxOf (setCtx c x s) c = x := AMap.get_set_same h s.ctxs c

theorem Quiet.ctxOf (h : Quiet s t) (c : Nat) : Machine.ctxOf t c = Machine.ctxOf s c := by rw [Machine.ctxOf, Machine.ctxOf, h.1]

theorem Quiet.trans {u : State} (h : Quiet s t) (g : Quiet t u) : Quiet s u := by
  refine ⟨?_, ?_, fun k hk => (g.2.2 k hk).trans (h.2.2 k hk)⟩
  · rw [g.1, h.1]
  · rw [g.gate, h.gate]

theorem readEntryOnce_quiet {k : Nat} (h : readEntryOnce c k s = (false, t)) : Quiet s t := by
  unfold readEntryOnce at h
  dsimp only at h
  split at h
  · cases h
  · split at h
    · cases h
      exact inject_quiet (.refl s)
    · split at h
      · cases h
      · cases h
        exact errRec_quiet (inject_quiet (.refl s))

/-- Entries that are all read leave the contexts as they are. -/
theorem readAll_quiet : ∀ {l : List Nat} {s : State}, readAll c l s = (false, t) → Quiet s t
  | [], s, h => by
    obtain rfl : s = t := (Prod.mk.inj h).2
    exact .refl s
  | k :: l, s, h => by
    unfold readAll at h
    split at h
    · cases h
    next u hk => exact (readEntryOnce_quiet hk).trans (readAll_quiet h)

theorem ready_of_nextCtx {st : Nat} (h : nextCtx s st = some c) : ctxReady s c = true := by
  have hready {d : Nat} (hd : d ∈ ((storedInsts s 0x3030 1).filter (fun e => e.2 == st && ctxReady s e.1)).map (·.1)) : ctxReady s d = true := by
    obtain ⟨e, he, rfl⟩ := List.mem_map.mp hd
    exact (Bool.and_eq_true_iff.mp (List.mem_filter.mp he).2).2
  unfold nextCtx at h
  dsimp only at h
  split at h
  next d hfind =>
    cases h
    exact hready (List.mem_of_find?_eq_some hfind)
  · exact hready (List.mem_of_mem_head? h)

theorem enabled_of_ready (h : ctxReady s c = true) : (ctxOf s c).state = 1 := by
  simp only [ctxReady, Bool.and_eq_true, beq_iff_eq] at h
  exact h.1.1.1

/-- A request that finds room joins the undecided ones, with a ring slot reserved. -/
theorem arrive_of_room {a : Arrival} (h : (undecided s a.stall).length < 16) :
    arrive a s = { reserveSlot a.ctx s with gate := { s.gate with intake := s.gate.intake ++ [a] } } := if_neg (Nat.not_le.mpr h)

theorem ctxOf_reserveSlot (c : Nat) (t : State) : ctxOf (reserveSlot c t) c = { ctxOf t c with reserved := (ctxOf t c).reserved + 1 } :=
  ctxOf_setCtx_same (fun h => by simpa using congrArg Ctx.reserved h) t

end

/-! ## ENTRY_FETCH -/

section
variable {s t : State} {st c t0 : Nat}

/-- The state once the request of context `c` is taken from its queue, before it arrives. -/
def taken (st c : Nat) (es : List Entry) (t : State) : State :=
  let t1 := cvAdd 0x9110 1 c es.length (setCtx c { ctxOf t c with cqTaken := (ctxOf t c).cqTaken + BitVec.ofNat 32 es.length } t)
  let key := (curRound t * 16 + portOf t c) * 256 + st
  { t1 with gate := { t1.gate with lastFetch := AMap.set none t1.gate.lastFetch st (some (now t)), rotation := AMap.set 0 t1.gate.rotation st (c + 1),
                                   inbound := AMap.set 0 t1.gate.inbound key (AMap.get 0 t1.gate.inbound key + es.length) } }

theorem ctxOf_taken {es : List Entry} (h : (ctxOf t c).state = 1) :
    ctxOf (taken st c es t) c = { ctxOf t c with cqTaken := (ctxOf t c).cqTaken + BitVec.ofNat 32 es.length } :=
  ctxOf_setCtx_same (fun hd => by simpa [h] using congrArg Ctx.state hd) t

section
variable (hrun : running s = true) (hopen : gateOpened s = true)
include hrun hopen

theorem entryFetch_of_none (h : nextCtx s st = none) : entryFetch st s = s := by
  simp [entryFetch, hrun, hopen, h]

theorem entryFetch_of_soon (h : nextCtx s st = some c) (hl : AMap.get none s.gate.lastFetch st = some t0) (h0 : t0 ≤ now s)
    (hsoon : now s < t0 + 4 * (requestOf s c).length) : entryFetch st s = s := by
  have hlt : now s - t0 < 4 * (requestOf s c).length := by omega
  simp only [entryFetch, hrun, hopen, h, hl, hlt, Bool.not_true, Bool.or_self, Bool.false_eq_true, if_false, if_true]

theorem entryFetch_of_read (h : nextCtx s st = some c) (hl : ∀ t0, AMap.get none s.gate.lastFetch st = some t0 → t0 + 4 * (requestOf s c).length ≤ now s)
    (hread : readAll c ((List.range (requestOf s c).length).map (fun i => ((ctxOf s c).cqTaken.toNat + i) % 2 ^ 32)) s = (false, t))
    (hknown : (requestOf s c).length ≠ 1 ∨ ∀ e ∈ requestOf s c, knownOp (Entry.opcode e) = true) :
    entryFetch st s = arrive { ctx := c, stall := st, tick := now t, pos := (ctxOf s c).cqTaken.toNat, entries := requestOf s c } (taken st c (requestOf s c) t) := by
  simp only [entryFetch, hrun, hopen, h, Bool.not_true, Bool.or_self, Bool.false_eq_true, if_false, hread]
  refine (if_neg ?_).trans ?_
  · split
    next t0 h0 => exact Nat.not_lt.mpr (Nat.le_sub_of_add_le' (hl t0 h0))
    · exact Nat.lt_irrefl _
  split
  next e he =>
    rw [he] at hknown
    have hk : knownOp (Entry.opcode e) = true := hknown.elim (fun hn => absurd rfl hn) fun hall => hall e (List.mem_singleton_self e)
    simp only [hk, Bool.true_or, if_true, he]
    rfl
  · rfl

end

end

end Sys2Proof.Machine

namespace Sys2Proof.Proofs
open Sys2Proof Sys2Proof.Machine Sys2Proof.Safety

/-- Settles O39. -/
theorem entriesAreFetched : Obligations.EntriesAreFetched := by
  intro s st c hrun hopen n pos
  refine ⟨fun h => congrArg Host.Outcome.next (entryFetch_of_none hrun hopen h),
    fun t0 h hl h0 hsoon => congrArg Host.Outcome.next (entryFetch_of_soon hrun hopen h hl h0 hsoon), fun t h hl hread hroom hknown => ?_, fun hstate htail => ?_⟩
  · have hfetch := (entryFetch_of_read hrun hopen h hl hread hknown).trans (arrive_of_room hroom)
    have hctx : (ctxOf t c).state = 1 := by
      rw [(readAll_quiet hread).ctxOf]
      exact enabled_of_ready (ready_of_nextCtx h)
    have hv := ctxOf_reserveSlot c (taken st c (requestOf s c) t)
    rw [ctxOf_taken hctx] at hv
    exact ⟨_, congrArg Host.Outcome.next hfetch, rfl, congrArg Ctx.cqTaken hv, congrArg Ctx.reserved hv, cv_cvAdd_same .., AMap.get_set_same (by simp) _ _⟩
  · have hq : queueFetch c s = haltCtx c pos s := by
      simp [queueFetch, hrun, hopen, hstate, htail, pos]
    exact ⟨_, congrArg Host.Outcome.next hq, rfl, congrArg Ctx.state (ctxOf_setCtx_same (fun hd => by simpa using congrArg Ctx.state hd) _)⟩

end Sys2Proof.Proofs

namespace Sys2Proof.Machine
open Sys2Proof Sys2Proof.Safety

/-! ## Starts (R62, R67, R74, R337, R423) -/

section
variable {s : State} {rid i : Nat} {q : Req} {c : Cmd} (hq : reqOf s rid = some q) (hc : cmdOf s rid i = some c)
include hq hc

theorem partStart_of_waiting (h : mayStart s q c = false) : partStart rid i s = s := by
  simp [partStart, hq, hc, h]

theorem deferredCheck_of_waiting (h : mayStart s q c = false) : deferredCheck rid i s = s := by
  simp [deferredCheck, hq, hc, h]

theorem partStart_of_begun (h : mayStart s q c = true) (hd : c.deferred = false) (hw : ∀ a b d e f, c.work ≠ .setSwitch a b d e f) :
    partStart rid i s = if waitMet s c then startWork q i c (markStarted q i s)
      else endCmd rid i BUSY (tallyVal s c.waitTally % 2 ^ 32) false (markStarted q i s) := by
  simp only [partStart, hq, hc, h, hd, Bool.not_true, Bool.or_false, Bool.false_eq_true, if_false]

theorem deferredCheck_of_begun (h : mayStart s q c = true) (hd : c.deferred = true) :
    deferredCheck rid i s = if waitMet s c then deferredWork q i c.work (markStarted q i s)
      else endCmd rid i BUSY (tallyVal s c.waitTally % 2 ^ 32) false (markStarted q i s) := by
  simp [deferredCheck, hq, hc, h, hd]

end

theorem deferredWork_tallyAdd (q : Req) (i k n : Nat) (s : State) : deferredWork q i (.tallyAdd k n) s = endCmd q.rid i OK 0 false (advance q.stall k n s) := rfl

theorem deferredWork_publish {q : Req} {i g k expect base : Nat} {s : State} (h : firstFail (publishChecks s q.stall g expect base) = none) :
    deferredWork q i (.publish g k expect base) s = endCmd q.rid i OK ((expect + 1) % 2 ^ 32) false (publish q.stall q.ctx g k expect base s) := by
  simp only [deferredWork, h]

/-- The window of a request that is one SET_SWITCH. -/
theorem setSwitchWindow_of_begun {s : State} {rid set n x y list : Nat} {q : Req} {c : Cmd} (hq : reqOf s rid = some q) (hc : q.cmds = [c])
    (hw : c.work = .setSwitch set n x y list) (h : mayStart s q c = true) (hmet : waitMet s c = true) :
    setSwitchWindow rid s = markSet q.stall set (markStarted q 0 s) := by
  simp [setSwitchWindow, hq, hc, hw, h, hmet]

/-! ## Completion of parts (R183, R365, R383) -/

section
variable {s t : State} {rid i k : Nat} {q : Req} {c : Cmd} (hq : reqOf s rid = some q) (hc : cmdOf s rid i = some c)
include hq hc

theorem partComplete_of_other (hw : ∀ x, c.work ≠ .xfer x) : partComplete rid i k s = if workDone s q i c then endCmd rid i OK c.detail false s else s := by
  simp only [partComplete, hq, hc]

section
variable {x : Xfer} (hw : c.work = .xfer x) (hdst : remoteDst s x = false)
include hw hdst

theorem partComplete_of_written (hs : c.started = true) (ho : c.status = none) (hk : k < partCount x.count) (hbit : bit c.parts k = false)
    (hbytes : min ((k + 1) * partSize x.count) x.count ≤ c.delivered) (hsnps : ∀ p ∈ partPieces s q.ctx x k, snpsOpen s (offOf p.1) p.2 = false)
    (hread : let last := (partPieces s q.ctx x k).getLastD (x.dst, 1)
      hbmRange q.stall q.ctx ((offOf last.1 + last.2 - 1) / 64 * 64) 64 true s = (none, t)) :
    partComplete rid i k s = finishXfer q i x (updCmd rid i (fun c => { c with parts := setBit c.parts k true }) t) := by
  have hany : (partPieces s q.ctx x k).any (fun p => snpsOpen s (offOf p.1) p.2) = false := List.any_eq_false.mpr fun p hp => by simp [hsnps p hp]
  dsimp only at hread
  simp only [partComplete, hq, hc, hw, hs, openCmd, ho, hbit, hdst, hany, hread, Nat.not_le.mpr hk, Nat.not_lt.mpr hbytes, Option.isNone_none, Bool.not_true,
    decide_false, Bool.or_false, Bool.false_eq_true, if_false]

theorem partComplete_of_unwritten (hbytes : c.delivered < min ((k + 1) * partSize x.count) x.count) : partComplete rid i k s = s := by
  simp only [partComplete, hq, hc, hw, hdst, hbytes, decide_true, Bool.true_or, if_true, Bool.false_eq_true, if_false, ite_self]

end

section
variable {del : Bool} {u tally n array seq : Nat} {virt : Bool} (hw : c.work = .side del u tally n array seq virt)
include hw

theorem sideCommit_of_early (h : now s < slotEndTick c.endSlot ∨ seq ≤ cSeq s u) : sideCommit rid i s = s := by
  simp only [sideCommit, hq, hc, hw]
  refine if_neg fun hall => ?_
  simp only [Bool.and_eq_true, decide_eq_true_eq] at hall
  omega

variable (hend : slotEndTick c.endSlot ≤ now s) (hseq : cSeq s u < seq)
include hend hseq

theorem sideCommit_of_done (hs : c.started = true) (ho : c.status = none) : sideCommit rid i s = countBytes q i
    (updCmd rid i (fun c => { c with status := some OK, detail := 0, delivered := 1, endRound := curRound s })
      (cvAdd 0x7A00 (if del then 5 else 4) q.stall c.detailAlt (cvSet 0x7900 0x11 u seq s))) := by
  simp [sideCommit, hq, hc, hw, hs, ho, hend, hseq]

theorem sideCommit_of_failed (ho : c.status ≠ none) : sideCommit rid i s = voidSeq u seq (cvSet 0x7900 0x11 u seq s) := by
  have hsome : c.status.isSome = true := Option.isSome_iff_ne_none.mpr ho
  simp [sideCommit, hq, hc, hw, hsome, hend, hseq]

end

/-! ## Overruns and faults (R72, R73) -/

theorem calOverrun_of_early (h : now s < slotEndTick c.endSlot) : calOverrun rid i s = s := by
  simp [calOverrun, hq, hc, h]

section
variable (ho : c.status = none) (hd : c.deferred = false) (hend : slotEndTick c.endSlot ≤ now s)
include ho hd hend

theorem calOverrun_of_unserved (h : servedAll s q i c = false) : calOverrun rid i s = overrun rid i (pathStatus s c) false false s := by
  simp [calOverrun, hq, hc, openCmd, ho, hd, Nat.not_lt.mpr hend, h]

theorem calOverrun_of_served (h : servedAll s q i c = true) (hi : inject 0x0B rid q.stall (!armed s 0x0B q.stall) s = (none, t)) : calOverrun rid i s = t := by
  simp [calOverrun, hq, hc, openCmd, ho, hd, Nat.not_lt.mpr hend, h, hi]

end

theorem partFault_of_unstarted (h : c.started = false) (x : FaultCause) : partFault rid i k x s = s := by
  simp [partFault, hq, hc, h]

/-- A fault met by a command under way. -/
theorem partFault_of_started (hs : c.started = true) (ho : c.status = none) (x : FaultCause) : partFault rid i k x s = match x with
    | .hbmUe addr =>
      let t := if 2 ^ 64 ≤ addr then { detectRec 0x00 (addr % 2 ^ 64) 0 q.ctx q.stall FAULT_MEMORY false (cvAdd 0x4050 8 0 1 s) with
                                       store := { s.store with mapBad := s.store.mapBad ++ [addr - 2 ^ 64] } }
        else hbmUe (offOf addr) q.ctx q.stall FAULT_MEMORY s
      endAt rid i k FAULT_MEMORY 0 false t
    | .hbmCe addr => hbmCe (offOf addr) q.stall s
    | .sector addr => if homeOrdered s (homeStall s (offOf addr / 64)) then pump (sectorFault (homeStall s (offOf addr / 64)) 0xFFFF (offOf addr / 64) s) else s
    | .sramUe loc => endAt rid i k FAULT_MEMORY 0 false (cvAdd 0x6020 2 q.stall 1 (detectRec 0x02 loc 0 q.ctx q.stall FAULT_MEMORY false s))
    | .sramCe _ => detect 0x03 s
    | .ldpc loc => endAt rid i k FAULT_MEMORY 0 false (cvAdd 0x4040 9 0 1 (detectRec 0x04 loc 0 q.ctx q.stall FAULT_MEMORY false s))
    | .translation va cause => endAt rid i k FAULT_TRANSLATION ((xlateFault q.stall q.ctx va cause s).1 % 2 ^ 32) false (xlateFault q.stall q.ctx va cause s).2
    | .link l cause => endAt rid i k FAULT_LINK 0 false (if linkUp s l then linkFailed l cause false s else s)
    | .streamParity loc => endCluster (bits loc 47 40) false (detectRec 0x0F loc q.stall q.ctx q.stall FAULT_MEMORY false s) := by
  simp only [partFault, hq, hc, hs, openCmd, ho, Option.isNone_none, Bool.not_true, Bool.or_self, Bool.false_eq_true, if_false] <;> rfl

end

end Sys2Proof.Machine

namespace Sys2Proof.Proofs
open Sys2Proof Sys2Proof.Machine Sys2Proof.Safety

/-- Settles O42. -/
theorem partsStart : Obligations.PartsStart := by
  intro s rid i q c hq hc busy
  refine ⟨fun h => ⟨congrArg Host.Outcome.next (partStart_of_waiting hq hc h), congrArg Host.Outcome.next (deferredCheck_of_waiting hq hc h)⟩,
    fun h hd hw => ?_, fun h hd => ?_, fun set n x y z hcmds hw h hmet => congrArg Host.Outcome.next (setSwitchWindow_of_begun hq hcmds hw h hmet)⟩
  · have hstart := congrArg (Host.Outcome.next (φ := Fault) (ρ := Refusal)) (partStart_of_begun hq hc h hd hw)
    exact ⟨fun hmet => by rwa [if_pos hmet] at hstart, fun hmet => by rwa [hmet] at hstart⟩
  · have hstart := congrArg (Host.Outcome.next (φ := Fault) (ρ := Refusal)) (deferredCheck_of_begun hq hc h hd)
    refine ⟨fun hmet => by rwa [hmet] at hstart, fun k n hmet hw => ?_, fun g k expect base hmet hw hok => ?_⟩
    · rw [if_pos hmet, hw, deferredWork_tallyAdd] at hstart
      exact hstart
    · rw [if_pos hmet, hw, deferredWork_publish hok] at hstart
      exact hstart

/-- Settles O43. -/
theorem partsEnd : Obligations.PartsEnd := by
  intro s rid i q c hq hc
  refine ⟨fun k hdone hw => ?_, fun k hdone hw => ?_, fun k x t hw hs ho hk hbit hdst hbytes hsnps hread => ?_, fun k x hw hdst hbytes => ?_,
    fun del u tally n array seq virt hw => ?_, fun ho hd hend => ?_, fun h => ?_, fun hs ho k loc => ?_, fun hs k x => ?_⟩
  · exact congrArg Host.Outcome.next ((partComplete_of_other hq hc hw).trans (if_pos hdone))
  · exact congrArg Host.Outcome.next ((partComplete_of_other hq hc hw).trans (if_neg (by simp [hdone])))
  · exact congrArg Host.Outcome.next (partComplete_of_written hq hc hw hdst hs ho hk hbit hbytes hsnps hread)
  · exact congrArg Host.Outcome.next (partComplete_of_unwritten hq hc hw hdst hbytes)
  · intro s1
    exact ⟨fun hend hseq => ⟨cv_cvSet_same .., fun hs ho => congrArg Host.Outcome.next (sideCommit_of_done hq hc hw hend hseq hs ho),
      fun ho => congrArg Host.Outcome.next (sideCommit_of_failed hq hc hw hend hseq ho)⟩, fun h => congrArg Host.Outcome.next (sideCommit_of_early hq hc hw h)⟩
  · exact ⟨fun h => congrArg Host.Outcome.next (calOverrun_of_unserved hq hc ho hd hend h),
      fun t h hi => congrArg Host.Outcome.next (calOverrun_of_served hq hc ho hd hend h hi)⟩
  · exact congrArg Host.Outcome.next (calOverrun_of_early hq hc h)
  · have hfault (x : FaultCause) := congrArg (Host.Outcome.next (φ := Fault) (ρ := Refusal)) (partFault_of_started (k := k) hq hc hs ho x)
    refine ⟨hfault (.sramUe loc), hfault (.ldpc loc), hfault (.sramCe loc), hfault (.hbmCe loc), fun hloc => ?_, fun cause => hfault (.translation loc cause),
      fun cause => hfault (.link loc cause)⟩
    have hue := hfault (.hbmUe loc)
    dsimp only at hue
    rwa [if_neg (Nat.not_le.mpr hloc)] at hue
  · exact congrArg Host.Outcome.next (partFault_of_unstarted hq hc hs x)

end Sys2Proof.Proofs

namespace Sys2Proof.Machine
open Sys2Proof Sys2Proof.Safety

/-! ## The completion record (R61, R68, R83, R101, R380) -/

/-- The bytes of every command of a request counted (R211). -/
def countedAll (q : Req) (u : State) : State := (List.range q.cmds.length).foldl (fun t i => countBytes q i t) u

/-- What the commands of a request that has a failed one come to: those not started are abandoned (R68). -/
def settled (q : Req) : Req := if chainFailed q then abandon (fun _ => true) q else q

section
variable {s : State} {rid : Nat} {q : Req} (hq : reqOf (settleReq rid s) rid = some q)
include hq

theorem completionRecord_of_waiting (h : allOver (settled q) = false ∨ mayRecord (settleReq rid s) (settled q) = false) : completionRecord rid s = settleReq rid s := by
  simp only [completionRecord, hq]
  refine if_pos ?_
  change (!allOver (settled q) || !mayRecord (settleReq rid s) (settled q)) = true
  rcases h with h | h <;> simp [h]

/-- A request that is over, and its record due: what it holds is released, then its record is written or its origin told. -/
theorem completionRecord_of_over (hall : allOver (settled q) = true) (hmay : mayRecord (settleReq rid s) (settled q) = true) : completionRecord rid s =
    (let p := settled q
     let s0 := countedAll p (settleReq rid s)
     let told := if p.peerTicket.isSome then tellOrigin p s0 else s0
     let v := releaseReq p (if reqStatus p == OK then told else cvAdd 0x1011 6 p.stall (if p.peerTicket.isSome then 0 else 1) (refundLater p told))
     if p.peerTicket.isSome then v else
     let w := writeRecord p.stall p.ctx (reqRecord v p) v
     match p.chan with
     | some n => channelDone n p.promise (reqParts p) (reqStatus p) (sumOf (p.cmds.map (·.delivered))) w
     | none => w) := by
  simp only [completionRecord, hq]
  refine (if_neg ?_).trans rfl
  change ¬ (!allOver (settled q) || !mayRecord (settleReq rid s) (settled q)) = true
  simp [hall, hmay]

end

/-- A request released is no accepted request any more. -/
theorem rid_ne_of_mem_releaseReq {p q : Req} {s : State} (h : p ∈ (releaseReq q s).gate.reqs) : p.rid ≠ q.rid := by
  simpa using (List.mem_filter.mp h).2

end Sys2Proof.Machine

namespace Sys2Proof.Proofs
open Sys2Proof Sys2Proof.Machine Sys2Proof.Safety

/-- Settles O44. -/
theorem completionRecords : Obligations.CompletionRecords := by
  intro s rid q u counted hq
  have hwhole (h : chainFailed q = false) : settled q = q := by simp [settled, h]
  have hfailed (h : chainFailed q = true) : settled q = abandon (fun _ => true) q := by simp [settled, h]
  have hover := fun hall hmay => congrArg (Host.Outcome.next (φ := Fault) (ρ := Refusal)) (completionRecord_of_over hq hall hmay)
  refine ⟨fun hf hall hmay hok hpeer => ⟨fun r hr => ?_, ?_⟩, fun hf hwait => ?_, fun hf => ?_, fun ticket hf hall hmay hok hpeer => ?_⟩
  · rw [reqs_writeRecord] at hr
    exact rid_ne_of_mem_releaseReq hr
  · rw [hwhole hf] at hover
    have h := hover hall hmay
    simp only [hok, hpeer, Option.isSome_none, Bool.false_eq_true, if_false, BEq.rfl, if_true] at h
    rw [hok]
    exact h
  · refine congrArg Host.Outcome.next (completionRecord_of_waiting hq ?_)
    rwa [hwhole hf]
  · intro p v hall hmay hbad hpeer hchan
    rw [hfailed hf] at hover
    have h := hover hall hmay
    have hne : (reqStatus (abandon (fun _ => true) q) == OK) = false := beq_eq_false_iff_ne.mpr hbad
    simp only [p] at hpeer hchan
    simp only [hne, hpeer, hchan, Option.isSome_none, Bool.false_eq_true, if_false] at h
    exact h
  · rw [hwhole hf] at hover
    have h := hover hall hmay
    simp only [hok, hpeer, Option.isSome_some, BEq.rfl, if_true] at h
    exact h

end Sys2Proof.Proofs

namespace Sys2Proof.Machine
open Sys2Proof Sys2Proof.Safety

/-! ## Booking queries (R79, R81, R395) -/

section
variable {s t : State} {l : Nat} {m : QueryMsg} {q : Req} {c : Cmd}

/-- A query the node takes up. -/
theorem bookingQuery_of_taken (hrun : running s = true) (hopen : gateOpened s = true) (hup : linkUp s l = true) (hj : jointAt s m.ticket false = none)
    (hmay : mayDecide s m.stall = true) :
    bookingQuery l m s = if nodeOf m.src = nodeNumber s ∨ nodeOf m.dst = nodeNumber s then peerQuery l m s else relayQuery l m s := by
  simp [bookingQuery, hrun, hopen, hup, hj, hmay]

theorem peerQuery_of_bad {x d : Nat} (h : heldChecks s m = .bad x d) : peerQuery l m s = replyRefused l m x d (decTick s m.stall) s := by
  simp only [peerQuery, h]

/-- What becomes of a query for a part that lies here, by the outcome of its booking. -/
def queryOutcome (l : Nat) (m : QueryMsg) (s : State) : (Nat × Nat) ⊕ (State × Req) → State
  | .inl (x, d) => replyRefused l m x d (decTick s m.stall) s
  | .inr (t, q) => holdPart l m (decTick s m.stall) q t

theorem peerQuery_of_booked (h : heldChecks s m = .good c)
    (hb : bookHeld { rid := s.gate.nextRid, cmd := 0, stall := m.stall, bulk := m.cls == 2, maxR := heldLast s m ((decTick s m.stall + confirmHold s) / 1280) } l
        (decTick s m.stall) ((decTick s m.stall + confirmHold s) / 1280) c (heldReq m (decTick s m.stall) c s) ((decTick s m.stall + confirmHold s) / 1280 + 1) (placePeer m) s
      = .inr (t, q)) : peerQuery l m s = holdPart l m (decTick s m.stall) q t := by
  simp only [peerQuery, h]
  exact congrArg (queryOutcome l m s) hb

theorem relayQuery_of_no_relay (h : cv s 0x8120 2 ≠ 1) : relayQuery l m s = replyRefused l m PROTECTION 0 (decTick s m.stall) s := by
  simp [relayQuery, h]

end

/-! ## Replies (R80, R82) -/

section
variable {s : State} {ticket st d rate : Nat} {j : Joint} {b : Arrival}

section
variable (hj : jointAt s ticket true = some j) (hrid : j.rid = 0) (hr : j.replied = false) (hn : jointAt s ticket false = none)
include hj hrid hr hn

/-- A reply in time, of a stall that may decide, at the origin. -/
theorem bookingReply_of_open (ht : now s ≤ j.sent + 2 * jointTb s j + 150) (hmay : mayDecide s j.q.stall = true)
    (hb : arrivalOf (setJoint ticket true (fun _ => { j with replied := true, replyTick := now s, status := st, d := d, rate := rate }) s)
      { j with replied := true, replyTick := now s, status := st, d := d, rate := rate } = some b) :
    bookingReply ticket st d rate s =
      if st = OK then replied b (setJoint ticket true (fun _ => { j with replied := true, replyTick := now s, status := st, d := d, rate := rate }) s)
      else refuse b (match askOf s b with | .inl (_, l) => l.length | .inr _ => b.entries.length) st (peerRetry s j st d (decTick s b.stall)) s := by
  have hgo : ¬ (j.rid ≠ 0 ∨ j.replied = true ∨ j.sent + 2 * jointTb s j + 150 < now s ∨ (!mayDecide s j.q.stall) = true) := by
    simp [hrid, hr, hmay, ht]
  simp only [bookingReply, hj, if_neg hgo, hn, hb] <;> rfl

/-- A query without a reply by its bound, at the origin. -/
theorem replyTimeout_of_late (ht : j.sent + 2 * jointTb s j + 150 < now s) (hb : arrivalOf s j = some b) :
    replyTimeout ticket s = refuse b (match askOf s b with | .inl (_, l) => l.length | .inr _ => b.entries.length) FAULT_LINK j.node s := by
  have hgo : ¬ (j.rid ≠ 0 ∨ j.replied = true ∨ now s ≤ j.sent + 2 * jointTb s j + 150) := by
    simp [hrid, hr, ht]
  simp only [replyTimeout, hj, if_neg hgo, hn, hb] <;> rfl

end

theorem replyTimeout_of_early (hj : jointAt s ticket true = some j) (ht : now s ≤ j.sent + 2 * jointTb s j + 150) : replyTimeout ticket s = s := by
  simp only [replyTimeout, hj]
  exact if_pos (.inr (.inr ht))

theorem replied_of_waiting (h : ∃ k ∈ jointsOf s b, k.replied = false) : replied b s = s := by
  obtain ⟨k, hk, hr⟩ := h
  refine if_neg fun hall => ?_
  have := List.all_eq_true.mp hall k hk
  simp [hr] at this

end

/-! ## Confirmations and completion messages (R81, R83) -/

section
variable {s : State} {ticket : Nat} {j : Joint}

section
variable (hj : jointAt s ticket false = some j)
include hj

theorem bookingConfirmation_of_held (hrid : j.rid ≠ 0) (hc : j.confirmed = false) (ht : now s ≤ j.replyTick + confirmHold s) (hn : jointAt s ticket true = none) :
    bookingConfirmation j.q.origin ticket s = setJoint ticket false (fun j => { j with confirmed := true }) s := by
  have hgo : ¬ (j.q.origin ≠ j.q.origin ∨ j.rid = 0 ∨ j.confirmed = true ∨ j.replyTick + confirmHold s < now s) := by
    simp [hrid, hc, ht]
  simp only [bookingConfirmation, hj, if_neg hgo, hn]

theorem bookingConfirmation_of_late (ht : j.replyTick + confirmHold s < now s) : bookingConfirmation j.q.origin ticket s = s := by
  simp only [bookingConfirmation, hj]
  exact if_pos (.inr (.inr (.inr ht)))

end

section
variable (hj : jointAt s ticket true = some j)
include hj

theorem partCompletionMessage_of_late (parts bytes status : Nat) (ht : j.bound < now s) : partCompletionMessage ticket parts bytes status s = s := by
  simp only [partCompletionMessage, hj]
  exact if_pos (.inr (.inr ht))

theorem jointBoundExpiry_of_early (ht : now s < j.bound) : jointBoundExpiry ticket s = s := by
  simp only [jointBoundExpiry, hj]
  exact if_pos (.inr (.inr ht))

variable (hrid : j.rid ≠ 0) (hd : j.done = false)
include hrid hd

theorem partCompletionMessage_of_transfer {q : Req} {c : Cmd} {x : Xfer} (parts bytes status : Nat) (ht : now s ≤ j.bound)
    (hq : reqOf (setJoint ticket true (fun j => { j with done := true }) s) j.rid = some q)
    (hc : cmdOf (setJoint ticket true (fun j => { j with done := true }) s) j.rid j.cmd = some c) (ho : c.status = none) (hw : c.work = .xfer x) :
    partCompletionMessage ticket parts bytes status s =
      let s1 := setJoint ticket true (fun j => { j with done := true }) s
      if remoteDst s x then endFromPeer q j.cmd x (parts % 2 ^ 16) bytes status s1
      else if status = OK then finishXfer q j.cmd x s1 else endPart j.rid j.cmd status 0 false s1 := by
  have hgo : ¬ (j.rid = 0 ∨ j.done = true ∨ j.bound < now s) := by
    simp [hrid, hd, ht]
  simp only [partCompletionMessage, hj, if_neg hgo, hq, hc, openCmd, ho, hw, Option.isNone_none, Bool.not_true, Bool.false_eq_true, if_false]

theorem jointBoundExpiry_of_due {c : Cmd} (hc : cmdOf (setJoint ticket true (fun j => { j with done := true }) s) j.rid j.cmd = some c) (ho : c.status = none)
    (ht : j.bound ≤ now s) : jointBoundExpiry ticket s = endCmd j.rid j.cmd FAULT_LINK j.node false
      (updCmd j.rid j.cmd (fun c => { c with parts := 0, started := true }) (setJoint ticket true (fun j => { j with done := true }) s)) := by
  have hgo : ¬ (j.rid = 0 ∨ j.done = true ∨ now s < j.bound) := by
    simp [hrid, hd, ht]
  simp only [jointBoundExpiry, hj, if_neg hgo, hc, openCmd, ho, Option.isNone_none, if_true]

end

end

end Sys2Proof.Machine

namespace Sys2Proof.Proofs
open Sys2Proof Sys2Proof.Machine Sys2Proof.Safety

/-- Settles O45. -/
theorem bookingQueriesAndReplies : Obligations.BookingQueriesAndReplies := by
  intro s l m hrun hopen hmay dt a n
  refine ⟨fun hup hj => ?_, fun j st d rate hj hrid hr hn ht hmay => ?_, fun j b hj hrid hr ht hn hb => ?_, fun j hj ht => ?_⟩
  · have hquery := congrArg (Host.Outcome.next (φ := Fault) (ρ := Refusal)) (bookingQuery_of_taken hrun hopen hup hj hmay)
    refine ⟨fun hhere => ?_, fun hsrc hdst hrelay => ?_⟩
    · rw [if_pos hhere] at hquery
      exact ⟨fun x d hbad => hquery.trans (congrArg Host.Outcome.next (peerQuery_of_bad hbad)),
        fun c t q hgood hb => ⟨_, hquery.trans (congrArg Host.Outcome.next (peerQuery_of_booked hgood hb)), rfl, rfl, rfl, rfl⟩⟩
    · rw [if_neg (not_or.mpr ⟨hsrc, hdst⟩)] at hquery
      exact hquery.trans (congrArg Host.Outcome.next (relayQuery_of_no_relay hrelay))
  · intro j' s1 b hb
    have hreply := congrArg (Host.Outcome.next (φ := Fault) (ρ := Refusal)) (bookingReply_of_open hj hrid hr hn ht hmay hb)
    refine ⟨fun hst => ?_, fun hst hwait => ?_⟩
    · rw [if_neg hst] at hreply
      exact ⟨_, hreply⟩
    · rw [if_pos hst, replied_of_waiting hwait] at hreply
      exact hreply
  · exact ⟨_, congrArg Host.Outcome.next (replyTimeout_of_late hj hrid hr hn ht hb)⟩
  · exact congrArg Host.Outcome.next (replyTimeout_of_early hj ht)

/-- Settles O47. -/
theorem jointPartsEnd : Obligations.JointPartsEnd := by
  intro s ticket j
  refine ⟨fun hj hrid hc ht hn => congrArg Host.Outcome.next (bookingConfirmation_of_held hj hrid hc ht hn),
    fun hj ht => congrArg Host.Outcome.next (bookingConfirmation_of_late hj ht), fun hj hrid hd => ?_⟩
  intro s1
  refine ⟨fun q c x parts bytes status ht hq hc ho hw => ?_, fun c hc ho ht => congrArg Host.Outcome.next (jointBoundExpiry_of_due hj hrid hd hc ho ht),
    fun parts bytes status ht => congrArg Host.Outcome.next (partCompletionMessage_of_late hj parts bytes status ht),
    fun ht => congrArg Host.Outcome.next (jointBoundExpiry_of_early hj ht)⟩
  have hmsg := congrArg (Host.Outcome.next (φ := Fault) (ρ := Refusal)) (partCompletionMessage_of_transfer hj hrid hd parts bytes status ht hq hc ho hw)
  refine ⟨fun hfar => ?_, fun hhere hok => ?_⟩
  · rwa [if_pos hfar] at hmsg
  · rwa [if_neg (by simp [hhere]), if_pos hok] at hmsg

end Sys2Proof.Proofs

namespace Sys2Proof.Machine
open Sys2Proof Sys2Proof.Safety

/-! ## Whole writes to the windows (R19-R22, R379, R417) -/

/-- The low bytes of a value, each at its place, sum to it. -/
theorem sum_bytes (v : Nat) : ∀ n, ((List.range n).map (fun i => bits v (8 * i + 7) (8 * i) * 2 ^ (8 * i))).foldl (· + ·) 0 = v % 2 ^ (8 * n)
  | 0 => by simp [Nat.mod_one]
  | n + 1 => by
    have hwidth : 8 * n + 7 + 1 - 8 * n = 8 := by omega
    rw [List.range_succ, List.map_append, List.foldl_append, sum_bytes v n]
    simp only [List.map_cons, List.map_nil, List.foldl_cons, List.foldl_nil, bits, hwidth]
    rw [show 8 * (n + 1) = 8 * n + 8 from rfl, Nat.pow_add, Nat.mod_mul, Nat.mul_comm (2 ^ (8 * n))]

/-- A write of all eight bytes replaces the word. -/
theorem mergeWord_whole (old : Nat) {v : Nat} (h : v < 2 ^ 64) : mergeWord old v 255 = v := by
  have hbit : ∀ i ∈ List.range 8, bit 255 i = true := by decide
  have hbytes : mergeWord old v 255 = ((List.range 8).map (fun i => bits v (8 * i + 7) (8 * i) * 2 ^ (8 * i))).foldl (· + ·) 0 := by
    unfold mergeWord
    refine congrArg (List.foldl (· + ·) 0) (List.map_congr_left fun i hi => ?_)
    rw [hbit i hi, if_pos rfl]
  rw [hbytes, sum_bytes]
  exact Nat.mod_eq_of_lt h

theorem slice_word (v : Nat) : slice (leBytes 8 v) 0 8 = leBytes 8 v := rfl
theorem isEmpty_word (v : Nat) : (leBytes 8 v).isEmpty = false := rfl
theorem leNat_word {v : Nat} (h : v < 2 ^ 64) : leNat (leBytes 8 v) = v := leNat_leBytes 8 v (Nat.lt_of_lt_of_eq h (by rw [show (256 : Nat) = 2 ^ 8 from rfl, ← Nat.pow_mul]))

/-- An aligned access of eight bytes has one part. -/
theorem partsOf_aligned {off : Nat} (h : off % 8 = 0) : partsOf off 8 = [off] := by
  have hone : (off + 8 + 7) / 8 - off / 8 = 1 := by omega
  have hback : off / 8 * 8 = off := by omega
  simp [partsOf, hone, hback]

section
variable {s : State} {src : Accessor} {off v : Nat}

/-- Before the Gate opens a write is discarded (R517). -/
theorem winWrite_of_closed (h : gateOpened s = false) (data : List Byte) (mask : Nat) : winWrite src off data mask s = s := by
  simp [winWrite, h]

section
variable (h : gateOpened s = true) (h8 : off % 8 = 0)
include h h8

theorem winWrite_of_reached (hv : v < 2 ^ 64) (hr : reachesPart s src (winPart off) = true) : winWrite src off (leBytes 8 v) 255 s = winWritePart src (winPart off) v 255 s := by
  have hmask : 255 * 2 ^ 0 / 2 ^ 0 % 256 = 255 := rfl
  unfold winWrite
  dsimp only
  rw [length_leBytes, partsOf_aligned h8]
  refine (if_neg (by simp [h, isEmpty_word])).trans ((if_neg (by simp [hr])).trans ?_)
  simp only [List.zipIdx_singleton, List.foldl_cons, List.foldl_nil]
  rw [h8]
  simp only [Nat.mul_zero, List.replicate_zero, List.nil_append]
  rw [slice_word, leNat_word hv, hmask]
  exact if_neg (by decide)

theorem winWrite_of_foreign (hr : reachesPart s src (winPart off) = false) : winWrite src off (leBytes 8 v) 255 s = protectionRec src (gaddr s off) 3 s := by
  simp [winWrite, h, h8, isEmpty_word, partsOf_aligned h8, hr]

end

/-! ### Where the parts lie -/

theorem winPart_doorbell {c : Nat} (h : c < 16384) : winPart (windowBase + 4096 * c) = .doorbell c 0 := by
  have hx : windowBase + 4096 * c - windowBase = 4096 * c := Nat.add_sub_cancel_left ..
  have hin : 4096 * c < 0x04000000 := by omega
  simp only [winPart, hx, if_pos hin, Nat.mul_div_cancel_left c (show 0 < 4096 by decide), Nat.mul_mod_right, Nat.zero_div]

theorem winPart_tally {k i : Nat} (h : k < 16384) (hi : i < 8) : winPart (tallyOff k i) = .tally k i := by
  have hx : tallyOff k i - windowBase = 0x04000000 + (64 * k + 8 * i) := by unfold tallyOff; omega
  have hno : ¬ (0x04000000 + (64 * k + 8 * i) < 0x04000000) := by omega
  have hin : 0x04000000 + (64 * k + 8 * i) < 0x04100000 := by omega
  have hk : (0x04000000 + (64 * k + 8 * i) - 0x04000000) / 64 = k := by omega
  have hpart : (0x04000000 + (64 * k + 8 * i)) % 64 / 8 = i := by omega
  simp only [winPart, hx, if_neg hno, if_pos hin, hk, hpart]

theorem winPart_mover {n i : Nat} (h : n < 256) (hi : i < 8) : winPart (moverOff n (8 * i)) = .mover n i := by
  have hx : moverOff n (8 * i) - windowBase = 0x04100000 + (64 * n + 8 * i) := by unfold moverOff; omega
  have hno : ¬ (0x04100000 + (64 * n + 8 * i) < 0x04000000) := by omega
  have hno' : ¬ (0x04100000 + (64 * n + 8 * i) < 0x04100000) := by omega
  have hin : 0x04100000 + (64 * n + 8 * i) < 0x04104000 := by omega
  have hn : (0x04100000 + (64 * n + 8 * i) - 0x04100000) / 64 = n := by omega
  have hpart : (0x04100000 + (64 * n + 8 * i)) % 64 / 8 = i := by omega
  simp only [winPart, hx, if_neg hno, if_neg hno', if_pos hin, hn, hpart]

theorem doorbell_aligned (c : Nat) : (windowBase + 4096 * c) % 8 = 0 := by unfold windowBase; omega
theorem tallyOff_aligned (k i : Nat) : tallyOff k i % 8 = 0 := by unfold tallyOff windowBase; omega
theorem moverOff_aligned (n i : Nat) : moverOff n (8 * i) % 8 = 0 := by unfold moverOff windowBase; omega

/-! ### What a whole word does to each part -/

section
variable {st n k : Nat} (w : Word64)

theorem doorbell_of_in_range {c word : Nat} (h1 : (ctxOf s c).state = 1) (ht : (BitVec.ofNat 32 word - (ctxOf s c).cqTaken).toNat ≤ cv s 0x9100 3 c)
    (hh : ((ctxOf s c).crWritten - BitVec.ofNat 32 (word / 2 ^ 32)).toNat ≤ ((ctxOf s c).crWritten - (ctxOf s c).crHead).toNat) :
    doorbell c word s = setCtx c { ctxOf s c with cqTail := BitVec.ofNat 32 word, crHead := BitVec.ofNat 32 (word / 2 ^ 32) } s := by
  refine if_pos ?_
  simp only [h1, decide_eq_true ht, decide_eq_true hh, BEq.rfl, Bool.and_self]

section
variable (hfree : ¬(1 ≤ moverState (moverOf s n) ∧ moverState (moverOf s n) ≤ 3)) (c : Option Nat)
include hfree

/-- A whole write of SRC, DST, COUNT or CTRL of a channel that is not busy. -/
theorem moverWrite_of_free {v : Nat} (hv : v < 2 ^ 64) :
    moverWrite n 0 v 255 c s = setMover n { moverOf s n with src := BitVec.ofNat 64 v } s
    ∧ moverWrite n 1 v 255 c s = setMover n { moverOf s n with dst := BitVec.ofNat 64 v } s
    ∧ moverWrite n 2 v 255 c s = setMover n { moverOf s n with count := BitVec.ofNat 64 v } s
    ∧ moverWrite n 3 v 255 c s = writeCtrl n v c s := by
  have hmerge (old : Nat) : mergeWord old v 255 = v := mergeWord_whole old hv
  refine ⟨?_, ?_, ?_, ?_⟩
  all_goals
    unfold moverWrite
    refine (if_neg (by decide)).trans ((if_neg hfree).trans ?_)
    simp only [hmerge]
  all_goals rfl

end

theorem moverWrite_of_busy (hbusy : 1 ≤ moverState (moverOf s n) ∧ moverState (moverOf s n) ≤ 3) (v mask : Nat) (c : Option Nat) :
    moverWrite n 0 v mask c s = errRec 0x82 n 0 0xFFFF (chanStall s n) 0 false false s := by
  unfold moverWrite
  exact (if_neg (by decide)).trans (if_pos hbusy)

end

/-- What a write of a tally's part comes to: that of VALUE, that of ADD, and no change for the others. -/
def tallyPart (value add other : State) (part : Nat) : State := match part with | 0 => value | 1 => add | _ => other

theorem tallyPart_value (value add other : State) : tallyPart value add other 0 = value := rfl
theorem tallyPart_add (value add other : State) : tallyPart value add other 1 = add := rfl

theorem tallyWrite_eq (st k part v mask : Nat) (s : State) : tallyWrite st k part v mask s
    = tallyPart (tallySet k (BitVec.ofNat 64 (mergeWord (tallyVal s k) v mask)) s) (tallyAddSoft st k (mergeWord 0 v mask) s) s part := rfl

/-! ### The rows of the windows -/

section
variable {st n k c : Nat} (w : Word64)

/-- Before the Gate opens every write is discarded. -/
theorem windowRows_of_closed (h : gateOpened s = false) : (∀ off data, doorbellWrite src c off data s = s) ∧ moverGo src n w s = s
    ∧ (∀ off, registerWrite src n off w s = s) ∧ tallyAddWrite src k w s = s ∧ tallyValueWrite src k w s = s := by
  have hclosed {off : Nat} (data : List Byte) (mask : Nat) : winWrite src off data mask s = s := winWrite_of_closed h data mask
  refine ⟨fun off data => ?_, ?_, fun off => ?_, ?_, ?_⟩
  · rw [doorbellWrite, hclosed, ite_self]
  · rw [moverGo, hclosed, ite_self]
  · rw [registerWrite, hclosed, ite_self]
  · rw [tallyAddWrite, hclosed, ite_self]
  · rw [tallyValueWrite, hclosed, ite_self]

/-- The write of a whole doorbell word lies at the start of its context's page. -/
theorem doorbellWrite_page (hc : c < 16384) : doorbellWrite src c 0 (leBytes 8 w.toNat) s = winWrite src (windowBase + 4096 * c) (leBytes 8 w.toNat) 255 s := by
  have hin : 0 + (leBytes 8 w.toNat).length ≤ 4096 ∧ c < 16384 := ⟨by rw [length_leBytes]; decide, hc⟩
  have hmask : 2 ^ 8 - 1 = 255 := rfl
  rw [doorbellWrite, if_pos hin, length_leBytes, Nat.add_zero, hmask]

section
variable (h : gateOpened s = true)
include h

theorem doorbellWrite_of_own (hc : c < 16384) (hown : ownsPage s src c = true) : doorbellWrite src c 0 (leBytes 8 w.toNat) s = doorbell c w.toNat s := by
  have hpart := winPart_doorbell hc
  have hwrite := winWrite_of_reached (v := w.toNat) h (doorbell_aligned c) w.isLt (by rw [hpart]; exact hown)
  rw [doorbellWrite_page w hc, hwrite, hpart, winWritePart, mergeWord_whole _ w.isLt]

theorem doorbellWrite_of_foreign (hc : c < 16384) (hown : ownsPage s src c = false) :
    doorbellWrite src c 0 (leBytes 8 w.toNat) s = protectionRec src (gaddr s (windowBase + 4096 * c)) 3 s := by
  rw [doorbellWrite_page w hc, winWrite_of_foreign h (doorbell_aligned c) (by rw [winPart_doorbell hc]; exact hown)]

section
variable (hst : accStall s src = some st)
include hst

omit h in
theorem reachesPart_mover (n i : Nat) : reachesPart s src (.mover n i) = ownsChan s st n := by
  simp only [reachesPart, hst]

omit h in
theorem reachesPart_tally (k i : Nat) : reachesPart s src (.tally k i) = reachesTally s st k := by
  simp only [reachesPart, hst]

theorem winWrite_mover {i v : Nat} (hn : n < 256) (hi : i < 8) (hown : ownsChan s st n = true) (hv : v < 2 ^ 64) :
    winWrite src (moverOff n (8 * i)) (leBytes 8 v) 255 s = moverWrite n i v 255 (accCtx s src) s := by
  have hpart := winPart_mover hn hi
  rw [winWrite_of_reached h (moverOff_aligned n i) hv (by rw [hpart, reachesPart_mover hst, hown]), hpart]
  rfl

theorem registerWrite_own {i v : Nat} (hn : n < 256) (hi : i < 8) (hown : ownsChan s st n = true) (hv : v = if 8 * i = 24 then w.toNat / 2 * 2 else w.toNat) :
    registerWrite src n (8 * i) w s = moverWrite n i v 255 (accCtx s src) s := by
  have hlt : v < 2 ^ 64 := by
    have := w.isLt
    rw [hv]
    split <;> omega
  refine (if_pos ⟨hn, by omega, by omega⟩).trans ?_
  rw [← hv]
  exact winWrite_mover h hst hn hi hown hlt

theorem moverGo_own (hn : n < 256) (hown : ownsChan s st n = true) : moverGo src n w s = moverWrite n 3 (w ||| 1).toNat 255 (accCtx s src) s :=
  (if_pos hn).trans (winWrite_mover (i := 3) h hst hn (by decide) hown (w ||| 1).isLt)

section
variable (hk : k < 16384)
include hk

theorem winWrite_tally {i : Nat} (hi : i < 8) (hr : reachesTally s st k = true) :
    winWrite src (tallyOff k i) (leBytes 8 w.toNat) 255 s = tallyWrite st k i w.toNat 255 s := by
  have hpart := winPart_tally hk hi
  rw [winWrite_of_reached h (tallyOff_aligned k i) w.isLt (by rw [hpart, reachesPart_tally hst, hr]), hpart, winWritePart, hst, Option.getD_some]

theorem tallyWrites_of_reached (hr : reachesTally s st k = true) :
    tallyAddWrite src k w s = tallyAddSoft st k w.toNat s ∧ tallyValueWrite src k w s = tallySet k w s := by
  refine ⟨(if_pos hk).trans ((winWrite_tally w h hst hk (by decide) hr).trans ?_), (if_pos hk).trans ((winWrite_tally w h hst hk (by decide) hr).trans ?_)⟩
  · rw [tallyWrite_eq, tallyPart_add, mergeWord_whole _ w.isLt]
  · rw [tallyWrite_eq, tallyPart_value, mergeWord_whole _ w.isLt, BitVec.ofNat_toNat, BitVec.setWidth_eq]

theorem tallyWrites_of_foreign (hr : reachesTally s st k = false) : tallyAddWrite src k w s = protectionRec src (gaddr s (tallyOff k 1)) 3 s
    ∧ tallyValueWrite src k w s = protectionRec src (gaddr s (tallyOff k 0)) 3 s := by
  have hno {i : Nat} (hi : i < 8) : reachesPart s src (winPart (tallyOff k i)) = false := by
    rw [winPart_tally hk hi, reachesPart_tally hst, hr]
  exact ⟨(if_pos hk).trans (winWrite_of_foreign h (tallyOff_aligned k 1) (hno (by decide))),
    (if_pos hk).trans (winWrite_of_foreign h (tallyOff_aligned k 0) (hno (by decide)))⟩

end

end

end

end

/-- A software write to VALUE clears OVERFLOW, where nothing has advanced the tally at the present tick. -/
theorem tallySet_of_quiet {k : Nat} (w : Word64) (h : tickSum s k = 0) : tallySet k w s = setTally k { tallyOf s k with value := w, overflow := false } s := by
  have hlt : w.toNat < 2 ^ 64 := w.isLt
  have hno : decide (2 ^ 64 ≤ w.toNat) = false := decide_eq_false (Nat.not_le.mpr hlt)
  simp only [tallySet, h, Nat.add_zero, saturate, if_pos hlt, hno, BitVec.ofNat_toNat, BitVec.setWidth_eq]

end

end Sys2Proof.Machine

namespace Sys2Proof.Proofs
open Sys2Proof Sys2Proof.Machine Sys2Proof.Safety

/-- Settles O48. -/
theorem windowAccesses : Obligations.WindowAccesses := by
  refine ⟨fun s src v h => ⟨fun c hc hown => ⟨congrArg Host.Outcome.next (doorbellWrite_of_own v h hc hown), fun h1 ht hh => doorbell_of_in_range h1 ht hh⟩,
    fun st n hn hst hown hfree => ?_, fun st n hn hst hown h1 h3 => ?_, fun st k hk hst hr => ?_⟩,
    fun s src v c n k => ⟨fun h => ?_, fun h hc hown => congrArg Host.Outcome.next (doorbellWrite_of_foreign v h hc hown), fun st h hk hst hr => ?_⟩⟩
  · have hword : BitVec.ofNat 64 v.toNat = v := by simp
    obtain ⟨hsrc, hdst, hcount, -⟩ := moverWrite_of_free hfree (accCtx s src) v.isLt
    obtain ⟨-, -, -, hgo⟩ := moverWrite_of_free hfree (accCtx s src) (v ||| 1).isLt
    obtain ⟨-, -, -, hctrl⟩ := moverWrite_of_free hfree (accCtx s src) (show v.toNat / 2 * 2 < 2 ^ 64 by have := v.isLt; omega)
    rw [hword] at hsrc hdst hcount
    exact ⟨congrArg Host.Outcome.next ((moverGo_own v h hst hn hown).trans hgo),
      congrArg Host.Outcome.next ((registerWrite_own (i := 0) v h hst hn (by decide) hown rfl).trans hsrc),
      congrArg Host.Outcome.next ((registerWrite_own (i := 1) v h hst hn (by decide) hown rfl).trans hdst),
      congrArg Host.Outcome.next ((registerWrite_own (i := 2) v h hst hn (by decide) hown rfl).trans hcount),
      congrArg Host.Outcome.next ((registerWrite_own (i := 3) v h hst hn (by decide) hown rfl).trans hctrl)⟩
  · exact congrArg Host.Outcome.next ((registerWrite_own (i := 0) v h hst hn (by decide) hown rfl).trans (moverWrite_of_busy ⟨h1, h3⟩ _ _ _))
  · obtain ⟨hadd, hset⟩ := tallyWrites_of_reached v h hst hk hr
    exact ⟨congrArg Host.Outcome.next hadd, congrArg Host.Outcome.next hset, tallySet_of_quiet v⟩
  · obtain ⟨hbell, hgo, hreg, hadd, hset⟩ := windowRows_of_closed (src := src) (c := c) (n := n) (k := k) v h
    exact ⟨fun off data => congrArg Host.Outcome.next (hbell off data), congrArg Host.Outcome.next hgo, fun off => congrArg Host.Outcome.next (hreg off),
      congrArg Host.Outcome.next hadd, congrArg Host.Outcome.next hset⟩
  · obtain ⟨hadd, hset⟩ := tallyWrites_of_foreign v h hst hk hr
    exact ⟨congrArg Host.Outcome.next hadd, congrArg Host.Outcome.next hset⟩

end Sys2Proof.Proofs
